-- ==== Sys2Proof/Word.lean ====
section
/-! DEFINITION. The word types of the GZ4 and the names of its four columns. -/

namespace Sys2Proof

abbrev Byte := BitVec 8
abbrev Half := BitVec 16
abbrev W32 := BitVec 32
abbrev W64 := BitVec 64

/-- The four issue streams of a core (R98), in the order that settles every tie (R34). -/
inductive Col where
  | S | V | M | X
  deriving DecidableEq, Repr

/-- COL codes of R312 and R344. -/
def Col.code : Col → Nat
  | .S => 0 | .V => 1 | .M => 2 | .X => 3

/-- Bits `lo + n - 1 : lo` of a number, as an `n`-bit field (R4). -/
def fld (w lo n : Nat) : BitVec n := BitVec.ofNat n (w / 2 ^ lo)

/-- The same bits as a number. -/
def bits (w lo n : Nat) : Nat := w / 2 ^ lo % 2 ^ n

end Sys2Proof
end

