-- ==== Sys2Proof/Config.lean ====
section
/-! DEFINITION. What one installation of the machine fixes, and the free values: constants without a body, applied to
a counter of the state or to what they depend on, so that nothing can be proved of the value they take (log entry 2). -/

namespace Sys2Proof.Config

/-- Packages whose links are joined; DOMAIN numbers them (R337). DESIGN CHOICE (log entry 10). -/
def packages : Nat := 4

/-- The cycle a sample or perform takes within its window, as an offset from 0 to 768 (R90, R225, R235, R236). -/
opaque window : Nat → Nat

/-- By how many cycles a transfer of a lenient sheet falls later than stated (R31, R276). -/
opaque late : Nat → Nat

/-- Which of several values a race leaves, or a read of a written invariant location returns (R274, R275). -/
opaque which : Nat → Nat

/-- How many further seams the loading of a sheet takes (R17). -/
opaque loading : Nat → Nat

/-- A byte or a choice that a race leaves open (R274), a byte that R317 or R275 leaves open. -/
opaque byte : Nat → Byte
opaque choice : Nat → Bool

/-- Words of which the spec states only that they are there: parts of SPDM answers, measured energy, temperatures, repair
maps, measured latencies, the base that the driver gives a record pool. -/
opaque word : Nat → W64

/-- Byte `i` of a part of the save image whose layout the spec leaves open, for what the part holds (R355). -/
opaque layout {α : Type} : α → Nat → Byte

/-- The FP32 pattern that a code of a RAW bank stands for, and the code of an FP32 pattern there (R64, R79). -/
opaque rawValue : Nat → Nat
opaque rawCode : Nat → Nat

/-- Whether a debug token is signed under a fused key, and what it grants: a debug state and the partition it is for (R372). -/
opaque tokenValid : List W64 → Bool
opaque tokenGrant : List W64 → Nat × Nat

/-- Whether an identity key and its certificate chain are fused (R370, R373). -/
opaque identity : Bool

/-- Firmware images by number: their bytes, whether the signature is good, the rollback index (R370, R371). -/
opaque firmware : Nat → List Byte
opaque firmwareGood : Nat → Bool
opaque rollback : Nat → Nat

/-- SHA-384, which the spec names and does not restate (R370). -/
opaque sha384 : List Byte → List Byte

/-- What codec number 0 to 2 makes of a bitstream, given as its bytes (R380): display size, whether the bitstream is sound, and
the 10-bit samples (plane, row, column). -/
opaque codedWidth : Nat → (Nat → Byte) → Nat
opaque codedHeight : Nat → (Nat → Byte) → Nat
opaque bitstreamGood : Nat → (Nat → Byte) → Bool
opaque sample : Nat → (Nat → Byte) → Nat → Nat → Nat → Nat

/-- What a lease or a voltage trial meets: the master's decision to announce a revocation, the current imbalance of a
cluster pair that the ballast setting does not cover (R377, R383). -/
opaque ballast : Nat → Nat

end Sys2Proof.Config
end

