-- ==== Sys2Proof/Syntax.lean ====
section
/-! DEFINITION. The instructions of the GZ4: one constructor per row of spec/opcode_table.json. The 227 Lomor forms
carry the operand fields of their word (Y and D stand in `Decoded`, R98); the 98 rows without an encoding are whole
steps of the machine and carry what a pending step has to remember. Cycles in these payloads are task cycles. -/

namespace Sys2Proof

/-- An access descriptor of R344: core key (package index * 256 + logical id), column, word address, first cycle; and
the cycle at which the word issued (R272). -/
structure Desc where
  k : Nat
  col : Col
  addr : Nat
  start : Nat
  iss : Nat
  deriving DecidableEq, Repr

/-- A scalar destination: an s-register, a p-register (R121), a special register that WRSP, SHAPE or RRB writes from
the cycle after its issue (R138, R146). -/
inductive RegRef where
  | s (n : Nat)
  | p (n : Nat)
  | sp (n : Nat)
  deriving DecidableEq, Repr

/-- What a V word writes at its completion (R150): lanes of physical v-registers, words of q-registers, where there is
a value; flags of R60. -/
structure VResult where
  v : List (Nat × List (Option W32))
  q : List (Nat × List (Option Half))
  fl : BitVec 6
  deriving DecidableEq, Repr

/-- A scratchpad access of the S column (R131, R132): `store = none` is a load. -/
structure SAccess where
  d : Desc
  addr : Nat
  size : Nat
  sext : Bool
  rd : Nat
  store : Option W64
  deriving DecidableEq, Repr

inductive AtomKind where
  | add | min | max | swp | cas
  deriving DecidableEq, Repr

/-- An atomic of R133 with the operands it read at issue. -/
structure AtomOp where
  d : Desc
  op : AtomKind
  addr : Nat
  size : Nat
  b : W64
  e : W64
  rd : Nat
  deriving DecidableEq, Repr

/-- One access of a movement: the cycle, the bank address, the length in bytes, the offset in the stream, and for a
write its bytes (`none` where the byte is not written). `nib` is a bit mask per byte for 4-bit elements, else empty. -/
structure Piece where
  cyc : Nat
  addr : Nat
  len : Nat
  off : Nat
  data : List (Option Byte)
  nib : List Nat
  deriving DecidableEq, Repr

/-- How a vector register meets a bank (R162). -/
inductive Path where
  | bit
  | value (w : Nat)
  deriving DecidableEq, Repr

/-- A bank's format register (R78): format code, codebook, scale (FP32 bits), policy. -/
structure BankFmt where
  fmt : Nat
  cb : List Half
  scale : Nat
  pol : Nat
  deriving DecidableEq, Repr

/-- A transfer of R223 to R225, R245. `h` hops to package `peer` (package index); `va` is the virtual address; `n` the
scratchpad bytes; `probe` marks a probe fill (entry, frame); `w` the element width of a converting FETCH; `late` the
cycles by which a lenient sheet's transfer falls later than stated (R31, R276). -/
structure Xfer where
  d : Desc
  sh : Nat
  read : Bool
  remote : Bool
  h : Nat
  peer : Nat
  va : Nat
  n : Nat
  g : Nat
  roff : Nat
  f : Nat
  cls : Nat
  credit : Option Nat
  cv : Bool
  inv : Bool
  off : Bool
  probe : Option (Nat × Nat)
  w : Nat
  late : Nat
  deriving DecidableEq, Repr

/-- A SEND or SENDB (R226, R227): `dst` is the destination core's key, `ring` its ring with the reserved offset, `addr`
its scratchpad address when it is a SENDB; `ws`, `wd` the element widths, fixed at issue. -/
structure SendRun where
  d : Desc
  sh : Nat
  dst : Nat
  n : Nat
  land : Nat
  f : Nat
  cls : Nat
  gs : Nat
  soff : Nat
  ring : Option (Nat × Nat)
  addr : Nat
  ws : Nat
  wd : Nat
  credit : Option Nat
  off : Bool
  deriving DecidableEq, Repr

/-- A copy of R229 to R231: dimensions are (size, source stride, destination stride), `lastWrite`
the cycle of the last write into each frame (R171). -/
structure CopyRun where
  d : Desc
  sh : Nat
  src : Nat
  dst : Nat
  cls : Nat
  dims : List (Nat × Int × Int)
  elems : Nat
  f : Nat
  ws : Nat
  wd : Nat
  fs : Nat
  fd : Nat
  lastWrite : List (Nat × Nat)
  credit : Option Nat
  off : Bool
  deriving DecidableEq, Repr

/-- A weave run of one core (R233 to R237): levels are (bound, source stride, destination stride, PA, PB). -/
structure WeaveRun where
  d : Desc
  sh : Nat
  op : Nat
  bf16 : Bool
  heap : Bool
  rel : Bool
  cls : Nat
  chunk : Nat
  cadence : Nat
  p : Nat
  hmax : Nat
  src : Nat
  dst : Nat
  buf : Nat
  stat : Nat
  levels : List (Nat × Int × Int × Int × Int)
  seq : W32
  f : Nat
  credit : Option Nat
  off : Bool
  deriving DecidableEq, Repr

/-- What samples HBM bytes (R90): beat `i` of a transfer, or transfer `j` of a weave with a heap source. -/
inductive Sampler where
  | xfer (x : Xfer) (i : Nat)
  | weave (w : WeaveRun) (j : Nat)
  deriving DecidableEq, Repr

/-- A flit group of one transfer on one hop (R241, R339): it entered port `port` of package index `pkg` at `enter` and
leaves for the remaining hops (package index, port); its transfer lands or performs by `land`. -/
structure Flit where
  d : Desc
  sh : Nat
  pkg : Nat
  port : Nat
  enter : Nat
  bytes : Nat
  land : Nat
  rest : List (Nat × Nat)
  deriving DecidableEq, Repr

/-- A ragged aggregate in progress (R177, R178): the active lanes in order, table address of a restart, how the walk has
filled lanes so far (`some start`, or `none` for padding), entries read, completion cycle. -/
structure RaggedRun where
  d : Desc
  lanes : List Nat
  vd : Nat
  qd : Nat
  restart : Option Nat
  plan : List (Option Bool)
  reads : Nat
  done : Nat
  deriving DecidableEq, Repr

/-- One STBL (R263, R264). -/
structure TableRun where
  d : Desc
  mode : Nat
  st : Nat
  bank : Bool
  line : Nat
  count : Nat
  addr : Nat
  f : Nat
  deriving DecidableEq, Repr

/-- What a felt-lane movement does with the bytes it meets; `done` is the cycle at which its result is there, `paths`
the path of each bank as decided at issue (R162). -/
inductive MoveKind where
  | load (vd done : Nat) (mask : List Half) (paths : List (Nat × Path))
  | ragged (r : RaggedRun)
  | store
  | maskBlock (done : Nat)
  | stow (x : Xfer)
  | send (x : SendRun)
  | weave (w : WeaveRun) (j : Nat)
  | actIn
  | plyIn (slot : Nat) (outlier : Bool)
  | tableIn (t : TableRun)
  | skip (wr : Bool)
  deriving DecidableEq, Repr

/-- A movement over a felt lane (R76, R163): core key of the bank, alias class, its first lane and its unit's station,
the ring it reads or fills with the absolute ring offset of stream byte 0, the bytes of one beat, the tag its first read
expects (VLDT), lanes and bytes gathered so far (`none` where nothing was delivered), flags met. -/
structure Move where
  d : Desc
  k : Nat
  cls : Nat
  lane : Nat
  unit : Nat
  kind : MoveKind
  ring : Option (Nat × Nat)
  beat : Nat
  tag : Option Half
  lanes : List (Option W32)
  bytes : List (Option Byte)
  fl : BitVec 6
  deriving DecidableEq, Repr

/-- A V store between issue and its conversion at issue + 2 (R162): felt lane, the register's lanes and which of them
are stored, the address runs of the stream, the byte mask of VSTM (R167), the item addresses in bits of VSCAT (R169).
`pol = none` takes each bank's own policy (R65). -/
structure StoreRun where
  d : Desc
  lane : Nat
  cls : Nat
  paths : List (Nat × Path)
  rm : Nat
  pol : Option Nat
  lanes : List W32
  on : List Bool
  runs : List (Nat × Nat)
  ring : Option (Nat × Nat)
  mbytes : Option (List Bool)
  items : Option (List (Nat × Nat))
  deriving DecidableEq, Repr

/-- A gather or scatter (R169 to R171): felt lane, path, each lane's item (lane, bit address, encoded bits of a scatter),
gathered values. -/
structure GatherRun where
  d : Desc
  scat : Bool
  lane : Nat
  vd : Nat
  cls : Nat
  path : Path
  item : List (Nat × Nat × Nat)
  got : List (Nat × W32)
  fl : BitVec 6
  deriving DecidableEq, Repr

/-- A MOUT in progress (R215, R216). -/
structure OutRun where
  d : Desc
  a : Nat
  g : Nat
  roff : Nat
  fmt : Nat
  rm : Nat
  pol : Nat
  f : Nat
  deriving DecidableEq, Repr

/-- A PATCH (`val = some`) or ARM held by the mill controller until the couch (R248, R249). -/
structure Held where
  sh : Nat
  k : Nat
  rcd : Nat
  field : Nat
  val : Option W64
  deriving DecidableEq, Repr

/-- Causes of a hold unit, in the order of R333. -/
inductive HoldCause where
  | extension | reliability | preemption | debug | current | thermal | slew | powerCap
  deriving DecidableEq, Repr

/-- A pending step: the rows of the table that have no encoding, as the agenda holds them. `Act.instr` names the row;
the two lists stand apart because an inductive type of this size has constructors the compiler cannot build. -/
inductive Act where
  | repRepetition (k i : Nat)
  | rotatingIterationBoundary (k i n st : Nat)
  | lenientStallRecheck (sh : Nat)
  | registerWriteback (k : Nat) (r : RegRef) (v : W64) (fl : BitVec 6)
  | vResultWriteback (k : Nat) (r : VResult)
  | sScratchAccess (k : Nat) (a : SAccess)
  | atomRead (k : Nat) (a : AtomOp)
  | atomWrite (k : Nat) (a : AtomOp) (old : W64)
  | laneBeat (m : Move) (ps : List Piece)
  | vStoreConversion (m : StoreRun)
  | sidecarAttach (k g tile : Nat) (vals : List W32)
  | gatherScatterAccess (g : GatherRun) (items : List (Nat × Nat))
  | raggedTableRead (r : RaggedRun) (e : Nat)
  | hbmSample (x : Sampler)
  | hbmPerform (x : Xfer) (off : Nat) (data : List Byte)
  | readBeatLanding (x : Xfer) (i : Nat) (data : List Byte)
  | transferCredit (k b n : Nat)
  | sendBeatLanding (x : SendRun) (i : Nat) (fmts : List BankFmt) (data : List (List W32))
  | copyStep (c : CopyRun) (wr : Bool) (items : List (Nat × Nat))
  | weaveEmission (w : WeaveRun) (j : Nat)
  | weaveContribution (w : WeaveRun) (j : Nat)
  | weaveStatusWrite (w : WeaveRun)
  | linkFlitRelease (l : Flit)
  | plyHeaderRead (k slot : Nat)
  | plySpanEnd (k : Nat)
  | mmadSpanEnd (k : Nat)
  | mdropPop (k a gw : Nat) (rd : Bool) (d : Desc)
  | mzeroEffect (k a : Nat)
  | maddEffect (k ad as : Nat)
  | mscaleMbiasEffect (k a : Nat) (scale : Bool) (c : List W32)
  | moutRow (m : OutRun) (row : Nat)
  | moutbWrite (k v : Nat) (vals : List W32)
  | maskArm (k : Nat) (block : List Byte)
  | probeResult (k pd sd : Nat) (hit : Bool) (frame : Nat)
  | pinvEffect (k : Nat) (all : Bool) (block : Nat)
  | ringcfgEffect (k g : Nat) (cfg : W64)
  | patchArmCheck (h : Held) (d : Desc)
  | screenAdmission (k y : Nat)
  | screenStageLookup (k y st : Nat)
  | screenStageAction (k y st : Nat)
  | screenExit (k y : Nat)
  | screenSpanEnd (k : Nat)
  | stblLine (t : TableRun) (i : Nat) (bytes : List Byte)
  | peerAbortStop (sh pkg : Nat)
  | watchdog (sh : Nat)
  | sheetEnd (sh : Nat)
  | armCommand (pkg part rcd : Nat)
  | partition (pkg p : Nat) (w0 w1 w2 w3 : W64)
  | domain (pkg : Nat) (w1 w2 w3 : W64)
  | lease (pkg mhz periods : Nat)
  | power (pkg st : Nat)
  | debugToken (pkg : Nat) (token : List W64)
  | vatcfg (pkg size : Nat)
  | readRepairMap (pkg stack : Nat)
  | readTemperatures (pkg stack : Nat)
  | placement (part : Nat)
  | sheetAlignment (sh : Nat)
  | maintenanceSlot
  | holdUnit (c : HoldCause)
  | slotEnd
  | linkFailure (pkg port : Nat)
  | marginRestore (pkg pair : Nat) (loc : Nat)
  | contextSave (sh : Nat)
  | resume (sh : Nat)
  | irrevocableFreeze (sh : Nat)
  | irrevocableCouch (sh : Nat)
  | couch (sh : Nat)
  | couchPrepare (sh pkg : Nat)
  | couchDecide (sh : Nat)
  | couchApply (sh pkg : Nat)
  | repulp (sh : Nat)
  | vatDrain (pkg line w : Nat)
  | debugFreeze (pkg part : Nat)
  | debugRelease (pkg part : Nat)
  | debugScan (pkg part : Nat)
  | debugScanDone (pkg part : Nat)
  | debugSuspension (sh : Nat)
  | elostClear (pkg : Nat)
  | traceLostClear (pkg part : Nat)
  | hbctlWrite (pkg u : Nat) (v : W64)
  | headboxDescriptor (pkg u : Nat)
  | headboxFrameDone (pkg u : Nat)
  | getVersion (pkg : Nat)
  | getCapabilities (pkg : Nat)
  | negotiateAlgorithms (pkg : Nat)
  | getDigests (pkg : Nat)
  | getCertificate (pkg : Nat)
  | challenge (pkg nonce : Nat)
  | getMeasurements (pkg index : Nat)
  | keyExchange (pkg share : Nat)
  | spdmFinish (pkg : Nat)
  | keyLoad (pkg slot part : Nat) (dbgclr : Bool) (key : List Byte)
  | enterAttested (pkg : Nat)
  | packageReset (pkg : Nat)
  | registerWrite (pkg off : Nat) (v : W64)
  | hostCxlMemWrite (pkg addr : Nat) (bytes : List Byte)
  | malformedPacket (pkg : Nat)
  | standbyTwinTakeover (pkg : Nat)
  deriving DecidableEq, Repr

/-- The instructions and steps of the machine, in the order of the opcode table. -/
inductive Instr where
  /-- IDLE (R22): Occupies n task cycles in its column without any other effect. -/
  | idle (n : BitVec 20)
  /-- ALIGN (R26): Opens a column at task cycle 0 and forms the first rendezvous bundle of the core. -/
  | align
  /-- END (R25): Stops the column; no later word is fetched. -/
  | endc
  /-- LOOP (R22): Runs the following body of BL+1 words C times and occupies 1 + C × B cycles. -/
  | loop (c : BitVec 12) (b : BitVec 7)
  /-- LOOPC (R23): Runs the body min(count, cap) times from an s-register count and idles for the remaining capped iterations. -/
  | loopc (s : BitVec 6) (b : BitVec 7) (k : BitVec 6)
  /-- SADD (R123): Adds an amount to the count of a semaphore of the issuing core, saturating. -/
  | sadd (b : BitVec 10) (s : BitVec 6) (e : BitVec 1)
  /-- SWAIT (R123): Checks that a semaphore count holds an amount and subtracts it, else faults with SWAIT or stalls in lenient mode. -/
  | swait (b : BitVec 10) (s : BitVec 6) (e : BitVec 1)
  /-- SWAITB (R123): Checks that a semaphore's pending-byte counter holds an amount and subtracts it, else faults with SWAIT or stalls in lenient mode. -/
  | swaitb (b : BitVec 10) (s : BitVec 6) (e : BitVec 1)
  /-- MARK (R124): Writes a trace entry into the partition's trace ring when tracing is permitted and enabled. -/
  | mark (n : BitVec 16)
  /-- BRK (R124): Requests a debug freeze at the next seam when breakpoint n is armed and debug is permitted. -/
  | brk (n : BitVec 16)
  /-- IF (R106): Prefix that predicates the next S word on pN read at the leading word's issue. -/
  | ifp (p : BitVec 3)
  /-- REP (R107): Prefix that repeats the next V word n times with vd and va offset by i × stride. -/
  | rep (n : BitVec 5) (s : BitVec 4)
  /-- ADD (R125): Integer add modulo 2^64. -/
  | add (d : BitVec 6) (a : BitVec 6) (b : BitVec 6)
  /-- SUB (R125): Integer subtract modulo 2^64. -/
  | sub (d : BitVec 6) (a : BitVec 6) (b : BitVec 6)
  /-- MUL (R125): Low 64 bits of the product. -/
  | mul (d : BitVec 6) (a : BitVec 6) (b : BitVec 6)
  /-- MULH (R125): High 64 bits of the signed product. -/
  | mulh (d : BitVec 6) (a : BitVec 6) (b : BitVec 6)
  /-- DIV (R125): Signed division truncated toward zero with defined results for zero divisor and overflow. -/
  | div (d : BitVec 6) (a : BitVec 6) (b : BitVec 6)
  /-- REM (R125): Signed remainder with defined results for zero divisor and overflow. -/
  | rem (d : BitVec 6) (a : BitVec 6) (b : BitVec 6)
  /-- MIN (R125): Signed minimum. -/
  | smin (d : BitVec 6) (a : BitVec 6) (b : BitVec 6)
  /-- MAX (R125): Signed maximum. -/
  | smax (d : BitVec 6) (a : BitVec 6) (b : BitVec 6)
  /-- AND (R125): Bitwise AND. -/
  | sand (d : BitVec 6) (a : BitVec 6) (b : BitVec 6)
  /-- OR (R125): Bitwise OR. -/
  | sor (d : BitVec 6) (a : BitVec 6) (b : BitVec 6)
  /-- XOR (R125): Bitwise XOR. -/
  | sxor (d : BitVec 6) (a : BitVec 6) (b : BitVec 6)
  /-- ANDN (R125): a AND NOT b. -/
  | andn (d : BitVec 6) (a : BitVec 6) (b : BitVec 6)
  /-- SHL (R125): Shift left by b[5:0]. -/
  | shl (d : BitVec 6) (a : BitVec 6) (b : BitVec 6)
  /-- SHR (R125): Logical shift right by b[5:0]. -/
  | shr (d : BitVec 6) (a : BitVec 6) (b : BitVec 6)
  /-- SAR (R125): Arithmetic shift right by b[5:0]. -/
  | sar (d : BitVec 6) (a : BitVec 6) (b : BitVec 6)
  /-- CLZ (R125): Counts leading zeros, 64 for zero. -/
  | clz (d : BitVec 6) (a : BitVec 6)
  /-- POPC (R125): Counts set bits. -/
  | popc (d : BitVec 6) (a : BitVec 6)
  /-- ADDI (R126): Add a sign-extended 11-bit immediate. -/
  | addi (d : BitVec 6) (a : BitVec 6) (i : BitVec 11)
  /-- MULI (R126): Multiply by a sign-extended 11-bit immediate. -/
  | muli (d : BitVec 6) (a : BitVec 6) (i : BitVec 11)
  /-- ANDI (R126): AND with a sign-extended immediate. -/
  | andi (d : BitVec 6) (a : BitVec 6) (i : BitVec 11)
  /-- ORI (R126): OR with a sign-extended immediate. -/
  | ori (d : BitVec 6) (a : BitVec 6) (i : BitVec 11)
  /-- XORI (R126): XOR with a sign-extended immediate. -/
  | xori (d : BitVec 6) (a : BitVec 6) (i : BitVec 11)
  /-- MINI (R126): Signed minimum with a sign-extended immediate. -/
  | mini (d : BitVec 6) (a : BitVec 6) (i : BitVec 11)
  /-- SHLI (R126): Shift left by an immediate 0-63. -/
  | shli (d : BitVec 6) (a : BitVec 6) (i : BitVec 11)
  /-- SHRI (R126): Logical shift right by an immediate 0-63. -/
  | shri (d : BitVec 6) (a : BitVec 6) (i : BitVec 11)
  /-- SARI (R126): Arithmetic shift right by an immediate 0-63. -/
  | sari (d : BitVec 6) (a : BitVec 6) (i : BitVec 11)
  /-- CEQ (R127): Sets pd when ra equals rb. -/
  | ceq (p : BitVec 3) (a : BitVec 6) (b : BitVec 6)
  /-- CNE (R127): Sets pd when ra differs from rb. -/
  | cne (p : BitVec 3) (a : BitVec 6) (b : BitVec 6)
  /-- CLT (R127): Sets pd when ra is signed less than rb. -/
  | clt (p : BitVec 3) (a : BitVec 6) (b : BitVec 6)
  /-- CGE (R127): Sets pd when ra is signed greater or equal to rb. -/
  | cge (p : BitVec 3) (a : BitVec 6) (b : BitVec 6)
  /-- CLTU (R127): Sets pd when ra is unsigned less than rb. -/
  | cltu (p : BitVec 3) (a : BitVec 6) (b : BitVec 6)
  /-- CGEU (R127): Sets pd when ra is unsigned greater or equal to rb. -/
  | cgeu (p : BitVec 3) (a : BitVec 6) (b : BitVec 6)
  /-- CEQI (R127): Sets pd when ra equals the sign-extended immediate. -/
  | ceqi (p : BitVec 3) (a : BitVec 6) (i : BitVec 11)
  /-- CNEI (R127): Sets pd when ra differs from the immediate. -/
  | cnei (p : BitVec 3) (a : BitVec 6) (i : BitVec 11)
  /-- CLTI (R127): Sets pd when ra is signed less than the immediate. -/
  | clti (p : BitVec 3) (a : BitVec 6) (i : BitVec 11)
  /-- CGEI (R127): Sets pd when ra is signed greater or equal to the immediate. -/
  | cgei (p : BitVec 3) (a : BitVec 6) (i : BitVec 11)
  /-- CLTUI (R127): Sets pd when ra is unsigned less than the sign-extended immediate. -/
  | cltui (p : BitVec 3) (a : BitVec 6) (i : BitVec 11)
  /-- CGEUI (R127): Sets pd when ra is unsigned greater or equal to the immediate. -/
  | cgeui (p : BitVec 3) (a : BitVec 6) (i : BitVec 11)
  /-- PAND (R128): pd := pa AND pb. -/
  | pand (d : BitVec 3) (a : BitVec 3) (b : BitVec 3)
  /-- POR (R128): pd := pa OR pb. -/
  | por (d : BitVec 3) (a : BitVec 3) (b : BitVec 3)
  /-- PXOR (R128): pd := pa XOR pb. -/
  | pxor (d : BitVec 3) (a : BitVec 3) (b : BitVec 3)
  /-- PANDN (R128): pd := pa AND NOT pb. -/
  | pandn (d : BitVec 3) (a : BitVec 3) (b : BitVec 3)
  /-- SEL (R129): Selects ra or rb by predicate pN. -/
  | sel (d : BitVec 6) (a : BitVec 6) (b : BitVec 6) (p : BitVec 3)
  /-- FCEQ (R127): Sets pd when two FP32 values are equal; NV only for signalling NaN. -/
  | fceq (p : BitVec 3) (a : BitVec 6) (b : BitVec 6)
  /-- FCLT (R127): Sets pd when FP32 a < b; NV for any NaN. -/
  | fclt (p : BitVec 3) (a : BitVec 6) (b : BitVec 6)
  /-- FCLE (R127): Sets pd when FP32 a <= b; NV for any NaN. -/
  | fcle (p : BitVec 3) (a : BitVec 6) (b : BitVec 6)
  /-- LDK (R130): Loads a sign-extended 17-bit immediate. -/
  | ldk (d : BitVec 6) (i : BitVec 17)
  /-- LIT (R130): Loads the following 32-bit literal word, zero-extended. -/
  | lit (d : BitVec 6) (lit : W32)
  /-- LDC (R130): Loads a constant-bank entry, zero-extended. -/
  | ldc (d : BitVec 6) (c : BitVec 8)
  /-- LDKH (R130): Writes a 16-bit immediate into quarter k of rd, keeping other bits. -/
  | ldkh (q : BitVec 2) (d : BitVec 6) (i : BitVec 16)
  /-- LDB (R131): Loads a sign-extended byte from the scratchpad. -/
  | ldb (d : BitVec 6) (a : BitVec 6) (o : BitVec 8)
  /-- LDH (R131): Loads a sign-extended halfword. -/
  | ldh (d : BitVec 6) (a : BitVec 6) (o : BitVec 8)
  /-- LDW (R131): Loads a sign-extended word. -/
  | ldw (d : BitVec 6) (a : BitVec 6) (o : BitVec 8)
  /-- LDD (R131): Loads a doubleword. -/
  | ldd (d : BitVec 6) (a : BitVec 6) (o : BitVec 8)
  /-- LDBU (R131): Loads a zero-extended byte. -/
  | ldbu (d : BitVec 6) (a : BitVec 6) (o : BitVec 8)
  /-- LDHU (R131): Loads a zero-extended halfword. -/
  | ldhu (d : BitVec 6) (a : BitVec 6) (o : BitVec 8)
  /-- LDWU (R131): Loads a zero-extended word. -/
  | ldwu (d : BitVec 6) (a : BitVec 6) (o : BitVec 8)
  /-- STB (R131): Stores the low byte of rd. -/
  | stb (d : BitVec 6) (a : BitVec 6) (o : BitVec 8)
  /-- STH (R131): Stores the low halfword of rd. -/
  | sth (d : BitVec 6) (a : BitVec 6) (o : BitVec 8)
  /-- STW (R131): Stores the low word of rd. -/
  | stw (d : BitVec 6) (a : BitVec 6) (o : BitVec 8)
  /-- STD (R131): Stores the eight bytes of rd. -/
  | std (d : BitVec 6) (a : BitVec 6) (o : BitVec 8)
  /-- ATOMADD (R133): Atomic add over an RMW window, returning the old value. -/
  | atomadd (d : BitVec 6) (a : BitVec 6) (b : BitVec 6) (s : BitVec 2)
  /-- ATOMMIN (R133): Atomic signed minimum. -/
  | atommin (d : BitVec 6) (a : BitVec 6) (b : BitVec 6) (s : BitVec 2)
  /-- ATOMMAX (R133): Atomic signed maximum. -/
  | atommax (d : BitVec 6) (a : BitVec 6) (b : BitVec 6) (s : BitVec 2)
  /-- ATOMSWP (R133): Atomic swap. -/
  | atomswp (d : BitVec 6) (a : BitVec 6) (b : BitVec 6) (s : BitVec 2)
  /-- ATOMCAS (R133): Atomic compare and swap against the old rd. -/
  | atomcas (d : BitVec 6) (a : BitVec 6) (b : BitVec 6) (s : BitVec 2)
  /-- FADD (R134): Scalar FP32 add with RNE. -/
  | fadd (d : BitVec 6) (a : BitVec 6) (b : BitVec 6)
  /-- FSUB (R134): Scalar FP32 subtract. -/
  | fsub (d : BitVec 6) (a : BitVec 6) (b : BitVec 6)
  /-- FMUL (R134): Scalar FP32 multiply. -/
  | fmul (d : BitVec 6) (a : BitVec 6) (b : BitVec 6)
  /-- FDIV (R134): Scalar FP32 divide. -/
  | fdiv (d : BitVec 6) (a : BitVec 6) (b : BitVec 6)
  /-- FMIN (R134): Scalar FP32 minimum. -/
  | fmin (d : BitVec 6) (a : BitVec 6) (b : BitVec 6)
  /-- FMAX (R134): Scalar FP32 maximum. -/
  | fmax (d : BitVec 6) (a : BitVec 6) (b : BitVec 6)
  /-- FSQRT (R134): Scalar FP32 square root. -/
  | fsqrt (d : BitVec 6) (a : BitVec 6)
  /-- FFMA (R134): Fused a × b + old rd with one rounding. -/
  | ffma (d : BitVec 6) (a : BitVec 6) (b : BitVec 6)
  /-- FTOI (R135): FP32 to signed 64-bit integer with RNE. -/
  | ftoi (d : BitVec 6) (a : BitVec 6)
  /-- FTOIZ (R135): FP32 to signed 64-bit integer toward zero. -/
  | ftoiz (d : BitVec 6) (a : BitVec 6)
  /-- ITOF (R135): Signed 64-bit integer to FP32 with RNE. -/
  | itof (d : BitVec 6) (a : BitVec 6)
  /-- FADDI (R134): Adds a BF16 immediate to rd. -/
  | faddi (d : BitVec 6) (i : BitVec 16)
  /-- FMULI (R134): Multiplies rd by a BF16 immediate. -/
  | fmuli (d : BitVec 6) (i : BitVec 16)
  /-- WID (R136): Reads field j of the current work identifier. -/
  | wid (d : BitVec 6) (n : BitVec 9)
  /-- WIDN (R137): Advances LIN by G, recomputes VALID and returns WIDB. -/
  | widn (d : BitVec 6)
  /-- RDSP (R138): Reads a special register at issue. -/
  | rdsp (d : BitVec 6) (n : BitVec 9)
  /-- WRSP (R138): Writes a special register from issue + 1 according to its access code. -/
  | wrsp (d : BitVec 6) (n : BitVec 9)
  /-- CAL (R143): Returns a coming seam with its major and announcement bits. -/
  | cal (d : BitVec 6) (n : BitVec 9)
  /-- ABORT (R144): Raises ABORT_REQUEST with a code and the value of rd. -/
  | abort (d : BitVec 6) (n : BitVec 9)
  /-- VADD (R151): Vector floating-point add. -/
  | vadd (d : BitVec 5) (a : BitVec 5) (b : BitVec 5) (q : BitVec 4)
  /-- VSUB (R151): Vector floating-point subtract. -/
  | vsub (d : BitVec 5) (a : BitVec 5) (b : BitVec 5) (q : BitVec 4)
  /-- VMUL (R151): Vector floating-point multiply. -/
  | vmul (d : BitVec 5) (a : BitVec 5) (b : BitVec 5) (q : BitVec 4)
  /-- VDIV (R151): Vector floating-point divide. -/
  | vdiv (d : BitVec 5) (a : BitVec 5) (b : BitVec 5) (q : BitVec 4)
  /-- VMIN (R151): Vector floating-point minimum. -/
  | vmin (d : BitVec 5) (a : BitVec 5) (b : BitVec 5) (q : BitVec 4)
  /-- VMAX (R151): Vector floating-point maximum. -/
  | vmax (d : BitVec 5) (a : BitVec 5) (b : BitVec 5) (q : BitVec 4)
  /-- VFMA (R151): Vector fused a × b + d. -/
  | vfma (d : BitVec 5) (a : BitVec 5) (b : BitVec 5) (q : BitVec 4)
  /-- VFMS (R151): Vector fused a × b − d. -/
  | vfms (d : BitVec 5) (a : BitVec 5) (b : BitVec 5) (q : BitVec 4)
  /-- VFNMA (R151): Vector fused d − a × b. -/
  | vfnma (d : BitVec 5) (a : BitVec 5) (b : BitVec 5) (q : BitVec 4)
  /-- VEXP2 (R152): Correctly rounded 2^a. -/
  | vexp2 (d : BitVec 5) (a : BitVec 5) (q : BitVec 4)
  /-- VLOG2 (R152): Correctly rounded log2 a. -/
  | vlog2 (d : BitVec 5) (a : BitVec 5) (q : BitVec 4)
  /-- VRCP (R152): Correctly rounded reciprocal. -/
  | vrcp (d : BitVec 5) (a : BitVec 5) (q : BitVec 4)
  /-- VRSQ (R152): Correctly rounded reciprocal square root. -/
  | vrsq (d : BitVec 5) (a : BitVec 5) (q : BitVec 4)
  /-- VSIN (R152): Correctly rounded sin(π a). -/
  | vsin (d : BitVec 5) (a : BitVec 5) (q : BitVec 4)
  /-- VCOS (R152): Correctly rounded cos(π a). -/
  | vcos (d : BitVec 5) (a : BitVec 5) (q : BitVec 4)
  /-- VTANH (R152): Correctly rounded tanh a. -/
  | vtanh (d : BitVec 5) (a : BitVec 5) (q : BitVec 4)
  /-- VSQRT (R152): Correctly rounded square root. -/
  | vsqrt (d : BitVec 5) (a : BitVec 5) (q : BitVec 4)
  /-- VABS (R152): Exact absolute value. -/
  | vabs (d : BitVec 5) (a : BitVec 5) (q : BitVec 4)
  /-- VNEG (R152): Exact negation. -/
  | vneg (d : BitVec 5) (a : BitVec 5) (q : BitVec 4)
  /-- VIADD (R154): Wrapping integer add per sub-element. -/
  | viadd (d : BitVec 5) (a : BitVec 5) (b : BitVec 5) (q : BitVec 4)
  /-- VISUB (R154): Wrapping integer subtract. -/
  | visub (d : BitVec 5) (a : BitVec 5) (b : BitVec 5) (q : BitVec 4)
  /-- VIMUL (R154): Low bits of integer product. -/
  | vimul (d : BitVec 5) (a : BitVec 5) (b : BitVec 5) (q : BitVec 4)
  /-- VIMIN (R154): Signed integer minimum. -/
  | vimin (d : BitVec 5) (a : BitVec 5) (b : BitVec 5) (q : BitVec 4)
  /-- VIMAX (R154): Signed integer maximum. -/
  | vimax (d : BitVec 5) (a : BitVec 5) (b : BitVec 5) (q : BitVec 4)
  /-- VIMINU (R154): Unsigned integer minimum. -/
  | viminu (d : BitVec 5) (a : BitVec 5) (b : BitVec 5) (q : BitVec 4)
  /-- VIMAXU (R154): Unsigned integer maximum. -/
  | vimaxu (d : BitVec 5) (a : BitVec 5) (b : BitVec 5) (q : BitVec 4)
  /-- VIADDS (R154): Saturating signed add setting IS on clamp. -/
  | viadds (d : BitVec 5) (a : BitVec 5) (b : BitVec 5) (q : BitVec 4)
  /-- VISUBS (R154): Saturating signed subtract setting IS on clamp. -/
  | visubs (d : BitVec 5) (a : BitVec 5) (b : BitVec 5) (q : BitVec 4)
  /-- VAND (R154): Bitwise AND. -/
  | vand (d : BitVec 5) (a : BitVec 5) (b : BitVec 5) (q : BitVec 4)
  /-- VOR (R154): Bitwise OR. -/
  | vor (d : BitVec 5) (a : BitVec 5) (b : BitVec 5) (q : BitVec 4)
  /-- VXOR (R154): Bitwise XOR. -/
  | vxor (d : BitVec 5) (a : BitVec 5) (b : BitVec 5) (q : BitVec 4)
  /-- VANDN (R154): a AND NOT b. -/
  | vandn (d : BitVec 5) (a : BitVec 5) (b : BitVec 5) (q : BitVec 4)
  /-- VSHL (R154): Shift left per sub-element. -/
  | vshl (d : BitVec 5) (a : BitVec 5) (b : BitVec 5) (q : BitVec 4)
  /-- VSHR (R154): Logical shift right per sub-element. -/
  | vshr (d : BitVec 5) (a : BitVec 5) (b : BitVec 5) (q : BitVec 4)
  /-- VSAR (R154): Arithmetic shift right per sub-element. -/
  | vsar (d : BitVec 5) (a : BitVec 5) (b : BitVec 5) (q : BitVec 4)
  /-- VCLZ (R154): Leading zeros per sub-element. -/
  | vclz (d : BitVec 5) (a : BitVec 5) (q : BitVec 4)
  /-- VPOPC (R154): Set bits per sub-element. -/
  | vpopc (d : BitVec 5) (a : BitVec 5) (q : BitVec 4)
  /-- VFSHL (R155): Funnel shift left of d:a. -/
  | vfshl (d : BitVec 5) (a : BitVec 5) (b : BitVec 5) (q : BitVec 4)
  /-- VFSHR (R155): Funnel shift right of a:d. -/
  | vfshr (d : BitVec 5) (a : BitVec 5) (b : BitVec 5) (q : BitVec 4)
  /-- VFCEQ (R157): Floating-point equality compare into a mask. -/
  | vfceq (d : BitVec 4) (a : BitVec 5) (b : BitVec 5) (q : BitVec 4)
  /-- VFCLT (R157): Floating-point less-than compare into a mask. -/
  | vfclt (d : BitVec 4) (a : BitVec 5) (b : BitVec 5) (q : BitVec 4)
  /-- VFCLE (R157): Floating-point less-or-equal compare into a mask. -/
  | vfcle (d : BitVec 4) (a : BitVec 5) (b : BitVec 5) (q : BitVec 4)
  /-- VFCUN (R157): Unordered compare into a mask. -/
  | vfcun (d : BitVec 4) (a : BitVec 5) (b : BitVec 5) (q : BitVec 4)
  /-- VICEQ (R157): Integer equality compare into a mask. -/
  | viceq (d : BitVec 4) (a : BitVec 5) (b : BitVec 5) (q : BitVec 4)
  /-- VICLT (R157): Signed integer less-than compare. -/
  | viclt (d : BitVec 4) (a : BitVec 5) (b : BitVec 5) (q : BitVec 4)
  /-- VICLE (R157): Signed integer less-or-equal compare. -/
  | vicle (d : BitVec 4) (a : BitVec 5) (b : BitVec 5) (q : BitVec 4)
  /-- VICLTU (R157): Unsigned integer less-than compare. -/
  | vicltu (d : BitVec 4) (a : BitVec 5) (b : BitVec 5) (q : BitVec 4)
  /-- VICLEU (R157): Unsigned integer less-or-equal compare. -/
  | vicleu (d : BitVec 4) (a : BitVec 5) (b : BitVec 5) (q : BitVec 4)
  /-- VSEL (R158): Selects whole lanes of va or vb by a mask. -/
  | vsel (d : BitVec 5) (a : BitVec 5) (b : BitVec 5) (s : BitVec 4)
  /-- VCVT (R159): Converts each sub-element to the target type. -/
  | vcvt (d : BitVec 5) (a : BitVec 5) (t : BitVec 3) (r : BitVec 1) (m : BitVec 2) (o : BitVec 2) (q : BitVec 4)
  /-- VPACK (R159): Converts and packs va and va+1 into a narrower type. -/
  | vpack (d : BitVec 5) (a : BitVec 5) (t : BitVec 3) (r : BitVec 1) (m : BitVec 2) (o : BitVec 2) (q : BitVec 4)
  /-- VUNPL (R159): Converts the low sub-elements into a wider type. -/
  | vunpl (d : BitVec 5) (a : BitVec 5) (t : BitVec 3) (r : BitVec 1) (m : BitVec 2) (o : BitVec 2) (q : BitVec 4)
  /-- VUNPH (R159): Converts the high sub-elements into a wider type. -/
  | vunph (d : BitVec 5) (a : BitVec 5) (t : BitVec 3) (r : BitVec 1) (m : BitVec 2) (o : BitVec 2) (q : BitVec 4)
  /-- VADDI (R153): Adds a BF16 immediate to vd. -/
  | vaddi (d : BitVec 5) (i : BitVec 16)
  /-- VMULI (R153): Multiplies vd by a BF16 immediate. -/
  | vmuli (d : BitVec 5) (i : BitVec 16)
  /-- VMAXI (R153): Maximum of vd and a BF16 immediate. -/
  | vmaxi (d : BitVec 5) (i : BitVec 16)
  /-- VMINI (R153): Minimum of vd and a BF16 immediate. -/
  | vmini (d : BitVec 5) (i : BitVec 16)
  /-- VIADDI (R156): Adds an integer immediate to vd. -/
  | viaddi (d : BitVec 5) (i : BitVec 16)
  /-- VIANDI (R156): ANDs vd with an integer immediate. -/
  | viandi (d : BitVec 5) (i : BitVec 16)
  /-- VISHLI (R156): Shifts vd left by an immediate. -/
  | vishli (d : BitVec 5) (i : BitVec 16)
  /-- VISHRI (R156): Shifts vd right logically by an immediate. -/
  | vishri (d : BitVec 5) (i : BitVec 16)
  /-- QAND (R160): Mask AND. -/
  | qand (d : BitVec 4) (a : BitVec 4) (b : BitVec 4)
  /-- QOR (R160): Mask OR. -/
  | qor (d : BitVec 4) (a : BitVec 4) (b : BitVec 4)
  /-- QXOR (R160): Mask XOR. -/
  | qxor (d : BitVec 4) (a : BitVec 4) (b : BitVec 4)
  /-- QANDN (R160): Mask AND NOT. -/
  | qandn (d : BitVec 4) (a : BitVec 4) (b : BitVec 4)
  /-- QNOT (R160): Mask complement. -/
  | qnot (d : BitVec 4) (a : BitVec 4)
  /-- QGATH (R160): Gathers mask words by indices in row 0 of vb. -/
  | qgath (d : BitVec 4) (a : BitVec 4) (b : BitVec 5)
  /-- QSETI (R160): Sets every mask word to an immediate. -/
  | qseti (d : BitVec 4) (i : BitVec 16)
  /-- QFROMV (R160): Builds a mask from nonzero active lanes of va. -/
  | qfromv (d : BitVec 4) (a : BitVec 5)
  /-- VLD (R164): Pops a register image from a ring into vd. -/
  | vld (d : BitVec 5) (g : BitVec 4) (f : BitVec 4) (q : BitVec 4) (c : BitVec 2)
  /-- VST (R164): Reserves ring bytes and stores vd into them. -/
  | vst (d : BitVec 5) (g : BitVec 4) (f : BitVec 4) (q : BitVec 4) (c : BitVec 2)
  /-- VLDA (R165): Loads a register image from a scratchpad address. -/
  | vlda (d : BitVec 5) (s : BitVec 6) (f : BitVec 4) (q : BitVec 4) (c : BitVec 2)
  /-- VSTA (R165): Stores a register image to a scratchpad address. -/
  | vsta (d : BitVec 5) (s : BitVec 6) (f : BitVec 4) (q : BitVec 4) (c : BitVec 2)
  /-- VLDT (R166): Loads from one frame with a generation-tag check. -/
  | vldt (d : BitVec 5) (s : BitVec 6) (g : BitVec 6) (f : BitVec 4) (c : BitVec 2)
  /-- VSTM (R167): Byte-masked store of 2,048 bytes at any address. -/
  | vstm (d : BitVec 5) (s : BitVec 6) (f : BitVec 4) (q : BitVec 3) (c : BitVec 2)
  /-- VGATH (R169): Gathers items by index in one lane circuit. -/
  | vgath (d : BitVec 5) (b : BitVec 5) (s : BitVec 6) (f : BitVec 4) (c : BitVec 2)
  /-- VSCAT (R169): Scatters items by index in one lane circuit. -/
  | vscat (d : BitVec 5) (b : BitVec 5) (s : BitVec 6) (f : BitVec 4) (c : BitVec 2)
  /-- VSTB (R168): Attaches a bound sidecar to the ring's write position. -/
  | vstb (d : BitVec 5) (g : BitVec 4) (q : BitVec 4)
  /-- VRADD (R172): Row-axis sum reduction. -/
  | vradd (d : BitVec 5) (a : BitVec 5) (q : BitVec 4)
  /-- VRMAX (R172): Row-axis max reduction. -/
  | vrmax (d : BitVec 5) (a : BitVec 5) (q : BitVec 4)
  /-- VRMIN (R172): Row-axis min reduction. -/
  | vrmin (d : BitVec 5) (a : BitVec 5) (q : BitVec 4)
  /-- VRADDS (R173): Segmented row-axis sum. -/
  | vradds (d : BitVec 5) (a : BitVec 5) (q : BitVec 4)
  /-- VRMAXS (R173): Segmented row-axis max. -/
  | vrmaxs (d : BitVec 5) (a : BitVec 5) (q : BitVec 4)
  /-- VRMINS (R173): Segmented row-axis min. -/
  | vrmins (d : BitVec 5) (a : BitVec 5) (q : BitVec 4)
  /-- VCADD (R172): Column-axis sum reduction. -/
  | vcadd (d : BitVec 5) (a : BitVec 5) (q : BitVec 4)
  /-- VCMAX (R172): Column-axis max reduction. -/
  | vcmax (d : BitVec 5) (a : BitVec 5) (q : BitVec 4)
  /-- VCMIN (R172): Column-axis min reduction. -/
  | vcmin (d : BitVec 5) (a : BitVec 5) (q : BitVec 4)
  /-- VCADDS (R173): Segmented column-axis sum. -/
  | vcadds (d : BitVec 5) (a : BitVec 5) (q : BitVec 4)
  /-- VCMAXS (R173): Segmented column-axis max. -/
  | vcmaxs (d : BitVec 5) (a : BitVec 5) (q : BitVec 4)
  /-- VCMINS (R173): Segmented column-axis min. -/
  | vcmins (d : BitVec 5) (a : BitVec 5) (q : BitVec 4)
  /-- VRROT (R174): Rotates rows along the column index. -/
  | vrrot (d : BitVec 5) (a : BitVec 5) (n : BitVec 6) (q : BitVec 4)
  /-- VCROT (R174): Rotates columns along the row index. -/
  | vcrot (d : BitVec 5) (a : BitVec 5) (n : BitVec 6) (q : BitVec 4)
  /-- VRBC (R174): Broadcasts column n across each row. -/
  | vrbc (d : BitVec 5) (a : BitVec 5) (n : BitVec 6) (q : BitVec 4)
  /-- VCBC (R174): Broadcasts row n down each column. -/
  | vcbc (d : BitVec 5) (a : BitVec 5) (n : BitVec 6) (q : BitVec 4)
  /-- VPART (R176): Sorts lanes into four outcome lists with counts in sd. -/
  | vpart (d : BitVec 5) (a : BitVec 5) (s : BitVec 6) (q : BitVec 4)
  /-- VRAGG (R178): Packs ragged rows from a ring through the ragged walker. -/
  | vragg (d : BitVec 5) (g : BitVec 4) (s : BitVec 6) (q : BitVec 4) (f : BitVec 4)
  /-- VBNDA (R180): Adds two bound vectors rounding up. -/
  | vbnda (d : BitVec 5) (a : BitVec 5) (b : BitVec 5)
  /-- VBNDS (R180): Scales a bound vector by a constant rounding up. -/
  | vbnds (d : BitVec 5) (a : BitVec 5) (c : BitVec 8)
  /-- SHAPE (R146): Writes every field of the SHAPE register. -/
  | shape (r : BitVec 4) (c : BitVec 6) (e : BitVec 3) (m : BitVec 2) (o : BitVec 2) (g : BitVec 1) (s : BitVec 3)
  /-- RRB (R182): Sets the rotating base from the next cycle. -/
  | rrb (b : BitVec 4)
  /-- MPLY (R204): Opens a ply block, consumes plies within budget and cap, pops the activation tile. -/
  | mply (a : BitVec 3) (w : BitVec 4) (g : BitVec 4) (s : BitVec 6) (k : BitVec 4) (l : BitVec 1)
  /-- MPLYZ (R204): Zeroes the tile then opens a ply block and pops the activation tile. -/
  | mplyz (a : BitVec 3) (w : BitVec 4) (g : BitVec 4) (s : BitVec 6) (k : BitVec 4) (l : BitVec 1)
  /-- MPLYK (R204): Opens a ply block keeping the activation tile. -/
  | mplyk (a : BitVec 3) (w : BitVec 4) (g : BitVec 4) (s : BitVec 6) (k : BitVec 4) (l : BitVec 1)
  /-- MPLYZK (R204): Zeroes, opens a ply block, and keeps the activation tile. -/
  | mplyzk (a : BitVec 3) (w : BitVec 4) (g : BitVec 4) (s : BitVec 6) (k : BitVec 4) (l : BitVec 1)
  /-- MRES (R204): Continues the open ply block. -/
  | mres (a : BitVec 3) (w : BitVec 4) (g : BitVec 4) (s : BitVec 6) (k : BitVec 4) (l : BitVec 1)
  /-- MDROP (R207): Pops the unconsumed plies of the open block and closes it. -/
  | mdrop (a : BitVec 3) (w : BitVec 4)
  /-- MMAD (R208): One dense pass of a weight tile against an activation tile. -/
  | mmad (a : BitVec 3) (w : BitVec 4) (g : BitVec 4) (z : BitVec 1) (k : BitVec 1) (l : BitVec 1)
  /-- MMASK (R209): Loads the 128 × 128 output mask register. -/
  | mmask (a : BitVec 6) (v : BitVec 6) (f : BitVec 4) (m : BitVec 2)
  /-- MZERO (R212): Zeroes a tile, its bound store and cover register. -/
  | mzero (a : BitVec 3)
  /-- MADD (R213): Adds one tile into another with bound and coverage combination. -/
  | madd (a : BitVec 3) (s : BitVec 3)
  /-- MOUT (R215): Converts a tile and pushes it into a ring row by row. -/
  | mout (a : BitVec 3) (g : BitVec 4) (t : BitVec 4) (r : BitVec 2) (o : BitVec 2) (f : BitVec 4)
  /-- MOUTB (R217): Writes the bound vector and cover data into a v-register. -/
  | moutb (a : BitVec 3) (v : BitVec 5)
  /-- MSCALE (R214): Scales tile columns by a vector and scales the bound. -/
  | mscale (a : BitVec 3) (v : BitVec 5)
  /-- MBIAS (R214): Adds a bias vector to tile columns. -/
  | mbias (a : BitVec 3) (v : BitVec 5)
  /-- FETCH (R223): Reads HBM into a ring with optional conversion, credit and invariant flag. -/
  | fetch (p : BitVec 3) (g : BitVec 4) (s : BitVec 6) (f : BitVec 4) (c : BitVec 2) (k : BitVec 1) (v : BitVec 1) (i : BitVec 1) (lit : Option W32)
  /-- RFETCH (R225): Reads a peer's symmetric heap into a ring. -/
  | rfetch (p : BitVec 3) (g : BitVec 4) (s : BitVec 6) (f : BitVec 4) (c : BitVec 2) (k : BitVec 1) (lit : W32)
  /-- STOW (R223): Writes a ring tile to HBM. -/
  | stow (p : BitVec 3) (g : BitVec 4) (s : BitVec 6) (f : BitVec 4) (c : BitVec 2) (k : BitVec 1) (lit : Option W32)
  /-- RSTOW (R225): Writes a ring tile into a peer's symmetric heap. -/
  | rstow (p : BitVec 3) (g : BitVec 4) (s : BitVec 6) (f : BitVec 4) (c : BitVec 2) (k : BitVec 1) (lit : W32)
  /-- SEND (R226): Moves a ring tile into a ring of another core of the package. -/
  | send (p : BitVec 3) (s : BitVec 4) (d : BitVec 4) (c : BitVec 6) (f : BitVec 4) (lit : W32)
  /-- SENDB (R226): Moves a ring tile to a scratchpad address of another core. -/
  | sendb (p : BitVec 3) (g : BitVec 4) (d : BitVec 6) (c : BitVec 6) (f : BitVec 4) (lit : W32)
  /-- COPY (R228): Runs a copy record within the scratchpad. -/
  | copy (p : BitVec 3) (s : BitVec 6) (f : BitVec 4) (k : BitVec 1) (lit : Option W32)
  /-- WEAVE (R233): Runs a weave record emitting collective transfers. -/
  | weave (p : BitVec 3) (s : BitVec 6) (q : BitVec 6) (f : BitVec 4) (k : BitVec 1) (lit : Option W32)
  /-- PROBE (R245): Looks up a block in the probe cache, filling on a miss. -/
  | probe (p : BitVec 3) (e : BitVec 3) (d : BitVec 6) (s : BitVec 6) (c : BitVec 2)
  /-- PINV (R246): Invalidates one or all probe cache entries. -/
  | pinv (p : BitVec 3) (s : BitVec 6) (l : BitVec 1)
  /-- SCREEN (R257): Admits n records of a class into the screen chain with r recirculation slots. -/
  | screen (p : BitVec 3) (g : BitVec 4) (c : BitVec 3) (lit : W32)
  /-- SCOMMIT (R265): Checks every shadow bank and flips all stages at once. -/
  | scommit (p : BitVec 3)
  /-- STBL (R263): Writes table lines into a shadow bank or dumps counters. -/
  | stbl (p : BitVec 3) (t : BitVec 3) (s : BitVec 6) (n : BitVec 6) (f : BitVec 4)
  /-- PATCH (R248): Requests a patch of a launch-record word, held until couch. -/
  | patch (p : BitVec 3) (r : BitVec 6) (v : BitVec 6) (f : BitVec 5)
  /-- ARM (R248): Requests that a launch record be armed at the sheet's couch. -/
  | armRec (p : BitVec 3) (r : BitVec 6)
  /-- RINGCFG (R247): Reconfigures or removes a ring at run time. -/
  | ringcfg (p : BitVec 3) (g : BitVec 4) (s : BitVec 6)
  /-- REP_REPETITION (R161): Repetition i of a REP unit issues at the leading word cycle + i. -/
  | repRepetition (k i : Nat)
  /-- ROTATING_ITERATION_BOUNDARY (R184): At each iteration boundary of a rotating loop BASE decrements and stage predicates update. -/
  | rotatingIterationBoundary (k i n st : Nat)
  /-- LENIENT_STALL_RECHECK (R31): In lenient mode a failed wait or scoreboard condition is checked again each cycle until it holds. -/
  | lenientStallRecheck (sh : Nat)
  /-- REGISTER_WRITEBACK (R121): An S result is written into its register at issue + L. -/
  | registerWriteback (k : Nat) (r : RegRef) (v : W64) (fl : BitVec 6)
  /-- V_RESULT_WRITEBACK (R150): A V result and its flags are written at issue + L. -/
  | vResultWriteback (k : Nat) (r : VResult)
  /-- S_SCRATCH_ACCESS (R132): An S load reads or an S store writes its bytes at issue + 2. -/
  | sScratchAccess (k : Nat) (a : SAccess)
  /-- ATOM_READ (R133): An atomic reads its line at issue + 2, opening its RMW window. -/
  | atomRead (k : Nat) (a : AtomOp)
  /-- ATOM_WRITE (R133): An atomic writes its new value at issue + 4. -/
  | atomWrite (k : Nat) (a : AtomOp) (old : W64)
  /-- LANE_BEAT (R76): A beat crosses a felt-lane segment and is written or delivered at its destination. -/
  | laneBeat (m : Move) (ps : List Piece)
  /-- V_STORE_CONVERSION (R162): A V store converts all its elements at issue + 2, possibly trapping. -/
  | vStoreConversion (m : StoreRun)
  /-- SIDECAR_ATTACH (R168): VSTB attaches its sidecar to the sampled tile position at issue + 2. -/
  | sidecarAttach (k g tile : Nat) (vals : List W32)
  /-- GATHER_SCATTER_ACCESS (R170): Each gather or scatter item is accessed as its beat passes the bank's station. -/
  | gatherScatterAccess (g : GatherRun) (items : List (Nat × Nat))
  /-- RAGGED_TABLE_READ (R177): The ragged walker reads row-length entries through its table port. -/
  | raggedTableRead (r : RaggedRun) (e : Nat)
  /-- HBM_SAMPLE (R90): A read samples its bytes at some cycle in its sample window. -/
  | hbmSample (x : Sampler)
  /-- HBM_PERFORM (R90): A write performs its bytes at some cycle in its perform window. -/
  | hbmPerform (x : Xfer) (off : Nat) (data : List Byte)
  /-- READ_BEAT_LANDING (R89): A read beat of FETCH, RFETCH or a probe fill lands at its fixed offset, pushing and crediting at the last beat. -/
  | readBeatLanding (x : Xfer) (i : Nat) (data : List Byte)
  /-- TRANSFER_CREDIT (R222): A transfer adds its byte count to a semaphore's pending counter at its credit cycle. -/
  | transferCredit (k b n : Nat)
  /-- SEND_BEAT_LANDING (R227): A SEND or SENDB beat is written at the destination core. -/
  | sendBeatLanding (x : SendRun) (i : Nat) (fmts : List BankFmt) (data : List (List W32))
  /-- COPY_STEP (R231): One copy step reads and writes 16 elements on its circuits. -/
  | copyStep (c : CopyRun) (wr : Bool) (items : List (Nat × Nat))
  /-- WEAVE_EMISSION (R235): The weave walker emits transfer j at t + 8 + j × CADENCE. -/
  | weaveEmission (w : WeaveRun) (j : Nat)
  /-- WEAVE_CONTRIBUTION (R236): A weave transfer is combined at its destination by the base-die adders inside its perform window. -/
  | weaveContribution (w : WeaveRun) (j : Nat)
  /-- WEAVE_STATUS_WRITE (R237): A non-store run writes its status word at t_end. -/
  | weaveStatusWrite (w : WeaveRun)
  /-- LINK_FLIT_RELEASE (R339): A link flit is released at the receiving port 768 task cycles after entry. -/
  | linkFlitRelease (l : Flit)
  /-- PLY_HEADER_READ (R205): The weight intake reads the header for slot s and checks it and the budget. -/
  | plyHeaderRead (k slot : Nat)
  /-- PLY_SPAN_END (R206): At the last span cycle a ply word writes results, bounds, coverage and remaining budget. -/
  | plySpanEnd (k : Nat)
  /-- MMAD_SPAN_END (R208): At t + 288 MMAD adds its pass and applies the mask. -/
  | mmadSpanEnd (k : Nat)
  /-- MDROP_POP (R207): MDROP pops the remaining plies at t + 8 and closes the block. -/
  | mdropPop (k a gw : Nat) (rd : Bool) (d : Desc)
  /-- MZERO_EFFECT (R212): MZERO clears the tile at t + 1. -/
  | mzeroEffect (k a : Nat)
  /-- MADD_EFFECT (R213): MADD applies its sum and bound combination at t + 128. -/
  | maddEffect (k ad as : Nat)
  /-- MSCALE_MBIAS_EFFECT (R214): MSCALE or MBIAS acts on the tile at t + 128. -/
  | mscaleMbiasEffect (k a : Nat) (scale : Bool) (c : List W32)
  /-- MOUT_ROW (R216): Row m leaves the converter at t + 2m + 1, sets flags and departs in beats. -/
  | moutRow (m : OutRun) (row : Nat)
  /-- MOUTB_WRITE (R217): MOUTB writes its vector at t + 4. -/
  | moutbWrite (k v : Nat) (vals : List W32)
  /-- MASK_ARM (R210): The mask is armed the cycle after its last beat arrives. -/
  | maskArm (k : Nat) (block : List Byte)
  /-- PROBE_RESULT (R245): PROBE writes the hit predicate and frame index at t + 4. -/
  | probeResult (k pd sd : Nat) (hit : Bool) (frame : Nat)
  /-- PINV_EFFECT (R246): PINV clears entries at t + 1. -/
  | pinvEffect (k : Nat) (all : Bool) (block : Nat)
  /-- RINGCFG_EFFECT (R247): At t + 1 the ring's cursors, gbase, sidecars and ACT are reset to the new configuration. -/
  | ringcfgEffect (k g : Nat) (cfg : W64)
  /-- PATCH_ARM_CHECK (R248): A PATCH or ARM is checked at t + 832 and held or faulted. -/
  | patchArmCheck (h : Held) (d : Desc)
  /-- SCREEN_ADMISSION (R257): At each slot cycle a queued or new record enters stage 0, or the slot idles. -/
  | screenAdmission (k y : Nat)
  /-- SCREEN_STAGE_LOOKUP (R254): A stage extracts the key and looks it up in its table. -/
  | screenStageLookup (k y st : Nat)
  /-- SCREEN_STAGE_ACTION (R255): A stage applies the selected action's four micro-operations. -/
  | screenStageAction (k y st : Nat)
  /-- SCREEN_EXIT (R256): A record exits at y + 16 and is dropped, emitted and or recirculated. -/
  | screenExit (k y : Nat)
  /-- SCREEN_SPAN_END (R259): At the last span cycle the run's reserved output tile positions are pushed. -/
  | screenSpanEnd (k : Nat)
  /-- STBL_LINE (R264): One table line is written into the shadow bank or one counter line is dumped. -/
  | stblLine (t : TableRun) (i : Nat) (bytes : List Byte)
  /-- PEER_ABORT_STOP (R34): A remote package's gang cores stop at t + 768h + 64 and are repulped with PEER_ABORT. -/
  | peerAbortStop (sh pkg : Nat)
  /-- WATCHDOG (R359): A sheet not ended by task cycle WDOG faults with WATCHDOG. -/
  | watchdog (sh : Nat)
  /-- SHEET_END (R33): The sheet ends when every column has issued END and every transfer has performed or landed. -/
  | sheetEnd (sh : Nat)
  /-- ARM_COMMAND (R302): Host command that checks a launch record and queues it or refuses it. -/
  | armCommand (pkg part rcd : Nat)
  /-- PARTITION (R366): Host command that writes a partition register. -/
  | partition (pkg p : Nat) (w0 w1 w2 w3 : W64)
  /-- DOMAIN (R337): Host command that forms the timing domain and aligns TTC. -/
  | domain (pkg : Nat) (w1 w2 w3 : W64)
  /-- LEASE (R377): Host command requesting a boost clock for a number of major periods. -/
  | lease (pkg mhz periods : Nat)
  /-- POWER (R373): Host command changing the package power state. -/
  | power (pkg st : Nat)
  /-- DEBUG (R372): Host command presenting a signed token to enter vendor-debug. -/
  | debugToken (pkg : Nat) (token : List W64)
  /-- VATCFG (R320): Host command setting the vat size for the next package reset. -/
  | vatcfg (pkg size : Nat)
  /-- READ_REPAIR_MAP (R379): Stack mailbox operation 2 that returns the repair map. -/
  | readRepairMap (pkg stack : Nat)
  /-- READ_TEMPERATURES (R379): Stack mailbox operation 3 that returns temperatures. -/
  | readTemperatures (pkg stack : Nat)
  /-- PLACEMENT (R307): The scheduler places a queue head when dependences, clock and clusters allow and sets GANG. -/
  | placement (part : Nat)
  /-- SHEET_ALIGNMENT (R17): At the first seam after loading T0 is chosen, S sampled and core state reset. -/
  | sheetAlignment (sh : Nat)
  /-- MAINTENANCE_SLOT (R330): When TTC reaches a seam every engine freezes and the slot's drain and work run. -/
  | maintenanceSlot
  /-- HOLD_UNIT (R333): An agreed request appends one 256-cycle unit to the slot on every package. -/
  | holdUnit (c : HoldCause)
  /-- SLOT_END (R330): The slot ends and TTC resumes at the seam's value. -/
  | slotEnd
  /-- LINK_FAILURE (R340): Loss of a package's last admitted link repulps affected sheets. -/
  | linkFailure (pkg port : Nat)
  /-- MARGIN_RESTORE (R354): An uncorrectable margin event restores voltage and repulps sheets on the pair. -/
  | marginRestore (pkg pair : Nat) (loc : Nat)
  /-- CONTEXT_SAVE (R356): A pre-empted gang is saved at its seam in 168 hold units. -/
  | contextSave (sh : Nat)
  /-- RESUME (R357): A saved sheet is restored on its clusters at a free seam with T0'. -/
  | resume (sh : Nat)
  /-- IRREVOCABLE_FREEZE (R323): An over-quota irrevocable sheet freezes at the next seam. -/
  | irrevocableFreeze (sh : Nat)
  /-- IRREVOCABLE_COUCH (R323): When oldest in couch order the frozen sheet couches its lines and resumes in place. -/
  | irrevocableCouch (sh : Nat)
  /-- COUCH (R325): An ended sheet at its turn is checked for conflicts and installed at a new watermark. -/
  | couch (sh : Nat)
  /-- COUCH_PREPARE (R328): Each package checks its lines and reports ready or conflict. -/
  | couchPrepare (sh pkg : Nat)
  /-- COUCH_DECIDE (R328): The coordinator records a commit or abort decision when all packages have reported. -/
  | couchDecide (sh : Nat)
  /-- COUCH_APPLY (R328): A package installs at W or repulps when the decision reaches it. -/
  | couchApply (sh pkg : Nat)
  /-- REPULP (R329): Once transfers settle the vat lines are discarded and the completion record written. -/
  | repulp (sh : Nat)
  /-- VAT_DRAIN (R319): A couched version is drained into place once OLDEST reaches it. -/
  | vatDrain (pkg line w : Nat)
  /-- DEBUG_FREEZE (R382): DCTL FREEZE requests a debug freeze of a sheet at the next seam. -/
  | debugFreeze (pkg part : Nat)
  /-- DEBUG_RELEASE (R382): DCTL RELEASE ends the freeze or resumes a suspension. -/
  | debugRelease (pkg part : Nat)
  /-- DEBUG_SCAN (R382): DCTL SCAN writes the frozen gang's state to its save area. -/
  | debugScan (pkg part : Nat)
  /-- DEBUG_SCAN_DONE (R382): The scan completes and SCANNED is set. -/
  | debugScanDone (pkg part : Nat)
  /-- DEBUG_SUSPENSION (R358): A freeze past 256 units becomes a suspension in place. -/
  | debugSuspension (sh : Nat)
  /-- ELOST_CLEAR (R349): Writing 0 to ELOST clears LOST and FIRST. -/
  | elostClear (pkg : Nat)
  /-- TRACE_LOST_CLEAR (R382): Writing 0 to DTRLOST clears it. -/
  | traceLostClear (pkg part : Nat)
  /-- HBCTL_WRITE (R381): A write to HBCTL enables the unit, sets owner and key, and clears CODE on re-enable. -/
  | hbctlWrite (pkg u : Nat) (v : W64)
  /-- HEADBOX_DESCRIPTOR (R381): A headbox unit takes the next descriptor, checks it and decodes or refuses the frame. -/
  | headboxDescriptor (pkg u : Nat)
  /-- HEADBOX_FRAME_DONE (R380): A decoded frame's last byte is written and its DONE count incremented. -/
  | headboxFrameDone (pkg u : Nat)
  /-- GET_VERSION (R370): SPDM request for supported versions. -/
  | getVersion (pkg : Nat)
  /-- GET_CAPABILITIES (R370): SPDM request for capabilities. -/
  | getCapabilities (pkg : Nat)
  /-- NEGOTIATE_ALGORITHMS (R370): SPDM algorithm negotiation. -/
  | negotiateAlgorithms (pkg : Nat)
  /-- GET_DIGESTS (R370): SPDM request for certificate chain digests. -/
  | getDigests (pkg : Nat)
  /-- GET_CERTIFICATE (R370): SPDM request for a certificate chain. -/
  | getCertificate (pkg : Nat)
  /-- CHALLENGE (R370): SPDM challenge signed with the identity key. -/
  | challenge (pkg nonce : Nat)
  /-- GET_MEASUREMENTS (R370): SPDM signed measurement report. -/
  | getMeasurements (pkg index : Nat)
  /-- KEY_EXCHANGE (R370): SPDM key exchange opening a secured session. -/
  | keyExchange (pkg share : Nat)
  /-- FINISH (R370): SPDM finish completing the secured session. -/
  | spdmFinish (pkg : Nat)
  /-- KEY_LOAD (R368): A vendor message in a secured session loads an XTS key into a slot. -/
  | keyLoad (pkg slot part : Nat) (dbgclr : Bool) (key : List Byte)
  /-- ENTER_ATTESTED (R372): A host command after a successful CHALLENGE enters the attested state. -/
  | enterAttested (pkg : Nat)
  /-- PACKAGE_RESET (R6): Package reset sets every register to its reset value and applies a pending vat size. -/
  | packageReset (pkg : Nat)
  /-- REGISTER_WRITE (R375): A host write to a BAR0 register without behaviour of its own, subject to access and privilege. -/
  | registerWrite (pkg off : Nat) (v : W64)
  /-- HOST_CXL_MEM_WRITE (R280): A host write through CXL.mem to device memory is an untimed access that changes records, data or couched lines in place. -/
  | hostCxlMemWrite (pkg addr : Nat) (bytes : List Byte)
  /-- MALFORMED_PACKET (R376): A command packet with an unassigned OP or a nonzero reserved field is answered with STATUS 2 and HEAD advances. -/
  | malformedPacket (pkg : Nat)
  /-- STANDBY_TWIN_TAKEOVER (R337): When the alignment master or coordinating mill controller fails, its standby twin takes over its role. -/
  | standbyTwinTakeover (pkg : Nat)
  deriving DecidableEq, Repr

/-- The row of a pending step. -/
noncomputable def Act.instr : Act → Instr
  | .repRepetition a1 a2 => .repRepetition a1 a2
  | .rotatingIterationBoundary a1 a2 a3 a4 => .rotatingIterationBoundary a1 a2 a3 a4
  | .lenientStallRecheck a1 => .lenientStallRecheck a1
  | .registerWriteback a1 a2 a3 a4 => .registerWriteback a1 a2 a3 a4
  | .vResultWriteback a1 a2 => .vResultWriteback a1 a2
  | .sScratchAccess a1 a2 => .sScratchAccess a1 a2
  | .atomRead a1 a2 => .atomRead a1 a2
  | .atomWrite a1 a2 a3 => .atomWrite a1 a2 a3
  | .laneBeat a1 a2 => .laneBeat a1 a2
  | .vStoreConversion a1 => .vStoreConversion a1
  | .sidecarAttach a1 a2 a3 a4 => .sidecarAttach a1 a2 a3 a4
  | .gatherScatterAccess a1 a2 => .gatherScatterAccess a1 a2
  | .raggedTableRead a1 a2 => .raggedTableRead a1 a2
  | .hbmSample a1 => .hbmSample a1
  | .hbmPerform a1 a2 a3 => .hbmPerform a1 a2 a3
  | .readBeatLanding a1 a2 a3 => .readBeatLanding a1 a2 a3
  | .transferCredit a1 a2 a3 => .transferCredit a1 a2 a3
  | .sendBeatLanding a1 a2 a3 a4 => .sendBeatLanding a1 a2 a3 a4
  | .copyStep a1 a2 a3 => .copyStep a1 a2 a3
  | .weaveEmission a1 a2 => .weaveEmission a1 a2
  | .weaveContribution a1 a2 => .weaveContribution a1 a2
  | .weaveStatusWrite a1 => .weaveStatusWrite a1
  | .linkFlitRelease a1 => .linkFlitRelease a1
  | .plyHeaderRead a1 a2 => .plyHeaderRead a1 a2
  | .plySpanEnd a1 => .plySpanEnd a1
  | .mmadSpanEnd a1 => .mmadSpanEnd a1
  | .mdropPop a1 a2 a3 a4 a5 => .mdropPop a1 a2 a3 a4 a5
  | .mzeroEffect a1 a2 => .mzeroEffect a1 a2
  | .maddEffect a1 a2 a3 => .maddEffect a1 a2 a3
  | .mscaleMbiasEffect a1 a2 a3 a4 => .mscaleMbiasEffect a1 a2 a3 a4
  | .moutRow a1 a2 => .moutRow a1 a2
  | .moutbWrite a1 a2 a3 => .moutbWrite a1 a2 a3
  | .maskArm a1 a2 => .maskArm a1 a2
  | .probeResult a1 a2 a3 a4 a5 => .probeResult a1 a2 a3 a4 a5
  | .pinvEffect a1 a2 a3 => .pinvEffect a1 a2 a3
  | .ringcfgEffect a1 a2 a3 => .ringcfgEffect a1 a2 a3
  | .patchArmCheck a1 a2 => .patchArmCheck a1 a2
  | .screenAdmission a1 a2 => .screenAdmission a1 a2
  | .screenStageLookup a1 a2 a3 => .screenStageLookup a1 a2 a3
  | .screenStageAction a1 a2 a3 => .screenStageAction a1 a2 a3
  | .screenExit a1 a2 => .screenExit a1 a2
  | .screenSpanEnd a1 => .screenSpanEnd a1
  | .stblLine a1 a2 a3 => .stblLine a1 a2 a3
  | .peerAbortStop a1 a2 => .peerAbortStop a1 a2
  | .watchdog a1 => .watchdog a1
  | .sheetEnd a1 => .sheetEnd a1
  | .armCommand a1 a2 a3 => .armCommand a1 a2 a3
  | .partition a1 a2 a3 a4 a5 a6 => .partition a1 a2 a3 a4 a5 a6
  | .domain a1 a2 a3 a4 => .domain a1 a2 a3 a4
  | .lease a1 a2 a3 => .lease a1 a2 a3
  | .power a1 a2 => .power a1 a2
  | .debugToken a1 a2 => .debugToken a1 a2
  | .vatcfg a1 a2 => .vatcfg a1 a2
  | .readRepairMap a1 a2 => .readRepairMap a1 a2
  | .readTemperatures a1 a2 => .readTemperatures a1 a2
  | .placement a1 => .placement a1
  | .sheetAlignment a1 => .sheetAlignment a1
  | .maintenanceSlot => .maintenanceSlot
  | .holdUnit a1 => .holdUnit a1
  | .slotEnd => .slotEnd
  | .linkFailure a1 a2 => .linkFailure a1 a2
  | .marginRestore a1 a2 a3 => .marginRestore a1 a2 a3
  | .contextSave a1 => .contextSave a1
  | .resume a1 => .resume a1
  | .irrevocableFreeze a1 => .irrevocableFreeze a1
  | .irrevocableCouch a1 => .irrevocableCouch a1
  | .couch a1 => .couch a1
  | .couchPrepare a1 a2 => .couchPrepare a1 a2
  | .couchDecide a1 => .couchDecide a1
  | .couchApply a1 a2 => .couchApply a1 a2
  | .repulp a1 => .repulp a1
  | .vatDrain a1 a2 a3 => .vatDrain a1 a2 a3
  | .debugFreeze a1 a2 => .debugFreeze a1 a2
  | .debugRelease a1 a2 => .debugRelease a1 a2
  | .debugScan a1 a2 => .debugScan a1 a2
  | .debugScanDone a1 a2 => .debugScanDone a1 a2
  | .debugSuspension a1 => .debugSuspension a1
  | .elostClear a1 => .elostClear a1
  | .traceLostClear a1 a2 => .traceLostClear a1 a2
  | .hbctlWrite a1 a2 a3 => .hbctlWrite a1 a2 a3
  | .headboxDescriptor a1 a2 => .headboxDescriptor a1 a2
  | .headboxFrameDone a1 a2 => .headboxFrameDone a1 a2
  | .getVersion a1 => .getVersion a1
  | .getCapabilities a1 => .getCapabilities a1
  | .negotiateAlgorithms a1 => .negotiateAlgorithms a1
  | .getDigests a1 => .getDigests a1
  | .getCertificate a1 => .getCertificate a1
  | .challenge a1 a2 => .challenge a1 a2
  | .getMeasurements a1 a2 => .getMeasurements a1 a2
  | .keyExchange a1 a2 => .keyExchange a1 a2
  | .spdmFinish a1 => .spdmFinish a1
  | .keyLoad a1 a2 a3 a4 a5 => .keyLoad a1 a2 a3 a4 a5
  | .enterAttested a1 => .enterAttested a1
  | .packageReset a1 => .packageReset a1
  | .registerWrite a1 a2 a3 => .registerWrite a1 a2 a3
  | .hostCxlMemWrite a1 a2 a3 => .hostCxlMemWrite a1 a2 a3
  | .malformedPacket a1 => .malformedPacket a1
  | .standbyTwinTakeover a1 => .standbyTwinTakeover a1

end Sys2Proof
end

