-- ==== Sys2Proof/Machine/State.lean ====
section
/-! DEFINITION. The state of the machine: the timing domain with its packages, sheets and cores. Every field is plain
data. Storage is held as tables of (index, value) pairs, index rising, no entry equal to what an unlisted index reads
as; `Machine/Tab.lean` has their operations. Cycles inside sheets and cores are task cycles; the agenda counts TTC. -/

namespace Sys2Proof.Machine

/-- A sparse store: indices strictly rising, default values not listed. -/
abbrev Tab (α : Type) := List (Nat × α)

/-- Byte memory: a table of bytes (Host.Cell). -/
abbrev Mem := List Host.Cell

/-- A semaphore (R123). `addC` and `addP` were added at cycle `cyc` and are seen by later cycles only. -/
structure Sem where
  count : BitVec 32
  pend : BitVec 40
  addC : Nat
  addP : Nat
  cyc : Nat
  deriving DecidableEq, Repr

/-- A frame's generation tag (R80). `inc` advances made at cycle `cyc` are seen by later cycles only (R277). -/
structure Tag where
  val : Half
  inc : Nat
  cyc : Nat
  deriving DecidableEq, Repr

/-- A tile position in use, numbered by its absolute tile number (lap * C + position); R83. `recs` counts the records a
screen run emitted into it (R259). -/
structure Tile where
  idx : Nat
  unwritten : Nat
  pushed : Option Nat
  unread : Nat
  retired : Option Nat
  recs : Nat
  deriving DecidableEq, Repr

/-- A ring (R82). `nfr = 0` is an unconfigured ring (R84). Cursors are absolute byte offsets, so a lap is a multiple of
the ring's size. Sidecars are indexed by tile position, row maxima by tile number. `screenOut` marks an output ring of a
declared record class (R85). -/
structure Ring where
  first : Nat
  nfr : Nat
  tile : Nat
  side : Bool
  act : Bool
  wr : Nat
  rd : Nat
  gbase : List Half
  tiles : List Tile
  sidecars : Tab (List W32)
  amax : Tab (List W32)
  screenOut : Bool
  was : Option (Nat × W64)
  users : List (Desc × Nat)
  deriving DecidableEq, Repr

/-- An open loop of a column (R22, R23, R181): word addresses of the body, iterations still to start, idle cycles owed
at the end, iteration number, and for a rotating loop its stage and iteration counts. -/
structure Loop where
  start : Nat
  last : Nat
  left : Nat
  pad : Nat
  iter : Nat
  rot : Option (Nat × Nat)
  deriving DecidableEq, Repr

/-- What governs the next word of a column: nothing, an IF (R106), a REP repetition (R107): number, count, stride, the
SHAPE sampled at the REP, whether the repetition is due. -/
inductive Governor where
  | plain
  | cond (p : Bool) (at_ : Nat)
  | rep (i n stride : Nat) (shape : BitVec 21) (at_ : Nat)
  deriving DecidableEq, Repr

/-- Where a column stands: next word, its issue cycle, open loops, what governs the next word, the cycle of the last
Y-marked issue (R27), the cycle at which END issued. -/
structure Cursor where
  pc : Nat
  due : Nat
  loops : List Loop
  gov : Governor
  yAt : Option Nat
  ended : Option Nat
  deriving DecidableEq, Repr

/-- A column (R98): code store with literal tags (R25, R104) and cursor. -/
structure Column where
  code : Tab W32
  lits : Tab Bool
  cu : Cursor
  deriving DecidableEq, Repr

/-- A result in flight of the shadow scoreboard (R122, R347). Classes of R343: 0 s, 1 p, 2 v, 3 q. `rep` is the cycle of
the REP unit that made it, if one did (R161). -/
structure Producer where
  cls : Nat
  num : Nat
  done : Nat
  d : Desc
  unit : Option Nat
  deriving DecidableEq, Repr

/-- A held resource (R87, R203): tiles 0 to 7, the array 8; held until the last span cycle. -/
structure Owner where
  res : Nat
  last : Nat
  d : Desc
  deriving DecidableEq, Repr

/-- A lane segment taken by a movement in cycles `lo`, `lo + step`, … `hi` (R76, R77). -/
structure Occ where
  lane : Nat
  seg : Nat
  lo : Nat
  hi : Nat
  step : Nat
  d : Desc
  deriving DecidableEq, Repr

/-- Bytes a movement puts through X-in (`out = false`) or X-out in each cycle of a range (R221). -/
structure PortUse where
  out : Bool
  lo : Nat
  hi : Nat
  bytes : Nat
  d : Desc
  deriving DecidableEq, Repr

/-- After a collision no beat of a movement crosses a lane segment from a cycle on (R77), or passes a port (lane 16 X-in,
17 X-out) from one cycle to another (R221). -/
structure Cut where
  d : Desc
  lane : Nat
  seg : Nat
  from_ : Nat
  till : Option Nat
  deriving DecidableEq, Repr

/-- An RMW window (R88): it covers its bank line from `lo` to `hi`; a collision voids it. -/
structure Rmw where
  line : Nat
  lo : Nat
  hi : Nat
  d : Desc
  void : Bool
  deriving DecidableEq, Repr

/-- A bank access of one cycle (R269): bytes `lo` to `hi`. -/
structure Access where
  cyc : Nat
  lo : Nat
  hi : Nat
  wr : Bool
  cls : Nat
  d : Desc
  deriving DecidableEq, Repr

/-- An HBM access with its interval (R269). `run` names the weave run it belongs to (R275). -/
structure HAccess where
  pkg : Nat
  lo : Nat
  hi : Nat
  wr : Bool
  cls : Nat
  d : Desc
  s : Nat
  e : Nat
  run : Option (Nat × Nat)
  deriving DecidableEq, Repr

/-- The bound store of a tile (R192); tables over rows or columns 0 to 127, +0 where unlisted. -/
structure Bound where
  closed : Tab W32
  ra : Tab W32
  rb : Tab W32
  total : Tab W32
  resid : Tab W32
  covm : W32
  totm : W32
  opened : Bool
  fullc : Bool
  deriving DecidableEq, Repr

/-- The cover register of a tile (R202); OPEN and FULLC are copies of the bound store's. -/
structure Cover where
  quanta : BitVec 19
  sat : Bool
  kind : BitVec 2
  tile : Half
  count : BitVec 4
  cursor : BitVec 4
  cov : Half
  deriving DecidableEq, Repr

/-- The mask register (R209 to R211): 2,048 bytes, none listed = all ones; `value = none` is mode NINF; `arming` is the
cycle at which the last MMASK arms it. -/
structure MaskReg where
  block : Option (List Byte)
  value : Option W32
  armed : Bool
  arming : Option Nat
  d : Option Desc
  deriving DecidableEq, Repr

/-- A consumed ply (R187): its header fields and the data bytes gathered so far. -/
structure Ply where
  fmt : Nat
  ncode : Nat
  pexp : Int
  cb : List Half
  data : List Byte
  deriving DecidableEq, Repr

/-- The operation that holds the array (R203 to R208). `acb` and `wcb` are the codebooks that stood when runs of operand bytes
were read, as (bytes, codebook), R79. -/
structure MRun where
  d : Desc
  dense : Bool
  a : Nat
  gw : Nat
  ga : Nat
  sb : Nat
  cap : Nat
  lanes : Nat
  opens : Bool
  zeroes : Bool
  keep : Bool
  int : Bool
  kt : Nat
  afmt : Nat
  acb : List (Nat × List Half)
  wfmt : Nat
  wcb : List (Nat × List Half)
  mask : Option (List Byte × Option W32)
  ra : List W32
  rb : List W32
  budget : Nat
  slots : Nat
  act : List Byte
  wgt : List Byte
  plies : List Ply
  tileTag : Half
  count : Nat
  cursor : Nat
  total : List W32
  resid : List W32
  covAdd : List W32
  totAdd : Option W32
  quanta : Nat
  stopped : Bool
  failed : Bool
  deriving DecidableEq, Repr

/-- The ragged walker (R177); `run` is the walk in progress, `out` the finished walks whose data have yet to come. -/
structure Walker where
  tab : BitVec 21
  left : Half
  ended : Bool
  run : Option Desc
  out : List (Desc × List (Option Bool))
  deriving DecidableEq, Repr

/-- A record in the screen chain (R251, R256): entered stage 0 at cycle `y`. `hit` is the yield of the stage in
progress: action index, parameter, counter index. -/
structure ScrRec where
  y : Nat
  f : List W32
  pass : Nat
  gen : Bool
  ksel : Nat
  emit : Nat
  recirc : Bool
  drop : Bool
  hit : Option (Nat × W32 × Nat)
  deriving DecidableEq, Repr

/-- A SCREEN in progress (R257 to R261), issued at `d.start`: queue entries carry the cycle at which they were enqueued,
`cur` is the intake offset of the next record, `took` lists the tiles it has reserved as (ring, tile number). -/
structure ScrRun where
  d : Desc
  g : Nat
  cls : Nat
  n : Nat
  r : Nat
  admitted : Nat
  granted : Nat
  queue : List (Nat × ScrRec)
  flying : List ScrRec
  cur : Nat
  took : List (Nat × Nat)
  off : Bool
  deriving DecidableEq, Repr

/-- The screen chain of a core (R250 to R266). Class words are indexed 5 * class + word; table bytes
(2 * stage + bank) * 2^17 + 64 * line + byte; counters (2 * stage + bank) * 2^13 + 0 for the miss counter or
1 + entry. `gen` is the active bank; the flip of a SCOMMIT (`comD`) counts from the cycle after its issue. Cycles: last
STBL line, release of the shadow bank. -/
structure Screen where
  cls : Tab W64
  tbl : Mem
  ctr : Tab (BitVec 40)
  limit : Tab (BitVec 40)
  gen : Bool
  runs : List ScrRun
  tblEnd : Nat
  release : Nat
  tblD : Option Desc
  comD : Option Desc
  deriving DecidableEq, Repr

/-- A probe tag-table entry (R95): HBM address bits 63:12. -/
structure ProbeTag where
  block : Nat
  valid : Bool
  refd : Bool
  pending : Bool
  deriving DecidableEq, Repr

/-- An element that COPY has read and not yet written (R79, R231): its code, and its bank's format register at its read. -/
structure CopyElem where
  code : W32
  bank : BankFmt
  deriving DecidableEq, Repr

/-- A result on the repeat path of a REP unit (R161): unit, register, the cycle from which the register itself holds it, lanes. -/
structure Forward where
  unit : Nat
  reg : Nat
  done : Nat
  lanes : List (Option W32)
  deriving DecidableEq, Repr

/-- One logical core of a gang (R74, R301). `wp` lists the banks that a movement in progress has begun to write (b) or been
refused (24 + b) (R81); `wlast` the bank writes by which R272 judges writes of earlier words of the same column. `fwd` is the repeat path of the REP unit in progress (R161). `copyBuf` holds the elements that
COPY has read, by element number; `copyBad` its steps that have trapped (R59, R231). Vector lanes are indexed 1024 * register + lane, mask words
64 * register + column, accumulator elements 16384 * tile + 128 * row + column. `bad` and `ill` are uncorrectable errors that stand
in its stores (R350, log entry 29): scratchpad addresses, and (location of R343, address in the store) for the others. -/
structure Core where
  sh : Nat
  rank : Nat
  prank : Nat
  s : Tab W64
  p : BitVec 8
  q : Tab Half
  v : Tab W32
  fwd : List Forward
  acc : Tab W32
  bound : Tab Bound
  cover : Tab Cover
  mask : MaskReg
  cbank : Tab W32
  sem : Tab Sem
  spad : Mem
  tags : Tab Tag
  rings : Tab Ring
  bfmt : Tab (BitVec 39)
  bcb : Tab W64
  fflags : BitVec 6
  fset : BitVec 6
  fcyc : Nat
  shape : BitVec 21
  rot : Bool
  base : BitVec 4
  lin : BitVec 40
  gang : W64
  cols : Column × Column × Column × Column
  board : List Producer
  own : List Owner
  occ : List Occ
  ports : List PortUse
  cuts : List Cut
  wp : List (Desc × Nat)
  rmw : List Rmw
  acc1 : List Access
  wlast : List (Desc × Nat × Nat)
  array : Option MRun
  walker : Walker
  weaveEnd : Option (Nat × Desc)
  copyEnd : Option (Nat × Desc)
  copyBuf : Tab CopyElem
  copyBad : List Nat
  screen : Screen
  pbanks : BitVec 24
  ptags : Tab ProbeTag
  phand : Nat
  bad : List Nat
  ill : List (Nat × Nat)
  deriving DecidableEq, Repr

/-- A region window of a sheet on one package (R360, R361). -/
structure Window where
  pkg : Nat
  idx : Nat
  base : Nat
  size : Nat
  key : Nat
  mop : Nat
  peer : Bool
  wr : Bool
  rd : Bool
  cls : Nat
  exts : List Nat
  deriving DecidableEq, Repr

/-- A link-plan reservation (R242): sending package rank, port, lanes, first cycle, length. -/
structure Reservation where
  prank : Nat
  port : Nat
  lanes : Nat
  first : Nat
  cycles : Nat
  deriving DecidableEq, Repr

/-- Lanes of a link port taken by one transfer's flits in cycles `lo` to `hi` (R241); `prank` is the sending package's
rank. -/
structure LinkUse where
  prank : Nat
  port : Nat
  lanes : Nat
  lo : Nat
  hi : Nat
  d : Desc
  deriving DecidableEq, Repr

/-- A fault as R342 and R343 record it. `whole` marks a cause of the whole sheet (R345); `ch` is the package and channel of the
error behind it where the cause does not give them (R348); `margin` says that the error was found under a voltage trial (R354). -/
structure FaultRec where
  pkg : Nat
  ch : Option (Nat × Nat)
  margin : Bool
  cause : Nat
  sub : Nat
  whole : Bool
  k : Nat
  core : Nat
  rank : Nat
  col : Col
  word : Nat
  task : Nat
  d0 : W64
  d1 : W64
  d2 : W64
  deriving DecidableEq, Repr

/-- What a lenient sheet waits for (R31): a semaphore of a core (key, semaphore, pending counter, amount), a register
(key, class, number, cycle). -/
inductive Waiting where
  | sem (k b : Nat) (pend : Bool) (amount : Nat)
  | reg (k : Nat) (ready : Nat)
  deriving DecidableEq, Repr

/-- The open destination of a weave run on one package (R236): contributions in arrival order as (arrival, source
package rank, core id, transfer, bytes once its pick has come, applied), FP32 values by byte address, sticky flags. -/
structure Contribution where
  arr : Nat
  src : Nat
  core : Nat
  j : Nat
  dst : Nat
  data : Option (List Byte)
  ready : Bool
  applied : Bool
  deriving DecidableEq, Repr

structure OpenRun where
  sh : Nat
  addr : Nat
  issue : Nat
  cs : List Contribution
  vals : Tab W32
  fl : BitVec 6
  late : Option Nat
  deriving DecidableEq, Repr

/-- A change of the bytes that a sheet reads of an HBM line: the bytes before it where they changed, the task cycles of
this sheet in which it may have happened (`till = none`: to its end), the access of this sheet that made it, the sheet
and the region class through which a sheet made it. -/
structure Past where
  pkg : Nat
  line : Nat
  old : List (Option Byte)
  from_ : Nat
  till : Option Nat
  acc : Option HAccess
  who : Option (Nat × Nat)
  deriving DecidableEq, Repr

/-- What keeps a running sheet off its clusters' clocks: nothing; saved (R356); frozen or suspended in place (R323, R358);
to resume at the next seam, from its save area or in place (R357, R358). -/
inductive Hold where
  | none | saved | inPlace | restore | release
  deriving DecidableEq, Repr

/-- A sheet from its arm to its final state (R299, R312, R313). `part` and `rcd` name its record, `home` the package that
armed it, `words` the copy of words 0 to 22 (R302). `gang` lists core keys by rank; `sec` and `dbg` go by package rank.
`placed` counts placements (R310), `again` are the clusters on which a transient hardware error has it relaunched (R351).
`victim` is the record that pre-empts it at the next seam, `heldAt` the seam of its save or freeze, `skeys` the keys of its save
image by package rank (R369), `mhzSum` and `mhzAt`
sum the clock over its task cycles, `irrev` is 1 over quota, 2 frozen for it, 3 resumed irrevocable (R323). `past` lists, oldest first, what changed
the HBM bytes the sheet reads (R271, R274); `sbytes` the S-class bytes it wrote as (package, first, last); `paced` the steps of
its issue that a stall holds (task cycle, phase), R31. -/
structure Sheet where
  id : Nat
  part : Nat
  rcd : Nat
  home : Nat
  words : List W64
  state : Nat
  retries : Nat
  attempt : Nat
  armSeq : Nat
  pkgs : List Nat
  clusters : List (Nat × List Nat)
  placed : Nat
  again : List (Nat × List Nat)
  gang : List Nat
  t0 : Nat
  swm : Nat
  priv : Bool
  lenient : Bool
  sec : List (BitVec 2)
  dbg : List (BitVec 2)
  windows : List Window
  plan : List Reservation
  holds : Nat
  hcu : Nat
  hth : Nat
  hrel : Nat
  hcap : Nat
  hsl : Nat
  patches : List (Nat × Held)
  pdrop : Bool
  faults : List FaultRec
  stops : List (Nat × Nat)
  settle : Nat
  stall : Option (Nat × Waiting)
  paced : List (Nat × Nat × Act)
  haccs : List HAccess
  irrev : Nat
  irrevLines : List (Nat × Nat)
  endTtc : Nat
  span : Nat
  held : Hold
  victim : Option Nat
  heldAt : Nat
  skeys : List (List Byte)
  mhzSum : Nat
  mhzAt : Nat
  links : List LinkUse
  past : List Past
  sbytes : List (Nat × Nat × Nat)
  prepared : List (Nat × Bool)
  decision : Option (Option Nat)
  vatFaults : List FaultRec
  deriving DecidableEq, Repr

/-- A vat line of a sheet (R318): physical line number, written bytes, the merge operation of an M-class window (R326), the
key of the window (R368). -/
structure VLine where
  sh : Nat
  line : Nat
  bytes : Mem
  merge : Option Nat
  key : List Byte
  deriving DecidableEq, Repr

/-- A couched version not yet drained (R318, R319): its 64 bytes, the key of its window (R368). -/
structure Version where
  part : Nat
  line : Nat
  w : Nat
  bytes : List Byte
  key : List Byte
  deriving DecidableEq, Repr

/-- A launch queue (R308); waiting sheets are in `State.sheets`. -/
structure Queue where
  tickets : BitVec 11
  pass : W64
  deriving DecidableEq, Repr

/-- A partition's debug block (R382). `asks` are the freezes asked for, oldest first: the record, and the sheet where BRK asks; `held` is
the sheet that is frozen; `units` counts the hold units of the freeze, `scanLeft` those that a scan still takes (R334, R356). -/
structure DebugBlock where
  trBase : W64
  trEn : Bool
  trSize : Half
  trHead : W64
  trTail : W64
  trLost : W64
  bpBase : W64
  ctlRec : BitVec 14
  stRec : BitVec 14
  brkn : Half
  susp : Bool
  scanned : Bool
  frozen : Bool
  asks : List (BitVec 14 × Option Nat)
  held : Option Nat
  units : Nat
  scanLeft : Nat
  deriving DecidableEq, Repr

/-- A partition on one package (R298, R308, R314, R366). Queues are indexed 0 to 63. -/
structure Partition where
  valid : Bool
  privok : Bool
  dbg : BitVec 2
  dbgNext : Option (BitVec 2)
  retain : Bool
  clus : BitVec 24
  ehi : BitVec 18
  elo : BitVec 18
  keys : BitVec 128
  pool : Nat
  queues : Tab Queue
  counter : BitVec 48
  cur : BitVec 48
  dblk : DebugBlock
  deriving DecidableEq, Repr

/-- A key slot (R368). -/
structure KeySlot where
  valid : Bool
  dbgclr : Bool
  part : BitVec 3
  gen : BitVec 8
  key : List Byte
  deriving DecidableEq, Repr

/-- A headbox unit (R381); `job` is the descriptor being decoded. -/
structure Headbox where
  en : Bool
  key : BitVec 7
  part : BitVec 3
  base : W64
  size : Half
  head : W64
  tail : W64
  code : BitVec 8
  index : BitVec 32
  job : Option (List W64)
  deriving DecidableEq, Repr

/-- A stack mailbox (R379). -/
structure Mailbox where
  busy : Bool
  op : BitVec 8
  stat : Half
  args : List W64
  deriving DecidableEq, Repr

/-- A link port (R338, R339). `spare` says that its spare lane is in use (R336). -/
structure Port where
  skew : BitVec 8
  pad : BitVec 10
  lat : BitVec 20
  admitted : Bool
  retired : Bool
  spare : Bool
  dir : BitVec 3
  deriving DecidableEq, Repr

/-- The signature and hash algorithms of R370, the only ones. -/
inductive SigAlg where
  | ecdsaBrainpoolP384r1
  deriving DecidableEq, Repr

inductive HashAlg where
  | sha384
  deriving DecidableEq, Repr

/-- An answer of the SPDM responder or of a package held in reset (R370, R371): what the spec states of it, and words for the
rest. -/
inductive SpdmReply where
  | none
  | refused
  | version (major minor : Nat)
  | capabilities (rest : List W64)
  | algorithms (sig : SigAlg) (hash : HashAlg)
  | certificates (rest : List W64)
  | signed (digest : List Byte) (sig : List W64)
  | finished
  | heldInReset (image : Nat)
  deriving DecidableEq, Repr

/-- An SPDM responder's session (R370). -/
structure Spdm where
  version : Bool
  caps : Bool
  algs : Bool
  challenged : Bool
  exchange : Bool
  secured : Bool
  answer : SpdmReply
  deriving DecidableEq, Repr

/-- A hardware error the environment has caused and no unit has met yet (R350): channel, KIND 1 or 2, address. -/
structure HwError where
  ch : Nat
  kind : Nat
  addr : Nat
  deriving DecidableEq, Repr

/-- What a log entry says beside its id, kind and channel (R342). -/
structure LogFields where
  cause : Nat
  sub : Nat
  core : Nat
  col : Nat
  rank : Nat
  word : Nat
  part : Nat
  task : Nat
  attempt : Nat
  rcd : Nat
  d0 : W64
  d1 : W64
  d2 : W64
  deriving DecidableEq, Repr

/-- An event of the PCC cycle in progress, which takes its id at the end of it (R342, R348): TTC, KIND 0, 1, 2 or 4, channel. -/
structure Report where
  ttc : Nat
  kind : Nat
  ch : Nat
  f : LogFields
  deriving DecidableEq, Repr

/-- A voltage trial (R354): the pair, its voltage in mV, whether a margin event has failed it, whether its voltage has been
restored, the address of the uncorrectable error that had it restored. -/
structure Trial where
  pair : Nat
  mv : Int
  failed : Bool
  restored : Bool
  addr : W64
  deriving DecidableEq, Repr

/-- One package (R374 to R382). `ttcBase` is the TTC of the domain at its reset, from which its own counts until it joins one (R16,
R337); `lease` its LEASE register (R142). `hbm` holds plaintext and `lineKeys` the key under which each line is stored, the empty one
unencrypted (R368). `badImage` is the firmware image that
holds the package in reset, `fuses` the fused rollback counter (R371). `reports` are the events of the cycle in progress,
`lasting` the core channels of lasting faults awaiting retirement (R351); `ballast` the setting of each pair (R383); `ports`,
`boxes`, `mail` by number. -/
structure Package where
  pcc : W64
  ttcBase : Nat
  lease : W64
  num : BitVec 11
  dsize : BitVec 12
  coord : Nat × Nat × Nat
  ext : Nat × Nat × Nat
  dstate : BitVec 2
  master : BitVec 11
  twin : Bool
  ports : Tab Port
  hbm : Mem
  lineKeys : Tab (List Byte)
  poison : List Nat
  vat : List VLine
  versions : List Version
  filter : List (Nat × Nat × Nat)
  vatSize : Tab (BitVec 5)
  vatNext : Tab (BitVec 5)
  cqBase : W64
  cqSize : Half
  cqHead : W64
  cqTail : W64
  parts : Tab Partition
  slots : Tab KeySlot
  sec : BitVec 2
  spdm : Spdm
  power : BitVec 2
  booted : Bool
  badImage : Option Nat
  fuses : Nat
  formed : Bool
  evNext : BitVec 40
  logBase : W64
  logHead : BitVec 13
  logTail : BitVec 13
  lost : BitVec 24
  firstLost : BitVec 40
  ecor : Tab W64
  eunc : Tab W64
  eoth : Tab W64
  cmapMap : Tab W32
  cmapBad : Tab (BitVec 9)
  cmapSpu : Tab Bool
  cmapRet : Tab Bool
  history : List (Nat × Nat × Nat)
  reports : List Report
  lasting : List Nat
  errors : List HwError
  trial : Option Trial
  lastGood : Tab Int
  ballast : Tab Nat
  boxes : Tab Headbox
  mail : Tab Mailbox
  badSets : List Nat
  runs : List OpenRun
  hbmUse : List (Nat × Nat × Nat)
  weaveUse : List (Nat × Nat)
  deriving DecidableEq, Repr

/-- The slot in progress (R330 to R335): seam, class, PCC offset of the current end, extension units granted, units of
scan-out still to come (R356, R357), whether its work has been done (the drain comes before it). -/
structure Slot where
  seam : Nat
  major : Bool
  stop : Nat
  exts : Nat
  scan : Nat
  worked : Bool
  deriving DecidableEq, Repr

/-- A pending step: the TTC at which it falls, its place among the steps of that cycle, the sheet it belongs to. -/
structure Event where
  ttc : Nat
  ph : Nat
  sh : Option Nat
  act : Act
  deriving DecidableEq, Repr

/-- The issue context of the word being executed: core key, column, word address, task cycle; `off` when an IF with a
false predicate governs it; `rep` the repetition (index, stride, SHAPE sampled, REP cycle) that governs it; `prev` the
column's cursor before the issue, to which a lenient stall returns (R31). -/
structure Ctx where
  k : Nat
  col : Col
  addr : Nat
  t : Nat
  off : Bool
  rep : Option (Nat × Nat × BitVec 21 × Nat)
  word : W32
  prev : Cursor
  deriving DecidableEq, Repr

/-- The machine: TTC, seams passed, the slot in progress. `requests` are the hold requests of the coming slot (PCC offset,
cause) and `action` its unfinished maintenance action (PCC offset, package, kind, index), both from the environment;
`announced` the clock changes to come (seam, MHz, whether it revokes a lease), `leaseReq` the LEASE packets that wait for the next
major slot (package, MHz, periods),
`revokeReq` whether the environment asks for a revocation (R377). `frames` keeps the frame tags of cores without a sheet;
`savedEvents` and `savedCores` hold what a sheet off its clock has pending; `placements` counts placements, `free` free
values. -/
structure State where
  ttc : Nat
  seams : Nat
  slot : Option Slot
  requests : List (Nat × HoldCause)
  action : Option (Nat × Nat × Nat × Nat)
  mhz : Nat
  announced : List (Nat × Nat × Bool)
  leaseReq : List (Nat × Nat × Nat)
  revokeReq : Bool
  pkgs : List Package
  sheets : List Sheet
  cores : Tab Core
  frames : Tab (Tab Tag)
  agenda : List Event
  savedEvents : List (Nat × List Event)
  savedCores : List (Nat × Nat × Core)
  cur : Ctx
  nextSheet : Nat
  placements : Nat
  free : Nat
  deriving DecidableEq, Repr

/-- Where the machine itself stops. A fault of a sheet (R343) is no such stop: the sheet ends and the machine goes on. -/
inductive Fault where
  /-- A host access to device memory beyond the 384 GiB of a package (R74): raised by HOST_CXL_MEM_WRITE; safe. -/
  | noSuchAddress (pkg addr : Nat)
  deriving DecidableEq, Repr

/-- Why the machine has no next state. -/
inductive Refusal where
  /-- The arm of `exec` has no meaning yet; raised by `exec` alone; safe. -/
  | notModelled (mnemonic : String)
  deriving DecidableEq, Repr

/-- Reset values of R382. -/
def DebugBlock.reset : DebugBlock :=
  { trBase := 0, trEn := false, trSize := 0, trHead := 0, trTail := 0, trLost := 0, bpBase := 0, ctlRec := 0,
    stRec := 0, brkn := 0, susp := false, scanned := false, frozen := false, asks := [], held := none, units := 0, scanLeft := 0 }

/-- Reset values of R308, R314, R366; the pool base has none (log entry 11). -/
def Partition.reset : Partition :=
  { valid := false, privok := false, dbg := 0, dbgNext := none, retain := false, clus := 0, ehi := 0, elo := 0,
    keys := 0, pool := 0, queues := [], counter := 0, cur := 0, dblk := DebugBlock.reset }

def KeySlot.reset : KeySlot := { valid := false, dbgclr := false, part := 0, gen := 0, key := [] }

def Queue.reset : Queue := { tickets := 0, pass := 0 }

def Headbox.reset : Headbox :=
  { en := false, key := 0, part := 0, base := 0, size := 0, head := 0, tail := 0, code := 0, index := 0, job := none }

def Mailbox.reset : Mailbox := { busy := false, op := 0, stat := 0, args := [0, 0, 0] }

def Port.reset : Port := { skew := 0, pad := 0, lat := 0, admitted := false, retired := false, spare := false, dir := 0 }

def Spdm.reset : Spdm :=
  { version := false, caps := false, algs := false, challenged := false, exchange := false, secured := false,
    answer := .none }

/-- A package after reset: every register of R320 to R382 at its stated value. -/
def Package.reset : Package :=
  { pcc := 0, ttcBase := 0, lease := 0, num := 0, dsize := 0, coord := (0, 0, 0), ext := (0, 0, 0), dstate := 0, master := 0, twin := false,
    ports := [], hbm := [], lineKeys := [], poison := [], vat := [], versions := [], filter := [], vatSize := [], vatNext := [],
    cqBase := 0, cqSize := 0, cqHead := 0, cqTail := 0, parts := [], slots := [], sec := 0, spdm := Spdm.reset,
    power := 0, booted := true, badImage := none, fuses := 0, formed := false, evNext := 1, logBase := 0, logHead := 0, logTail := 0, lost := 0,
    firstLost := 0, ecor := [], eunc := [], eoth := [], cmapMap := [], cmapBad := [], cmapSpu := [], cmapRet := [],
    history := [], reports := [], lasting := [], errors := [], trial := none, lastGood := [], ballast := [], boxes := [], mail := [],
    badSets := [], runs := [], hbmUse := [], weaveUse := [] }

def Cursor.reset : Cursor := { pc := 0, due := 0, loops := [], gov := .plain, yAt := none, ended := none }

def Column.reset : Column := { code := [], lits := [], cu := Cursor.reset }

def Screen.reset : Screen :=
  { cls := [], tbl := [], ctr := [], limit := [], gen := false, runs := [], tblEnd := 0, release := 0, tblD := none, comD := none }

/-- A core after package reset: the special registers at the values of R12, R15, R60, R78, R85, R139, R145, R182. A core that no
sheet holds is not listed in `State.cores` and stands so; placement loads it anew (R300, R301; log entry 55). -/
def Core.reset : Core :=
  { sh := 0, rank := 0, prank := 0, s := [], p := 0, q := [], v := [], fwd := [], acc := [], bound := [], cover := []
    mask := { block := none, value := none, armed := false, arming := none, d := none }
    cbank := [], sem := [], spad := [], tags := [], rings := [], bfmt := [], bcb := [], fflags := 0, fset := 0, fcyc := 0
    shape := 0, rot := false, base := 0, lin := 0, gang := 0
    cols := (Column.reset, Column.reset, Column.reset, Column.reset)
    board := [], own := [], occ := [], ports := [], cuts := [], wp := [], rmw := [], acc1 := [], wlast := [], array := none
    walker := { tab := 0, left := 0, ended := true, run := none, out := [] }
    weaveEnd := none, copyEnd := none, copyBuf := [], copyBad := [], screen := Screen.reset, pbanks := 0, ptags := [], phand := 0
    bad := [], ill := [] }

/-- The machine right after reset: TTC and PCC 0, every package at its reset values, no sheet, nothing pending. -/
def State.reset : State :=
  { ttc := 0, seams := 0, slot := none, requests := [], action := none, mhz := 1100, announced := [],
    leaseReq := [], revokeReq := false,
    pkgs := List.replicate Config.packages Package.reset, sheets := [], cores := [], frames := [], agenda := [],
    savedEvents := [], savedCores := [],
    cur := { k := 0, col := .S, addr := 0, t := 0, off := false, rep := none, word := 0, prev := Cursor.reset }
    nextSheet := 0, placements := 0, free := 0 }

end Sys2Proof.Machine
end

