-- ==== Sys2Proof/Machine/Tab.lean ====
section
/-! DEFINITION. Operations on the sparse tables in which the state holds storage: one index, a run of indices. Every
operation keeps the one canonical form of `Tab.wf`. -/

namespace Sys2Proof.Machine

/-- Every index lies above `k` and above the one before it, and no entry holds the default `d`. -/
def Tab.above {α : Type} [DecidableEq α] (d : α) (k : Nat) : Tab α → Bool
  | [] => true
  | (i, x) :: r => decide (k ≤ i) && decide (x ≠ d) && Tab.above d (i + 1) r

/-- The canonical form: indices strictly rising, no default listed. -/
def Tab.wf {α : Type} [DecidableEq α] (d : α) (t : Tab α) : Bool := Tab.above d 0 t

/-- The entry at `k`, if one is listed. -/
def Tab.find? {α : Type} (k : Nat) : Tab α → Option α
  | [] => none
  | (i, x) :: r => if i = k then some x else Tab.find? k r

/-- What index `k` reads as. -/
def Tab.get {α : Type} (d : α) (t : Tab α) (k : Nat) : α := (Tab.find? k t).getD d

/-- Index `k` set to `x`. -/
def Tab.set {α : Type} [DecidableEq α] (d : α) (k : Nat) (x : α) : Tab α → Tab α
  | [] => if x = d then [] else [(k, x)]
  | (i, y) :: r =>
    if k < i then (if x = d then (i, y) :: r else (k, x) :: (i, y) :: r)
    else if i = k then (if x = d then r else (k, x) :: r)
    else (i, y) :: Tab.set d k x r

/-- Index `k` listed with `x`, in a table whose entries are all meant (cores, open units). -/
def Tab.put {α : Type} (k : Nat) (x : α) : Tab α → Tab α
  | [] => [(k, x)]
  | (i, y) :: r => if k < i then (k, x) :: (i, y) :: r else if i = k then (k, x) :: r else (i, y) :: Tab.put k x r

/-- The entries below `k`. -/
def Tab.below {α : Type} (k : Nat) : Tab α → Tab α
  | [] => []
  | (i, x) :: r => if i < k then (i, x) :: Tab.below k r else []

/-- The entries from `k` up. -/
def Tab.from {α : Type} (k : Nat) : Tab α → Tab α
  | [] => []
  | (i, x) :: r => if i < k then Tab.from k r else (i, x) :: r

/-- `n` values from index `k`, of a table whose entries all lie at `k` or above. -/
def Tab.fill {α : Type} (d : α) : Nat → Nat → Tab α → List α
  | 0, _, _ => []
  | n + 1, k, [] => d :: Tab.fill d n (k + 1) []
  | n + 1, k, (i, x) :: r => if i = k then x :: Tab.fill d n (k + 1) r else d :: Tab.fill d n (k + 1) ((i, x) :: r)

/-- `n` values from index `k`. -/
def Tab.slice {α : Type} (d : α) (t : Tab α) (k n : Nat) : List α := Tab.fill d n k (Tab.from k t)

/-- The entries of a run of values from index `k`. -/
def Tab.entries {α : Type} [DecidableEq α] (d : α) : Nat → List α → Tab α
  | _, [] => []
  | k, x :: r => if x = d then Tab.entries d (k + 1) r else (k, x) :: Tab.entries d (k + 1) r

/-- A run of values written from index `k`. -/
def Tab.splice {α : Type} [DecidableEq α] (d : α) (k : Nat) (xs : List α) (t : Tab α) : Tab α :=
  Tab.below k t ++ (Tab.entries d k xs ++ Tab.from (k + xs.length) t)

/-- New values where there are some, old ones elsewhere. -/
def overlay {α : Type} : List α → List (Option α) → List α
  | _ :: os, some x :: xs => x :: overlay os xs
  | o :: os, none :: xs => o :: overlay os xs
  | os, [] => os
  | [], _ => []

/-- A run of values written from index `k` where one is given. -/
def Tab.spliceOpt {α : Type} [DecidableEq α] (d : α) (k : Nat) (xs : List (Option α)) (t : Tab α) : Tab α :=
  Tab.splice d k (overlay (Tab.slice d t k xs.length) xs) t

/-- A run of `n` indices set back to the default. -/
def Tab.clear {α : Type} (k n : Nat) (t : Tab α) : Tab α := Tab.below k t ++ Tab.from (k + n) t

/-- Single writes, in order. -/
def Tab.setAll {α : Type} [DecidableEq α] (d : α) (ws : List (Nat × α)) (t : Tab α) : Tab α :=
  ws.foldl (fun t w => Tab.set d w.1 w.2 t) t

/-- Every listed entry changed. -/
def Tab.change {α : Type} [DecidableEq α] (d : α) (f : Nat → α → α) (t : Tab α) : Tab α :=
  (t.map fun e => (e.1, f e.1 e.2)).filter fun e => decide (e.2 ≠ d)

/-- A number from bytes, lowest address first (R4). -/
def leNat : List Byte → Nat
  | [] => 0
  | x :: r => x.toNat + 256 * leNat r

/-- The `n` bytes of a number, lowest address first (R4). -/
def leBytes (n w : Nat) : List Byte := (List.range n).map fun i => BitVec.ofNat 8 (w / 256 ^ i)

end Sys2Proof.Machine
end

