-- ==== Sys2Proof/Machine/Flags.lean ====
section
/-! DEFINITION. The arithmetic flags of R60 and the register that collects them (R61). -/

namespace Sys2Proof.Machine

/-- The six flags, bit 0 NV to bit 5 IS (R60). -/
abbrev Flags := BitVec 6

def NV : Flags := 1
def DZ : Flags := 2
def OF : Flags := 4
def UF : Flags := 8
def NX : Flags := 16
def IS : Flags := 32

/-- A flag when a condition holds. -/
def flagIf (b : Bool) (f : Flags) : Flags := if b then f else 0

/-- FFLAGS as a word that issues at cycle `t` sees it: flags set in cycles before `t` (R61). -/
def Core.flagsAt (c : Core) (t : Nat) : Flags := if c.fcyc < t then c.fflags ||| c.fset else c.fflags

/-- Flags of earlier cycles joined into the register. -/
def Core.settleFlags (c : Core) (t : Nat) : Core :=
  if c.fcyc < t then { c with fflags := c.fflags ||| c.fset, fset := 0, fcyc := t } else c

/-- Flags set by a result of cycle `t` (R61). -/
def Core.setFlags (c : Core) (t : Nat) (f : Flags) : Core :=
  let c := c.settleFlags t
  { c with fset := c.fset ||| f }

/-- A W1C write of cycle `t`: a flag that a result of the same cycle sets stays set (R61). -/
def Core.clearFlags (c : Core) (t : Nat) (f : Flags) : Core :=
  let c := c.settleFlags t
  { c with fflags := c.fflags &&& ~~~ f }

end Sys2Proof.Machine
end

