-- ==== Sys2Proof/Machine/Float.lean ====
section
/-! DEFINITION. Number formats, exact values and single roundings (R51 to R67). A value is formed exactly as a signed
number times a power of two and rounded once. -/

namespace Sys2Proof.Machine

/-- A floating-point format (R52): significand width with the hidden bit, exponent width, bits of the largest finite
value, of the canonical NaN, of +infinity where the format has one. -/
structure FloatFmt where
  p : Nat
  eb : Nat
  maxBits : Nat
  nanBits : Nat
  infBits : Option Nat
  deriving DecidableEq, Repr

def fp32 : FloatFmt := ⟨24, 8, 0x7F7FFFFF, 0x7FC00000, some 0x7F800000⟩
def bf16 : FloatFmt := ⟨8, 8, 0x7F7F, 0x7FC0, some 0x7F80⟩
def fp16 : FloatFmt := ⟨11, 5, 0x7BFF, 0x7E00, some 0x7C00⟩
def e4m3 : FloatFmt := ⟨4, 4, 0x7E, 0x7F, none⟩
def e5m2 : FloatFmt := ⟨3, 5, 0x7B, 0x7E, some 0x7C⟩

/-- Bits of an encoding. -/
def FloatFmt.width (f : FloatFmt) : Nat := f.p + f.eb

/-- The sign bit's weight. -/
def FloatFmt.signBit (f : FloatFmt) : Nat := 2 ^ (f.p + f.eb - 1)

/-- The exponent of the least significand step. -/
def FloatFmt.qmin (f : FloatFmt) : Int := 3 - (2 ^ (f.eb - 1) : Nat) - f.p

/-- A value over the extended reals, or a NaN (quiet or signalling). `fin neg m e` is ± m * 2^e; zero keeps its sign. -/
inductive FV where
  | nan (sig : Bool)
  | inf (neg : Bool)
  | fin (neg : Bool) (m : Nat) (e : Int)
  deriving DecidableEq, Repr

def FV.isNaN : FV → Bool
  | .nan _ => true
  | _ => false

def FV.isSig : FV → Bool
  | .nan s => s
  | _ => false

def FV.isZero : FV → Bool
  | .fin _ 0 _ => true
  | _ => false

/-- The sign of a number; a NaN counts as positive. -/
def FV.sign : FV → Bool
  | .nan _ => false
  | .inf s => s
  | .fin s _ _ => s

def FV.neg : FV → FV
  | .nan s => .nan s
  | .inf s => .inf (!s)
  | .fin s m e => .fin (!s) m e

def FV.abs : FV → FV
  | .nan s => .nan s
  | .inf _ => .inf false
  | .fin _ m e => .fin false m e

/-- The value an encoding stands for (R52). -/
def FloatFmt.value (f : FloatFmt) (x : Nat) : FV :=
  let neg := x / f.signBit % 2 == 1
  let mag := x % f.signBit
  let ex := mag / 2 ^ (f.p - 1)
  let fr := mag % 2 ^ (f.p - 1)
  match f.infBits with
  | some i =>
    if mag = i then .inf neg
    else if i < mag then .nan (fr < 2 ^ (f.p - 2))
    else if ex = 0 then .fin neg fr f.qmin else .fin neg (fr + 2 ^ (f.p - 1)) (f.qmin + ex - 1)
  | none =>
    if mag = f.nanBits then .nan false
    else if ex = 0 then .fin neg fr f.qmin else .fin neg (fr + 2 ^ (f.p - 1)) (f.qmin + ex - 1)

/-- `m` divided by 2^k, rounded to an integer in mode `rm` for a number of sign `neg` (R56); whether it was exact. -/
def roundShift (rm : Nat) (neg : Bool) (m k : Nat) : Nat × Bool :=
  let q := m / 2 ^ k
  let r := m % 2 ^ k
  let up :=
    if r = 0 then false
    else match rm with
      | 0 => if 2 * r = 2 ^ k then q % 2 == 1 else decide (2 ^ k < 2 * r)
      | 1 => false
      | 2 => !neg
      | _ => neg
  (if up then q + 1 else q, r == 0)

/-- `m * 2^e` on the grid of step 2^q. -/
def roundGrid (rm : Nat) (neg : Bool) (m : Nat) (e q : Int) : Nat × Bool :=
  if q ≤ e then (m * 2 ^ (e - q).toNat, true) else roundShift rm neg m (q - e).toNat

/-- A rounded magnitude: bits without sign (beyond `maxBits` when it overflowed), exact, tiny after rounding. -/
structure Rounded where
  mag : Nat
  exact : Bool
  tiny : Bool
  deriving DecidableEq, Repr

/-- Rounding to the significand width with an unbounded exponent above and subnormals below (R53, R56, R57). -/
def FloatFmt.round (f : FloatFmt) (rm : Nat) (neg : Bool) (m : Nat) (e : Int) : Rounded :=
  if m = 0 then ⟨0, true, false⟩
  else
    let q0 : Int := Nat.log2 m + e - (f.p - 1 : Nat)
    let q := max q0 f.qmin
    let r := roundGrid rm neg m e q
    let tiny := decide (q0 < f.qmin) &&
      (let u := roundGrid rm neg m e q0
       !(decide (q0 + 1 = f.qmin) && decide (2 ^ f.p ≤ u.1)))
    ⟨(q - f.qmin).toNat * 2 ^ (f.p - 1) + r.1, r.2, tiny⟩

/-- An encoding with its sign. -/
def FloatFmt.signed (f : FloatFmt) (neg : Bool) (mag : Nat) : Nat := if neg then mag + f.signBit else mag

/-- A result: bits and the flags it sets. -/
abbrev FRes := Nat × Flags

/-- A value rounded once into the format as IEEE 754 has it: overflow by rounding mode (R67), flags of R60. -/
def FloatFmt.pack (f : FloatFmt) (rm : Nat) : FV → FRes
  | .nan s => (f.nanBits, flagIf s NV)
  | .inf s => (f.signed s (f.infBits.getD f.nanBits), 0)
  | .fin s m e =>
    let r := f.round rm s m e
    if f.maxBits < r.mag then
      let toInf := match rm with
        | 0 => true
        | 1 => false
        | 2 => !s
        | _ => s
      (f.signed s (if toInf then f.infBits.getD f.nanBits else f.maxBits), OF ||| NX)
    else (f.signed s r.mag, flagIf (!r.exact) NX ||| flagIf (!r.exact && r.tiny) UF)

/-- A NaN result of an invalid operation. -/
def FloatFmt.invalid (f : FloatFmt) : FRes := (f.nanBits, NV)

/-- NV for a signalling operand (R53). -/
def sigFlag (xs : List FV) : Flags := flagIf (xs.any FV.isSig) NV

/-- The exact sum of two finite values; a zero sum takes the sign IEEE 754 gives it in mode `rm`. -/
def sumFin (rm : Nat) (s1 : Bool) (m1 : Nat) (e1 : Int) (s2 : Bool) (m2 : Nat) (e2 : Int) : FV :=
  let e := min e1 e2
  let a := m1 * 2 ^ (e1 - e).toNat
  let b := m2 * 2 ^ (e2 - e).toNat
  if s1 = s2 then .fin s1 (a + b) e
  else if a = b then .fin (rm == 3) 0 e
  else if b < a then .fin s1 (a - b) e
  else .fin s2 (b - a) e

/-- Addition over the extended reals: the value and whether it is the invalid ∞ − ∞. -/
def FV.add (rm : Nat) : FV → FV → FV × Bool
  | .nan _, _ => (.nan false, false)
  | _, .nan _ => (.nan false, false)
  | .inf a, .inf b => if a = b then (.inf a, false) else (.nan false, true)
  | .inf a, .fin _ _ _ => (.inf a, false)
  | .fin _ _ _, .inf b => (.inf b, false)
  | .fin s1 m1 e1, .fin s2 m2 e2 =>
    if m1 = 0 && m2 = 0 then (.fin (if s1 = s2 then s1 else rm == 3) 0 0, false)
    else (sumFin rm s1 m1 e1 s2 m2 e2, false)

/-- Multiplication over the extended reals: the value and whether it is the invalid 0 × ∞. -/
def FV.mul : FV → FV → FV × Bool
  | .nan _, _ => (.nan false, false)
  | _, .nan _ => (.nan false, false)
  | .inf a, .inf b => (.inf (a != b), false)
  | .inf a, .fin b m _ => if m = 0 then (.nan false, true) else (.inf (a != b), false)
  | .fin a m _, .inf b => if m = 0 then (.nan false, true) else (.inf (a != b), false)
  | .fin a m e, .fin b n g => (.fin (a != b) (m * n) (e + g), false)

/-- Digits a quotient or a root is carried to before its last bit records whether more follow. -/
def guard : Nat := 160

/-- Division over the extended reals: the value (its last bit set when digits were dropped), invalid, division of a
finite nonzero value by zero. -/
def FV.div : FV → FV → FV × Bool × Bool
  | .nan _, _ => (.nan false, false, false)
  | _, .nan _ => (.nan false, false, false)
  | .inf _, .inf _ => (.nan false, true, false)
  | .inf a, .fin b _ _ => (.inf (a != b), false, false)
  | .fin a _ _, .inf b => (.fin (a != b) 0 0, false, false)
  | .fin a m e, .fin b n g =>
    if n = 0 then (if m = 0 then (.nan false, true, false) else (.inf (a != b), false, true))
    else
      let x := m * 2 ^ guard
      (.fin (a != b) (2 * (x / n) + (if x % n = 0 then 0 else 1)) (e - g - guard - 1), false, false)

def FloatFmt.fadd (f : FloatFmt) (rm a b : Nat) : FRes :=
  let x := f.value a
  let y := f.value b
  let r := x.add rm y
  let o := f.pack rm r.1
  (o.1, o.2 ||| flagIf r.2 NV ||| sigFlag [x, y])

def FloatFmt.fneg (f : FloatFmt) (a : Nat) : Nat :=
  if a / f.signBit % 2 = 1 then a - f.signBit else a + f.signBit

def FloatFmt.fsub (f : FloatFmt) (rm a b : Nat) : FRes :=
  let x := f.value a
  let y := f.value b
  let r := x.add rm y.neg
  let o := f.pack rm r.1
  (o.1, o.2 ||| flagIf r.2 NV ||| sigFlag [x, y])

def FloatFmt.fmul (f : FloatFmt) (rm a b : Nat) : FRes :=
  let x := f.value a
  let y := f.value b
  let r := x.mul y
  let o := f.pack rm r.1
  (o.1, o.2 ||| flagIf r.2 NV ||| sigFlag [x, y])

def FloatFmt.fdiv (f : FloatFmt) (rm a b : Nat) : FRes :=
  let x := f.value a
  let y := f.value b
  let r := x.div y
  let o := f.pack rm r.1
  (o.1, o.2 ||| flagIf r.2.1 NV ||| flagIf r.2.2 DZ ||| sigFlag [x, y])

/-- ± a × b ± c with one rounding (R134, R151). -/
def FloatFmt.ffma (f : FloatFmt) (rm a b c : Nat) (negProd negC : Bool) : FRes :=
  let x := f.value a
  let y := f.value b
  let z := f.value c
  let p := x.mul y
  let r := FV.add rm (if negProd then p.1.neg else p.1) (if negC then z.neg else z)
  let o := f.pack rm r.1
  (o.1, o.2 ||| flagIf (p.2 || r.2) NV ||| sigFlag [x, y, z])

/-- Whether x < y for numbers, with −0 = +0. -/
def FV.lt : FV → FV → Bool
  | .nan _, _ => false
  | _, .nan _ => false
  | .inf a, .inf b => a && !b
  | .inf a, .fin _ _ _ => a
  | .fin _ _ _, .inf b => !b
  | .fin s1 m1 e1, .fin s2 m2 e2 =>
    let e := min e1 e2
    let a : Int := m1 * 2 ^ (e1 - e).toNat
    let b : Int := m2 * 2 ^ (e2 - e).toNat
    decide ((if s1 then -a else a) < (if s2 then -b else b))

/-- Whether x = y for numbers, with −0 = +0. -/
def FV.eq (x y : FV) : Bool := !x.isNaN && !y.isNaN && !x.lt y && !y.lt x

/-- Minimum or maximum: −0 lies below +0, any NaN gives the canonical NaN (R67). -/
def FloatFmt.fminmax (f : FloatFmt) (isMax : Bool) (a b : Nat) : FRes :=
  let x := f.value a
  let y := f.value b
  if x.isNaN || y.isNaN then (f.nanBits, sigFlag [x, y])
  else
    let aLess := x.lt y || (x.eq y && x.sign)
    (if aLess != isMax then a else b, 0)

/-- The largest r with r * r ≤ n, found bit by bit from bit `k`. -/
def isqrtFrom (n : Nat) : Nat → Nat → Nat
  | 0, r => if (r + 1) * (r + 1) ≤ n then r + 1 else r
  | k + 1, r => isqrtFrom n k (if (r + 2 ^ (k + 1)) * (r + 2 ^ (k + 1)) ≤ n then r + 2 ^ (k + 1) else r)

def isqrt (n : Nat) : Nat := isqrtFrom n (Nat.log2 n / 2 + 1) 0

/-- √x for x ≥ 0, its last bit set when digits were dropped. -/
def sqrtFin (m : Nat) (e : Int) : FV :=
  let k : Nat := if e % 2 = 0 then 2 * guard else 2 * guard + 1
  let n := m * 2 ^ k
  let r := isqrt n
  .fin false (2 * r + (if r * r = n then 0 else 1)) ((e - k) / 2 - 1)

/-- Square root (R134, R152). -/
def FloatFmt.fsqrt (f : FloatFmt) (rm a : Nat) : FRes :=
  match f.value a with
  | .nan s => (f.nanBits, flagIf s NV)
  | .inf false => (f.signed false (f.infBits.getD f.nanBits), 0)
  | .inf true => f.invalid
  | .fin s m e => if m = 0 then (a, 0) else if s then f.invalid else f.pack rm (sqrtFin m e)

/-- Equality of R127 and R157: NV for a signalling NaN alone. -/
def FloatFmt.feq (f : FloatFmt) (a b : Nat) : Bool × Flags :=
  let x := f.value a
  let y := f.value b
  (x.eq y, sigFlag [x, y])

/-- Less than, NV for any NaN. -/
def FloatFmt.flt (f : FloatFmt) (a b : Nat) : Bool × Flags :=
  let x := f.value a
  let y := f.value b
  (x.lt y, flagIf (x.isNaN || y.isNaN) NV)

/-- Less than or equal, NV for any NaN. -/
def FloatFmt.fle (f : FloatFmt) (a b : Nat) : Bool × Flags :=
  let x := f.value a
  let y := f.value b
  (!x.isNaN && !y.isNaN && !y.lt x, flagIf (x.isNaN || y.isNaN) NV)

/-- Unordered, NV for a signalling NaN alone. -/
def FloatFmt.funord (f : FloatFmt) (a b : Nat) : Bool × Flags :=
  let x := f.value a
  let y := f.value b
  (x.isNaN || y.isNaN, sigFlag [x, y])

/-- A value of the number line from an integer. -/
def FV.ofInt (i : Int) : FV := .fin (decide (i < 0)) i.natAbs 0

/-- A signed integer from the low `w` bits of a number. -/
def signedOf (w x : Nat) : Int :=
  let y := x % 2 ^ w
  if 2 * y < 2 ^ w then (y : Int) else (y : Int) - (2 ^ w : Nat)

/-- The low `w` bits of an integer. -/
def wrapTo (w : Nat) (i : Int) : Nat := (i % (2 ^ w : Nat)).toNat

/-- Format codes of R51. -/
def fmtRAW : Nat := 0
def fmtFP32 : Nat := 1
def fmtC4 : Nat := 11

/-- The floating-point format of a code. -/
def floatFmt : Nat → Option FloatFmt
  | 1 => some fp32
  | 2 => some bf16
  | 3 => some fp16
  | 4 => some e4m3
  | 5 => some e5m2
  | _ => none

/-- The integer format of a code: width, signed. -/
def intFmt : Nat → Option (Nat × Bool)
  | 6 => some (32, true)
  | 7 => some (16, true)
  | 8 => some (8, true)
  | 9 => some (4, true)
  | 10 => some (8, false)
  | _ => none

/-- Element width in bits (R51); RAW has none and counts 0. -/
def fmtWidth : Nat → Nat
  | 1 => 32
  | 2 => 16
  | 3 => 16
  | 4 => 8
  | 5 => 8
  | 6 => 32
  | 7 => 16
  | 8 => 8
  | 9 => 4
  | 10 => 8
  | 11 => 4
  | _ => 0

/-- The exact value of a code in a format, a C4 code through its codebook of BF16 entries (R52, R54). -/
def valueOf (fmt : Nat) (cb : List Half) (code : Nat) : FV :=
  match floatFmt fmt with
  | some f => f.value code
  | none =>
    match intFmt fmt with
    | some (w, sg) => FV.ofInt (if sg then signedOf w code else (code % 2 ^ w : Nat))
    | none => if fmt = fmtC4 then bf16.value (cb.getD (code % 16) 0).toNat else .fin false 0 0

/-- A conversion's result: bits, flags, whether policy TRAP raises CONVERSION_TRAP (R59). -/
structure Conv where
  bits : Nat
  fl : Flags
  trap : Bool
  deriving DecidableEq, Repr

/-- A value rounded to an integer in mode `rm` and brought into a range (R57, R58, R60). -/
def toRange (lo hi : Int) (rm : Nat) : FV → Int × Flags × Bool
  | .nan _ => (0, NV, true)
  | .inf s => (if s then lo else hi, NV ||| IS, true)
  | .fin s m e =>
    let r := roundGrid rm s m e 0
    let i : Int := if s then -(r.1 : Int) else r.1
    if i < lo then (lo, NV ||| IS, true)
    else if hi < i then (hi, NV ||| IS, true)
    else (i, flagIf (!r.2) NX, false)

/-- The range of an integer format (R54). -/
def intRange (w : Nat) (sg : Bool) : Int × Int :=
  if sg then (-(2 ^ (w - 1) : Nat), (2 ^ (w - 1) : Nat) - 1) else (0, (2 ^ w : Nat) - 1)

/-- The result of an overflow under a policy (R58). -/
def FloatFmt.overflow (f : FloatFmt) (s : Bool) (pol : Nat) : Conv :=
  match pol with
  | 0 => ⟨f.signed s f.maxBits, OF ||| NX, false⟩
  | 1 => ⟨match f.infBits with
      | some i => f.signed s i
      | none => f.nanBits, OF ||| NX, false⟩
  | 2 => ⟨f.nanBits, OF ||| NX, false⟩
  | _ => ⟨f.nanBits, OF ||| NX, true⟩

/-- Conversion into a floating-point format (R57 to R59). DEDUCED (log entry 64): a signalling NaN sets NV in a widening
conversion too (R53 beside R62). -/
def FloatFmt.convert (f : FloatFmt) (rm pol : Nat) : FV → Conv
  | .nan s => ⟨f.nanBits, flagIf s NV, false⟩
  | .inf s =>
    match f.infBits with
    | some i => ⟨f.signed s i, 0, false⟩
    | none => f.overflow s pol
  | .fin s m e =>
    let r := f.round rm s m e
    if f.maxBits < r.mag then f.overflow s pol
    else ⟨f.signed s r.mag, flagIf (!r.exact) NX ||| flagIf (!r.exact && r.tiny) UF, false⟩

/-- Conversion of a value into a format other than C4 (R57 to R60, R62). -/
def convertTo (fmt rm pol : Nat) (x : FV) : Conv :=
  match floatFmt fmt with
  | some f => f.convert rm pol x
  | none =>
    match intFmt fmt with
    | some (w, sg) =>
      let r := toRange (intRange w sg).1 (intRange w sg).2 rm x
      ⟨wrapTo w r.1, r.2.1, r.2.2 && pol == 3⟩
    | none => ⟨0, 0, false⟩

/-- Whether |p − v| < |q − v| for finite v and numbers p, q; an infinite distance is never less. -/
def closer (v p q : FV) : Bool :=
  let dist := fun (x : FV) => (x.add 0 v.neg).1.abs
  (dist p).lt (dist q)

/-- The least-distance candidate, lowest index first. -/
def nearest (v : FV) : List (Nat × FV) → Option (Nat × FV) → Option (Nat × FV)
  | [], best => best
  | (i, p) :: r, none => nearest v r (some (i, p))
  | (i, p) :: r, some b => nearest v r (if closer v p b.2 then some (i, p) else some b)

/-- The greatest candidate (or least), lowest index first. -/
def extreme (least : Bool) : List (Nat × FV) → Option (Nat × FV) → Option (Nat × FV)
  | [], best => best
  | (i, p) :: r, none => extreme least r (some (i, p))
  | (i, p) :: r, some b =>
    extreme least r (if (if least then p.lt b.2 else b.2.lt p) then some (i, p) else some b)

/-- The encoding into C4 (R63): the scale enters the comparison, the rounding mode does not. -/
def encodeC4 (cb : List Half) (scale v : FV) (pol : Nat) : Conv :=
  let prods := (List.range 16).map fun i => (i, ((bf16.value (cb.getD i 0).toNat).mul scale).1)
  let nans := prods.filter fun x => x.2.isNaN
  let cands := prods.filter fun x => !x.2.isNaN
  match v with
  | .nan s =>
    match nans with
    | x :: _ => ⟨x.1, flagIf s NV, false⟩
    | [] => ⟨0, NV, pol == 3⟩
  | .inf s =>
    match extreme s cands none with
    | some x => ⟨x.1, flagIf (!(x.2.eq v)) NX, false⟩
    | none => ⟨0, NV, false⟩
  | .fin _ _ _ =>
    match nearest v cands none with
    | some x => ⟨x.1, flagIf (!(x.2.eq v)) NX, false⟩
    | none => ⟨0, NV, false⟩

/-- A bank element to FP32 (R64). A RAW bank gives its codes no value; a movement in flight that meets one (R79) takes a free
value. DESIGN CHOICE (log entry 72). -/
def bankDecode (b : BankFmt) (code : Nat) : FRes :=
  if b.fmt = 0 then (Config.rawValue code % 2 ^ 32, 0) else
  let x := valueOf b.fmt b.cb code
  let s := fp32.value b.scale
  let r := x.mul s
  let o := fp32.pack 0 r.1
  (o.1, o.2 ||| flagIf r.2 NV ||| sigFlag [x, s])

/-- An FP32 value to a bank element (R64); to a RAW bank, which gives it no code, a free one. DESIGN CHOICE (log entry 72). -/
def bankEncode (b : BankFmt) (rm pol v : Nat) : Conv :=
  if b.fmt = 0 then ⟨Config.rawCode v % 2 ^ 32, 0, false⟩ else
  let x := fp32.value v
  let s := fp32.value b.scale
  if b.fmt = fmtC4 then encodeC4 b.cb s x pol
  else
    let y := x.div s
    let o := convertTo b.fmt rm pol y.1
    { o with fl := o.fl ||| flagIf y.2.1 NV ||| flagIf y.2.2 DZ ||| sigFlag [x, s] }

/-- A float immediate as an FP32 pattern (R66). -/
def immF32 (h : Half) : Nat := h.toNat * 2 ^ 16

/-- A float immediate as an FP16 pattern (R66). -/
def immF16 (h : Half) : Nat := (fp16.pack 0 (bf16.value h.toNat)).1

end Sys2Proof.Machine
end

