-- ==== Sys2Proof/Machine/Transcend.lean ====
section
/-! DEFINITION. The functions of R152, correctly rounded. A function value that is not exact is carried to `prec`
fraction bits, its last bit marking that more follow; the operand formats have at most 24 significant bits, so its
distance from any rounding boundary exceeds the error of the series by far. -/

namespace Sys2Proof.Machine

/-- Fraction bits of the fixed-point numbers below. -/
def prec : Nat := 384

def one : Nat := 2 ^ prec

/-- The product of two fixed-point numbers. -/
def fmulP (a b : Nat) : Nat := a * b / one

/-- z + z³/3 + z⁵/5 + …, `n` terms; `t` is z^(2i+1). -/
def atanhTerms (z2 : Nat) : Nat → Nat → Nat → Nat
  | 0, _, _ => 0
  | n + 1, i, t => t / (2 * i + 1) + atanhTerms z2 n (i + 1) (fmulP t z2)

def atanhP (z : Nat) : Nat := atanhTerms (fmulP z z) 140 0 z

/-- ln 2 = 2 atanh(1/3). -/
def ln2 : Nat := 2 * atanhP (one / 3)

/-- 1/k − 1/(3k³) + …, the series of atan(1/k); `t` is 1/k^(2i+1). -/
def atanTerms (k2 : Nat) : Nat → Nat → Nat → Int
  | 0, _, _ => 0
  | n + 1, i, t => (if i % 2 = 0 then (t / (2 * i + 1) : Nat) else -(t / (2 * i + 1) : Nat) : Int)
      + atanTerms k2 n (i + 1) (t / k2)

/-- π = 16 atan(1/5) − 4 atan(1/239). -/
def piP : Nat := (16 * atanTerms 25 100 0 (one / 5) - 4 * atanTerms 57121 40 0 (one / 239)).toNat

/-- 1 + y + y²/2 + …; `t` is y^i / i!. -/
def expTerms (y : Nat) : Nat → Nat → Nat → Nat
  | 0, _, _ => 0
  | n + 1, i, t => t + expTerms y n (i + 1) (fmulP t y / (i + 1))

/-- e^y for 0 ≤ y < 1. -/
def expP (y : Nat) : Nat := expTerms y 90 0 one

/-- Alternating series of sin (from `i` = 1) and cos (from `i` = 0); `t` is x^i / i!. -/
def trigTerms (x2 : Nat) : Nat → Nat → Nat → Int
  | 0, _, _ => 0
  | n + 1, i, t => (t : Int) - trigTerms x2 n (i + 2) (fmulP t x2 / ((i + 1) * (i + 2)))

/-- sin x for 0 ≤ x ≤ π/2. -/
def sinP (x : Nat) : Nat := (trigTerms (fmulP x x) 50 1 x).toNat

/-- An inexact value from its fixed-point form. -/
def inexact (neg : Bool) (x : Nat) (e : Int) : FV := .fin neg (2 * x + 1) (e - prec - 1)

/-- m * 2^e as a fixed-point number, fraction digits beyond `prec` dropped. -/
def toFixed (m : Nat) (e : Int) : Nat :=
  if 0 ≤ e + prec then m * 2 ^ (e + prec).toNat else m / 2 ^ (-(e + prec)).toNat

/-- 2^x for a finite x = ± m * 2^e, not zero. -/
def exp2Fin (s : Bool) (m : Nat) (e : Int) : FV :=
  let top : Int := Nat.log2 m + e
  if 12 ≤ top then .fin false 3 (if s then -5000 else 5000)
  else if top < -60 then
    (if s then .fin false (2 ^ 200 - 1) (-200) else .fin false (2 ^ 200 + 1) (-200))
  else
    let x : Int := if s then -(toFixed m e : Int) else toFixed m e
    let n := x / (one : Int)
    let r := (x % (one : Int)).toNat
    if r = 0 then .fin false 1 n else inexact false (expP (fmulP r ln2)) n

/-- log₂ x for x = m * 2^e > 0, x ≠ 1. -/
def log2Fin (m : Nat) (e : Int) : FV :=
  let l := Nat.log2 m
  if m = 2 ^ l then FV.ofInt (l + e)
  else
    let f0 := m * one / 2 ^ l
    let up := decide (3 * one ≤ 2 * f0)
    let f := if up then f0 / 2 else f0
    let k : Int := l + e + (if up then 1 else 0)
    let num : Int := (f : Int) - one
    let z := num.natAbs * one / (f + one)
    let lnf := 2 * atanhP z
    let lg := lnf * one / ln2
    let v : Int := k * (one : Int) + (if num < 0 then -(lg : Int) else lg)
    inexact (decide (v < 0)) v.natAbs 0

/-- 1 / √(m * 2^e). -/
def rsqFin (m : Nat) (e : Int) : FV :=
  let m' := if e % 2 = 0 then m else 2 * m
  let e' := if e % 2 = 0 then e else e - 1
  let n := 2 ^ (2 * guard) / m'
  let q := isqrt n
  .fin false (2 * q + (if q * q * m' = 2 ^ (2 * guard) then 0 else 1)) (-(e' / 2) - guard - 1)

/-- The fraction of |x| = m * 2^e within a period of 2, as a number of half-turn steps 2^-k: (numerator, k). -/
def halfTurns (m : Nat) (e : Int) : Nat × Nat :=
  if 1 ≤ e then (0, 0)
  else if e = 0 then (m % 2, 0)
  else
    let k := (-e).toNat
    (m % 2 ^ (k + 1), k)

/-- sin(π t) for t = num / 2^k in [0, 2). -/
def sinTurn (num k : Nat) : FV :=
  let unit := 2 ^ k
  let neg := decide (unit ≤ num)
  let r := num % unit
  if r = 0 then .fin false 0 0
  else if 2 * r = unit then .fin neg 1 0
  else
    let r' := if unit < 2 * r then unit - r else r
    let x := piP * r' / unit
    inexact neg (sinP x) 0

/-- sin(π x) for finite x ≠ 0. -/
def sinpiFin (s : Bool) (m : Nat) (e : Int) : FV :=
  let t := halfTurns m e
  match sinTurn t.1 t.2 with
  | .fin _ 0 _ => .fin s 0 0
  | .fin n m' e' => .fin (n != s) m' e'
  | v => v

/-- cos(π x) = sin(π (x + 1/2)) for finite x. -/
def cospiFin (m : Nat) (e : Int) : FV :=
  if m = 0 then .fin false 1 0
  else if Nat.log2 m + e < -60 then .fin false (2 ^ 200 - 1) (-200)
  else
    let t := halfTurns m e
    let k := if t.2 = 0 then 1 else t.2
    let num := if t.2 = 0 then 2 * t.1 else t.1
    sinTurn ((num + 2 ^ (k - 1)) % 2 ^ (k + 1)) k

/-- tanh x for finite x ≠ 0. -/
def tanhFin (s : Bool) (m : Nat) (e : Int) : FV :=
  let top : Int := Nat.log2 m + e
  if top < -60 then .fin s (m * 2 ^ 200 - 1) (e - 200)
  else if 7 ≤ top then .fin s (2 ^ 200 - 1) (-200)
  else
    -- e^(-2x) = 2^(-q)
    let q := toFixed m (e + 1) * one / ln2
    let n := q / one
    let r := q % one
    let ex := if r = 0 then one / 2 ^ n else expP (fmulP (one - r) ln2) / 2 ^ (n + 1)
    inexact s ((one - ex) * one / (one + ex)) 0

/-- A function value packed; signalling operands set NV. -/
def FloatFmt.finish (f : FloatFmt) (rm : Nat) (x : FV) (fl : Flags) : FRes :=
  let o := f.pack rm x
  (o.1, o.2 ||| fl)

def FloatFmt.fexp2 (f : FloatFmt) (rm a : Nat) : FRes :=
  match f.value a with
  | .nan s => (f.nanBits, flagIf s NV)
  | .inf s => if s then (0, 0) else f.finish rm (.inf false) 0
  | .fin s m e => if m = 0 then f.finish rm (.fin false 1 0) 0 else f.finish rm (exp2Fin s m e) 0

def FloatFmt.flog2 (f : FloatFmt) (rm a : Nat) : FRes :=
  match f.value a with
  | .nan s => (f.nanBits, flagIf s NV)
  | .inf s => if s then f.invalid else f.finish rm (.inf false) 0
  | .fin s m e =>
    if m = 0 then f.finish rm (.inf true) DZ
    else if s then f.invalid
    else f.finish rm (log2Fin m e) 0

def FloatFmt.frcp (f : FloatFmt) (rm a : Nat) : FRes :=
  let x := f.value a
  let r := (FV.fin false 1 0).div x
  f.finish rm r.1 (flagIf r.2.2 DZ ||| sigFlag [x])

def FloatFmt.frsq (f : FloatFmt) (rm a : Nat) : FRes :=
  match f.value a with
  | .nan s => (f.nanBits, flagIf s NV)
  | .inf s => if s then f.invalid else (0, 0)
  | .fin s m e =>
    if m = 0 then f.finish rm (.inf s) DZ
    else if s then f.invalid
    else f.finish rm (rsqFin m e) 0

def FloatFmt.fsinpi (f : FloatFmt) (rm a : Nat) : FRes :=
  match f.value a with
  | .nan s => (f.nanBits, flagIf s NV)
  | .inf _ => f.invalid
  | .fin s m e => if m = 0 then (a, 0) else f.finish rm (sinpiFin s m e) 0

def FloatFmt.fcospi (f : FloatFmt) (rm a : Nat) : FRes :=
  match f.value a with
  | .nan s => (f.nanBits, flagIf s NV)
  | .inf _ => f.invalid
  | .fin _ m e => f.finish rm (cospiFin m e) 0

def FloatFmt.ftanh (f : FloatFmt) (rm a : Nat) : FRes :=
  match f.value a with
  | .nan s => (f.nanBits, flagIf s NV)
  | .inf s => f.finish rm (.fin s 1 0) 0
  | .fin s m e => if m = 0 then (a, 0) else f.finish rm (tanhFin s m e) 0

/-- |a| and −a leave every bit but the sign; a NaN gives the canonical NaN (R152). -/
def FloatFmt.fabs (f : FloatFmt) (a : Nat) : FRes :=
  match f.value a with
  | .nan s => (f.nanBits, flagIf s NV)
  | _ => (a % f.signBit, 0)

def FloatFmt.fnegate (f : FloatFmt) (a : Nat) : FRes :=
  match f.value a with
  | .nan s => (f.nanBits, flagIf s NV)
  | _ => (f.fneg a, 0)

end Sys2Proof.Machine
end

