-- ==== Sys2Proof/Machine/Ops.lean ====
section
/-! DEFINITION. The shared operations of the machine: reaching packages, sheets and cores, posting a later step,
raising a fault (the one way in which a sheet takes an exception: R34, R342 to R346), what a word does to its core,
the shadow scoreboard (R121, R122, R347). -/

namespace Sys2Proof.Machine

/-! Order within one cycle: seam and untimed steps, results and visible changes, iteration boundaries (R182: a write
of RRB comes before them), issue, bank reads, bank writes, writes of atomics, ends of the cycle, the stop of faulted
gangs, watchdogs. -/

def phSeam : Nat := 0
def phStart : Nat := 1
def phTurn : Nat := 2
def phIssue : Nat := 3
def phRead : Nat := 4
def phWrite : Nat := 5
def phAtom : Nat := 6
def phEnd : Nat := 7
def phStop : Nat := 8
def phWatch : Nat := 9

/-! Cause codes (R343). -/

def cIllegal : Nat := 1
def cLiteral : Nat := 2
def cRange : Nat := 3
def cMiss : Nat := 4
def cBusy : Nat := 5
def cLane : Nat := 6
def cRmw : Nat := 7
def cRegion : Nat := 8
def cProtect : Nat := 9
def cTrap : Nat := 10
def cCoincident : Nat := 11
def cVatCap : Nat := 12
def cVatConflict : Nat := 13
def cOverrun : Nat := 14
def cUncorrectable : Nat := 15
def cWatchdog : Nat := 16
def cAbort : Nat := 17
def cKill : Nat := 18
def cLink : Nat := 19
def cPeer : Nat := 20

/-! Subcodes of SCHEDULE_MISS and REGION_VIOLATION (R343). -/

def mRendezvous : Nat := 1
def mTag : Nat := 2
def mRing : Nat := 3
def mLate : Nat := 4
def mSwait : Nat := 5
def mScore : Nat := 6
def rScratch : Nat := 1
def rAlign : Nat := 2
def rWindow : Nat := 3
def rPerm : Nat := 4
def rGang : Nat := 5
def rField : Nat := 6
def rArmed : Nat := 7

/-- Element `i` of a list replaced. -/
def listSet {α : Type} : List α → Nat → α → List α
  | [], _, _ => []
  | _ :: r, 0, x => x :: r
  | y :: r, i + 1, x => y :: listSet r i x

/-- Element `i` of a list changed. -/
def listUpd {α : Type} : List α → Nat → (α → α) → List α
  | [], _, _ => []
  | y :: r, 0, f => f y :: r
  | y :: r, i + 1, f => y :: listUpd r i f

/-- The position of an element. -/
def indexOf (a : Nat) : List Nat → Nat
  | [] => 0
  | b :: r => if a = b then 0 else indexOf a r + 1

def w64 (n : Nat) : W64 := BitVec.ofNat 64 n

def State.core? (s : State) (k : Nat) : Option Core := Tab.find? k s.cores

def State.setCore (s : State) (k : Nat) (c : Core) : State := { s with cores := Tab.put k c s.cores }

def State.sheet? (s : State) (id : Nat) : Option Sheet := s.sheets.find? fun x => x.id == id

def State.updSheet (s : State) (id : Nat) (f : Sheet → Sheet) : State :=
  { s with sheets := s.sheets.map fun x => if x.id == id then f x else x }

def State.pkg (s : State) (p : Nat) : Package := s.pkgs.getD p Package.reset

def State.updPkg (s : State) (p : Nat) (f : Package → Package) : State := { s with pkgs := listUpd s.pkgs p f }

/-- A core's key from its package and logical id. -/
def coreKey (pkg id : Nat) : Nat := pkg * 256 + id

def keyPkg (k : Nat) : Nat := k / 256

def keyId (k : Nat) : Nat := k % 256

/-- A step that falls due at a TTC; steps of one cycle and phase keep the order in which they were posted. -/
def State.post (s : State) (ttc ph : Nat) (sh : Option Nat) (a : Act) : State :=
  { s with agenda := s.agenda ++ [{ ttc := ttc, ph := ph, sh := sh, act := a }] }

/-- The shorter way round a ring of `n` from `a` to `b`: steps, toward the positive direction (R241). -/
def ringWay (n a b : Nat) : Nat × Bool :=
  if n ≤ 1 then (0, true)
  else
    let up := (b + n - a % n) % n
    if 2 * up ≤ n then (up, true) else (n - up, false)

/-- Hops on the domain's routes (R241). -/
def State.hops (s : State) (a b : Nat) : Nat :=
  let p := s.pkg a
  let q := s.pkg b
  (ringWay p.ext.1 p.coord.1 q.coord.1).1 + (ringWay p.ext.2.1 p.coord.2.1 q.coord.2.1).1
    + (ringWay p.ext.2.2 p.coord.2.2 q.coord.2.2).1

/-- A stamp of a word: its core, column, address, and a task cycle. -/
def Ctx.desc (x : Ctx) : Desc := ⟨x.k, x.col, x.addr, x.t, x.t⟩

/-- An access descriptor as 64 bits (R344). -/
def descBits (prank : Nat) (d : Desc) : W64 :=
  w64 (prank % 2048 * 2 ^ 53 + keyId d.k % 256 * 2 ^ 45 + d.col.code * 2 ^ 43 + d.addr % 8192 * 2 ^ 30
    + d.start % 2 ^ 30)

/-- A fault found in a core: cause, subcode, the word it names, its task cycle, its data (R343). -/
structure CFault where
  cause : Nat
  sub : Nat
  d : Desc
  task : Nat
  d0 : W64
  d1 : W64
  d2 : W64
  deriving DecidableEq, Repr

/-- What a step does to a core: the core after it, later steps (task cycle, phase), faults, a wait that a lenient sheet
makes and a strict one faults on (R31), free values used. -/
structure Eff where
  core : Core
  evs : List (Nat × Nat × Act)
  flt : List CFault
  wait : Option (Waiting × CFault)
  used : Nat
  deriving DecidableEq, Repr

def Eff.ok (c : Core) : Eff := ⟨c, [], [], none, 0⟩

/-- A step with a fault of this word and no other effect. -/
def Eff.fault (c : Core) (x : Ctx) (cause sub : Nat) (d0 d1 d2 : W64) : Eff :=
  ⟨c, [], [⟨cause, sub, x.desc, x.t, d0, d1, d2⟩], none, 0⟩

def Eff.waits (c : Core) (w : Waiting × CFault) : Eff := ⟨c, [], [], some w, 0⟩

/-- More later steps. -/
def Eff.also (e : Eff) (evs : List (Nat × Nat × Act)) : Eff := { e with evs := e.evs ++ evs }

/-- More faults. -/
def Eff.faults (e : Eff) (fs : List CFault) : Eff := { e with flt := e.flt ++ fs }

/-- One step after another on the same core. -/
def Eff.andThen (e : Eff) (f : Core → Eff) : Eff :=
  let r := f e.core
  ⟨r.core, e.evs ++ r.evs, e.flt ++ r.flt, if e.wait.isSome then e.wait else r.wait, e.used + r.used⟩

/-- The encoding fault of a word: its bits, then the values the rule names, 8 bits each (R343). -/
def Eff.illegal (c : Core) (x : Ctx) (vals : List Nat) : Eff :=
  Eff.fault c x cIllegal 0 (x.word.setWidth 64) (w64 (leNat (vals.map fun v => BitVec.ofNat 8 v))) 0

/-- An encoding fault found at issue. -/
def illegalFaults (c : Core) (x : Ctx) (vals : List Nat) : List CFault := (Eff.illegal c x vals).flt

/-- The task cycle of a sheet at the machine's time (R16). -/
def State.task (s : State) (sh : Sheet) : Nat := s.ttc - sh.t0

/-- The cycle at which a package of the sheet stopped issuing, if it has (R34). -/
def Sheet.stopAt (sh : Sheet) (p : Nat) : Option Nat := (sh.stops.find? fun x => x.1 == p).map Prod.snd

/-! Hardware errors as they are reported (R342, R348, R354). -/

/-- The cluster of a logical core, numbered die * 12 + cluster (R10). -/
def clusterOf (id : Nat) : Nat := id / 96 * 12 + id % 96 / 8

/-- CMAPc.MAP (R352). -/
def Package.cmap (p : Package) (c : Nat) : W32 := Tab.get 0x76543210 p.cmapMap c

/-- The channel of a logical core: die * 108 + cluster * 9 + physical position (R348). -/
def Package.coreChannel (p : Package) (id : Nat) : Nat :=
  clusterOf id * 9 + bits (p.cmap (clusterOf id)).toNat (4 * (id % 8)) 4

def LogFields.none : LogFields := ⟨0, 0, 0xFF, 0, 0, 0, 0, 0, 0, 0, 0, 0, 0⟩

/-- The logical core at a core channel: the one whose position it is, if one has it (R348, R352). -/
def Package.channelCore (p : Package) (ch : Nat) : Option Nat :=
  ((List.range 8).find? fun i => bits (p.cmap (ch / 9)).toNat (4 * i) 4 == ch % 9).map fun i =>
    ch / 108 * 96 + ch % 108 / 9 * 8 + i

/-- What the entry of a hardware error says: its address, and the core it concerns (R342). -/
def Package.errorFields (p : Package) (ch addr : Nat) : LogFields :=
  { LogFields.none with core := if ch < 216 then (p.channelCore ch).getD 0xFF else 0xFF, d0 := w64 addr }

/-- The stack of an address (R91). -/
def stackOf (a : Nat) : Nat := a / 256 % 8

/-- The series pair of a cluster under trial whose channels count as margin events (R354). -/
def Package.underTrial (p : Package) (ch : Nat) : Bool :=
  decide (ch < 216) && p.trial.any fun j => j.pair == ch / 9 / 2

/-- An event of a channel, of KIND 0, 1, 2, 3 or 4; it takes its id at the end of the PCC cycle (R342, R348). -/
def Package.event (p : Package) (ttc kind ch : Nat) (f : LogFields) : Package :=
  { p with reports := p.reports ++ [⟨ttc, kind, ch, f⟩] }

/-- A fault that its log entry records with the error behind it: one of its own package (R342; log entry 61). -/
def FaultRec.hard (f : FaultRec) : Bool := f.cause == cUncorrectable && f.ch.all fun c => c.1 == f.pkg

/-- The channel of a fault's log entry (R348): the error's own, or the mill controller's. -/
def FaultRec.channel (p : Package) (f : FaultRec) : Nat :=
  if !f.hard then 241
  else match f.ch with
    | some c => c.2
    | none => if f.sub = 6 then 216 + stackOf f.d0.toNat else if f.sub = 8 then 240 else p.coreChannel f.core

/-- An uncorrectable error of a pair under trial restores its voltage and ends every sheet on the pair (R354). -/
def State.marginCheck (s : State) (f : FaultRec) : State :=
  let p := s.pkg f.pkg
  let ch := f.channel p
  if f.hard && !f.whole && p.underTrial ch then
    (s.updPkg f.pkg fun p => { p with trial := p.trial.map fun t => { t with addr := f.d0 } }).post s.ttc phStop none
      (.marginRestore f.pkg (ch / 9 / 2) f.sub)
  else s

/-- An uncorrectable error that no log entry of a fault records, as an event of its own (R342, R348). -/
def State.hardEvent (s : State) (f : FaultRec) : State :=
  if f.hard then
    (s.updPkg f.pkg fun p => p.event s.ttc (if f.margin then 3 else 2) (f.channel p) (p.errorFields (f.channel p) f.d0.toNat)).marginCheck f
  else s

/-- TAKING A FAULT (R34): it is recorded with its sheet, and each package of the gang stops issuing at the end of
cycle t (its own package) or t + 768 h + 64 (a package h hops away). A package that has stopped raises no more, nor does
a sheet that does not run; an error behind such a fault is still an event (R348). -/
def State.raise (s : State) (id : Nat) (f : FaultRec) : State :=
  match s.sheet? id with
  | none => s
  | some sh =>
    if sh.state != 5 || ((sh.stopAt f.pkg).any fun t => decide (t < f.task)) then s.hardEvent f
    else
      let s := s.updSheet id fun sh => { sh with faults := sh.faults ++ [f] }
      sh.pkgs.foldl (fun s q =>
        let t := if q = f.pkg then f.task else f.task + 768 * s.hops f.pkg q + 64
        s.post (sh.t0 + t) phStop (some id) (.peerAbortStop id q)) s

/-- A core's fault as its sheet records it. Its word may be 0x2000, the address past the store (R105). -/
def State.faultRec (s : State) (sh : Sheet) (f : CFault) : FaultRec :=
  let rank := match s.core? f.d.k with
    | some c => c.rank
    | none => 0
  ⟨keyPkg f.d.k, none, false, f.cause, f.sub, false, f.d.k, keyId f.d.k, rank, f.d.col, f.d.addr, f.task, f.d0, f.d1, f.d2⟩
    |> fun r => if sh.pkgs.contains r.pkg then r else { r with pkg := sh.home }

def State.raiseAll (s : State) (id : Nat) (fs : List CFault) : State :=
  match s.sheet? id with
  | none => s
  | some sh => fs.foldl (fun s f => s.raise id (s.faultRec sh f)) s

/-- Later steps of a sheet, in task cycles. -/
def State.postAll (s : State) (t0 : Nat) (id : Nat) (evs : List (Nat × Nat × Act)) : State :=
  { s with agenda := s.agenda ++ evs.map fun e => { ttc := t0 + e.1, ph := e.2.1, sh := some id, act := e.2.2 } }

/-- The column of a core. -/
def Core.col (c : Core) : Col → Column
  | .S => c.cols.1
  | .V => c.cols.2.1
  | .M => c.cols.2.2.1
  | .X => c.cols.2.2.2

def Core.setCol (c : Core) (o : Col) (x : Column) : Core :=
  match o with
  | .S => { c with cols := (x, c.cols.2) }
  | .V => { c with cols := (c.cols.1, x, c.cols.2.2) }
  | .M => { c with cols := (c.cols.1, c.cols.2.1, x, c.cols.2.2.2) }
  | .X => { c with cols := (c.cols.1, c.cols.2.1, c.cols.2.2.1, x) }

def Core.setCursor (c : Core) (o : Col) (cu : Cursor) : Core := c.setCol o { c.col o with cu := cu }

/-- The steps that belong to issue, which a stall moves with the columns; the core they act on. -/
def pacedCore : Act → Option Nat
  | .repRepetition k _ | .rotatingIterationBoundary k _ _ _ => some k
  | _ => none

/-- A pending step of sheet `id` that paces its columns. -/
def Event.paces (e : Event) (id : Nat) : Bool := e.sh == some id && (pacedCore e.act).isSome

/-- A gang-wide stall begins: the waiting word returns to its place, with the steps that its own issue posted undone, and
the condition is checked from the next cycle on (R31). Steps that pace the columns wait with them.
DESIGN CHOICE (log entry 8): of the words due in the cycle in which the stall begins, those before the waiting word in
the order of `issueBefore` have issued; the later ones wait. -/
def State.stallOn (s : State) (sh : Sheet) (w : Waiting) : State :=
  let t := s.cur.t
  let own := fun (e : Event) => s.cur.col == .V && pacedCore e.act == some s.cur.k
  let held := (s.agenda.filter fun e => e.paces sh.id && !own e).map fun e => (e.ttc - sh.t0, e.ph, e.act)
  let s := { s with agenda := s.agenda.filter fun e => !(e.paces sh.id) }
  let s := match s.core? s.cur.k with
    | some c => s.setCore s.cur.k (c.setCursor s.cur.col s.cur.prev)
    | none => s
  (s.updSheet sh.id fun x => { x with stall := some (t, w), paced := held }).post (sh.t0 + t + 1) phStart (some sh.id)
    (.lenientStallRecheck sh.id)

/-- The effect of a step on core `k` carried out. -/
def State.commit (s : State) (k : Nat) (e : Eff) : State :=
  match s.sheet? e.core.sh with
  | none => s
  | some sh =>
    match e.wait with
    | some (w, f) => if sh.lenient then s.stallOn sh w else s.raiseAll sh.id (f :: e.flt)
    | none =>
      let s := { s.setCore k e.core with free := s.free + e.used }
      (s.postAll sh.t0 sh.id e.evs).raiseAll sh.id e.flt

/-- A word that acts on its core alone: `f` is its meaning, given the issue context and the core. -/
def State.issueOn (s : State) (f : Ctx → Core → Eff) : Host.Outcome State Fault Refusal :=
  match s.core? s.cur.k with
  | none => .next s
  | some c => .next (s.commit s.cur.k (f s.cur c))

/-- A pending step of core `k`; `f` takes the task cycle, the free-value counter and the core. -/
def State.atCore (s : State) (k : Nat) (f : Nat → Nat → Core → Eff) : Host.Outcome State Fault Refusal :=
  match s.core? k with
  | none => .next s
  | some c =>
    match s.sheet? c.sh with
    | none => .next s
    | some sh => .next (s.commit k (f (s.task sh) s.free c))

/-! Registers (R121). -/

/-- s-register `n`; s0 reads as zero. -/
def Core.sget (c : Core) (n : Nat) : W64 := if n = 0 then 0 else Tab.get 0 c.s n

/-- p-register `n`; p0 reads as 1. -/
def Core.pget (c : Core) (n : Nat) : Bool := n == 0 || c.p.getLsbD n

def Core.sset (c : Core) (n : Nat) (v : W64) : Core := if n = 0 then c else { c with s := Tab.set 0 n v c.s }

def Core.pset (c : Core) (n : Nat) (b : Bool) : Core :=
  if n = 0 then c
  else { c with p := if b then c.p ||| (1#8 <<< n) else c.p &&& ~~~ (1#8 <<< n) }

/-- Semaphore `b` as a check at cycle `t` finds it: additions of earlier cycles counted in, saturated (R123).
DESIGN CHOICE (log entry 47): subtractions of a cycle come before its additions, which saturate at the end of it. -/
def Core.semAt (c : Core) (t b : Nat) : Sem :=
  let m := Tab.get ⟨0, 0, 0, 0, 0⟩ c.sem b
  if m.cyc < t then
    ⟨BitVec.ofNat 32 (min (m.count.toNat + m.addC) (2 ^ 32 - 1)),
      BitVec.ofNat 40 (min (m.pend.toNat + m.addP) (2 ^ 40 - 1)), 0, 0, 0⟩
  else m

def Core.setSem (c : Core) (b : Nat) (m : Sem) : Core := { c with sem := Tab.set ⟨0, 0, 0, 0, 0⟩ b m c.sem }

/-- Additions of cycle `t`, seen by later cycles (R123). -/
def Core.semAdd (c : Core) (t b count pend : Nat) : Core :=
  let m := c.semAt t b
  c.setSem b { m with addC := m.addC + count, addP := m.addP + pend, cyc := t }

/-! The shadow scoreboard (R122, R347). A register is a pair (class, number) of R343. -/

def sReg (n : Nat) : Nat × Nat := (0, n)
def pReg (n : Nat) : Nat × Nat := (1, n)
def vReg (n : Nat) : Nat × Nat := (2, n)
def qReg (n : Nat) : Nat × Nat := (3, n)

/-! Two more stores of the subcode REGISTER, whose reads no result in flight delays (R343). -/

def semReg (n : Nat) : Nat × Nat := (8, n)
def constReg (n : Nat) : Nat × Nat := (9, n)

/-- The REP unit a word belongs to. -/
def Ctx.unit (x : Ctx) : Option Nat := x.rep.map fun r => r.2.2.2

/-- The producer that makes a read at `x.t` early. A repetition is not checked against its own unit (R161). -/
def Core.early (c : Core) (x : Ctx) (r : Nat × Nat) : Option Producer :=
  c.board.find? fun p => p.cls == r.1 && p.num == r.2 && decide (x.t < p.done)
    && !(p.unit.isSome && p.unit == x.unit)

/-- The older producer that a result at cycle `done` would not follow. -/
def Core.overtakes (c : Core) (r : Nat × Nat) (done : Nat) : Option Producer :=
  c.board.find? fun p => p.cls == r.1 && p.num == r.2 && decide (done ≤ p.done)

/-- An access descriptor whose PKG is the package rank of its own core (R344). -/
def State.descOf (s : State) (d : Desc) : W64 := descBits ((s.core? d.k).elim 0 Core.prank) d

/-- The SCOREBOARD fault against a producer, and the wait for it. -/
def Core.scoreFault (c : Core) (x : Ctx) (p : Producer) (ready : Nat) : Waiting × CFault :=
  (.reg x.k ready, ⟨cMiss, mScore, x.desc, x.t, w64 (p.cls * 256 + p.num), descBits c.prank p.d, 0⟩)

/-- The first failed check of a word that reads `rs` and writes `ws` (register, completion cycle). -/
def Core.board? (c : Core) (x : Ctx) (rs : List (Nat × Nat)) (ws : List ((Nat × Nat) × Nat)) :
    Option (Waiting × CFault) :=
  match rs.findSome? (c.early x) with
  | some p => some (c.scoreFault x p p.done)
  | none =>
    match ws.findSome? (fun w => (c.overtakes w.1 w.2).map fun p => (p, w.2)) with
    | some (p, done) => some (c.scoreFault x p (x.t + (p.done + 1 - done)))
    | none => none

/-- Results in flight recorded, a register's latest producer before its older ones. Writes to s0, p0 and q0 are none. -/
def Core.claim (c : Core) (x : Ctx) (ws : List ((Nat × Nat) × Nat)) : Core :=
  let ws := ws.filter fun w => w.1.2 != 0 || w.1.1 == 2
  let live := c.board.filter fun p => decide (x.t < p.done)
  let again := fun (p : Producer) => ws.any fun w => w.1.1 == p.cls && w.1.2 == p.num
  { c with board := (live.filter fun p => !again p) ++ ws.map (fun w => ⟨w.1.1, w.1.2, w.2, x.desc, x.unit⟩)
      ++ live.filter again }

/-- The location of the landing buffers among those of `Core.ill`: the subcodes of R343 name none, so their errors have SCRATCH, the
store that the data enter (DESIGN CHOICE, log entry 29). -/
def landingLoc : Nat := 9

/-- From this location on, an entry of `Core.ill` stands for a corrected error, of the location that many less (R350). -/
def softLoc : Nat := 16

/-- The first address of an on-die store at which an uncorrectable error stands, of those that `hit` names (R350). -/
def Core.illAt (c : Core) (loc : Nat) (hit : Nat → Bool) : Option Nat :=
  (c.ill.find? fun e => e.1 == loc && hit e.2).map (·.2)

/-- UNCORRECTABLE of word `d`, which reads a store of location `loc` at cycle `t` (R343, R350). -/
def Core.illFaults (c : Core) (d : Desc) (t loc : Nat) (hit : Nat → Bool) : List CFault :=
  match c.illAt loc hit with
  | some a => [⟨cUncorrectable, loc, d, t, w64 a, 0, 0⟩]
  | none => []

/-- The registers that read as constants hold no error. -/
def hardWired (r : Nat × Nat) : Bool := r.2 == 0 && (r.1 == 0 || r.1 == 1 || r.1 == 3)

/-- The fault of a word that reads a register with an uncorrectable error. DESIGN CHOICE (log entry 29): register `n` of class `c`
has address 1024 c + n in its store. -/
def Core.illRegs (c : Core) (x : Ctx) (rs : List (Nat × Nat)) : List CFault :=
  c.illFaults x.desc x.t 3 fun a => rs.any fun r => !(hardWired r) && a == 1024 * r.1 + r.2

/-- A word checked against the scoreboard, and against the faults `pre` that its operands raise at issue, before its
effect. A register that it reads with an uncorrectable error raises one more (R350). -/
def Core.checked (c : Core) (x : Ctx) (rs : List (Nat × Nat)) (ws : List ((Nat × Nat) × Nat)) (pre : List CFault)
    (f : Core → Eff) : Eff :=
  let pre := pre ++ c.illRegs x rs
  match c.board? x rs ws with
  | some w => { Eff.waits c w with flt := pre }
  | none => if pre.isEmpty then f (c.claim x ws) else (Eff.ok c).faults pre

/-- An S word with one scalar result, read at issue and written at issue + L with its flags (R121); predicated off it
has no effect (R281). -/
def scalarOp (rs : List (Nat × Nat)) (dst : RegRef) (lat : Nat) (f : Core → W64 × Flags) (x : Ctx) (c : Core) : Eff :=
  if x.off then Eff.ok c
  else
    let w := match dst with
      | .s n => sReg n
      | .p n => pReg n
      | .sp n => (6, n)
    c.checked x rs [(w, x.t + lat)] [] fun c =>
      let r := f c
      (Eff.ok c).also [(x.t + lat, phStart, .registerWriteback x.k dst r.1 r.2)]

end Sys2Proof.Machine
end

