-- ==== Sys2Proof/Machine/Bank.lean ====
section
/-! DEFINITION. Scratchpad banks, frames and tags, RMW windows and the ordering check inside a core (R74 to R81, R88,
R269 to R277). -/

namespace Sys2Proof.Machine

/-- Scratchpad bytes (R74). -/
def spadSize : Nat := 0x180000

/-- The bank of a scratchpad address. -/
def bankOf (a : Nat) : Nat := a / 65536

/-- The station of a bank (R75). -/
def bankStation (b : Nat) : Nat := 2 * (b / 2)

/-- BFMTn (R78). -/
def Core.bfmtReg (c : Core) (b : Nat) : BitVec 39 := Tab.get 0x3F800000 c.bfmt b

/-- The codebook of a bank: sixteen BF16 entries (R78). -/
def Core.codebook (c : Core) (b : Nat) : List Half :=
  (List.range 16).map fun i => fld (Tab.get 0 c.bcb (4 * b + i / 4)).toNat (16 * (i % 4)) 16

/-- The format register of a bank. -/
def Core.bank (c : Core) (b : Nat) : BankFmt :=
  let w := (c.bfmtReg b).toNat
  ⟨bits w 32 4, if bits w 32 4 = fmtC4 then c.codebook b else [], bits w 0 32, bits w 36 2⟩

/-- WP of a bank (R81). -/
def Core.protected_ (c : Core) (b : Nat) : Bool := bits (c.bfmtReg b).toNat 38 1 == 1

/-- Tile positions of a ring, and their bytes (R82). -/
def Ring.cap (r : Ring) : Nat := r.nfr / r.tile
def Ring.tileBytes (r : Ring) : Nat := r.tile * 4096
def Ring.size (r : Ring) : Nat := r.cap * r.tileBytes

/-- The frame lies in a tile position of the ring (R80, R82). -/
def Ring.holds (r : Ring) (f : Nat) : Bool :=
  r.nfr != 0 && decide (r.first ≤ f) && decide (f < r.first + r.cap * r.tile)

def Core.inRing (c : Core) (f : Nat) : Bool := c.rings.any fun g => g.2.holds f

/-- A frame's tag as a comparison of cycle `t` finds it (R277). -/
def Core.tagAt (c : Core) (t f : Nat) : Half :=
  let g := Tab.get ⟨0, 0, 0⟩ c.tags f
  if g.cyc < t then g.val + BitVec.ofNat 16 g.inc else g.val

/-- A frame's tag advances at cycle `t` (R80). -/
def Core.bumpTag (c : Core) (t f : Nat) : Core :=
  let g := Tab.get ⟨0, 0, 0⟩ c.tags f
  let g' : Tag := if g.cyc < t then ⟨g.val + BitVec.ofNat 16 g.inc, 1, t⟩ else { g with inc := g.inc + 1 }
  { c with tags := Tab.set ⟨0, 0, 0⟩ f g' c.tags }

/-- Completed writes into frames: those inside a ring advance at the push instead (R80). -/
def Core.bumpPlain (c : Core) (t : Nat) (fs : List Nat) : Core :=
  fs.foldl (fun c f => if c.inRing f then c else c.bumpTag t f) c

/-- The same word and start. -/
def sameWord (a b : Desc) : Bool := a.k == b.k && a.col == b.col && a.addr == b.addr && a.start == b.start

/-- One issue of one word, whichever of its legs: a SEND to its own core leaves and lands as one movement (R77, R227). -/
def sameIssue (a b : Desc) : Bool := a.k == b.k && a.col == b.col && a.addr == b.addr && a.iss == b.iss

/-- The same timed agent: one column of one core (R268). -/
def sameAgent (a b : Desc) : Bool := a.k == b.k && a.col == b.col

/-- The word that R34 reports first: lower logical core id, column, address; of equal ones that of the lower package. -/
def reportsFirst (a b : Desc) : Bool :=
  decide (keyId a.k < keyId b.k) || (keyId a.k == keyId b.k && (decide (a.col.code < b.col.code) ||
    (a.col.code == b.col.code && (decide (a.addr < b.addr) || (a.addr == b.addr && decide (a.k ≤ b.k))))))

/-- What an access meets: it may be refused by an RMW window. -/
structure Met where
  core : Core
  flt : List CFault
  ok : Bool

/-- The runs of bytes that are there, from address `a` on: (first, last). -/
def spans : Nat → List (Option Byte) → List (Nat × Nat)
  | _, [] => []
  | a, none :: r => spans (a + 1) r
  | a, some _ :: r =>
    match spans (a + 1) r with
    | [] => [(a, a)]
    | s :: ss => if s.1 = a + 1 then (a, s.2) :: ss else (a, a) :: s :: ss

/-- The windows of atomics that an access of cycle `t` to some runs of bytes falls into (R88). -/
def Core.windowsHit (c : Core) (t : Nat) (sp : List (Nat × Nat)) (d : Desc) : List Rmw :=
  c.rmw.filter fun r => decide (r.lo ≤ t) && decide (t ≤ r.hi)
    && (sp.any fun b => decide (b.1 / 64 ≤ r.line) && decide (r.line ≤ b.2 / 64)) && !(sameWord r.d d)

/-- The accesses of cycle `t` that share a byte with a new one of which they are not independent (R270, R272), with the
first shared run. -/
def Core.sharing (c : Core) (t : Nat) (sp : List (Nat × Nat)) (wr : Bool) (cls : Nat) (d : Desc) :
    List (Access × Nat × Nat) :=
  c.acc1.filterMap fun a =>
    if a.cyc == t && (a.wr || wr) && !(a.wr && wr && sameAgent a.d d) && !(sameWord a.d d && a.cls == cls && a.wr == wr) then
      (sp.find? fun b => decide (a.lo ≤ b.2) && decide (b.1 ≤ a.hi)).map fun b => (a, max a.lo b.1, min a.hi b.2)
    else none

/-- An access of cycle `t` to the runs of bytes `sp` (R88, R269 to R274): windows of atomics over its lines, conflicting
accesses of the same cycle and class (COINCIDENT_ACCESS). It is recorded. -/
def Core.meet (c : Core) (t : Nat) (sp : List (Nat × Nat)) (wr : Bool) (cls : Nat) (d : Desc) : Met :=
  let hit := c.windowsHit t sp d
  if hit.isEmpty then
    let shared := c.sharing t sp wr cls d
    let fs := (shared.filter fun a => a.1.cls == cls).map fun a =>
      let own := if reportsFirst a.1.d d then a.1.d else d
      (⟨cCoincident, 0, own, t, w64 a.2.1, descBits c.prank { a.1.d with start := t },
        descBits c.prank { d with start := t }⟩ : CFault)
    ⟨{ c with acc1 := (c.acc1.filter fun a => a.cyc == t) ++ sp.map fun b => ⟨t, b.1, b.2, wr, cls, d⟩ }, fs, true⟩
  else
    let fs := hit.map fun r =>
      (⟨cRmw, 0, d, t, w64 (r.line * 64), descBits c.prank r.d,
        descBits c.prank { d with start := t }⟩ : CFault)
    let void := c.rmw.map fun r => if hit.any fun h => sameWord h.d r.d then { r with void := true } else r
    ⟨{ c with rmw := void }, fs, false⟩

def inRanges (rs : List (Nat × Nat)) (a : Nat) : Bool := rs.any fun r => decide (r.1 ≤ a) && decide (a ≤ r.2)

/-- The bytes that other alias classes write in the cycle of a read, and the scratchpad as those writes leave it. -/
structure Racing where
  rs : List (Nat × Nat)
  after : Mem
  deriving DecidableEq, Repr

def noRace : Racing := ⟨[], []⟩

/-- Bytes read in a race: each is the old or the new one (R274). `fr` is the first free value. -/
def raceBytes (x : Racing) (fr : Nat) : Nat → List Byte → List Byte
  | _, [] => []
  | a, b :: r =>
    (if inRanges x.rs a && Config.choice (fr + a) then Tab.get 0 x.after a else b) :: raceBytes x fr (a + 1) r

/-- An uncorrectable location among the bytes (R350). -/
def Core.badIn (c : Core) (lo hi : Nat) : Option Nat := c.bad.find? fun a => decide (lo ≤ a) && decide (a ≤ hi)

/-- A bank read of cycle `t`: the bytes and the core after it. `races` are the bytes that another class writes in this
cycle. -/
def Core.readBank (c : Core) (t fr : Nat) (races : Racing) (addr len cls : Nat) (d : Desc) :
    Eff × Option (List Byte) :=
  if len = 0 then (Eff.ok c, some [])
  else
    let hi := addr + len - 1
    let m := c.meet t [(addr, hi)] false cls d
    let open_ := races.rs.any fun r => decide (r.1 ≤ hi) && decide (addr ≤ r.2)
    let e : Eff := (Eff.ok m.core).faults m.flt
    if !m.ok then (e, none)
    else
      let raw := Tab.slice 0 c.spad addr len
      let e := match c.badIn addr hi with
        | some a => e.faults [⟨cUncorrectable, 1, d, t, w64 a, 0, 0⟩]
        | none => e
      if open_ then ({ e with used := spadSize }, some (raceBytes races fr addr raw)) else (e, some raw)

/-- The runs of bytes that other agents have written in cycle `t` through other alias classes, of those that touch bytes `lo` to
`hi` (R274). -/
def Core.racingWrites (c : Core) (t lo hi cls : Nat) (d : Desc) : List (Nat × Nat) :=
  (c.acc1.filter fun a => a.cyc == t && a.wr && a.cls != cls && !(sameAgent a.d d) && decide (a.lo ≤ hi) && decide (lo ≤ a.hi)).map
    fun a => (a.lo, a.hi)

/-- Bytes written in a race with an earlier write of another class in the cycle: one of the two stands (R274). -/
def raceWrite (races : List (Nat × Nat)) (fr : Nat) : Nat → List (Option Byte) → List (Option Byte)
  | _, [] => []
  | a, b :: r => (if inRanges races a && Config.choice (fr + a) then none else b) :: raceWrite races fr (a + 1) r

/-- Bytes of a write from `a` on that no later-issued word of its agent has written (R272). -/
def Core.inIssueOrder (c : Core) (d : Desc) (a : Nat) (bs : List (Option Byte)) : List (Option Byte) :=
  let late := (c.wlast.filter fun e => sameAgent e.1 d && decide (d.iss < e.1.iss) && decide (a < e.2.2 + 1)
    && decide (e.2.1 < a + bs.length)).map (·.2)
  if late.isEmpty then bs else (bs.zipIdx).map fun b => if inRanges late (a + b.2) then none else b.1

/-- Runs of bytes written, entered for R272; they supersede writes of their agent's earlier words that they cover. -/
def Core.wrote (c : Core) (d : Desc) (sp : List (Nat × Nat)) : Core :=
  { c with wlast := (c.wlast.filter fun e =>
      !(sameAgent e.1 d && decide (e.1.iss ≤ d.iss) && sp.any fun b => decide (b.1 ≤ e.2.1) && decide (e.2.2 ≤ b.2)))
      ++ sp.map fun b => (d, b.1, b.2) }

/-- A bank write that neither the bank's WP bit, if it is judged here (R81), nor a window of an atomic (R88) refuses. -/
def Core.admits (c : Core) (t : Nat) (judge : Bool) (addr : Nat) (data : List (Option Byte)) (d : Desc) : Bool :=
  data.all Option.isNone || (!(judge && c.protected_ (bankOf addr)) && (c.windowsHit t (spans addr data) d).isEmpty)

/-- A bank write of cycle `t`: bytes where there are some. `judge` says that the write meets the bank's WP bit here
(R81). -/
def Core.writeBank (c : Core) (t fr : Nat) (judge : Bool) (addr : Nat) (data : List (Option Byte)) (cls : Nat)
    (d : Desc) : Eff :=
  if data.all Option.isNone then Eff.ok c
  else if judge && c.protected_ (bankOf addr) then
    (Eff.ok c).faults [⟨cProtect, 0, d, t, w64 addr, w64 (bankOf addr), 0⟩]
  else
    let sp := spans addr data
    let m := c.meet t sp true cls d
    let e : Eff := (Eff.ok m.core).faults m.flt
    if !m.ok then e
    else
      let races := c.racingWrites t addr (addr + data.length - 1) cls d
      let data := if races.isEmpty then data else raceWrite races fr addr data
      let data := m.core.inIssueOrder d addr data
      { e with core := { m.core.wrote d sp with spad := Tab.spliceOpt 0 addr data m.core.spad },
               used := if races.isEmpty then 0 else spadSize }

/-- A frame index (R74). -/
def frameOf (a : Nat) : Nat := a / 4096

/-- The frames of a run of bytes. -/
def framesOf (addr len : Nat) : List Nat :=
  if len = 0 then [] else (List.range (frameOf (addr + len - 1) - frameOf addr + 1)).map fun i => frameOf addr + i

/-- The TAG fault of a read whose frame does not carry the tag it expects (R80). -/
def Core.tagFault (c : Core) (t f : Nat) (want : Half) (d : Desc) : List CFault :=
  let got := c.tagAt t f
  if got = want then [] else [⟨cMiss, mTag, d, t, w64 f, w64 (want.toNat * 65536 + got.toNat), 0⟩]

/-- REGION_VIOLATION, SCRATCH (R74, R131, R165). -/
def Eff.scratch (c : Core) (x : Ctx) (a : Nat) : Eff := Eff.fault c x cRegion rScratch (w64 a) 0 0

end Sys2Proof.Machine
end

