-- ==== Sys2Proof/Machine/Ring.lean ====
section
/-! DEFINITION. Rings and felt lanes (R76, R77, R82 to R86): reservation and consumption at issue, push and retirement,
sidecars and row maxima, the beats of a stream, the segments a movement crosses. -/

namespace Sys2Proof.Machine

def noRing : Ring :=
  { first := 0, nfr := 0, tile := 0, side := false, act := false, wr := 0, rd := 0, gbase := [], tiles := [],
    sidecars := [], amax := [], screenOut := false, was := none, users := [] }

def Core.ring (c : Core) (g : Nat) : Ring := Tab.get noRing c.rings g

def Core.setRing (c : Core) (g : Nat) (r : Ring) : Core := { c with rings := Tab.set noRing g r c.rings }

/-- The tile numbers that bytes `off` to `off + n - 1` of a ring touch. -/
def Ring.tilesOf (r : Ring) (off n : Nat) : List Nat :=
  if n = 0 || r.tileBytes = 0 then []
  else (List.range ((off + n - 1) / r.tileBytes - off / r.tileBytes + 1)).map fun i => off / r.tileBytes + i

/-- A position retired in an earlier cycle than `t` is free (R83). -/
def Tile.free (x : Tile) (t : Nat) : Bool := x.retired.any fun r => decide (r < t)

def Ring.tile? (r : Ring) (k : Nat) : Option Tile := r.tiles.find? fun x => x.idx == k

/-- Tile number `k` reserved at cycle `t`, unless its position is still in use (R83). -/
def Ring.take (r : Ring) (t k : Nat) : Option Ring :=
  if (r.tile? k).isSome then some r
  else
    let others := r.tiles.filter fun x => x.idx % r.cap == k % r.cap
    if others.all fun x => x.free t then
      some { r with tiles := (r.tiles.filter fun x => x.idx % r.cap != k % r.cap)
                ++ [⟨k, r.tileBytes, none, r.tileBytes, none, 0⟩] }
    else none

/-- `n` bytes reserved from the write cursor at cycle `t` (R83). -/
def Ring.reserve (r : Ring) (t n : Nat) : Option Ring :=
  ((r.tilesOf r.wr n).foldl (fun o k => o.bind fun r => r.take t k) (some r)).map fun r => { r with wr := r.wr + n }

/-- `n` bytes consumed from the read cursor at cycle `t`: every tile they touch was pushed earlier (R83). -/
def Ring.consume (r : Ring) (t n : Nat) : Option Ring :=
  if (r.tilesOf r.rd n).all fun k => (r.tile? k).any fun x => x.pushed.any fun p => decide (p < t) then
    some { r with rd := r.rd + n }
  else none

/-- Bytes of tile `k` among `off` to `off + n - 1`. -/
def Ring.part (r : Ring) (off n k : Nat) : Nat :=
  min (off + n) ((k + 1) * r.tileBytes) - max off (k * r.tileBytes)

/-- The address of a ring offset. -/
def Ring.addr (r : Ring) (off : Nat) : Nat := r.first * 4096 + (if r.size = 0 then 0 else off % r.size)

/-- The frames of tile `k`. -/
def Ring.frames (r : Ring) (k : Nat) : List Nat := (List.range r.tile).map fun i => r.first + (k % r.cap) * r.tile + i

/-- Elements of a row that the row maxima read, per format (R86, R199). -/
def ktOf (fmt : Nat) : Nat := if fmtWidth fmt ≤ 8 then 256 else 128

/-- The element position of (row, column) in an activation tile (R199). -/
def actElem (kt m k : Nat) : Nat := ((m / 16) * (kt / 64) + k / 64) * 1024 + (m % 16) * 64 + k % 64

/-- Element `i` of packed elements of width `w` (R55). -/
def elemAt (w : Nat) (bs : List Byte) (i : Nat) : Nat :=
  if w = 4 then bits (bs.getD (i / 2) 0).toNat (4 * (i % 2)) 4
  else leNat ((bs.drop (i * (w / 8))).take (w / 8))

/-- The packed elements of width `w` in order (R55), one pass over the bytes. -/
def elems4 : List Byte → List Nat
  | [] => []
  | b :: r => b.toNat % 16 :: b.toNat / 16 :: elems4 r

def elems16 : List Byte → List Nat
  | a :: b :: r => (a.toNat + 256 * b.toNat) :: elems16 r
  | _ => []

def elems32 : List Byte → List Nat
  | a :: b :: c :: d :: r => leNat [a, b, c, d] :: elems32 r
  | _ => []

def elemsOf (w : Nat) (bs : List Byte) : List Nat :=
  match w with
  | 4 => elems4 bs
  | 8 => bs.map (·.toNat)
  | 16 => elems16 bs
  | _ => elems32 bs

/-- The larger of two non-negative FP32 patterns. -/
def maxPos (a b : Nat) : Nat := if a < b then b else a

/-- The magnitude of an element for the amax tap, rounded up; +∞ where it is NaN (R86). -/
def magUp (b : BankFmt) (code : Nat) : Nat :=
  let p := ((valueOf b.fmt b.cb code).mul (fp32.value b.scale)).1
  match p with
  | .nan _ => 0x7F800000
  | v => (fp32.pack 2 v.abs).1

/-- The row maxima of a tile's 128 rows; a row that does not lie within the tile's bytes has +∞ (R86). -/
def rowMaxima (b : BankFmt) (bytes : List Byte) : List W32 :=
  let kt := ktOf b.fmt
  let w := fmtWidth b.fmt
  let ok := (b.fmt == 2 || b.fmt == 3 || b.fmt == 7 || b.fmt == 4 || b.fmt == 5 || b.fmt == 8 || b.fmt == 9
    || b.fmt == 10 || b.fmt == 11)
  if !ok then List.replicate 128 0x7F800000
  else
    let es := (elemsOf w (bytes.take (128 * kt * w / 8))).map (magUp b)
    let chunkRows := fun (i : Nat) =>
      let chunks := (List.range (kt / 64)).map fun j => ((es.drop ((i * (kt / 64) + j) * 1024)).take 1024)
      (List.range 16).map fun r =>
        (chunks.map fun ch => ((ch.drop (64 * r)).take 64).foldl maxPos 0).foldl maxPos 0
    (((List.range 8).map chunkRows).flatten.zipIdx).map fun m =>
      if (actElem kt m.2 (kt - 1) + 1) * w / 8 ≤ bytes.length then BitVec.ofNat 32 m.1 else 0x7F800000

/-- A tile is pushed at cycle `t`: its frames' tags advance and an activation ring records its row maxima (R80, R83,
R86). -/
def Core.push (c : Core) (t g k : Nat) : Core :=
  let r := c.ring g
  let c := (r.frames k).foldl (fun c f => c.bumpTag t f) c
  let am := if r.act then
      Tab.put k (rowMaxima (c.bank (bankOf (r.addr (k * r.tileBytes))))
        (Tab.slice 0 c.spad (r.addr (k * r.tileBytes)) r.tileBytes)) r.amax
    else r.amax
  c.setRing g { r with tiles := r.tiles.map fun x => if x.idx == k then { x with pushed := some t } else x, amax := am }

/-- Bytes `off` to `off + n - 1` of ring `g` count as written at cycle `t`; a tile whose last byte this is is pushed. -/
def Core.ringWrote (c : Core) (t g off n : Nat) : Core :=
  ((c.ring g).tilesOf off n).foldl (fun c k =>
    let r := c.ring g
    let r := { r with tiles := r.tiles.map fun x =>
      if x.idx == k then { x with unwritten := x.unwritten - r.part off n k } else x }
    let c := c.setRing g r
    if (r.tile? k).any fun x => x.unwritten == 0 && x.pushed.isNone then c.push t g k else c) c

/-- Bytes of ring `g` count as read at cycle `t`; a tile whose last byte this is retires, and its sidecar and row
maxima go (R83, R86). -/
def Core.ringRead (c : Core) (t g off n : Nat) : Core :=
  ((c.ring g).tilesOf off n).foldl (fun c k =>
    let r := c.ring g
    let r := { r with tiles := r.tiles.map fun (x : Tile) =>
      if x.idx == k then
        let u := x.unread - r.part off n k
        { x with unread := u, retired := if u = 0 && x.retired.isNone then some t else x.retired }
      else x }
    let gone := (r.tile? k).any fun x => x.unread == 0
    c.setRing g (if gone then { r with sidecars := Tab.clear (k % r.cap) 1 r.sidecars, amax := Tab.clear k 1 r.amax } else r)) c

/-- The tag that the first read of the frame at ring offset `off` expects (R83). -/
def Ring.wantTag (r : Ring) (off : Nat) : Half :=
  r.gbase.getD (off % r.size / 4096) 0 + BitVec.ofNat 16 (off / r.size + 1)

/-- SCHEDULE_MISS, RING, with the cursor's byte offset (R83, R84, R343). -/
def ringFault (c : Core) (x : Ctx) (g off : Nat) : Eff :=
  Eff.fault c x cMiss mRing (w64 g) (w64 off) 0

/-- The enabled output rings of a record class (R250). -/
def Core.screenRings (c : Core) (cls : Nat) : List Nat :=
  let w := (Tab.get 0 c.screen.cls (5 * cls)).toNat
  (List.range 4).filterMap fun k => if bits w (20 + k) 1 = 1 then some (bits w (4 + 4 * k) 4) else none

/-- The last slot cycle of a SCREEN, and its last span cycle (R257). -/
def ScrRun.slots (r : ScrRun) : Nat := r.d.start + r.n + r.r
def ScrRun.last (r : ScrRun) : Nat := r.slots + 16

/-- A SCREEN holds ring `g` at cycle `t`: from its issue to its last span cycle (R260). -/
def Core.screenHeld (c : Core) (t g : Nat) : Bool :=
  c.screen.runs.any fun r => decide (t ≤ r.last) && (c.screenRings r.cls).contains g

/-- A word uses ring `g` at its issue, with its cursor at `off`. -/
def Core.useRing (c : Core) (d : Desc) (g off : Nat) : Core :=
  let r := c.ring g
  c.setRing g { r with users := (d, off) :: r.users.filter fun u => u.1.start == d.start }

/-- A word that fills ring `g` with `n` bytes: the reservation at its issue, and the offset it starts at (R83, R84). -/
def Core.fill? (c : Core) (x : Ctx) (g n : Nat) : Except Eff (Core × Nat) :=
  let r := c.ring g
  if r.nfr = 0 then .error (ringFault c x g 0)
  else if c.screenHeld x.t g then .error (ringFault c x g (r.wr % r.size))
  else
    match r.reserve x.t n with
    | some r' => .ok ((c.setRing g r').useRing x.desc g r.wr, r.wr)
    | none => .error (ringFault c x g (r.wr % r.size))

def Core.fills (c : Core) (x : Ctx) (g n : Nat) (f : Core → Nat → Eff) : Eff :=
  match c.fill? x g n with
  | .ok r => f r.1 r.2
  | .error e => e

/-- A word that reads `n` bytes of ring `g` (R83, R84). -/
def Core.drain? (c : Core) (x : Ctx) (g n : Nat) : Except Eff (Core × Nat) :=
  let r := c.ring g
  if r.nfr = 0 then .error (ringFault c x g 0)
  else if c.screenHeld x.t g then .error (ringFault c x g (r.rd % r.size))
  else
    match r.consume x.t n with
    | some r' => .ok ((c.setRing g r').useRing x.desc g r.rd, r.rd)
    | none => .error (ringFault c x g (r.rd % r.size))

def Core.drains (c : Core) (x : Ctx) (g n : Nat) (f : Core → Nat → Eff) : Eff :=
  match c.drain? x g n with
  | .ok r => f r.1 r.2
  | .error e => e

/-- OCCn as a word that issues at cycle `t` reads it (R85). -/
def Core.occ_ (c : Core) (t g : Nat) : W64 :=
  let r := c.ring g
  if r.was.any fun w => w.1 == t then (r.was.map (·.2)).getD 0
  else if r.nfr = 0 then 0
  else
    let held := r.tiles.filter fun x => !(x.free t)
    let full := held.filter fun x => x.pushed.any fun p => decide (p < t)
    let count := if r.screenOut then (full.map (·.recs)).foldl (· + ·) 0 else full.length
    w64 (r.rd / r.size % 65536 * 2 ^ 40 + (r.cap - held.length) * 2 ^ 20 + count % 2 ^ 20)

/-! Streams. -/

/-- The address runs of bytes `off` to `off + n - 1` of a ring. -/
def Ring.runs (r : Ring) (off n : Nat) : List (Nat × Nat) :=
  if r.size = 0 then []
  else
    let first := min n (r.size - off % r.size)
    if first = n then [(r.addr off, n)] else [(r.addr off, first), (r.first * 4096, n - first)]

/-- The parts of a stream of runs (address, length), cut at beats of `beat` bytes and at bank boundaries: address,
length, stream offset. The first argument bounds the walk. -/
def streamParts (beat : Nat) : Nat → Nat → List (Nat × Nat) → List (Nat × Nat × Nat)
  | 0, _, _ => []
  | _ + 1, _, [] => []
  | f + 1, o, (a, l) :: r =>
    if l = 0 then streamParts beat f o r
    else
      let m := min l (min (beat - o % beat) (65536 - a % 65536))
      (a, m, o) :: streamParts beat f (o + m) ((a + m, l - m) :: r)

def partsOf (beat : Nat) (runs : List (Nat × Nat)) : List (Nat × Nat × Nat) :=
  streamParts beat ((runs.map (·.2)).foldl (· + ·) 0 + runs.length + 1) 0 runs

/-! Felt lanes (R75 to R77). -/

/-- Hops from station `a` to station `b` on a lane (R76). -/
def hopsOn (lane a b : Nat) : Nat := if lane < 8 then (b + 24 - a) % 24 else (a + 24 - b) % 24

/-- The segment a beat from station `a` crosses after `j` others. -/
def segAt (lane a j : Nat) : Nat := if lane < 8 then (a + j) % 24 else (a + 24 - 1 - j) % 24

/-- How many segments a beat from station `a` has crossed when it comes to segment `g`. -/
def segIndex (lane a g : Nat) : Nat := if lane < 8 then (g + 24 - a) % 24 else (a + 23 - g) % 24

/-- A run of beats from one station to another: lane, stations, first departure, cycles between departures, count. -/
structure Leg where
  lane : Nat
  a : Nat
  b : Nat
  dep : Nat
  step : Nat
  n : Nat
  deriving DecidableEq, Repr

/-- The segment uses of a leg; a full circuit crosses all 24 segments. -/
def Leg.occs (l : Leg) (d : Desc) (circuit : Bool) : List Occ :=
  (List.range (if circuit then 24 else hopsOn l.lane l.a l.b)).map fun j =>
    ⟨l.lane, segAt l.lane l.a j, l.dep + j, l.dep + j + l.step * (l.n - 1), l.step, d⟩

/-- The use covers a cycle. -/
def Occ.covers (o : Occ) (t : Nat) : Bool := decide (o.lo ≤ t) && decide (t ≤ o.hi) && (t - o.lo) % o.step == 0

/-- The first cycle in which two uses meet; steps are 1 or 2. -/
def Occ.clash (a b : Occ) : Option Nat :=
  if a.lane = b.lane && a.seg = b.seg && !(sameIssue a.d b.d) then
    let t := max a.lo b.lo
    if a.covers t && b.covers t then some t
    else if a.covers (t + 1) && b.covers (t + 1) then some (t + 1)
    else none
  else none

/-- The first meeting of a new use with the old ones: cycle, old use. -/
def firstClash (o : Occ) (olds : List Occ) : Option (Nat × Occ) :=
  olds.foldl (fun best p =>
    match p.clash o, best with
    | some t, some (u, q) => if t < u then some (t, p) else some (u, q)
    | some t, none => some (t, p)
    | none, b => b) none

/-- Lane segments taken; two movements on one segment in one cycle raise LANE_COLLISION at that cycle and neither
crosses it from then on (R77). -/
def Core.occupy (c : Core) (k : Nat) (news : List Occ) (now : Nat) : Core × List CFault :=
  let olds := c.occ.filter fun o => decide (now ≤ o.hi)
  let hits := news.filterMap fun o => (firstClash o olds).map fun h => (o, h.1, h.2)
  let fs := hits.map fun h =>
    (⟨cLane, 0, { (if reportsFirst h.2.2.d h.1.d then h.2.2.d else h.1.d) with k := k }, h.2.1,
      w64 (h.1.lane + 256 * h.1.seg), descBits c.prank h.2.2.d, descBits c.prank h.1.d⟩ : CFault)
  let cuts := hits.flatMap fun h =>
    [⟨h.1.d, h.1.lane, h.1.seg, h.2.1, none⟩, ⟨h.2.2.d, h.1.lane, h.1.seg, h.2.1, none⟩]
  ({ c with occ := olds ++ news, cuts := c.cuts ++ cuts }, fs)

/-- A beat that left station `a` at `dep` for a station `h` hops away meets a segment closed to its movement (R77). -/
def Core.lost (c : Core) (d : Desc) (lane a dep h : Nat) : Bool :=
  c.cuts.any fun u => sameWord u.d d && u.lane == lane && decide (segIndex lane a u.seg < h)
    && decide (u.from_ ≤ dep + segIndex lane a u.seg)

/-- A movement's beat of cycle `t` at X-in or X-out is not delivered (R221). -/
def Core.portLost (c : Core) (d : Desc) (out : Bool) (t : Nat) : Bool :=
  c.cuts.any fun u => sameWord u.d d && u.lane == (if out then 17 else 16) && decide (u.from_ ≤ t)
    && u.till.all fun e => decide (t ≤ e)

/-- Bytes taken through X-in or X-out; where more than 128 are due in one cycle, the word and the one it meets are
refused that cycle's beats (R221). -/
def Core.usePort (c : Core) (k : Nat) (u : PortUse) (now : Nat) : Core × List CFault :=
  let olds := c.ports.filter fun o => decide (now ≤ o.hi)
  let load := fun t => (olds.filter fun o => o.out == u.out && decide (o.lo ≤ t) && decide (t ≤ o.hi)).map (·.bytes)
    |>.foldl (· + ·) u.bytes
  let hit := (olds.filter fun o => o.out == u.out && decide (max o.lo u.lo ≤ min o.hi u.hi)
    && decide (128 < load (max o.lo u.lo)) && !(sameWord o.d u.d)).map fun o => (o, max o.lo u.lo, min o.hi u.hi)
  let lane := if u.out then 17 else 16
  let fs := hit.map fun h =>
    (⟨cLane, 0, { (if reportsFirst h.1.d u.d then h.1.d else u.d) with k := k }, h.2.1, w64 lane,
      descBits c.prank h.1.d, descBits c.prank u.d⟩ : CFault)
  let cuts := hit.flatMap fun h => [⟨u.d, lane, 0, h.2.1, some h.2.2⟩, ⟨h.1.d, lane, 0, h.2.1, some h.2.2⟩]
  ({ c with ports := olds ++ [u], cuts := c.cuts ++ cuts }, fs)

/-- Legs joined where beats follow one another between the same stations. -/
def joinLegs : List Leg → List Leg
  | [] => []
  | me :: r =>
    match joinLegs r with
    | l :: ls =>
      if l.a = me.a && l.b = me.b && (l.dep = me.dep + 1 || l.dep = me.dep) then
        { me with n := l.n + (if l.dep = me.dep then 0 else 1) } :: ls
      else me :: l :: ls
    | [] => [me]

/-- The legs of a stream between banks and one station: beats from consecutive parts at one station make one leg.
`dep` is the departure of beat 0; `toUnit` tells the direction. -/
def legsOf (lane beat dep unit : Nat) (toUnit : Bool) (parts : List (Nat × Nat × Nat)) : List Leg :=
  joinLegs (parts.map fun p =>
    let st := bankStation (bankOf p.1)
    ⟨lane, if toUnit then st else unit, if toUnit then unit else st, dep + p.2.2 / beat, 1, 1⟩)

/-- The legs of a stream whose beat `i` reaches its bank at `land + i` (R89, R227). -/
def landLegs (lane beat land unit : Nat) (parts : List (Nat × Nat × Nat)) : List Leg :=
  joinLegs (parts.map fun p =>
    let st := bankStation (bankOf p.1)
    ⟨lane, unit, st, land + p.2.2 / beat - hopsOn lane unit st, 1, 1⟩)

/-- The segments of a movement of `w` lanes; lane `i` carries bytes 64 i to 64 i + 63 of each beat. -/
def moveOccs (d : Desc) (lane w beat dep unit : Nat) (toUnit : Bool) (parts : List (Nat × Nat × Nat)) : List Occ :=
  (List.range w).flatMap fun i =>
    (legsOf (lane + i) beat dep unit toUnit (parts.filter fun p => decide (64 * i < p.2.2 % beat + p.2.1))).flatMap
      fun l => l.occs d false

/-- The segments of a movement of `w` lanes whose beats land from cycle `land` on. -/
def landOccs (d : Desc) (lane w beat land unit : Nat) (parts : List (Nat × Nat × Nat)) : List Occ :=
  (List.range w).flatMap fun i =>
    (landLegs (lane + i) beat land unit (parts.filter fun p => decide (64 * i < p.2.2 % beat + p.2.1))).flatMap
      fun l => l.occs d false

end Sys2Proof.Machine
end

