-- ==== Sys2Proof/Machine/Chain.lean ====
section
/-! DEFINITION. The screen chain's tables and records (R250 to R256): lines and their check, lookup, micro-operations,
where records stand in rings, what a record that leaves the chain emits. -/

namespace Sys2Proof.Machine

/-! Tables (R252 to R254). -/

/-- Where a bank's bytes and counters begin. -/
def tblBase (st : Nat) (bank : Bool) : Nat := (2 * st + bank.toNat) * 2 ^ 17

/-- The addresses of a screen table. -/
def screenRange (st : Nat) (bank : Bool) (e : Nat) : Bool :=
  decide (tblBase st bank ≤ e) && decide (e < tblBase st bank + 2 ^ 17)
def ctrBase (st : Nat) (bank : Bool) : Nat := (2 * st + bank.toNat) * 2 ^ 13

/-- Bytes of a bank from byte `off` on. -/
def Screen.table (z : Screen) (st : Nat) (bank : Bool) (off n : Nat) : List Byte :=
  Tab.slice 0 z.tbl (tblBase st bank + off) n

/-- The header's first word: KIND, MACT, NENT (R252). -/
def Screen.header (z : Screen) (st : Nat) (bank : Bool) : Nat := leNat (z.table st bank 0 4)

def tblKind (h : Nat) : Nat := bits h 28 2

/-- Entries per line, and their bytes (R253). -/
def entriesPer (kind : Nat) : Nat := if kind = 2 then 2 else 4
def entrySize (kind : Nat) : Nat := if kind = 2 then 32 else 16

/-- Entries a kind may hold (R252). -/
def entryLimit (kind : Nat) : Nat :=
  match kind with
  | 0 => 0
  | 1 => 4096
  | 2 => 512
  | _ => 256

/-- The operand fields A, B, C that a micro-operation uses, as a mask of its bits 11:0 (R255). -/
def microMask (op : Nat) : Nat :=
  match op with
  | 1 | 3 | 5 | 6 => 0xF00
  | 2 | 4 => 0xFF0
  | 7 | 8 => 0xFFF
  | 9 | 10 => 0x00F
  | _ => 0

/-- A micro-operation that R265 refuses. -/
def badMicro (m : Nat) : Bool :=
  let op := m / 4096
  decide (14 ≤ op) || (m % 4096) &&& (0xFFF - microMask op) != 0 || (op == 9 && decide (1 < m % 16))
    || (op == 10 && decide (3 < m % 16))

/-- The CTL word of an entry, and its parameter (R253). -/
def entryCtl (kind : Nat) (e : List Byte) : Nat := leNat ((e.drop (if kind = 2 then 20 else 12)).take 4)
def entryParam (kind : Nat) (e : List Byte) : W32 := BitVec.ofNat 32 (leNat ((e.drop (if kind = 2 then 16 else 8)).take 4))

/-- A list cut into pieces of `n`; the first argument bounds their number. -/
def chunks {α : Type} (n : Nat) : Nat → List α → List (List α)
  | 0, _ => []
  | f + 1, l => if l.isEmpty then [] else l.take n :: chunks n f (l.drop n)

/-- The entries 0 to NENT − 1 of a bank. -/
def Screen.entries (z : Screen) (st : Nat) (bank : Bool) : List (List Byte) :=
  let h := z.header st bank
  let n := min (bits h 0 13) (entryLimit (tblKind h))
  chunks (entrySize (tblKind h)) n (z.table st bank 576 (n * entrySize (tblKind h)))

/-- The first line of a bank that fails the check of R265. -/
def Screen.badLine (z : Screen) (st : Nat) (bank : Bool) : Option Nat :=
  let h := z.header st bank
  let kind := tblKind h
  if bits h 30 2 != 0 || bits h 22 6 != 0 || bits h 13 3 != 0 || decide (entryLimit kind < bits h 0 13)
      || (z.table st bank 8 56).any fun b => b != 0 then some 0
  else
    let acts := elems16 (z.table st bank 64 512)
    match acts.findIdx? badMicro with
    | some i => some (1 + i / 32)
    | none =>
      let bad := fun (e : List Byte) =>
        bits (entryCtl kind e) 6 25 != 0 || (kind == 2 && (e.drop 24).any fun b => b != 0)
      (z.entries st bank).findIdx? bad |>.map fun i => 9 + i / entriesPer kind

/-- A table entry meets a key (R254). -/
def entryHits (kind key : Nat) (e : List Byte) : Bool :=
  bits (entryCtl kind e) 31 1 == 1
    && (match kind with
      | 1 => leNat (e.take 8) == key
      | 2 => (key ^^^ leNat (e.take 8)) &&& leNat ((e.drop 8).take 8) == 0
      | 3 => decide (leNat (e.take 4) ≤ key % 2 ^ 32) && decide (key % 2 ^ 32 ≤ leNat ((e.drop 4).take 4))
      | _ => false)

/-- What a stage yields for a key: action index, parameter, counter (0 the miss counter); nothing in a bypass stage
(R254). -/
def Screen.lookup (z : Screen) (st : Nat) (bank : Bool) (key : Nat) : Option (Nat × W32 × Nat) :=
  let h := z.header st bank
  let kind := tblKind h
  if kind = 0 then none
  else
    let es := z.entries st bank
    match es.findIdx? (entryHits kind key) with
    | some i =>
      let e := es.getD i []
      some (bits (entryCtl kind e) 0 6, entryParam kind e, i + 1)
    | none => some (bits h 16 6, BitVec.ofNat 32 (leNat (z.table st bank 4 4)), 0)

/-! Record classes (R250). -/

def Screen.clsWord (z : Screen) (cls w : Nat) : Nat := (Tab.get 0 z.cls (5 * cls + w)).toNat

/-- Bytes of a record (R251). -/
def Screen.pitch (z : Screen) (cls : Nat) : Nat := 4 * (bits (z.clsWord cls 0) 0 4 + 1)

/-- The ring of an enabled output. -/
def Screen.outRing (z : Screen) (cls k : Nat) : Option Nat :=
  if bits (z.clsWord cls 0) (20 + k) 1 = 1 then some (bits (z.clsWord cls 0) (4 + 4 * k) 4) else none

/-- The rings that declared record classes name as outputs (R85). -/
def Screen.declared (z : Screen) : List Nat :=
  (List.range 8).flatMap fun c =>
    if bits (z.clsWord c 0) 63 1 = 1 then (List.range 4).filterMap fun k => z.outRing c k else []

/-- The key of a record at a stage: EXT(s, KSEL) (R250, R256). -/
def Screen.key (z : Screen) (cls st : Nat) (r : ScrRec) : Nat :=
  let j := 2 * st + r.ksel
  let x := bits (z.clsWord cls (1 + j / 4)) (16 * (j % 4)) 16
  let lo := (r.f.getD (bits x 0 4) 0).toNat
  if bits x 8 1 = 1 then (r.f.getD (bits x 4 4) 0).toNat * 2 ^ 32 + lo else lo

/-! Micro-operations (R255). -/

/-- CRC-32C of bytes, reflected. -/
def crcBits : Nat → Nat → Nat
  | 0, c => c
  | n + 1, c => crcBits n (if c % 2 = 1 then (c / 2) ^^^ 0x82F63B78 else c / 2)

def crc32c (bs : List Byte) : W32 :=
  BitVec.ofNat 32 ((bs.foldl (fun c b => crcBits 8 (c ^^^ b.toNat)) 0xFFFFFFFF) ^^^ 0xFFFFFFFF)

/-- One micro-operation with parameter `p`; `true` beside the record counts. -/
def micro (p : W32) (r : ScrRec) (m : Nat) : ScrRec × Bool :=
  let a := bits m 8 4
  let c := bits m 0 4
  let va := r.f.getD a 0
  let vb := r.f.getD (bits m 4 4) 0
  let vc := r.f.getD c 0
  let put := fun (v : W32) => ({ r with f := listSet r.f a v }, false)
  if r.drop then (r, false)
  else
    match m / 4096 % 16 with
    | 1 => put p
    | 2 => put vb
    | 3 => put (va + p)
    | 4 => put (va + vb)
    | 5 => put (if p.toNat < va.toNat then p else va)
    | 6 => put (if va.toNat < p.toNat then p else va)
    | 7 => put (if vc = 0 then p else vb)
    | 8 => put (crc32c (leBytes 4 vb.toNat ++ leBytes 4 vc.toNat))
    | 9 => ({ r with ksel := c % 2 }, false)
    | 10 => ({ r with emit := r.emit ||| 2 ^ c }, false)
    | 11 => ({ r with recirc := true }, false)
    | 12 => ({ r with drop := true }, false)
    | 13 => (r, true)
    | _ => (r, false)

/-- The action word `w` on a record: the record, and how often it counts. -/
def action (p : W32) (w : Nat) (r : ScrRec) : ScrRec × Nat :=
  (List.range 4).foldl (fun a u =>
    let b := micro p a.1 (bits w (16 * u) 16)
    (b.1, a.2 + b.2.toNat)) (r, 0)

/-- Action word `a` of a bank. -/
def Screen.actionWord (z : Screen) (st : Nat) (bank : Bool) (a : Nat) : Nat := leNat (z.table st bank (64 + 8 * a) 8)

/-- A counter grown by `n`, saturating. -/
def satAdd40 (c : BitVec 40) (n : Nat) : BitVec 40 := BitVec.ofNat 40 (min (c.toNat + n) (2 ^ 40 - 1))

def Screen.count (z : Screen) (st : Nat) (bank : Bool) (i n : Nat) : Screen :=
  let a := ctrBase st bank + i
  if n = 0 then z else { z with ctr := Tab.set 0 a (satAdd40 (Tab.get 0 z.ctr a) n) z.ctr }

/-- The active bank for admissions and samples of cycle `y` (R265). -/
def Screen.genAt (z : Screen) (y : Nat) : Bool := if z.comD.any fun d => d.start == y then !z.gen else z.gen

/-! Records in rings (R251). -/

/-- Where the record at or after a ring offset stands. -/
def Ring.recSpot (r : Ring) (pitch off : Nat) : Nat :=
  if r.tileBytes = 0 then off
  else if r.tileBytes - off % r.tileBytes < pitch then (off / r.tileBytes + 1) * r.tileBytes
  else off

/-- The offset after `n` records from `off` on. -/
def Ring.recEnd (r : Ring) (pitch off n : Nat) : Nat :=
  let o := r.recSpot pitch off
  let tb := r.tileBytes
  let first := (tb - o % max tb 1) / pitch
  if n ≤ first then o + n * pitch
  else
    let full := (n - first - 1) / max 1 (tb / pitch)
    (o / max tb 1 + 1 + full) * tb + (n - first - full * (tb / pitch)) * pitch

/-- Bytes that count as read with the record at `o`: a tile's last record takes what is left of it (R257). -/
def Ring.recSpan (r : Ring) (pitch o : Nat) : Nat :=
  let left := r.tileBytes - o % max r.tileBytes 1 - pitch
  if left < pitch then pitch + left else pitch

/-- The record that leaves the chain at cycle `x`, with its run. -/
def Screen.leaving (z : Screen) (x : Nat) : Option (ScrRun × ScrRec) :=
  z.runs.findSome? fun r => (r.flying.find? fun e => e.y + 16 == x).map fun e => (r, e)

/-- The output indices of a record's emissions, its limit action apart (R256). -/
def ScrRec.outs (e : ScrRec) : List Nat := if e.drop then [] else (List.range 4).filter fun k => bits e.emit k 1 == 1

/-- The byte ranges that an exit of cycle `x` may write. -/
def Core.exitRanges (c : Core) (x : Nat) : List (Nat × Nat) :=
  match c.screen.leaving x with
  | none => []
  | some (r, e) =>
    let w0 := c.screen.clsWord r.cls 0
    let ks := e.outs ++ (if !e.drop && e.recirc && bits w0 29 1 == 1 then [bits w0 30 2] else [])
    let p := c.screen.pitch r.cls
    (ks.foldl (fun (a : List (Nat × Nat) × List (Nat × Nat)) k =>
      match c.screen.outRing r.cls k with
      | none => a
      | some g =>
        let rg := c.ring g
        let off := ((a.2.find? fun u => u.1 == g).map (·.2)).getD rg.wr
        let o := rg.recSpot p off
        (a.1 ++ [(rg.addr o, rg.addr o + p - 1)], (g, o + p) :: a.2)) ([], [])).1

/-- The zeros that the end of a run's span writes: ring, tile number, bytes in use (R259). -/
def Core.zeroFills (c : Core) (r : ScrRun) : List (Nat × Nat × Nat) :=
  r.took.filterMap fun u =>
    let rg := c.ring u.1
    (rg.tile? u.2).bind fun x =>
      let used := x.recs * c.screen.pitch r.cls
      if x.pushed.isSome then none else some (u.1, u.2, used)

/-- The runs whose span ends at cycle `t`. -/
def Screen.ending (z : Screen) (t : Nat) : List ScrRun := z.runs.filter fun r => r.last == t

end Sys2Proof.Machine
end

