-- ==== Sys2Proof/WellFormed.lean ====
section
/-! DEFINITION. The values an operand field may hold (R99 to R118, R119). A word that breaks one of these is no
instruction: it raises ILLEGAL_ENCODING at its issue (R100). -/

namespace Sys2Proof

/-- The special-register numbers that R139 assigns. -/
def srAssigned (n : Nat) : Bool :=
  n ≤ 13 || (16 ≤ n && n ≤ 55) || (64 ≤ n && n < 160)

/-- The semaphore field of R101: with BS = 1 the s-register stands in bits 14:9 and bits 18:15 are zero. -/
def semField (b : BitVec 10) (e : BitVec 1) : Bool :=
  e == 0 || b.toNat < 64

/-- A group of `n` lanes from `f` stays within f0 to f7 or f8 to f15 (R76). -/
def laneGroup (f n : Nat) : Bool :=
  f / 8 == (f + n - 1) / 8

/-- RS = 1 takes the mode from SHAPE and wants RM = 0 (R112). TY is a type (R113). -/
def convField (t : BitVec 3) (r : BitVec 1) (m : BitVec 2) : Bool :=
  t.toNat ≤ 5 && (r == 0 || m == 0)

/-- Every field of the word lies in its range. -/
def Instr.wellFormed : Instr → Bool
  | .idle n => n != 0
  | .rep n _ => n.toNat ≤ 16
  | .sadd b _ e | .swait b _ e | .swaitb b _ e => semField b e
  | .shli _ _ i | .shri _ _ i | .sari _ _ i => i.toNat ≤ 63
  | .atomadd _ _ _ s | .atommin _ _ _ s | .atommax _ _ _ s | .atomswp _ _ _ s | .atomcas _ _ _ s => s.toNat ≤ 1
  | .wid _ n => n.toNat ≤ 5
  | .rdsp _ n | .wrsp _ n => srAssigned n.toNat
  | .cal _ n => n.toNat ≤ 256
  | .vcvt _ _ t r m _ _ | .vpack _ _ t r m _ _ | .vunpl _ _ t r m _ _ | .vunph _ _ t r m _ _ => convField t r m
  | .vishli _ i | .vishri _ i => i.toNat ≤ 31
  | .vcrot _ _ n _ | .vcbc _ _ n _ => n.toNat ≤ 15
  | .shape _ _ e _ _ _ _ => e.toNat ≤ 5
  | .mply _ _ _ _ k _ | .mplyz _ _ _ _ k _ | .mplyk _ _ _ _ k _ | .mplyzk _ _ _ _ k _ | .mres _ _ _ _ k _ => k != 0
  | .mmask _ v _ m => m.toNat ≤ 1 && (m != 0 || v == 0)
  | .mout _ _ t _ _ f => t.toNat ≤ 11 && laneGroup f.toNat 4
  | .fetch _ _ _ f _ k _ _ lw => laneGroup f.toNat 2 && lw.isSome == (k == 1)
  | .stow _ _ _ f _ k lw => laneGroup f.toNat 2 && lw.isSome == (k == 1)
  | .rfetch _ _ _ f _ _ _ | .rstow _ _ _ f _ _ _ => laneGroup f.toNat 2
  | .copy _ _ f k lw => laneGroup f.toNat 2 && lw.isSome == (k == 1)
  | .weave _ _ _ _ k lw => lw.isSome == (k == 1)
  | _ => true

/-- The layout of a transfer literal: PEER and B, nothing above; B is zero when C is zero (R103). -/
def transferLiteral (l : W32) (peers : Bool) (c : Bool) : Bool :=
  bits l.toNat 21 11 == 0 && (peers || bits l.toNat 10 11 == 0) && (c || bits l.toNat 0 10 == 0)

/-- The layout of a send literal (R103). -/
def sendLiteral (l : W32) : Bool :=
  bits l.toNat 14 18 == 0 && bits l.toNat 11 1 == 0 && (bits l.toNat 10 1 == 1 || bits l.toNat 0 10 == 0)

/-- The literal word keeps its layout (R103); checked at the issue of its instruction. -/
def Instr.literalOk : Instr → Bool
  | .fetch _ _ _ _ _ _ _ _ (some l) | .stow _ _ _ _ _ _ (some l) | .copy _ _ _ _ (some l)
  | .weave _ _ _ _ _ (some l) => transferLiteral l false true
  | .rfetch _ _ _ _ _ k l | .rstow _ _ _ _ _ k l => transferLiteral l true (k == 1)
  | .send _ _ _ _ _ l | .sendb _ _ _ _ _ l => sendLiteral l
  | .screen _ _ _ l => bits l.toNat 0 16 != 0
  | _ => true

end Sys2Proof
end

