-- ==== Sys2Proof/Decode.lean ====
section
/-! DEFINITION. Decoding and encoding of instruction words (R98 to R120). A word is read as a number with bit 0 its
least significant bit (R4); the column selects the opcode map (R98). -/

namespace Sys2Proof

/-- Why a word is no instruction (R100, R104, R119). Every reason raises ILLEGAL_ENCODING. -/
inductive Reject where
  | reservedMajor | unassignedMinor | reservedField | noLiteral | badField
  deriving DecidableEq, Repr

/-- A word taken apart: rendezvous bit, idle cycles before issue, instruction (R98). -/
structure Decoded where
  y : Bool
  d : BitVec 2
  ins : Instr
  deriving DecidableEq, Repr

/-- The operand bits a row reserves are zero, else the word is refused (R100). -/
def need (ok : Bool) (r : Except Reject Instr) : Except Reject Instr :=
  if ok then r else .error .reservedField

/-- A literal form takes the tagged word that follows it (R103, R104). -/
def withLit (lit : Option W32) (f : W32 → Instr) : Except Reject Instr :=
  match lit with
  | some l => .ok (f l)
  | none => .error .noLiteral

/-- The common group, major 0x00 (R101). IF stands in the S column alone, REP in the V column alone. -/
def decodeCommon (c : Col) (w : Nat) : Except Reject Instr :=
  match bits w 19 4 with
  | 0 | 1 => need (bits w 20 3 == 0) <| .ok (.idle (fld w 0 20))
  | 2 => need (bits w 0 19 == 0) <| .ok .align
  | 3 => need (bits w 0 19 == 0) <| .ok .endc
  | 4 => .ok (.loop (fld w 7 12) (fld w 0 7))
  | 5 => .ok (.loopc (fld w 13 6) (fld w 6 7) (fld w 0 6))
  | 6 => need (bits w 0 2 == 0) <| .ok (.sadd (fld w 9 10) (fld w 3 6) (fld w 2 1))
  | 7 => need (bits w 0 2 == 0) <| .ok (.swait (fld w 9 10) (fld w 3 6) (fld w 2 1))
  | 8 => need (bits w 0 2 == 0) <| .ok (.swaitb (fld w 9 10) (fld w 3 6) (fld w 2 1))
  | 9 => need (bits w 16 3 == 0) <| .ok (.mark (fld w 0 16))
  | 10 => need (bits w 16 3 == 0) <| .ok (.brk (fld w 0 16))
  | 11 => if c = .S then need (bits w 0 16 == 0) <| .ok (.ifp (fld w 16 3)) else .error .unassignedMinor
  | 12 => if c = .V then need (bits w 0 10 == 0) <| .ok (.rep (fld w 14 5) (fld w 10 4)) else .error .unassignedMinor
  | _ => .error .unassignedMinor

/-- The opcode map of column S, majors 0x01 to 0x3E (R111, R114, R116, R118). -/
def decodeS (w : Nat) (lit : Option W32) : Except Reject Instr :=
  match bits w 23 6 with
  | 1 => match bits w 0 5 with
    | 0 => .ok (.add (fld w 17 6) (fld w 11 6) (fld w 5 6))
    | 1 => .ok (.sub (fld w 17 6) (fld w 11 6) (fld w 5 6))
    | 2 => .ok (.mul (fld w 17 6) (fld w 11 6) (fld w 5 6))
    | 3 => .ok (.mulh (fld w 17 6) (fld w 11 6) (fld w 5 6))
    | 4 => .ok (.div (fld w 17 6) (fld w 11 6) (fld w 5 6))
    | 5 => .ok (.rem (fld w 17 6) (fld w 11 6) (fld w 5 6))
    | 6 => .ok (.smin (fld w 17 6) (fld w 11 6) (fld w 5 6))
    | 7 => .ok (.smax (fld w 17 6) (fld w 11 6) (fld w 5 6))
    | _ => .error .unassignedMinor
  | 2 => match bits w 0 5 with
    | 0 => .ok (.sand (fld w 17 6) (fld w 11 6) (fld w 5 6))
    | 1 => .ok (.sor (fld w 17 6) (fld w 11 6) (fld w 5 6))
    | 2 => .ok (.sxor (fld w 17 6) (fld w 11 6) (fld w 5 6))
    | 3 => .ok (.andn (fld w 17 6) (fld w 11 6) (fld w 5 6))
    | 4 => .ok (.shl (fld w 17 6) (fld w 11 6) (fld w 5 6))
    | 5 => .ok (.shr (fld w 17 6) (fld w 11 6) (fld w 5 6))
    | 6 => .ok (.sar (fld w 17 6) (fld w 11 6) (fld w 5 6))
    | 7 => need (bits w 5 6 == 0) <| .ok (.clz (fld w 17 6) (fld w 11 6))
    | 8 => need (bits w 5 6 == 0) <| .ok (.popc (fld w 17 6) (fld w 11 6))
    | _ => .error .unassignedMinor
  | 16 => .ok (.addi (fld w 17 6) (fld w 11 6) (fld w 0 11))
  | 17 => .ok (.muli (fld w 17 6) (fld w 11 6) (fld w 0 11))
  | 18 => .ok (.andi (fld w 17 6) (fld w 11 6) (fld w 0 11))
  | 19 => .ok (.ori (fld w 17 6) (fld w 11 6) (fld w 0 11))
  | 20 => .ok (.xori (fld w 17 6) (fld w 11 6) (fld w 0 11))
  | 21 => .ok (.mini (fld w 17 6) (fld w 11 6) (fld w 0 11))
  | 24 => .ok (.shli (fld w 17 6) (fld w 11 6) (fld w 0 11))
  | 25 => .ok (.shri (fld w 17 6) (fld w 11 6) (fld w 0 11))
  | 26 => .ok (.sari (fld w 17 6) (fld w 11 6) (fld w 0 11))
  | 32 => match bits w 17 3 with
    | 0 => need (bits w 0 5 == 0) <| .ok (.ceq (fld w 20 3) (fld w 11 6) (fld w 5 6))
    | 1 => need (bits w 0 5 == 0) <| .ok (.cne (fld w 20 3) (fld w 11 6) (fld w 5 6))
    | 2 => need (bits w 0 5 == 0) <| .ok (.clt (fld w 20 3) (fld w 11 6) (fld w 5 6))
    | 3 => need (bits w 0 5 == 0) <| .ok (.cge (fld w 20 3) (fld w 11 6) (fld w 5 6))
    | 4 => need (bits w 0 5 == 0) <| .ok (.cltu (fld w 20 3) (fld w 11 6) (fld w 5 6))
    | 5 => need (bits w 0 5 == 0) <| .ok (.cgeu (fld w 20 3) (fld w 11 6) (fld w 5 6))
    | _ => .error .unassignedMinor
  | 33 => match bits w 17 3 with
    | 0 => .ok (.ceqi (fld w 20 3) (fld w 11 6) (fld w 0 11))
    | 1 => .ok (.cnei (fld w 20 3) (fld w 11 6) (fld w 0 11))
    | 2 => .ok (.clti (fld w 20 3) (fld w 11 6) (fld w 0 11))
    | 3 => .ok (.cgei (fld w 20 3) (fld w 11 6) (fld w 0 11))
    | 4 => .ok (.cltui (fld w 20 3) (fld w 11 6) (fld w 0 11))
    | 5 => .ok (.cgeui (fld w 20 3) (fld w 11 6) (fld w 0 11))
    | _ => .error .unassignedMinor
  | 34 => match bits w 0 3 with
    | 0 => need (bits w 3 11 == 0) <| .ok (.pand (fld w 20 3) (fld w 17 3) (fld w 14 3))
    | 1 => need (bits w 3 11 == 0) <| .ok (.por (fld w 20 3) (fld w 17 3) (fld w 14 3))
    | 2 => need (bits w 3 11 == 0) <| .ok (.pxor (fld w 20 3) (fld w 17 3) (fld w 14 3))
    | 3 => need (bits w 3 11 == 0) <| .ok (.pandn (fld w 20 3) (fld w 17 3) (fld w 14 3))
    | _ => .error .unassignedMinor
  | 35 => need (bits w 0 2 == 0) <| .ok (.sel (fld w 17 6) (fld w 11 6) (fld w 5 6) (fld w 2 3))
  | 36 => match bits w 17 3 with
    | 0 => need (bits w 0 5 == 0) <| .ok (.fceq (fld w 20 3) (fld w 11 6) (fld w 5 6))
    | 1 => need (bits w 0 5 == 0) <| .ok (.fclt (fld w 20 3) (fld w 11 6) (fld w 5 6))
    | 2 => need (bits w 0 5 == 0) <| .ok (.fcle (fld w 20 3) (fld w 11 6) (fld w 5 6))
    | _ => .error .unassignedMinor
  | 40 => .ok (.ldk (fld w 17 6) (fld w 0 17))
  | 42 => need (bits w 0 17 == 0) <| withLit lit fun l => .lit (fld w 17 6) l
  | 43 => need (bits w 8 9 == 0) <| .ok (.ldc (fld w 17 6) (fld w 0 8))
  | 44 | 45 | 46 | 47 => need (bits w 16 1 == 0) <| .ok (.ldkh (fld w 23 2) (fld w 17 6) (fld w 0 16))
  | 48 => match bits w 0 3 with
    | 0 => .ok (.ldb (fld w 17 6) (fld w 11 6) (fld w 3 8))
    | 1 => .ok (.ldh (fld w 17 6) (fld w 11 6) (fld w 3 8))
    | 2 => .ok (.ldw (fld w 17 6) (fld w 11 6) (fld w 3 8))
    | 3 => .ok (.ldd (fld w 17 6) (fld w 11 6) (fld w 3 8))
    | 4 => .ok (.ldbu (fld w 17 6) (fld w 11 6) (fld w 3 8))
    | 5 => .ok (.ldhu (fld w 17 6) (fld w 11 6) (fld w 3 8))
    | 6 => .ok (.ldwu (fld w 17 6) (fld w 11 6) (fld w 3 8))
    | _ => .error .unassignedMinor
  | 49 => match bits w 0 3 with
    | 0 => .ok (.stb (fld w 17 6) (fld w 11 6) (fld w 3 8))
    | 1 => .ok (.sth (fld w 17 6) (fld w 11 6) (fld w 3 8))
    | 2 => .ok (.stw (fld w 17 6) (fld w 11 6) (fld w 3 8))
    | 3 => .ok (.std (fld w 17 6) (fld w 11 6) (fld w 3 8))
    | _ => .error .unassignedMinor
  | 50 => match bits w 2 3 with
    | 0 => .ok (.atomadd (fld w 17 6) (fld w 11 6) (fld w 5 6) (fld w 0 2))
    | 1 => .ok (.atommin (fld w 17 6) (fld w 11 6) (fld w 5 6) (fld w 0 2))
    | 2 => .ok (.atommax (fld w 17 6) (fld w 11 6) (fld w 5 6) (fld w 0 2))
    | 3 => .ok (.atomswp (fld w 17 6) (fld w 11 6) (fld w 5 6) (fld w 0 2))
    | 4 => .ok (.atomcas (fld w 17 6) (fld w 11 6) (fld w 5 6) (fld w 0 2))
    | _ => .error .unassignedMinor
  | 54 => match bits w 0 5 with
    | 0 => .ok (.fadd (fld w 17 6) (fld w 11 6) (fld w 5 6))
    | 1 => .ok (.fsub (fld w 17 6) (fld w 11 6) (fld w 5 6))
    | 2 => .ok (.fmul (fld w 17 6) (fld w 11 6) (fld w 5 6))
    | 3 => .ok (.fdiv (fld w 17 6) (fld w 11 6) (fld w 5 6))
    | 4 => .ok (.fmin (fld w 17 6) (fld w 11 6) (fld w 5 6))
    | 5 => .ok (.fmax (fld w 17 6) (fld w 11 6) (fld w 5 6))
    | 6 => need (bits w 5 6 == 0) <| .ok (.fsqrt (fld w 17 6) (fld w 11 6))
    | _ => .error .unassignedMinor
  | 55 => match bits w 0 5 with
    | 0 => .ok (.ffma (fld w 17 6) (fld w 11 6) (fld w 5 6))
    | _ => .error .unassignedMinor
  | 56 => match bits w 0 5 with
    | 0 => need (bits w 5 6 == 0) <| .ok (.ftoi (fld w 17 6) (fld w 11 6))
    | 1 => need (bits w 5 6 == 0) <| .ok (.ftoiz (fld w 17 6) (fld w 11 6))
    | 2 => need (bits w 5 6 == 0) <| .ok (.itof (fld w 17 6) (fld w 11 6))
    | _ => .error .unassignedMinor
  | 57 => match bits w 0 1 with
    | 0 => .ok (.faddi (fld w 17 6) (fld w 1 16))
    | 1 => .ok (.fmuli (fld w 17 6) (fld w 1 16))
    | _ => .error .unassignedMinor
  | 60 => match bits w 0 3 with
    | 0 => need (bits w 3 5 == 0) <| .ok (.wid (fld w 17 6) (fld w 8 9))
    | 1 => need (bits w 3 14 == 0) <| .ok (.widn (fld w 17 6))
    | _ => .error .unassignedMinor
  | 61 => match bits w 0 3 with
    | 0 => need (bits w 3 5 == 0) <| .ok (.rdsp (fld w 17 6) (fld w 8 9))
    | 1 => need (bits w 3 5 == 0) <| .ok (.wrsp (fld w 17 6) (fld w 8 9))
    | _ => .error .unassignedMinor
  | 62 => match bits w 0 3 with
    | 0 => need (bits w 3 5 == 0) <| .ok (.cal (fld w 17 6) (fld w 8 9))
    | 1 => need (bits w 3 5 == 0) <| .ok (.abort (fld w 17 6) (fld w 8 9))
    | _ => .error .unassignedMinor
  | _ => .error .reservedMajor

/-- The opcode map of column V, majors 0x01 to 0x3E (R111, R114, R116, R118). DESIGN CHOICE (log entry 63): the segmented
reductions refuse a nonzero vb field, of which R114 and R173 say nothing. -/
def decodeV (w : Nat) : Except Reject Instr :=
  match bits w 23 6 with
  | 1 => match bits w 0 4 with
    | 0 => .ok (.vadd (fld w 18 5) (fld w 13 5) (fld w 8 5) (fld w 4 4))
    | 1 => .ok (.vsub (fld w 18 5) (fld w 13 5) (fld w 8 5) (fld w 4 4))
    | 2 => .ok (.vmul (fld w 18 5) (fld w 13 5) (fld w 8 5) (fld w 4 4))
    | 3 => .ok (.vdiv (fld w 18 5) (fld w 13 5) (fld w 8 5) (fld w 4 4))
    | 4 => .ok (.vmin (fld w 18 5) (fld w 13 5) (fld w 8 5) (fld w 4 4))
    | 5 => .ok (.vmax (fld w 18 5) (fld w 13 5) (fld w 8 5) (fld w 4 4))
    | _ => .error .unassignedMinor
  | 2 => match bits w 0 4 with
    | 0 => .ok (.vfma (fld w 18 5) (fld w 13 5) (fld w 8 5) (fld w 4 4))
    | 1 => .ok (.vfms (fld w 18 5) (fld w 13 5) (fld w 8 5) (fld w 4 4))
    | 2 => .ok (.vfnma (fld w 18 5) (fld w 13 5) (fld w 8 5) (fld w 4 4))
    | _ => .error .unassignedMinor
  | 3 => match bits w 0 4 with
    | 0 => need (bits w 8 5 == 0) <| .ok (.vexp2 (fld w 18 5) (fld w 13 5) (fld w 4 4))
    | 1 => need (bits w 8 5 == 0) <| .ok (.vlog2 (fld w 18 5) (fld w 13 5) (fld w 4 4))
    | 2 => need (bits w 8 5 == 0) <| .ok (.vrcp (fld w 18 5) (fld w 13 5) (fld w 4 4))
    | 3 => need (bits w 8 5 == 0) <| .ok (.vrsq (fld w 18 5) (fld w 13 5) (fld w 4 4))
    | 4 => need (bits w 8 5 == 0) <| .ok (.vsin (fld w 18 5) (fld w 13 5) (fld w 4 4))
    | 5 => need (bits w 8 5 == 0) <| .ok (.vcos (fld w 18 5) (fld w 13 5) (fld w 4 4))
    | 6 => need (bits w 8 5 == 0) <| .ok (.vtanh (fld w 18 5) (fld w 13 5) (fld w 4 4))
    | 7 => need (bits w 8 5 == 0) <| .ok (.vsqrt (fld w 18 5) (fld w 13 5) (fld w 4 4))
    | 8 => need (bits w 8 5 == 0) <| .ok (.vabs (fld w 18 5) (fld w 13 5) (fld w 4 4))
    | 9 => need (bits w 8 5 == 0) <| .ok (.vneg (fld w 18 5) (fld w 13 5) (fld w 4 4))
    | _ => .error .unassignedMinor
  | 16 => match bits w 0 4 with
    | 0 => .ok (.viadd (fld w 18 5) (fld w 13 5) (fld w 8 5) (fld w 4 4))
    | 1 => .ok (.visub (fld w 18 5) (fld w 13 5) (fld w 8 5) (fld w 4 4))
    | 2 => .ok (.vimul (fld w 18 5) (fld w 13 5) (fld w 8 5) (fld w 4 4))
    | 3 => .ok (.vimin (fld w 18 5) (fld w 13 5) (fld w 8 5) (fld w 4 4))
    | 4 => .ok (.vimax (fld w 18 5) (fld w 13 5) (fld w 8 5) (fld w 4 4))
    | 5 => .ok (.viminu (fld w 18 5) (fld w 13 5) (fld w 8 5) (fld w 4 4))
    | 6 => .ok (.vimaxu (fld w 18 5) (fld w 13 5) (fld w 8 5) (fld w 4 4))
    | 7 => .ok (.viadds (fld w 18 5) (fld w 13 5) (fld w 8 5) (fld w 4 4))
    | 8 => .ok (.visubs (fld w 18 5) (fld w 13 5) (fld w 8 5) (fld w 4 4))
    | _ => .error .unassignedMinor
  | 17 => match bits w 0 4 with
    | 0 => .ok (.vand (fld w 18 5) (fld w 13 5) (fld w 8 5) (fld w 4 4))
    | 1 => .ok (.vor (fld w 18 5) (fld w 13 5) (fld w 8 5) (fld w 4 4))
    | 2 => .ok (.vxor (fld w 18 5) (fld w 13 5) (fld w 8 5) (fld w 4 4))
    | 3 => .ok (.vandn (fld w 18 5) (fld w 13 5) (fld w 8 5) (fld w 4 4))
    | 4 => .ok (.vshl (fld w 18 5) (fld w 13 5) (fld w 8 5) (fld w 4 4))
    | 5 => .ok (.vshr (fld w 18 5) (fld w 13 5) (fld w 8 5) (fld w 4 4))
    | 6 => .ok (.vsar (fld w 18 5) (fld w 13 5) (fld w 8 5) (fld w 4 4))
    | 7 => need (bits w 8 5 == 0) <| .ok (.vclz (fld w 18 5) (fld w 13 5) (fld w 4 4))
    | 8 => need (bits w 8 5 == 0) <| .ok (.vpopc (fld w 18 5) (fld w 13 5) (fld w 4 4))
    | _ => .error .unassignedMinor
  | 18 => match bits w 0 4 with
    | 0 => .ok (.vfshl (fld w 18 5) (fld w 13 5) (fld w 8 5) (fld w 4 4))
    | 1 => .ok (.vfshr (fld w 18 5) (fld w 13 5) (fld w 8 5) (fld w 4 4))
    | _ => .error .unassignedMinor
  | 24 => match bits w 0 4 with
    | 0 => need (bits w 18 1 == 0) <| .ok (.vfceq (fld w 19 4) (fld w 13 5) (fld w 8 5) (fld w 4 4))
    | 1 => need (bits w 18 1 == 0) <| .ok (.vfclt (fld w 19 4) (fld w 13 5) (fld w 8 5) (fld w 4 4))
    | 2 => need (bits w 18 1 == 0) <| .ok (.vfcle (fld w 19 4) (fld w 13 5) (fld w 8 5) (fld w 4 4))
    | 3 => need (bits w 18 1 == 0) <| .ok (.vfcun (fld w 19 4) (fld w 13 5) (fld w 8 5) (fld w 4 4))
    | _ => .error .unassignedMinor
  | 25 => match bits w 0 4 with
    | 0 => need (bits w 18 1 == 0) <| .ok (.viceq (fld w 19 4) (fld w 13 5) (fld w 8 5) (fld w 4 4))
    | 1 => need (bits w 18 1 == 0) <| .ok (.viclt (fld w 19 4) (fld w 13 5) (fld w 8 5) (fld w 4 4))
    | 2 => need (bits w 18 1 == 0) <| .ok (.vicle (fld w 19 4) (fld w 13 5) (fld w 8 5) (fld w 4 4))
    | 3 => need (bits w 18 1 == 0) <| .ok (.vicltu (fld w 19 4) (fld w 13 5) (fld w 8 5) (fld w 4 4))
    | 4 => need (bits w 18 1 == 0) <| .ok (.vicleu (fld w 19 4) (fld w 13 5) (fld w 8 5) (fld w 4 4))
    | _ => .error .unassignedMinor
  | 26 => need (bits w 0 4 == 0) <| .ok (.vsel (fld w 18 5) (fld w 13 5) (fld w 8 5) (fld w 4 4))
  | 28 => need (bits w 0 1 == 0) <| .ok (.vcvt (fld w 18 5) (fld w 13 5) (fld w 10 3) (fld w 9 1) (fld w 7 2) (fld w 5 2) (fld w 1 4))
  | 29 => need (bits w 0 1 == 0) <| .ok (.vpack (fld w 18 5) (fld w 13 5) (fld w 10 3) (fld w 9 1) (fld w 7 2) (fld w 5 2) (fld w 1 4))
  | 30 => need (bits w 0 1 == 0) <| .ok (.vunpl (fld w 18 5) (fld w 13 5) (fld w 10 3) (fld w 9 1) (fld w 7 2) (fld w 5 2) (fld w 1 4))
  | 31 => need (bits w 0 1 == 0) <| .ok (.vunph (fld w 18 5) (fld w 13 5) (fld w 10 3) (fld w 9 1) (fld w 7 2) (fld w 5 2) (fld w 1 4))
  | 32 => match bits w 0 2 with
    | 0 => .ok (.vaddi (fld w 18 5) (fld w 2 16))
    | 1 => .ok (.vmuli (fld w 18 5) (fld w 2 16))
    | 2 => .ok (.vmaxi (fld w 18 5) (fld w 2 16))
    | 3 => .ok (.vmini (fld w 18 5) (fld w 2 16))
    | _ => .error .unassignedMinor
  | 33 => match bits w 0 2 with
    | 0 => .ok (.viaddi (fld w 18 5) (fld w 2 16))
    | 1 => .ok (.viandi (fld w 18 5) (fld w 2 16))
    | 2 => .ok (.vishli (fld w 18 5) (fld w 2 16))
    | 3 => .ok (.vishri (fld w 18 5) (fld w 2 16))
    | _ => .error .unassignedMinor
  | 40 => match bits w 0 4 with
    | 0 => need (bits w 4 7 == 0) <| .ok (.qand (fld w 19 4) (fld w 15 4) (fld w 11 4))
    | 1 => need (bits w 4 7 == 0) <| .ok (.qor (fld w 19 4) (fld w 15 4) (fld w 11 4))
    | 2 => need (bits w 4 7 == 0) <| .ok (.qxor (fld w 19 4) (fld w 15 4) (fld w 11 4))
    | 3 => need (bits w 4 7 == 0) <| .ok (.qandn (fld w 19 4) (fld w 15 4) (fld w 11 4))
    | 4 => need (bits w 4 11 == 0) <| .ok (.qnot (fld w 19 4) (fld w 15 4))
    | _ => .error .unassignedMinor
  | 41 => need (bits w 0 10 == 0) <| .ok (.qgath (fld w 19 4) (fld w 15 4) (fld w 10 5))
  | 42 => need (bits w 16 3 == 0) <| .ok (.qseti (fld w 19 4) (fld w 0 16))
  | 43 => need (bits w 0 14 == 0) <| .ok (.qfromv (fld w 19 4) (fld w 14 5))
  | 48 => need (bits w 2 2 == 0 && bits w 8 2 == 0) <| .ok (.vld (fld w 18 5) (fld w 14 4) (fld w 10 4) (fld w 4 4) (fld w 0 2))
  | 49 => need (bits w 2 2 == 0 && bits w 8 2 == 0) <| .ok (.vst (fld w 18 5) (fld w 14 4) (fld w 10 4) (fld w 4 4) (fld w 0 2))
  | 50 => match bits w 2 2 with
    | 0 => .ok (.vlda (fld w 18 5) (fld w 12 6) (fld w 8 4) (fld w 4 4) (fld w 0 2))
    | 1 => .ok (.vsta (fld w 18 5) (fld w 12 6) (fld w 8 4) (fld w 4 4) (fld w 0 2))
    | _ => .error .unassignedMinor
  | 51 => .ok (.vldt (fld w 18 5) (fld w 12 6) (fld w 6 6) (fld w 2 4) (fld w 0 2))
  | 52 => need (bits w 2 3 == 0) <| .ok (.vstm (fld w 18 5) (fld w 12 6) (fld w 8 4) (fld w 5 3) (fld w 0 2))
  | 53 => need (bits w 2 1 == 0) <| .ok (.vgath (fld w 18 5) (fld w 13 5) (fld w 7 6) (fld w 3 4) (fld w 0 2))
  | 54 => need (bits w 2 1 == 0) <| .ok (.vscat (fld w 18 5) (fld w 13 5) (fld w 7 6) (fld w 3 4) (fld w 0 2))
  | 55 => need (bits w 0 4 == 0 && bits w 8 6 == 0) <| .ok (.vstb (fld w 18 5) (fld w 14 4) (fld w 4 4))
  | 56 => match bits w 0 4 with
    | 0 => need (bits w 8 5 == 0) <| .ok (.vradd (fld w 18 5) (fld w 13 5) (fld w 4 4))
    | 1 => need (bits w 8 5 == 0) <| .ok (.vrmax (fld w 18 5) (fld w 13 5) (fld w 4 4))
    | 2 => need (bits w 8 5 == 0) <| .ok (.vrmin (fld w 18 5) (fld w 13 5) (fld w 4 4))
    | 3 => need (bits w 8 5 == 0) <| .ok (.vradds (fld w 18 5) (fld w 13 5) (fld w 4 4))
    | 4 => need (bits w 8 5 == 0) <| .ok (.vrmaxs (fld w 18 5) (fld w 13 5) (fld w 4 4))
    | 5 => need (bits w 8 5 == 0) <| .ok (.vrmins (fld w 18 5) (fld w 13 5) (fld w 4 4))
    | _ => .error .unassignedMinor
  | 57 => match bits w 0 4 with
    | 0 => need (bits w 8 5 == 0) <| .ok (.vcadd (fld w 18 5) (fld w 13 5) (fld w 4 4))
    | 1 => need (bits w 8 5 == 0) <| .ok (.vcmax (fld w 18 5) (fld w 13 5) (fld w 4 4))
    | 2 => need (bits w 8 5 == 0) <| .ok (.vcmin (fld w 18 5) (fld w 13 5) (fld w 4 4))
    | 3 => need (bits w 8 5 == 0) <| .ok (.vcadds (fld w 18 5) (fld w 13 5) (fld w 4 4))
    | 4 => need (bits w 8 5 == 0) <| .ok (.vcmaxs (fld w 18 5) (fld w 13 5) (fld w 4 4))
    | 5 => need (bits w 8 5 == 0) <| .ok (.vcmins (fld w 18 5) (fld w 13 5) (fld w 4 4))
    | _ => .error .unassignedMinor
  | 58 => match bits w 0 3 with
    | 0 => .ok (.vrrot (fld w 18 5) (fld w 13 5) (fld w 7 6) (fld w 3 4))
    | 1 => .ok (.vcrot (fld w 18 5) (fld w 13 5) (fld w 7 6) (fld w 3 4))
    | 2 => .ok (.vrbc (fld w 18 5) (fld w 13 5) (fld w 7 6) (fld w 3 4))
    | 3 => .ok (.vcbc (fld w 18 5) (fld w 13 5) (fld w 7 6) (fld w 3 4))
    | _ => .error .unassignedMinor
  | 59 => need (bits w 0 3 == 0) <| .ok (.vpart (fld w 18 5) (fld w 13 5) (fld w 7 6) (fld w 3 4))
  | 60 => .ok (.vragg (fld w 18 5) (fld w 14 4) (fld w 8 6) (fld w 4 4) (fld w 0 4))
  | 61 => match bits w 0 1 with
    | 0 => need (bits w 1 7 == 0) <| .ok (.vbnda (fld w 18 5) (fld w 13 5) (fld w 8 5))
    | 1 => need (bits w 1 4 == 0) <| .ok (.vbnds (fld w 18 5) (fld w 13 5) (fld w 5 8))
    | _ => .error .unassignedMinor
  | 62 => match bits w 0 2 with
    | 0 => .ok (.shape (fld w 19 4) (fld w 13 6) (fld w 10 3) (fld w 8 2) (fld w 6 2) (fld w 5 1) (fld w 2 3))
    | 1 => need (bits w 2 17 == 0) <| .ok (.rrb (fld w 19 4))
    | _ => .error .unassignedMinor
  | _ => .error .reservedMajor

/-- The opcode map of column M, majors 0x01 to 0x3E (R111, R114, R116, R118). -/
def decodeM (w : Nat) : Except Reject Instr :=
  match bits w 23 6 with
  | 1 => need (bits w 0 1 == 0) <| .ok (.mply (fld w 20 3) (fld w 16 4) (fld w 12 4) (fld w 6 6) (fld w 2 4) (fld w 1 1))
  | 2 => need (bits w 0 1 == 0) <| .ok (.mplyz (fld w 20 3) (fld w 16 4) (fld w 12 4) (fld w 6 6) (fld w 2 4) (fld w 1 1))
  | 3 => need (bits w 0 1 == 0) <| .ok (.mplyk (fld w 20 3) (fld w 16 4) (fld w 12 4) (fld w 6 6) (fld w 2 4) (fld w 1 1))
  | 4 => need (bits w 0 1 == 0) <| .ok (.mplyzk (fld w 20 3) (fld w 16 4) (fld w 12 4) (fld w 6 6) (fld w 2 4) (fld w 1 1))
  | 5 => need (bits w 0 1 == 0) <| .ok (.mres (fld w 20 3) (fld w 16 4) (fld w 12 4) (fld w 6 6) (fld w 2 4) (fld w 1 1))
  | 6 => need (bits w 0 16 == 0) <| .ok (.mdrop (fld w 20 3) (fld w 16 4))
  | 7 => need (bits w 0 1 == 0 && bits w 4 8 == 0) <| .ok (.mmad (fld w 20 3) (fld w 16 4) (fld w 12 4) (fld w 3 1) (fld w 2 1) (fld w 1 1))
  | 8 => need (bits w 0 5 == 0) <| .ok (.mmask (fld w 17 6) (fld w 11 6) (fld w 7 4) (fld w 5 2))
  | 9 => need (bits w 0 20 == 0) <| .ok (.mzero (fld w 20 3))
  | 10 => need (bits w 0 17 == 0) <| .ok (.madd (fld w 20 3) (fld w 17 3))
  | 11 => need (bits w 0 4 == 0) <| .ok (.mout (fld w 20 3) (fld w 16 4) (fld w 12 4) (fld w 10 2) (fld w 8 2) (fld w 4 4))
  | 12 => need (bits w 0 15 == 0) <| .ok (.moutb (fld w 20 3) (fld w 15 5))
  | 13 => need (bits w 0 15 == 0) <| .ok (.mscale (fld w 20 3) (fld w 15 5))
  | 14 => need (bits w 0 15 == 0) <| .ok (.mbias (fld w 20 3) (fld w 15 5))
  | _ => .error .reservedMajor

/-- The opcode map of column X, majors 0x01 to 0x3E (R111, R114, R116, R118). -/
def decodeX (w : Nat) (lit : Option W32) : Except Reject Instr :=
  match bits w 23 6 with
  | 1 => need (bits w 1 1 == 0) <| if bits w 3 1 = 1 then withLit lit fun l => .fetch (fld w 20 3) (fld w 16 4) (fld w 10 6) (fld w 6 4) (fld w 4 2) (fld w 3 1) (fld w 2 1) (fld w 0 1) (some l) else .ok (.fetch (fld w 20 3) (fld w 16 4) (fld w 10 6) (fld w 6 4) (fld w 4 2) (fld w 3 1) (fld w 2 1) (fld w 0 1) none)
  | 2 => need (bits w 0 3 == 0) <| withLit lit fun l => .rfetch (fld w 20 3) (fld w 16 4) (fld w 10 6) (fld w 6 4) (fld w 4 2) (fld w 3 1) l
  | 3 => need (bits w 0 3 == 0) <| if bits w 3 1 = 1 then withLit lit fun l => .stow (fld w 20 3) (fld w 16 4) (fld w 10 6) (fld w 6 4) (fld w 4 2) (fld w 3 1) (some l) else .ok (.stow (fld w 20 3) (fld w 16 4) (fld w 10 6) (fld w 6 4) (fld w 4 2) (fld w 3 1) none)
  | 4 => need (bits w 0 3 == 0) <| withLit lit fun l => .rstow (fld w 20 3) (fld w 16 4) (fld w 10 6) (fld w 6 4) (fld w 4 2) (fld w 3 1) l
  | 5 => need (bits w 0 2 == 0) <| withLit lit fun l => .send (fld w 20 3) (fld w 16 4) (fld w 12 4) (fld w 6 6) (fld w 2 4) l
  | 6 => withLit lit fun l => .sendb (fld w 20 3) (fld w 16 4) (fld w 10 6) (fld w 4 6) (fld w 0 4) l
  | 7 => need (bits w 0 3 == 0 && bits w 8 6 == 0) <| if bits w 3 1 = 1 then withLit lit fun l => .copy (fld w 20 3) (fld w 14 6) (fld w 4 4) (fld w 3 1) (some l) else .ok (.copy (fld w 20 3) (fld w 14 6) (fld w 4 4) (fld w 3 1) none)
  | 8 => need (bits w 0 3 == 0) <| if bits w 3 1 = 1 then withLit lit fun l => .weave (fld w 20 3) (fld w 14 6) (fld w 8 6) (fld w 4 4) (fld w 3 1) (some l) else .ok (.weave (fld w 20 3) (fld w 14 6) (fld w 8 6) (fld w 4 4) (fld w 3 1) none)
  | 9 => need (bits w 0 3 == 0) <| .ok (.probe (fld w 20 3) (fld w 17 3) (fld w 11 6) (fld w 5 6) (fld w 3 2))
  | 10 => need (bits w 0 13 == 0) <| .ok (.pinv (fld w 20 3) (fld w 14 6) (fld w 13 1))
  | 11 => need (bits w 0 13 == 0) <| withLit lit fun l => .screen (fld w 20 3) (fld w 16 4) (fld w 13 3) l
  | 12 => need (bits w 0 20 == 0) <| .ok (.scommit (fld w 20 3))
  | 13 => need (bits w 0 1 == 0) <| .ok (.stbl (fld w 20 3) (fld w 17 3) (fld w 11 6) (fld w 5 6) (fld w 1 4))
  | 14 => need (bits w 5 3 == 0) <| .ok (.patch (fld w 20 3) (fld w 14 6) (fld w 8 6) (fld w 0 5))
  | 15 => need (bits w 0 14 == 0) <| .ok (.armRec (fld w 20 3) (fld w 14 6))
  | 16 => need (bits w 0 10 == 0) <| .ok (.ringcfg (fld w 20 3) (fld w 16 4) (fld w 10 6))
  | _ => .error .reservedMajor

/-- The instruction of a word, before its field ranges are checked. -/
def decodeOps (c : Col) (w : Nat) (lit : Option W32) : Except Reject Instr :=
  if bits w 23 6 = 0 then decodeCommon c w
  else match c with
    | .S => decodeS w lit
    | .V => decodeV w
    | .M => decodeM w
    | .X => decodeX w lit

/-- One word of column `c`, with the literal word that follows it if that word carries the literal tag: the
instruction, or the reason it is none (R100). -/
def decode (c : Col) (w : Nat) (lit : Option W32) : Except Reject Decoded :=
  match decodeOps c w lit with
  | .error e => .error e
  | .ok i => if i.wellFormed then .ok ⟨bits w 31 1 == 1, fld w 29 2, i⟩ else .error .badField

/-- A field placed at bit `lo`. -/
def put {n : Nat} (v : BitVec n) (lo : Nat) : Nat := v.toNat * 2 ^ lo

/-- Bits 28:0 of an instruction word: major, minor and operand fields at the positions of R101 to R118. The rows
without an encoding have none. -/
def encodeOps : Instr → Option Nat
  | .idle n => some (0x00000000 + put n 0)
  | .align => some (0x00100000)
  | .endc => some (0x00180000)
  | .loop c b => some (0x00200000 + put c 7 + put b 0)
  | .loopc s b k => some (0x00280000 + put s 13 + put b 6 + put k 0)
  | .sadd b s e => some (0x00300000 + put b 9 + put s 3 + put e 2)
  | .swait b s e => some (0x00380000 + put b 9 + put s 3 + put e 2)
  | .swaitb b s e => some (0x00400000 + put b 9 + put s 3 + put e 2)
  | .mark n => some (0x00480000 + put n 0)
  | .brk n => some (0x00500000 + put n 0)
  | .ifp p => some (0x00580000 + put p 16)
  | .rep n s => some (0x00600000 + put n 14 + put s 10)
  | .add d a b => some (0x00800000 + put d 17 + put a 11 + put b 5)
  | .sub d a b => some (0x00800001 + put d 17 + put a 11 + put b 5)
  | .mul d a b => some (0x00800002 + put d 17 + put a 11 + put b 5)
  | .mulh d a b => some (0x00800003 + put d 17 + put a 11 + put b 5)
  | .div d a b => some (0x00800004 + put d 17 + put a 11 + put b 5)
  | .rem d a b => some (0x00800005 + put d 17 + put a 11 + put b 5)
  | .smin d a b => some (0x00800006 + put d 17 + put a 11 + put b 5)
  | .smax d a b => some (0x00800007 + put d 17 + put a 11 + put b 5)
  | .sand d a b => some (0x01000000 + put d 17 + put a 11 + put b 5)
  | .sor d a b => some (0x01000001 + put d 17 + put a 11 + put b 5)
  | .sxor d a b => some (0x01000002 + put d 17 + put a 11 + put b 5)
  | .andn d a b => some (0x01000003 + put d 17 + put a 11 + put b 5)
  | .shl d a b => some (0x01000004 + put d 17 + put a 11 + put b 5)
  | .shr d a b => some (0x01000005 + put d 17 + put a 11 + put b 5)
  | .sar d a b => some (0x01000006 + put d 17 + put a 11 + put b 5)
  | .clz d a => some (0x01000007 + put d 17 + put a 11)
  | .popc d a => some (0x01000008 + put d 17 + put a 11)
  | .addi d a i => some (0x08000000 + put d 17 + put a 11 + put i 0)
  | .muli d a i => some (0x08800000 + put d 17 + put a 11 + put i 0)
  | .andi d a i => some (0x09000000 + put d 17 + put a 11 + put i 0)
  | .ori d a i => some (0x09800000 + put d 17 + put a 11 + put i 0)
  | .xori d a i => some (0x0A000000 + put d 17 + put a 11 + put i 0)
  | .mini d a i => some (0x0A800000 + put d 17 + put a 11 + put i 0)
  | .shli d a i => some (0x0C000000 + put d 17 + put a 11 + put i 0)
  | .shri d a i => some (0x0C800000 + put d 17 + put a 11 + put i 0)
  | .sari d a i => some (0x0D000000 + put d 17 + put a 11 + put i 0)
  | .ceq p a b => some (0x10000000 + put p 20 + put a 11 + put b 5)
  | .cne p a b => some (0x10020000 + put p 20 + put a 11 + put b 5)
  | .clt p a b => some (0x10040000 + put p 20 + put a 11 + put b 5)
  | .cge p a b => some (0x10060000 + put p 20 + put a 11 + put b 5)
  | .cltu p a b => some (0x10080000 + put p 20 + put a 11 + put b 5)
  | .cgeu p a b => some (0x100A0000 + put p 20 + put a 11 + put b 5)
  | .ceqi p a i => some (0x10800000 + put p 20 + put a 11 + put i 0)
  | .cnei p a i => some (0x10820000 + put p 20 + put a 11 + put i 0)
  | .clti p a i => some (0x10840000 + put p 20 + put a 11 + put i 0)
  | .cgei p a i => some (0x10860000 + put p 20 + put a 11 + put i 0)
  | .cltui p a i => some (0x10880000 + put p 20 + put a 11 + put i 0)
  | .cgeui p a i => some (0x108A0000 + put p 20 + put a 11 + put i 0)
  | .pand d a b => some (0x11000000 + put d 20 + put a 17 + put b 14)
  | .por d a b => some (0x11000001 + put d 20 + put a 17 + put b 14)
  | .pxor d a b => some (0x11000002 + put d 20 + put a 17 + put b 14)
  | .pandn d a b => some (0x11000003 + put d 20 + put a 17 + put b 14)
  | .sel d a b p => some (0x11800000 + put d 17 + put a 11 + put b 5 + put p 2)
  | .fceq p a b => some (0x12000000 + put p 20 + put a 11 + put b 5)
  | .fclt p a b => some (0x12020000 + put p 20 + put a 11 + put b 5)
  | .fcle p a b => some (0x12040000 + put p 20 + put a 11 + put b 5)
  | .ldk d i => some (0x14000000 + put d 17 + put i 0)
  | .lit d _ => some (0x15000000 + put d 17)
  | .ldc d c => some (0x15800000 + put d 17 + put c 0)
  | .ldkh q d i => some (0x16000000 + put q 23 + put d 17 + put i 0)
  | .ldb d a o => some (0x18000000 + put d 17 + put a 11 + put o 3)
  | .ldh d a o => some (0x18000001 + put d 17 + put a 11 + put o 3)
  | .ldw d a o => some (0x18000002 + put d 17 + put a 11 + put o 3)
  | .ldd d a o => some (0x18000003 + put d 17 + put a 11 + put o 3)
  | .ldbu d a o => some (0x18000004 + put d 17 + put a 11 + put o 3)
  | .ldhu d a o => some (0x18000005 + put d 17 + put a 11 + put o 3)
  | .ldwu d a o => some (0x18000006 + put d 17 + put a 11 + put o 3)
  | .stb d a o => some (0x18800000 + put d 17 + put a 11 + put o 3)
  | .sth d a o => some (0x18800001 + put d 17 + put a 11 + put o 3)
  | .stw d a o => some (0x18800002 + put d 17 + put a 11 + put o 3)
  | .std d a o => some (0x18800003 + put d 17 + put a 11 + put o 3)
  | .atomadd d a b s => some (0x19000000 + put d 17 + put a 11 + put b 5 + put s 0)
  | .atommin d a b s => some (0x19000004 + put d 17 + put a 11 + put b 5 + put s 0)
  | .atommax d a b s => some (0x19000008 + put d 17 + put a 11 + put b 5 + put s 0)
  | .atomswp d a b s => some (0x1900000C + put d 17 + put a 11 + put b 5 + put s 0)
  | .atomcas d a b s => some (0x19000010 + put d 17 + put a 11 + put b 5 + put s 0)
  | .fadd d a b => some (0x1B000000 + put d 17 + put a 11 + put b 5)
  | .fsub d a b => some (0x1B000001 + put d 17 + put a 11 + put b 5)
  | .fmul d a b => some (0x1B000002 + put d 17 + put a 11 + put b 5)
  | .fdiv d a b => some (0x1B000003 + put d 17 + put a 11 + put b 5)
  | .fmin d a b => some (0x1B000004 + put d 17 + put a 11 + put b 5)
  | .fmax d a b => some (0x1B000005 + put d 17 + put a 11 + put b 5)
  | .fsqrt d a => some (0x1B000006 + put d 17 + put a 11)
  | .ffma d a b => some (0x1B800000 + put d 17 + put a 11 + put b 5)
  | .ftoi d a => some (0x1C000000 + put d 17 + put a 11)
  | .ftoiz d a => some (0x1C000001 + put d 17 + put a 11)
  | .itof d a => some (0x1C000002 + put d 17 + put a 11)
  | .faddi d i => some (0x1C800000 + put d 17 + put i 1)
  | .fmuli d i => some (0x1C800001 + put d 17 + put i 1)
  | .wid d n => some (0x1E000000 + put d 17 + put n 8)
  | .widn d => some (0x1E000001 + put d 17)
  | .rdsp d n => some (0x1E800000 + put d 17 + put n 8)
  | .wrsp d n => some (0x1E800001 + put d 17 + put n 8)
  | .cal d n => some (0x1F000000 + put d 17 + put n 8)
  | .abort d n => some (0x1F000001 + put d 17 + put n 8)
  | .vadd d a b q => some (0x00800000 + put d 18 + put a 13 + put b 8 + put q 4)
  | .vsub d a b q => some (0x00800001 + put d 18 + put a 13 + put b 8 + put q 4)
  | .vmul d a b q => some (0x00800002 + put d 18 + put a 13 + put b 8 + put q 4)
  | .vdiv d a b q => some (0x00800003 + put d 18 + put a 13 + put b 8 + put q 4)
  | .vmin d a b q => some (0x00800004 + put d 18 + put a 13 + put b 8 + put q 4)
  | .vmax d a b q => some (0x00800005 + put d 18 + put a 13 + put b 8 + put q 4)
  | .vfma d a b q => some (0x01000000 + put d 18 + put a 13 + put b 8 + put q 4)
  | .vfms d a b q => some (0x01000001 + put d 18 + put a 13 + put b 8 + put q 4)
  | .vfnma d a b q => some (0x01000002 + put d 18 + put a 13 + put b 8 + put q 4)
  | .vexp2 d a q => some (0x01800000 + put d 18 + put a 13 + put q 4)
  | .vlog2 d a q => some (0x01800001 + put d 18 + put a 13 + put q 4)
  | .vrcp d a q => some (0x01800002 + put d 18 + put a 13 + put q 4)
  | .vrsq d a q => some (0x01800003 + put d 18 + put a 13 + put q 4)
  | .vsin d a q => some (0x01800004 + put d 18 + put a 13 + put q 4)
  | .vcos d a q => some (0x01800005 + put d 18 + put a 13 + put q 4)
  | .vtanh d a q => some (0x01800006 + put d 18 + put a 13 + put q 4)
  | .vsqrt d a q => some (0x01800007 + put d 18 + put a 13 + put q 4)
  | .vabs d a q => some (0x01800008 + put d 18 + put a 13 + put q 4)
  | .vneg d a q => some (0x01800009 + put d 18 + put a 13 + put q 4)
  | .viadd d a b q => some (0x08000000 + put d 18 + put a 13 + put b 8 + put q 4)
  | .visub d a b q => some (0x08000001 + put d 18 + put a 13 + put b 8 + put q 4)
  | .vimul d a b q => some (0x08000002 + put d 18 + put a 13 + put b 8 + put q 4)
  | .vimin d a b q => some (0x08000003 + put d 18 + put a 13 + put b 8 + put q 4)
  | .vimax d a b q => some (0x08000004 + put d 18 + put a 13 + put b 8 + put q 4)
  | .viminu d a b q => some (0x08000005 + put d 18 + put a 13 + put b 8 + put q 4)
  | .vimaxu d a b q => some (0x08000006 + put d 18 + put a 13 + put b 8 + put q 4)
  | .viadds d a b q => some (0x08000007 + put d 18 + put a 13 + put b 8 + put q 4)
  | .visubs d a b q => some (0x08000008 + put d 18 + put a 13 + put b 8 + put q 4)
  | .vand d a b q => some (0x08800000 + put d 18 + put a 13 + put b 8 + put q 4)
  | .vor d a b q => some (0x08800001 + put d 18 + put a 13 + put b 8 + put q 4)
  | .vxor d a b q => some (0x08800002 + put d 18 + put a 13 + put b 8 + put q 4)
  | .vandn d a b q => some (0x08800003 + put d 18 + put a 13 + put b 8 + put q 4)
  | .vshl d a b q => some (0x08800004 + put d 18 + put a 13 + put b 8 + put q 4)
  | .vshr d a b q => some (0x08800005 + put d 18 + put a 13 + put b 8 + put q 4)
  | .vsar d a b q => some (0x08800006 + put d 18 + put a 13 + put b 8 + put q 4)
  | .vclz d a q => some (0x08800007 + put d 18 + put a 13 + put q 4)
  | .vpopc d a q => some (0x08800008 + put d 18 + put a 13 + put q 4)
  | .vfshl d a b q => some (0x09000000 + put d 18 + put a 13 + put b 8 + put q 4)
  | .vfshr d a b q => some (0x09000001 + put d 18 + put a 13 + put b 8 + put q 4)
  | .vfceq d a b q => some (0x0C000000 + put d 19 + put a 13 + put b 8 + put q 4)
  | .vfclt d a b q => some (0x0C000001 + put d 19 + put a 13 + put b 8 + put q 4)
  | .vfcle d a b q => some (0x0C000002 + put d 19 + put a 13 + put b 8 + put q 4)
  | .vfcun d a b q => some (0x0C000003 + put d 19 + put a 13 + put b 8 + put q 4)
  | .viceq d a b q => some (0x0C800000 + put d 19 + put a 13 + put b 8 + put q 4)
  | .viclt d a b q => some (0x0C800001 + put d 19 + put a 13 + put b 8 + put q 4)
  | .vicle d a b q => some (0x0C800002 + put d 19 + put a 13 + put b 8 + put q 4)
  | .vicltu d a b q => some (0x0C800003 + put d 19 + put a 13 + put b 8 + put q 4)
  | .vicleu d a b q => some (0x0C800004 + put d 19 + put a 13 + put b 8 + put q 4)
  | .vsel d a b s => some (0x0D000000 + put d 18 + put a 13 + put b 8 + put s 4)
  | .vcvt d a t r m o q => some (0x0E000000 + put d 18 + put a 13 + put t 10 + put r 9 + put m 7 + put o 5 + put q 1)
  | .vpack d a t r m o q => some (0x0E800000 + put d 18 + put a 13 + put t 10 + put r 9 + put m 7 + put o 5 + put q 1)
  | .vunpl d a t r m o q => some (0x0F000000 + put d 18 + put a 13 + put t 10 + put r 9 + put m 7 + put o 5 + put q 1)
  | .vunph d a t r m o q => some (0x0F800000 + put d 18 + put a 13 + put t 10 + put r 9 + put m 7 + put o 5 + put q 1)
  | .vaddi d i => some (0x10000000 + put d 18 + put i 2)
  | .vmuli d i => some (0x10000001 + put d 18 + put i 2)
  | .vmaxi d i => some (0x10000002 + put d 18 + put i 2)
  | .vmini d i => some (0x10000003 + put d 18 + put i 2)
  | .viaddi d i => some (0x10800000 + put d 18 + put i 2)
  | .viandi d i => some (0x10800001 + put d 18 + put i 2)
  | .vishli d i => some (0x10800002 + put d 18 + put i 2)
  | .vishri d i => some (0x10800003 + put d 18 + put i 2)
  | .qand d a b => some (0x14000000 + put d 19 + put a 15 + put b 11)
  | .qor d a b => some (0x14000001 + put d 19 + put a 15 + put b 11)
  | .qxor d a b => some (0x14000002 + put d 19 + put a 15 + put b 11)
  | .qandn d a b => some (0x14000003 + put d 19 + put a 15 + put b 11)
  | .qnot d a => some (0x14000004 + put d 19 + put a 15)
  | .qgath d a b => some (0x14800000 + put d 19 + put a 15 + put b 10)
  | .qseti d i => some (0x15000000 + put d 19 + put i 0)
  | .qfromv d a => some (0x15800000 + put d 19 + put a 14)
  | .vld d g f q c => some (0x18000000 + put d 18 + put g 14 + put f 10 + put q 4 + put c 0)
  | .vst d g f q c => some (0x18800000 + put d 18 + put g 14 + put f 10 + put q 4 + put c 0)
  | .vlda d s f q c => some (0x19000000 + put d 18 + put s 12 + put f 8 + put q 4 + put c 0)
  | .vsta d s f q c => some (0x19000004 + put d 18 + put s 12 + put f 8 + put q 4 + put c 0)
  | .vldt d s g f c => some (0x19800000 + put d 18 + put s 12 + put g 6 + put f 2 + put c 0)
  | .vstm d s f q c => some (0x1A000000 + put d 18 + put s 12 + put f 8 + put q 5 + put c 0)
  | .vgath d b s f c => some (0x1A800000 + put d 18 + put b 13 + put s 7 + put f 3 + put c 0)
  | .vscat d b s f c => some (0x1B000000 + put d 18 + put b 13 + put s 7 + put f 3 + put c 0)
  | .vstb d g q => some (0x1B800000 + put d 18 + put g 14 + put q 4)
  | .vradd d a q => some (0x1C000000 + put d 18 + put a 13 + put q 4)
  | .vrmax d a q => some (0x1C000001 + put d 18 + put a 13 + put q 4)
  | .vrmin d a q => some (0x1C000002 + put d 18 + put a 13 + put q 4)
  | .vradds d a q => some (0x1C000003 + put d 18 + put a 13 + put q 4)
  | .vrmaxs d a q => some (0x1C000004 + put d 18 + put a 13 + put q 4)
  | .vrmins d a q => some (0x1C000005 + put d 18 + put a 13 + put q 4)
  | .vcadd d a q => some (0x1C800000 + put d 18 + put a 13 + put q 4)
  | .vcmax d a q => some (0x1C800001 + put d 18 + put a 13 + put q 4)
  | .vcmin d a q => some (0x1C800002 + put d 18 + put a 13 + put q 4)
  | .vcadds d a q => some (0x1C800003 + put d 18 + put a 13 + put q 4)
  | .vcmaxs d a q => some (0x1C800004 + put d 18 + put a 13 + put q 4)
  | .vcmins d a q => some (0x1C800005 + put d 18 + put a 13 + put q 4)
  | .vrrot d a n q => some (0x1D000000 + put d 18 + put a 13 + put n 7 + put q 3)
  | .vcrot d a n q => some (0x1D000001 + put d 18 + put a 13 + put n 7 + put q 3)
  | .vrbc d a n q => some (0x1D000002 + put d 18 + put a 13 + put n 7 + put q 3)
  | .vcbc d a n q => some (0x1D000003 + put d 18 + put a 13 + put n 7 + put q 3)
  | .vpart d a s q => some (0x1D800000 + put d 18 + put a 13 + put s 7 + put q 3)
  | .vragg d g s q f => some (0x1E000000 + put d 18 + put g 14 + put s 8 + put q 4 + put f 0)
  | .vbnda d a b => some (0x1E800000 + put d 18 + put a 13 + put b 8)
  | .vbnds d a c => some (0x1E800001 + put d 18 + put a 13 + put c 5)
  | .shape r c e m o g s => some (0x1F000000 + put r 19 + put c 13 + put e 10 + put m 8 + put o 6 + put g 5 + put s 2)
  | .rrb b => some (0x1F000001 + put b 19)
  | .mply a w g s k l => some (0x00800000 + put a 20 + put w 16 + put g 12 + put s 6 + put k 2 + put l 1)
  | .mplyz a w g s k l => some (0x01000000 + put a 20 + put w 16 + put g 12 + put s 6 + put k 2 + put l 1)
  | .mplyk a w g s k l => some (0x01800000 + put a 20 + put w 16 + put g 12 + put s 6 + put k 2 + put l 1)
  | .mplyzk a w g s k l => some (0x02000000 + put a 20 + put w 16 + put g 12 + put s 6 + put k 2 + put l 1)
  | .mres a w g s k l => some (0x02800000 + put a 20 + put w 16 + put g 12 + put s 6 + put k 2 + put l 1)
  | .mdrop a w => some (0x03000000 + put a 20 + put w 16)
  | .mmad a w g z k l => some (0x03800000 + put a 20 + put w 16 + put g 12 + put z 3 + put k 2 + put l 1)
  | .mmask a v f m => some (0x04000000 + put a 17 + put v 11 + put f 7 + put m 5)
  | .mzero a => some (0x04800000 + put a 20)
  | .madd a s => some (0x05000000 + put a 20 + put s 17)
  | .mout a g t r o f => some (0x05800000 + put a 20 + put g 16 + put t 12 + put r 10 + put o 8 + put f 4)
  | .moutb a v => some (0x06000000 + put a 20 + put v 15)
  | .mscale a v => some (0x06800000 + put a 20 + put v 15)
  | .mbias a v => some (0x07000000 + put a 20 + put v 15)
  | .fetch p g s f c k v i _ => some (0x00800000 + put p 20 + put g 16 + put s 10 + put f 6 + put c 4 + put k 3 + put v 2 + put i 0)
  | .rfetch p g s f c k _ => some (0x01000000 + put p 20 + put g 16 + put s 10 + put f 6 + put c 4 + put k 3)
  | .stow p g s f c k _ => some (0x01800000 + put p 20 + put g 16 + put s 10 + put f 6 + put c 4 + put k 3)
  | .rstow p g s f c k _ => some (0x02000000 + put p 20 + put g 16 + put s 10 + put f 6 + put c 4 + put k 3)
  | .send p s d c f _ => some (0x02800000 + put p 20 + put s 16 + put d 12 + put c 6 + put f 2)
  | .sendb p g d c f _ => some (0x03000000 + put p 20 + put g 16 + put d 10 + put c 4 + put f 0)
  | .copy p s f k _ => some (0x03800000 + put p 20 + put s 14 + put f 4 + put k 3)
  | .weave p s q f k _ => some (0x04000000 + put p 20 + put s 14 + put q 8 + put f 4 + put k 3)
  | .probe p e d s c => some (0x04800000 + put p 20 + put e 17 + put d 11 + put s 5 + put c 3)
  | .pinv p s l => some (0x05000000 + put p 20 + put s 14 + put l 13)
  | .screen p g c _ => some (0x05800000 + put p 20 + put g 16 + put c 13)
  | .scommit p => some (0x06000000 + put p 20)
  | .stbl p t s n f => some (0x06800000 + put p 20 + put t 17 + put s 11 + put n 5 + put f 1)
  | .patch p r v f => some (0x07000000 + put p 20 + put r 14 + put v 8 + put f 0)
  | .armRec p r => some (0x07800000 + put p 20 + put r 14)
  | .ringcfg p g s => some (0x08000000 + put p 20 + put g 16 + put s 10)
  | .repRepetition _ _ => none
  | .rotatingIterationBoundary _ _ _ _ => none
  | .lenientStallRecheck _ => none
  | .registerWriteback _ _ _ _ => none
  | .vResultWriteback _ _ => none
  | .sScratchAccess _ _ => none
  | .atomRead _ _ => none
  | .atomWrite _ _ _ => none
  | .laneBeat _ _ => none
  | .vStoreConversion _ => none
  | .sidecarAttach _ _ _ _ => none
  | .gatherScatterAccess _ _ => none
  | .raggedTableRead _ _ => none
  | .hbmSample _ => none
  | .hbmPerform _ _ _ => none
  | .readBeatLanding _ _ _ => none
  | .transferCredit _ _ _ => none
  | .sendBeatLanding _ _ _ _ => none
  | .copyStep _ _ _ => none
  | .weaveEmission _ _ => none
  | .weaveContribution _ _ => none
  | .weaveStatusWrite _ => none
  | .linkFlitRelease _ => none
  | .plyHeaderRead _ _ => none
  | .plySpanEnd _ => none
  | .mmadSpanEnd _ => none
  | .mdropPop _ _ _ _ _ => none
  | .mzeroEffect _ _ => none
  | .maddEffect _ _ _ => none
  | .mscaleMbiasEffect _ _ _ _ => none
  | .moutRow _ _ => none
  | .moutbWrite _ _ _ => none
  | .maskArm _ _ => none
  | .probeResult _ _ _ _ _ => none
  | .pinvEffect _ _ _ => none
  | .ringcfgEffect _ _ _ => none
  | .patchArmCheck _ _ => none
  | .screenAdmission _ _ => none
  | .screenStageLookup _ _ _ => none
  | .screenStageAction _ _ _ => none
  | .screenExit _ _ => none
  | .screenSpanEnd _ => none
  | .stblLine _ _ _ => none
  | .peerAbortStop _ _ => none
  | .watchdog _ => none
  | .sheetEnd _ => none
  | .armCommand _ _ _ => none
  | .partition _ _ _ _ _ _ => none
  | .domain _ _ _ _ => none
  | .lease _ _ _ => none
  | .power _ _ => none
  | .debugToken _ _ => none
  | .vatcfg _ _ => none
  | .readRepairMap _ _ => none
  | .readTemperatures _ _ => none
  | .placement _ => none
  | .sheetAlignment _ => none
  | .maintenanceSlot => none
  | .holdUnit _ => none
  | .slotEnd => none
  | .linkFailure _ _ => none
  | .marginRestore _ _ _ => none
  | .contextSave _ => none
  | .resume _ => none
  | .irrevocableFreeze _ => none
  | .irrevocableCouch _ => none
  | .couch _ => none
  | .couchPrepare _ _ => none
  | .couchDecide _ => none
  | .couchApply _ _ => none
  | .repulp _ => none
  | .vatDrain _ _ _ => none
  | .debugFreeze _ _ => none
  | .debugRelease _ _ => none
  | .debugScan _ _ => none
  | .debugScanDone _ _ => none
  | .debugSuspension _ => none
  | .elostClear _ => none
  | .traceLostClear _ _ => none
  | .hbctlWrite _ _ _ => none
  | .headboxDescriptor _ _ => none
  | .headboxFrameDone _ _ => none
  | .getVersion _ => none
  | .getCapabilities _ => none
  | .negotiateAlgorithms _ => none
  | .getDigests _ => none
  | .getCertificate _ => none
  | .challenge _ _ => none
  | .getMeasurements _ _ => none
  | .keyExchange _ _ => none
  | .spdmFinish _ => none
  | .keyLoad _ _ _ _ _ => none
  | .enterAttested _ => none
  | .packageReset _ => none
  | .registerWrite _ _ _ => none
  | .hostCxlMemWrite _ _ _ => none
  | .malformedPacket _ => none
  | .standbyTwinTakeover _ => none

/-- The literal word that an instruction carries with it (R103). -/
def Instr.literal : Instr → Option W32
  | .lit _ l => some l
  | .fetch _ _ _ _ _ _ _ _ l => l
  | .rfetch _ _ _ _ _ _ l => some l
  | .stow _ _ _ _ _ _ l => l
  | .rstow _ _ _ _ _ _ l => some l
  | .send _ _ _ _ _ l => some l
  | .sendb _ _ _ _ _ l => some l
  | .copy _ _ _ _ l => l
  | .weave _ _ _ _ _ l => l
  | .screen _ _ _ l => some l
  | _ => none

/-- The columns that have the instruction (R101, R111, R114, R116, R118). -/
def Instr.inColumn : Instr → Col → Bool
  | .idle _, _ => true
  | .align, _ => true
  | .endc, _ => true
  | .loop _ _, _ => true
  | .loopc _ _ _, _ => true
  | .sadd _ _ _, _ => true
  | .swait _ _ _, _ => true
  | .swaitb _ _ _, _ => true
  | .mark _, _ => true
  | .brk _, _ => true
  | .ifp _, c => c == .S
  | .rep _ _, c => c == .V
  | .add _ _ _, c => c == .S
  | .sub _ _ _, c => c == .S
  | .mul _ _ _, c => c == .S
  | .mulh _ _ _, c => c == .S
  | .div _ _ _, c => c == .S
  | .rem _ _ _, c => c == .S
  | .smin _ _ _, c => c == .S
  | .smax _ _ _, c => c == .S
  | .sand _ _ _, c => c == .S
  | .sor _ _ _, c => c == .S
  | .sxor _ _ _, c => c == .S
  | .andn _ _ _, c => c == .S
  | .shl _ _ _, c => c == .S
  | .shr _ _ _, c => c == .S
  | .sar _ _ _, c => c == .S
  | .clz _ _, c => c == .S
  | .popc _ _, c => c == .S
  | .addi _ _ _, c => c == .S
  | .muli _ _ _, c => c == .S
  | .andi _ _ _, c => c == .S
  | .ori _ _ _, c => c == .S
  | .xori _ _ _, c => c == .S
  | .mini _ _ _, c => c == .S
  | .shli _ _ _, c => c == .S
  | .shri _ _ _, c => c == .S
  | .sari _ _ _, c => c == .S
  | .ceq _ _ _, c => c == .S
  | .cne _ _ _, c => c == .S
  | .clt _ _ _, c => c == .S
  | .cge _ _ _, c => c == .S
  | .cltu _ _ _, c => c == .S
  | .cgeu _ _ _, c => c == .S
  | .ceqi _ _ _, c => c == .S
  | .cnei _ _ _, c => c == .S
  | .clti _ _ _, c => c == .S
  | .cgei _ _ _, c => c == .S
  | .cltui _ _ _, c => c == .S
  | .cgeui _ _ _, c => c == .S
  | .pand _ _ _, c => c == .S
  | .por _ _ _, c => c == .S
  | .pxor _ _ _, c => c == .S
  | .pandn _ _ _, c => c == .S
  | .sel _ _ _ _, c => c == .S
  | .fceq _ _ _, c => c == .S
  | .fclt _ _ _, c => c == .S
  | .fcle _ _ _, c => c == .S
  | .ldk _ _, c => c == .S
  | .lit _ _, c => c == .S
  | .ldc _ _, c => c == .S
  | .ldkh _ _ _, c => c == .S
  | .ldb _ _ _, c => c == .S
  | .ldh _ _ _, c => c == .S
  | .ldw _ _ _, c => c == .S
  | .ldd _ _ _, c => c == .S
  | .ldbu _ _ _, c => c == .S
  | .ldhu _ _ _, c => c == .S
  | .ldwu _ _ _, c => c == .S
  | .stb _ _ _, c => c == .S
  | .sth _ _ _, c => c == .S
  | .stw _ _ _, c => c == .S
  | .std _ _ _, c => c == .S
  | .atomadd _ _ _ _, c => c == .S
  | .atommin _ _ _ _, c => c == .S
  | .atommax _ _ _ _, c => c == .S
  | .atomswp _ _ _ _, c => c == .S
  | .atomcas _ _ _ _, c => c == .S
  | .fadd _ _ _, c => c == .S
  | .fsub _ _ _, c => c == .S
  | .fmul _ _ _, c => c == .S
  | .fdiv _ _ _, c => c == .S
  | .fmin _ _ _, c => c == .S
  | .fmax _ _ _, c => c == .S
  | .fsqrt _ _, c => c == .S
  | .ffma _ _ _, c => c == .S
  | .ftoi _ _, c => c == .S
  | .ftoiz _ _, c => c == .S
  | .itof _ _, c => c == .S
  | .faddi _ _, c => c == .S
  | .fmuli _ _, c => c == .S
  | .wid _ _, c => c == .S
  | .widn _, c => c == .S
  | .rdsp _ _, c => c == .S
  | .wrsp _ _, c => c == .S
  | .cal _ _, c => c == .S
  | .abort _ _, c => c == .S
  | .vadd _ _ _ _, c => c == .V
  | .vsub _ _ _ _, c => c == .V
  | .vmul _ _ _ _, c => c == .V
  | .vdiv _ _ _ _, c => c == .V
  | .vmin _ _ _ _, c => c == .V
  | .vmax _ _ _ _, c => c == .V
  | .vfma _ _ _ _, c => c == .V
  | .vfms _ _ _ _, c => c == .V
  | .vfnma _ _ _ _, c => c == .V
  | .vexp2 _ _ _, c => c == .V
  | .vlog2 _ _ _, c => c == .V
  | .vrcp _ _ _, c => c == .V
  | .vrsq _ _ _, c => c == .V
  | .vsin _ _ _, c => c == .V
  | .vcos _ _ _, c => c == .V
  | .vtanh _ _ _, c => c == .V
  | .vsqrt _ _ _, c => c == .V
  | .vabs _ _ _, c => c == .V
  | .vneg _ _ _, c => c == .V
  | .viadd _ _ _ _, c => c == .V
  | .visub _ _ _ _, c => c == .V
  | .vimul _ _ _ _, c => c == .V
  | .vimin _ _ _ _, c => c == .V
  | .vimax _ _ _ _, c => c == .V
  | .viminu _ _ _ _, c => c == .V
  | .vimaxu _ _ _ _, c => c == .V
  | .viadds _ _ _ _, c => c == .V
  | .visubs _ _ _ _, c => c == .V
  | .vand _ _ _ _, c => c == .V
  | .vor _ _ _ _, c => c == .V
  | .vxor _ _ _ _, c => c == .V
  | .vandn _ _ _ _, c => c == .V
  | .vshl _ _ _ _, c => c == .V
  | .vshr _ _ _ _, c => c == .V
  | .vsar _ _ _ _, c => c == .V
  | .vclz _ _ _, c => c == .V
  | .vpopc _ _ _, c => c == .V
  | .vfshl _ _ _ _, c => c == .V
  | .vfshr _ _ _ _, c => c == .V
  | .vfceq _ _ _ _, c => c == .V
  | .vfclt _ _ _ _, c => c == .V
  | .vfcle _ _ _ _, c => c == .V
  | .vfcun _ _ _ _, c => c == .V
  | .viceq _ _ _ _, c => c == .V
  | .viclt _ _ _ _, c => c == .V
  | .vicle _ _ _ _, c => c == .V
  | .vicltu _ _ _ _, c => c == .V
  | .vicleu _ _ _ _, c => c == .V
  | .vsel _ _ _ _, c => c == .V
  | .vcvt _ _ _ _ _ _ _, c => c == .V
  | .vpack _ _ _ _ _ _ _, c => c == .V
  | .vunpl _ _ _ _ _ _ _, c => c == .V
  | .vunph _ _ _ _ _ _ _, c => c == .V
  | .vaddi _ _, c => c == .V
  | .vmuli _ _, c => c == .V
  | .vmaxi _ _, c => c == .V
  | .vmini _ _, c => c == .V
  | .viaddi _ _, c => c == .V
  | .viandi _ _, c => c == .V
  | .vishli _ _, c => c == .V
  | .vishri _ _, c => c == .V
  | .qand _ _ _, c => c == .V
  | .qor _ _ _, c => c == .V
  | .qxor _ _ _, c => c == .V
  | .qandn _ _ _, c => c == .V
  | .qnot _ _, c => c == .V
  | .qgath _ _ _, c => c == .V
  | .qseti _ _, c => c == .V
  | .qfromv _ _, c => c == .V
  | .vld _ _ _ _ _, c => c == .V
  | .vst _ _ _ _ _, c => c == .V
  | .vlda _ _ _ _ _, c => c == .V
  | .vsta _ _ _ _ _, c => c == .V
  | .vldt _ _ _ _ _, c => c == .V
  | .vstm _ _ _ _ _, c => c == .V
  | .vgath _ _ _ _ _, c => c == .V
  | .vscat _ _ _ _ _, c => c == .V
  | .vstb _ _ _, c => c == .V
  | .vradd _ _ _, c => c == .V
  | .vrmax _ _ _, c => c == .V
  | .vrmin _ _ _, c => c == .V
  | .vradds _ _ _, c => c == .V
  | .vrmaxs _ _ _, c => c == .V
  | .vrmins _ _ _, c => c == .V
  | .vcadd _ _ _, c => c == .V
  | .vcmax _ _ _, c => c == .V
  | .vcmin _ _ _, c => c == .V
  | .vcadds _ _ _, c => c == .V
  | .vcmaxs _ _ _, c => c == .V
  | .vcmins _ _ _, c => c == .V
  | .vrrot _ _ _ _, c => c == .V
  | .vcrot _ _ _ _, c => c == .V
  | .vrbc _ _ _ _, c => c == .V
  | .vcbc _ _ _ _, c => c == .V
  | .vpart _ _ _ _, c => c == .V
  | .vragg _ _ _ _ _, c => c == .V
  | .vbnda _ _ _, c => c == .V
  | .vbnds _ _ _, c => c == .V
  | .shape _ _ _ _ _ _ _, c => c == .V
  | .rrb _, c => c == .V
  | .mply _ _ _ _ _ _, c => c == .M
  | .mplyz _ _ _ _ _ _, c => c == .M
  | .mplyk _ _ _ _ _ _, c => c == .M
  | .mplyzk _ _ _ _ _ _, c => c == .M
  | .mres _ _ _ _ _ _, c => c == .M
  | .mdrop _ _, c => c == .M
  | .mmad _ _ _ _ _ _, c => c == .M
  | .mmask _ _ _ _, c => c == .M
  | .mzero _, c => c == .M
  | .madd _ _, c => c == .M
  | .mout _ _ _ _ _ _, c => c == .M
  | .moutb _ _, c => c == .M
  | .mscale _ _, c => c == .M
  | .mbias _ _, c => c == .M
  | .fetch _ _ _ _ _ _ _ _ _, c => c == .X
  | .rfetch _ _ _ _ _ _ _, c => c == .X
  | .stow _ _ _ _ _ _ _, c => c == .X
  | .rstow _ _ _ _ _ _ _, c => c == .X
  | .send _ _ _ _ _ _, c => c == .X
  | .sendb _ _ _ _ _ _, c => c == .X
  | .copy _ _ _ _ _, c => c == .X
  | .weave _ _ _ _ _ _, c => c == .X
  | .probe _ _ _ _ _, c => c == .X
  | .pinv _ _ _, c => c == .X
  | .screen _ _ _ _, c => c == .X
  | .scommit _, c => c == .X
  | .stbl _ _ _ _ _, c => c == .X
  | .patch _ _ _ _, c => c == .X
  | .armRec _ _, c => c == .X
  | .ringcfg _ _ _, c => c == .X
  | _, _ => false

/-- The words of an instruction: the word itself and its literal, if it has one (R98, R103). -/
def encode (x : Decoded) : Option (Nat × Option W32) :=
  (encodeOps x.ins).map fun w => (x.y.toNat * 2 ^ 31 + x.d.toNat * 2 ^ 29 + w, x.ins.literal)

/-- A 32-bit word from its bytes, lowest address first (R4). -/
def wordOfBytes (b : List Byte) : Nat :=
  b.foldr (fun x n => x.toNat + 256 * n) 0

/-- Any bytes of a column's code store: the word in the first four, a literal in the next four when `tagged`. -/
def decodeBytes (c : Col) (b : List Byte) (tagged : Bool) : Except Reject Decoded :=
  decode c (wordOfBytes (b.take 4))
    (if tagged then some (BitVec.ofNat 32 (wordOfBytes ((b.drop 4).take 4))) else none)

/-- The first column, in the order S, V, M, X, in whose map the word is an instruction. A table row names no column;
this is the order in which the model reads a word that comes without one (log entry 1). -/
def firstColumn (w : Nat) (lit : Option W32) : Option (Col × Decoded) :=
  match decode .S w lit with
  | .ok x => some (.S, x)
  | .error _ =>
  match decode .V w lit with
  | .ok x => some (.V, x)
  | .error _ =>
  match decode .M w lit with
  | .ok x => some (.M, x)
  | .error _ =>
  match decode .X w lit with
  | .ok x => some (.X, x)
  | .error _ => none

/-- The bytes of a number, lowest first (R4). -/
def bytesOf (n w : Nat) : List Byte :=
  (List.range n).map fun i => BitVec.ofNat 8 (w / 256 ^ i)

/-- The instruction read from bits numbered as the opcode table numbers them: the word, and above it the literal. The
words are laid out as the code store holds them and read back by the decoder. -/
def decodeTableWord (nbits w : Nat) : Option Instr :=
  let b := bytesOf 8 (w % 2 ^ nbits)
  (firstColumn (wordOfBytes (b.take 4)) (some (BitVec.ofNat 32 (wordOfBytes (b.drop 4))))).map fun r => r.2.ins

end Sys2Proof
end

