-- ==== Sys2Proof/Machine/Issue.lean ====
section
/-! DEFINITION. Issue (R22 to R27, R101 to R109): the next word of a column, the cycle at which it issues, loops, the
words IF and REP that govern another, rendezvous. -/

namespace Sys2Proof.Machine

/-- A word of the code store; unused words hold the fill (R25). -/
def Column.word (o : Column) (a : Nat) : W32 := Tab.get 0xFFFFFFFF o.code a

/-- Whether the literal tag of an address is set (R104). -/
def Column.tagged (o : Column) (a : Nat) : Bool := decide (a ≤ 0x1FFF) && Tab.get false o.lits a

/-- The idle cycles before a word issues; a tagged word and an address past the store have none (R22, R105). -/
def Column.dOf (o : Column) (a : Nat) : Nat :=
  if 0x1FFF < a || o.tagged a then 0 else bits (o.word a).toNat 29 2

/-- Whether the word at an address carries Y. -/
def Column.yOf (o : Column) (a : Nat) : Bool :=
  decide (a ≤ 0x1FFF) && !o.tagged a && bits (o.word a).toNat 31 1 == 1

/-- The literal that follows a word, if the next address is tagged (R104). -/
def Column.literal (o : Column) (a : Nat) : Option W32 :=
  if o.tagged (a + 1) then some (o.word (a + 1)) else none

/-- The task cycles of the issue units from address `a` to `last` (R22): D + occ of each, nested loops with their count
or cap. The first argument bounds the walk. -/
def Column.span (o : Column) : Nat → Nat → Nat → Nat
  | 0, _, _ => 0
  | f + 1, a, last =>
    if last < a then 0
    else
      let w := (o.word a).toNat
      let d := bits w 29 2
      if bits w 23 6 = 0 then
        match bits w 19 4 with
        | 0 | 1 => d + bits w 0 20 + o.span f (a + 1) last
        | 4 => d + 1 + bits w 7 12 * o.span f (a + 1) (a + 1 + bits w 0 7) + o.span f (a + 2 + bits w 0 7) last
        | 5 => d + 1 + (bits w 0 6 + 1) * o.span f (a + 1) (a + 1 + bits w 6 7) + o.span f (a + 2 + bits w 6 7) last
        | 11 => d + 1 + o.span f (if o.tagged (a + 2) then a + 3 else a + 2) last
        | 12 => d + max 1 (bits w 14 5) + o.span f (a + 2) last
        | _ => d + 1 + o.span f (a + 1) last
      else d + 1 + o.span f (if o.tagged (a + 1) then a + 2 else a + 1) last

/-- Where issue goes on after an address `n` is reached at cycle `base`: the address, the cycle, the open loops, the
boundaries of a rotating loop that fall due (R22, R23, R184). DESIGN CHOICE (log entry 68): the last boundary of a rotating LOOPC
comes at the end of its last iteration, before the cycles that idle for the rest of the cap. -/
def unwind (k n base : Nat) : List Loop → Nat × Nat × List Loop × List (Nat × Nat × Act)
  | [] => (n, base, [], [])
  | l :: r =>
    if n ≤ l.last then (n, base, l :: r, [])
    else
      let ev := match l.rot with
        | some (st, cnt) => [(base, phTurn, Act.rotatingIterationBoundary k (l.iter + 1) cnt st)]
        | none => []
      if l.left = 0 then
        let u := unwind k (l.last + 1) (base + l.pad) r
        (u.1, u.2.1, u.2.2.1, ev ++ u.2.2.2)
      else (l.start, base, { l with left := l.left - 1, iter := l.iter + 1 } :: r, ev)

/-- The cursor after a unit that occupies the column until `base` and is followed by address `n`. -/
def Column.goOn (o : Column) (k : Nat) (cu : Cursor) (n base : Nat) : Cursor × List (Nat × Nat × Act) :=
  let u := unwind k n base cu.loops
  ({ cu with pc := u.1, due := u.2.1 + o.dOf u.1, loops := u.2.2.1, gov := .plain }, u.2.2.2)

/-- The column of the word being executed goes on at address `n` from cycle `base`. -/
def Core.goOn (c : Core) (x : Ctx) (n base : Nat) : Eff :=
  let o := c.col x.col
  let r := o.goOn x.k { x.prev with yAt := o.cu.yAt } n base
  (Eff.ok (c.setCursor x.col r.1)).also r.2

/-- A column that has not issued END before cycle `t` (R25, R27). -/
def Cursor.live (cu : Cursor) (t : Nat) : Bool :=
  match cu.ended with
  | none => true
  | some e => e == t

/-- Whether a column issues a Y-marked word at `t`: it has, or its next word is one and due. DESIGN CHOICE (log entry
48): a word with Y that is no instruction counts before it is refused. -/
def Column.yNow (o : Column) (t : Nat) : Bool :=
  o.cu.yAt == some t || (o.cu.ended.isNone && o.cu.due == t && o.cu.gov == .plain && o.yOf o.cu.pc)

def allCols : List Col := [.S, .V, .M, .X]

/-- All live columns of the core issue a Y-marked word at `t` (R27). -/
def Core.bundled (c : Core) (t : Nat) : Bool :=
  allCols.all fun o => !(c.col o).cu.live t || (c.col o).yNow t

/-- The columns that issue a Y-marked word at `t`, bit n for column n (R343). -/
def Core.yMask (c : Core) (t : Nat) : Nat :=
  (allCols.map fun o => if (c.col o).yNow t then 2 ^ o.code else 0).foldl (· + ·) 0

/-- Majors that REP may govern (R107). -/
def repMajor (m : Nat) : Bool :=
  (1 ≤ m && m ≤ 0x12) || m == 0x1A || (0x1C ≤ m && m ≤ 0x21) || (0x38 ≤ m && m ≤ 0x3A) || m == 0x3D

/-- The governed word at address `g` may stand under IF or REP (R108). -/
def Column.governable (o : Column) (cu : Cursor) (rep : Bool) (g : Nat) : Bool :=
  let w := (o.word g).toNat
  decide (g ≤ 0x1FFF) && !o.tagged g && bits w 23 6 != 0 && bits w 29 3 == 0
    && (!rep || repMajor (bits w 23 6))
    && (match cu.loops with
      | l :: _ => decide (g ≤ l.last)
      | [] => true)

/-- A LOOP at address `a` with its last body word at `last` may open (R102). DESIGN CHOICE (log entry 49): a word of the
common group with the minor of ALIGN or END counts as that word whatever its reserved bits hold. -/
def Column.loopOk (o : Column) (cu : Cursor) (a last : Nat) : Bool :=
  decide (last ≤ 0x1FFF) && decide (cu.loops.length < 4)
    && (match cu.loops with
      | l :: _ => decide (last ≤ l.last)
      | [] => true)
    && ((List.range (last - a)).all fun i =>
      let b := a + 1 + i
      o.tagged b || bits (o.word b).toNat 23 6 != 0
        || !(bits (o.word b).toNat 19 4 == 2 || bits (o.word b).toNat 19 4 == 3))

/-- What the next word of a column comes to. -/
inductive Fetched where
  | run (s : State) (i : Instr)
  | still (s : State)

/-- The column moved past a word that does not execute. -/
def Core.pass (c : Core) (col : Col) (t : Nat) : Core :=
  c.setCursor col { (c.col col).cu with due := t + 1 }

/-- A fault of a word that is no instruction. -/
def State.refuseWord (s : State) (k : Nat) (c : Core) (x : Ctx) (cause : Nat) : State :=
  (s.setCore k (c.pass x.col x.t)).commit k (Eff.fault (c.pass x.col x.t) x cause 0 (x.word.setWidth 64) 0 0)

/-- The issue context of the next word of a column at cycle `t` (R106, R107). -/
def Column.context (o : Column) (k : Nat) (col : Col) (t : Nat) : Ctx :=
  let off := match o.cu.gov with
    | .cond p _ => !p
    | _ => false
  let rep := match o.cu.gov with
    | .rep i _ stride shape a => some (i, stride, shape, a)
    | _ => none
  { k := k, col := col, addr := o.cu.pc, t := t, off := off, rep := rep, word := o.word o.cu.pc, prev := o.cu }

/-- The words that move their column themselves: their occupancy is not one cycle, or they govern the next word (R22). -/
def ownPace : Instr → Bool
  | .idle _ | .endc | .loop _ _ | .loopc _ _ _ | .ifp _ | .rep _ _ => true
  | _ => false

/-- The cursor after a word with or without a literal that occupies one cycle. A repetition under REP stays at its word until the last (R107). -/
def Column.after (o : Column) (k t : Nat) (lit : Bool) : Cursor × List (Nat × Nat × Act) :=
  let a := o.cu.pc
  match o.cu.gov with
  | .rep i n _ _ at_ =>
    if i + 1 < n then ({ o.cu with due := t + 1 }, [(t + 1, phStart, .repRepetition k (i + 1))])
    else o.goOn k o.cu (a + 1) (at_ + n)
  | _ => o.goOn k o.cu (if lit then a + 2 else a + 1) (t + 1)

/-- An uncorrectable error in the code that a word and its literal take (R350). DESIGN CHOICE (log entry 29): word `a` of column `n`
has address 8192 n + a. -/
def Core.illCode (c : Core) (x : Ctx) (lit : Bool) : List CFault :=
  c.illFaults x.desc x.t 4 fun a =>
    a == 8192 * x.col.code + x.addr || (lit && a == 8192 * x.col.code + x.addr + 1)

/-- The next word of column `col` of core `k`, due at task cycle `t`: its encoding is checked (R100, R104, R105), its
rendezvous (R27), and the column moves on. -/
def State.fetch (s : State) (sh : Sheet) (k : Nat) (c : Core) (col : Col) (t : Nat) : Fetched :=
  let o := c.col col
  let x := o.context k col t
  let a := o.cu.pc
  if 0x1FFF < a then .still (s.refuseWord k c { x with addr := 0x2000, word := 0 } cIllegal)
  else if o.tagged a then .still (s.refuseWord k c x cLiteral)
  else
    match decode col x.word.toNat (o.literal a) with
    | .error _ => .still (s.refuseWord k c x cIllegal)
    | .ok d =>
      let ill := c.illCode x d.ins.literal.isSome
      if !d.ins.literalOk then .still (s.refuseWord k c x cIllegal)
      else if !ill.isEmpty then .still ((s.setCore k (c.pass col t)).raiseAll sh.id ill)
      else if d.y && sh.lenient && !c.bundled t then .still (s.setCore k (c.pass col t))
      else
        let r := if ownPace d.ins then ({ o.cu with due := t + 1 }, []) else o.after k t d.ins.literal.isSome
        let c1 := c.setCursor col { r.1 with yAt := if d.y then some t else r.1.yAt }
        let s1 := ({ s with cur := x }.setCore k c1).postAll sh.t0 sh.id r.2
        if d.y && !c.bundled t then
          .run (s1.raiseAll sh.id [⟨cMiss, mRendezvous, x.desc, t, w64 (c.yMask t), 0, 0⟩]) d.ins
        else .run s1 d.ins

end Sys2Proof.Machine
end

