-- ==== Sys2Proof/Machine/Record.lean ====
section
/-! DEFINITION. The fields of a launch record (R299) and what a sheet takes from them. -/

namespace Sys2Proof.Machine

/-- Bits of a record word. -/
def rfld (ws : List W64) (n lo w : Nat) : Nat := bits (ws.getD n 0).toNat lo w

def recRetry (ws : List W64) : Nat := rfld ws 0 16 4
def recQueue (ws : List W64) : Nat := rfld ws 0 0 6
def recPin (ws : List W64) : Bool := rfld ws 0 25 1 == 1
def recVpol (ws : List W64) : Bool := rfld ws 0 24 1 == 1
def recPriv (ws : List W64) : Bool := rfld ws 0 23 1 == 1
def recLen (ws : List W64) : Bool := rfld ws 0 22 1 == 1
def recPcls (ws : List W64) : Nat := rfld ws 1 24 24
def recPkgs (ws : List W64) : Nat := rfld ws 1 10 11 + 1
def recCpp (ws : List W64) : Nat := rfld ws 1 5 5
def recPasses (ws : List W64) : Nat := rfld ws 2 0 40
def recWid (ws : List W64) (j : Nat) : Nat := rfld ws 3 (5 * j) 5
def recLim (ws : List W64) (j : Nat) : Nat := rfld ws (4 + j / 2) (24 * (j % 2)) 24 + 1
def recSpan (ws : List W64) : Nat := rfld ws 7 0 40
def recWdog (ws : List W64) : Nat := rfld ws 8 0 48
def recQuota (ws : List W64) : Nat := rfld ws 9 32 32
def recHi (ws : List W64) : Nat := rfld ws 9 16 16
def recLo (ws : List W64) : Nat := rfld ws 9 0 16
def recImage (ws : List W64) : Nat := rfld ws 10 0 48
def recNreg (ws : List W64) : Nat := rfld ws 11 48 6
def recRegt (ws : List W64) : Nat := rfld ws 11 0 48
def recGrpt (ws : List W64) : Nat := rfld ws 12 0 48
def recPlan (ws : List W64) : Nat := rfld ws 13 0 48
def recSave (ws : List W64) : Nat := rfld ws 14 0 48
def recPmask (ws : List W64) : Nat := rfld ws 15 32 32
def recPbank (ws : List W64) : Nat := rfld ws 15 0 24
def recDep (ws : List W64) (k : Nat) : Nat := rfld ws (16 + k / 4) (16 * (k % 4)) 16
def recArg (ws : List W64) (i : Nat) : W64 := ws.getD (18 + i) 0

/-- Reserved bits of words 0 to 22: (word, lowest bit, bits). -/
def recReserved : List (Nat × Nat × Nat) :=
  [(0, 26, 30), (0, 20, 2), (0, 6, 10), (1, 48, 16), (1, 21, 3), (1, 0, 5), (2, 40, 24), (3, 30, 34), (4, 48, 16),
   (5, 48, 16), (6, 48, 16), (7, 40, 24), (8, 48, 16), (10, 48, 16), (11, 54, 10), (12, 48, 16), (13, 48, 16),
   (14, 48, 16), (15, 24, 8), (16, 14, 1), (16, 30, 1), (16, 46, 1), (16, 62, 1), (17, 14, 1), (17, 30, 1), (17, 46, 1),
   (17, 62, 1), (21, 0, 64), (22, 0, 64)]

/-- A reserved bit of a record, or of a launch header, which has its layout (R298), is set. -/
def recReservedSet (ws : List W64) : Bool := recReserved.any fun r => rfld ws r.1 r.2.1 r.2.2 != 0

/-- W, the work items (R13). -/
def recWork (ws : List W64) : Nat := ((List.range 6).map (recLim ws)).foldl (· * ·) 1

/-- G, the gang size (R11). -/
def recGang (ws : List W64) : Nat := 8 * recCpp ws * recPkgs ws

/-- Field j of the work identifier of index LIN (R14). -/
def workField (ws : List W64) (lin j : Nat) : Nat :=
  lin / ((List.range j).map (recLim ws)).foldl (· * ·) 1 % recLim ws j

/-- WIDB (R15). -/
def widbOf (ws : List W64) (lin : BitVec 40) : W64 :=
  w64 (lin.toNat + (if lin.toNat < recWork ws then 2 ^ 63 else 0))

end Sys2Proof.Machine
end

