-- ==== Sys2Proof/Machine/Common.lean ====
section
/-! DEFINITION. The common group (R101), IF and REP (R106 to R109), rotating loops (R181 to R184), the lenient stall
(R31). MARK and BRK stand with the debug block. -/

namespace Sys2Proof.Machine

/-- IDLE n occupies n cycles (R22). -/
def execIdle (n : BitVec 20) (s : State) : Host.Outcome State Fault Refusal :=
  s.issueOn fun x c => c.goOn x (x.addr + 1) (x.t + n.toNat)

/-- ALIGN issues at task cycle 0 and starts its column (R22, R25); misplaced ones are found at load (R26). -/
def execAlign (s : State) : Host.Outcome State Fault Refusal := .next s

/-- END stops its column (R25); the sheet has ended when every column has and its transfers are done (R33). -/
def execEndc (s : State) : Host.Outcome State Fault Refusal :=
  s.issueOn fun x c =>
    (Eff.ok (c.setCursor x.col { x.prev with yAt := (c.col x.col).cu.yAt, ended := some x.t, loops := [] })).also
      [(x.t, phStop, .sheetEnd c.sh)]

/-- A q-register: 64 words of 16 bits; q0 is all ones (R148, R160). -/
def Core.qget (c : Core) (n : Nat) : List Half :=
  if n = 0 then List.replicate 64 0xFFFF else Tab.slice 0 c.q (64 * n) 64

def Core.qset (c : Core) (n : Nat) (w : List Half) : Core :=
  if n = 0 then c else { c with q := Tab.splice 0 (64 * n) w c.q }

/-- The q-register that a V word writes, if it writes one. -/
def qWritten (w : Nat) : Option Nat :=
  match bits w 23 6 with
  | 0x18 | 0x19 | 0x28 | 0x29 | 0x2A | 0x2B => some (bits w 19 4)
  | 0x3C => some (bits w 4 4)
  | _ => none

/-- What a rotating body may not hold: a loop, RRB, a write of a stage predicate (R181). A literal is none (R105). DESIGN CHOICE
(log entry 49): a word counts by its major and minor and the fields that R181 looks at, whatever its other bits hold. -/
def Column.rotatable (o : Column) (a last st : Nat) : Bool :=
  (List.range (last - a)).all fun i =>
    let w := (o.word (a + 1 + i)).toNat
    o.tagged (a + 1 + i) || (!(bits w 23 6 == 0 && (bits w 19 4 == 4 || bits w 19 4 == 5))
      && !(bits w 23 6 == 0x3E && bits w 0 2 == 1)
      && ((qWritten w).all fun q => decide (q < 8) || decide (8 + st ≤ q)))

/-- The stage count of a loop that the word being executed opens, if it rotates (R181). -/
def Core.stages (c : Core) (x : Ctx) : Option Nat :=
  let stg := bits c.shape.toNat 0 3
  if x.col == .V && decide (1 ≤ stg) then some (stg + 1) else none

/-- The body of the loop at the word being executed may not stand (R102, R181). -/
def Core.badLoop (c : Core) (x : Ctx) (last : Nat) : Bool :=
  let o := c.col x.col
  !o.loopOk x.prev x.addr last || (c.stages x).any fun st => !o.rotatable x.addr last st

/-- A loop of `n` iterations opened at the word being executed, `pad` idle cycles owed at its end (R22, R23, R181). -/
def Core.openLoop (c : Core) (x : Ctx) (last n pad : Nat) : Eff :=
  let o := c.col x.col
  if n = 0 then c.goOn x (last + 1) (x.t + 1 + pad)
  else
    let l : Loop := ⟨x.addr + 1, last, n - 1, pad, 0, (c.stages x).map fun st => (st, n)⟩
    let cu := { x.prev with pc := x.addr + 1, due := x.t + 1 + o.dOf (x.addr + 1), loops := l :: x.prev.loops,
                            gov := .plain, yAt := o.cu.yAt }
    (Eff.ok (c.setCursor x.col cu)).also
      (((c.stages x).map fun st => (x.t + 1, phTurn, Act.rotatingIterationBoundary x.k 0 n st)).toList)

/-- LOOP C, last (R22). -/
def execLoop (n : BitVec 12) (bl : BitVec 7) (s : State) : Host.Outcome State Fault Refusal :=
  s.issueOn fun x c =>
    let last := x.addr + 1 + bl.toNat
    if c.badLoop x last then Eff.illegal c x [] else c.openLoop x last n.toNat 0

/-- LOOPC: the body runs min(count, cap) times and the column idles for the rest of the cap (R23). -/
def execLoopc (r : BitVec 6) (bl : BitVec 7) (cap : BitVec 6) (s : State) : Host.Outcome State Fault Refusal :=
  s.issueOn fun x c =>
    let last := x.addr + 1 + bl.toNat
    if c.badLoop x last then Eff.illegal c x []
    else
      c.checked x [sReg r.toNat] [] [] fun c =>
        let cap := cap.toNat + 1
        let n := min (c.sget r.toNat).toNat cap
        c.openLoop x last n ((cap - n) * (c.col x.col).span 8192 (x.addr + 1) last)

/-- At the first cycle of iteration `i` of a rotating loop BASE has moved down by one and the stage predicates take
their values (R184); iteration `n` is the first cycle after the last. -/
def execRotatingIterationBoundary (k i n st : Nat) (s : State) : Host.Outcome State Fault Refusal :=
  s.atCore k fun _ _ c =>
    let c := if i = 0 then c else { c with base := c.base - 1 }
    let on := fun (j : Nat) => decide (j ≤ i) && decide (i - j + (st - 1) < n)
    let c := if i < n then
        (List.range st).foldl (fun c j => c.qset (8 + j) (List.replicate 64 (if on j then 0xFFFF else 0))) c
      else c
    Eff.ok { c with rot := decide (i < n) }

/-- The semaphore a word names: its field, or an s-register's bits 9:0 (R101, R123). -/
def Core.semIndex (c : Core) (b : BitVec 10) (e : BitVec 1) : Nat :=
  if e = 0 then b.toNat else (c.sget (b.toNat % 64)).toNat % 1024

def Core.semReads (c : Core) (b : BitVec 10) (r : BitVec 6) (e : BitVec 1) : List (Nat × Nat) :=
  (if e = 0 then [sReg r.toNat] else [sReg (b.toNat % 64), sReg r.toNat]) ++ [semReg (c.semIndex b e)]

/-- SADD adds v[31:0] to the count, seen by later cycles (R123). -/
def execSadd (b : BitVec 10) (r : BitVec 6) (e : BitVec 1) (s : State) : Host.Outcome State Fault Refusal :=
  s.issueOn fun x c =>
    c.checked x (c.semReads b r e) [] [] fun c =>
      Eff.ok (c.semAdd x.t (c.semIndex b e) ((c.sget r.toNat).toNat % 2 ^ 32) 0)

/-- A wait on a counter of a semaphore: it takes the amount, or the check fails (R123). -/
def Core.semWait (c : Core) (x : Ctx) (pend : Bool) (b : Nat) (v : W64) : Eff :=
  let m := c.semAt x.t b
  let amount := v.toNat % (if pend then 2 ^ 40 else 2 ^ 32)
  let found := if pend then m.pend.toNat else m.count.toNat
  if amount ≤ found then
    Eff.ok (c.setSem b (if pend then { m with pend := BitVec.ofNat 40 (found - amount) }
      else { m with count := BitVec.ofNat 32 (found - amount) }))
  else
    Eff.waits c (.sem x.k b pend amount,
      ⟨cMiss, mSwait, x.desc, x.t, w64 (b + (if pend then 65536 else 0)), w64 amount, w64 found⟩)

def execSwait (b : BitVec 10) (r : BitVec 6) (e : BitVec 1) (s : State) : Host.Outcome State Fault Refusal :=
  s.issueOn fun x c =>
    c.checked x (c.semReads b r e) [] [] fun c => c.semWait x false (c.semIndex b e) (c.sget r.toNat)

def execSwaitb (b : BitVec 10) (r : BitVec 6) (e : BitVec 1) (s : State) : Host.Outcome State Fault Refusal :=
  s.issueOn fun x c =>
    c.checked x (c.semReads b r e) [] [] fun c => c.semWait x true (c.semIndex b e) (c.sget r.toNat)

/-- The fault of IF or REP over a word that may not stand under it names the governed word's bits (R108, R343). -/
def Core.badGovern (c : Core) (x : Ctx) : Eff :=
  Eff.fault c x cIllegal 0 (((c.col x.col).word (x.addr + 1)).setWidth 64) 0 0

/-- The fault of a governed word whose own encoding is illegal: it is raised at the prefix's cycle and names that word (R108). -/
def Core.illGoverned (c : Core) (x : Ctx) : List CFault :=
  let o := c.col x.col
  let g := x.addr + 1
  let ok := match decode x.col (o.word g).toNat (o.literal g) with
    | .error _ => false
    | .ok d => d.ins.literalOk
  if ok then [] else [⟨cIllegal, 0, ⟨x.k, x.col, g, x.t, x.t⟩, x.t, (o.word g).setWidth 64, 0, 0⟩]

/-- IF pN reads its predicate and governs the next word, which issues in the same cycle (R106). -/
def execIfp (p : BitVec 3) (s : State) : Host.Outcome State Fault Refusal :=
  s.issueOn fun x c =>
    let o := c.col x.col
    if !o.governable x.prev false (x.addr + 1) then c.badGovern x
    else
      c.checked x [pReg p.toNat] [] (c.illGoverned x) fun c =>
        Eff.ok (c.setCursor x.col { x.prev with pc := x.addr + 1, due := x.t, gov := .cond (c.pget p.toNat) x.t,
                                                yAt := o.cu.yAt })

/-- The first v-register beyond v31 that a REP unit would name (R109). DESIGN CHOICE (log entry 50): no repetition names
none. -/
def repRange (w n stride : Nat) : Option Nat :=
  let m := bits w 23 6
  let vd := bits w 18 5 + (n - 1) * stride
  let va := bits w 13 5 + (n - 1) * stride + (if m = 0x1D then 1 else 0)
  if n = 0 then none
  else if 31 < vd then some vd
  else if m ≠ 0x20 && m ≠ 0x21 && decide (31 < va) then some va
  else none

/-- REP n, stride governs the next V word: repetition i issues at the cycle of the REP + i, with SHAPE as it stands now
(R107, R109, R146). REP 0 checks its word and executes nothing. -/
def execRep (n : BitVec 5) (stride : BitVec 4) (s : State) : Host.Outcome State Fault Refusal :=
  s.issueOn fun x c =>
    let o := c.col x.col
    let g := x.addr + 1
    let w := (o.word g).toNat
    if !o.governable x.prev true g then c.badGovern x
    else if !(c.illGoverned x).isEmpty then (Eff.ok c).faults (c.illGoverned x)
    else
      match repRange w n.toNat stride.toNat with
      | some r => Eff.fault c x cRange 0 (w64 r) 0 0
      | none =>
        if n = 0 then c.goOn x (x.addr + 2) (x.t + 1)
        else
          Eff.ok (c.setCursor x.col { x.prev with pc := g, due := x.t, gov := .rep 0 n.toNat stride.toNat c.shape x.t,
                                                  yAt := o.cu.yAt })

/-- Repetition `i` of the REP unit in progress falls due (R161). -/
def execRepRepetition (k i : Nat) (s : State) : Host.Outcome State Fault Refusal :=
  s.atCore k fun t _ c =>
    match (c.col .V).cu.gov with
    | .rep _ n stride shape a =>
      Eff.ok (c.setCursor .V { (c.col .V).cu with due := t, gov := .rep i n stride shape a })
    | _ => Eff.ok c

/-- A condition a lenient sheet waits for holds at cycle `t`. -/
def State.waitOver (s : State) (t : Nat) : Waiting → Bool
  | .reg _ ready => decide (ready ≤ t)
  | .sem k b pend amount =>
    match s.core? k with
    | none => true
    | some c => decide (amount ≤ (if pend then (c.semAt t b).pend.toNat else (c.semAt t b).count.toNat))

/-- A column's next issue moved by the length of a stall that began at `start`; a Y-marked word that issued in the cycle
of the stall counts for its bundle when the others of it issue (R27, R31). -/
def Cursor.delay (cu : Cursor) (start by_ : Nat) : Cursor :=
  let y := if cu.yAt == some start then some (start + by_) else cu.yAt
  if cu.due < start then { cu with yAt := y }
  else
    { cu with
      due := cu.due + by_
      yAt := y
      gov := match cu.gov with
        | .rep i n st sh a => .rep i n st sh (a + by_)
        | g => g }

/-- The REP unit that a column is in. -/
def Cursor.repUnit (cu : Cursor) : Option Nat :=
  match cu.gov with
  | .rep _ _ _ _ a => some a
  | _ => none

/-- A core's columns moved by a stall. A REP unit in progress goes by its new cycle, and its own results with it
(R161). -/
def Core.delay (c : Core) (start by_ : Nat) : Core :=
  let u := (c.col .V).cu.repUnit
  let r := (((c.col .V).cu.delay start by_)).repUnit
  let c := { c with
    board := c.board.map fun p => if u.isSome && p.unit == u then { p with unit := r } else p
    fwd := c.fwd.map fun e => if some e.unit == u then { e with unit := r.getD e.unit } else e }
  allCols.foldl (fun c o => c.setCursor o ((c.col o).cu.delay start by_)) c

/-- A stalled gang's condition checked again: it holds and every column goes on where it stood, with the steps that pace
the columns moved by the length of the stall, or it is checked in the next cycle (R31, R347). -/
def execLenientStallRecheck (id : Nat) (s : State) : Host.Outcome State Fault Refusal :=
  match s.sheet? id with
  | none => .next s
  | some sh =>
    match sh.stall with
    | none => .next s
    | some (start, w) =>
      let t := s.task sh
      if s.waitOver t w then
        let s := s.updSheet id fun x => { x with stall := none, paced := [] }
        .next (State.postAll { s with
            cores := s.cores.map fun e => if e.2.sh == id then (e.1, e.2.delay start (t - start)) else e }
          sh.t0 id (sh.paced.map fun e => (e.1 + (t - start), e.2)))
      else if sh.stops.isEmpty then .next (s.post (s.ttc + 1) phStart (some id) (.lenientStallRecheck id))
      else .next s

end Sys2Proof.Machine
end

