-- ==== Sys2Proof/Machine/Scalar.lean ====
section
/-! DEFINITION. Integer, predicate, constant and FP32 words of the S column (R125 to R130, R134, R135). Each reads its
operands at issue and writes its result at issue + L (R121). -/

namespace Sys2Proof.Machine

/-- An immediate sign-extended to 64 bits. -/
def simm (i : BitVec 11) : W64 := i.signExtend 64

/-- Two sources and a destination, integer: no flag. -/
def intOp (rd ra rb : BitVec 6) (lat : Nat) (f : W64 → W64 → W64) (x : Ctx) (c : Core) : Eff :=
  scalarOp [sReg ra.toNat, sReg rb.toNat] (.s rd.toNat) lat (fun c => (f (c.sget ra.toNat) (c.sget rb.toNat), 0)) x c

/-- One source and an immediate. -/
def immOp (rd ra : BitVec 6) (lat : Nat) (f : W64 → W64) (x : Ctx) (c : Core) : Eff :=
  scalarOp [sReg ra.toNat] (.s rd.toNat) lat (fun c => (f (c.sget ra.toNat), 0)) x c

/-- The quotient of R125, truncated toward zero; a zero divisor gives all ones, -2^63 by -1 gives -2^63. -/
def divS (a b : W64) : W64 :=
  if b = 0 then 0xFFFFFFFFFFFFFFFF
  else if a = 0x8000000000000000 && b = 0xFFFFFFFFFFFFFFFF then a
  else BitVec.ofInt 64 (a.toInt.tdiv b.toInt)

/-- The remainder of R125. -/
def remS (a b : W64) : W64 :=
  if b = 0 then a
  else if a = 0x8000000000000000 && b = 0xFFFFFFFFFFFFFFFF then 0
  else BitVec.ofInt 64 (a.toInt.tmod b.toInt)

/-- Bits 127:64 of the signed product. -/
def mulhS (a b : W64) : W64 := BitVec.ofInt 64 (a.toInt * b.toInt / (2 ^ 64 : Nat))

/-- Shift distance b[5:0]. -/
def dist (b : W64) : Nat := b.toNat % 64

/-- Leading zeros of the low `w` bits. -/
def leadingZeros (w x : Nat) : Nat := if x = 0 then w else w - 1 - Nat.log2 x

/-- Ones among the low `w` bits. -/
def popCount : Nat → Nat → Nat
  | 0, _ => 0
  | w + 1, x => x % 2 + popCount w (x / 2)

def minS (a b : W64) : W64 := if a.slt b then a else b
def maxS (a b : W64) : W64 := if a.slt b then b else a

/-! Register forms (R125). -/

def execAdd (rd ra rb : BitVec 6) (s : State) : Host.Outcome State Fault Refusal :=
  s.issueOn (intOp rd ra rb 1 fun a b => a + b)

def execSub (rd ra rb : BitVec 6) (s : State) : Host.Outcome State Fault Refusal :=
  s.issueOn (intOp rd ra rb 1 fun a b => a - b)

def execMul (rd ra rb : BitVec 6) (s : State) : Host.Outcome State Fault Refusal :=
  s.issueOn (intOp rd ra rb 3 fun a b => a * b)

def execMulh (rd ra rb : BitVec 6) (s : State) : Host.Outcome State Fault Refusal :=
  s.issueOn (intOp rd ra rb 3 fun a b => mulhS a b)

def execDiv (rd ra rb : BitVec 6) (s : State) : Host.Outcome State Fault Refusal :=
  s.issueOn (intOp rd ra rb 10 fun a b => divS a b)

def execRem (rd ra rb : BitVec 6) (s : State) : Host.Outcome State Fault Refusal :=
  s.issueOn (intOp rd ra rb 10 fun a b => remS a b)

def execSmin (rd ra rb : BitVec 6) (s : State) : Host.Outcome State Fault Refusal :=
  s.issueOn (intOp rd ra rb 1 fun a b => minS a b)

def execSmax (rd ra rb : BitVec 6) (s : State) : Host.Outcome State Fault Refusal :=
  s.issueOn (intOp rd ra rb 1 fun a b => maxS a b)

def execSand (rd ra rb : BitVec 6) (s : State) : Host.Outcome State Fault Refusal :=
  s.issueOn (intOp rd ra rb 1 fun a b => a &&& b)

def execSor (rd ra rb : BitVec 6) (s : State) : Host.Outcome State Fault Refusal :=
  s.issueOn (intOp rd ra rb 1 fun a b => a ||| b)

def execSxor (rd ra rb : BitVec 6) (s : State) : Host.Outcome State Fault Refusal :=
  s.issueOn (intOp rd ra rb 1 fun a b => a ^^^ b)

def execAndn (rd ra rb : BitVec 6) (s : State) : Host.Outcome State Fault Refusal :=
  s.issueOn (intOp rd ra rb 1 fun a b => a &&& ~~~ b)

def execShl (rd ra rb : BitVec 6) (s : State) : Host.Outcome State Fault Refusal :=
  s.issueOn (intOp rd ra rb 1 fun a b => a <<< dist b)

def execShr (rd ra rb : BitVec 6) (s : State) : Host.Outcome State Fault Refusal :=
  s.issueOn (intOp rd ra rb 1 fun a b => a >>> dist b)

def execSar (rd ra rb : BitVec 6) (s : State) : Host.Outcome State Fault Refusal :=
  s.issueOn (intOp rd ra rb 1 fun a b => a.sshiftRight (dist b))

def execClz (rd ra : BitVec 6) (s : State) : Host.Outcome State Fault Refusal :=
  s.issueOn (immOp rd ra 1 fun a => w64 (leadingZeros 64 a.toNat))

def execPopc (rd ra : BitVec 6) (s : State) : Host.Outcome State Fault Refusal :=
  s.issueOn (immOp rd ra 1 fun a => w64 (popCount 64 a.toNat))

/-! Immediate forms (R126). -/

def execAddi (rd ra : BitVec 6) (i : BitVec 11) (s : State) : Host.Outcome State Fault Refusal :=
  s.issueOn (immOp rd ra 1 fun a => a + simm i)

def execMuli (rd ra : BitVec 6) (i : BitVec 11) (s : State) : Host.Outcome State Fault Refusal :=
  s.issueOn (immOp rd ra 3 fun a => a * simm i)

def execAndi (rd ra : BitVec 6) (i : BitVec 11) (s : State) : Host.Outcome State Fault Refusal :=
  s.issueOn (immOp rd ra 1 fun a => a &&& simm i)

def execOri (rd ra : BitVec 6) (i : BitVec 11) (s : State) : Host.Outcome State Fault Refusal :=
  s.issueOn (immOp rd ra 1 fun a => a ||| simm i)

def execXori (rd ra : BitVec 6) (i : BitVec 11) (s : State) : Host.Outcome State Fault Refusal :=
  s.issueOn (immOp rd ra 1 fun a => a ^^^ simm i)

def execMini (rd ra : BitVec 6) (i : BitVec 11) (s : State) : Host.Outcome State Fault Refusal :=
  s.issueOn (immOp rd ra 1 fun a => minS a (simm i))

def execShli (rd ra : BitVec 6) (i : BitVec 11) (s : State) : Host.Outcome State Fault Refusal :=
  s.issueOn (immOp rd ra 1 fun a => a <<< i.toNat)

def execShri (rd ra : BitVec 6) (i : BitVec 11) (s : State) : Host.Outcome State Fault Refusal :=
  s.issueOn (immOp rd ra 1 fun a => a >>> i.toNat)

def execSari (rd ra : BitVec 6) (i : BitVec 11) (s : State) : Host.Outcome State Fault Refusal :=
  s.issueOn (immOp rd ra 1 fun a => a.sshiftRight i.toNat)

/-! Compares and predicate logic (R127, R128). -/

/-- A predicate result from two s-registers. -/
def cmpOp (pd : BitVec 3) (ra rb : BitVec 6) (f : W64 → W64 → Bool) (x : Ctx) (c : Core) : Eff :=
  scalarOp [sReg ra.toNat, sReg rb.toNat] (.p pd.toNat) 1
    (fun c => (if f (c.sget ra.toNat) (c.sget rb.toNat) then 1 else 0, 0)) x c

/-- A predicate result from an s-register and an immediate. -/
def cmpImm (pd : BitVec 3) (ra : BitVec 6) (i : BitVec 11) (f : W64 → W64 → Bool) (x : Ctx) (c : Core) : Eff :=
  scalarOp [sReg ra.toNat] (.p pd.toNat) 1 (fun c => (if f (c.sget ra.toNat) (simm i) then 1 else 0, 0)) x c

/-- A predicate result from two p-registers. -/
def predOp (pd pa pb : BitVec 3) (f : Bool → Bool → Bool) (x : Ctx) (c : Core) : Eff :=
  scalarOp [pReg pa.toNat, pReg pb.toNat] (.p pd.toNat) 1
    (fun c => (if f (c.pget pa.toNat) (c.pget pb.toNat) then 1 else 0, 0)) x c

/-- A predicate and flags from two FP32 values, at issue + 2 (R127). -/
def fcmpOp (pd : BitVec 3) (ra rb : BitVec 6) (f : Nat → Nat → Bool × Flags) (x : Ctx) (c : Core) : Eff :=
  scalarOp [sReg ra.toNat, sReg rb.toNat] (.p pd.toNat) 2
    (fun c =>
      let r := f ((c.sget ra.toNat).toNat % 2 ^ 32) ((c.sget rb.toNat).toNat % 2 ^ 32)
      (if r.1 then 1 else 0, r.2)) x c

def execCeq (pd : BitVec 3) (ra rb : BitVec 6) (s : State) : Host.Outcome State Fault Refusal :=
  s.issueOn (cmpOp pd ra rb fun a b => a == b)

def execCeqi (pd : BitVec 3) (ra : BitVec 6) (i : BitVec 11) (s : State) : Host.Outcome State Fault Refusal :=
  s.issueOn (cmpImm pd ra i fun a b => a == b)

def execCne (pd : BitVec 3) (ra rb : BitVec 6) (s : State) : Host.Outcome State Fault Refusal :=
  s.issueOn (cmpOp pd ra rb fun a b => a != b)

def execCnei (pd : BitVec 3) (ra : BitVec 6) (i : BitVec 11) (s : State) : Host.Outcome State Fault Refusal :=
  s.issueOn (cmpImm pd ra i fun a b => a != b)

def execClt (pd : BitVec 3) (ra rb : BitVec 6) (s : State) : Host.Outcome State Fault Refusal :=
  s.issueOn (cmpOp pd ra rb fun a b => a.slt b)

def execClti (pd : BitVec 3) (ra : BitVec 6) (i : BitVec 11) (s : State) : Host.Outcome State Fault Refusal :=
  s.issueOn (cmpImm pd ra i fun a b => a.slt b)

def execCge (pd : BitVec 3) (ra rb : BitVec 6) (s : State) : Host.Outcome State Fault Refusal :=
  s.issueOn (cmpOp pd ra rb fun a b => !(a.slt b))

def execCgei (pd : BitVec 3) (ra : BitVec 6) (i : BitVec 11) (s : State) : Host.Outcome State Fault Refusal :=
  s.issueOn (cmpImm pd ra i fun a b => !(a.slt b))

def execCltu (pd : BitVec 3) (ra rb : BitVec 6) (s : State) : Host.Outcome State Fault Refusal :=
  s.issueOn (cmpOp pd ra rb fun a b => a.ult b)

def execCltui (pd : BitVec 3) (ra : BitVec 6) (i : BitVec 11) (s : State) : Host.Outcome State Fault Refusal :=
  s.issueOn (cmpImm pd ra i fun a b => a.ult b)

def execCgeu (pd : BitVec 3) (ra rb : BitVec 6) (s : State) : Host.Outcome State Fault Refusal :=
  s.issueOn (cmpOp pd ra rb fun a b => !(a.ult b))

def execCgeui (pd : BitVec 3) (ra : BitVec 6) (i : BitVec 11) (s : State) : Host.Outcome State Fault Refusal :=
  s.issueOn (cmpImm pd ra i fun a b => !(a.ult b))

def execPand (pd pa pb : BitVec 3) (s : State) : Host.Outcome State Fault Refusal :=
  s.issueOn (predOp pd pa pb fun a b => a && b)

def execPor (pd pa pb : BitVec 3) (s : State) : Host.Outcome State Fault Refusal :=
  s.issueOn (predOp pd pa pb fun a b => a || b)

def execPxor (pd pa pb : BitVec 3) (s : State) : Host.Outcome State Fault Refusal :=
  s.issueOn (predOp pd pa pb fun a b => a != b)

def execPandn (pd pa pb : BitVec 3) (s : State) : Host.Outcome State Fault Refusal :=
  s.issueOn (predOp pd pa pb fun a b => a && !b)

/-- SEL picks ra when pN is 1 and rb otherwise (R129). -/
def execSel (rd ra rb : BitVec 6) (p : BitVec 3) (s : State) : Host.Outcome State Fault Refusal :=
  s.issueOn (scalarOp [sReg ra.toNat, sReg rb.toNat, pReg p.toNat] (.s rd.toNat) 1 fun c =>
    (if c.pget p.toNat then c.sget ra.toNat else c.sget rb.toNat, 0))

def execFceq (pd : BitVec 3) (ra rb : BitVec 6) (s : State) : Host.Outcome State Fault Refusal :=
  s.issueOn (fcmpOp pd ra rb fp32.feq)

def execFclt (pd : BitVec 3) (ra rb : BitVec 6) (s : State) : Host.Outcome State Fault Refusal :=
  s.issueOn (fcmpOp pd ra rb fp32.flt)

def execFcle (pd : BitVec 3) (ra rb : BitVec 6) (s : State) : Host.Outcome State Fault Refusal :=
  s.issueOn (fcmpOp pd ra rb fp32.fle)

/-! Constants and literals (R130). -/

def execLdk (rd : BitVec 6) (i : BitVec 17) (s : State) : Host.Outcome State Fault Refusal :=
  s.issueOn (scalarOp [] (.s rd.toNat) 1 fun _ => (i.signExtend 64, 0))

def execLit (rd : BitVec 6) (v : W32) (s : State) : Host.Outcome State Fault Refusal :=
  s.issueOn (scalarOp [] (.s rd.toNat) 1 fun _ => (v.setWidth 64, 0))

/-- The constant bank is written by the loader alone (R130). -/
def execLdc (rd : BitVec 6) (n : BitVec 8) (s : State) : Host.Outcome State Fault Refusal :=
  s.issueOn (scalarOp [constReg n.toNat] (.s rd.toNat) 1 fun c => ((Tab.get 0 c.cbank n.toNat).setWidth 64, 0))

/-- LDKH replaces 16 bits of rd. -/
def execLdkh (q : BitVec 2) (rd : BitVec 6) (i : BitVec 16) (s : State) : Host.Outcome State Fault Refusal :=
  s.issueOn (scalarOp [sReg rd.toNat] (.s rd.toNat) 1 fun c =>
    let sh := 16 * q.toNat
    ((c.sget rd.toNat &&& ~~~ (0xFFFF#64 <<< sh)) ||| (i.setWidth 64 <<< sh), 0))

/-! Scalar FP32, rounded to nearest even (R134). -/

/-- An FP32 operand: bits 31:0 (R121). -/
def f32 (v : W64) : Nat := v.toNat % 2 ^ 32

def floatOp (rd ra rb : BitVec 6) (lat : Nat) (f : Nat → Nat → FRes) (x : Ctx) (c : Core) : Eff :=
  scalarOp [sReg ra.toNat, sReg rb.toNat] (.s rd.toNat) lat
    (fun c =>
      let r := f (f32 (c.sget ra.toNat)) (f32 (c.sget rb.toNat))
      (w64 r.1, r.2)) x c

/-- rd joined with a BF16 immediate. -/
def floatImm (rd : BitVec 6) (f : Nat → FRes) (x : Ctx) (c : Core) : Eff :=
  scalarOp [sReg rd.toNat] (.s rd.toNat) 4
    (fun c =>
      let r := f (f32 (c.sget rd.toNat))
      (w64 r.1, r.2)) x c

def execFadd (rd ra rb : BitVec 6) (s : State) : Host.Outcome State Fault Refusal :=
  s.issueOn (floatOp rd ra rb 4 (fp32.fadd 0))

def execFsub (rd ra rb : BitVec 6) (s : State) : Host.Outcome State Fault Refusal :=
  s.issueOn (floatOp rd ra rb 4 (fp32.fsub 0))

def execFmul (rd ra rb : BitVec 6) (s : State) : Host.Outcome State Fault Refusal :=
  s.issueOn (floatOp rd ra rb 4 (fp32.fmul 0))

def execFdiv (rd ra rb : BitVec 6) (s : State) : Host.Outcome State Fault Refusal :=
  s.issueOn (floatOp rd ra rb 12 (fp32.fdiv 0))

def execFmin (rd ra rb : BitVec 6) (s : State) : Host.Outcome State Fault Refusal :=
  s.issueOn (floatOp rd ra rb 4 (fp32.fminmax false))

def execFmax (rd ra rb : BitVec 6) (s : State) : Host.Outcome State Fault Refusal :=
  s.issueOn (floatOp rd ra rb 4 (fp32.fminmax true))

def execFsqrt (rd ra : BitVec 6) (s : State) : Host.Outcome State Fault Refusal :=
  s.issueOn (scalarOp [sReg ra.toNat] (.s rd.toNat) 12 fun c =>
    let r := fp32.fsqrt 0 (f32 (c.sget ra.toNat))
    (w64 r.1, r.2))

/-- a × b + c rounded once, c the old rd. -/
def execFfma (rd ra rb : BitVec 6) (s : State) : Host.Outcome State Fault Refusal :=
  s.issueOn (scalarOp [sReg ra.toNat, sReg rb.toNat, sReg rd.toNat] (.s rd.toNat) 4 fun c =>
    let r := fp32.ffma 0 (f32 (c.sget ra.toNat)) (f32 (c.sget rb.toNat)) (f32 (c.sget rd.toNat)) false false
    (w64 r.1, r.2))

def execFaddi (rd : BitVec 6) (h : BitVec 16) (s : State) : Host.Outcome State Fault Refusal :=
  s.issueOn (floatImm rd fun a => fp32.fadd 0 a (immF32 h))

def execFmuli (rd : BitVec 6) (h : BitVec 16) (s : State) : Host.Outcome State Fault Refusal :=
  s.issueOn (floatImm rd fun a => fp32.fmul 0 a (immF32 h))

/-- An FP32 value as a signed 64-bit integer (R135). -/
def toInt64 (rm a : Nat) : W64 × Flags :=
  let r := toRange (-(2 ^ 63 : Nat)) ((2 ^ 63 : Nat) - 1) rm (fp32.value a)
  (BitVec.ofInt 64 r.1, r.2.1)

def execFtoi (rd ra : BitVec 6) (s : State) : Host.Outcome State Fault Refusal :=
  s.issueOn (scalarOp [sReg ra.toNat] (.s rd.toNat) 2 fun c => toInt64 0 (f32 (c.sget ra.toNat)))

def execFtoiz (rd ra : BitVec 6) (s : State) : Host.Outcome State Fault Refusal :=
  s.issueOn (scalarOp [sReg ra.toNat] (.s rd.toNat) 2 fun c => toInt64 1 (f32 (c.sget ra.toNat)))

def execItof (rd ra : BitVec 6) (s : State) : Host.Outcome State Fault Refusal :=
  s.issueOn (scalarOp [sReg ra.toNat] (.s rd.toNat) 2 fun c =>
    let r := fp32.pack 0 (FV.ofInt (c.sget ra.toNat).toInt)
    (w64 r.1, r.2))

end Sys2Proof.Machine
end

