-- ==== Sys2Proof/Machine/ScalarMem.lean ====
section
/-! DEFINITION. Scratchpad loads, stores and atomics of the S column (R131 to R133), register writeback (R121). -/

namespace Sys2Proof.Machine

/-- The effective address s[ra] + OFF × size (R131). -/
def Core.effAddr (c : Core) (ra : BitVec 6) (off : BitVec 8) (size : Nat) : W64 :=
  c.sget ra.toNat + BitVec.ofInt 64 (off.toInt * size)

/-- The faults of an S address (R131). -/
def addrFaults (x : Ctx) (a : W64) (size : Nat) : List CFault :=
  if spadSize ≤ a.toNat || a.toNat % size != 0 then [⟨cRegion, rScratch, x.desc, x.t, a, 0, 0⟩] else []

/-- The fault of an S write into a protected bank (R81). -/
def Core.protFaults (c : Core) (x : Ctx) (a : W64) : List CFault :=
  if a.toNat < spadSize && c.protected_ (bankOf a.toNat) then
    [⟨cProtect, 0, x.desc, x.t, a, w64 (bankOf a.toNat), 0⟩]
  else []

/-- A load reads at t + 2 and writes rd at t + 6 (R132). -/
def loadOp (size : Nat) (sext : Bool) (rd ra : BitVec 6) (off : BitVec 8) (x : Ctx) (c : Core) : Eff :=
  if x.off then Eff.ok c
  else
    let a := c.effAddr ra off size
    c.checked x [sReg ra.toNat] [(sReg rd.toNat, x.t + 6)] (addrFaults x a size) fun c =>
      (Eff.ok c).also [(x.t + 2, phRead, .sScratchAccess x.k
        ⟨{ x.desc with start := x.t + 2 }, a.toNat, size, sext, rd.toNat, none⟩)]

/-- A store writes the low bytes of rd at t + 2 (R132). -/
def storeOp (size : Nat) (rd ra : BitVec 6) (off : BitVec 8) (x : Ctx) (c : Core) : Eff :=
  if x.off then Eff.ok c
  else
    let a := c.effAddr ra off size
    c.checked x [sReg ra.toNat, sReg rd.toNat] [] (addrFaults x a size ++ c.protFaults x a) fun c =>
      (Eff.ok c).also [(x.t + 2, phWrite, .sScratchAccess x.k
        ⟨{ x.desc with start := x.t + 2 }, a.toNat, size, false, 0, some (c.sget rd.toNat)⟩)]

def execLdb (rd ra : BitVec 6) (o : BitVec 8) (s : State) : Host.Outcome State Fault Refusal :=
  s.issueOn (loadOp 1 true rd ra o)
def execLdh (rd ra : BitVec 6) (o : BitVec 8) (s : State) : Host.Outcome State Fault Refusal :=
  s.issueOn (loadOp 2 true rd ra o)
def execLdw (rd ra : BitVec 6) (o : BitVec 8) (s : State) : Host.Outcome State Fault Refusal :=
  s.issueOn (loadOp 4 true rd ra o)
def execLdd (rd ra : BitVec 6) (o : BitVec 8) (s : State) : Host.Outcome State Fault Refusal :=
  s.issueOn (loadOp 8 false rd ra o)
def execLdbu (rd ra : BitVec 6) (o : BitVec 8) (s : State) : Host.Outcome State Fault Refusal :=
  s.issueOn (loadOp 1 false rd ra o)
def execLdhu (rd ra : BitVec 6) (o : BitVec 8) (s : State) : Host.Outcome State Fault Refusal :=
  s.issueOn (loadOp 2 false rd ra o)
def execLdwu (rd ra : BitVec 6) (o : BitVec 8) (s : State) : Host.Outcome State Fault Refusal :=
  s.issueOn (loadOp 4 false rd ra o)
def execStb (rd ra : BitVec 6) (o : BitVec 8) (s : State) : Host.Outcome State Fault Refusal :=
  s.issueOn (storeOp 1 rd ra o)
def execSth (rd ra : BitVec 6) (o : BitVec 8) (s : State) : Host.Outcome State Fault Refusal :=
  s.issueOn (storeOp 2 rd ra o)
def execStw (rd ra : BitVec 6) (o : BitVec 8) (s : State) : Host.Outcome State Fault Refusal :=
  s.issueOn (storeOp 4 rd ra o)
def execStd (rd ra : BitVec 6) (o : BitVec 8) (s : State) : Host.Outcome State Fault Refusal :=
  s.issueOn (storeOp 8 rd ra o)

/-- Bytes of an S value. -/
def someBytes (n w : Nat) : List (Option Byte) := (leBytes n w).map some

/-- The value of loaded bytes: zero-extended, or sign-extended from its size. -/
def extend (size : Nat) (sext : Bool) (bs : List Byte) : W64 :=
  if sext then BitVec.ofInt 64 (signedOf (8 * size) (leNat bs)) else w64 (leNat bs)

/-- The write of an S store at issue + 2 (R132). -/
def Core.storeScratch (c : Core) (t fr : Nat) (a : SAccess) (v : W64) : Eff :=
  let data := someBytes a.size v.toNat
  let ok := c.admits t false a.addr data a.d
  (c.writeBank t fr false a.addr data 0 a.d).andThen fun c =>
    Eff.ok (if ok then c.bumpPlain t (framesOf a.addr a.size) else c)

/-- An ATOM holds its line from t + 2 to t + 4 (R88, R133). -/
def atomOp (op : AtomKind) (rd ra rb : BitVec 6) (sz : BitVec 2) (x : Ctx) (c : Core) : Eff :=
  if x.off then Eff.ok c
  else
    let size := if sz = 0 then 4 else 8
    let a := c.sget ra.toNat
    c.checked x [sReg ra.toNat, sReg rb.toNat, sReg rd.toNat] [(sReg rd.toNat, x.t + 5)]
      (addrFaults x a size ++ c.protFaults x a) fun c =>
        let d := { x.desc with start := x.t + 2 }
        let c := { c with rmw := (c.rmw.filter fun r => decide (x.t ≤ r.hi)) ++
          [⟨a.toNat / 64, x.t + 2, x.t + 4, d, false⟩] }
        (Eff.ok c).also [(x.t + 2, phRead, .atomRead x.k
          ⟨d, op, a.toNat, size, c.sget rb.toNat, c.sget rd.toNat, rd.toNat⟩)]

def execAtomadd (rd ra rb : BitVec 6) (sz : BitVec 2) (s : State) : Host.Outcome State Fault Refusal :=
  s.issueOn (atomOp .add rd ra rb sz)
def execAtommin (rd ra rb : BitVec 6) (sz : BitVec 2) (s : State) : Host.Outcome State Fault Refusal :=
  s.issueOn (atomOp .min rd ra rb sz)
def execAtommax (rd ra rb : BitVec 6) (sz : BitVec 2) (s : State) : Host.Outcome State Fault Refusal :=
  s.issueOn (atomOp .max rd ra rb sz)
def execAtomswp (rd ra rb : BitVec 6) (sz : BitVec 2) (s : State) : Host.Outcome State Fault Refusal :=
  s.issueOn (atomOp .swp rd ra rb sz)
def execAtomcas (rd ra rb : BitVec 6) (sz : BitVec 2) (s : State) : Host.Outcome State Fault Refusal :=
  s.issueOn (atomOp .cas rd ra rb sz)

/-- What an atomic writes, if it writes (R133). -/
def atomNew (op : AtomKind) (size : Nat) (m b e : Int) : Option Int :=
  match op with
  | .add => some (m + b)
  | .min => some (min m b)
  | .max => some (max m b)
  | .swp => some b
  | .cas => if m % (2 ^ (8 * size) : Nat) = e % (2 ^ (8 * size) : Nat) then some b else none

/-- The window of an atomic meets the accesses already made in its read cycle to its line (R88). -/
def execAtomRead (k : Nat) (a : AtomOp) (s : State) : Host.Outcome State Fault Refusal :=
  s.atCore k fun t fr c =>
    let r := c.readBank t fr noRace a.addr a.size 0 a.d
    match r.2 with
    | some bs =>
      let m := signedOf (8 * a.size) (leNat bs)
      r.1.also [(t + 3, phStart, .registerWriteback k (.s a.rd) (BitVec.ofInt 64 m) 0),
        (t + 2, phAtom, .atomWrite k a (BitVec.ofInt 64 m))]
    | none => r.1

/-- The write of an atomic at issue + 4; a collision inside its window voids it (R88, R133). -/
def Core.storeAtom (c : Core) (t fr : Nat) (a : AtomOp) (old : W64) : Eff :=
  let void := c.rmw.any fun r => sameWord r.d a.d && r.void
  let c1 := { c with rmw := c.rmw.filter fun r => !(sameWord r.d a.d) }
  let w := 8 * a.size
  match atomNew a.op a.size (signedOf w old.toNat) (signedOf w a.b.toNat) (signedOf w a.e.toNat) with
  | some v =>
    if void then Eff.ok c1
    else
      let data := someBytes a.size (wrapTo w v)
      let ok := c1.admits t false a.addr data a.d
      (c1.writeBank t fr false a.addr data 0 a.d).andThen fun c =>
        Eff.ok (if ok then c.bumpPlain t (framesOf a.addr a.size) else c)
  | none => Eff.ok c1

def execAtomWrite (k : Nat) (a : AtomOp) (old : W64) (s : State) : Host.Outcome State Fault Refusal :=
  s.atCore k fun t fr c => c.storeAtom t fr a old

/-- A special register takes a value (R78, R138, R145, R182); a SHAPE with a reserved element type and a bank format
12 to 15 were refused at issue. -/
def Core.spWrite (c : Core) (n : Nat) (v : W64) : Core :=
  if n = 9 then { c with shape := v.setWidth 21 }
  else if n = 10 then { c with base := v.setWidth 4 }
  else if 32 ≤ n && n ≤ 55 then { c with bfmt := Tab.set 0x3F800000 (n - 32) (v.setWidth 39) c.bfmt }
  else if 64 ≤ n && n ≤ 159 then { c with bcb := Tab.set 0 (n - 64) v c.bcb }
  else c

/-- A result is written at issue + L and its flags are set (R61, R121). -/
def execRegisterWriteback (k : Nat) (r : RegRef) (v : W64) (fl : BitVec 6) (s : State) :
    Host.Outcome State Fault Refusal :=
  s.atCore k fun t _ c =>
    let c := match r with
      | .s n => c.sset n v
      | .p n => c.pset n (v.getLsbD 0)
      | .sp n => c.spWrite n v
    Eff.ok (if fl = 0 then c else c.setFlags t fl)

end Sys2Proof.Machine
end

