-- ==== Sys2Proof/Machine/ScalarSys.lean ====
section
/-! DEFINITION. Work identifiers, special registers, the slot calendar and ABORT (R136 to R144). -/

namespace Sys2Proof.Machine

/-- The record words of the sheet a core runs. -/
def State.wordsOf (s : State) (k : Nat) : List W64 :=
  match s.core? k with
  | none => []
  | some c => match s.sheet? c.sh with
    | none => []
    | some sh => sh.words

/-- WID rd, j (R136): field j of the identifier of LIN as this word finds it. -/
def execWid (rd : BitVec 6) (j : BitVec 9) (s : State) : Host.Outcome State Fault Refusal :=
  let ws := s.wordsOf s.cur.k
  s.issueOn (scalarOp [] (.s rd.toNat) 1 fun c => (w64 (workField ws c.lin.toNat j.toNat), 0))

/-- WIDN rd (R137): LIN moves on by the gang size, saturating; rd takes the new WIDB. -/
def execWidn (rd : BitVec 6) (s : State) : Host.Outcome State Fault Refusal :=
  let ws := s.wordsOf s.cur.k
  s.issueOn fun x c =>
    if x.off then Eff.ok c
    else
      c.checked x [] [(sReg rd.toNat, x.t + 1)] [] fun c =>
        let lin := BitVec.ofNat 40 (min (c.lin.toNat + recGang ws) (2 ^ 40 - 1))
        (Eff.ok { c with lin := lin }).also [(x.t + 1, phStart, .registerWriteback x.k (.s rd.toNat) (widbOf ws lin) 0)]

/-- A sheet whose timetable runs: aligned or running, not yet ended (R312). DESIGN CHOICE (log entry 66): a saved or frozen sheet
counts; a queued, placed or ended one does not, nor one that the slot in progress aligns (R142). R341 and R377 have their own range
of states. -/
def Sheet.running (sh : Sheet) : Bool := sh.state == 5 || sh.state == 4

/-- The clock range that every running timetable allows (R142). DESIGN CHOICE (log entry 66): with no timetable running it is the
range of R377's clocks from above, 0 to 1,250 MHz. -/
def State.clockRange (s : State) : Nat × Nat :=
  (s.sheets.filter Sheet.running).foldl (fun r sh => (max r.1 (recLo sh.words), min r.2 (recHi sh.words))) (0, 1250)

/-- LEASE of a package as a major slot leaves it (R142). -/
def State.leaseNow (s : State) : W64 :=
  let r := s.clockRange
  w64 (r.2 % 65536 * 2 ^ 32 + r.1 % 65536 * 2 ^ 16 + s.mhz % 65536)

/-- TTC as a package counts it: the domain's, or its own since its reset while it is in none (R16, R337). -/
def State.ttcOf (s : State) (q : Nat) : Nat := if (s.pkg q).formed then s.ttc else s.ttc - (s.pkg q).ttcBase

/-- MODE of a sheet (R140). -/
def Sheet.mode (sh : Sheet) (prank : Nat) : W64 :=
  w64 ((sh.sec.getD prank 0).toNat * 8 + (if sh.priv then 4 else 0) + (if sh.dbg.getD prank 0 = 0 then 0 else 2) + (if sh.lenient then 1 else 0))

/-- The special registers that stand without a sheet: those of the package, of the core as reset or placement left it
(R139). -/
def State.idleSpecial (s : State) (q t : Nat) (c : Core) (n : Nat) : W64 :=
  let p := s.pkg q
  match n with
  | 0 => p.pcc
  | 1 => w64 (s.ttcOf q)
  | 4 => w64 ((s.ttcOf q / 4096 + 1) * 4096)
  | 6 => c.gang
  | 7 => w64 (p.dsize.toNat * 2 ^ 11 + p.num.toNat)
  | 8 => c.lin.setWidth 64
  | 9 => c.shape.setWidth 64
  | 10 => w64 ((if c.rot then 16 else 0) + c.base.toNat)
  | 11 => (c.flagsAt t).setWidth 64
  | 13 => p.lease
  | _ =>
    if 16 ≤ n && n ≤ 31 then c.occ_ t (n - 16)
    else if 32 ≤ n && n ≤ 55 then (c.bfmtReg (n - 32)).setWidth 64
    else if 64 ≤ n && n ≤ 159 then Tab.get 0 c.bcb (n - 64)
    else 0

/-- What RDSP returns at issue (R19, R138 to R142). -/
def State.special (s : State) (x : Ctx) (c : Core) (n : Nat) : W64 :=
  let q := keyPkg x.k
  let idle := s.idleSpecial q x.t c n
  match s.sheet? c.sh with
  | none => idle
  | some sh =>
    match n with
    | 1 => w64 (sh.t0 + x.t)
    | 2 => w64 x.t
    | 3 => w64 sh.t0
    | 4 => w64 ((s.ttc / 4096 + 1) * 4096)
    | 5 => w64 sh.holds
    | 7 => w64 (sh.part * 2 ^ 23) + idle
    | 8 => widbOf sh.words c.lin
    | 12 => sh.mode c.prank
    | _ => idle

/-- What special register `n` of core `k` holds: a core that no sheet holds stands as reset left it (log entry 55). -/
def State.specialOf (s : State) (k n : Nat) : W64 :=
  match s.core? k with
  | some c => match s.sheet? c.sh with
    | some sh => s.special { s.cur with k := k, t := s.task sh } c n
    | none => s.idleSpecial (keyPkg k) 0 c n
  | none => s.idleSpecial (keyPkg k) 0 Core.reset n

/-- RDSP rd, NAME samples the register at issue (R138). -/
def execRdsp (rd : BitVec 6) (n : BitVec 9) (s : State) : Host.Outcome State Fault Refusal :=
  s.issueOn fun x => scalarOp [] (.s rd.toNat) 1 (fun c => (s.special x c n.toNat, 0)) x

/-- WRSP sN, NAME (R138): read-only registers ignore it, FFLAGS clears the bits written 1, SHAPE and RRB take the value
from the next cycle on, bank formats take it where MODE.PRIV is 1. -/
def execWrsp (rd : BitVec 6) (n : BitVec 9) (s : State) : Host.Outcome State Fault Refusal :=
  let n := n.toNat
  s.issueOn fun x c =>
    if x.off then Eff.ok c
    else
      let priv := match s.sheet? c.sh with
        | some sh => sh.priv
        | none => false
      c.checked x [sReg rd.toNat] [] [] fun c =>
        let v := c.sget rd.toNat
        let later : Eff := (Eff.ok c).also [(x.t + 1, phStart, .registerWriteback x.k (.sp n) v 0)]
        if n = 11 then Eff.ok (c.clearFlags x.t (v.setWidth 6))
        else if n = 9 then
          if 6 ≤ bits v.toNat 8 3 then Eff.illegal c x [bits v.toNat 8 3] else later
        else if n = 10 then later
        else if 32 ≤ n && priv then
          if n ≤ 55 && decide (12 ≤ bits v.toNat 32 4) then Eff.illegal c x [bits v.toNat 32 4] else later
        else Eff.ok c

/-- CAL rd, k (R143). -/
def execCal (rd : BitVec 6) (k : BitVec 9) (s : State) : Host.Outcome State Fault Refusal :=
  let n := if k.toNat = 256 then (s.ttc / 1048576 + 1) * 1048576 else (s.ttc / 4096 + 1 + k.toNat) * 4096
  let major := n % 1048576 == 0
  let clock := major && s.announced.any fun a => a.1 == n
  let gone := major && s.announced.any fun a => a.1 == n && a.2.2
  s.issueOn (scalarOp [] (.s rd.toNat) 1 fun _ =>
    (w64 (n + (if major then 1 else 0) + (if clock then 2 else 0) + (if gone then 4 else 0)), 0))

/-- ABORT rd, code ends the sheet with ABORT_REQUEST (R144). -/
def execAbort (rd : BitVec 6) (code : BitVec 9) (s : State) : Host.Outcome State Fault Refusal :=
  s.issueOn fun x c =>
    if x.off then Eff.ok c
    else
      c.checked x [sReg rd.toNat] [] [] fun c => Eff.fault c x cAbort 0 (w64 code.toNat) (c.sget rd.toNat) 0

end Sys2Proof.Machine
end

