-- ==== Sys2Proof/Machine/Operands.lean ====
section
/-! DEFINITION. Operands of the V column: SHAPE, lanes, predicates, sub-elements, renamed registers, the repeat path
(R145 to R149, R161, R183). -/

namespace Sys2Proof.Machine

/-- SHAPE taken apart (R145). -/
structure VShape where
  rows : Nat
  cols : Nat
  ety : Nat
  rm : Nat
  pol : Nat
  rag : Bool
  stg : Nat
  deriving DecidableEq, Repr

def shapeFields (w : BitVec 21) : VShape :=
  let n := w.toNat
  ⟨bits n 17 4, bits n 11 6, bits n 8 3, bits n 6 2, bits n 4 2, bits n 3 1 == 1, bits n 0 3⟩

/-- The shape a V word uses: sampled at issue, or at the REP that governs it (R146). -/
def Core.shapeFor (c : Core) (x : Ctx) : VShape :=
  shapeFields (match x.rep with
    | some r => r.2.2.1
    | none => c.shape)

/-- Sub-elements per lane and their width (R147). -/
def etyCount (ty : Nat) : Nat :=
  match ty with
  | 0 | 1 => 1
  | 2 | 3 | 4 => 2
  | _ => 4

def etyWidth (ty : Nat) : Nat := 32 / etyCount ty

/-- The format code of an element type (R51, R113). -/
def etyFmt (ty : Nat) : Nat :=
  match ty with
  | 0 => 1
  | 1 => 6
  | 2 => 3
  | 3 => 2
  | 4 => 7
  | _ => 8

/-- The floating-point format of an element type; integer types have none (R149). -/
def etyFloat (ty : Nat) : Option FloatFmt :=
  match ty with
  | 0 => some fp32
  | 2 => some fp16
  | 3 => some bf16
  | _ => none

/-- The sub-elements of a lane, lowest bits first (R55). -/
def subs (w : Nat) (x : W32) : List Nat := (List.range (32 / w)).map fun j => bits x.toNat (w * j) w

/-- A lane from its sub-elements. -/
def joinSubs (w : Nat) (xs : List Nat) : W32 := BitVec.ofNat 32 (xs.foldr (fun y n => y % 2 ^ w + 2 ^ w * n) 0)

/-- A register number offset by the repetition (R107). -/
def Ctx.repReg (x : Ctx) (r : Nat) : Nat :=
  match x.rep with
  | some (i, stride, _) => (r + i * stride) % 32
  | none => r

/-- The physical register of a name in a rotating body (R183). -/
def Core.phys (c : Core) (r : Nat) : Nat := if c.rot && decide (16 ≤ r) then 16 + (r - 16 + c.base.toNat) % 16 else r

/-- A physical register's 1,024 lanes as a word reads them: results of earlier repetitions of its own unit that have yet to reach
the register come over it (R161). -/
def Core.vget (c : Core) (x : Ctx) (r : Nat) : List W32 :=
  let base := Tab.slice 0 c.v (1024 * r) 1024
  match x.unit with
  | none => base
  | some u => c.fwd.foldl (fun v e => if e.unit == u && e.reg == r && decide (x.t < e.done) then overlay v e.lanes else v) base

/-- A repetition's result put on the repeat path until cycle `done`. -/
def Core.forward (c : Core) (x : Ctx) (r done : Nat) (v : List (Option W32)) : Core :=
  match x.unit with
  | none => c
  | some u => { c with fwd := (c.fwd.filter fun e => e.unit == u) ++ [⟨u, r, done, v⟩] }

/-- The lanes within the active rows and columns whose mask bit is set (R148), in linear order. -/
def lanesOn (sh : VShape) (q : List Half) : List Bool :=
  (List.range 16).flatMap fun r => q.zipIdx.map fun w =>
    decide (r ≤ sh.rows) && decide (w.2 ≤ sh.cols) && w.1.getLsbD r

/-- All 1,024 bits of a mask in linear order. -/
def maskLanes (q : List Half) : List Bool := (List.range 16).flatMap fun r => q.map fun w => w.getLsbD r

/-- Sixty-four lanes of each row. -/
def rowsOf {α : Type} : Nat → List α → List (List α)
  | 0, _ => []
  | n + 1, v => v.take 64 :: rowsOf n (v.drop 64)

/-- A mask from its 1,024 bits. -/
def packMask (bs : List Bool) : List Half :=
  ((rowsOf 16 bs).zipIdx).foldl (fun ws row =>
    List.zipWith (fun w b => if b then w ||| (1#16 <<< row.2) else w) ws row.1) (List.replicate 64 0)

/-- A lane function over the enabled lanes of three sources. -/
def mapLanes (f : W32 → W32 → W32 → W32 × Flags) : List Bool → List W32 → List W32 → List W32 →
    List (Option W32) × Flags
  | o :: os, a :: as, b :: bs, d :: ds =>
    let r := mapLanes f os as bs ds
    if o then
      let y := f a b d
      (some y.1 :: r.1, y.2 ||| r.2)
    else (none :: r.1, r.2)
  | _, _, _, _ => ([], 0)

/-- A lane function applied to each sub-element of width `w`. -/
def onSubs (w : Nat) (f : Nat → Nat → Nat → Nat × Flags) (a b d : W32) : W32 × Flags :=
  let ys := List.zipWith (fun a bd => f a bd.1 bd.2) (subs w a) ((subs w b).zip (subs w d))
  (joinSubs w (ys.map (·.1)), (ys.map (·.2)).foldl (· ||| ·) 0)

/-- A V word's result arrives at issue + L; a repetition also hands it to the next (R150, R161). -/
def Core.vresult (c : Core) (x : Ctx) (lat vd : Nat) (v : List (Option W32)) (fl : Flags) : Eff :=
  (Eff.ok (c.forward x vd (x.t + lat) v)).also [(x.t + lat, phStart, .vResultWriteback x.k ⟨[(vd, v)], [], fl⟩)]

/-- A mask result. -/
def Core.qresult (c : Core) (x : Ctx) (lat qd : Nat) (q : List Half) (fl : Flags) : Eff :=
  (Eff.ok c).also [(x.t + lat, phStart, .vResultWriteback x.k ⟨[], [(qd, q.map some)], fl⟩)]

def writeLanes (ws : List (Nat × List (Option W32))) (v : Tab W32) : Tab W32 :=
  ws.foldl (fun v e => Tab.spliceOpt 0 (1024 * e.1) e.2 v) v

def writeMasks (ws : List (Nat × List (Option Half))) (q : Tab Half) : Tab Half :=
  ws.foldl (fun q e => if e.1 = 0 then q else Tab.spliceOpt 0 (64 * e.1) e.2 q) q

/-- V results are written at issue + L and their flags set (R61, R150). -/
def execVResultWriteback (k : Nat) (r : VResult) (s : State) : Host.Outcome State Fault Refusal :=
  s.atCore k fun t _ c =>
    let c := { c with v := writeLanes r.v c.v, q := writeMasks r.q c.q }
    Eff.ok (if r.fl = 0 then c else c.setFlags t r.fl)

end Sys2Proof.Machine
end

