-- ==== Sys2Proof/Machine/Move.lean ====
section
/-! DEFINITION. Movements over felt lanes: how a vector register meets a bank (R162), the beats of a movement (R76, R79
to R81, R163), the conversion of V stores, gathers and scatters (R169 to R171), the ragged walker (R177, R178),
sidecars (R86, R168). -/

namespace Sys2Proof.Machine

/-! Register images (R162). -/

/-- How a register of an element type meets a bank of a format. -/
def pathOf (b : BankFmt) (ety : Nat) : Option Path :=
  if b.fmt = 0 || (b.fmt == etyFmt ety && b.scale == 0x3F800000) then some .bit
  else if ety = 0 then some (.value (fmtWidth b.fmt))
  else none

def pathWidth : Path → Nat
  | .bit => 32
  | .value w => w

/-- Bytes of a register image. -/
def pathBytes (p : Path) : Nat := 128 * pathWidth p

/-- The banks of address runs, each once. -/
def banksOf (runs : List (Nat × Nat)) : List Nat :=
  (runs.flatMap fun r =>
    if r.2 = 0 then [] else (List.range (bankOf (r.1 + r.2 - 1) - bankOf r.1 + 1)).map fun i => bankOf r.1 + i).eraseDups

/-- The values that a format fault names: element type, format, bank. -/
def fmtVals (c : Core) (ety b : Nat) : List Nat := [ety, (c.bank b).fmt, b]

/-- The path of each bank that an image at `first` meets, with its byte count; a bank that gives none or another count is
named (R162). -/
def Core.image (c : Core) (ety first : Nat) (runs : Nat → List (Nat × Nat)) : Except Nat (Nat × List (Nat × Path)) :=
  match pathOf (c.bank (bankOf first)) ety with
  | none => .error (bankOf first)
  | some p =>
    let n := pathBytes p
    let bs := banksOf (runs n)
    match bs.find? fun b => !((pathOf (c.bank b) ety).any fun q => pathBytes q == n) with
    | some b => .error b
    | none => .ok (n, bs.map fun b => (b, (pathOf (c.bank b) ety).getD .bit))

/-- The path a movement takes in a bank. -/
def pathIn (ps : List (Nat × Path)) (b : Nat) : Path := ((ps.find? fun p => p.1 == b).map (·.2)).getD .bit

/-- The address of stream offset `o`. -/
def runAddr : List (Nat × Nat) → Nat → Nat
  | [], _ => 0
  | (a, l) :: r, o => if o < l then a + o else runAddr r (o - l)

/-! Reading beats. -/

/-- A number from bytes that are all there. -/
def optNat : List (Option Byte) → Option Nat
  | [] => some 0
  | none :: _ => none
  | some x :: r => (optNat r).map fun n => x.toNat + 256 * n

/-- `n` elements of width `w` from bytes, `none` where a byte is missing. -/
def optElems (w : Nat) : Nat → List (Option Byte) → List (Option Nat)
  | 0, _ => []
  | n + 1, bs =>
    if w = 4 then
      match bs with
      | b :: r => (b.map fun x => x.toNat % 16) :: (b.map fun x => x.toNat / 16) :: optElems w n r
      | [] => []
    else optNat (bs.take (w / 8)) :: optElems w n (bs.drop (w / 8))

/-- Elements taken from bytes in hand, and the bytes left over. -/
def takeElems (w : Nat) (bs : List (Option Byte)) : List (Option Nat) × List (Option Byte) :=
  if w = 4 then (optElems 4 bs.length bs, [])
  else
    let n := bs.length / (w / 8)
    (optElems w n bs, bs.drop (n * (w / 8)))

/-- Elements decoded into lanes, with the flags of the enabled ones. -/
def decodeLanes (f : Nat → FRes) : List Bool → List (Option Nat) → List (Option W32) × Flags
  | on, e :: es =>
    let r := decodeLanes f on.tail es
    match e with
    | none => (none :: r.1, r.2)
    | some y =>
      if on.headD false then
        let v := f y
        (some (BitVec.ofNat 32 v.1) :: r.1, v.2 ||| r.2)
      else (none :: r.1, r.2)
  | _, [] => ([], 0)

/-- Bytes that have reached V-read joined to a load, decoded by the bank they come from (R64, R79). -/
def takeLanes (m : Move) (c : Core) (p : Path) (on : List Bool) (b : Nat) (bs : List (Option Byte)) : Move :=
  let r := takeElems (pathWidth p) (m.bytes ++ bs)
  let bf := c.bank b
  let f : Nat → FRes := match p with
    | .bit => fun y => (y, 0)
    | .value _ => bankDecode bf
  let o := decodeLanes f (on.drop m.lanes.length) r.1
  { m with bytes := r.2, lanes := m.lanes ++ o.1, fl := m.fl ||| o.2 }

/-- The frames whose first byte a ring read of `n` bytes at offset `o` takes. -/
def frameStarts (o n : Nat) : List Nat :=
  (List.range (n / 4096 + 2)).filterMap fun i =>
    let s := (o / 4096 + i) * 4096
    if o ≤ s && decide (s < o + n) then some s else none

/-- The tag checks that a piece of a read makes (R80, R83, R166). -/
def Core.pieceTags (c : Core) (t : Nat) (m : Move) (p : Piece) : List CFault :=
  (match m.tag with
    | some want => if p.off = 0 then c.tagFault t (frameOf p.addr) want m.d else []
    | none => [])
  ++ (match m.ring with
    | some (g, o) =>
      let r := c.ring g
      (frameStarts (o + p.off) p.len).flatMap fun s => c.tagFault t (frameOf (r.addr s)) (r.wantTag s) m.d
    | none => [])

/-- Ring bytes count as read by their movement as they leave; operand tiles of the array retire whole (R83, R205). -/
def countsReads : MoveKind → Bool
  | .actIn | .plyIn _ _ => false
  | _ => true

/-- The bytes of a beat that still pass: lane `lane + i` carries bytes `per` * i to `per` * i + `per` - 1 of the beat
(R77). -/
def Core.passing (c : Core) (d : Desc) (lane beat per a dep h off : Nat) (bs : List (Option Byte)) :
    List (Option Byte) :=
  if c.cuts.any fun u => sameWord u.d d then
    (bs.zipIdx).map fun b => if c.lost d (lane + (off + b.2) % beat / per) a dep h then none else b.1
  else bs

/-- Movements that leave the core by X-out (R221). -/
def viaXout : MoveKind → Bool
  | .stow _ | .send _ | .weave _ _ => true
  | _ => false

/-- One piece of a read: its tag checks, its bytes (none where the beat is cut off or the access is refused), and what
the ring counts. -/
def Core.readPiece (c : Core) (t fr : Nat) (races : Racing) (m : Move) (p : Piece) :
    Eff × List (Option Byte) :=
  let tags := c.pieceTags t m p
  let r := c.readBank t fr races p.addr p.len m.cls m.d
  let st := bankStation (bankOf p.addr)
  let h := hopsOn m.lane st m.unit
  let bs := match r.2 with
    | some bs =>
      if viaXout m.kind && c.portLost m.d true p.cyc then List.replicate p.len none
      else c.passing m.d m.lane m.beat 64 st p.cyc h p.off (bs.map some)
    | none => List.replicate p.len none
  let e := r.1.faults tags
  match m.ring with
  | some (g, o) => (if countsReads m.kind then { e with core := e.core.ringRead t g (o + p.off) p.len } else e, bs)
  | none => (e, bs)

/-- The pieces of a beat read in turn. -/
def Core.readPieces (c : Core) (t fr : Nat) (races : Racing) (m : Move) :
    List Piece → Eff × List (Nat × List (Option Byte))
  | [] => (Eff.ok c, [])
  | p :: ps =>
    let a := c.readPiece t fr races m p
    let r := a.1.core.readPieces t (fr + a.1.used) races m ps
    (a.1.andThen fun _ => r.1, (bankOf p.addr, a.2) :: r.2)

/-- Bytes that are all there. -/
def allBytes : List (Option Byte) → Option (List Byte)
  | [] => some []
  | none :: _ => none
  | some x :: r => (allBytes r).map fun l => x :: l

/-- The cycle at which a byte performs in its window: any cycle from `lo` to `hi` (R90). -/
def pickCycle (fr lo hi : Nat) : Nat := lo + Config.window fr % (hi - lo + 1)

/-- The array's operand bytes. -/
def Core.intoArray (c : Core) (f : MRun → MRun) : Core :=
  match c.array with
  | some a => { c with array := some (f a) }
  | none => c

def listApp (l : List Ply) (i : Nat) (bs : List Byte) : List Ply := listUpd l i fun p => { p with data := p.data ++ bs }

/-- The words of a beat whose reserved bits are set (R186, R188). -/
def badSlots (bs : List Byte) : Bool := (elems32 bs).any fun w => decide (0x7FFFFF < w)

/-- A whole tile position counts as read (R199, R205). -/
def Core.popTile (c : Core) (t g off : Nat) : Core := c.ringRead t g off (c.ring g).tileBytes

/-- The codebooks under which the bytes of a beat are read now (R79). -/
def Core.booksOf (c : Core) (parts : List (Nat × List (Option Byte))) : List (Nat × List Half) :=
  parts.map fun p => (p.2.length, (c.bank p.1).cb)

/-- What a beat delivers, `off` its stream offset, `last` whether it is the last; the movement as it goes on. -/
def Core.deliver (c : Core) (t fr : Nat) (m : Move) (off : Nat) (last : Bool)
    (parts : List (Nat × List (Option Byte))) : Eff × Move :=
  let bs := parts.flatMap (·.2)
  match m.kind with
  | .load vd done mask paths =>
    let on := maskLanes mask
    let m := parts.foldl (fun m p => takeLanes m c (pathIn paths p.1) on p.1 p.2) m
    ((Eff.ok c).also (if last then [(done, phStart, .vResultWriteback m.d.k ⟨[(vd, m.lanes)], [], m.fl⟩)] else []), m)
  | .ragged r =>
    let e := takeElems 32 (m.bytes ++ bs)
    let m := { m with bytes := e.2, lanes := m.lanes ++ e.1.map fun v => v.map (BitVec.ofNat 32) }
    ((Eff.ok c).also (if last then [(r.done, phStart, .laneBeat m [])] else []), m)
  | .maskBlock done =>
    let m := { m with bytes := m.bytes ++ bs }
    ((Eff.ok c).also (if last then
      (match allBytes m.bytes with
        | some bs => [(done, phStart, .maskArm m.d.k bs)]
        | none => []) else []), m)
  | .stow x =>
    match allBytes bs with
    | some bs =>
      let lo := x.d.start + 768 * x.h + 64
      let hi := x.d.start + 768 * x.h + 832 + x.late
      ({ (Eff.ok c).also [(pickCycle fr (max lo (t + 1)) hi, phSeam, .hbmPerform x off bs)] with used := 1 }, m)
    | none => (Eff.ok c, m)
  | .send x =>
    match allBytes bs with
    | some _ =>
      let es := parts.map fun p =>
        (c.bank p.1, (elemsOf x.ws (p.2.map fun b => b.getD 0)).map (BitVec.ofNat 32))
      ((Eff.ok c).also [(x.land + off / 64, phWrite, .sendBeatLanding x (off / 64) (es.map Prod.fst) (es.map Prod.snd))], m)
    | none => (Eff.ok c, m)
  | .weave _ _ => (Eff.ok c, { m with bytes := m.bytes ++ bs })
  | .actIn =>
    let c := c.intoArray fun a => { a with act := a.act ++ bs.map (fun b => b.getD 0), acb := a.acb ++ c.booksOf parts }
    let c := match m.ring, c.array with
      | some (g, o), some a => if last && !a.keep then c.popTile t g o else c
      | _, _ => c
    (Eff.ok c, m)
  | .plyIn slot outlier =>
    let raw := bs.map fun b => b.getD 0
    let c1 := c.intoArray fun a => if a.dense then { a with wgt := a.wgt ++ raw, wcb := a.wcb ++ c.booksOf parts } else { a with plies := listApp a.plies slot raw }
    let c2 := match m.ring with
      | some (g, o) => if last then c1.popTile t g (o / (c1.ring g).tileBytes * (c1.ring g).tileBytes) else c1
      | none => c1
    if outlier && badSlots raw then
      let fr := match m.ring with
        | some (g, o) => frameOf ((c.ring g).addr (o / (c.ring g).tileBytes * (c.ring g).tileBytes))
        | none => 0
      ((Eff.ok (c2.intoArray fun a => { a with failed := true })).faults
        [⟨cIllegal, 0, m.d, t, ((c.col m.d.col).word m.d.addr).setWidth 64, w64 fr, 0⟩], m)
    else (Eff.ok c2, m)
  | .tableIn r =>
    match allBytes bs with
    | some bs =>
      let st := bankStation ((parts.head?.map (·.1)).getD 0)
      ((Eff.ok c).also [(t + hopsOn m.lane st m.unit, phStart, .stblLine r (off / 64) bs)], m)
    | none => (Eff.ok c, m)
  | .store | .skip _ => (Eff.ok c, m)

/-! Writing beats. -/

/-- Nibbles merged into the bytes that are there (R55). -/
def mergeNib : List Byte → List (Option Byte) → List Nat → List (Option Byte)
  | o :: os, some x :: xs, n :: ns =>
    some (if n = 1 then (o &&& 0xF0) ||| (x &&& 0x0F) else if n = 2 then (o &&& 0x0F) ||| (x &&& 0xF0) else x)
      :: mergeNib os xs ns
  | _ :: os, none :: xs, _ :: ns => none :: mergeNib os xs ns
  | _, xs, _ => xs

/-- The frames into which a piece writes a byte. -/
def pieceFrames (p : Piece) : List Nat :=
  (framesOf p.addr p.data.length).filter fun f =>
    ((p.data.zipIdx).any fun b => b.1.isSome && frameOf (p.addr + b.2) == f)

/-- The write of some bytes by a movement. The first byte it writes into a bank meets the WP bit; once refused it writes
no byte there (R81). No movement lasts 2^20 cycles, so older marks are dropped. -/
def Core.writeAs (c : Core) (t fr : Nat) (addr : Nat) (data : List (Option Byte)) (cls : Nat) (d : Desc) : Eff :=
  let b := bankOf addr
  let begun := fun (n : Nat) => c.wp.any fun e => sameWord e.1 d && e.2 == n
  if data.all Option.isNone || begun (24 + b) then Eff.ok c
  else if begun b then c.writeBank t fr false addr data cls d
  else
    (c.writeBank t fr true addr data cls d).andThen fun c =>
      Eff.ok { c with wp := (d, if c.protected_ b then 24 + b else b) :: c.wp.filter fun e => decide (t < e.1.start + 2 ^ 20) }

/-- The movement has been refused by a bank's WP bit. -/
def Core.refused (c : Core) (d : Desc) (b : Nat) : Bool := c.wp.any fun e => sameWord e.1 d && e.2 == 24 + b

/-- The write of some bytes by a movement is refused neither now nor for its bank as a whole. -/
def Core.accepts (c : Core) (t addr : Nat) (data : List (Option Byte)) (d : Desc) : Bool :=
  let b := bankOf addr
  let begun := fun (n : Nat) => c.wp.any fun e => sameWord e.1 d && e.2 == n
  !(begun (24 + b)) && c.admits t (!(begun b)) addr data d

/-- The ring counts the bytes of a run that reach it, those that carry no data among them (R83, R163). -/
def Core.ringReached (c : Core) (t : Nat) (ring : Option (Nat × Nat)) (off : Nat) (there : List (Option Byte)) : Core :=
  match ring with
  | some (g, o) => (spans (o + off) there).foldl (fun c b => c.ringWrote t g b.1 (b.2 + 1 - b.1)) c
  | none => c

/-- One piece of a store: its bytes, the tags of frames whose last byte this is (R80), what the ring counts. A byte that a
cut segment, the WP bit or a window of an atomic keeps from its bank counts nowhere. -/
def Core.storePiece (c : Core) (t fr : Nat) (m : Move) (p : Piece) (rest : List Piece) : Eff :=
  let data := if p.nib.isEmpty then p.data else mergeNib (Tab.slice 0 c.spad p.addr p.len) p.data p.nib
  let h := hopsOn m.lane m.unit (bankStation (bankOf p.addr))
  let pass := c.passing m.d m.lane m.beat 64 m.unit (p.cyc - h) h p.off
  let data := pass data
  let reach := pass (List.replicate p.len (some 0))
  let later := rest.flatMap pieceFrames
  let ok := c.accepts t p.addr data m.d
  (c.writeAs t fr p.addr data m.cls m.d).andThen fun c =>
    if !ok then Eff.ok c
    else
      Eff.ok ((c.bumpPlain t ((pieceFrames { p with data := data }).filter fun f => !later.contains f)).ringReached t m.ring
        p.off reach)

def Core.storePieces (c : Core) (t fr : Nat) (m : Move) : List Piece → List Piece → Eff
  | [], _ => Eff.ok c
  | p :: ps, rest =>
    let a := c.storePiece t fr m p (ps ++ rest)
    let r := a.core.storePieces t (fr + a.used) m ps rest
    a.andThen fun _ => r

/-- A predicated-off movement: the ring counts its bytes at the cycles it would have used (R83). -/
def Core.skipPieces (c : Core) (t : Nat) (m : Move) (wr : Bool) (ps : List Piece) : Core :=
  match m.ring with
  | none => c
  | some (g, o) =>
    ps.foldl (fun c p => if wr then c.ringWrote t g (o + p.off) p.len else c.ringRead t g (o + p.off) p.len) c

/-! The ragged walker's last step. -/

/-- vd and qd of VRAGG from the walk and the data (R178): data, or +0 and the padding's start bit; `first` until the
first padding. -/
def ragLanes : Bool → List Nat → List (Option Bool) → List (Option W32) → List (Nat × Option W32 × Bool)
  | first, l :: ls, p :: ps, ds =>
    match p with
    | some st => (l, ds.headD none, st) :: ragLanes first ls ps ds.tail
    | none => (l, some 0, first) :: ragLanes false ls ps ds.tail
  | _, _, _, _ => []

/-- The lanes of a register that receive a value. -/
def lanesFrom (n : Nat) (ws : List (Nat × Option W32)) : List (Option W32) :=
  (List.range n).map fun l => ((ws.find? fun w => w.1 == l).bind (·.2))

/-- Mask bits set or cleared one by one. -/
def setBits (q : List Half) (bs : List (Nat × Bool)) : List Half :=
  bs.foldl (fun q b =>
    listUpd q (b.1 % 64) fun w => if b.2 then w ||| (1#16 <<< (b.1 / 64)) else w &&& ~~~ (1#16 <<< (b.1 / 64))) q

/-- VRAGG's registers take their values, once the walk is done. DESIGN CHOICE (log entry 67): a walk that is still reading its table
when the data have come holds the result back until it ends (R178). -/
def Core.raggedDone (c : Core) (t : Nat) (m : Move) (r : RaggedRun) : Eff :=
  match c.walker.out.find? fun o => sameWord o.1 r.d with
  | none => (Eff.ok c).also [(t + 1, phStart, .laneBeat m [])]
  | some o =>
    let res : List (Nat × Option W32 × Bool) := ragLanes true r.lanes o.2 m.lanes
    let c := { c with
      walker := { c.walker with out := c.walker.out.filter fun o => !(sameWord o.1 r.d) }
      v := writeLanes [(r.vd, lanesFrom 1024 (res.map fun (x : Nat × Option W32 × Bool) => (x.1, x.2.1)))] c.v }
    Eff.ok (c.qset r.qd (setBits (c.qget r.qd) (res.map fun (x : Nat × Option W32 × Bool) => (x.1, x.2.2))))

/-- The pieces of a movement that fall in the cycle in progress, and the later ones. -/
def nowPieces (ps : List Piece) : List Piece × List Piece :=
  match ps with
  | [] => ([], [])
  | p :: _ => (ps.takeWhile fun q => q.cyc == p.cyc, ps.dropWhile fun q => q.cyc == p.cyc)

/-- A beat of a movement on core `m.k` (R76): it is read or written, delivered, and the movement goes on. -/
def Core.beatStep (c : Core) (t fr : Nat) (races : Racing) (m : Move) (ps : List Piece) : Eff × Move :=
  let np := nowPieces ps
  let next := fun (m : Move) (ph : Nat) => match np.2 with
    | [] => []
    | p :: _ => [(p.cyc, ph, Act.laneBeat m np.2)]
  match m.kind, ps with
  | .ragged r, [] => (c.raggedDone t m r, m)
  | _, [] => (Eff.ok c, m)
  | .store, _ =>
    let w := c.storePieces t fr m np.1 np.2
    (w.also (next m phWrite), m)
  | .skip wr, _ => ((Eff.ok (c.skipPieces t m wr np.1)).also (next m (if wr then phWrite else phRead)), m)
  | _, p :: _ =>
    let r := c.readPieces t fr races m np.1
    let d := r.1.core.deliver t (fr + r.1.used) m p.off np.2.isEmpty r.2
    ((r.1.andThen fun _ => d.1).also (next d.2 phRead), d.2)

/-! V stores. -/

/-- A store's element as its bank takes it (R64, R162). -/
def storeCode (bf : BankFmt) (p : Path) (rm : Nat) (pol : Option Nat) (v : W32) : Conv :=
  match p with
  | .bit => ⟨v.toNat, 0, false⟩
  | .value _ => bankEncode bf rm (pol.getD bf.pol) v.toNat

/-- The elements of a store: codes of the enabled lanes, flags, first element that traps. `where_` gives the bank of an
element. -/
def storeCodes (fmts : List (Nat × BankFmt × Path)) (rm : Nat) (pol : Option Nat) (where_ : Nat → Nat) :
    Nat → List Bool → List W32 → List (Option Nat) × Flags × Option Nat
  | i, o :: os, v :: vs =>
    let r := storeCodes fmts rm pol where_ (i + 1) os vs
    if o then
      let b := where_ i
      let k := match fmts.find? fun f => f.1 == b with
        | some f => storeCode f.2.1 f.2.2 rm pol v
        | none => ⟨v.toNat, 0, false⟩
      (some k.bits :: r.1, k.fl ||| r.2.1, if k.trap then some i else r.2.2)
    else (none :: r.1, r.2)
  | _, _, _ => ([], 0, none)

/-- Bytes of elements of width `w`, and for 4-bit elements which nibbles are written. -/
def codeBytes (w : Nat) : List (Option Nat) → List (Option Byte) × List Nat
  | [] => ([], [])
  | [a] =>
    if w = 4 then ([a.map fun x => BitVec.ofNat 8 (x % 16)], [1])
    else (match a with
      | some x => (leBytes (w / 8) x).map some
      | none => List.replicate (w / 8) none, [])
  | a :: b :: r =>
    if w = 4 then
      let t := codeBytes w r
      let lo := a.getD 0 % 16
      let hi := b.getD 0 % 16
      ((if a.isSome || b.isSome then some (BitVec.ofNat 8 (lo + 16 * hi)) else none) :: t.1,
        ((if a.isSome then 1 else 0) + (if b.isSome then 2 else 0)) :: t.2)
    else
      let t := codeBytes w (b :: r)
      ((match a with
        | some x => (leBytes (w / 8) x).map some
        | none => List.replicate (w / 8) none) ++ t.1, [])

/-- Parts of a stream given their bytes. -/
def fillParts (cyc : Nat × Nat × Nat → Nat) : List (Nat × Nat × Nat) → List (Option Byte) → List Nat → List Piece
  | [], _, _ => []
  | p :: ps, bs, ns =>
    ⟨cyc p, p.1, p.2.1, p.2.2, bs.take p.2.1, ns.take p.2.1⟩ :: fillParts cyc ps (bs.drop p.2.1) (ns.drop p.2.1)

/-- A piece put in its place by cycle, after those of the same cycle that precede it. -/
def insertPiece (p : Piece) : List Piece → List Piece
  | [] => [p]
  | q :: r => if p.cyc ≤ q.cyc then p :: q :: r else q :: insertPiece p r

/-- Pieces by cycle, those of one cycle in stream order. -/
def sortPieces (ps : List Piece) : List Piece := ps.foldr insertPiece []

/-- The cycle at which a part of a store that left at `dep` reaches its bank (R163). -/
def arriveAt (lane beat dep unit : Nat) (p : Nat × Nat × Nat) : Nat :=
  dep + p.2.2 / beat + hopsOn lane unit (bankStation (bankOf p.1))

/-- A write movement begins: its first beat. -/
def startWrites (m : Move) (ps : List Piece) : List (Nat × Nat × Act) :=
  match sortPieces ps with
  | [] => []
  | p :: r => [(p.cyc, phWrite, .laneBeat m (p :: r))]

/-- Entries (cycle, lane) by cycle, those of one cycle in lane order. -/
def insertItem (p : Nat × Nat) : List (Nat × Nat) → List (Nat × Nat)
  | [] => [p]
  | q :: r => if p.1 < q.1 || (p.1 == q.1 && decide (p.2 ≤ q.2)) then p :: q :: r else q :: insertItem p r

def sortItems (ps : List (Nat × Nat)) : List (Nat × Nat) := ps.foldr insertItem []

/-- The cycle at which a gather's or scatter's beat passes the bank of lane `l`'s item (R170). -/
def circuitAt (lane unit t l addr : Nat) : Nat := t + 12 + l / 16 + hopsOn lane unit (bankStation (bankOf addr))

/-- The items of a gather or scatter begin. -/
def startItems (g : GatherRun) (unit t : Nat) : List (Nat × Nat × Act) :=
  let items := sortItems (g.item.map fun e => (circuitAt g.lane unit t e.1 (e.2.1 / 8), e.1))
  match items with
  | [] => []
  | i :: _ => [(i.1, if g.scat then phWrite else phRead, .gatherScatterAccess g items)]

/-- V store conversion: every element is encoded at issue + 2, and its beats run (R79, R162, R167). -/
def Core.convertStore (c : Core) (t : Nat) (m : StoreRun) : Eff :=
  let w := match m.paths with
    | p :: _ => pathWidth p.2
    | [] => 32
  let fmts := m.paths.map fun p => (p.1, c.bank p.1, p.2)
  match m.items with
  | some items =>
    let at_ := fun i => bankOf (((items.getD i (0, 0)).2) / 8)
    let sel := items.map fun e => m.lanes.getD e.1 0
    let path := match m.paths with
      | p :: _ => p.2
      | [] => .bit
    let fmts := (items.map fun e => bankOf (e.2 / 8)).eraseDups.map fun b => (b, c.bank b, path)
    let r := storeCodes fmts m.rm m.pol at_ 0 (items.map fun _ => true) sel
    match r.2.2 with
    | some i => (Eff.ok c).faults [⟨cTrap, 0, m.d, t, w64 (items.getD i (0, 0)).1, 0, 0⟩]
    | none =>
      let g : GatherRun :=
        { d := m.d, scat := true, lane := m.lane, vd := 0, cls := m.cls, path := path,
          item := List.zipWith (fun e k => (e.1, e.2, k.getD 0)) items r.1, got := [], fl := 0 }
      (Eff.ok (if r.2.1 = 0 then c else c.setFlags t r.2.1)).also (startItems g 3 (t - 2))
  | none =>
    let parts := partsOf 64 m.runs
    let mv : Move :=
      { d := m.d, k := m.d.k, cls := m.cls, lane := m.lane, unit := 3, kind := .store, ring := m.ring, beat := 64,
        tag := none, lanes := [], bytes := [], fl := 0 }
    match m.mbytes with
    | some mask =>
      let bs := (m.lanes.take 512).flatMap fun v => leBytes 4 v.toNat
      let data := List.zipWith (fun b on => if on then some b else none) bs mask
      (Eff.ok c).also (startWrites mv (fillParts (arriveAt m.lane 64 t 3) parts data []))
    | none =>
      let r := storeCodes fmts m.rm m.pol (fun i => bankOf (runAddr m.runs (w * i / 8))) 0 m.on m.lanes
      match r.2.2 with
      | some i => (Eff.ok c).faults [⟨cTrap, 0, m.d, t, w64 i, 0, 0⟩]
      | none =>
        let bytes := codeBytes w r.1
        (Eff.ok (if r.2.1 = 0 then c else c.setFlags t r.2.1)).also
          (startWrites mv (fillParts (arriveAt m.lane 64 t 3) parts bytes.1 bytes.2))

/-- V STORE CONVERSION. -/
def execVStoreConversion (m : StoreRun) (s : State) : Host.Outcome State Fault Refusal :=
  s.atCore m.d.k fun t _ c => c.convertStore t m

/-! Gather and scatter (R169 to R171). -/

/-- The bytes of an item of `w` bits at a bit address. -/
def itemBytes (w bitAddr bits_ : Nat) (old : Byte) : List (Option Byte) :=
  if w = 4 then
    let k := BitVec.ofNat 8 (bits_ % 16)
    [some (if bitAddr % 8 = 4 then (old &&& 0x0F) ||| (k <<< 4) else (old &&& 0xF0) ||| k)]
  else (leBytes (w / 8) bits_).map some

/-- The beat of lane `l` on its circuit: the cycle it left its unit. -/
def gatherDep (g : GatherRun) (l : Nat) : Nat := g.d.start + l / 16

/-- One item of a scatter. -/
def Core.scatItem (c : Core) (t fr : Nat) (g : GatherRun) (l : Nat) (later : List Nat) : Eff :=
  match g.item.find? fun i => i.1 == l with
  | none => Eff.ok c
  | some i =>
    let a := i.2.1 / 8
    let h := hopsOn g.lane 3 (bankStation (bankOf a))
    if c.lost g.d g.lane 3 (gatherDep g l) h then Eff.ok c
    else
      let data := itemBytes (pathWidth g.path) i.2.1 i.2.2 (Tab.get 0 c.spad a)
      let ok := c.accepts t a data g.d
      (c.writeAs t fr a data g.cls g.d).andThen fun c =>
        Eff.ok (if ok then c.bumpPlain t ((framesOf a data.length).filter fun f => !later.contains f) else c)

/-- One item of a gather, decoded by the bank that holds it. -/
def Core.gatherItem (c : Core) (t fr : Nat) (races : Racing) (g : GatherRun) (l : Nat) : Eff × GatherRun :=
  match g.item.find? fun i => i.1 == l with
  | none => (Eff.ok c, g)
  | some i =>
    let w := pathWidth g.path
    let a := i.2.1 / 8
    let r := c.readBank t fr races a (max 1 (w / 8)) g.cls g.d
    match r.2 with
    | none => (r.1, g)
    | some bs =>
      let code := if w = 4 then bits (leNat bs) (i.2.1 % 8) 4 else leNat bs
      let v : FRes := match g.path with
        | .bit => (code, 0)
        | .value _ => bankDecode (c.bank (bankOf a)) code
      if c.lost g.d g.lane 1 (gatherDep g l) 24 then (r.1, g)
      else (r.1, { g with got := (l, BitVec.ofNat 32 v.1) :: g.got, fl := g.fl ||| v.2 })

/-- The items of the cycle in progress. -/
def nowItems (items : List (Nat × Nat)) : List (Nat × Nat) :=
  match items with
  | [] => []
  | i :: _ => items.takeWhile fun e => e.1 == i.1

def Core.items (c : Core) (t fr : Nat) (races : Racing) (g : GatherRun) (rest : List (Nat × Nat)) :
    List (Nat × Nat) → Eff × GatherRun
  | [] => (Eff.ok c, g)
  | i :: is =>
    let later := if g.scat then
        (is ++ rest).flatMap fun e => ((g.item.find? fun j => j.1 == e.2).map fun j =>
          framesOf (j.2.1 / 8) (max 1 (pathWidth g.path / 8))).getD []
      else []
    let a := if g.scat then (c.scatItem t fr g i.2 later, g) else c.gatherItem t fr races g i.2
    let r := a.1.core.items t (fr + a.1.used) races a.2 rest is
    (a.1.andThen fun _ => r.1, r.2)

/-! Ragged walks (R177, R178). -/

/-- Entries read while a row is wanted: the walker, the entries left, how many were read, whether the walk can go on. -/
def ragSkip (budget : Nat) : List Half → Walker → Nat → Walker × List Half × Nat × Bool
  | [], w, used => (w, [], used, w.ended || w.left != 0 || decide (budget ≤ used))
  | e :: es, w, used =>
    if w.ended || w.left != 0 || decide (budget ≤ used) then (w, e :: es, used, true)
    else
      let w := { w with tab := w.tab + 2 }
      ragSkip budget es (if e = 0xFFFF then { w with ended := true } else { w with left := e }) (used + 1)

/-- The walk over `n` active lanes with the entries in hand (R178): lanes filled, walker, entries read, whether it is
done. -/
def ragWalk (budget : Nat) : Nat → List Half → Walker → Nat → List (Option Bool) × Walker × Nat × Bool
  | 0, _, w, used => ([], w, used, true)
  | n + 1, es, w, used =>
    let r := ragSkip budget es w used
    if !r.2.2.2 then ([], r.1, r.2.2.1, false)
    else if !r.1.ended && r.1.left != 0 then
      let q := ragWalk budget n r.2.1 { r.1 with left := r.1.left - 1 } r.2.2.1
      (some (w.left == 0) :: q.1, q.2)
    else
      let q := ragWalk budget n r.2.1 r.1 r.2.2.1
      (none :: q.1, q.2)

/-- Entries of a row-length table. -/
def halves (bs : List Byte) : List Half := (elems16 bs).map (BitVec.ofNat 16)

/-- SIDECAR ATTACH: the sidecar of a tile position (R86, R168). -/
def execSidecarAttach (k g tile : Nat) (vals : List W32) (s : State) : Host.Outcome State Fault Refusal :=
  s.atCore k fun _ _ c =>
    let r := c.ring g
    Eff.ok (if r.nfr = 0 then c else c.setRing g { r with sidecars := Tab.put (tile % r.cap) vals r.sidecars })

end Sys2Proof.Machine
end

