-- ==== Sys2Proof/Machine/Vector.lean ====
section
/-! DEFINITION. Elementwise V words: floating point, integer and bit forms, funnel shifts, immediates, compares, select,
conversion, masks (R151 to R160). -/

namespace Sys2Proof.Machine

/-- An elementwise word: per sub-element f of a, b and the old d, on the enabled lanes (R148). `useB`, `useD` say which
sources it reads beside va. With no lane enabled it is predicated off as a whole (R281). -/
def laneOp (lat vd va vb q : Nat) (useB useD : Bool) (f : VShape → W32 → W32 → W32 → W32 × Flags) (x : Ctx)
    (c : Core) : Eff :=
  let sh := c.shapeFor x
  let d := c.phys (x.repReg vd)
  let a := c.phys (x.repReg va)
  let b := c.phys vb
  let on := lanesOn sh (c.qget q)
  if !on.any id then Eff.ok c
  else
    c.checked x ([vReg a, qReg q] ++ (if useB then [vReg b] else []) ++ (if useD then [vReg d] else []))
      [(vReg d, x.t + lat)] [] fun c =>
        let r := mapLanes (f sh) on (c.vget x a) (if useB then c.vget x b else c.vget x a)
          (if useD then c.vget x d else c.vget x a)
        c.vresult x lat d r.1 r.2

/-- A floating-point word: it needs a floating-point element type (R149). -/
def fpOp (lat : Nat) (vd va vb : BitVec 5) (q : BitVec 4) (useB useD : Bool)
    (f : FloatFmt → Nat → Nat → Nat → Nat → FRes) (x : Ctx) (c : Core) : Eff :=
  match etyFloat (c.shapeFor x).ety with
  | none => Eff.illegal c x [(c.shapeFor x).ety]
  | some fmt =>
    laneOp lat vd.toNat va.toNat vb.toNat q.toNat useB useD
      (fun sh => onSubs fmt.width (f fmt sh.rm)) x c

/-- An integer or bit word: it reads raw sub-elements of the element type's width (R149). -/
def ibOp (vd va vb : BitVec 5) (q : BitVec 4) (useB useD : Bool) (f : Nat → Nat → Nat → Nat → Nat × Flags)
    (x : Ctx) (c : Core) : Eff :=
  laneOp 2 vd.toNat va.toNat vb.toNat q.toNat useB useD
    (fun sh => onSubs (etyWidth sh.ety) (f (etyWidth sh.ety))) x c

/-! Two-operand and fused forms (R151). -/

def execVadd (vd va vb : BitVec 5) (q : BitVec 4) (s : State) : Host.Outcome State Fault Refusal :=
  s.issueOn (fpOp 4 vd va vb q true false fun f rm a b _ => f.fadd rm a b)

def execVsub (vd va vb : BitVec 5) (q : BitVec 4) (s : State) : Host.Outcome State Fault Refusal :=
  s.issueOn (fpOp 4 vd va vb q true false fun f rm a b _ => f.fsub rm a b)

def execVmul (vd va vb : BitVec 5) (q : BitVec 4) (s : State) : Host.Outcome State Fault Refusal :=
  s.issueOn (fpOp 4 vd va vb q true false fun f rm a b _ => f.fmul rm a b)

def execVdiv (vd va vb : BitVec 5) (q : BitVec 4) (s : State) : Host.Outcome State Fault Refusal :=
  s.issueOn (fpOp 12 vd va vb q true false fun f rm a b _ => f.fdiv rm a b)

def execVmin (vd va vb : BitVec 5) (q : BitVec 4) (s : State) : Host.Outcome State Fault Refusal :=
  s.issueOn (fpOp 4 vd va vb q true false fun f _ a b _ => f.fminmax false a b)

def execVmax (vd va vb : BitVec 5) (q : BitVec 4) (s : State) : Host.Outcome State Fault Refusal :=
  s.issueOn (fpOp 4 vd va vb q true false fun f _ a b _ => f.fminmax true a b)

def execVfma (vd va vb : BitVec 5) (q : BitVec 4) (s : State) : Host.Outcome State Fault Refusal :=
  s.issueOn (fpOp 4 vd va vb q true true fun f rm a b d => f.ffma rm a b d false false)

def execVfms (vd va vb : BitVec 5) (q : BitVec 4) (s : State) : Host.Outcome State Fault Refusal :=
  s.issueOn (fpOp 4 vd va vb q true true fun f rm a b d => f.ffma rm a b d false true)

def execVfnma (vd va vb : BitVec 5) (q : BitVec 4) (s : State) : Host.Outcome State Fault Refusal :=
  s.issueOn (fpOp 4 vd va vb q true true fun f rm a b d => f.ffma rm a b d true false)

/-! Single-source forms (R152). -/

def execVexp2 (vd va : BitVec 5) (q : BitVec 4) (s : State) : Host.Outcome State Fault Refusal :=
  s.issueOn (fpOp 8 vd va va q false false fun f rm a _ _ => f.fexp2 rm a)

def execVlog2 (vd va : BitVec 5) (q : BitVec 4) (s : State) : Host.Outcome State Fault Refusal :=
  s.issueOn (fpOp 8 vd va va q false false fun f rm a _ _ => f.flog2 rm a)

def execVrcp (vd va : BitVec 5) (q : BitVec 4) (s : State) : Host.Outcome State Fault Refusal :=
  s.issueOn (fpOp 8 vd va va q false false fun f rm a _ _ => f.frcp rm a)

def execVrsq (vd va : BitVec 5) (q : BitVec 4) (s : State) : Host.Outcome State Fault Refusal :=
  s.issueOn (fpOp 8 vd va va q false false fun f rm a _ _ => f.frsq rm a)

def execVsin (vd va : BitVec 5) (q : BitVec 4) (s : State) : Host.Outcome State Fault Refusal :=
  s.issueOn (fpOp 8 vd va va q false false fun f rm a _ _ => f.fsinpi rm a)

def execVcos (vd va : BitVec 5) (q : BitVec 4) (s : State) : Host.Outcome State Fault Refusal :=
  s.issueOn (fpOp 8 vd va va q false false fun f rm a _ _ => f.fcospi rm a)

def execVtanh (vd va : BitVec 5) (q : BitVec 4) (s : State) : Host.Outcome State Fault Refusal :=
  s.issueOn (fpOp 8 vd va va q false false fun f rm a _ _ => f.ftanh rm a)

def execVsqrt (vd va : BitVec 5) (q : BitVec 4) (s : State) : Host.Outcome State Fault Refusal :=
  s.issueOn (fpOp 12 vd va va q false false fun f rm a _ _ => f.fsqrt rm a)

def execVabs (vd va : BitVec 5) (q : BitVec 4) (s : State) : Host.Outcome State Fault Refusal :=
  s.issueOn (fpOp 2 vd va va q false false fun f _ a _ _ => f.fabs a)

def execVneg (vd va : BitVec 5) (q : BitVec 4) (s : State) : Host.Outcome State Fault Refusal :=
  s.issueOn (fpOp 2 vd va va q false false fun f _ a _ _ => f.fnegate a)

/-! Integer and bit forms (R154). -/

/-- A sum of signed sub-elements clamped to w bits; a clamp sets IS. -/
def clampW (w : Nat) (i : Int) : Nat × Flags :=
  let lo := (intRange w true).1
  let hi := (intRange w true).2
  if i < lo then (wrapTo w lo, IS) else if hi < i then (wrapTo w hi, IS) else (wrapTo w i, 0)

def execViadd (vd va vb : BitVec 5) (q : BitVec 4) (s : State) : Host.Outcome State Fault Refusal :=
  s.issueOn (ibOp vd va vb q true false fun w a b _ => (wrapTo w (a + b), 0))

def execVisub (vd va vb : BitVec 5) (q : BitVec 4) (s : State) : Host.Outcome State Fault Refusal :=
  s.issueOn (ibOp vd va vb q true false fun w a b _ => (wrapTo w ((a : Int) - b), 0))

def execVimul (vd va vb : BitVec 5) (q : BitVec 4) (s : State) : Host.Outcome State Fault Refusal :=
  s.issueOn (ibOp vd va vb q true false fun w a b _ => (a * b % 2 ^ w, 0))

def execVimin (vd va vb : BitVec 5) (q : BitVec 4) (s : State) : Host.Outcome State Fault Refusal :=
  s.issueOn (ibOp vd va vb q true false fun w a b _ => (if signedOf w a < signedOf w b then a else b, 0))

def execVimax (vd va vb : BitVec 5) (q : BitVec 4) (s : State) : Host.Outcome State Fault Refusal :=
  s.issueOn (ibOp vd va vb q true false fun w a b _ => (if signedOf w a < signedOf w b then b else a, 0))

def execViminu (vd va vb : BitVec 5) (q : BitVec 4) (s : State) : Host.Outcome State Fault Refusal :=
  s.issueOn (ibOp vd va vb q true false fun _ a b _ => (min a b, 0))

def execVimaxu (vd va vb : BitVec 5) (q : BitVec 4) (s : State) : Host.Outcome State Fault Refusal :=
  s.issueOn (ibOp vd va vb q true false fun _ a b _ => (max a b, 0))

def execViadds (vd va vb : BitVec 5) (q : BitVec 4) (s : State) : Host.Outcome State Fault Refusal :=
  s.issueOn (ibOp vd va vb q true false fun w a b _ => clampW w (signedOf w a + signedOf w b))

def execVisubs (vd va vb : BitVec 5) (q : BitVec 4) (s : State) : Host.Outcome State Fault Refusal :=
  s.issueOn (ibOp vd va vb q true false fun w a b _ => clampW w (signedOf w a - signedOf w b))

def execVand (vd va vb : BitVec 5) (q : BitVec 4) (s : State) : Host.Outcome State Fault Refusal :=
  s.issueOn (ibOp vd va vb q true false fun _ a b _ => (a &&& b, 0))

def execVor (vd va vb : BitVec 5) (q : BitVec 4) (s : State) : Host.Outcome State Fault Refusal :=
  s.issueOn (ibOp vd va vb q true false fun _ a b _ => (a ||| b, 0))

def execVxor (vd va vb : BitVec 5) (q : BitVec 4) (s : State) : Host.Outcome State Fault Refusal :=
  s.issueOn (ibOp vd va vb q true false fun _ a b _ => (a ^^^ b, 0))

def execVandn (vd va vb : BitVec 5) (q : BitVec 4) (s : State) : Host.Outcome State Fault Refusal :=
  s.issueOn (ibOp vd va vb q true false fun w a b _ => (a &&& (2 ^ w - 1 - b), 0))

def execVshl (vd va vb : BitVec 5) (q : BitVec 4) (s : State) : Host.Outcome State Fault Refusal :=
  s.issueOn (ibOp vd va vb q true false fun w a b _ => (if w ≤ b then 0 else a * 2 ^ b % 2 ^ w, 0))

def execVshr (vd va vb : BitVec 5) (q : BitVec 4) (s : State) : Host.Outcome State Fault Refusal :=
  s.issueOn (ibOp vd va vb q true false fun w a b _ => (if w ≤ b then 0 else a / 2 ^ b, 0))

def execVsar (vd va vb : BitVec 5) (q : BitVec 4) (s : State) : Host.Outcome State Fault Refusal :=
  s.issueOn (ibOp vd va vb q true false fun w a b _ => (wrapTo w (signedOf w a / (2 ^ min b w : Nat)), 0))

def execVclz (vd va : BitVec 5) (q : BitVec 4) (s : State) : Host.Outcome State Fault Refusal :=
  s.issueOn (ibOp vd va va q false false fun w a _ _ => (leadingZeros w a, 0))

def execVpopc (vd va : BitVec 5) (q : BitVec 4) (s : State) : Host.Outcome State Fault Refusal :=
  s.issueOn (ibOp vd va va q false false fun w a _ _ => (popCount w a, 0))

/-! Funnel shifts (R155): n = min(b, w). -/

def execVfshl (vd va vb : BitVec 5) (q : BitVec 4) (s : State) : Host.Outcome State Fault Refusal :=
  s.issueOn (ibOp vd va vb q true true fun w a b d => ((d * 2 ^ w + a) * 2 ^ min b w / 2 ^ w % 2 ^ w, 0))

def execVfshr (vd va vb : BitVec 5) (q : BitVec 4) (s : State) : Host.Outcome State Fault Refusal :=
  s.issueOn (ibOp vd va vb q true true fun w a b d => ((a * 2 ^ w + d) / 2 ^ min b w % 2 ^ w, 0))

/-! Immediate forms (R153, R156): vd is source and destination. -/

/-- A float immediate in an element format (R66). -/
def immFor (f : FloatFmt) (h : Half) : Nat :=
  if f.width = 32 then immF32 h else if f = bf16 then h.toNat else immF16 h

/-- An integer immediate as a sub-element of `w` bits. -/
def immInt (w : Nat) (i : Half) : Nat := wrapTo w i.toInt

def fpImm (vd : BitVec 5) (h : Half) (f : FloatFmt → Nat → Nat → Nat → FRes) (x : Ctx) (c : Core) : Eff :=
  fpOp 4 vd vd vd 0 false false (fun fmt rm a _ _ => f fmt rm a (immFor fmt h)) x c

def ibImm (vd : BitVec 5) (f : Nat → Nat → Nat) (x : Ctx) (c : Core) : Eff :=
  ibOp vd vd vd 0 false false (fun w a _ _ => (f w a, 0)) x c

def execVaddi (vd : BitVec 5) (i : BitVec 16) (s : State) : Host.Outcome State Fault Refusal :=
  s.issueOn (fpImm vd i fun f rm a h => f.fadd rm a h)

def execVmuli (vd : BitVec 5) (i : BitVec 16) (s : State) : Host.Outcome State Fault Refusal :=
  s.issueOn (fpImm vd i fun f rm a h => f.fmul rm a h)

def execVmaxi (vd : BitVec 5) (i : BitVec 16) (s : State) : Host.Outcome State Fault Refusal :=
  s.issueOn (fpImm vd i fun f _ a h => f.fminmax true a h)

def execVmini (vd : BitVec 5) (i : BitVec 16) (s : State) : Host.Outcome State Fault Refusal :=
  s.issueOn (fpImm vd i fun f _ a h => f.fminmax false a h)

def execViaddi (vd : BitVec 5) (i : BitVec 16) (s : State) : Host.Outcome State Fault Refusal :=
  s.issueOn (ibImm vd fun w a => (a + immInt w i) % 2 ^ w)

def execViandi (vd : BitVec 5) (i : BitVec 16) (s : State) : Host.Outcome State Fault Refusal :=
  s.issueOn (ibImm vd fun w a => a &&& immInt w i)

def execVishli (vd : BitVec 5) (i : BitVec 16) (s : State) : Host.Outcome State Fault Refusal :=
  s.issueOn (ibImm vd fun w a => if w ≤ i.toNat then 0 else a * 2 ^ i.toNat % 2 ^ w)

def execVishri (vd : BitVec 5) (i : BitVec 16) (s : State) : Host.Outcome State Fault Refusal :=
  s.issueOn (ibImm vd fun w a => if w ≤ i.toNat then 0 else a / 2 ^ i.toNat)

/-! Compares (R157): a bit for every lane of qd, 0 where the lane is not enabled. -/

/-- A relation over two sources: bit and flags of each lane; every sub-element must hold. -/
def relLanes (f : W32 → W32 → Bool × Flags) : List Bool → List W32 → List W32 → List Bool × Flags
  | o :: os, a :: as, b :: bs =>
    let r := relLanes f os as bs
    if o then
      let y := f a b
      (y.1 :: r.1, y.2 ||| r.2)
    else (false :: r.1, r.2)
  | _, _, _ => ([], 0)

def relSubs (w : Nat) (f : Nat → Nat → Bool × Flags) (a b : W32) : Bool × Flags :=
  let ys := List.zipWith f (subs w a) (subs w b)
  (ys.all (·.1), (ys.map (·.2)).foldl (· ||| ·) 0)

def cmpV (qd : BitVec 4) (va vb : BitVec 5) (q : BitVec 4) (f : VShape → W32 → W32 → Bool × Flags) (x : Ctx)
    (c : Core) : Eff :=
  let sh := c.shapeFor x
  let a := c.phys va.toNat
  let b := c.phys vb.toNat
  c.checked x [vReg a, vReg b, qReg q.toNat] [(qReg qd.toNat, x.t + 2)] [] fun c =>
    let r := relLanes (f sh) (lanesOn sh (c.qget q.toNat)) (c.vget x a) (c.vget x b)
    c.qresult x 2 qd.toNat (packMask r.1) r.2

def fpCmp (qd : BitVec 4) (va vb : BitVec 5) (q : BitVec 4) (f : FloatFmt → Nat → Nat → Bool × Flags) (x : Ctx)
    (c : Core) : Eff :=
  match etyFloat (c.shapeFor x).ety with
  | none => Eff.illegal c x [(c.shapeFor x).ety]
  | some fmt => cmpV qd va vb q (fun _ => relSubs fmt.width (f fmt)) x c

def intCmp (qd : BitVec 4) (va vb : BitVec 5) (q : BitVec 4) (f : Nat → Nat → Nat → Bool) (x : Ctx) (c : Core) : Eff :=
  cmpV qd va vb q (fun sh => relSubs (etyWidth sh.ety) fun a b => (f (etyWidth sh.ety) a b, 0)) x c

def execVfceq (qd : BitVec 4) (va vb : BitVec 5) (q : BitVec 4) (s : State) : Host.Outcome State Fault Refusal :=
  s.issueOn (fpCmp qd va vb q fun f a b => f.feq a b)

def execVfclt (qd : BitVec 4) (va vb : BitVec 5) (q : BitVec 4) (s : State) : Host.Outcome State Fault Refusal :=
  s.issueOn (fpCmp qd va vb q fun f a b => f.flt a b)

def execVfcle (qd : BitVec 4) (va vb : BitVec 5) (q : BitVec 4) (s : State) : Host.Outcome State Fault Refusal :=
  s.issueOn (fpCmp qd va vb q fun f a b => f.fle a b)

def execVfcun (qd : BitVec 4) (va vb : BitVec 5) (q : BitVec 4) (s : State) : Host.Outcome State Fault Refusal :=
  s.issueOn (fpCmp qd va vb q fun f a b => f.funord a b)

def execViceq (qd : BitVec 4) (va vb : BitVec 5) (q : BitVec 4) (s : State) : Host.Outcome State Fault Refusal :=
  s.issueOn (intCmp qd va vb q fun _ a b => a == b)

def execViclt (qd : BitVec 4) (va vb : BitVec 5) (q : BitVec 4) (s : State) : Host.Outcome State Fault Refusal :=
  s.issueOn (intCmp qd va vb q fun w a b => decide (signedOf w a < signedOf w b))

def execVicle (qd : BitVec 4) (va vb : BitVec 5) (q : BitVec 4) (s : State) : Host.Outcome State Fault Refusal :=
  s.issueOn (intCmp qd va vb q fun w a b => decide (signedOf w a ≤ signedOf w b))

def execVicltu (qd : BitVec 4) (va vb : BitVec 5) (q : BitVec 4) (s : State) : Host.Outcome State Fault Refusal :=
  s.issueOn (intCmp qd va vb q fun _ a b => decide (a < b))

def execVicleu (qd : BitVec 4) (va vb : BitVec 5) (q : BitVec 4) (s : State) : Host.Outcome State Fault Refusal :=
  s.issueOn (intCmp qd va vb q fun _ a b => decide (a ≤ b))

/-- VSEL: va where the selector bit is 1, vb elsewhere, on every active lane (R158). -/
def execVsel (vd va vb : BitVec 5) (q : BitVec 4) (s : State) : Host.Outcome State Fault Refusal :=
  s.issueOn fun x c =>
    let sh := c.shapeFor x
    let d := c.phys (x.repReg vd.toNat)
    let a := c.phys (x.repReg va.toNat)
    let b := c.phys vb.toNat
    c.checked x [vReg a, vReg b, qReg q.toNat] [(vReg d, x.t + 2)] [] fun c =>
      let sel := List.zipWith (fun (o : Bool) (v : W32 × W32) => if o then v.1 else v.2) (maskLanes (c.qget q.toNat))
        ((c.vget x a).zip (c.vget x b))
      let r := List.zipWith (fun (o : Bool) (v : W32) => if o then some v else none)
        (lanesOn sh (List.replicate 64 0xFFFF)) sel
      c.vresult x 2 d r 0

/-! Conversion and packing (R159). -/

/-- One lane's conversion: result, flags, the first sub-element that traps. -/
def convLane (ts tt rm pol : Nat) (xs : List Nat) : W32 × Flags × Option Nat :=
  let ys := xs.map fun v => convertTo (etyFmt tt) rm pol (valueOf (etyFmt ts) [] v)
  (joinSubs (etyWidth tt) (ys.map (·.bits)), (ys.map (·.fl)).foldl (· ||| ·) 0, ys.findIdx? (·.trap))

/-- The lanes converted in linear order: results, flags, the first offending position. -/
def convLanes (f : W32 → W32 → W32 × Flags × Option Nat) (kt : Nat) : Nat → List Bool → List W32 → List W32 →
    List (Option W32) × Flags × Option Nat
  | l, o :: os, a :: as, b :: bs =>
    let r := convLanes f kt (l + 1) os as bs
    if o then
      let y := f a b
      (some y.1 :: r.1, y.2.1 ||| r.2.1, match y.2.2 with
        | some j => some (l * kt + j)
        | none => r.2.2)
    else (none :: r.1, r.2)
  | _, _, _, _ => ([], 0, none)

/-- The conversions share one shape: `need` tells the permitted pair of counts, `pick` the sub-elements converted. Under
TRAP an offending element raises CONVERSION_TRAP at issue + 4 and nothing is written (R59). -/
def convOp (vd va : BitVec 5) (ty : BitVec 3) (rs : BitVec 1) (rm pol : BitVec 2) (q : BitVec 4) (pack : Bool)
    (need : Nat → Nat → Bool) (pick : Nat → Nat → List Nat → List Nat → List Nat) (x : Ctx) (c : Core) : Eff :=
  let sh := c.shapeFor x
  let ts := sh.ety
  let tt := ty.toNat
  let ks := etyCount ts
  let kt := etyCount tt
  let mode := if rs = 1 then sh.rm else rm.toNat
  if !need ks kt then Eff.illegal c x [ts, tt]
  else if pack && x.rep.isNone && va.toNat == 31 then Eff.fault c x cRange 0 32 0 0
  else
    let d := c.phys (x.repReg vd.toNat)
    let a := c.phys (x.repReg va.toNat)
    let b := if pack then c.phys (x.repReg va.toNat + 1) else a
    let on := lanesOn sh (c.qget q.toNat)
    if !on.any id then Eff.ok c
    else
      c.checked x [vReg a, vReg b, qReg q.toNat] [(vReg d, x.t + 4)] [] fun c =>
        let f := fun (u w : W32) =>
          if !pack && ts == tt then (u, (0 : Flags), none)
          else convLane ts tt mode pol.toNat (pick ks kt (subs (etyWidth ts) u) (subs (etyWidth ts) w))
        let r := convLanes f kt 0 on (c.vget x a) (c.vget x b)
        match r.2.2 with
        | some pos => (Eff.ok c).faults [⟨cTrap, 0, x.desc, x.t + 4, w64 pos, 0, 0⟩]
        | none => c.vresult x 4 d r.1 r.2.1

def execVcvt (vd va : BitVec 5) (ty : BitVec 3) (rs : BitVec 1) (rm pol : BitVec 2) (q : BitVec 4) (s : State) :
    Host.Outcome State Fault Refusal :=
  s.issueOn (convOp vd va ty rs rm pol q false (fun ks kt => ks == kt) fun _ _ a _ => a)

def execVpack (vd va : BitVec 5) (ty : BitVec 3) (rs : BitVec 1) (rm pol : BitVec 2) (q : BitVec 4) (s : State) :
    Host.Outcome State Fault Refusal :=
  s.issueOn (convOp vd va ty rs rm pol q true (fun ks kt => kt == 2 * ks) fun _ _ a b => a ++ b)

def execVunpl (vd va : BitVec 5) (ty : BitVec 3) (rs : BitVec 1) (rm pol : BitVec 2) (q : BitVec 4) (s : State) :
    Host.Outcome State Fault Refusal :=
  s.issueOn (convOp vd va ty rs rm pol q false (fun ks kt => ks == 2 * kt) fun _ kt a _ => a.take kt)

def execVunph (vd va : BitVec 5) (ty : BitVec 3) (rs : BitVec 1) (rm pol : BitVec 2) (q : BitVec 4) (s : State) :
    Host.Outcome State Fault Refusal :=
  s.issueOn (convOp vd va ty rs rm pol q false (fun ks kt => ks == 2 * kt) fun _ kt a _ => a.drop kt)

/-! Masks (R160): all 64 words, whatever SHAPE says. -/

def maskOp (qd qa qb : BitVec 4) (f : Half → Half → Half) (x : Ctx) (c : Core) : Eff :=
  c.checked x [qReg qa.toNat, qReg qb.toNat] [(qReg qd.toNat, x.t + 1)] [] fun c =>
    c.qresult x 1 qd.toNat (List.zipWith f (c.qget qa.toNat) (c.qget qb.toNat)) 0

def execQand (qd qa qb : BitVec 4) (s : State) : Host.Outcome State Fault Refusal :=
  s.issueOn (maskOp qd qa qb fun a b => a &&& b)

def execQor (qd qa qb : BitVec 4) (s : State) : Host.Outcome State Fault Refusal :=
  s.issueOn (maskOp qd qa qb fun a b => a ||| b)

def execQxor (qd qa qb : BitVec 4) (s : State) : Host.Outcome State Fault Refusal :=
  s.issueOn (maskOp qd qa qb fun a b => a ^^^ b)

def execQandn (qd qa qb : BitVec 4) (s : State) : Host.Outcome State Fault Refusal :=
  s.issueOn (maskOp qd qa qb fun a b => a &&& ~~~ b)

def execQnot (qd qa : BitVec 4) (s : State) : Host.Outcome State Fault Refusal :=
  s.issueOn (maskOp qd qa qa fun a _ => ~~~ a)

/-- QGATH: word c of qd is word i of qa, i = lane (0, c) of vb; 0 when i is 64 or more. -/
def execQgath (qd qa : BitVec 4) (vb : BitVec 5) (s : State) : Host.Outcome State Fault Refusal :=
  s.issueOn fun x c =>
    let b := c.phys vb.toNat
    c.checked x [qReg qa.toNat, vReg b] [(qReg qd.toNat, x.t + 3)] [] fun c =>
      let q := c.qget qa.toNat
      c.qresult x 3 qd.toNat (((c.vget x b).take 64).map fun i => if i.toNat < 64 then q.getD i.toNat 0 else 0) 0

def execQseti (qd : BitVec 4) (i : BitVec 16) (s : State) : Host.Outcome State Fault Refusal :=
  s.issueOn fun x c =>
    c.checked x [] [(qReg qd.toNat, x.t + 1)] [] fun c => c.qresult x 1 qd.toNat (List.replicate 64 i) 0

/-- QFROMV: bit r of word c is 1 when lane (r, c) is active and not all zero. -/
def execQfromv (qd : BitVec 4) (va : BitVec 5) (s : State) : Host.Outcome State Fault Refusal :=
  s.issueOn fun x c =>
    let a := c.phys va.toNat
    c.checked x [vReg a] [(qReg qd.toNat, x.t + 2)] [] fun c =>
      let on := lanesOn (c.shapeFor x) (List.replicate 64 0xFFFF)
      c.qresult x 2 qd.toNat (packMask (List.zipWith (fun o v => o && v != 0) on (c.vget x a))) 0

/-! SHAPE and RRB (R146, R182): the value holds for words that issue in the next cycle or later. -/

def execShape (rows : BitVec 4) (cols : BitVec 6) (ety : BitVec 3) (rm pol : BitVec 2) (rag : BitVec 1) (stg : BitVec 3)
    (s : State) : Host.Outcome State Fault Refusal :=
  s.issueOn fun x c =>
    (Eff.ok c).also [(x.t + 1, phStart, .registerWriteback x.k (.sp 9)
      (w64 (rows.toNat * 2 ^ 17 + cols.toNat * 2 ^ 11 + ety.toNat * 2 ^ 8 + rm.toNat * 2 ^ 6 + pol.toNat * 2 ^ 4
        + rag.toNat * 2 ^ 3 + stg.toNat)) 0)]

def execRrb (n : BitVec 4) (s : State) : Host.Outcome State Fault Refusal :=
  s.issueOn fun x c => (Eff.ok c).also [(x.t + 1, phStart, .registerWriteback x.k (.sp 10) (n.setWidth 64) 0)]

end Sys2Proof.Machine
end

