-- ==== Sys2Proof/Machine/VectorData.lean ====
section
/-! DEFINITION. V words that move data (R162 to R171), reduce along an axis (R70, R172, R173), rotate and broadcast
(R174), sort lanes (R176), walk ragged tiles (R178) and carry bounds (R180). -/

namespace Sys2Proof.Machine

/-- A movement of this word that begins at `dep` over bank bytes of the word's own core. -/
def moveOf (x : Ctx) (dep cls lane unit : Nat) (kind : MoveKind) (ring : Option (Nat × Nat)) (beat : Nat) : Move :=
  { d := { x.desc with start := dep }, k := x.k, cls := cls, lane := lane, unit := unit, kind := kind, ring := ring,
    beat := beat, tag := none, lanes := [], bytes := [], fl := 0 }

/-- Pieces of a read, departing beat by beat from `dep`. -/
def readPiecesOf (beat dep : Nat) (parts : List (Nat × Nat × Nat)) : List Piece :=
  parts.map fun p => ⟨dep + p.2.2 / beat, p.1, p.2.1, p.2.2, [], []⟩

/-- A read movement of `w` lanes that departs from `dep` on: its segments (R76, R77) and its first beat. `now` is the
cycle in progress. -/
def Core.startRead (c : Core) (now : Nat) (m : Move) (w dep : Nat) (runs : List (Nat × Nat)) : Eff :=
  let parts := partsOf m.beat runs
  let r := c.occupy m.k (moveOccs m.d m.lane w m.beat dep m.unit true parts) now
  ((Eff.ok r.1).also [(dep, phRead, .laneBeat m (readPiecesOf m.beat dep parts))]).faults r.2

/-- The cycle of the last arrival of a read at `unit`: the largest i + hᵢ, counted from `dep` (R163). -/
def lastArrival (lane beat dep unit : Nat) (runs : List (Nat × Nat)) : Nat :=
  (partsOf beat runs).foldl (fun n p => max n (dep + p.2.2 / beat + hopsOn lane (bankStation (bankOf p.1)) unit)) 0

/-- The bookkeeping of a predicated-off movement of a ring (R83). -/
def skipMove (x : Ctx) (wr : Bool) (g off lane : Nat) (runs : List (Nat × Nat)) : List (Nat × Nat × Act) :=
  let parts := partsOf 64 runs
  let m := moveOf x (x.t + 2) 0 lane (if wr then 3 else 1) (.skip wr) (some (g, off)) 64
  if wr then startWrites m (fillParts (arriveAt lane 64 (x.t + 2) 3) parts [] [])
  else [(x.t + 2, phRead, .laneBeat m (readPiecesOf 64 (x.t + 2) parts))]

/-- A load of a register image into vd from runs of bytes (R163). -/
def Core.loadImage (c : Core) (x : Ctx) (vd cls lane : Nat) (on : List Bool) (ring : Option (Nat × Nat))
    (tag : Option Half) (runs : List (Nat × Nat)) (paths : List (Nat × Path)) : Eff :=
  let m := { moveOf x (x.t + 2) cls lane 1
    (.load vd (lastArrival lane 64 (x.t + 2) 1 runs) (packMask on) paths) ring 64 with tag := tag }
  c.startRead x.t m 1 (x.t + 2) runs

/-- VLD vd, gN, fM, acK (R164). -/
def execVld (vd : BitVec 5) (g f q : BitVec 4) (cls : BitVec 2) (s : State) : Host.Outcome State Fault Refusal :=
  s.issueOn fun x c =>
    let g := g.toNat
    let r := c.ring g
    if r.nfr = 0 then ringFault c x g 0
    else
      match c.image (c.shapeFor x).ety (r.addr r.rd) (r.runs r.rd) with
      | .error b => Eff.illegal c x (fmtVals c (c.shapeFor x).ety b)
      | .ok (n, paths) =>
        let on := lanesOn (c.shapeFor x) (c.qget q.toNat)
        let d := c.phys vd.toNat
        let runs := r.runs r.rd n
        if !on.any id then
          c.drains x g n fun c off => (Eff.ok c).also (skipMove x false g off f.toNat runs)
        else
          c.checked x [qReg q.toNat] [(vReg d, lastArrival f.toNat 64 (x.t + 2) 1 runs)] [] fun c =>
            c.drains x g n fun c off => c.loadImage x d cls.toNat f.toNat on (some (g, off)) none runs paths

/-- A V store begins: its segments, its conversion at issue + 2 (R162, R163). -/
def Core.startStore (c : Core) (x : Ctx) (m : StoreRun) : Eff :=
  let r := c.occupy x.k (moveOccs m.d m.lane 1 64 (x.t + 2) 3 false (partsOf 64 m.runs)) x.t
  ((Eff.ok r.1).also [(x.t + 2, phRead, .vStoreConversion m)]).faults r.2

/-- A store of a register image. -/
def storeRunOf (x : Ctx) (lane cls rm : Nat) (paths : List (Nat × Path)) (lanes : List W32) (on : List Bool)
    (runs : List (Nat × Nat)) (ring : Option (Nat × Nat)) : StoreRun :=
  { d := { x.desc with start := x.t + 2 }, lane := lane, cls := cls, paths := paths, rm := rm, pol := none,
    lanes := lanes, on := on, runs := runs, ring := ring, mbytes := none, items := none }

/-- VST vd, gN, fM, acK (R164). -/
def execVst (vd : BitVec 5) (g f q : BitVec 4) (cls : BitVec 2) (s : State) : Host.Outcome State Fault Refusal :=
  s.issueOn fun x c =>
    let g := g.toNat
    let r := c.ring g
    let sh := c.shapeFor x
    if r.nfr = 0 then ringFault c x g 0
    else
      match c.image sh.ety (r.addr r.wr) (r.runs r.wr) with
      | .error b => Eff.illegal c x (fmtVals c sh.ety b)
      | .ok (n, paths) =>
        let on := lanesOn sh (c.qget q.toNat)
        let d := c.phys vd.toNat
        let runs := r.runs r.wr n
        if !on.any id then
          c.fills x g n fun c off => (Eff.ok c).also (skipMove x true g off f.toNat runs)
        else
          c.checked x [vReg d, qReg q.toNat] [] [] fun c =>
            c.fills x g n fun c off =>
              c.startStore x (storeRunOf x f.toNat cls.toNat sh.rm paths (c.vget x d) on runs (some (g, off)))

/-- The fault of an address of `n` bytes that must be a multiple of 64 (R165). -/
def imageFaults (x : Ctx) (a : W64) (n : Nat) : List CFault :=
  if a.toNat % 64 != 0 || decide (spadSize ≤ a.toNat + n - 1) then [⟨cRegion, rScratch, x.desc, x.t, a, 0, 0⟩] else []

/-- VLDA vd, sA, fM, acK (R165). -/
def execVlda (vd : BitVec 5) (sa : BitVec 6) (f q : BitVec 4) (cls : BitVec 2) (s : State) :
    Host.Outcome State Fault Refusal :=
  s.issueOn fun x c =>
    let ety := (c.shapeFor x).ety
    let on := lanesOn (c.shapeFor x) (c.qget q.toNat)
    if !on.any id then Eff.ok c
    else
      let a := c.sget sa.toNat
      let d := c.phys vd.toNat
      if spadSize ≤ a.toNat then c.checked x [sReg sa.toNat, qReg q.toNat] [] (imageFaults x a 64) Eff.ok
      else
        match c.image ety a.toNat (fun n => [(a.toNat, min n (spadSize - a.toNat))]) with
        | .error b => c.checked x [sReg sa.toNat, qReg q.toNat] [] (illegalFaults c x (fmtVals c ety b)) Eff.ok
        | .ok (n, paths) =>
          c.checked x [sReg sa.toNat, qReg q.toNat]
            [(vReg d, lastArrival f.toNat 64 (x.t + 2) 1 [(a.toNat, n)])] (imageFaults x a n) fun c =>
              c.loadImage x d cls.toNat f.toNat on none none [(a.toNat, n)] paths

/-- VSTA vd, sA, fM, acK (R165). -/
def execVsta (vd : BitVec 5) (sa : BitVec 6) (f q : BitVec 4) (cls : BitVec 2) (s : State) :
    Host.Outcome State Fault Refusal :=
  s.issueOn fun x c =>
    let sh := c.shapeFor x
    let on := lanesOn sh (c.qget q.toNat)
    if !on.any id then Eff.ok c
    else
      let a := c.sget sa.toNat
      let d := c.phys vd.toNat
      if spadSize ≤ a.toNat then
        c.checked x [sReg sa.toNat, qReg q.toNat, vReg d] [] (imageFaults x a 64) Eff.ok
      else
        match c.image sh.ety a.toNat (fun n => [(a.toNat, min n (spadSize - a.toNat))]) with
        | .error b =>
          c.checked x [sReg sa.toNat, qReg q.toNat, vReg d] [] (illegalFaults c x (fmtVals c sh.ety b)) Eff.ok
        | .ok (n, paths) =>
          c.checked x [sReg sa.toNat, qReg q.toNat, vReg d] [] (imageFaults x a n) fun c =>
            c.startStore x (storeRunOf x f.toNat cls.toNat sh.rm paths (c.vget x d) on [(a.toNat, n)] none)

/-- The fault of a tagged load that leaves its frame (R166). -/
def frameFaults (x : Ctx) (a : W64) (n : Nat) : List CFault :=
  if a.toNat % 64 != 0 || decide (4096 < a.toNat % 4096 + n) || decide (spadSize ≤ a.toNat) then
    [⟨cRegion, rScratch, x.desc, x.t, a, 0, 0⟩]
  else []

/-- VLDT vd, sA, sG, fM, acK (R166). -/
def execVldt (vd : BitVec 5) (sa sg : BitVec 6) (f : BitVec 4) (cls : BitVec 2) (s : State) :
    Host.Outcome State Fault Refusal :=
  s.issueOn fun x c =>
    let ety := (c.shapeFor x).ety
    let on := lanesOn (c.shapeFor x) (c.qget 0)
    let a := c.sget sa.toNat
    let d := c.phys vd.toNat
    if spadSize ≤ a.toNat then c.checked x [sReg sa.toNat, sReg sg.toNat] [] (frameFaults x a 64) Eff.ok
    else
      match c.image ety a.toNat (fun n => [(a.toNat, min n (spadSize - a.toNat))]) with
      | .error b => c.checked x [sReg sa.toNat, sReg sg.toNat] [] (illegalFaults c x (fmtVals c ety b)) Eff.ok
      | .ok (n, paths) =>
        c.checked x [sReg sa.toNat, sReg sg.toNat]
          [(vReg d, lastArrival f.toNat 64 (x.t + 2) 1 [(a.toNat, n)])] (frameFaults x a n) fun c =>
            c.loadImage x d cls.toNat f.toNat on none (some ((c.sget sg.toNat).setWidth 16)) [(a.toNat, n)] paths

/-- The byte mask of VSTM from a pair of masks (R167). -/
def byteMask (q0 q1 : List Half) : List Bool :=
  (q0 ++ q1).flatMap fun w => (List.range 16).map fun i => w.getLsbD i

/-- VSTM vd, sA, fM, qN, acK (R167); `q` is half the number of the first mask. -/
def execVstm (vd : BitVec 5) (sa : BitVec 6) (f : BitVec 4) (q : BitVec 3) (cls : BitVec 2) (s : State) :
    Host.Outcome State Fault Refusal :=
  s.issueOn fun x c =>
    let a := c.sget sa.toNat
    let d := c.phys vd.toNat
    let n := 2 * q.toNat
    c.checked x [sReg sa.toNat, vReg d, qReg n, qReg (n + 1)] []
      (if spadSize ≤ a.toNat + 2047 then [⟨cRegion, rScratch, x.desc, x.t, a, 0, 0⟩] else []) fun c =>
        c.startStore x { storeRunOf x f.toNat cls.toNat 0 [] (c.vget x d) [] [(a.toNat, 2048)] none with
          mbytes := some (byteMask (c.qget n) (c.qget (n + 1))) }

/-- A sidecar value: +∞ where the lane is disabled, NaN or below −0 (R168). -/
def sidecarValue (on : Bool) (v : W32) : W32 :=
  match fp32.value v.toNat with
  | .nan _ => 0x7F800000
  | y => if !on || y.lt (.fin false 0 0) then 0x7F800000 else v

/-- VSTB vd, gN (R86, R168). -/
def execVstb (vd : BitVec 5) (g q : BitVec 4) (s : State) : Host.Outcome State Fault Refusal :=
  s.issueOn fun x c =>
    let r := c.ring g.toNat
    let d := c.phys vd.toNat
    if r.nfr = 0 then ringFault c x g.toNat 0
    else if !r.side then ringFault c x g.toNat (r.wr % r.size)
    else
      c.checked x [vReg d, qReg q.toNat] [] [] fun c =>
        let vals := List.zipWith sidecarValue ((maskLanes (c.qget q.toNat)).take 128) ((c.vget x d).take 128)
        (Eff.ok c).also [(x.t + 2, phEnd, .sidecarAttach x.k g.toNat (r.wr / r.tileBytes) vals)]

/-! Gather and scatter (R169, R170). -/

/-- The segments of a full circuit of 64 beats that leaves its unit at `dep`. -/
def circuitOccs (d : Desc) (lane unit dep : Nat) : List Occ := (Leg.mk lane unit unit dep 1 64).occs d true

/-- The items of the lanes that make an access: lane, bit address (R169). -/
def itemsOf (w base : Nat) (on : List Bool) (idx : List W32) : List (Nat × Nat) :=
  ((on.zip idx).zipIdx).filterMap fun e =>
    if e.1.1 && e.1.2 != 0xFFFFFFFF then some (e.2, 8 * base + w * e.1.2.toNat) else none

/-- The faults of gathered or scattered items, all at issue + 12 (R169). DATA1 holds the low 8 bits of the lane (R343,
DEDUCED, log 41). -/
def Core.itemFaults (c : Core) (x : Ctx) (ety base : Nat) (p : Path) (items : List (Nat × Nat)) : List CFault :=
  let at_ := x.t + 12
  items.flatMap fun e =>
    if base % 4 != 0 || decide (spadSize ≤ e.2 / 8) then [⟨cRegion, rScratch, x.desc, at_, w64 (e.2 / 8), w64 e.1, 0⟩]
    else if pathOf (c.bank (bankOf (e.2 / 8))) ety != some p then
      [⟨cIllegal, 0, x.desc, at_, x.word.setWidth 64, w64 (e.1 % 256 + 256 * bankOf (e.2 / 8)), 0⟩]
    else []

/-- An item the circuit reaches without a fault. -/
def Core.itemOk (c : Core) (ety base : Nat) (p : Path) (e : Nat × Nat) : Bool :=
  base % 4 == 0 && decide (e.2 / 8 < spadSize) && pathOf (c.bank (bankOf (e.2 / 8))) ety == some p

/-- What VGATH and VSCAT share: the path from the bank of s[sa], the items, the circuit. DESIGN CHOICE (log entry 52): where
no bank holds s[sa] the path is that of raw bits. -/
def circuitOp (vd vb : BitVec 5) (sa : BitVec 6) (f : BitVec 4) (scat : Bool)
    (f' : Core → Nat → Path → List (Nat × Nat) → Eff) (x : Ctx) (c : Core) : Eff :=
  let sh := c.shapeFor x
  let on := lanesOn sh (c.qget 0)
  let d := c.phys vd.toNat
  let b := c.phys vb.toNat
  let base := (c.sget sa.toNat).toNat
  let unit := if scat then 3 else 1
  let rs := [sReg sa.toNat, vReg b] ++ (if scat then [vReg d] else [])
  let ws := if scat then [] else [(vReg d, x.t + 99)]
  let path? := if base < spadSize then pathOf (c.bank (bankOf base)) sh.ety else some .bit
  match path? with
  | none => c.checked x rs ws (illegalFaults c x (fmtVals c sh.ety (bankOf base))) Eff.ok
  | some p =>
    c.checked x rs ws [] fun c =>
      let items := itemsOf (pathWidth p) base on (c.vget x b)
      let r := c.occupy x.k (circuitOccs { x.desc with start := x.t + 12 } f.toNat unit (x.t + 12)) x.t
      ((f' r.1 d p (items.filter (c.itemOk sh.ety base p))).faults r.2).faults (c.itemFaults x sh.ety base p items)

/-- VGATH vd, vb, sA, fM, acK. -/
def execVgath (vd vb : BitVec 5) (sa : BitVec 6) (f : BitVec 4) (cls : BitVec 2) (s : State) :
    Host.Outcome State Fault Refusal :=
  s.issueOn fun x c =>
    circuitOp vd vb sa f false (fun c d p items =>
      let g : GatherRun :=
        { d := { x.desc with start := x.t + 12 }, scat := false, lane := f.toNat, vd := d, cls := cls.toNat, path := p,
          item := items.map fun e => (e.1, e.2, 0), got := [], fl := 0 }
      (Eff.ok c).also (startItems g 1 x.t)) x c

/-- VSCAT vd, vb, sA, fM, acK: vd is converted at issue + 2, and the circuit starts at issue + 12 (R162, R170). -/
def execVscat (vd vb : BitVec 5) (sa : BitVec 6) (f : BitVec 4) (cls : BitVec 2) (s : State) :
    Host.Outcome State Fault Refusal :=
  s.issueOn fun x c =>
    let sh := c.shapeFor x
    circuitOp vd vb sa f true (fun c d p items =>
      (Eff.ok c).also [(x.t + 2, phRead, .vStoreConversion
        { storeRunOf x f.toNat cls.toNat sh.rm [(0, p)] (c.vget x d) [] [] none with
          d := { x.desc with start := x.t + 12 }, pol := some sh.pol, items := some items })]) x c

/-! Reductions (R70, R172, R173). -/

/-- An operation of a reduction: its identity and one step, on sub-elements. -/
structure RedOp where
  ident : Nat
  step : Nat → Nat → Nat × Flags

/-- One level of the tree. -/
def redLevel (op : RedOp) : List Nat → List Nat × Flags
  | a :: b :: r =>
    let y := op.step a b
    let q := redLevel op r
    (y.1 :: q.1, y.2 ||| q.2)
  | l => (l, 0)

/-- The tree over `2 ^ n` leaves (R70). -/
def redTree (op : RedOp) : Nat → List Nat → Nat × Flags
  | 0, l => (l.headD op.ident, 0)
  | n + 1, l =>
    let y := redLevel op l
    let r := redTree op n y.1
    (r.1, y.2 ||| r.2)

inductive RedKind where
  | add | max | min
  deriving DecidableEq, Repr

/-- The operation for an element type, rounding in `rm` (R70, R172). -/
def redOp (k : RedKind) (ety rm : Nat) : RedOp :=
  match etyFloat ety with
  | some f =>
    match k with
    | .add => ⟨f.signed true 0, fun a b => f.fadd rm a b⟩
    | .max => ⟨f.signed true (f.infBits.getD 0), fun a b => f.fminmax true a b⟩
    | .min => ⟨f.infBits.getD 0, fun a b => f.fminmax false a b⟩
  | none =>
    let w := etyWidth ety
    match k with
    | .add => ⟨0, fun a b => clampW w (signedOf w a + signedOf w b)⟩
    | .max => ⟨2 ^ (w - 1), fun a b => (if signedOf w a < signedOf w b then b else a, 0)⟩
    | .min => ⟨2 ^ (w - 1) - 1, fun a b => (if signedOf w b < signedOf w a then b else a, 0)⟩

/-- The segment each position of a line belongs to, from its start bits; position 0 starts one. -/
def segIds : Nat → Bool → List Bool → List Nat
  | _, _, [] => []
  | n, first, b :: r => let n' := if b && !first then n + 1 else n
                        n' :: segIds n' false r

/-- One line of leaves (value, leaf taken, segment) reduced: each position's segment result. -/
def redLine (op : RedOp) (levels : Nat) (vals : List Nat) (on : List Bool) (ids : List Nat) : List Nat × Flags :=
  let segs := ids.eraseDups
  let res := segs.map fun g =>
    (g, redTree op levels (List.zipWith (fun v oi => if oi.1 && oi.2 == g then v else op.ident) vals (on.zip ids)))
  (ids.map fun g => ((res.find? fun r => r.1 == g).map fun r => r.2.1).getD op.ident,
   (res.map fun r => r.2.2).foldl (· ||| ·) 0)

/-- Rows of a square table as columns. -/
def turn {α : Type} (n : Nat) (rows : List (List α)) (d : α) : List (List α) :=
  (List.range n).map fun j => rows.map fun r => r.getD j d

/-- Sub-element `j` of every lane. -/
def subLane (w j : Nat) (v : List W32) : List Nat := v.map fun x => bits x.toNat (w * j) w

/-- Lanes rebuilt from their sub-elements. -/
def gatherSubs (w : Nat) (xs : List (List Nat)) : List W32 :=
  (List.range 1024).map fun l => joinSubs w (xs.map fun s => s.getD l 0)

/-- A reduction over all lanes of one sub-element, by rows. `ids` are the segments per row. -/
def redRows (op : RedOp) (vals : List Nat) (on : List Bool) (ids : List (List Nat)) : List Nat × Flags :=
  let rs := List.zipWith (fun v oi => redLine op 6 v oi.1 oi.2) (rowsOf 16 vals) ((rowsOf 16 on).zip ids)
  (rs.flatMap (·.1), (rs.map (·.2)).foldl (· ||| ·) 0)

/-- By columns. -/
def redCols (op : RedOp) (vals : List Nat) (on : List Bool) (ids : List (List Nat)) : List Nat × Flags :=
  let rs := List.zipWith (fun v oi => redLine op 4 v oi.1 oi.2) (turn 64 (rowsOf 16 vals) 0)
    ((turn 64 (rowsOf 16 on) false).zip ids)
  ((turn 16 (rs.map (·.1)) 0).flatten, (rs.map (·.2)).foldl (· ||| ·) 0)

/-- Segment numbers in row-major order over the active lanes; a row goes on in the next (RAG = 1). -/
def ragIds (cols : Nat) : Nat → Bool → List (List Bool) → List (List Nat)
  | _, _, [] => []
  | n, first, row :: rest =>
    let act := row.take (cols + 1)
    let ids := segIds n first act
    let last := ids.getLastD n
    (ids ++ List.replicate (row.length - act.length) 1024) :: ragIds cols last false rest

/-- The parts of a ragged segment combined in row order (R173). -/
def redRagged (op : RedOp) (vals : List Nat) (on : List Bool) (ids : List (List Nat)) : List Nat × Flags :=
  let parts : List (Nat × Nat × Flags) := (List.zipWith (fun v oi =>
      (oi.2.eraseDups.filter (· != 1024)).map fun g =>
        (g, redTree op 6 (List.zipWith (fun v oi => if oi.1 && oi.2 == g then v else op.ident) v (oi.1.zip oi.2))))
    (rowsOf 16 vals) ((rowsOf 16 on).zip ids)).flatten
  let segs := (parts.map (·.1)).eraseDups
  let res := segs.map fun g =>
    match parts.filter fun p => p.1 == g with
    | [] => (g, op.ident, (0 : Flags))
    | p :: ps => ps.foldl (fun (a b : Nat × Nat × Flags) =>
        let y := op.step a.2.1 b.2.1
        (g, y.1, a.2.2 ||| b.2.2 ||| y.2)) p
  (ids.flatMap fun r => r.map fun g => ((res.find? fun r => r.1 == g).map fun r => r.2.1).getD op.ident,
   (res.map fun r => r.2.2).foldl (· ||| ·) 0)

/-- A reduction word. `row` is its axis, `seg` tells that q is a segment mask rather than a leaf mask. -/
def redWord (k : RedKind) (row seg : Bool) (vd va : BitVec 5) (q : BitVec 4) (x : Ctx) (c : Core) : Eff :=
  let sh := c.shapeFor x
  let rag := row && seg && sh.rag
  let lat := if row then (if rag then 12 else 8) else 4
  let d := c.phys (x.repReg vd.toNat)
  let a := c.phys (x.repReg va.toNat)
  c.checked x [vReg a, qReg q.toNat] [(vReg d, x.t + lat)] [] fun c =>
    let act := lanesOn sh (List.replicate 64 0xFFFF)
    let qm := c.qget q.toNat
    let leaf := if seg then act else lanesOn sh qm
    let starts := rowsOf 16 (maskLanes qm)
    let none64 := List.replicate 16 (List.replicate 64 0)
    let ids :=
      if !seg then (if row then none64 else List.replicate 64 (List.replicate 16 0))
      else if rag then ragIds sh.cols 0 true (starts.take (sh.rows + 1)) ++ List.replicate (15 - sh.rows) (List.replicate 64 1024)
      else if row then starts.map (segIds 0 true)
      else (turn 64 starts false).map (segIds 0 true)
    let op := redOp k sh.ety sh.rm
    let w := etyWidth sh.ety
    let rs := (List.range (etyCount sh.ety)).map fun j =>
      let v := subLane w j (c.vget x a)
      if rag then redRagged op v leaf ids else if row then redRows op v leaf ids else redCols op v leaf ids
    let out := gatherSubs w (rs.map (·.1))
    c.vresult x lat d (List.zipWith (fun o v => if o then some v else none) act out)
      ((rs.map (·.2)).foldl (· ||| ·) 0)

def execVradd (vd va : BitVec 5) (q : BitVec 4) (s : State) : Host.Outcome State Fault Refusal :=
  s.issueOn (redWord .add true false vd va q)
def execVrmax (vd va : BitVec 5) (q : BitVec 4) (s : State) : Host.Outcome State Fault Refusal :=
  s.issueOn (redWord .max true false vd va q)
def execVrmin (vd va : BitVec 5) (q : BitVec 4) (s : State) : Host.Outcome State Fault Refusal :=
  s.issueOn (redWord .min true false vd va q)
def execVradds (vd va : BitVec 5) (q : BitVec 4) (s : State) : Host.Outcome State Fault Refusal :=
  s.issueOn (redWord .add true true vd va q)
def execVrmaxs (vd va : BitVec 5) (q : BitVec 4) (s : State) : Host.Outcome State Fault Refusal :=
  s.issueOn (redWord .max true true vd va q)
def execVrmins (vd va : BitVec 5) (q : BitVec 4) (s : State) : Host.Outcome State Fault Refusal :=
  s.issueOn (redWord .min true true vd va q)
def execVcadd (vd va : BitVec 5) (q : BitVec 4) (s : State) : Host.Outcome State Fault Refusal :=
  s.issueOn (redWord .add false false vd va q)
def execVcmax (vd va : BitVec 5) (q : BitVec 4) (s : State) : Host.Outcome State Fault Refusal :=
  s.issueOn (redWord .max false false vd va q)
def execVcmin (vd va : BitVec 5) (q : BitVec 4) (s : State) : Host.Outcome State Fault Refusal :=
  s.issueOn (redWord .min false false vd va q)
def execVcadds (vd va : BitVec 5) (q : BitVec 4) (s : State) : Host.Outcome State Fault Refusal :=
  s.issueOn (redWord .add false true vd va q)
def execVcmaxs (vd va : BitVec 5) (q : BitVec 4) (s : State) : Host.Outcome State Fault Refusal :=
  s.issueOn (redWord .max false true vd va q)
def execVcmins (vd va : BitVec 5) (q : BitVec 4) (s : State) : Host.Outcome State Fault Refusal :=
  s.issueOn (redWord .min false true vd va q)

/-! Rotations and broadcasts (R174). -/

/-- Each enabled lane (r, c) receives the bits of lane `src r c`. -/
def permWord (lat : Nat) (vd va : BitVec 5) (q : BitVec 4) (src : Nat → Nat → Nat) (x : Ctx) (c : Core) : Eff :=
  let d := c.phys (x.repReg vd.toNat)
  let a := c.phys (x.repReg va.toNat)
  let on := lanesOn (c.shapeFor x) (c.qget q.toNat)
  if !on.any id then Eff.ok c
  else
    c.checked x [vReg a, qReg q.toNat] [(vReg d, x.t + lat)] [] fun c =>
      let v := (c.vget x a).toArray
      c.vresult x lat d ((on.zipIdx).map fun o => if o.1 then some (v.getD (src (o.2 / 64) (o.2 % 64)) 0) else none) 0

def execVrrot (vd va : BitVec 5) (n : BitVec 6) (q : BitVec 4) (s : State) : Host.Outcome State Fault Refusal :=
  s.issueOn (permWord 6 vd va q fun r c => 64 * r + (c + 64 - n.toNat) % 64)

def execVcrot (vd va : BitVec 5) (n : BitVec 6) (q : BitVec 4) (s : State) : Host.Outcome State Fault Refusal :=
  s.issueOn (permWord 3 vd va q fun r c => 64 * ((r + 16 - n.toNat % 16) % 16) + c)

def execVrbc (vd va : BitVec 5) (n : BitVec 6) (q : BitVec 4) (s : State) : Host.Outcome State Fault Refusal :=
  s.issueOn (permWord 6 vd va q fun r _ => 64 * r + n.toNat)

def execVcbc (vd va : BitVec 5) (n : BitVec 6) (q : BitVec 4) (s : State) : Host.Outcome State Fault Refusal :=
  s.issueOn (permWord 3 vd va q fun _ c => 64 * (n.toNat % 16) + c)

/-- VPART vd, va, sD (R176): the lists of lanes by outcome, and their counts; all lanes are written. -/
def execVpart (vd va : BitVec 5) (sd : BitVec 6) (q : BitVec 4) (s : State) : Host.Outcome State Fault Refusal :=
  s.issueOn fun x c =>
    let d := c.phys vd.toNat
    let a := c.phys va.toNat
    c.checked x [vReg a, qReg q.toNat] [(vReg d, x.t + 16), (sReg sd.toNat, x.t + 16)] [] fun c =>
      let on := lanesOn (c.shapeFor x) (c.qget q.toNat)
      let outs := ((on.zip (c.vget x a)).zipIdx).filterMap fun e => if e.1.1 then some (e.2, e.1.2.toNat % 4) else none
      let list := fun o => (outs.filter fun e => e.2 == o).map fun e => BitVec.ofNat 32 e.1
      let all := list 0 ++ list 1 ++ list 2 ++ list 3
      let v := all ++ List.replicate (1024 - all.length) 0xFFFFFFFF
      let counts := (list 0).length + (list 1).length * 2 ^ 16 + (list 2).length * 2 ^ 32 + (list 3).length * 2 ^ 48
      (c.vresult x 16 d (v.map some) 0).also [(x.t + 16, phStart, .registerWriteback x.k (.s sd.toNat) (w64 counts) 0)]

/-- VRAGG vd, gN, sA, qD, fM (R177, R178). -/
def execVragg (vd : BitVec 5) (g : BitVec 4) (sa : BitVec 6) (qd f : BitVec 4) (s : State) :
    Host.Outcome State Fault Refusal :=
  s.issueOn fun x c =>
    let sh := c.shapeFor x
    if !sh.rag || decide (1 < sh.ety) then Eff.illegal c x [sh.ety]
    else
      let g := g.toNat
      let r := c.ring g
      let d := c.phys vd.toNat
      let lanes := ((lanesOn sh (List.replicate 64 0xFFFF)).zipIdx).filterMap fun e => if e.1 then some e.2 else none
      let n := 4 * lanes.length
      let runs := r.runs r.rd n
      let done := lastArrival f.toNat 64 (x.t + 2) 1 runs + 2
      let a := c.sget sa.toNat
      let restart := if a.getLsbD 63 then some (a.toNat % 2 ^ 21) else none
      if r.nfr = 0 then ringFault c x g 0
      else
        c.checked x [sReg sa.toNat] [(vReg d, done), (qReg qd.toNat, done)]
          (if restart.any fun a => a % 2 == 1 then [⟨cRegion, rScratch, x.desc, x.t, w64 (a.toNat % 2 ^ 21), 0, 0⟩] else [])
          fun c => c.drains x g n fun c off =>
            let run : RaggedRun :=
              { d := { x.desc with start := x.t + 2 }, lanes := lanes, vd := d, qd := qd.toNat, restart := restart,
                plan := [], reads := 0, done := done }
            (c.startRead x.t (moveOf x (x.t + 2) 0 f.toNat 1 (.ragged run) (some (g, off)) 64) 1 (x.t + 2) runs).also
              [(x.t + 2, phRead, .raggedTableRead run 0)]

/-! Bound vectors (R180). -/

/-- NaN and values below −0 made +∞. -/
def safeBound (v : Nat) : FV :=
  match fp32.value v with
  | .nan _ => .inf false
  | y => if y.lt (.fin false 0 0) then .inf false else y

/-- Rounding up to FP32 (R5). -/
def roundUp (v : FV) : Nat :=
  match v with
  | .nan _ => 0x7F800000
  | _ => (fp32.pack 2 v).1

/-- A product of bounds, 0 × ∞ counting as +∞. -/
def mulBound (x y : FV) : Nat :=
  let p := x.mul y
  if p.2 then 0x7F800000 else roundUp p.1

/-- VBNDA vd, va, vb: the sum of two bounds, on all lanes. -/
def execVbnda (vd va vb : BitVec 5) (s : State) : Host.Outcome State Fault Refusal :=
  s.issueOn fun x c =>
    let d := c.phys (x.repReg vd.toNat)
    let a := c.phys (x.repReg va.toNat)
    let b := c.phys vb.toNat
    c.checked x [vReg a, vReg b] [(vReg d, x.t + 4)] [] fun c =>
      c.vresult x 4 d (List.zipWith (fun u w =>
        some (BitVec.ofNat 32 (roundUp ((safeBound u.toNat).add 2 (safeBound w.toNat)).1))) (c.vget x a) (c.vget x b)) 0

/-- VBNDS vd, va, cN: a bound times the magnitude of a constant. -/
def execVbnds (vd va : BitVec 5) (n : BitVec 8) (s : State) : Host.Outcome State Fault Refusal :=
  s.issueOn fun x c =>
    let d := c.phys (x.repReg vd.toNat)
    let a := c.phys (x.repReg va.toNat)
    c.checked x [vReg a, constReg n.toNat] [(vReg d, x.t + 4)] [] fun c =>
      let k := match fp32.value (Tab.get 0 c.cbank n.toNat).toNat with
        | .nan _ => FV.inf false
        | y => y.abs
      c.vresult x 4 d ((c.vget x a).map fun u => some (BitVec.ofNat 32 (mulBound (safeBound u.toNat) k))) 0

end Sys2Proof.Machine
end

