-- ==== Sys2Proof/Machine/Bounds.lean ====
section
/-! DEFINITION. The arithmetic of the matrix engine: passes of the array and the side unit (R68, R69), ply headers
(R186 to R188), bound stores, coverage (R189 to R197). -/

namespace Sys2Proof.Machine

/-! Bounds (R189 to R197). Values are FP32 patterns. -/

/-- The zero state of a bound store (R192). -/
def zeroBound : Bound :=
  { closed := [], ra := [], rb := [], total := [], resid := [], covm := 0, totm := 0, opened := false, fullc := true }

/-- The reset values of a cover register (R202). -/
def zeroCover : Cover := { quanta := 0, sat := false, kind := 0, tile := 0, count := 0, cursor := 0, cov := 0x8000 }

def Core.boundOf (c : Core) (a : Nat) : Bound := Tab.get zeroBound c.bound a
def Core.coverOf (c : Core) (a : Nat) : Cover := Tab.get zeroCover c.cover a
def Core.setBound (c : Core) (a : Nat) (b : Bound) : Core := { c with bound := Tab.set zeroBound a b c.bound }
def Core.setCover (c : Core) (a : Nat) (k : Cover) : Core := { c with cover := Tab.set zeroCover a k c.cover }

def fpv (x : W32) : FV := fp32.value x.toNat

/-- A mass made safe: NaN and values below −0 read as +∞ (R189). -/
def safeMass (x : W32) : W32 :=
  match fpv x with
  | .nan _ => 0x7F800000
  | y => if y.lt (.fin false 0 0) then 0x7F800000 else x

/-- round_up(x + y). -/
def addUp (x y : W32) : W32 := BitVec.ofNat 32 (roundUp ((fpv x).add 2 (fpv y)).1)

/-- round_up(x × y), 0 × ∞ counting as +∞ (R193). -/
def mulUp (x y : W32) : W32 := BitVec.ofNat 32 (mulBound (fpv x) (fpv y))

/-- The largest of some non-negative values. -/
def maxUp (xs : List W32) : W32 := xs.foldl (fun m x => if (fpv m).lt (fpv x) then x else m) 0

/-- One hundred and twenty-eight entries of a table. -/
def line128 (t : Tab W32) : List W32 := Tab.slice 0 t 0 128

def fromLine (xs : List W32) : Tab W32 := Tab.entries 0 0 xs

/-- term(m) for every row of an open block (R193). -/
def Bound.terms (b : Bound) : List W32 :=
  let r := maxUp (line128 b.resid)
  let q := maxUp (line128 b.total)
  List.zipWith (fun ra rb => addUp (mulUp ra r) (mulUp rb q)) (line128 b.ra) (line128 b.rb)

/-- close(a) (R193); `all` tells that CURSOR = COUNT. -/
def Bound.close (b : Bound) (all : Bool) : Bound :=
  if b.opened then
    { b with closed := fromLine (List.zipWith addUp (line128 b.closed) b.terms), fullc := b.fullc && all, opened := false }
  else b

/-- bound[m] for every row (R194). -/
def Bound.rows (b : Bound) : List W32 :=
  if b.opened then List.zipWith addUp (line128 b.closed) b.terms else line128 b.closed

/-- ⌊x ÷ y × 2^15⌋ of finite positive values. -/
def shareOf (x y : FV) : Nat :=
  match x, y with
  | .fin _ m e, .fin _ n g =>
    let d := e - g + 15
    if 0 ≤ d then m * 2 ^ d.toNat / n else m / (n * 2 ^ (-d).toNat)
  | _, _ => 0

/-- Coverage in Q1.15 (R195). -/
def coverage (b : Bound) (all : Bool) : Half :=
  if b.fullc && (!b.opened || all) then 0x8000
  else if b.totm = 0x7F800000 then 0
  else if b.covm = 0x7F800000 then 0x7FFF
  else if (fpv b.totm).isZero then 0
  else BitVec.ofNat 16 (min 0x7FFF (shareOf (fpv b.covm) (fpv b.totm)))

/-- A cover register brought into line with its bound store (R195, R202). -/
def Cover.sync (k : Cover) (b : Bound) : Cover := { k with cov := coverage b (k.cursor == k.count) }

/-! Ply headers (R186 to R188). -/

/-- A ply header taken apart. -/
structure Hdr where
  fmt : Nat
  ncode : Nat
  count : Nat
  index : Nat
  pexp : Int
  cost : Nat
  tile : Half
  pmass : W32
  qmass : W32
  cb : List Half
  q : List W32
  clean : Bool

def word32 (bs : List Byte) (o : Nat) : Nat := leNat ((bs.drop o).take 4)

/-- Entry slots per column and group (R187). -/
def Hdr.n (h : Hdr) : Nat := 2 ^ h.ncode

/-- Frames of data (R186). -/
def Hdr.dataFrames (h : Hdr) : Nat :=
  match h.fmt with
  | 0 | 1 => 8
  | 2 => 4
  | _ => (h.n + 3) / 4

/-- Bytes of data. -/
def Hdr.dataBytes (h : Hdr) : Nat :=
  match h.fmt with
  | 0 | 1 => 32768
  | 2 => 16384
  | _ => 1024 * h.n

/-- The nominal cost (R190). -/
def Hdr.nominal (h : Hdr) : Nat :=
  match h.fmt with
  | 0 | 1 => 1024
  | 2 => 1088
  | _ => 16 * h.n

/-- Bytes 0 to 0x43F of a header frame read as R187 lays them out; `clean` tells that every reserved field is zero. -/
def parseHdr (bs : List Byte) : Hdr :=
  let w := word32 bs 0
  let pexp := signedOf 8 (bits w 24 8)
  let cbs := (elems16 ((bs.drop 0x20).take 32)).map (BitVec.ofNat 16)
  let fmt := bits w 0 2
  let ncode := bits w 4 3
  { fmt := fmt, ncode := ncode, count := bits w 12 4, index := bits w 16 4, pexp := pexp, cost := word32 bs 4,
    tile := BitVec.ofNat 16 (bits (word32 bs 8) 0 16), pmass := BitVec.ofNat 32 (word32 bs 0xC),
    qmass := BitVec.ofNat 32 (word32 bs 0x10), cb := cbs,
    q := (elems32 ((bs.drop 0x240).take 512)).map (BitVec.ofNat 32),
    clean := bits w 20 4 == 0 && bits w 7 5 == 0 && bits w 2 2 == 0 && bits (word32 bs 8) 16 16 == 0
      && ((bs.drop 0x14).take 12).all (· == 0) && (fmt == 2 || cbs.all (· == 0)) && (fmt == 3 || ncode == 0) }

/-- A header that R188 refuses with ILLEGAL_ENCODING. -/
def Hdr.bad (h : Hdr) : Bool :=
  !h.clean || (h.fmt == 3 && decide (4 < h.ncode)) || decide (h.pexp < -32) || decide (31 < h.pexp) || h.count == 0
    || decide (h.count ≤ h.index) || (h.fmt == 3 && h.index != 0) || h.cost != h.nominal

/-! Passes (R68, R69). -/

/-- A value times 2^n. -/
def FV.shift (x : FV) (n : Int) : FV :=
  match x with
  | .fin s m e => .fin s m (e + n)
  | y => y

/-- The codes of packed operands as exact values, each run of bytes by the codebook it was read under (R79). -/
def codedVals (fmt : Nat) : List (Nat × List Half) → List Byte → List FV
  | [], bs => (elemsOf (fmtWidth fmt) bs).map (valueOf fmt [])
  | (n, cb) :: r, bs => (elemsOf (fmtWidth fmt) (bs.take n)).map (valueOf fmt cb) ++ codedVals fmt r (bs.drop n)

def operandVals (fmt : Nat) (cbs : List (Nat × List Half)) (bs : List Byte) : Array FV := (codedVals fmt cbs bs).toArray

/-- The exact sum of a step's products, and whether it is invalid. -/
def stepSum (xs : List (FV × FV)) : FV × Bool :=
  match xs.map fun m => m.1.mul m.2 with
  | [] => (.fin false 0 0, false)
  | q :: qs => qs.foldl (fun a q => let r := a.1.add 0 q.1
                                    (r.1, a.2 || q.2 || r.2)) q

/-- One step of a PE column: p := round(p + x), where x is the exact sum of the step's products. -/
def peStep (p : FV × Flags) (xs : List (FV × FV)) : FV × Flags :=
  let x := stepSum xs
  let y := p.1.add 0 x.1
  let o := fp32.pack 0 y.1
  (fp32.value o.1, p.2 ||| o.2 ||| flagIf (x.2 || y.2) NV ||| sigFlag (xs.flatMap fun m => [m.1, m.2]))

/-- A PE column down its 128 rows; `dual` takes two products a step. -/
def peColumn (dual : Bool) (a w : Nat → FV) : FV × Flags :=
  (List.range 128).foldl (fun p i =>
    if dual then peStep p [(a (2 * i), w (2 * i)), (a (2 * i + 1), w (2 * i + 1))] else peStep p [(a i, w i)])
    (.fin false 0 0, 0)

/-- Activation element (m, k) of a tile in R199's layout. -/
def actAt (kt : Nat) (act : Array FV) (m k : Nat) : FV := act.getD (actElem kt m k) (.fin false 0 0)

/-- A dense pass added to the accumulator elements, row-major (R68). -/
def densePass (dual : Bool) (kt : Nat) (act w : Array FV) (acc : List W32) : List W32 × Flags :=
  let r := (acc.zipIdx).map fun e =>
    let m := e.2 / 128
    let n := e.2 % 128
    let p := peColumn dual (actAt kt act m) (fun k => w.getD (k * 128 + n) (.fin false 0 0))
    let o := fp32.fadd 0 e.1.toNat (fp32.pack 0 p.1).1
    (BitVec.ofNat 32 o.1, p.2 ||| o.2)
  (r.map (·.1), (r.map (·.2)).foldl (· ||| ·) 0)

/-- acc := round(acc + a × o), one rounding. -/
def sideStep (acc : W32 × Flags) (a o : FV) : W32 × Flags :=
  let x := fpv acc.1
  let q := a.mul o
  let s := x.add 0 q.1
  let r := fp32.pack 0 s.1
  (BitVec.ofNat 32 r.1, acc.2 ||| r.2 ||| flagIf (q.2 || s.2) NV ||| sigFlag [x, a, o])

/-- The entries of column n of an OUTLIER ply in slot order: (k, value) (R186). -/
def outlierColumn (n : Nat) (pexp : Int) (slots : Array Nat) (col : Nat) : List (Nat × FV) :=
  (List.range (2 * n)).filterMap fun i =>
    let w := slots.getD (col * 2 * n + i) 0
    if w % 65536 = 0 then none
    else some (128 * (i / n) + bits w 16 7, (bf16.value (w % 65536)).shift pexp)

/-- An OUTLIER pass through the side unit (R68). -/
def outlierPass (kt : Nat) (act : Array FV) (n : Nat) (pexp : Int) (data : List Byte) (acc : List W32) :
    List W32 × Flags :=
  let slots := (elems32 data).toArray
  let cols := ((List.range 128).map (outlierColumn n pexp slots)).toArray
  let r := (acc.zipIdx).map fun e =>
    (cols.getD (e.2 % 128) []).foldl (fun a o => sideStep a (actAt kt act (e.2 / 128) o.1) o.2) (e.1, 0)
  (r.map (·.1), (r.map (·.2)).foldl (· ||| ·) 0)

/-- A ply pass (R185, R191). -/
def plyPass (act : Array FV) (p : Ply) (acc : List W32) : List W32 × Flags :=
  if p.fmt = 3 then outlierPass 256 act (2 ^ p.ncode) p.pexp p.data acc
  else
    let fmt := match p.fmt with
      | 0 => 4
      | 1 => 5
      | _ => fmtC4
    densePass true 256 act ((operandVals fmt [(p.data.length, p.cb)] p.data).map fun x => x.shift p.pexp) acc

/-- A sum brought into INT32, with the saturation mark (R69). -/
def clamp32 (i : Int) : W32 × Bool :=
  let lo := (intRange 32 true).1
  let hi := (intRange 32 true).2
  if i < lo then (BitVec.ofInt 32 lo, true) else if hi < i then (BitVec.ofInt 32 hi, true) else (BitVec.ofInt 32 i, false)

/-- Codes of an integer operand. -/
def operandInts (fmt : Nat) (bs : List Byte) : Array Int :=
  ((elemsOf (fmtWidth fmt) bs).map fun x =>
    match intFmt fmt with
    | some (w, true) => signedOf w x
    | _ => (x : Int)).toArray

/-- An integer pass (R69): elements, saturation. -/
def intPass (act w : Array Int) (acc : List W32) : List W32 × Bool :=
  let r := (acc.zipIdx).map fun e =>
    let s := (List.range 256).foldl (fun (s : Int) k =>
      s + act.getD (actElem 256 (e.2 / 128) k) 0 * w.getD (k * 128 + e.2 % 128) 0) 0
    clamp32 (e.1.toInt + s)
  (r.map (·.1), (r.map (·.2)).any id)

/-- apply_mask(a) (R211). -/
def applyMask (mask : Option (List Byte × Option W32)) (int : Bool) (acc : List W32) : List W32 :=
  match mask with
  | none => acc
  | some (block, v) =>
    let b := block.toArray
    let rep := v.getD (if int then 0x80000000 else 0xFF800000)
    (acc.zipIdx).map fun e => if (b.getD (e.2 / 8) 0xFF).getLsbD (e.2 % 8) then e.1 else rep

end Sys2Proof.Machine
end

