-- ==== Sys2Proof/Machine/Aes.lean ====
section
/-! DEFINITION. AES-256-XTS (R368): the cipher of FIPS 197 and the mode of IEEE 1619, which the rule names. PRESUMED (log entry
42): the two standards, and that a key's first 32 bytes encrypt the data and its last 32 the tweak. -/

namespace Sys2Proof.Machine

/-! The field of 256 elements. -/

/-- Times x modulo x^8 + x^4 + x^3 + x + 1. -/
def xtime (b : Nat) : Nat := if b < 128 then 2 * b else (2 * b) ^^^ 0x11B

/-- The product; the first argument counts the bits of `b`. -/
def gmul : Nat → Nat → Nat → Nat
  | 0, _, _ => 0
  | n + 1, a, b => (if b % 2 = 1 then a else 0) ^^^ gmul n (xtime a) (b / 2)

/-- The product of the squares of `s` one after another: with 7 of them s^254, the inverse. -/
def squares : Nat → Nat → Nat
  | 0, _ => 1
  | n + 1, s => let q := gmul 8 s s; gmul 8 q (squares n q)

def rotl8 (x k : Nat) : Nat := (x * 2 ^ k + x / 2 ^ (8 - k)) % 256

def subByte (a : Nat) : Nat :=
  let i := squares 7 a
  i ^^^ rotl8 i 1 ^^^ rotl8 i 2 ^^^ rotl8 i 3 ^^^ rotl8 i 4 ^^^ 0x63

def invSubByte (a : Nat) : Nat := squares 7 (rotl8 a 1 ^^^ rotl8 a 3 ^^^ rotl8 a 6 ^^^ 5)

/-! The cipher, on blocks of 16 bytes in the order of the state's columns. -/

def xorBytes (a b : List Nat) : List Nat := List.zipWith (· ^^^ ·) a b

/-- Row r of the state is rotated by `r * d` columns: 1 to the left, 3 to the right. -/
def shiftRows (d : Nat) (s : List Nat) : List Nat :=
  (List.range 16).map fun i => s.getD (4 * ((i / 4 + d * (i % 4)) % 4) + i % 4) 0

/-- Every column times the circulant matrix whose first row is `m`. -/
def mixColumns (m : List Nat) (s : List Nat) : List Nat :=
  (List.range 16).map fun i => (List.range 4).foldl (fun t j => t ^^^ gmul 8 (s.getD (i / 4 * 4 + (i + j) % 4) 0) (m.getD j 0)) 0

/-- The words of the key schedule from index `i` on, behind the eight before them. -/
def keyWords : Nat → Nat → List (List Nat) → List (List Nat)
  | 0, _, _ => []
  | f + 1, i, w =>
    let p := w.getLastD []
    let t := if i % 8 = 0 then xorBytes ((p.drop 1 ++ p.take 1).map subByte) [2 ^ (i / 8 - 1), 0, 0, 0]
      else if i % 8 = 4 then p.map subByte else p
    let n := xorBytes (w.headD []) t
    n :: keyWords f (i + 1) (w.drop 1 ++ [n])

/-- The 15 round keys of a key of 32 bytes. -/
def roundKeys (key : List Nat) : List (List Nat) :=
  let w := (List.range 8).map fun i => (List.range 4).map fun j => key.getD (4 * i + j) 0
  let ws := w ++ keyWords 52 8 w
  (List.range 15).map fun r => (ws.drop (4 * r)).take 4 |>.flatten

def sealRounds : List (List Nat) → List Nat → List Nat
  | [], s => s
  | k :: r, s =>
    let t := shiftRows 1 (s.map subByte)
    sealRounds r (xorBytes (if r.isEmpty then t else mixColumns [2, 3, 1, 1] t) k)

/-- The inverse rounds under the round keys in reverse order. -/
def openRounds : List (List Nat) → List Nat → List Nat
  | [], s => s
  | k :: r, s =>
    let t := xorBytes ((shiftRows 3 s).map invSubByte) k
    openRounds r (if r.isEmpty then t else mixColumns [14, 11, 13, 9] t)

def sealBlock (ks : List (List Nat)) (b : List Nat) : List Nat := sealRounds (ks.drop 1) (xorBytes b (ks.headD []))

def openBlock (ks : List (List Nat)) (b : List Nat) : List Nat :=
  openRounds (ks.reverse.drop 1) (xorBytes b (ks.reverse.headD []))

/-! XTS: a line is four blocks, each under the tweak of its line times x^j. -/

def octets : Nat → Nat → List Nat
  | 0, _ => []
  | n + 1, x => x % 256 :: octets n (x / 256)

def numberOf : List Nat → Nat
  | [] => 0
  | b :: r => b + 256 * numberOf r

/-- The tweak of the next block: times x modulo x^128 + x^7 + x^2 + x + 1. -/
def nextTweak (t : Nat) : Nat := if t < 2 ^ 127 then 2 * t else (2 * t - 2 ^ 128) ^^^ 0x87

def xtsBlocks (f : List Nat → List Nat) : Nat → Nat → List Nat → List Nat
  | 0, _, _ => []
  | n + 1, t, bs =>
    let w := octets 16 t
    xorBytes (f (xorBytes (bs.take 16) w)) w ++ xtsBlocks f n (nextTweak t) (bs.drop 16)

/-- A line under a key; `dir` says how a block goes through the cipher. No key leaves it as it is. -/
def xts (dir : List (List Nat) → List Nat → List Nat) (key : List Byte) (line : Nat) (bs : List Byte) : List Byte :=
  if key = [] then bs
  else
    let k := key.map BitVec.toNat
    let t := numberOf (sealBlock (roundKeys (k.drop 32)) (octets 16 line))
    (xtsBlocks (dir (roundKeys k)) (bs.length / 16) t (bs.map BitVec.toNat)).map (BitVec.ofNat 8)

/-- The 64 bytes of a line as they are stored under a key. -/
def xtsSeal : List Byte → Nat → List Byte → List Byte := xts sealBlock

/-- The 64 bytes of a line that are stored bytes read under a key. -/
def xtsOpen : List Byte → Nat → List Byte → List Byte := xts openBlock

end Sys2Proof.Machine
end

