-- ==== Sys2Proof/Machine/Hbm.lean ====
section
/-! DEFINITION. HBM as a sheet meets it: region windows and translation (R219, R360 to R363), region classes, vat lines
and snapshot versions (R317, R318), line encryption (R368), allocation against the quota (R321 to R323), the ordering check of HBM accesses
(R269 to R276) and the values of races (R274, R275, R280), the pseudo-channel limits (R91, R92). -/

namespace Sys2Proof.Machine

/-! Region classes (R360). -/

def clsT : Nat := 0
def clsS : Nat := 1
def clsR : Nat := 2
def clsI : Nat := 3
def clsD : Nat := 4
def clsM : Nat := 5

/-- The window that holds `n` bytes from `va` on package `p` (R219). -/
def Sheet.window? (sh : Sheet) (p va n : Nat) : Option Window :=
  sh.windows.find? fun w => w.pkg == p && decide (w.base ≤ va) && decide (va + n ≤ w.base + w.size)

/-- The symmetric heap on package `p` (R363). -/
def Sheet.heap? (sh : Sheet) (p : Nat) : Option Window := sh.windows.find? fun w => w.pkg == p && w.peer

/-- The physical address of a virtual one (R361). -/
def Window.phys (w : Window) (va : Nat) : Nat :=
  w.exts.getD (va / 2 ^ 21 - w.base / 2 ^ 21) 0 * 2 ^ 21 + va % 2 ^ 21

/-- The physical ranges of virtual bytes `lo` to `hi`, one per extent. -/
def Window.physRanges (w : Window) (lo hi : Nat) : List (Nat × Nat) :=
  (List.range (hi / 2 ^ 21 - lo / 2 ^ 21 + 1)).map fun i =>
    let e := lo / 2 ^ 21 + i
    (w.phys (max lo (e * 2 ^ 21)), w.phys (min hi (e * 2 ^ 21 + 2 ^ 21 - 1)))

/-- REGION_VIOLATION of a transfer whose range `va`, `n` is checked against window `w?` (R219, R362); `near` is the
window that holds its first byte, which a WINDOW fault names. -/
def windowFaults (d : Desc) (t va : Nat) (wr : Bool) (w? near : Option Window) : List CFault :=
  let at_ := fun (sub : Nat) (w : Option Window) =>
    [(⟨cRegion, sub, d, t, w64 va, w64 ((w.map Window.idx).getD 0), 0⟩ : CFault)]
  match w? with
  | none => at_ rWindow near
  | some w =>
    if wr then (if w.wr && w.cls != clsR && w.cls != clsI then [] else at_ rPerm (some w))
    else if w.rd then [] else at_ rPerm (some w)

/-! Line encryption (R368). Memory holds plaintext with the key of each line; adders and drains work on it (R368). -/

/-- The key of a slot: none in the unprovisioned state (R368). DESIGN CHOICE (log entry 42): a slot that holds no key passes
data unencrypted too. -/
def Package.keyOf (p : Package) (slot : Nat) : List Byte :=
  let k := Tab.get KeySlot.reset p.slots slot
  if p.sec != 0 && k.valid then k.key else []

/-- The 64 bytes of a line stored under key `k` as an access under key `want` reads them: sealed under the one, opened under the
other. -/
def viewAs (want k : List Byte) (line : Nat) (bs : List Byte) : List Byte :=
  if want = k then bs else xtsOpen want line (xtsSeal k line bs)

/-! Versions and in-place bytes (R317 to R319). -/

/-- The couched version of a line with the greatest watermark, not above the limit where there is one. -/
def Package.version? (p : Package) (line : Nat) (limit : Option Nat) : Option Version :=
  p.versions.foldl (fun best v =>
    if v.line == line && limit.all (fun s => decide (v.w ≤ s)) && best.all (fun (u : Version) => decide (u.w < v.w))
    then some v else best) none

/-- The 64 bytes of a line in place under a key. -/
def Package.placed (p : Package) (key : List Byte) (line : Nat) : List Byte :=
  viewAs key (Tab.get [] p.lineKeys line) line (Tab.slice 0 p.hbm (64 * line) 64)

/-- The 64 bytes of a line under a key: a couched version not yet drained, else the line in place (R318). -/
def Package.lineAt (p : Package) (key : List Byte) (line : Nat) (limit : Option Nat) : List Byte :=
  match p.version? line limit with
  | some v => viewAs key v.key line v.bytes
  | none => p.placed key line

/-- The key under which a line stands now. -/
def Package.lineKey (p : Package) (line : Nat) : List Byte :=
  match p.version? line none with
  | some v => v.key
  | none => Tab.get [] p.lineKeys line

/-- A sheet whose T-class and M-class accesses go in place: resumed as irrevocable (R323). -/
def Sheet.inPlace (sh : Sheet) : Bool := sh.irrev == 3

/-- The vat line of a sheet. -/
def Package.vline? (p : Package) (sh line : Nat) : Option VLine :=
  p.vat.find? fun v => v.sh == sh && v.line == line

/-- The bytes of a line as a sheet reads it through a window of some class (R317). DEDUCED (log entry 51): a sheet does not
read its own M-class writes, as R317 says beside R32. -/
def State.readLine (s : State) (sh : Sheet) (w : Window) (line : Nat) : List Byte :=
  let p := s.pkg w.pkg
  let key := p.keyOf w.key
  if w.cls = clsI then p.placed key line
  else if w.cls = clsS || w.cls = clsD || sh.inPlace then p.lineAt key line none
  else
    let snap := p.lineAt key line (some sh.swm)
    if w.cls = clsT then
      match p.vline? sh.id line with
      | some v => overlay snap ((List.range 64).map fun i => Tab.find? i v.bytes)
      | none => snap
    else snap

/-- The lines of `n` bytes from `a`. -/
def linesOf (a n : Nat) : List Nat :=
  if n = 0 then [] else (List.range ((a + n - 1) / 64 - a / 64 + 1)).map fun i => a / 64 + i

/-- `n` bytes from virtual address `va` of a window, as a sheet reads them now. -/
def State.hbmRead (s : State) (sh : Sheet) (w : Window) (va n : Nat) : List Byte :=
  (((linesOf va n).flatMap fun l => s.readLine sh w (w.phys (64 * l) / 64)).drop (va % 64)).take n

/-- Bytes put into a mask-carrying line from offset `off` on. -/
def putBytes : Nat → List (Option Byte) → Mem → Mem
  | _, [], m => m
  | off, none :: r, m => putBytes (off + 1) r m
  | off, some b :: r, m => putBytes (off + 1) r (Tab.put off b m)

/-- A merge operation of R326 on one element: no flag, no trap. -/
def mergeElem (mop old new : Nat) : Nat :=
  match mop with
  | 0 => (fp32.fadd 0 old new).1
  | 1 => (fp32.fminmax true old new).1
  | 2 => wrapTo 32 (max (-(2 ^ 31 : Int)) (min (2 ^ 31 - 1) (signedOf 32 old + signedOf 32 new)))
  | _ => wrapTo 32 (max (signedOf 32 old) (signedOf 32 new))

/-- A contribution combined into a line: each element any of whose bytes is written (R326). -/
def mergeLine (mop : Nat) (new : Mem) : Nat → List Byte → List Byte
  | i, a :: b :: c :: d :: r =>
    (if new.any fun e => e.1 / 4 == i then
      leBytes 4 (mergeElem mop (leNat [a, b, c, d]) (leNat (Tab.slice 0 new (4 * i) 4)))
    else [a, b, c, d]) ++ mergeLine mop new (i + 1) r
  | _, r => r

/-- Bytes written in place: into the newest couched version of the line, which its drain then carries into place, or into
the line itself (R317); the line is stored under the writer's key (R368). A write that covers a poisoned line clears
it (R350). -/
def Package.writeInPlace (p : Package) (key : List Byte) (line off : Nat) (data : List (Option Byte)) : Package :=
  let p := if off = 0 && decide (64 ≤ data.length) && data.all Option.isSome then
    { p with poison := p.poison.filter fun l => l != line } else p
  match p.version? line none with
  | some v =>
    { p with versions := p.versions.map fun u =>
        if u.line == line && u.w == v.w then
          { u with bytes := overlay (viewAs key u.key line u.bytes) (List.replicate off none ++ data), key := key }
        else u }
  | none =>
    if key = Tab.get [] p.lineKeys line then { p with hbm := Tab.spliceOpt 0 (64 * line + off) data p.hbm }
    else
      { p with hbm := Tab.splice 0 (64 * line) (overlay (p.placed key line) (List.replicate off none ++ data)) p.hbm
               lineKeys := Tab.set [] line key p.lineKeys }

/-- Bytes combined in place by a merge operation (R323). -/
def Package.mergeInPlace (p : Package) (key : List Byte) (mop line off : Nat) (data : List (Option Byte)) : Package :=
  p.writeInPlace key line 0 ((mergeLine mop (putBytes off data []) 0 (p.lineAt key line none)).map some)

/-- Bytes written into a sheet's vat line (R318). -/
def Package.writeVat (p : Package) (sh line off : Nat) (merge : Option Nat) (key : List Byte) (data : List (Option Byte)) :
    Package :=
  match p.vline? sh line with
  | some _ =>
    { p with vat := p.vat.map fun v =>
        if v.sh == sh && v.line == line then { v with bytes := putBytes off data v.bytes } else v }
  | none => { p with vat := p.vat ++ [⟨sh, line, putBytes off data [], merge, key⟩] }

/-- A write of a sheet to one line through a window, by the window's class (R317, R323). -/
def State.writeLine (s : State) (sh : Sheet) (w : Window) (line off : Nat) (data : List (Option Byte)) : State :=
  if (w.cls = clsT || w.cls = clsM) && !sh.inPlace then
    s.updPkg w.pkg fun p => p.writeVat sh.id line off (if w.cls = clsM then some w.mop else none) (p.keyOf w.key) data
  else
    let s := s.updPkg w.pkg fun p =>
      if w.cls = clsM then p.mergeInPlace (p.keyOf w.key) w.mop line off data
      else p.writeInPlace (p.keyOf w.key) line off data
    s.updSheet sh.id fun x =>
      if w.cls = clsS then { x with sbytes := (w.pkg, 64 * line + off, 64 * line + off + data.length - 1) :: x.sbytes }
      else if w.cls = clsD then x
      else if x.irrevLines.contains (w.pkg, line) then x
      else { x with irrevLines := (w.pkg, line) :: x.irrevLines }

/-- Data cut into lines: line, offset in it, bytes. The first argument bounds the walk. -/
def cutLines : Nat → Nat → List (Option Byte) → List (Nat × Nat × List (Option Byte))
  | 0, _, _ => []
  | f + 1, a, data =>
    if data.isEmpty then []
    else
      let n := 64 - a % 64
      (a / 64, a % 64, data.take n) :: cutLines f (a + n) (data.drop n)

/-! What changes the bytes that running sheets read (R271, R274, R280). -/

/-- The task cycle at which a sheet stands: off its clock, the one of its freeze. -/
def State.clockOf (s : State) (sh : Sheet) : Nat :=
  if sh.held = .none || s.ttc < sh.heldAt then s.ttc - sh.t0 else sh.heldAt - sh.t0

/-- Who writes a line: an access of a sheet through a window class, or an untimed agent. -/
abbrev Writer := Option (Sheet × HAccess × Nat)

/-- The entry of one sheet for a change of a line of its windows: every byte its own access names, and what a write of
others changed for it. A write of an untimed agent (R280) and one of a sheet resumed as irrevocable (R323) are open from then
on. -/
def State.pastOf (s before : State) (sh : Sheet) (pkg line off : Nat) (data : List (Option Byte)) (by_ : Writer) : Option Past :=
  match sh.windows.find? fun w => w.pkg == pkg && w.exts.contains (line / 32768) with
  | none => none
  | some w =>
    let old := before.readLine sh w line
    let new := s.readLine sh w line
    let own := by_.any fun b => b.1.id == sh.id
    let mask := List.replicate off none ++ data
    let olds := (old.zipIdx).map fun b =>
      if (own && (mask.getD b.2 none).isSome) || new.getD b.2 0 != b.1 then some b.1 else none
    if olds.all Option.isNone then none
    else
      let now := s.clockOf sh
      match by_ with
      | none => some ⟨pkg, line, olds, now, none, none, none⟩
      | some (o, a, cls) =>
        if own then some ⟨pkg, line, olds, a.s, some a.e, some a, some (sh.id, cls)⟩
        else some ⟨pkg, line, olds, now - (s.ttc - (o.t0 + a.s)),
          if o.inPlace && (cls = clsT || cls = clsM) then none else some (now + (o.t0 + a.e - s.ttc)), none, some (o.id, cls)⟩

/-- A change of a line noted by every running sheet that maps it. -/
def State.noted (s before : State) (pkg line off : Nat) (data : List (Option Byte)) (by_ : Writer) : State :=
  { s with sheets := s.sheets.map fun sh =>
    if sh.state != 5 then sh
    else match s.pastOf before sh pkg line off data by_ with
      | some p => { sh with past := sh.past ++ [p] }
      | none => sh }

/-- The same timed agent; each weave transfer is one of its own (R268). -/
def HAccess.sameAgent (a b : HAccess) : Bool := a.run.isNone && b.run.isNone && Machine.sameAgent a.d b.d

/-- `b` is a write of a later-issued word of the agent that writes by `a` (R272). -/
def HAccess.outlastedBy (a b : HAccess) : Bool := b.wr && a.sameAgent b && decide (a.d.iss < b.d.iss)

/-- The changes that later-issued words of the agent have already made to the byte of offset `i` of a line. -/
def Past.outlasts (p : Past) (a : HAccess) (pkg line i : Nat) : Bool :=
  p.pkg == pkg && p.line == line && (p.old.getD i none).isSome && p.acc.any a.outlastedBy

/-- Bytes (given for the whole line) that access `a` writes now, set under the first change that a later-issued word of its agent has
already made to each (R272): the past as if they had come first, and the bytes over which no such change stands. -/
def slipUnder (a : HAccess) (pkg line cls id : Nat) : List (Option Byte) → List Past → List Past × List (Option Byte)
  | d, [] => ([], d)
  | d, p :: r =>
    let takes := fun (b : Option Byte × Nat) => b.1.isSome && p.outlasts a pkg line b.2
    let q := slipUnder a pkg line cls id ((d.zipIdx).map fun b => if takes b then none else b.1) r
    if (d.zipIdx).any takes then
      (⟨pkg, line, (d.zipIdx).map fun b => if takes b then p.old.getD b.2 none else none, a.s, some a.e, some a, some (id, cls)⟩
        :: { p with old := (p.old.zipIdx).map fun o =>
            if takes (d.getD o.2 none, o.2) then d.getD o.2 none else o.1 } :: q.1, q.2)
    else (p :: q.1, q.2)

/-- Bytes written by access `a` from virtual address `va` of a window, where there are some: in the issue order of its agent
(R272). -/
def State.hbmWrite (s : State) (sh : Sheet) (w : Window) (a : HAccess) (va : Nat) (data : List (Option Byte)) : State :=
  (cutLines (data.length / 64 + 2) va data).foldl (fun s c =>
    let line := w.phys (64 * c.1) / 64
    let r := slipUnder a w.pkg line w.cls sh.id (List.replicate c.2.1 none ++ c.2.2) ((s.sheet? sh.id).elim [] Sheet.past)
    let s := s.updSheet sh.id fun x => { x with past := r.1 }
    let data := r.2.drop c.2.1
    (s.writeLine sh w line c.2.1 data).noted s w.pkg line c.2.1 data (some (sh, a, w.cls))) s

/-- Bytes that an untimed agent writes into a line of package `q` under a key (R280, R317). -/
def State.untimedLine (s : State) (q : Nat) (key : List Byte) (line off : Nat) (data : List (Option Byte)) : State :=
  (s.updPkg q fun p => p.writeInPlace key line off data).noted s q line off data none

/-- Bytes that an untimed agent writes under a key at a physical address. -/
def State.untimedBytes (s : State) (q : Nat) (key : List Byte) (a : Nat) (bs : List Byte) : State :=
  (cutLines (bs.length / 64 + 2) a (bs.map some)).foldl (fun s c => s.untimedLine q key c.1 c.2.1 c.2.2) s

/-! Quota (R320 to R323). -/

/-- VATCFG.SIZE of a stack: 0 and 17 to 31 stand for 4 (R320). -/
def vatUnits (v : BitVec 5) : Nat := if v = 0 || decide (16 < v.toNat) then 4 else v.toNat

/-- L: each cluster's lines over the eight stacks (R320). -/
def Package.share (p : Package) : Nat :=
  ((List.range 8).map fun i => vatUnits (Tab.get 0 p.vatSize i) * 2 ^ 18).foldl (· + ·) 0

/-- Q (R321). -/
def quotaOf (ws : List W64) (l : Nat) : Nat :=
  if recQuota ws ≠ 0 then recQuota ws else if recVpol ws then recCpp ws * l / 2 else recCpp ws * l

/-- What allocating lines comes to: lines added, whether Q is passed, the first refused line (stack, held, limit). -/
structure Alloc where
  lines : List Nat
  excess : Bool
  refused : Option (Nat × Nat × Nat)
  deriving DecidableEq, Repr

/-- Lines allocated in turn: `q` is the quota that counts, `held` the sheet's lines on the package. -/
def allocLines (q soft : Nat) : List Nat → List Nat → Alloc
  | _, [] => ⟨[], false, none⟩
  | held, l :: ls =>
    if held.contains l then allocLines q soft held ls
    else
      let st := l / 4 % 8
      let n := held.length
      let m := (held.filter fun h => h / 4 % 8 == st).length
      let q8 := (q + 7) / 8
      let s8 := (soft + 7) / 8
      if q < n + 1 then ⟨[], true, some (st, n, q)⟩
      else if q8 < m + 1 then ⟨[], true, some (st, m, q8)⟩
      else
        let r := allocLines q soft (l :: held) ls
        ⟨l :: r.lines, r.excess || decide (soft < n + 1) || decide (s8 < m + 1), r.refused⟩

/-- What allocating the lines of `n` bytes from `va` comes to for a sheet (R321 to R323). -/
def State.allocation (s : State) (sh : Sheet) (w : Window) (va n : Nat) : Alloc :=
  if !(w.cls = clsT || w.cls = clsM) || sh.inPlace then ⟨[], false, none⟩
  else
    let p := s.pkg w.pkg
    let soft := quotaOf sh.words p.share
    let q := if recVpol sh.words then max soft (recCpp sh.words * p.share) else soft
    let held := (p.vat.filter fun v => v.sh == sh.id).map VLine.line
    allocLines q soft held ((linesOf va n).map fun l => w.phys (64 * l) / 64)

/-- A sheet allocates the vat lines of `n` bytes from `va` at task cycle `t` (R321); past its quota it faults on the
package that holds the lines (R322), or is marked over quota under policy irrevocable (R323). -/
def State.allocate (s : State) (id : Nat) (w : Window) (va n : Nat) (d : Desc) (t : Nat) : State :=
  match s.sheet? id with
  | none => s
  | some sh =>
    let r := s.allocation sh w va n
    let mop := if w.cls = clsM then some w.mop else none
    let s := s.updPkg w.pkg fun p => { p with vat := p.vat ++ r.lines.map fun l => ⟨id, l, [], mop, p.keyOf w.key⟩ }
    let s := if recVpol sh.words && r.excess && sh.irrev == 0 then s.updSheet id fun x => { x with irrev := 1 } else s
    match r.refused with
    | none => s
    | some x =>
      s.raise id { s.faultRec sh ⟨cVatCap, 0, d, t, w64 x.1, w64 x.2.1, w64 x.2.2⟩ with pkg := w.pkg }

/-- A sum over the level indices of transfer `j`, level 0 fastest. -/
def levelSum (f : Nat → Nat × Int × Int × Int × Int → Int) : List (Nat × Int × Int × Int × Int) → Nat → Int
  | [], _ => 0
  | l :: r, j => f (j % l.1) l + levelSum f r (j / l.1)

/-- The destination heap offset of transfer `j` of a run (R235). -/
def weaveDst (w : WeaveRun) (j : Nat) : Nat :=
  ((w.dst : Int) + (if w.seq.getLsbD 0 then w.buf else 0 : Nat) + levelSum (fun i l => i * l.2.2.1) w.levels j).toNat

/-- The rank of its peer (R235). -/
def weavePeer (w : WeaveRun) (prank j : Nat) : Nat :=
  (((if w.rel then prank else 0 : Nat) + levelSum (fun i l => l.2.2.2.1 * i + l.2.2.2.2) w.levels j) % (w.p : Nat)).toNat

/-- The heap bytes of the status word (R237). -/
def weaveStat (w : WeaveRun) : Nat := w.stat + (if w.seq.getLsbD 0 then w.buf else 0)

/-- The place of a vat allocation among those of its cycle: logical core id of the issuer, package rank of the source,
address (R321). -/
def State.allocRank (s : State) : Act → List Nat
  | .hbmPerform x _ _ => [keyId x.d.k, (s.core? x.d.k).elim 0 Core.prank, x.va]
  | .weaveContribution w j =>
    let prank := (s.core? w.d.k).elim 0 Core.prank
    [keyId w.d.k, prank, ((s.sheet? w.sh).bind fun sh => sh.heap? (sh.pkgs.getD (weavePeer w prank j) 0)).elim 0 Window.base + weaveDst w j]
  | .weaveStatusWrite w =>
    [keyId w.d.k, (s.core? w.d.k).elim 0 Core.prank,
      ((s.sheet? w.sh).bind fun sh => sh.heap? (keyPkg w.d.k)).elim 0 Window.base + weaveStat w]
  | _ => []

/-- Lists in lexicographic order. -/
def lexLt : List Nat → List Nat → Bool
  | [], _ :: _ => true
  | _, [] => false
  | a :: as, b :: bs => decide (a < b) || (a == b && lexLt as bs)

/-- A step put before the first that `after` picks. -/
def insertEvent (after : Event → Bool) (e : Event) : List Event → List Event
  | [] => [e]
  | f :: r => if after f then e :: f :: r else f :: insertEvent after e r

/-- A vat allocation falls due at the end of a cycle, ranked among those of the cycle (R321). -/
def State.postAlloc (s : State) (ttc id : Nat) (a : Act) : State :=
  let after := fun (f : Event) => f.ttc == ttc && f.ph == phEnd && lexLt (s.allocRank a) (s.allocRank f.act)
  { s with agenda := insertEvent after ⟨ttc, phEnd, some id, a⟩ s.agenda }

/-! The ordering check of HBM accesses (R269 to R276). -/

/-- Two accesses touch a byte, and one of them writes (R270). -/
def HAccess.touches (a b : HAccess) : Bool :=
  a.pkg == b.pkg && decide (a.lo ≤ b.hi) && decide (b.lo ≤ a.hi) && (a.wr || b.wr)

/-- Their intervals are not separated (R270). -/
def HAccess.overlaps (a b : HAccess) : Bool := decide (a.s ≤ b.e) && decide (b.s ≤ a.e)

/-- Contributions of one weave run (R275). -/
def HAccess.sameRun (a b : HAccess) : Bool := a.run.isSome && a.run == b.run

/-- Two accesses that R273 compares and finds unordered. -/
def HAccess.coincides (a b : HAccess) : Bool :=
  a.touches b && a.overlaps b && a.cls == b.cls && !(a.wr && b.wr && a.sameAgent b) && !(a.sameRun b)
    && !(a.d == b.d && a.wr == b.wr && a.run.isNone && b.run.isNone)

/-- An access met by the earlier ones of its sheet: COINCIDENT_ACCESS at the start of the later interval, on the core of
the later-starting access (R273). -/
def State.coincide (s : State) (sh : Sheet) (a : HAccess) : List CFault :=
  (sh.haccs.filter a.coincides).map fun b =>
    let own := if b.s < a.s then a.d else if a.s < b.s then b.d else if reportsFirst b.d a.d then b.d else a.d
    ⟨cCoincident, 0, own, max a.s b.s, w64 (max a.lo b.lo), s.descOf { b.d with start := b.s },
      s.descOf { a.d with start := a.s }⟩

/-- Longest interval of an HBM access. -/
def windowLength : Nat := 769

/-- An access compared and recorded. A strict sheet drops accesses whose intervals lie far back (R276). -/
def State.recordAccess (s : State) (id : Nat) (a : HAccess) : State :=
  match s.sheet? id with
  | none => s
  | some sh =>
    let now := s.task sh
    let s := s.raiseAll id (s.coincide sh a)
    s.updSheet id fun x =>
      { x with haccs := (x.haccs.filter fun b => sh.lenient || decide (now ≤ b.e + windowLength)) ++ [a] }

/-! Races (R274, R275, R280): what a sheet's past of a byte leaves open. -/

/-- A change that races with an access: made inside its interval by another agent, or by an access of another alias class.
An invariant load races with every change since T0 (R275). -/
def Past.races (p : Past) (a : HAccess) (inv : Bool) : Bool :=
  inv || (decide (p.from_ ≤ a.e) && p.till.all (fun e => decide (a.s ≤ e)) && match p.acc with
    | some b => b.cls != a.cls && !(a.sameRun b) && !(a.wr && a.sameAgent b)
    | none => true)

/-- The changes of a sheet's past that race with an access of it. -/
def State.racing (s : State) (sh : Sheet) (a : HAccess) (inv : Bool) : List Past :=
  (((s.sheet? sh.id).elim [] Sheet.past).filter fun p => p.pkg == a.pkg && p.races a inv)

/-- The values that a read may return of byte `i` of a line, which holds `cur` now: the changes, newest first, are undone as
far as they race (R274). -/
def valuesOf (a : HAccess) (inv : Bool) (i : Nat) (cur : Byte) : List Past → List Byte
  | [] => [cur]
  | p :: r =>
    match p.old.getD i none with
    | none => valuesOf a inv i cur r
    | some o => if p.races a inv then cur :: valuesOf a inv i o r else [cur]

/-- The past of a line, newest change first. -/
def pastLine (ps : List Past) (pkg line : Nat) : List Past := (ps.filter fun p => p.pkg == pkg && p.line == line).reverse

/-- A byte read at `va`: one of the values it may return. -/
def openByte (ps : List Past) (a : HAccess) (inv : Bool) (fr : Nat) (w : Window) (va : Nat) (cur : Byte) : Byte :=
  let vs := valuesOf a inv (va % 64) cur (pastLine ps w.pkg (w.phys va / 64))
  vs.getD (Config.which fr % vs.length) cur

/-- Bytes read at `va` by an access of a sheet, of which `bs` are there now (R274, R275, R280). -/
def State.openRead (s : State) (sh : Sheet) (a : HAccess) (inv : Bool) (w : Window) (va : Nat) (bs : List Byte) : List Byte :=
  if (s.racing sh a inv).isEmpty then bs
  else
    let ps := (s.sheet? sh.id).elim [] Sheet.past
    (bs.zipIdx).map fun b => openByte ps a inv (s.free + b.2) w (va + b.2) b.1

/-- Bytes to write at `va`: over a byte that a racing write left, either of the two may stand (R274). -/
def State.openWrite (s : State) (sh : Sheet) (a : HAccess) (w : Window) (va : Nat) (bs : List (Option Byte)) :
    List (Option Byte) :=
  if (s.racing sh a false).isEmpty then bs
  else
    let ps := (s.sheet? sh.id).elim [] Sheet.past
    (bs.zipIdx).map fun b =>
      let at_ := va + b.2
      let last := (pastLine ps w.pkg (w.phys at_ / 64)).find? fun p => (p.old.getD (at_ % 64) none).isSome
      if (last.any fun p => p.races a false) && Config.choice (s.free + b.2) then none else b.1

/-! What an untimed agent reads (R280, R319). -/

/-- A byte as it stood before the changes of its past that an untimed agent does not see: writes of sheets not yet couched
through S-class windows, and those through others whose perform window is still open, old or new. -/
def hiddenByte (hide : Past → Bool) (either : Past → Bool) (i fr : Nat) (cur : Byte) : List Past → Byte
  | [] => cur
  | p :: r =>
    match p.old.getD i none with
    | none => hiddenByte hide either i fr cur r
    | some o =>
      if hide p || (either p && Config.choice fr) then hiddenByte hide either i (fr + 1) o r else cur

/-- A change of a sheet's own view alone: its write stands in the vat (R318). -/
def Past.inVat (p : Past) (sh : Sheet) : Bool :=
  !sh.inPlace && p.who.any fun u => u.1 == sh.id && (u.2 == clsT || u.2 == clsM)

/-- Byte `a` of device memory of package `q` as an untimed agent reads it under a key, `cur` being the newest couched state
(R280): the sheet with the longest past of the byte tells what is not couched yet. -/
def State.couchedByte (s : State) (q a : Nat) (cur : Byte) (fr : Nat) : Byte :=
  let pasts := s.sheets.filterMap fun sh =>
    let ps := (pastLine sh.past q (a / 64)).filter fun p => (p.old.getD (a % 64) none).isSome && !(p.inVat sh)
    if ps.isEmpty then none else some (sh, ps)
  match pasts.foldl (fun best e => match best with
      | some (b : Sheet × List Past) => if b.2.length < e.2.length then some e else best
      | none => some e) (none : Option (Sheet × List Past)) with
  | none => cur
  | some (sh, ps) =>
    let now := s.clockOf sh
    let live := fun (p : Past) => p.who.any fun u => s.sheets.any fun o => o.id == u.1 && decide (4 ≤ o.state)
    hiddenByte (fun p => live p && p.who.any fun u => u.2 == clsS)
      (fun p => live p && (p.who.any fun u => u.2 != clsS) && p.till.any fun e => decide (now ≤ e)) (a % 64) fr cur ps

/-- `n` bytes of device memory as an untimed agent reads them under a key (R280, R319, R368). -/
def State.untimedRead (s : State) (q : Nat) (key : List Byte) (a n : Nat) : List Byte :=
  let bs := (((linesOf a n).flatMap fun l => (s.pkg q).lineAt key l none).drop (a % 64)).take n
  if s.sheets.all fun sh => sh.past.isEmpty then bs
  else (bs.zipIdx).map fun b => s.couchedByte q (a + b.2) b.1 (s.free + b.2)

/-- The lines of package `q` that some sheet's past names. -/
def State.unsettled (s : State) (q : Nat) : List Nat :=
  (s.sheets.flatMap fun sh => (sh.past.filter fun p => p.pkg == q).map Past.line).eraseDups

/-- Package `q` with its device memory as the mill controller, an untimed agent, reads it (R268, R280). -/
def State.asRead (s : State) (q : Nat) : Package :=
  (s.unsettled q).foldl (fun p l =>
    p.writeInPlace (p.lineKey l) l 0 ((s.untimedRead q (p.lineKey l) (64 * l) 64).map some)) (s.pkg q)

/-- The free values of one such reading. -/
def State.readCost (s : State) (q : Nat) : Nat := 64 * (s.unsettled q).length

/-! Pseudo-channels (R91, R92, R238). -/

/-- Stack, pseudo-channel and bank set of a granule's address as one number (R91). -/
def channelOf (a : Nat) : Nat := a / 256 % 8 * 1024 + a / 2048 % 64 * 16 + a / 131072 % 16

/-- The granules of `n` bytes from `va`. -/
def granules (va n : Nat) : List Nat :=
  if n = 0 then [] else (List.range ((va + n - 1) / 256 - va / 256 + 1)).map fun i => (va / 256 + i) * 256

/-- DATA0 of LATE_LANDING (R343). -/
def lateData (cond ch : Nat) : W64 :=
  w64 (cond * 2 ^ 20 + ch / 1024 * 2 ^ 16 + ch / 16 % 64 * 2 ^ 8 + ch % 16)

/-- An access of core `k` ranked among those of the last 896 cycles: late under condition 1 (fourth of the core on the
pseudo-channel), under condition 2 (seventeenth of the package on the bank set), or on time. -/
def lateBy (use : List (Nat × Nat × Nat)) (k ch : Nat) : Option Nat :=
  if 3 ≤ (use.filter fun u => u.2.1 == k && u.2.2 / 16 == ch / 16).length then some 0
  else if 16 ≤ (use.filter fun u => u.2.2 == ch).length then some 1
  else none

/-- The accesses of a transfer ranked one after another; the first late one as DATA0. -/
def rankAccesses (ttc k : Nat) : List Nat → List (Nat × Nat × Nat) → List (Nat × Nat × Nat) × Option W64
  | [], use => (use, none)
  | a :: r, use =>
    let ch := channelOf a
    let here := (lateBy use k ch).map fun c => lateData c ch
    let q := rankAccesses ttc k r (use ++ [(ttc, k, ch)])
    (q.1, here <|> q.2)

/-- The accesses of a transfer of core `k` counted on package `p`; a late one faults its word at task cycle `at_` (R92),
in a strict sheet (R31). -/
def State.countAccesses (s : State) (id p k va n : Nat) (d : Desc) (at_ : Nat) : State :=
  let use := (s.pkg p).hbmUse.filter fun u => decide (s.ttc < u.1 + 896)
  let r := rankAccesses s.ttc k (granules va n) use
  let s := s.updPkg p fun x => { x with hbmUse := r.1 }
  match r.2, s.sheet? id with
  | some d0, some sh => if sh.lenient then s else s.raiseAll id [⟨cMiss, mLate, d, at_, d0, 0, 0⟩]
  | _, _ => s

/-! Sampling and performing a transfer's bytes (R90). -/

/-- HBM bytes per scratchpad beat: a converting FETCH reads FP32 values (R224). -/
def xferBeat (x : Xfer) : Nat := 128 * 32 / x.w

/-- HBM bytes of the transfer. -/
def xferBytes (x : Xfer) : Nat := x.n * 32 / x.w

/-- The cycle at which beat 0 lands (R89, R225), later by as much as a lenient sheet's transfer is (R31, R276). -/
def xferLand (x : Xfer) : Nat := x.d.start + 1536 * x.h + 896 + x.late

/-- The access of a transfer on its HBM side (R269). -/
def xferAccess (x : Xfer) : HAccess :=
  ⟨x.peer, x.va, x.va + xferBytes x - 1, !x.read, x.cls, x.d, x.d.start + 768 * x.h + 64, x.d.start + 768 * x.h + 832, none⟩

/-- A poisoned line among physical ranges (R350). -/
def Package.poisoned (p : Package) (rs : List (Nat × Nat)) : Option Nat :=
  p.poison.find? fun l => rs.any fun r => decide (r.1 / 64 ≤ l) && decide (l ≤ r.2 / 64)

/-- A step that used `n` free values. -/
def State.spend (s : State) (n : Nat) : State := { s with free := s.free + n }

/-- Bytes that access `a` of a sheet writes now, where a race lets them stand (R274). -/
def State.writeOpen (s : State) (sh : Sheet) (w : Window) (a : HAccess) (va : Nat) (bs : List (Option Byte)) : State :=
  (s.hbmWrite sh w a va (s.openWrite sh a w va bs)).spend (if (s.racing sh a false).isEmpty then 0 else bs.length)

/-- HBM bytes that a beat or a chunk writes now (R279). -/
def State.performBytes (s : State) (id : Nat) (a : HAccess) (va : Nat) (data : List Byte) : State :=
  match s.sheet? id with
  | none => s
  | some sh =>
    match sh.window? a.pkg va data.length with
    | none => s
    | some w =>
      s.writeOpen sh w a va (data.map some)

end Sys2Proof.Machine
end

