-- ==== Sys2Proof/Machine/Ras.lean ====
section
/-! DEFINITION. Error events and the fault log (R342, R348, R349), and the count that makes a core's fault lasting
(R351). -/

namespace Sys2Proof.Machine

/-- Bytes of device memory written by an untimed agent of the package, unencrypted (R317). -/
def Package.putMem (p : Package) (a : Nat) (bs : List Byte) : Package :=
  (cutLines (bs.length / 64 + 2) a (bs.map some)).foldl (fun p c => p.writeInPlace [] c.1 c.2.1 c.2.2) p

/-- `n` bytes of device memory: the newest couched state (R319), as it is stored. -/
def Package.getMem (p : Package) (a n : Nat) : List Byte :=
  (((linesOf a n).flatMap fun l => p.lineAt [] l none).drop (a % 64)).take n

/-- `n` bytes of device memory as an access under a key reads them. -/
def Package.readUnder (p : Package) (key : List Byte) (a n : Nat) : List Byte :=
  (((linesOf a n).flatMap fun l => p.lineAt key l none).drop (a % 64)).take n

/-- A 64-bit word of device memory. -/
def Package.memWord (p : Package) (a : Nat) : W64 := w64 (leNat (p.getMem a 8))

/-- The eight words of a log entry (R342). DESIGN CHOICE (log entry 65): the 13-bit WORD of a fault that names address 0x2000 (R105)
is that address modulo 8,192, which is 0. -/
def logWords (id kind ch ttc : Nat) (f : LogFields) : List W64 :=
  [w64 (id % 2 ^ 40 * 2 ^ 24 + kind % 8 * 2 ^ 8 + ch % 256),
   w64 (f.cause % 256 * 2 ^ 56 + f.sub % 256 * 2 ^ 48 + f.core % 256 * 2 ^ 40 + f.col % 4 * 2 ^ 38
     + f.rank % 2 ^ 19 * 2 ^ 19 + f.word % 8192),
   w64 (f.part % 8 * 2 ^ 61 + f.task % 2 ^ 48),
   w64 ttc,
   w64 (min f.attempt 15 * 2 ^ 14 + f.rcd % 2 ^ 14),
   f.d0, f.d1, f.d2]

/-- The log holds 4,096 entries that the driver has not consumed (R349). -/
def Package.logFull (p : Package) : Bool := p.logHead - p.logTail == 4096

/-- An event takes the next id, is counted on its channel, and is logged unless the log is full, when it counts as lost
(R348, R349). -/
def Package.record (p : Package) (ttc kind ch : Nat) (f : LogFields) : Package :=
  let up := fun (t : Tab W64) => Tab.set 0 ch (Tab.get 0 t ch + 1) t
  let id := p.evNext
  let p := { p with evNext := p.evNext + 1 }
  let p := if kind = 1 || kind = 5 then { p with ecor := up p.ecor }
    else if kind = 2 || kind = 3 then { p with eunc := up p.eunc }
    else { p with eoth := up p.eoth }
  if p.logFull then { p with lost := p.lost + 1, firstLost := if p.lost = 0 then id else p.firstLost }
  else
    let bytes := (logWords id.toNat kind ch ttc f).flatMap fun w => leBytes 8 w.toNat
    { p.putMem (p.logBase.toNat + 64 * (p.logHead.toNat % 4096)) bytes with logHead := p.logHead + 1 }

/-- The order of the events of one cycle: ascending channel, and address on one channel (R348). -/
def Report.before (a b : Report) : Bool :=
  let at_ := fun (r : Report) => if r.kind = 0 then 0 else r.f.d0.toNat
  decide (a.ch < b.ch) || (a.ch == b.ch && decide (at_ a < at_ b))

/-- A report among those in order, after the ones that do not come after it. -/
def insertReport (r : Report) : List Report → List Report
  | [] => [r]
  | a :: l => if r.before a then r :: a :: l else a :: insertReport r l

/-- An event counted and logged, with the count of R351: the third uncorrectable or the 64th corrected event of a core within
2^30 cycles makes its fault lasting, and its retirement is an event of the same cycle. Events of a pair under trial are of kind
5 or 3, count nowhere and fail the trial (R354). -/
def Package.report (p : Package) (r : Report) : Package × Option Report :=
  if p.underTrial r.ch && (r.kind = 1 || r.kind = 2) then
    ({ p.record r.ttc (if r.kind = 1 then 5 else 3) r.ch r.f with trial := p.trial.map fun t => { t with failed := true } }, none)
  else
    let p := p.record r.ttc r.kind r.ch r.f
    if decide (r.ch < 216) && (r.kind = 1 || r.kind = 2) then
      let h := (p.history.filter fun e => decide (r.ttc < e.2.2 + 2 ^ 30)) ++ [(r.ch, r.kind, r.ttc)]
      let n := fun (k : Nat) => (h.filter fun e => e.1 == r.ch && e.2.1 == k).length
      let p := { p with history := h }
      if (3 ≤ n 2 || 64 ≤ n 1) && !p.lasting.contains r.ch then
        ({ p with lasting := r.ch :: p.lasting }, some ⟨r.ttc, 4, 241, { LogFields.none with core := r.f.core }⟩)
      else (p, none)
    else (p, none)

/-- Events in order, each admitted in turn; the first argument bounds the walk. -/
def Package.admitAll : Nat → List Report → Package → Package
  | 0, _, p => p
  | _ + 1, [], p => p
  | n + 1, r :: rs, p =>
    let a := p.report r
    admitAll n (match a.2 with
      | some x => insertReport x rs
      | none => rs) a.1

/-- The end of a PCC cycle: its events take their ids (R342, R348). -/
def Package.settle (p : Package) : Package :=
  if p.reports.isEmpty then p
  else Package.admitAll (2 * p.reports.length) (p.reports.foldl (fun l r => insertReport r l) []) { p with reports := [] }

/-- Hardware errors that the environment has caused at a place a unit now meets: corrected ones are logged and change
nothing (R350); the first uncorrectable one is answered, by a fault that records it too (R342). -/
def State.meetErrors (s : State) (pkg : Nat) (hit : HwError → Bool) : State × Option HwError :=
  let es := (s.pkg pkg).errors.filter hit
  if es.isEmpty then (s, none)
  else
    let bad := es.find? fun e => e.kind == 2
    let s := s.updPkg pkg fun p =>
      (es.filter fun e => some e != bad).foldl (fun p e => p.event s.ttc e.kind e.ch (p.errorFields e.ch e.addr))
        { p with errors := p.errors.filter fun e => !(hit e) }
    (s, bad)

end Sys2Proof.Machine
end

