-- ==== Sys2Proof/Machine/Transfer.lean ====
section
/-! DEFINITION. Transfers of the X column (R218 to R227): FETCH, STOW, RFETCH, RSTOW, SEND, SENDB, their beats, credits
and link crossings (R241 to R243, R339). -/

namespace Sys2Proof.Machine

/-! Issue of an X word. -/

/-- What an X word does: its effect on its core, and what follows in the sheet, the packages and other cores. -/
structure XOut where
  eff : Eff
  more : State → State

def XOut.only (e : Eff) : XOut := ⟨e, id⟩

/-- An X word issues: `f` is its meaning, given the issue context, the core and the sheet. -/
def State.issueX (s : State) (f : Ctx → Core → Sheet → XOut) : Host.Outcome State Fault Refusal :=
  match s.core? s.cur.k with
  | none => .next s
  | some c =>
    match s.sheet? c.sh with
    | none => .next s
    | some sh =>
      let r := f s.cur c sh
      let s1 := s.commit s.cur.k r.eff
      .next (if r.eff.wait.isSome then s1 else r.more s1)

/-- `Core.checked` for an X word. -/
def Core.checkedX (c : Core) (x : Ctx) (rs : List (Nat × Nat)) (ws : List ((Nat × Nat) × Nat)) (pre : List CFault)
    (f : Core → XOut) : XOut :=
  let pre := pre ++ c.illRegs x rs
  match c.board? x rs ws with
  | some w => .only { Eff.waits c w with flt := pre }
  | none => if pre.isEmpty then f (c.claim x ws) else .only ((Eff.ok c).faults pre)

/-- The registers an X word checks: its predicate and its operands, none if it is predicated off (R44, R122, R281). -/
def xRegs (p : Nat) (off : Bool) (rs : List (Nat × Nat)) : List (Nat × Nat) := if off then [] else pReg p :: rs

/-- The cycles by which a transfer of a sheet falls later than stated: none in a strict sheet, any number in a lenient
one (R31, R276). -/
def Sheet.lateness (sh : Sheet) (fr : Nat) : Nat := if sh.lenient then Config.late fr else 0

/-- The sheet's transfers last at least until task cycle `t` (R33). -/
def State.settles (s : State) (id t : Nat) : State :=
  s.updSheet id fun sh => { sh with settle := max sh.settle t }

/-- The credit of a transfer (R222). -/
def creditAt (t k n : Nat) : Option Nat → List (Nat × Nat × Act)
  | some b => [(t, phEnd, .transferCredit k b n)]
  | none => []

/-- TRANSFER CREDIT: made at the end of its cycle (R222). -/
def execTransferCredit (k b n : Nat) (s : State) : Host.Outcome State Fault Refusal :=
  s.atCore k fun t _ c => Eff.ok (c.semAdd t b 0 n)

/-- The beats of 128 bytes, and a last one of 64, that a transfer puts through X-in or X-out from cycle `lo` on (R221,
R223). -/
def Core.portBeats (c : Core) (k : Nat) (out : Bool) (lo n : Nat) (d : Desc) (now : Nat) : Core × List CFault :=
  let a := if n / 128 = 0 then (c, []) else c.usePort k ⟨out, lo, lo + n / 128 - 1, 128, d⟩ now
  if n % 128 = 0 then a
  else
    let b := a.1.usePort k ⟨out, lo + n / 128, lo + n / 128, n % 128, d⟩ now
    (b.1, a.2 ++ b.2)

/-! Links (R241 to R243). -/

/-- A package of the domain at torus coordinates. -/
def State.atCoord (s : State) (x : Nat × Nat × Nat) : Nat := (s.pkgs.findIdx? fun p => p.formed && p.coord == x).getD 0

/-- One step along a ring of `n`. -/
def stepRing (n a : Nat) (up : Bool) : Nat := if up then (a + 1) % n else (a + n - 1) % n

/-- The coordinates one step away from a package in a direction (R241, R376). -/
def Package.stepTo (p : Package) (dir : Nat) : Option (Nat × Nat × Nat) :=
  let x := p.coord
  match dir with
  | 1 => some (stepRing p.ext.1 x.1 true, x.2)
  | 2 => some (stepRing p.ext.1 x.1 false, x.2)
  | 3 => some (x.1, stepRing p.ext.2.1 x.2.1 true, x.2.2)
  | 4 => some (x.1, stepRing p.ext.2.1 x.2.1 false, x.2.2)
  | 5 => some (x.1, x.2.1, stepRing p.ext.2.2 x.2.2 true)
  | 6 => some (x.1, x.2.1, stepRing p.ext.2.2 x.2.2 false)
  | _ => none

/-- The direction code of a port; 0 where it has none. -/
def Package.portDir (p : Package) (n : Nat) : Nat := (Tab.get Port.reset p.ports n).dir.toNat

/-- The package at the far end of a port, if one that DOMAIN has placed stands there. -/
def State.farOf (s : State) (q n : Nat) : Option Nat :=
  ((s.pkg q).stepTo ((s.pkg q).portDir n)).bind fun x => s.pkgs.findIdx? fun p => p.dstate != 0 && p.coord == x

/-- The ports of a package in a direction, in the order of their numbers. -/
def Package.portsTo (p : Package) (dir : Nat) : List Nat := (List.range 16).filter fun n => p.portDir n == dir

/-- The far end of a port's link. DESIGN CHOICE (log entry 56): of several links between two packages in one direction, the ports
pair in the order of their numbers. -/
def State.pairOf (s : State) (q n : Nat) : Option (Nat × Nat) :=
  let d := (s.pkg q).portDir n
  let back := if d % 2 = 1 then d + 1 else d - 1
  (s.farOf q n).bind fun p =>
    ((s.pkg p).portsTo back)[indexOf n ((s.pkg q).portsTo d)]?.map fun m => (p, m)

/-- The next package of the dimension-ordered route, and the direction code of the hop (R241, R376). -/
def State.nextHop (s : State) (a b : Nat) : Nat × Nat :=
  let p := s.pkg a
  let q := s.pkg b
  let x := p.coord
  if x.1 ≠ q.coord.1 then
    let w := (ringWay p.ext.1 x.1 q.coord.1).2
    (s.atCoord (stepRing p.ext.1 x.1 w, x.2), if w then 1 else 2)
  else if x.2.1 ≠ q.coord.2.1 then
    let w := (ringWay p.ext.2.1 x.2.1 q.coord.2.1).2
    (s.atCoord (x.1, stepRing p.ext.2.1 x.2.1 w, x.2.2), if w then 3 else 4)
  else
    let w := (ringWay p.ext.2.2 x.2.2 q.coord.2.2).2
    (s.atCoord (x.1, x.2.1, stepRing p.ext.2.2 x.2.2 w), if w then 5 else 6)

/-- The lowest-numbered admitted port of a direction (R241). -/
def Package.portTo (p : Package) (dir : Nat) : Nat :=
  ((List.range 16).find? fun n =>
    let q := Tab.get Port.reset p.ports n
    q.admitted && !q.retired && q.dir.toNat == dir).getD 0

/-- The route from one package to another as (sending package, port); the first argument is its length. -/
def State.route (s : State) : Nat → Nat → Nat → List (Nat × Nat)
  | 0, _, _ => []
  | n + 1, a, b =>
    let h := s.nextHop a b
    (a, (s.pkg a).portTo h.2) :: s.route n h.1 b

/-- Lanes set in a mask. -/
def laneCount (m : Nat) : Nat := ((List.range 8).filter fun i => bits m i 1 == 1).length

/-- O, the cycles a transfer of `n` bytes takes on `w` lanes; `floor` is the pace at which its source can supply it
(R241). -/
def linkCycles (n floor w : Nat) : Nat := max ((n + 255) / 256 * 16 / max w 1) floor

/-- The entry of a plan that serves a hop (R242). -/
def planServes (plan : List Reservation) (prank port c n floor : Nat) : Option Reservation :=
  plan.find? fun r => r.prank == prank && r.port == port && decide (r.first ≤ c)
    && decide (c + linkCycles n floor (laneCount r.lanes) ≤ r.first + r.cycles)

/-- One hop of a transfer at link cycle `t`: a hop that no entry serves, or lanes that another transfer uses, raise
LANE_COLLISION on the issuing core (R243, R343). -/
def State.crossHop (s : State) (id : Nat) (d : Desc) (h : Nat × Nat) (t n floor : Nat) : State :=
  match s.sheet? id with
  | some sh =>
    let prank := indexOf h.1 sh.pkgs
    let fault := fun (lanes : Nat) (b : W64) (e : Desc) =>
      (⟨cLane, 0, e, t, w64 (32 + h.2 + lanes * 65536), s.descOf { d with start := t }, b⟩ : CFault)
    match planServes sh.plan prank h.2 t n floor with
    | none =>
      let lanes := ((sh.plan.find? fun r => r.prank == prank && r.port == h.2 && decide (r.first ≤ t)
        && decide (t < r.first + r.cycles)).map (·.lanes)).getD 0
      s.raiseAll id [fault lanes 0 d]
    | some r =>
      let u : LinkUse := ⟨prank, h.2, r.lanes, t, t + linkCycles n floor (laneCount r.lanes) - 1, d⟩
      let hits := sh.links.filter fun o => o.prank == u.prank && o.port == u.port && decide (o.lo ≤ u.hi)
        && decide (u.lo ≤ o.hi) && (List.range 8).any fun i => bits o.lanes i 1 == 1 && bits u.lanes i 1 == 1
      let s := s.raiseAll id (hits.map fun o => { fault r.lanes (s.descOf { o.d with start := o.lo })
        (if reportsFirst o.d d then o.d else d) with task := max o.lo u.lo })
      s.updSheet id fun x => { x with links := x.links ++ [u] }
  | none => s

/-- A transfer crosses its route from link cycle `t` on, one hop every 768 task cycles; its first flits are released at
the end of the first hop (R241, R339). -/
def State.crossLinks (s : State) (id : Nat) (d : Desc) (a b h t n floor land : Nat) : State :=
  let hops := s.route h a b
  let s := (hops.zipIdx).foldl (fun s e => s.crossHop id d e.1 (t + 768 * e.2) n floor) s
  match hops, s.sheet? id with
  | (p, port) :: rest, some sh =>
    s.post (sh.t0 + t + 768) phStart (some id) (.linkFlitRelease ⟨d, id, p, port, t, n, land, rest⟩)
  | _, _ => s

/-- An uncorrectable error on channel `ch` of package `q` faults its word. DEDUCED (log entry 61): where `q` is not the issuing core's
package, the event is logged on `q`, and the fault on its own package. -/
def State.hardFault (s : State) (sh : Sheet) (q ch : Nat) (f : CFault) : State :=
  let r := s.faultRec sh f
  let s := if q = r.pkg then s else s.updPkg q fun p => p.event s.ttc 2 ch (p.errorFields ch f.d0.toNat)
  s.raise sh.id { r with ch := some (q, ch) }

/-- LINK FLIT RELEASE: the flits leave the hop, whose lanes are free once its cycles are over, and enter the next one
(R339). A flit that its port could not correct is an event of that port's channel, and faults the sheet when its transfer lands
or performs (R350, R378). -/
def execLinkFlitRelease (l : Flit) (s : State) : Host.Outcome State Fault Refusal :=
  match s.sheet? l.sh with
  | none => .next s
  | some sh =>
    let t := s.task sh
    let s := s.updSheet l.sh fun x => { x with links := x.links.filter fun u => decide (t ≤ u.hi) }
    let e := s.meetErrors l.pkg fun e => e.ch == 224 + l.port
    let s := match e.2 with
      | some h => e.1.hardFault sh l.pkg h.ch ⟨cUncorrectable, 7, l.d, max t l.land, w64 h.addr, 0, 0⟩
      | none => e.1
    match l.rest with
    | (p, port) :: rest =>
      .next (s.post (s.ttc + 768) phStart (some l.sh) (.linkFlitRelease { l with pkg := p, port := port, enter := t, rest := rest }))
    | [] => .next s

/-! FETCH, STOW, RFETCH, RSTOW (R218 to R225). -/

/-- The operands of an XT word: `peer` is there for RFETCH and RSTOW. -/
structure XtArgs where
  p : Nat
  g : Nat
  sa : Nat
  f : Nat
  cls : Nat
  credit : Option Nat
  peer : Option Nat
  cv : Bool
  inv : Bool

/-- The credited semaphore of a transfer literal (R103). -/
def litCredit (k : BitVec 1) (lit : W32) : Option Nat := if k = 1 then some (bits lit.toNat 0 10) else none

/-- PEER of a transfer literal. -/
def litPeer (lit : W32) : Nat := bits lit.toNat 10 11

/-- Where an XT word goes: its package, hops, window (the whole range and its first byte), virtual address. -/
structure XtPlace where
  pkg : Nat
  h : Nat
  win : Option Window
  near : Option Window
  va : Nat

/-- The place of `n` HBM bytes at operand address `va` (R219, R225, R363). -/
def State.xtPlace (s : State) (sh : Sheet) (k : Nat) (peer : Option Nat) (va n : Nat) : XtPlace :=
  match peer with
  | none => ⟨keyPkg k, 0, sh.window? (keyPkg k) va n, sh.window? (keyPkg k) va 1, va⟩
  | some q =>
    let p := sh.pkgs.getD q (keyPkg k)
    let w := sh.heap? p
    ⟨p, s.hops (keyPkg k) p, w.filter fun w => decide (va + n ≤ w.size), w, ((w.map (·.base)).getD 0) + va⟩

/-- The region faults of an XT word (R218, R219). -/
def xtFaults (x : Ctx) (sh : Sheet) (a : XtArgs) (pl : XtPlace) (va : Nat) (wr : Bool) : List CFault :=
  if a.peer.any fun q => decide (sh.pkgs.length ≤ q) then
    [⟨cRegion, rGang, x.desc, x.t, w64 va, w64 (a.peer.getD 0), 0⟩]
  else if va % 64 ≠ 0 then [⟨cRegion, rAlign, x.desc, x.t, w64 va, 0, 0⟩]
  else windowFaults x.desc x.t va wr pl.win pl.near

/-- The bookkeeping of a predicated-off transfer: the ring counts its beats at the cycles they would have used (R220). -/
def skipBeats (d : Desc) (k : Nat) (wr : Bool) (g off beat from_ : Nat) (runs : List (Nat × Nat)) :
    List (Nat × Nat × Act) :=
  let m : Move := { d := d, k := k, cls := 0, lane := 0, unit := 0, kind := .skip wr, ring := some (g, off), beat := beat,
                    tag := none, lanes := [], bytes := [], fl := 0 }
  match readPiecesOf beat from_ (partsOf beat runs) with
  | [] => []
  | p :: r => [(from_, if wr then phWrite else phRead, .laneBeat m (p :: r))]

/-- FETCH and RFETCH (R223 to R225). DESIGN CHOICE (log entry 70): a predicated-off one still needs the destination formats of
CV and the PRIV of INV, as the checks of an encoding stand whether or not the word is predicated off (R100). -/
def State.readOp (s : State) (a : XtArgs) (x : Ctx) (c : Core) (sh : Sheet) : XOut :=
  let off := !(c.pget a.p)
  let v := (c.sget a.sa).toNat
  let va := v % 2 ^ 48
  let r := c.ring a.g
  let n := if v / 2 ^ 48 = 0 then r.tileBytes else 64 * (v / 2 ^ 48)
  let fmts := (banksOf (r.runs r.wr n)).map fun b => (c.bank b).fmt
  let w := if a.cv && fmts.headD 0 != 0 then fmtWidth (fmts.headD 0) else 32
  let hn := n * 32 / w
  let pl := s.xtPlace sh x.k a.peer va hn
  let bad := decide (131072 < n) || decide (131072 < hn) || (a.cv && fmts.any fun f => f == 0 || f != fmts.headD 0)
    || (a.inv && (!sh.priv || (!off && !(pl.win.any fun w => w.cls == clsI))))
  let pre := if bad then illegalFaults c x [] else if off then [] else xtFaults x sh a pl va false
  c.checkedX x (xRegs a.p off [sReg a.sa]) [] pre fun c =>
    match c.fill? x a.g n with
    | .error e => .only e
    | .ok (c, o) =>
      let X : Xfer :=
        { d := x.desc, sh := sh.id, read := true, remote := a.peer.isSome, h := pl.h, peer := pl.pkg, va := pl.va, n := n
          g := a.g, roff := o, f := a.f, cls := a.cls, credit := a.credit, cv := a.cv, inv := a.inv, off := off
          probe := none, w := w, late := sh.lateness s.free }
      let land := xferLand X
      let nb := (n + 127) / 128
      let cr := creditAt (land + nb - 1) x.k n a.credit
      let runs := (c.ring a.g).runs o n
      if off then ⟨(Eff.ok c).also (skipBeats x.desc x.k true a.g o 128 land runs ++ cr), (·.settles sh.id (land + nb - 1))⟩
      else
        let d := { x.desc with start := land }
        let oc := c.occupy x.k (landOccs d a.f 2 128 land 11 (partsOf 128 runs)) x.t
        let po := oc.1.portBeats x.k false land n d x.t
        let lo := x.t + 768 * pl.h + 64
        let picks := (List.range nb).map fun i => (pickCycle (s.free + 1 + i) lo (lo + 768 + X.late), phStart, Act.hbmSample (.xfer X i))
        ⟨{ ((Eff.ok po.1).also (picks ++ cr)).faults (oc.2 ++ po.2) with used := nb + 1 }, fun s =>
          let s := if a.inv || sh.lenient then s else s.recordAccess sh.id (xferAccess X)
          let s := (s.countAccesses sh.id pl.pkg x.k pl.va hn x.desc land).settles sh.id (land + nb - 1)
          let own := keyPkg x.k
          if pl.h = 0 then s
          else
            (s.crossLinks sh.id x.desc own pl.pkg pl.h x.t 256 0 land).crossLinks sh.id x.desc pl.pkg own pl.h
              (x.t + 768 * pl.h + 832) hn 0 land⟩

/-- The core that an RSTOW credits: the issuer's index on the peer package (R222). -/
def peerCore (sh : Sheet) (c : Core) (k : Nat) : Option Nat → Nat
  | none => k
  | some q =>
    let n := 8 * recCpp sh.words
    sh.gang.getD (q * n + c.rank % n) k

/-- STOW and RSTOW (R223, R225). -/
def State.writeOp (s : State) (a : XtArgs) (x : Ctx) (c : Core) (sh : Sheet) : XOut :=
  let off := !(c.pget a.p)
  let v := (c.sget a.sa).toNat
  let va := v % 2 ^ 48
  let r := c.ring a.g
  let n := if v / 2 ^ 48 = 0 then r.tileBytes else 64 * (v / 2 ^ 48)
  let pl := s.xtPlace sh x.k a.peer va n
  let inGang := a.peer.all fun q => decide (q < sh.pkgs.length)
  let pre := if 65536 < n then illegalFaults c x [] else if off then [] else xtFaults x sh a pl va true
  c.checkedX x (xRegs a.p off [sReg a.sa]) [] pre fun c =>
    match c.drain? x a.g n with
    | .error e => .only e
    | .ok (c, o) =>
      let X : Xfer :=
        { d := x.desc, sh := sh.id, read := false, remote := a.peer.isSome, h := pl.h, peer := pl.pkg, va := pl.va, n := n
          g := a.g, roff := o, f := a.f, cls := a.cls, credit := a.credit, cv := false, inv := false, off := off
          probe := none, w := 32, late := sh.lateness s.free }
      let done := x.t + 768 * pl.h + 832 + X.late
      let cr := if inGang then creditAt done (peerCore sh c x.k a.peer) n a.credit else []
      let runs := (c.ring a.g).runs o n
      if off then
        ⟨(Eff.ok c).also (skipBeats x.desc x.k false a.g o 128 (x.t + 2) runs ++ cr),
          (·.settles sh.id (if cr.isEmpty then x.t + 1 + (n + 127) / 128 else done))⟩
      else
        let m := moveOf x (x.t + 2) a.cls a.f 13 (.stow X) (some (a.g, o)) 128
        let po := c.portBeats x.k true (x.t + 2) n m.d x.t
        ⟨{ ((po.1.startRead x.t m 2 (x.t + 2) runs).also cr).faults po.2 with used := 1 }, fun s =>
          let s := (if sh.lenient then s else s.recordAccess sh.id (xferAccess X)).countAccesses sh.id pl.pkg x.k pl.va n x.desc done
          let s := s.postAlloc (sh.t0 + x.t + 768 * pl.h) sh.id (.hbmPerform X 0 [])
          let s := if a.peer.isNone then s else s.settles sh.id done
          if pl.h = 0 then s
          else s.crossLinks sh.id x.desc (keyPkg x.k) pl.pkg pl.h (x.t + 4) n ((n + 127) / 128 + 4) done⟩

/-- FETCH g, sA, fN, acK (R223, R224). -/
def execFetch (p : BitVec 3) (g : BitVec 4) (sa : BitVec 6) (f : BitVec 4) (cls : BitVec 2) (k cv inv : BitVec 1)
    (lit : Option W32) (s : State) : Host.Outcome State Fault Refusal :=
  s.issueX (s.readOp ⟨p.toNat, g.toNat, sa.toNat, f.toNat, cls.toNat, lit.bind (litCredit k), none, cv == 1, inv == 1⟩)

/-- RFETCH g, sA, fN, acK, peer (R225). -/
def execRfetch (p : BitVec 3) (g : BitVec 4) (sa : BitVec 6) (f : BitVec 4) (cls : BitVec 2) (k : BitVec 1) (lit : W32)
    (s : State) : Host.Outcome State Fault Refusal :=
  s.issueX (s.readOp ⟨p.toNat, g.toNat, sa.toNat, f.toNat, cls.toNat, litCredit k lit, some (litPeer lit), false, false⟩)

/-- STOW g, sA, fN, acK (R223). -/
def execStow (p : BitVec 3) (g : BitVec 4) (sa : BitVec 6) (f : BitVec 4) (cls : BitVec 2) (k : BitVec 1)
    (lit : Option W32) (s : State) : Host.Outcome State Fault Refusal :=
  s.issueX (s.writeOp ⟨p.toNat, g.toNat, sa.toNat, f.toNat, cls.toNat, lit.bind (litCredit k), none, false, false⟩)

/-- RSTOW g, sA, fN, acK, peer (R225). -/
def execRstow (p : BitVec 3) (g : BitVec 4) (sa : BitVec 6) (f : BitVec 4) (cls : BitVec 2) (k : BitVec 1) (lit : W32)
    (s : State) : Host.Outcome State Fault Refusal :=
  s.issueX (s.writeOp ⟨p.toNat, g.toNat, sa.toNat, f.toNat, cls.toNat, litCredit k lit, some (litPeer lit), false, false⟩)

/-- HBM errors among the physical bytes of a read (R350): the state after the corrected ones are logged, and the
address of an uncorrectable one or of a poisoned line. -/
def State.hbmErrors (s : State) (sh : Sheet) (a : HAccess) (va n : Nat) : State × Option Nat :=
  match sh.window? a.pkg va n with
  | none => (s, none)
  | some w =>
    let rs := w.physRanges va (va + n - 1)
    let e := s.meetErrors a.pkg fun e => decide (216 ≤ e.ch) && decide (e.ch < 224) && inRanges rs e.addr
    let bad := (e.2.map (·.addr)) <|> (((e.1.pkg a.pkg).poisoned rs).map (64 * ·))
    (e.1, bad)

/-- HBM bytes `va`, `n` of an access sampled now (R90). -/
def State.sampleBytes (s : State) (sh : Sheet) (a : HAccess) (inv : Bool) (va n : Nat) : List Byte :=
  match sh.window? a.pkg va n with
  | none => List.replicate n 0
  | some w => s.openRead sh a inv w va (s.hbmRead sh w va n)

/-- The access of some bytes of a transfer as it is compared: in a strict sheet the whole transfer over its window, in a
lenient one those bytes at the cycle at which they happen (R269, R276). -/
def Sheet.piece (sh : Sheet) (x : Xfer) (off n now : Nat) : HAccess :=
  if sh.lenient then { xferAccess x with lo := x.va + off, hi := x.va + off + n - 1, s := now, e := now } else xferAccess x

/-- A piece of a lenient sheet's transfer compared at its cycle (R276). -/
def State.meetNow (s : State) (sh : Sheet) (a : HAccess) (inv : Bool) : State :=
  if sh.lenient && !inv then s.recordAccess sh.id a else s

/-- A beat of a read sampled at some cycle of its window (R90); it lands at its fixed offset. -/
def State.sampleBeat (s : State) (x : Xfer) (i : Nat) : State :=
  match s.sheet? x.sh with
  | none => s
  | some sh =>
    let va := x.va + xferBeat x * i
    let n := min (xferBeat x) (xferBytes x - xferBeat x * i)
    let a := sh.piece x (xferBeat x * i) n (s.task sh)
    let s := s.meetNow sh a x.inv
    let bs := s.sampleBytes sh a x.inv va n
    let e := s.hbmErrors sh a va n
    let land := xferLand x + i
    let s := (e.1.spend n).post (sh.t0 + land) phWrite (some x.sh) (.readBeatLanding x i bs)
    match e.2 with
    | some b => s.hardFault sh a.pkg (216 + stackOf b) ⟨cUncorrectable, 6, x.d, land, w64 b, 0, 0⟩
    | none => s

/-- HBM PERFORM: bytes of a STOW or RSTOW at some cycle of its window (R90); without bytes, its allocation of vat lines, at
the issue of a STOW and at the arrival of an RSTOW (R321). A STOW refused its lines is no transfer that the sheet's end
waits for (R322). -/
def execHbmPerform (x : Xfer) (off : Nat) (data : List Byte) (s : State) : Host.Outcome State Fault Refusal :=
  match s.sheet? x.sh with
  | none => .next s
  | some sh =>
    if data.isEmpty then
      match sh.window? x.peer x.va x.n with
      | some w =>
        let waits := !x.remote && (s.allocation sh w x.va x.n).refused.isNone
        let s := s.allocate x.sh w x.va x.n x.d (s.task sh)
        .next (if waits then s.settles x.sh (x.d.start + 832 + x.late) else s)
      | none => .next s
    else
      let a := sh.piece x off data.length (s.task sh)
      .next ((s.meetNow sh a false).performBytes sh.id a (x.va + off) data)

/-- Elements encoded by the banks that take them, with RNE and the bank's policy: codes, flags, the first that traps
(R64, R65). -/
def encodeElems (bk : Nat → BankFmt) : Nat → List Nat → List (Option Nat) × Flags × Option Nat
  | _, [] => ([], 0, none)
  | i, v :: vs =>
    let r := encodeElems bk (i + 1) vs
    let k := bankEncode (bk i) 0 (bk i).pol v
    (some k.bits :: r.1, k.fl ||| r.2.1, if k.trap then some i else r.2.2)

/-- The bytes of a beat that lands from X-in, on lanes of `per` bytes each: each part written where nothing refuses it,
and `note` told of the bytes that were, by offset in the beat and length. -/
def Core.landParts (c : Core) (t fr : Nat) (d : Desc) (cls : Nat) (lane : Option Nat) (bs : List (Option Byte))
    (beat per : Nat) (note : Core → Nat → Nat → Core) : List (Nat × Nat × Nat) → Eff
  | [] => Eff.ok c
  | p :: ps =>
    let part := (bs.drop p.2.2).take p.2.1
    let part := match lane with
      | some f =>
        let h := hopsOn f 11 (bankStation (bankOf p.1))
        c.passing d f beat per 11 (t - h) h p.2.2 part
      | none => part
    let ok := c.accepts t p.1 part d
    let a := (c.writeAs t fr p.1 part cls d).andThen fun c =>
      Eff.ok (if ok then (spans p.2.2 part).foldl (fun c b => note c b.1 (b.2 + 1 - b.1)) c else c)
    a.andThen fun c => c.landParts t (fr + a.used) d cls lane bs beat per note ps

/-- A read beat lands (R89, R224, R245). DESIGN CHOICE (log entry 33): a beat that traps sets no flag, and the later ones,
undefined by R59, land. -/
def Core.landBeat (c : Core) (t fr : Nat) (x : Xfer) (i : Nat) (data : List Byte) : Eff :=
  let n := min 128 (x.n - 128 * i)
  let runs := match x.probe with
    | some (_, f) => [(f * 4096 + 128 * i, n)]
    | none => (c.ring x.g).runs (x.roff + 128 * i) n
  let d := { x.d with start := xferLand x }
  let conv := encodeElems (fun j => c.bank (bankOf (runAddr runs (j * x.w / 8)))) 0 (elems32 data)
  let trap := if x.cv then conv.2.2 else none
  match trap with
  | some j => (Eff.ok c).faults [⟨cTrap, 0, x.d, t, w64 (i * (1024 / x.w) + j), 0, 0⟩]
  | none =>
    let c := if x.cv && conv.2.1 != 0 then c.setFlags t conv.2.1 else c
    let bs := if x.cv then (codeBytes x.w conv.1).1 else data.map some
    let bs := if c.portLost d false t then bs.map fun _ => none else bs
    let lane := if x.probe.isSome then none else some x.f
    let note := fun (c : Core) (off len : Nat) =>
      match x.probe with
      | none => c.ringWrote t x.g (x.roff + 128 * i + off) len
      | some (_, f) => if 128 * i + off + len = x.n then c.bumpTag t f else c
    (c.landParts t fr d x.cls lane bs 128 64 note (partsOf 128 runs)).andThen fun c =>
      Eff.ok (match x.probe with
        | none => c
        | some (e, _) =>
          if 128 * i + n = x.n then
            let q := Tab.get ⟨0, false, false, false⟩ c.ptags e
            { c with ptags := Tab.set ⟨0, false, false, false⟩ e { q with pending := false } c.ptags }
          else c)

/-- READ BEAT LANDING. -/
def execReadBeatLanding (x : Xfer) (i : Nat) (data : List Byte) (s : State) : Host.Outcome State Fault Refusal :=
  s.atCore x.d.k fun t fr c => c.landBeat t fr x i data

/-! SEND and SENDB (R226, R227). -/

/-- Clusters of a die form a 3 by 4 mesh: hops between two cores, and whether their dies differ (R93). -/
def meshHops (a b : Nat) : Nat × Nat :=
  let ca := a % 96 / 8
  let cb := b % 96 / 8
  let gap := fun (m n : Nat) => if m < n then n - m else m - n
  (gap (ca / 4) (cb / 4) + gap (ca % 4) (cb % 4), if a / 96 = b / 96 then 0 else 1)

/-- Two banks between which bits move unchanged (R64). -/
def sameFormat (a b : BankFmt) : Bool := a.fmt == 0 || b.fmt == 0 || (a.fmt == b.fmt && a.scale == b.scale && a.cb == b.cb)

/-- The operands of a send: the destination ring, or the register that holds the destination address. -/
structure SendArgs where
  p : Nat
  gs : Nat
  gd : Option Nat
  sd : Nat
  sc : Nat
  f : Nat
  cls : Nat
  credit : Option Nat

/-- The destination core reserves its ring, or takes the address (R83, R227). -/
def sendInto (x : Ctx) (c : Core) (gd : Option Nat) (addr n : Nat) : Except Eff (Core × Option (Nat × Nat) × List (Nat × Nat)) :=
  match gd with
  | some g => (c.fill? x g n).map fun r => (r.1, some (g, r.2), (r.1.ring g).runs r.2 n)
  | none => .ok (c, none, [(addr, n)])

/-- The element widths of the two sides of a movement between banks of formats `fs` and `fd`; `esz` is the width of raw
elements, 8 × 2^esz bits (R227, R230). -/
def copyWidths (fs fd esz : Nat) : Nat × Nat :=
  if fs = 0 && fd = 0 then (8 * 2 ^ esz, 8 * 2 ^ esz)
  else if fs = 0 then (fmtWidth fd, fmtWidth fd)
  else if fd = 0 then (fmtWidth fs, fmtWidth fs)
  else (fmtWidth fs, fmtWidth fd)

/-- Destination bytes of a send beat of 64 source bytes (R227). -/
def sendBeat (x : SendRun) : Nat := 64 * x.wd / x.ws

/-- A bank's format at an address that lies in the scratchpad. -/
def Core.formatAt (c : Core) (a : Nat) : BankFmt := c.bank (bankOf a)

/-- SEND and SENDB. DEDUCED (log entry 23): the element widths are fixed at issue by the first banks of both sides; each
element then moves or converts by the banks it meets. -/
def State.sendOp (s : State) (a : SendArgs) (x : Ctx) (c : Core) (sh : Sheet) : XOut :=
  let off := !(c.pget a.p)
  let v := (c.sget a.sc).toNat
  let id := v % 256
  let rs := c.ring a.gs
  let n := if bits v 16 16 = 0 then rs.tileBytes else 64 * bits v 16 16
  let key := coreKey (keyPkg x.k) id
  let dst? := if 191 < id then none else (s.core? key).filter fun e => e.sh == c.sh
  let addr := (c.sget a.sd).toNat % 2 ^ 21
  let src := c.formatAt (rs.addr rs.rd)
  let dstFmt := match dst? with
    | some e => e.formatAt (match a.gd with
      | some g => (e.ring g).addr (e.ring g).wr
      | none => addr)
    | none => src
  let ws := (copyWidths src.fmt dstFmt.fmt 0).1
  let wd := (copyWidths src.fmt dstFmt.fmt 0).2
  let nd := n * wd / ws
  let pre :=
    if 131072 < n then illegalFaults c x []
    else if off then []
    else if dst?.isNone then [⟨cRegion, rGang, x.desc, x.t, 0, w64 id, 0⟩]
    else if a.gd.isNone && (addr % 64 != 0 || decide (spadSize < addr + nd)) then
      [⟨cRegion, rScratch, x.desc, x.t, w64 addr, 0, 0⟩]
    else []
  let regs := [sReg a.sc] ++ (if a.gd.isNone then [sReg a.sd] else [])
  c.checkedX x (xRegs a.p off regs) [] pre fun c =>
    match c.drain? x a.gs n with
    | .error e => .only e
    | .ok (c, o) =>
      let runs := (c.ring a.gs).runs o n
      let nb := (n + 63) / 64
      let skip := skipBeats x.desc x.k false a.gs o 64 (x.t + 2) runs
      match dst? with
      | none => ⟨(Eff.ok c).also skip, (·.settles sh.id (x.t + 1 + nb))⟩
      | some e =>
        let self := key == x.k
        match sendInto x (if self then c else e) a.gd addr nd with
        | .error f => .only { f with core := c }
        | .ok (e, ring, druns) =>
          let mesh := meshHops (keyId x.k) id
          let land := x.t + 40 + 6 * mesh.1 + 64 * mesh.2 + sh.lateness s.free
          let R : SendRun :=
            { d := x.desc, sh := sh.id, dst := key, n := nd, land := land, f := a.f, cls := a.cls, gs := a.gs, soff := o
              ring := ring, addr := addr, ws := ws, wd := wd, credit := a.credit, off := off }
          let beat := sendBeat R
          let cr := creditAt (land + nb - 1) key nd a.credit
          let c := if self then e else c
          let put := fun (s : State) (e : Core) => if self then s else s.setCore key e
          if off then
            let dskip := match ring with
              | some (g, o) => skipBeats x.desc key true g o beat land druns
              | none => []
            ⟨(Eff.ok c).also (skip ++ dskip ++ cr), fun s => (put s e).settles sh.id (land + nb - 1)⟩
          else
            let d := { x.desc with start := land }
            let arrive := fun (e : Core) =>
              let oc := e.occupy key (landOccs d a.f 1 beat land 11 (partsOf beat druns)) x.t
              let po := oc.1.usePort key ⟨false, land, land + nb - 1, 64, d⟩ x.t
              (po.1, oc.2 ++ po.2)
            let m := moveOf x (x.t + 2) a.cls a.f 13 (.send R) (some (a.gs, o)) 64
            let depart := fun (c : Core) =>
              let po := c.usePort x.k ⟨true, x.t + 2, x.t + 1 + nb, 64, m.d⟩ x.t
              { ((po.1.startRead x.t m 1 (x.t + 2) runs).also cr).faults po.2 with used := 1 }
            if self then
              let e := depart c
              let r := arrive e.core
              ⟨{ e with core := r.1 }.faults r.2, (·.settles sh.id (land + nb - 1))⟩
            else
              let r := arrive e
              ⟨(depart c).faults r.2, fun s => (s.setCore key r.1).settles sh.id (land + nb - 1)⟩

/-- The semaphore a send literal credits (R103). -/
def sendCredit (lit : W32) : Option Nat := if bits lit.toNat 10 1 = 1 then some (bits lit.toNat 0 10) else none

/-- SEND gs, gd, sC, fN (R226). -/
def execSend (p : BitVec 3) (gs gd : BitVec 4) (sc : BitVec 6) (f : BitVec 4) (lit : W32) (s : State) :
    Host.Outcome State Fault Refusal :=
  s.issueX (s.sendOp ⟨p.toNat, gs.toNat, some gd.toNat, 0, sc.toNat, f.toNat, bits lit.toNat 12 2, sendCredit lit⟩)

/-- SENDB gs, sD, sC, fN (R226). -/
def execSendb (p : BitVec 3) (gs : BitVec 4) (sd sc : BitVec 6) (f : BitVec 4) (lit : W32) (s : State) :
    Host.Outcome State Fault Refusal :=
  s.issueX (s.sendOp ⟨p.toNat, gs.toNat, none, sd.toNat, sc.toNat, f.toNat, bits lit.toNat 12 2, sendCredit lit⟩)

/-- Elements of a send beat as the banks that take them hold them: unchanged between like banks or where one is RAW, else
converted (R64, R227): codes, flags, the first that traps. -/
def sendCodes (bk : Nat → BankFmt) : Nat → List (BankFmt × W32) → List (Option Nat) × Flags × Option Nat
  | _, [] => ([], 0, none)
  | i, e :: es =>
    let r := sendCodes bk (i + 1) es
    if sameFormat e.1 (bk i) then (some e.2.toNat :: r.1, r.2)
    else
      let y := bankDecode e.1 e.2.toNat
      let k := bankEncode (bk i) 0 (bk i).pol y.1
      (some k.bits :: r.1, y.2 ||| k.fl ||| r.2.1, if k.trap then some i else r.2.2)

/-- A beat of a send lands in the destination core (R227): elements are encoded by the bank that takes them, a trap writes
nothing of the beat. The frames whose last byte it writes advance their tags, or the ring counts it. DESIGN CHOICE (log
entry 33): a beat that traps sets no flag, and the later ones, undefined by R59, land. -/
def Core.landSend (c : Core) (t fr : Nat) (x : SendRun) (i : Nat) (data : List (BankFmt × List W32)) : Eff × Flags :=
  let beat := sendBeat x
  let n := min beat (x.n - beat * i)
  let runs := match x.ring with
    | some (g, o) => (c.ring g).runs (o + beat * i) n
    | none => [(x.addr + beat * i, n)]
  let d := { x.d with start := x.land }
  let es := data.flatMap fun p => p.2.map fun v => (p.1, v)
  let conv := sendCodes (fun j => c.bank (bankOf (runAddr runs (j * x.wd / 8)))) 0 es
  match conv.2.2 with
  | some j => ((Eff.ok c).faults [⟨cTrap, 0, x.d, t, w64 (i * (512 / x.ws) + j), 0, 0⟩], 0)
  | none =>
    let bs := (codeBytes x.wd conv.1).1
    let bs := if c.portLost d false t then bs.map fun _ => none else bs
    let note := fun (c : Core) (off len : Nat) =>
      match x.ring with
      | some (g, o) => c.ringWrote t g (o + beat * i + off) len
      | none =>
        let a := x.addr + beat * i + off
        c.bumpPlain t ((framesOf a len).filter fun f => decide (min (x.addr + x.n) ((f + 1) * 4096) ≤ a + len))
    (c.landParts t fr d x.cls (some x.f) bs beat beat note (partsOf beat runs), conv.2.1)

/-- SEND BEAT LANDING, of the elements read with the formats of the banks that held them: the transfer unit that converts is the issuing core's (R61). An error of the die bridge is met at
the landing cycle (R350). -/
def execSendBeatLanding (x : SendRun) (i : Nat) (fmts : List BankFmt) (data : List (List W32)) (s : State) :
    Host.Outcome State Fault Refusal :=
  match s.core? x.dst, s.sheet? x.sh with
  | some c, some sh =>
    let t := s.task sh
    let r := c.landSend t s.free x i (fmts.zip data)
    let s := s.commit x.dst r.1
    let s := match s.core? x.d.k with
      | some e => if r.2 = 0 then s else s.setCore x.d.k (e.setFlags t r.2)
      | none => s
    if (meshHops (keyId x.d.k) (keyId x.dst)).2 = 0 then .next s
    else
      let e := s.meetErrors (keyPkg x.dst) fun e => e.ch == 240
      .next (match e.2 with
        | some h => e.1.raiseAll x.sh [⟨cUncorrectable, 8, x.d, t, w64 h.addr, 0, 0⟩]
        | none => e.1)
  | _, _ => .next s

end Sys2Proof.Machine
end

