-- ==== Sys2Proof/Machine/CopyUnit.lean ====
section
/-! DEFINITION. The copy unit (R229 to R231): a record taken apart, which elements a cycle meets, their reads and writes. -/

namespace Sys2Proof.Machine

/-- `n` bytes of a record from offset `o`, as a number. -/
def recNat (bs : List Byte) (o n : Nat) : Nat := leNat ((bs.drop o).take n)

/-- A signed 32-bit word of a record. -/
def recInt (bs : List Byte) (o : Nat) : Int := signedOf 32 (recNat bs o 4)

/-! COPY (R228 to R231). -/

/-- A copy record taken apart (R229). -/
structure CopyRec where
  ac : Nat
  esz : Nat
  src : Nat
  dst : Nat
  dims : List (Nat × Int × Int)
  ok : Bool
  deriving DecidableEq, Repr

def parseCopy (bs : List Byte) : CopyRec :=
  let w := recNat bs 0 4
  let nd := bits w 0 4
  let dims := (List.range nd).map fun d => (recNat bs (16 + 16 * d) 4, recInt bs (16 + 16 * d + 4), recInt bs (16 + 16 * d + 8))
  let zero := fun (o n : Nat) => recNat bs o n == 0
  let sizes := dims.all fun d => decide (1 ≤ d.1) && decide (d.1 ≤ 65536)
  let e := (dims.map fun d => d.1).foldl (· * ·) 1
  { ac := bits w 10 2, esz := bits w 8 2, src := recNat bs 4 4, dst := recNat bs 8 4, dims := dims
    ok := bits w 4 4 == 0 && bits w 12 20 == 0 && decide (1 ≤ nd) && decide (nd ≤ 14) && sizes && decide (e ≤ 2 ^ 20)
      && decide (recNat bs 4 4 < 2 ^ 21) && decide (recNat bs 8 4 < 2 ^ 21) && zero 12 4 && zero 240 16
      && ((List.range nd).all fun d => zero (16 + 16 * d + 12) 4) && zero (16 + 16 * nd) (16 * (14 - nd)) }

/-- The stride sum of element `j`, dimension 0 fastest. -/
def strideSum (dst : Bool) : List (Nat × Int × Int) → Nat → Int
  | [], _ => 0
  | (n, a, b) :: r, j => (j % n : Nat) * (if dst then b else a) + strideSum dst r (j / n)

/-- The bit address of element `j` (R230), where it lies in the scratchpad. -/
def copyBit (c : CopyRun) (wr : Bool) (j : Nat) : Int :=
  if wr then (8 * c.dst : Nat) + strideSum true c.dims j * c.wd else (8 * c.src : Nat) + strideSum false c.dims j * c.ws

def bitInside (a : Int) (w : Nat) : Bool := decide (0 ≤ a) && decide (a + w ≤ (8 * spadSize : Nat))

/-- The cycle at which step 0's beat leaves X-out (R231). -/
def copyDep (c : CopyRun) (wr : Bool) : Nat := c.d.start + (if wr then 30 else 4)

/-- S, the steps (R231). -/
def copySteps (c : CopyRun) : Nat := (c.elems + 15) / 16

/-- The lane of a side's beats. -/
def copyLane (c : CopyRun) (wr : Bool) : Nat := c.f + (if wr then 1 else 0)

/-- The elements of step `k`. -/
def stepElems (c : CopyRun) (k : Nat) : List Nat := (List.range 16).filterMap fun i =>
  if 16 * k + i < c.elems then some (16 * k + i) else none

/-- The cycle at which element `j` is read or written: its step's beat reaches the element's station. An element outside
the scratchpad counts at the beat's departure. -/
def copyCycle (c : CopyRun) (wr : Bool) (j : Nat) : Nat :=
  let a := copyBit c wr j
  copyDep c wr + j / 16
    + (if bitInside a (if wr then c.wd else c.ws) then hopsOn (copyLane c wr) 13 (bankStation (bankOf (a.toNat / 8))) else 0)

/-- The elements met in cycle `t`, in order: the last 24 steps that have left by then. -/
def copyItems (c : CopyRun) (wr : Bool) (t : Nat) : List (Nat × Nat) :=
  let k0 := t - copyDep c wr
  ((List.range 24).reverse.filterMap fun i => if i ≤ k0 && decide (k0 - i < copySteps c) then some (k0 - i) else none).flatMap
    fun k => (stepElems c k).filterMap fun j =>
      if copyCycle c wr j = t && bitInside (copyBit c wr j) (if wr then c.wd else c.ws) then some (j, (copyBit c wr j).toNat)
      else none

/-- The elements of the step that leaves in cycle `t` whose address lies outside the scratchpad (R231). -/
def copyOutside (c : CopyRun) (wr : Bool) (t : Nat) : List Nat :=
  if t - copyDep c wr < copySteps c then
    (stepElems c (t - copyDep c wr)).filter fun j => !(bitInside (copyBit c wr j) (if wr then c.wd else c.ws))
  else []

/-- The last write into each frame: frame, cycle (R80, R171). -/
def copyFrames (c : CopyRun) : List (Nat × Nat) :=
  (List.range c.elems).foldl (fun t j =>
    let a := copyBit c true j
    if bitInside a c.wd then
      let f := frameOf (a.toNat / 8)
      let u := copyCycle c true j
      Tab.put f (max u ((Tab.find? f t).getD 0)) t
    else t) ([] : Tab Nat)

/-- One side of a copy begins: its first cycle's elements. -/
def startCopy (c : CopyRun) (wr : Bool) : List (Nat × Nat × Act) :=
  [(copyDep c wr, if wr then phWrite else phRead, .copyStep c wr (copyItems c wr (copyDep c wr)))]

/-- A copied element read: its code and the format register under which it is decoded (R79). -/
def Core.copyRead (c : Core) (t fr : Nat) (races : Racing) (C : CopyRun) (j a : Nat) : Eff :=
  let b := bankOf (a / 8)
  if (c.bank b).fmt ≠ C.fs then (Eff.ok c).faults [⟨cIllegal, 0, C.d, t, ((c.col C.d.col).word C.d.addr).setWidth 64, w64 b, 0⟩]
  else if c.lost C.d C.f 13 (copyDep C false + j / 16) (hopsOn C.f 13 (bankStation b)) then Eff.ok c
  else
    let r := c.readBank t fr races (a / 8) (max 1 (C.ws / 8)) C.cls C.d
    match r.2 with
    | none => r.1
    | some bs =>
      let code := if C.ws = 4 then bits (leNat bs) (a % 8) 4 else leNat bs
      r.1.andThen fun c => Eff.ok { c with copyBuf := Tab.put j ⟨BitVec.ofNat 32 code, c.bank b⟩ c.copyBuf }

/-- What an element read as `e` is written as under format register `bf`: its bits, where one of the two banks is RAW or the
registers agree, else encode(decode(code)) with the flags of both (R64). -/
def copied (e : CopyElem) (bf : BankFmt) : Conv :=
  if sameFormat e.bank bf then ⟨e.code.toNat, 0, false⟩
  else
    let v := bankDecode e.bank e.code.toNat
    let k := bankEncode bf 0 bf.pol v.1
    { k with fl := k.fl ||| v.2 }

/-- What element `j` is written as at bit address `a` in this cycle (R79); none where its beat brought nothing (R77, R88). -/
def Core.copyCode (c : Core) (j a : Nat) : Option Conv :=
  (Tab.find? j c.copyBuf).map fun e => copied e (c.bank (bankOf (a / 8)))

/-- A copied element written; the frame whose last write this is advances its tag (R171, R231). -/
def Core.copyWrite (c : Core) (t fr : Nat) (C : CopyRun) (j a code : Nat) (later : List Nat) : Eff :=
  let b := bankOf (a / 8)
  if (c.bank b).fmt ≠ C.fd then (Eff.ok c).faults [⟨cIllegal, 0, C.d, t, ((c.col C.d.col).word C.d.addr).setWidth 64, w64 b, 0⟩]
  else if c.lost C.d (C.f + 1) 13 (copyDep C true + j / 16) (hopsOn (C.f + 1) 13 (bankStation b)) then Eff.ok c
  else
    let data := itemBytes C.wd a code (Tab.get 0 c.spad (a / 8))
    let ok := c.accepts t (a / 8) data C.d
    (c.writeAs t fr (a / 8) data C.cls C.d).andThen fun c =>
      Eff.ok (if ok then c.bumpPlain t ((framesOf (a / 8) data.length).filter fun f =>
        C.lastWrite.any (fun e => e.1 == f && e.2 == t) && !later.contains f) else c)

/-- The elements of a cycle read or written in turn. -/
def Core.copyAll (c : Core) (t fr : Nat) (races : Racing) (C : CopyRun) (wr : Bool) :
    List (Nat × Nat) → Eff
  | [] => Eff.ok c
  | i :: is =>
    let later := is.flatMap fun e => framesOf (e.2 / 8) (max 1 (C.wd / 8))
    let a := if wr then
        match c.copyCode i.1 i.2 with
        | none => Eff.ok c
        | some k =>
          (c.copyWrite t fr C i.1 i.2 k.bits later).andThen fun c => Eff.ok (if k.fl = 0 then c else c.setFlags t k.fl)
      else c.copyRead t fr races C i.1 i.2
    a.andThen fun c => c.copyAll t (fr + a.used) races C wr is

/-- Element `i` (number, bit address) traps under the format that its copy has fixed (R59). -/
def Core.copyTraps (c : Core) (C : CopyRun) (i : Nat × Nat) : Bool :=
  (c.bank (bankOf (i.2 / 8))).fmt == C.fd && (c.copyCode i.1 i.2).any fun k => k.trap

/-- Elements that the copy unit writes in a cycle: none of a step that has trapped, and none at all in a cycle in which
an element traps (R59). The first such element of the cycle is the offending one. -/
def Core.copyWritable (c : Core) (C : CopyRun) (items : List (Nat × Nat)) : List (Nat × Nat) × Option Nat :=
  let items := items.filter fun (i : Nat × Nat) => !(c.copyBad.contains (i.1 / 16))
  match items.filter (c.copyTraps C) with
  | [] => (items, none)
  | i :: _ => ([], some i.1)

/-- A cycle of one side of a copy (R231): the elements it meets, the faults of those outside the scratchpad, and the next
cycle. DESIGN CHOICE (log entry 33): what the unit writes at later cycles than a trap is undefined; it goes on, without
the trapped step, and a cycle that traps sets no flag. -/
def Core.copyStep (c : Core) (t fr : Nat) (races : Racing) (C : CopyRun) (wr : Bool) (items : List (Nat × Nat)) : Eff :=
  let out := (copyOutside C wr t).map fun j =>
    (⟨cRegion, rScratch, C.d, t, BitVec.ofInt 64 (copyBit C wr j / 8), 0, 0⟩ : CFault)
  let w := if wr then c.copyWritable C items else (items, none)
  let c : Core := match w.2 with
    | some _ => { c with copyBad := c.copyBad ++ (items.filter (c.copyTraps C)).map fun i => i.1 / 16 }
    | none => c
  let e := (c.copyAll t fr races C wr w.1).faults (out ++ match w.2 with
    | some j => [⟨cTrap, 0, C.d, t, w64 j, 0, 0⟩]
    | none => [])
  e.also (if t + 1 < copyDep C wr + copySteps C + 23 then
    [(t + 1, if wr then phWrite else phRead, .copyStep C wr (copyItems C wr (t + 1)))] else [])

end Sys2Proof.Machine
end

