-- ==== Sys2Proof/Machine/ScreenUnit.lean ====
section
/-! DEFINITION. The screen chain at work: records in flight, emissions to output rings, the end of a run, table lines
(R256 to R264). -/

namespace Sys2Proof.Machine

/-- The run whose slots hold cycle `y`. -/
def Screen.inSlot (z : Screen) (y : Nat) : Option ScrRun :=
  z.runs.find? fun r => decide (r.d.start < y) && decide (y ≤ r.slots)

/-- A run replaced by itself at a later stage. -/
def Core.setRun (c : Core) (r : ScrRun) : Core :=
  { c with screen := { c.screen with runs := c.screen.runs.map fun q => if sameWord q.d r.d then r else q } }

/-- A record of a run replaced. -/
def ScrRun.setRec (r : ScrRun) (e : ScrRec) : ScrRun :=
  { r with flying := r.flying.map fun q => if q.y == e.y then e else q }

/-- The next admission, if there is one to come (R257). -/
def nextSlot (k y : Nat) (r : ScrRun) : List (Nat × Nat × Act) :=
  if (!r.queue.isEmpty || decide (r.admitted < r.n)) && decide (y < r.slots) then
    [(y + 1, phRead, .screenAdmission k (y + 1))]
  else []

/-- The record that entered stage 0 at `y`. -/
def Screen.flyer (z : Screen) (y : Nat) : Option (ScrRun × ScrRec) :=
  z.runs.findSome? fun r => (r.flying.find? fun e => e.y == y).map fun e => (r, e)

/-- A tile of an output ring that a run may write: its own, or a free position (R259). -/
def Core.runTile (c : Core) (t g k : Nat) (r : ScrRun) : Option Ring :=
  let rg := c.ring g
  if (rg.tile? k).isSome then (if r.took.contains (g, k) then some rg else none) else rg.take t k

/-- A write of bytes that may cross from bank to bank: each bank's bytes meet its WP bit (R81). -/
def Core.writeAcross (c : Core) (t fr a : Nat) (data : List (Option Byte)) (d : Desc) : Eff :=
  c.landParts t fr d 0 none data (2 ^ 21) 64 (fun c _ _ => c) (partsOf (2 ^ 21) [(a, data.length)])

/-- One emission to output index `o` (R259); the write cursor of a tile that takes no further record moves on (R251). -/
def Core.emitTo (c : Core) (t fr : Nat) (r : ScrRun) (e : ScrRec) (o : Nat) : Eff × ScrRun :=
  match c.screen.outRing r.cls o with
  | none => (Eff.ok c, r)
  | some g =>
    let rg := c.ring g
    let pitch := c.screen.pitch r.cls
    let spot := rg.recSpot pitch rg.wr
    let k := spot / max 1 rg.tileBytes
    match c.runTile t g k r with
    | none => ((Eff.ok c).faults [⟨cMiss, mRing, r.d, t, w64 g, w64 (rg.wr % max 1 rg.size), 0⟩], r)
    | some rg =>
      let rg := { rg with wr := rg.recSpot pitch (spot + pitch), tiles := rg.tiles.map fun x =>
        if x.idx == k then { x with unwritten := x.unwritten - pitch, recs := x.recs + 1 } else x }
      let data := ((e.f.take (pitch / 4)).flatMap fun v => leBytes 4 v.toNat).map some
      ((c.setRing g rg).writeAcross t fr (rg.addr spot) data r.d,
        { r with took := if r.took.contains (g, k) then r.took else r.took ++ [(g, k)] })

def Core.emitAll (c : Core) (t fr : Nat) (r : ScrRun) (e : ScrRec) : List Nat → Eff × ScrRun
  | [] => (Eff.ok c, r)
  | o :: os =>
    let a := c.emitTo t fr r e o
    let b := a.1.core.emitAll t (fr + a.1.used) a.2 e os
    (a.1.andThen fun _ => b.1, b.2)

/-- Whether a recirculation asked for at cycle `x` is granted (R258). -/
def ScrRun.grants (r : ScrRun) (e : ScrRec) (x : Nat) : Bool :=
  e.pass != 3 && r.granted != r.r && decide (r.queue.length + (r.n - r.admitted) + 1 ≤ r.slots - x)

/-- A record leaves the chain at cycle `t`: emissions, then the recirculation or the limit action (R256, R258, R259). -/
def Core.leaveChain (c : Core) (t fr k y : Nat) : Eff :=
  match c.screen.flyer y with
  | none => Eff.ok c
  | some (r, e) =>
    let r := { r with flying := r.flying.filter fun q => q.y != y }
    let w0 := c.screen.clsWord r.cls 0
    let again := !e.drop && e.recirc
    let grant := again && r.grants e t
    let lim := again && !grant
    let a := c.emitAll t fr r e (e.outs ++ (if lim && bits w0 29 1 == 1 then [bits w0 30 2] else []))
    a.1.andThen fun c =>
      let r := a.2
      if grant then
        let r' := { r with granted := r.granted + 1, queue := r.queue ++ [(t, { e with pass := e.pass + 1 })] }
        (Eff.ok (c.setRun r')).also (if r.queue.isEmpty && decide (r.n ≤ r.admitted) then nextSlot k t r' else [])
      else
        let c := c.setRun r
        Eff.ok (if lim && bits w0 29 1 == 0 then
            { c with screen := { c.screen with
              limit := Tab.set 0 r.cls (satAdd40 (Tab.get 0 c.screen.limit r.cls) 1) c.screen.limit } }
          else c)

/-- The tiles a run reserved are closed: zeros after the last record, the cursor at the next tile, the push (R259). -/
def Core.sealTiles (c : Core) (t fr : Nat) (r : ScrRun) : List (Nat × Nat × Nat) → Eff
  | [] => Eff.ok c
  | z :: zs =>
    let rg := c.ring z.1
    let k := z.2.1
    let w := if rg.tileBytes ≤ z.2.2 then Eff.ok c
      else c.writeAcross t fr (rg.addr (k * rg.tileBytes + z.2.2)) (List.replicate (rg.tileBytes - z.2.2) (some 0)) r.d
    let a := w.andThen fun c =>
      let rg := c.ring z.1
      Eff.ok ((c.setRing z.1 { rg with wr := max rg.wr ((k + 1) * rg.tileBytes) }).push t z.1 k)
    let b := a.core.sealTiles t (fr + a.used) r zs
    a.andThen fun _ => b

/-- The run whose span ends at cycle `t` is closed (R259, R260). -/
def Core.endRun (c : Core) (t fr : Nat) : Eff :=
  match c.screen.ending t with
  | [] => Eff.ok c
  | r :: _ =>
    (c.sealTiles t fr r (c.zeroFills r)).andThen fun c =>
      Eff.ok { c with screen := { c.screen with runs := c.screen.runs.filter fun q => !(sameWord q.d r.d) } }

/-- The cycle at which line `i` of an STBL reaches its bank or the chain (R264). -/
def tableArrival (r : TableRun) (t i : Nat) : Nat :=
  let st := bankStation (bankOf (r.addr + 64 * i))
  t + 2 + i + (if r.mode = 0 then hopsOn r.f st 15 else hopsOn r.f 17 st)

/-- Counter line `j` of a bank, or the LIMIT counters (R263). -/
def Screen.dump (z : Screen) (r : TableRun) (j : Nat) : List Byte :=
  let vals := if r.mode = 2 then Tab.slice 0 z.limit 0 8
    else if j = 0 then [Tab.get 0 z.ctr (ctrBase r.st r.bank)]
    else Tab.slice 0 z.ctr (ctrBase r.st r.bank + 1 + 8 * (j - 1)) 8
  let bs := vals.flatMap fun (v : BitVec 40) => leBytes 8 v.toNat
  bs ++ List.replicate (64 - bs.length) 0

/-- A line written into a bank, with the counters it zeroes (R264): none in a bypassed bank, which has no entries (R253). -/
def Screen.writeLine (z : Screen) (r : TableRun) (j : Nat) (bytes : List Byte) : Screen :=
  let z := { z with tbl := Tab.splice 0 (tblBase r.st r.bank + 64 * j) bytes z.tbl }
  let base := ctrBase r.st r.bank
  if j = 0 then { z with ctr := Tab.clear base 1 z.ctr }
  else if j < 9 then z
  else
    let kind := tblKind (z.header r.st r.bank)
    let n := if kind = 0 then 0 else entriesPer kind
    { z with ctr := Tab.clear (base + 1 + (j - 9) * n) n z.ctr }

/-- A line of an STBL (R264): it reaches the shadow bank; or a counter line is sampled, and is written into its bank where
it carries bytes. -/
def Core.tableLine (c : Core) (t fr : Nat) (r : TableRun) (i : Nat) (bytes : List Byte) : Eff :=
  let j := r.line + i
  if r.mode = 0 then Eff.ok { c with screen := c.screen.writeLine r j bytes }
  else if bytes.isEmpty then
    (Eff.ok c).also [(tableArrival r (r.d.start - 2) i, phWrite, .stblLine r i (c.screen.dump r j))]
  else
    let a := r.addr + 64 * i
    let h := hopsOn r.f 17 (bankStation (bankOf a))
    if c.lost r.d r.f 17 (t - h) h then Eff.ok c
    else
      let ok := c.accepts t a (bytes.map some) r.d
      (c.writeAs t fr a (bytes.map some) 0 r.d).andThen fun c =>
        let last := i + 1 == r.count || frameOf (a + 64) != frameOf a
        Eff.ok (if last && ok then c.bumpPlain t [frameOf a] else c)

end Sys2Proof.Machine
end

