-- ==== Sys2Proof/Machine/Race.lean ====
section
/-! DEFINITION. What the writes of a cycle are, for reads of another alias class in the same cycle: such a read returns,
for each byte, the old value or the new one (R274). -/

namespace Sys2Proof.Machine

/-- Address runs of destination bytes `off` to `off + n - 1` of a send. -/
def State.sendRuns (s : State) (x : SendRun) (off n : Nat) : List (Nat × Nat) :=
  match x.ring, s.core? x.dst with
  | some (g, o), some c => (c.ring g).runs (o + off) n
  | _, _ => [(x.addr + off, n)]

/-- Address runs of destination bytes `off` to `off + n - 1` of a transfer into a core (R89, R245). -/
def State.landRuns (s : State) (x : Xfer) (off n : Nat) : List (Nat × Nat) :=
  match x.probe, s.core? x.d.k with
  | some (_, f), _ => [(f * 4096 + off, n)]
  | none, some c => (c.ring x.g).runs (x.roff + off) n
  | none, none => []

/-- Bytes of a run of addresses as ranges. -/
def rangesOf (rs : List (Nat × Nat)) : List (Nat × Nat) := rs.map fun r => (r.1, r.1 + r.2 - 1)

/-- The bank bytes a pending write of this cycle names: core, class, ranges. -/
def State.writesOf (s : State) : Act → Nat × Nat × List (Nat × Nat)
  | .sScratchAccess k a => (k, 0, if a.store.isSome then [(a.addr, a.addr + a.size - 1)] else [])
  | .atomWrite k a _ => (k, 0, [(a.addr, a.addr + a.size - 1)])
  | .laneBeat m ps =>
    match m.kind with
    | .store => (m.k, m.cls, (ps.filter fun p => some p.cyc == ps.head?.map (·.cyc)).map fun p =>
        (p.addr, p.addr + p.len - 1))
    | _ => (m.k, m.cls, [])
  | .readBeatLanding x i d => (x.d.k, x.cls, rangesOf (s.landRuns x (128 * i) (min 128 (min d.length (x.n - 128 * i)))))
  | .sendBeatLanding x i _ _ => (x.dst, x.cls, rangesOf (s.sendRuns x (sendBeat x * i) (sendBeat x)))
  | .copyStep c true items => (c.d.k, c.cls, items.map fun e => (e.2 / 8, (e.2 + c.wd - 1) / 8))
  | .gatherScatterAccess g items =>
    (g.d.k, g.cls, if g.scat then
        (items.filter fun e => some e.1 == items.head?.map (·.1)).filterMap fun e =>
          (g.item.find? fun i => i.1 == e.2).map fun i => (i.2.1 / 8, i.2.1 / 8)
      else [])
  | .screenExit k y => (k, 0, ((s.core? k).map fun c => c.exitRanges (y + 16)).getD [])
  | .screenSpanEnd k => (k, 0, match s.core? k with
      | none => []
      | some c => match s.sheet? c.sh with
        | none => []
        | some sh => ((c.screen.ending (s.task sh)).flatMap c.zeroFills).flatMap fun z =>
            rangesOf ((c.ring z.1).runs (z.2.1 * (c.ring z.1).tileBytes + z.2.2) ((c.ring z.1).tileBytes - z.2.2)))
  | .stblLine r i bytes =>
    (r.d.k, 0, if r.mode = 0 || bytes.isEmpty then [] else [(r.addr + 64 * i, r.addr + 64 * i + 63)])
  | _ => (0, 0, [])

/-- The bytes of core `k` that another class than `cls` writes in the cycle in progress. -/
def State.writersNow (s : State) (k cls : Nat) : List (Nat × Nat) :=
  (s.agenda.filter fun e => e.ttc == s.ttc && (e.ph == phWrite || e.ph == phAtom)).flatMap fun e =>
    let w := s.writesOf e.act
    if w.1 == k && w.2.1 != cls then w.2.2 else []

/-- Core `k` after a pending write of this cycle, as far as its scratchpad goes. -/
def Core.afterWrite (c : Core) (t fr : Nat) : Act → Core
  | .sScratchAccess _ a => (a.store.map fun v => (c.storeScratch t fr a v).core).getD c
  | .atomWrite _ a old => (c.storeAtom t fr a old).core
  | .laneBeat m ps => (c.beatStep t fr noRace m ps).1.core
  | .readBeatLanding x i d => (c.landBeat t fr x i d).core
  | .sendBeatLanding x i fs d => (c.landSend t fr x i (fs.zip d)).1.core
  | .copyStep C true items => (c.copyStep t fr noRace C true items).core
  | .gatherScatterAccess g items => (c.items t fr noRace g [] (nowItems items)).1.core
  | .screenExit k y => (c.leaveChain t fr k y).core
  | .screenSpanEnd _ => (c.endRun t fr).core
  | .stblLine r i bytes => (c.tableLine t fr r i bytes).core
  | _ => c

/-- The scratchpad of core `k` as the pending writes of the cycle in progress leave it. -/
def State.memAfter (s : State) (k : Nat) : Mem :=
  match s.core? k with
  | none => []
  | some c =>
    match s.sheet? c.sh with
    | none => c.spad
    | some sh =>
      ((s.agenda.filter fun e => e.ttc == s.ttc && (e.ph == phWrite || e.ph == phAtom)).foldl (fun c e =>
        if (s.writesOf e.act).1 == k then c.afterWrite (s.task sh) s.free e.act else c) c).spad

/-- What a read of class `cls` on core `k` races with in the cycle in progress. -/
def State.racesNow (s : State) (k cls : Nat) : Racing := ⟨s.writersNow k cls, s.memAfter k⟩

end Sys2Proof.Machine
end

