-- ==== Sys2Proof/Machine/Screen.lean ====
section
/-! DEFINITION. SCREEN, STBL, SCOMMIT and the steps of the screen chain (R257 to R266). -/

namespace Sys2Proof.Machine

/-- SCREEN: n new records in the slots t + 1 to E = t + n + r, last span cycle E + 16 (R257, R260, R261). -/
def execScreen (p : BitVec 3) (g : BitVec 4) (cls : BitVec 3) (lit : W32) (s : State) :
    Host.Outcome State Fault Refusal :=
  s.issueX fun x c _ =>
    let off := !(c.pget p.toNat)
    let g := g.toNat
    let cls := cls.toNat
    let z := c.screen
    let n := bits lit.toNat 0 16
    let outs := c.screenRings cls
    let rg := c.ring g
    let pitch := z.pitch cls
    let fin := rg.recEnd pitch rg.rd n
    let first := rg.recSpot pitch rg.rd
    let miss := fun (h o : Nat) =>
      (⟨cMiss, mRing, x.desc, x.t, w64 h, w64 o, 0⟩ : CFault)
    let rings := (outs.filter fun h => (c.ring h).nfr == 0).map fun h => miss h 0
    let intake := if rg.nfr = 0 then [miss g 0]
      else if c.screenHeld x.t g || !((rg.tilesOf first (fin - first)).all fun k =>
          (rg.tile? k).any fun y => y.pushed.any fun p => decide (p < x.t)) then [miss g (rg.rd % rg.size)]
      else []
    let pre := (if bits (z.clsWord cls 0) 63 1 = 0 || outs.contains g then illegalFaults c x [] else [])
      ++ intake ++ rings
    match z.runs.find? fun r => decide (x.t < r.last) with
    | some r => .only { (Eff.waits c (.reg x.k r.last,
        ⟨cMiss, mScore, x.desc, x.t, w64 (5 * 256 + 2), descBits c.prank r.d, 0⟩)) with flt := pre }
    | none =>
      c.checkedX x (xRegs p.toNat off []) [] pre fun c =>
        let run : ScrRun :=
          { d := x.desc, g := g, cls := cls, n := n, r := bits lit.toNat 16 16, admitted := 0, granted := 0,
            queue := [], flying := [], cur := rg.rd, took := [], off := off }
        let early := outs.flatMap fun h => ((c.ring h).users.filter fun u => u.1.start == x.t).map fun u =>
          (⟨cMiss, mRing, u.1, x.t, w64 h, w64 (u.2 % max 1 (c.ring h).size), 0⟩ : CFault)
        let c := (c.setRing g { rg with rd := if n = 0 then fin else rg.recSpot pitch fin }).useRing x.desc g rg.rd
        .only (((Eff.ok { c with screen := { c.screen with runs := c.screen.runs ++ [run] } }).faults early).also
          [(x.t + 1, phRead, .screenAdmission x.k (x.t + 1)), (run.last, phAtom, .screenSpanEnd x.k)])

/-- The fields of a new record (R251). -/
def recFields (bs : List Byte) : List W32 :=
  let f := (elems32 bs).map (BitVec.ofNat 32)
  f ++ List.replicate (16 - f.length) 0

/-- A record enters stage 0 at cycle `y`. -/
def enterChain (k y : Nat) (r : ScrRun) (e : ScrRec) (c : Core) : Eff :=
  (Eff.ok (c.setRun { r with flying := r.flying ++ [e] })).also
    ([(y, phRead, .screenStageLookup k y 0)] ++ nextSlot k y r)

/-- SCREEN ADMISSION at slot cycle `y`: the white water's head, else the next new record (R257, R261). -/
def execScreenAdmission (k y : Nat) (s : State) : Host.Outcome State Fault Refusal :=
  let races := s.racesNow k 0
  s.atCore k fun t fr c =>
    match c.screen.inSlot y with
    | none => Eff.ok c
    | some r =>
      let rg := c.ring r.g
      let pitch := c.screen.pitch r.cls
      match r.queue with
      | (_, e) :: q =>
        enterChain k y { r with queue := q }
          { e with y := y, ksel := 0, emit := 0, recirc := false, drop := false, hit := none } c
      | [] =>
        if r.n ≤ r.admitted then Eff.ok c
        else
          let o := rg.recSpot pitch r.cur
          let r := { r with admitted := r.admitted + 1, cur := o + pitch }
          if r.off then
            (Eff.ok ((c.ringRead t r.g o (rg.recSpan pitch o)).setRun r)).also (nextSlot k y r)
          else
            let tags := (frameStarts o pitch).flatMap fun s => c.tagFault t (frameOf (rg.addr s)) (rg.wantTag s) r.d
            let m := c.readBank t fr races (rg.addr o) pitch 0 r.d
            (m.1.faults tags).andThen fun c =>
              let c := c.ringRead t r.g o (rg.recSpan pitch o)
              match m.2 with
              | none => (Eff.ok (c.setRun r)).also (nextSlot k y r)
              | some bs =>
                enterChain k y r
                  { y := y, f := recFields bs, pass := 0, gen := c.screen.genAt y, ksel := 0, emit := 0,
                    recirc := false, drop := false, hit := none } c

/-- SCREEN STAGE LOOKUP: the key, and what the stage yields for it (R254, R256). -/
def execScreenStageLookup (k y st : Nat) (s : State) : Host.Outcome State Fault Refusal :=
  s.atCore k fun t _ c =>
    match c.screen.flyer y with
    | none => Eff.ok c
    | some (r, e) =>
      let hit := if e.drop then none else c.screen.lookup st e.gen (c.screen.key r.cls st e)
      (Eff.ok (c.setRun (r.setRec { e with ksel := 0, hit := hit }))).also [(t + 1, phEnd, .screenStageAction k y st)]

/-- SCREEN STAGE ACTION: the record rewritten, its counts made (R255, R256). -/
def execScreenStageAction (k y st : Nat) (s : State) : Host.Outcome State Fault Refusal :=
  s.atCore k fun t _ c =>
    match c.screen.flyer y with
    | none => Eff.ok c
    | some (r, e) =>
      let next := if st < 7 then (t + 1, phRead, Act.screenStageLookup k y (st + 1)) else (t + 1, phWrite, .screenExit k y)
      match e.hit with
      | none => (Eff.ok c).also [next]
      | some (a, p, i) =>
        let o := action p (c.screen.actionWord st e.gen a) e
        let c := c.setRun (r.setRec { o.1 with hit := none })
        (Eff.ok { c with screen := c.screen.count st e.gen i o.2 }).also [next]

/-- SCREEN EXIT. -/
def execScreenExit (k y : Nat) (s : State) : Host.Outcome State Fault Refusal :=
  s.atCore k fun t fr c => c.leaveChain t fr k y

/-- SCREEN SPAN END. -/
def execScreenSpanEnd (k : Nat) (s : State) : Host.Outcome State Fault Refusal :=
  s.atCore k fun t fr c => c.endRun t fr

/-! STBL and SCOMMIT. -/

/-- SCOREBOARD against the table port (unit 3) or the stage flip (unit 4) (R264, R265, R343). -/
def Core.unitWait (c : Core) (x : Ctx) (unit ready : Nat) (d : Option Desc) : Option (Waiting × CFault) :=
  if x.t < ready then
    some (.reg x.k ready, ⟨cMiss, mScore, x.desc, x.t, w64 (5 * 256 + unit), (d.map (descBits c.prank)).getD 0, 0⟩)
  else none

/-- The most lines that a mode reaches (R263). -/
def tableLines (mode : Nat) : Nat :=
  match mode with
  | 0 => 1033
  | 1 => 513
  | _ => 1

/-- STBL st, sA, sN, fM (R263, R264). -/
def execStbl (p : BitVec 3) (st : BitVec 3) (sa sn : BitVec 6) (f : BitVec 4) (s : State) :
    Host.Outcome State Fault Refusal :=
  s.issueX fun x c _ =>
    let off := !(c.pget p.toNat)
    let v := (c.sget sn.toNat).toNat
    let a := (c.sget sa.toNat).toNat % 2 ^ 21
    let mode := bits v 62 2
    let line := bits v 16 12
    let count := bits v 0 11
    let bad := bits v 28 33 != 0 || bits v 11 5 != 0 || mode == 3 || (mode != 1 && bits v 61 1 == 1) || count == 0
      || decide (tableLines mode < line + count) || (mode == 2 && st != 0)
    let pre := if off then []
      else (if bad then illegalFaults c x [] else [])
        ++ (if a % 64 != 0 || decide (spadSize < a + 64 * count) then (Eff.scratch c x a).flt else [])
    let wait := if off then none
      else match c.unitWait x 3 c.screen.tblEnd c.screen.tblD with
        | some w => some w
        | none => if mode = 0 then c.unitWait x 4 c.screen.release c.screen.comD else none
    match wait with
    | some w => .only { Eff.waits c w with flt := pre }
    | none =>
      c.checkedX x (xRegs p.toNat off [sReg sa.toNat, sReg sn.toNat]) [] pre fun c =>
        if off then .only (Eff.ok c)
        else
          let d := { x.desc with start := x.t + 2 }
          let act := c.screen.gen
          let r : TableRun :=
            { d := d, mode := mode, st := st.toNat, bank := if mode = 1 && bits v 61 1 = 0 then act else !act,
              line := line, count := count, addr := a, f := f.toNat }
          let fin := (List.range count).foldl (fun m i => max m (tableArrival r x.t i)) 0
          let c := { c with screen := { c.screen with tblEnd := fin, tblD := some d } }
          if mode = 0 then
            let m : Move :=
              { d := d, k := x.k, cls := 0, lane := f.toNat, unit := 15, kind := .tableIn r, ring := none, beat := 64,
                tag := none, lanes := [], bytes := [], fl := 0 }
            .only (c.startRead x.t m 1 (x.t + 2) [(a, 64 * count)])
          else
            let o := c.occupy x.k (moveOccs d f.toNat 1 64 (x.t + 2) 17 false (partsOf 64 [(a, 64 * count)])) x.t
            .only (((Eff.ok o.1).faults o.2).also
              ((List.range count).map fun i => (x.t + 1 + i, phRead, .stblLine r i [])))

/-- STBL LINE. -/
def execStblLine (r : TableRun) (i : Nat) (bytes : List Byte) (s : State) : Host.Outcome State Fault Refusal :=
  s.atCore r.d.k fun t fr c => c.tableLine t fr r i bytes

/-- The first stage and line of the shadow bank that fail the check (R265). -/
def Screen.shadowBad (z : Screen) (bank : Bool) : Option (Nat × Nat) :=
  (List.range 8).findSome? fun st => (z.badLine st bank).map fun l => (st, l)

/-- The release cycle after a flip at `t` (R266). -/
def Screen.releaseAfter (z : Screen) (t : Nat) : Nat :=
  (z.runs.filter fun r => decide (r.d.start ≤ t) && decide (t ≤ r.last)).foldl (fun m r => max m (r.last + 1)) (t + 1)

/-- The fault of a SCOMMIT whose check reads a shadow table with an uncorrectable error (R265, R350). -/
def Core.illTables (c : Core) (x : Ctx) : List CFault :=
  c.illFaults x.desc x.t 5 fun e => (List.range 8).any fun st => screenRange st (!c.screen.gen) e

/-- SCOMMIT: every stage flips at once (R265, R266). -/
def execScommit (p : BitVec 3) (s : State) : Host.Outcome State Fault Refusal :=
  s.issueX fun x c _ =>
    let off := !(c.pget p.toNat)
    let z := c.screen
    let pre := if off then []
      else match z.shadowBad (!z.gen) with
        | some (st, l) => illegalFaults c x [st, l % 256, l / 256] ++ c.illTables x
        | none => c.illTables x
    let wait := if off then none
      else (c.unitWait x 3 z.tblEnd z.tblD).orElse fun _ => c.unitWait x 4 z.release z.comD
    match wait with
    | some w => .only { Eff.waits c w with flt := pre }
    | none =>
      c.checkedX x (xRegs p.toNat off []) [] pre fun c =>
        .only (Eff.ok (if off then c
          else { c with screen := { z with gen := !z.gen, comD := some x.desc, release := z.releaseAfter x.t } }))

end Sys2Proof.Machine
end

