-- ==== Sys2Proof/Machine/Copy.lean ====
section
/-! DEFINITION. Copies (R228 to R231), the probe cache (R95, R245, R246), RINGCFG (R247), and the issue of PATCH and ARM
(R248). -/

namespace Sys2Proof.Machine

/-! Records in the scratchpad (R228). -/

/-- The faults of a record's own address: the scratchpad's end, else alignment and the bank's WP bit (R228). DESIGN
CHOICE (log entry 71): the bank of a record that straddles two is that of its first byte. -/
def recordFaults (c : Core) (x : Ctx) (a : Nat) : List CFault :=
  if spadSize < a + 256 then [⟨cRegion, rScratch, x.desc, x.t, w64 a, 0, 0⟩]
  else if a % 64 ≠ 0 || !(c.protected_ (bankOf a)) then illegalFaults c x []
  else []

/-- A record read at issue through the record port, in alias class 0 and without a tag check (R228). -/
def Core.record (c : Core) (x : Ctx) (fr : Nat) (races : Racing) (a : Nat) : Eff × List Byte :=
  let r := c.readBank x.t fr races a 256 0 x.desc
  (r.1, r.2.getD (List.replicate 256 0))

/-- COPY sA, fN (R228, R231). -/
def execCopy (p : BitVec 3) (sa : BitVec 6) (f : BitVec 4) (k : BitVec 1) (lit : Option W32) (s : State) :
    Host.Outcome State Fault Refusal :=
  let races := s.racesNow s.cur.k 0
  s.issueX fun x c sh =>
    let off := !(c.pget p.toNat)
    let a := (c.sget sa.toNat).toNat % 2 ^ 21
    let pre := recordFaults c x a
    c.checkedX x (xRegs p.toNat off [sReg sa.toNat]) [] pre fun c =>
      let rd := c.record x s.free races a
      let r := parseCopy rd.2
      let c := rd.1.core
      let fs := (c.formatAt r.src).fmt
      let fd := (c.formatAt r.dst).fmt
      let ws := copyWidths fs fd r.esz
      let ok := r.ok && (r.esz == 0 || (fs == 0 && fd == 0))
      if !ok then .only (rd.1.faults (illegalFaults c x []))
      else
        match c.copyEnd.filter fun e => decide (x.t < e.1) with
        | some e =>
          .only (Eff.waits c (.reg x.k e.1, ⟨cMiss, mScore, x.desc, x.t, w64 (5 * 256 + 1), descBits c.prank e.2, 0⟩))
        | none =>
          let e := (r.dims.map fun d => d.1).foldl (· * ·) 1
          let C0 : CopyRun :=
            { d := x.desc, sh := sh.id, src := r.src, dst := r.dst, cls := r.ac, dims := r.dims, elems := e, f := f.toNat
              ws := ws.1, wd := ws.2, fs := fs, fd := fd, lastWrite := [], credit := lit.bind (litCredit k), off := off }
          let done := x.t + 53 + copySteps C0
          let cr := creditAt done x.k ((e * ws.2 + 7) / 8) C0.credit
          let c := { c with copyEnd := some (done, x.desc) }
          if off then ⟨{ rd.1 with core := c }.also cr, (·.settles sh.id done)⟩
          else
            let C := { C0 with lastWrite := copyFrames C0 }
            let legs := [(⟨f.toNat, 13, 13, x.t + 4, 1, copySteps C⟩ : Leg), ⟨f.toNat + 1, 13, 13, x.t + 30, 1, copySteps C⟩]
            let oc := c.occupy x.k (legs.flatMap fun l => l.occs x.desc true) x.t
            ⟨({ rd.1 with core := { oc.1 with copyBuf := [], copyBad := [] } }.also (startCopy C false ++ startCopy C true ++ cr)).faults oc.2,
              (·.settles sh.id done)⟩

/-- COPY STEP: the elements that the read or write beats meet in this cycle (R231). -/
def execCopyStep (C : CopyRun) (wr : Bool) (items : List (Nat × Nat)) (s : State) : Host.Outcome State Fault Refusal :=
  let races := if wr then noRace else s.racesNow C.d.k C.cls
  s.atCore C.d.k fun t fr c => c.copyStep t fr races C wr items

/-! The probe cache (R95, R245, R246). -/

def noProbe : ProbeTag := ⟨0, false, false, false⟩

/-- The frames of the probe cache's banks, in entry order (R95). -/
def Core.probeFrames (c : Core) : List Nat :=
  ((List.range 24).filter fun b => c.pbanks.getLsbD b).flatMap fun b => (List.range 16).map fun i => 16 * b + i

/-- The clock hand goes round once: the victim, and the tags with reference bits cleared on the way (R95). -/
def clockTurn (n : Nat) : Nat → Nat → Tab ProbeTag → Tab ProbeTag × Option Nat
  | 0, _, t => (t, none)
  | f + 1, h, t =>
    let q := Tab.get noProbe t (h % n)
    if q.pending then clockTurn n f (h + 1) t
    else if q.refd then clockTurn n f (h + 1) (Tab.set noProbe (h % n) { q with refd := false } t)
    else (t, some (h % n))

/-- PROBE pD, sD, sA, acK (R245): the result at issue + 4, and on a miss the fill of the block at issue. DESIGN CHOICE (log
entry 21): a turn of the hand that only clears reference bits is followed by a second, so that the word faults only where
every entry is pending (R95). -/
def execProbe (p pd : BitVec 3) (sd sa : BitVec 6) (cls : BitVec 2) (s : State) : Host.Outcome State Fault Refusal :=
  s.issueX fun x c sh =>
    let off := !(c.pget p.toNat)
    let va := (c.sget sa.toNat).toNat % 2 ^ 48 / 4096 * 4096
    let pkg := keyPkg x.k
    let pre := if c.pbanks = 0 then illegalFaults c x [] else if off then []
      else windowFaults x.desc x.t va false (sh.window? pkg va 4096) (sh.window? pkg va 1)
    let ws := if off then [] else [(pReg pd.toNat, x.t + 4), (sReg sd.toNat, x.t + 4)]
    c.checkedX x (xRegs p.toNat off [sReg sa.toNat]) ws pre fun c =>
      if off then .only (Eff.ok c)
      else
        let frames := c.probeFrames
        let n := frames.length
        let hit := (List.range n).find? fun i =>
          let q := Tab.get noProbe c.ptags i
          q.valid && q.block == va / 4096
        let answer := fun (h : Bool) (i : Nat) => [(x.t + 4, phStart, Act.probeResult x.k pd.toNat sd.toNat h (frames.getD i 0))]
        match hit with
        | some i =>
          let q := Tab.get noProbe c.ptags i
          .only ((Eff.ok { c with ptags := Tab.set noProbe i { q with refd := true } c.ptags }).also (answer true i))
        | none =>
          let one := clockTurn n n c.phand c.ptags
          let two := if one.2.isSome then one else clockTurn n n c.phand one.1
          match two.2 with
          | none => .only ((Eff.ok { c with ptags := two.1 }).faults [⟨cMiss, mRing, x.desc, x.t, 0, 0, 0⟩])
          | some i =>
            let c := { c with ptags := Tab.set noProbe i ⟨va / 4096, true, false, true⟩ two.1, phand := (i + 1) % n }
            let X : Xfer :=
              { d := x.desc, sh := sh.id, read := true, remote := false, h := 0, peer := pkg, va := va, n := 4096, g := 0
                roff := 0, f := 0, cls := cls.toNat, credit := none, cv := false, inv := false, off := false
                probe := some (i, frames.getD i 0), w := 32, late := sh.lateness s.free }
            let land := xferLand X
            let po := c.portBeats x.k false land 4096 { x.desc with start := land } x.t
            let picks := (List.range 32).map fun j =>
              (pickCycle (s.free + 1 + j) (x.t + 64) (x.t + 832 + X.late), phStart, Act.hbmSample (.xfer X j))
            ⟨{ ((Eff.ok po.1).also (answer false i ++ picks)).faults po.2 with used := 33 }, fun s =>
              ((if sh.lenient then s else s.recordAccess sh.id (xferAccess X)).countAccesses sh.id pkg x.k va 4096 x.desc land).settles sh.id
                (land + 31)⟩

/-- PROBE RESULT at issue + 4: pD takes the hit, s[sd] the frame (R245). -/
def execProbeResult (k pd sd : Nat) (hit : Bool) (frame : Nat) (s : State) : Host.Outcome State Fault Refusal :=
  s.atCore k fun _ _ c => Eff.ok ((c.pset pd hit).sset sd (w64 frame))

/-- PINV sA and PINV all (R246). -/
def execPinv (p : BitVec 3) (sa : BitVec 6) (all : BitVec 1) (s : State) : Host.Outcome State Fault Refusal :=
  s.issueOn fun x c =>
    let off := !(c.pget p.toNat)
    c.checked x (xRegs p.toNat off (if all = 1 then [] else [sReg sa.toNat])) [] [] fun c =>
      if off then Eff.ok c
      else (Eff.ok c).also [(x.t + 1, phStart, .pinvEffect x.k (all == 1) ((c.sget sa.toNat).toNat % 2 ^ 48 / 4096))]

/-- PINV EFFECT at issue + 1: valid and reference bits go; a pending entry stays pending (R246). -/
def execPinvEffect (k : Nat) (all : Bool) (block : Nat) (s : State) : Host.Outcome State Fault Refusal :=
  s.atCore k fun _ _ c =>
    Eff.ok { c with ptags := (List.range c.probeFrames.length).foldl (fun t i =>
      let q := Tab.get noProbe t i
      if all || (q.valid && q.block == block) then Tab.set noProbe i { q with valid := false, refd := false } t else t) c.ptags }

/-! RINGCFG (R82, R247). -/

/-- The fields of a ring's configuration (R247). -/
structure RingCfg where
  act : Bool
  side : Bool
  tile : Nat
  nfr : Nat
  first : Nat
  deriving DecidableEq, Repr

def ringCfg (w : W64) : RingCfg :=
  let n := w.toNat
  ⟨bits n 28 1 == 1, bits n 27 1 == 1, bits n 18 9, bits n 9 9, bits n 0 9⟩

/-- A configuration that R82 refuses for ring `g`: its frames pass frame 383 or overlap another ring or the probe cache,
its tile is out of range, or it has more than 16 tile positions with sidecars or row maxima. -/
def Core.badRing (c : Core) (g : Nat) (r : RingCfg) : Bool :=
  let last := r.first + r.nfr
  r.nfr != 0 &&
    (decide (384 < r.nfr) || r.tile == 0 || decide (r.nfr < r.tile) || decide (384 < last)
      || ((r.side || r.act) && decide (16 < r.nfr / r.tile))
      || (c.rings.any fun o => o.1 != g && o.2.nfr != 0 && decide (r.first < o.2.first + o.2.nfr) && decide (o.2.first < last))
      || (c.probeFrames.any fun f => decide (r.first ≤ f) && decide (f < last)))

/-- A ring as its configuration makes it at cycle `t`: cursors and laps 0, gbase from the frames' tags (R82). -/
def Core.newRing (c : Core) (t g : Nat) (r : RingCfg) (out : Bool) : Core :=
  c.setRing g (if r.nfr = 0 then noRing else
    { noRing with
      first := r.first, nfr := r.nfr, tile := r.tile, side := r.side, act := r.act, screenOut := out
      gbase := (List.range r.nfr).map fun i => c.tagAt t (r.first + i) })

/-- RINGCFG g, sC (R247). -/
def execRingcfg (p : BitVec 3) (g : BitVec 4) (sc : BitVec 6) (s : State) : Host.Outcome State Fault Refusal :=
  s.issueOn fun x c =>
    let off := !(c.pget p.toNat)
    let v := c.sget sc.toNat
    let g := g.toNat
    let r := c.ring g
    let pre := if off then []
      else if bits v.toNat 29 35 != 0 || c.badRing g (ringCfg v) then illegalFaults c x []
      else if c.screenHeld x.t g || r.tiles.any fun k => !(k.free x.t) then
        [⟨cMiss, mRing, x.desc, x.t, w64 g, w64 (if r.size = 0 then 0 else r.wr % r.size), 0⟩]
      else []
    c.checked x (xRegs p.toNat off [sReg sc.toNat]) [] pre fun c =>
      if off then Eff.ok c else (Eff.ok (c.useRing x.desc g r.wr)).also [(x.t + 1, phStart, .ringcfgEffect x.k g v)]

/-- RINGCFG EFFECT at issue + 1; OCC reports the new state a cycle later (R247). -/
def execRingcfgEffect (k g : Nat) (cfg : W64) (s : State) : Host.Outcome State Fault Refusal :=
  s.atCore k fun t _ c =>
    let old := c.occ_ t g
    let c1 := c.newRing t g (ringCfg cfg) (c.screen.declared.contains g)
    Eff.ok (c1.setRing g { c1.ring g with was := some (t, old) })

/-! PATCH and ARM at issue (R248). -/

/-- A held word checked at issue + 832, which the sheet counts as a transfer (R33, R248). -/
def holdWord (p r : Nat) (vreg : Option Nat) (field : Nat) (x : Ctx) (c : Core) (sh : Sheet) : XOut :=
  let off := !(c.pget p)
  let regs := sReg r :: (vreg.map sReg).toList
  c.checkedX x (xRegs p off regs) [] [] fun c =>
    if off then .only (Eff.ok c)
    else
      let h : Held := ⟨sh.id, x.k, (c.sget r).toNat % 2 ^ 14, field, vreg.map c.sget⟩
      ⟨(Eff.ok c).also [(x.t + 832, phEnd, .patchArmCheck h x.desc)], (·.settles sh.id (x.t + 832))⟩

/-- PATCH sR, sV, fld (R248). -/
def execPatch (p : BitVec 3) (r v : BitVec 6) (fld : BitVec 5) (s : State) : Host.Outcome State Fault Refusal :=
  s.issueX (holdWord p.toNat r.toNat (some v.toNat) fld.toNat)

/-- ARM sR (R248). -/
def execArmRec (p : BitVec 3) (r : BitVec 6) (s : State) : Host.Outcome State Fault Refusal :=
  s.issueX (holdWord p.toNat r.toNat none 0)

end Sys2Proof.Machine
end

