-- ==== Sys2Proof/Machine/Weave.lean ====
section
/-! DEFINITION. Weaves (R233 to R239): the record, the walker and its emissions, contributions in arrival order at the
base-die adders, the status word; the beats of every movement over a felt lane, which a weave shares with the rest. -/

namespace Sys2Proof.Machine

/-- A weave record taken apart (R234); `levels` are (bound, source stride, destination stride, PA, PB). -/
structure WeaveRec where
  op : Nat
  bf16 : Bool
  heap : Bool
  rel : Bool
  ac : Nat
  hmax : Nat
  chunk : Nat
  cadence : Nat
  p : Nat
  buf : Nat
  src : Nat
  dst : Nat
  stat : Nat
  levels : List (Nat × Int × Int × Int × Int)
  ok : Bool
  deriving DecidableEq, Repr

def parseWeave (bs : List Byte) (pkgs : Nat) : WeaveRec :=
  let w := recNat bs 0 4
  let w1 := recNat bs 4 4
  let w2 := recNat bs 8 4
  let nl := bits w 0 3
  let lv := fun (l : Nat) =>
    let o := 48 + 16 * l
    (recNat bs o 4, recInt bs (o + 4), recInt bs (o + 8), signedOf 16 (recNat bs (o + 12) 2), signedOf 16 (recNat bs (o + 14) 2))
  let levels := (List.range nl).map lv
  let chunk := bits w1 0 14
  let heap := bits w 7 1 == 1
  let src := recNat bs 16 8
  let zero := fun (o n : Nat) => recNat bs o n == 0
  let inRange := levels.all fun l => decide (1 ≤ l.1) && decide (l.1 ≤ 65536) && l.2.1 % 64 == 0 && l.2.2.1 % 64 == 0
  let j := (levels.map fun l => l.1).foldl (· * ·) 1
  { op := bits w 4 2, bf16 := bits w 6 1 == 1, heap := heap, rel := bits w 8 1 == 1, ac := bits w 10 2
    hmax := bits w 12 6, chunk := chunk, cadence := bits w2 0 16, p := bits w2 16 12, buf := recNat bs 12 4, src := src
    dst := recNat bs 24 8, stat := recNat bs 32 8, levels := levels
    ok := bits w 3 1 == 0 && bits w 9 1 == 0 && bits w 18 14 == 0 && bits w1 14 18 == 0 && bits w2 28 4 == 0
      && decide (1 ≤ nl) && decide (nl ≤ 6) && inRange && decide (j ≤ 2 ^ 20)
      && !(bits w 4 2 == 0 && bits w 6 1 == 1) && decide (64 ≤ chunk) && decide (chunk ≤ 8192) && chunk % 64 == 0
      && decide (chunk / 64 ≤ bits w2 0 16) && decide (1 ≤ bits w2 16 12) && decide (bits w2 16 12 ≤ pkgs)
      && recNat bs 12 4 % 64 == 0 && src % 64 == 0 && decide (src < (if heap then 2 ^ 48 else 2 ^ 21))
      && recNat bs 24 8 % 64 == 0 && decide (recNat bs 24 8 < 2 ^ 48) && recNat bs 32 8 % 8 == 0
      && decide (recNat bs 32 8 < 2 ^ 48) && zero 40 8 && zero 144 112 && zero (48 + 16 * nl) (16 * (6 - nl)) }

/-- J (R234). -/
def weaveCount (w : WeaveRun) : Nat := (w.levels.map fun l => l.1).foldl (· * ·) 1

/-- The source of transfer `j` (R235). -/
def weaveSrc (w : WeaveRun) (j : Nat) : Nat := ((w.src : Int) + levelSum (fun i l => i * l.2.1) w.levels j).toNat

/-- e_j (R235). -/
def weaveEmit (w : WeaveRun) (j : Nat) : Nat := w.d.start + 8 + j * w.cadence

/-- t_end (R235). -/
def weaveEnd (w : WeaveRun) : Nat :=
  weaveEmit w (weaveCount w - 1) + (if w.heap then 896 else 0) + 768 * w.hmax + 832

/-- Lowest and highest start of a range walked from `base`. -/
def walkRange (base : Int) (stride : Nat × Int × Int × Int × Int → Int) :
    List (Nat × Int × Int × Int × Int) → Int × Int
  | [] => (base, base)
  | l :: r =>
    let e := walkRange base stride r
    let d := (l.1 - 1 : Nat) * stride l
    (e.1 + min 0 d, e.2 + max 0 d)

/-- The packages of the group that a run writes, by rank: its peers, and with an operation all of them (R235, R237). -/
def weaveRanks (w : WeaveRun) (prank : Nat) : List Nat :=
  if w.op = 0 then ((List.range (weaveCount w)).map (weavePeer w prank)).eraseDups else List.range w.p

/-- The region faults of a run (R219, R234, R362): the source range, the destination range with both parity buffers and,
for an operation, both status words; `dsts` are the heap windows that hold the written bytes. -/
def weaveFaults (x : Ctx) (r : WeaveRec) (heap : Option Window) (dsts : List (Option Window)) : List CFault :=
  let s := walkRange r.src (fun l => l.2.1) r.levels
  let d0 := walkRange r.dst (fun l => l.2.2.1) r.levels
  let d := if r.op = 0 then (d0.1, d0.2 + r.chunk + r.buf)
    else (min d0.1 r.stat, max (d0.2 + r.chunk + r.buf) ((r.stat + r.buf + 8 : Nat) : Int))
  let inside := fun (lo hi : Int) => heap.filter fun w => decide (0 ≤ lo) && decide (hi ≤ (w.size : Int))
  let src := if r.heap then windowFaults x.desc x.t s.1.toNat false (inside s.1 (s.2 + r.chunk)) heap
    else if decide (s.1 < 0) || decide ((spadSize : Int) < s.2 + r.chunk) then
      [⟨cRegion, rScratch, x.desc, x.t, BitVec.ofInt 64 s.1, 0, 0⟩]
    else []
  if !src.isEmpty then src
  else
    match windowFaults x.desc x.t d.1.toNat true ((inside d.1 d.2).map fun w => { w with wr := true, cls := clsS }) heap with
    | [] => (dsts.findSome? fun w => match windowFaults x.desc x.t d.1.toNat true w w with
      | [] => none
      | f :: _ => some [f]).getD []
    | fs => fs

/-- The run of a WEAVE word on a package: its issues at one task cycle (R236). -/
def Package.weaveRun? (p : Package) (w : WeaveRun) : Option OpenRun :=
  p.runs.find? fun r => r.sh == w.sh && r.addr == w.d.addr && r.issue == w.d.start

/-- The same run. -/
def sameWeave (r : OpenRun) (w : WeaveRun) : Bool := r.sh == w.sh && r.addr == w.d.addr && r.issue == w.d.start

/-- The run on a package changed. -/
def Package.updRun (p : Package) (w : WeaveRun) (f : OpenRun → OpenRun) : Package :=
  { p with runs := p.runs.map fun r => if sameWeave r w then f r else r }

/-- A run opened on a package, unless it is open. -/
def Package.openRun (p : Package) (w : WeaveRun) : Package :=
  if (p.weaveRun? w).isSome then p
  else { p with runs := p.runs ++ [⟨w.sh, w.d.addr, w.d.start, [], [], 0, none⟩] }

/-- Arrival order (R236). -/
def Contribution.before (a b : Contribution) : Bool :=
  decide (a.arr < b.arr) || (a.arr == b.arr && (decide (a.src < b.src) || (a.src == b.src &&
    (decide (a.core < b.core) || (a.core == b.core && decide (a.j < b.j))))))

def insertContribution (c : Contribution) : List Contribution → List Contribution
  | [] => [c]
  | d :: r => if c.before d then c :: d :: r else d :: insertContribution c r

/-- A pending status write of the same run and place. -/
def sameStatus (w : WeaveRun) : Act → Bool
  | .weaveStatusWrite v => v.sh == w.sh && v.d.addr == w.d.addr && v.d.start == w.d.start && v.stat == w.stat
      && v.seq.getLsbD 0 == w.seq.getLsbD 0 && v.op == w.op
  | _ => false

/-- The access of a status word (R237, R269): the issuing column's own, no contribution of the run. -/
def weaveStatusAccess (w : WeaveRun) (win : Window) : HAccess :=
  let a := win.base + weaveStat w
  ⟨win.pkg, a, a + 7, true, w.cls, w.d, weaveEnd w, weaveEnd w, none⟩

/-- WEAVE sA, sQ, fN (R233). A predicated-off WEAVE reads its record, holds the walker and credits at t_end (R220). -/
def execWeave (p : BitVec 3) (sa sq : BitVec 6) (f : BitVec 4) (k : BitVec 1) (lit : Option W32) (s : State) :
    Host.Outcome State Fault Refusal :=
  let races := s.racesNow s.cur.k 0
  s.issueX fun x c sh =>
    let off := !(c.pget p.toNat)
    let a := (c.sget sa.toNat).toNat % 2 ^ 21
    c.checkedX x (xRegs p.toNat off [sReg sa.toNat, sReg sq.toNat]) [] (recordFaults c x a) fun c =>
      let rd := c.record x s.free races a
      let r := parseWeave rd.2 sh.pkgs.length
      let c := rd.1.core
      let W : WeaveRun :=
        { d := x.desc, sh := sh.id, op := r.op, bf16 := r.bf16, heap := r.heap, rel := r.rel, cls := r.ac
          chunk := r.chunk, cadence := r.cadence, p := r.p, hmax := r.hmax, src := r.src, dst := r.dst, buf := r.buf
          stat := r.stat, levels := r.levels, seq := (c.sget sq.toNat).setWidth 32, f := f.toNat
          credit := lit.bind (litCredit k), off := off }
      let faults := if !r.ok then illegalFaults c x [] else if off then []
        else weaveFaults x r (sh.heap? (keyPkg x.k)) ((weaveRanks W c.prank).map fun q => sh.heap? (sh.pkgs.getD q 0))
      if !faults.isEmpty then .only (rd.1.faults faults)
      else
        match c.weaveEnd.filter fun e => decide (x.t < e.1) with
        | some e => .only (Eff.waits c (.reg x.k e.1, ⟨cMiss, mScore, x.desc, x.t, w64 (5 * 256), descBits c.prank e.2, 0⟩))
        | none =>
          let done := weaveEnd W
          let cr := creditAt done x.k (weaveCount W * r.chunk) W.credit
          let c := { c with weaveEnd := some (weaveEmit W (weaveCount W - 1), x.desc) }
          let e := { rd.1 with core := c }.also cr
          if off then ⟨e, (·.settles sh.id (if cr.isEmpty then weaveEmit W (weaveCount W - 1) else done))⟩
          else
            let first := !(s.agenda.any fun e => sameStatus W e.act)
            ⟨e.also [(weaveEmit W 0, phStart, .weaveEmission W 0)], fun s =>
              let s := s.settles sh.id done
              let s := if first then s.postAlloc (sh.t0 + done) sh.id (.weaveStatusWrite W) else s
              if first && r.op != 0 then
                (List.range r.p).foldl (fun s q =>
                  match sh.heap? (sh.pkgs.getD q 0) with
                  | some w => s.recordAccess sh.id (weaveStatusAccess W w)
                  | none => s) s
              else s⟩

/-- The destination of transfer `j`: window of the peer's heap, virtual address, hops. -/
def State.weaveTo (s : State) (sh : Sheet) (w : WeaveRun) (j : Nat) : Option (Window × Nat × Nat) :=
  match s.core? w.d.k with
  | none => none
  | some c =>
    let p := sh.pkgs.getD (weavePeer w c.prank j) (keyPkg w.d.k)
    (sh.heap? p).map fun win => (win, win.base + weaveDst w j, s.hops (keyPkg w.d.k) p)

/-- a_j (R235). -/
def weaveArrive (w : WeaveRun) (j h : Nat) : Nat := weaveEmit w j + (if w.heap then 896 else 0) + 768 * h

/-- The access of transfer `j` on its destination (R269). -/
def weaveAccess (w : WeaveRun) (j : Nat) (win : Window) (va h : Nat) : HAccess :=
  ⟨win.pkg, va, va + w.chunk - 1, true, w.cls, { w.d with start := weaveEmit w j }, weaveArrive w j h + 64,
    weaveArrive w j h + 832, some (w.d.addr, w.d.start)⟩

/-- The read of a heap source (R235, R269); each transfer is an agent of its own (R268). -/
def weaveReadAccess (w : WeaveRun) (j : Nat) (pkg va : Nat) : HAccess :=
  ⟨pkg, va, va + w.chunk - 1, false, w.cls, { w.d with start := weaveEmit w j }, weaveEmit w j + 64, weaveEmit w j + 832, none⟩

/-- WEAVE EMISSION: transfer `j` leaves at e_j (R235). A scratchpad source sends its beats over lane fN and X-out; a heap
source is sampled by the local stacks. -/
def execWeaveEmission (w : WeaveRun) (j : Nat) (s : State) : Host.Outcome State Fault Refusal :=
  match s.sheet? w.sh, s.core? w.d.k with
  | some sh, some c =>
    match s.weaveTo sh w j with
    | none => .next s
    | some (win, va, h) =>
      let t := s.task sh
      let d := { w.d with start := t }
      let arr := weaveArrive w j h
      let s := s.updPkg win.pkg fun p => (p.openRun w).updRun w fun r =>
        { r with cs := insertContribution ⟨arr, c.prank, keyId w.d.k, j, va, none, false, false⟩ r.cs }
      let s := s.recordAccess w.sh (weaveAccess w j win va h)
      let ready := if w.heap then arr else max arr (t + w.chunk / 64)
      let s := s.postAll sh.t0 w.sh
        ([(pickCycle s.free (max (arr + 64) (ready + 1)) (arr + 832), phSeam, .weaveContribution w j)]
          ++ (if j + 1 < weaveCount w then [(weaveEmit w (j + 1), phStart, .weaveEmission w (j + 1))] else []))
      let s := (s.postAlloc (sh.t0 + arr) w.sh (.weaveContribution w j)).spend 1
      let s := s.crossLinks w.sh d (keyPkg w.d.k) win.pkg h (if w.heap then t + 896 else t) w.chunk
        (if w.heap then 0 else w.chunk / 64 + 4) (arr + 832)
      if w.heap then
        match sh.heap? (keyPkg w.d.k) with
        | none => .next s
        | some own =>
          let s := s.recordAccess w.sh (weaveReadAccess w j own.pkg (own.base + weaveSrc w j))
          .next ((s.post (sh.t0 + pickCycle s.free (t + 64) (t + 832)) phSeam (some w.sh) (.hbmSample (.weave w j))).spend 1)
      else
        let m : Move :=
          { d := d, k := w.d.k, cls := w.cls, lane := w.f, unit := 13, kind := .weave w j, ring := none, beat := 64
            tag := none, lanes := [], bytes := [], fl := 0 }
        s.atCore w.d.k fun t _ c =>
          let po := c.usePort w.d.k ⟨true, t, t + w.chunk / 64 - 1, 64, d⟩ t
          (po.1.startRead t m 1 t [(weaveSrc w j, w.chunk)]).faults po.2
  | _, _ => .next s

/-- The bytes of transfer `j` have been read. -/
def State.weaveData (s : State) (w : WeaveRun) (j : Nat) (bs : List Byte) : State :=
  match s.sheet? w.sh, s.core? w.d.k with
  | some sh, some c =>
    match s.weaveTo sh w j with
    | some (win, _, _) => s.updPkg win.pkg fun p => p.updRun w fun r =>
        { r with cs := r.cs.map fun e => if e.src == c.prank && e.core == keyId w.d.k && e.j == j then { e with data := some bs } else e }
    | none => s
  | _, _ => s

/-- One element of a contribution combined with what the run holds of it (R71, R236): the new FP32 value and flags. The
first contribution is stored; a signalling NaN in it sets NV (R237). -/
def weaveCombine (op : Nat) (old : Option W32) (x : Nat) : FRes :=
  match old with
  | none => (x, if fp32.value x = .nan true then NV else 0)
  | some y =>
    match op with
    | 1 => fp32.fadd 0 y.toNat x
    | 2 => fp32.fminmax true y.toNat x
    | _ => fp32.fminmax false y.toNat x

/-- The elements of a contribution from address `va` on: values the run holds, flags, the bytes written (a BF16 element
receives its FP32 value rounded with RNE). -/
def combineElems (op : Nat) (bf : Bool) : Nat → List Nat → Tab W32 → Tab W32 × Flags × List Byte
  | _, [], t => (t, 0, [])
  | va, e :: es, t =>
    let r := weaveCombine op (Tab.find? va t) (if bf then e * 65536 else e)
    let q := combineElems op bf (va + if bf then 2 else 4) es (Tab.put va (BitVec.ofNat 32 r.1) t)
    (q.1, r.2 ||| q.2.1, (if bf then leBytes 2 (bf16.pack 0 (fp32.value r.1)).1 else leBytes 4 r.1) ++ q.2.2)

/-- A contribution takes effect on its destination bytes (R236). -/
def State.applyContribution (s : State) (w : WeaveRun) (win : Window) (c : Contribution) : State :=
  match s.sheet? w.sh, (s.pkg win.pkg).weaveRun? w, c.data with
  | some sh, some r, some bs =>
    let q := if w.op = 0 then (r.vals, (0 : Flags), bs)
      else combineElems w.op w.bf16 c.dst (if w.bf16 then elems16 bs else elems32 bs) r.vals
    let s := s.updPkg win.pkg fun p => p.updRun w fun r =>
      { r with vals := q.1, fl := r.fl ||| q.2.1
               cs := r.cs.map fun e => if e.arr == c.arr && e.src == c.src && e.core == c.core && e.j == c.j then { e with applied := true } else e }
    let a : HAccess := ⟨win.pkg, c.dst, c.dst + w.chunk - 1, true, w.cls, w.d, c.arr + 64, c.arr + 832, some (w.d.addr, w.d.start)⟩
    s.writeOpen sh win a c.dst (q.2.2.map some)
  | _, _, _ => s

/-- The contributions that may take effect now: those in arrival order up to the first that may not (R236). -/
def readyPart : List Contribution → List Contribution
  | [] => []
  | c :: r => if c.applied then readyPart r else if c.ready && c.data.isSome then c :: readyPart r else []

/-- A weave access of a pseudo-channel is late past 24 in 896 cycles of arrival (R238): the pseudo-channels of a
transfer's granules counted, with the first late one. -/
def countWeave (ttc : Nat) : List Nat → List (Nat × Nat) → List (Nat × Nat) × Option Nat
  | [], use => (use, none)
  | a :: r, use =>
    let ch := channelOf a / 16
    let n := (use.filter fun u => u.2 == ch).length
    let q := countWeave ttc r (use ++ [(ttc, ch)])
    (q.1, if 24 ≤ n then some ch else q.2)

/-- WEAVE CONTRIBUTION: at a_j the transfer arrives, allocating its vat lines (R321) and counting at its pseudo-channels
(R238); at some cycle of its perform window it may take effect, after every earlier contribution (R236). -/
def execWeaveContribution (w : WeaveRun) (j : Nat) (s : State) : Host.Outcome State Fault Refusal :=
  match s.sheet? w.sh, s.core? w.d.k with
  | some sh, some c =>
    match s.weaveTo sh w j with
    | none => .next s
    | some (win, va, h) =>
      let t := s.task sh
      if t < weaveArrive w j h + 64 then
        let s := s.allocate w.sh win va w.chunk { w.d with start := weaveEmit w j } t
        let u := countWeave s.ttc (granules va w.chunk) ((s.pkg win.pkg).weaveUse.filter fun u => decide (s.ttc < u.1 + 896))
        .next (s.updPkg win.pkg fun p => { p with weaveUse := u.1 }.updRun w fun r => { r with late := r.late <|> u.2 })
      else
        let s := s.updPkg win.pkg fun p => p.updRun w fun r =>
          { r with cs := r.cs.map fun e => if e.src == c.prank && e.core == keyId w.d.k && e.j == j then { e with ready := true } else e }
        match (s.pkg win.pkg).weaveRun? w with
        | some r => .next ((readyPart r.cs).foldl (fun s c => s.applyContribution w win c) s)
        | none => .next s
  | _, _ => .next s

/-- The status word of a run (R237). -/
def statusWord (w : WeaveRun) (fl : Flags) : Nat :=
  w.seq.toNat * 2 ^ 32 + (if fl &&& NX = 0 then 0 else 8) + (if fl &&& NV = 0 then 0 else 4) + (if fl &&& OF = 0 then 0 else 2) + 1

/-- The end of a run on one package: a late access faults there, on the core that issued the same word (R238); the status
word is written (R237). -/
def State.endWeaveOn (s : State) (sh : Sheet) (w : WeaveRun) (q : Nat) : State :=
  match sh.heap? (sh.pkgs.getD q 0) with
  | none => s
  | some win =>
    let run := (s.pkg win.pkg).weaveRun? w
    let issuers := (s.pkgs.flatMap (·.runs)).flatMap fun r => if sameWeave r w then (r.cs.filter fun c => c.src == q).map (·.core) else []
    let k := match issuers with
      | i :: r => coreKey win.pkg (r.foldl min i)
      | [] => w.d.k
    let t := weaveEnd w
    let s := match run.bind (·.late) with
      | some ch => s.raise sh.id { s.faultRec sh ⟨cMiss, mLate, { w.d with k := k }, t, lateData 0 (ch * 16), 0, 0⟩ with pkg := win.pkg }
      | none => s
    if w.op = 0 then s
    else
      let a := weaveStatusAccess w win
      (s.allocate sh.id win a.lo 8 { w.d with k := k } t).writeOpen sh win a a.lo
        ((leBytes 8 (statusWord w ((run.map (·.fl)).getD 0))).map some)

/-- A run whose contributions have all taken effect closes. -/
def Package.closeRun (p : Package) (w : WeaveRun) : Package :=
  { p with runs := p.runs.filter fun r => !(sameWeave r w) || r.cs.any fun c => !c.applied }

/-- WEAVE STATUS WRITE at t_end (R237). -/
def execWeaveStatusWrite (w : WeaveRun) (s : State) : Host.Outcome State Fault Refusal :=
  match s.sheet? w.sh with
  | none => .next s
  | some sh =>
    let s := (List.range w.p).foldl (fun s q => s.endWeaveOn sh w q) s
    .next { s with pkgs := s.pkgs.map fun p => p.closeRun w }

/-! The transfers of runs that end off the clock (R329). -/

/-- The source bytes of transfer `j`, read now. -/
def State.weaveSource (s : State) (w : WeaveRun) (j : Nat) : List Byte :=
  match s.sheet? w.sh, s.core? w.d.k with
  | some sh, some c =>
    if w.heap then
      (sh.heap? (keyPkg w.d.k)).elim [] fun own =>
        let va := own.base + weaveSrc w j
        s.sampleBytes sh (weaveReadAccess w j own.pkg va) false va w.chunk
    else Tab.slice 0 c.spad (weaveSrc w j) w.chunk
  | _, _ => []

/-- `n` transfers of a run from `j` on join it at their arrival cycles, with their bytes. -/
def State.emitRest (s : State) (w : WeaveRun) : Nat → Nat → State
  | 0, _ => s
  | n + 1, j =>
    match (s.sheet? w.sh).bind fun sh => s.weaveTo sh w j with
    | none => s
    | some (win, va, h) =>
      let c : Contribution :=
        ⟨weaveArrive w j h, (s.core? w.d.k).elim 0 Core.prank, keyId w.d.k, j, va, some (s.weaveSource w j), false, false⟩
      (s.updPkg win.pkg fun p => (p.openRun w).updRun w fun r => { r with cs := insertContribution c r.cs }).emitRest w n (j + 1)

/-- The transfers of which a pending step is the emission or the read. -/
def State.weaveIssued (s : State) : Act → State
  | .weaveEmission w j => s.emitRest w (weaveCount w - j) j
  | .hbmSample (.weave w j) => s.weaveData w j (s.weaveSource w j)
  | .laneBeat m _ =>
    match m.kind with
    | .weave w j => s.weaveData w j (overlay (s.weaveSource w j) m.bytes)
    | _ => s
  | _ => s

/-- The run of which a pending step is a part. -/
def weaveOf : Act → Option WeaveRun
  | .weaveEmission w _ | .weaveContribution w _ | .weaveStatusWrite w => some w
  | _ => none

/-- All contributions of a run take effect on every package of the group. -/
def State.weavePerformed (s : State) (w : WeaveRun) : State :=
  match s.sheet? w.sh with
  | none => s
  | some sh =>
    sh.pkgs.foldl (fun s q =>
      match sh.heap? q with
      | none => s
      | some win =>
        let s := s.updPkg q fun p => p.updRun w fun r => { r with cs := r.cs.map fun e => { e with ready := true } }
        match (s.pkg q).weaveRun? w with
        | some r => (readyPart r.cs).foldl (fun s c => s.applyContribution w win c) s
        | none => s) s

/-- Every transfer of the runs of which `acts` are the pending steps takes effect, in arrival order, and their status words are
written. -/
def State.finishWeaves (s : State) (acts : List Act) : State :=
  let s := acts.foldl State.weaveIssued s
  let s := ((acts.filterMap weaveOf).eraseDups).foldl State.weavePerformed s
  acts.foldl (fun s a =>
    match a with
    | .weaveStatusWrite w => (s.sheet? w.sh).elim s fun sh => (List.range w.p).foldl (fun s q => s.endWeaveOn sh w q) s
    | _ => s) s

/-- HBM SAMPLE: a beat of a read, or the heap source of a weave transfer, at some cycle of its window (R90, R235). -/
def execHbmSample (x : Sampler) (s : State) : Host.Outcome State Fault Refusal :=
  match x with
  | .xfer x i => .next (s.sampleBeat x i)
  | .weave w j =>
    match s.sheet? w.sh with
    | none => .next s
    | some sh =>
      match sh.heap? (keyPkg w.d.k) with
      | none => .next s
      | some own =>
        let va := own.base + weaveSrc w j
        let a := weaveReadAccess w j own.pkg va
        let bs := s.sampleBytes sh a false va w.chunk
        let e := s.hbmErrors sh a va w.chunk
        let s := (e.1.spend w.chunk).weaveData w j bs
        .next (match e.2 with
          | some b => s.hardFault sh a.pkg (216 + stackOf b) ⟨cUncorrectable, 6, a.d, weaveEmit w j + 896, w64 b, 0, 0⟩
          | none => s)

/-- A movement that writes its bank. -/
def writesBank : MoveKind → Bool
  | .store => true
  | .skip wr => wr
  | _ => false

/-- LANE BEAT: a movement's beat of this cycle is read or written (R76, R163); a weave transfer's last beat completes its
bytes. -/
def execLaneBeat (m : Move) (ps : List Piece) (s : State) : Host.Outcome State Fault Refusal :=
  match s.core? m.k with
  | none => .next s
  | some c =>
    match s.sheet? c.sh with
    | none => .next s
    | some sh =>
      let races := if writesBank m.kind then noRace else s.racesNow m.k m.cls
      let r := c.beatStep (s.task sh) s.free races m ps
      let s := s.commit m.k r.1
      .next (match m.kind, (nowPieces ps).2 with
        | .weave w j, [] => match allBytes r.2.bytes with
          | some bs => s.weaveData w j bs
          | none => s
        | _, _ => s)

end Sys2Proof.Machine
end

