-- ==== Sys2Proof/Machine/Image.lean ====
section
/-! DEFINITION. The launch image (R304, R305) as the mill controller reads it: sections, columns, schedules by R22, link
plans (R242, R243), and the core that the loader makes of it (R300, R301). -/

namespace Sys2Proof.Machine

/-! Sections (R304). -/

/-- A section entry: kind, target, length, offset from the image's base. -/
structure Section where
  kind : Nat
  target : Nat
  len : Nat
  off : Nat
  deriving DecidableEq, Repr

/-- The section table up to its entry of KIND 0; the first argument bounds the walk. -/
def Package.sections (p : Package) (img : Nat) : Nat → Nat → List Section
  | 0, _ => []
  | f + 1, i =>
    let e := p.getMem (img + 256 + 16 * i) 16
    let k := leNat (e.take 2)
    if k = 0 then [] else ⟨k, leNat ((e.drop 2).take 6), leNat ((e.drop 8).take 4), leNat (e.drop 12)⟩ :: p.sections img f (i + 1)

/-- An image: its package's memory read once, and its sections. -/
structure Image where
  pkg : Package
  base : Nat
  secs : List Section

def Package.image (p : Package) (img : Nat) : Image := ⟨p, img, p.sections img 65536 0⟩

def Image.bytes (im : Image) (x : Section) : List Byte := im.pkg.getMem (im.base + x.off) x.len

def Image.of (im : Image) (kind : Nat) : List Section := im.secs.filter fun x => x.kind == kind

/-- The bytes of the last section of a kind; none where the image has no such section. -/
def Image.last (im : Image) (kind : Nat) : List Byte :=
  match (im.of kind).getLast? with
  | some x => im.bytes x
  | none => []

/-- 64-bit words of a section. -/
def words64 : Nat → List Byte → List W64
  | 0, _ => []
  | f + 1, bs => if bs.isEmpty then [] else w64 (leNat (bs.take 8)) :: words64 f (bs.drop 8)

def toWords (bs : List Byte) : List W64 := words64 (bs.length / 8 + 1) bs

/-- The most bytes that a section of a kind may hold at its target (R304). -/
def sectionRoom (x : Section) : Option Nat :=
  match x.kind with
  | 1 | 2 | 3 | 4 => if x.target = 0 then some 32768 else none
  | 5 => if x.target < 4 then some 1024 else none
  | 6 => if x.target = 0 then some 960 else none
  | 7 | 12 => if x.target = 0 then some 128 else none
  | 8 => if x.target = 0 then some 1024 else none
  | 9 => if x.target < spadSize then some (spadSize - x.target) else none
  | 10 => some (2 ^ 32)
  | 11 => if x.target = 0 then some (320 + 8 * 1033 * 64) else none
  | 13 => if x.target = 0 then some (2 ^ 32) else none
  | _ => none

def sectionFits (x : Section) : Bool := (sectionRoom x).any fun n => decide (x.len ≤ n)

/-- A column as the loader writes it: code words and literal tags (R25, R304). -/
def Image.column (im : Image) (o : Col) : Column :=
  let code := (elems32 (im.last (o.code + 1))).map (BitVec.ofNat 32)
  let tags := match (im.of 5).filter fun x => x.target == o.code with
    | [] => []
    | x :: r => im.bytes (r.getLastD x)
  let bit := fun (w : Nat) => bits (tags.getD (w / 8) 0).toNat (w % 8) 1 == 1
  { code := Tab.entries 0xFFFFFFFF 0 code
    lits := Tab.entries false 0 ((List.range (8 * tags.length)).map bit), cu := Cursor.reset }

/-! Schedules (R22). -/

/-- The issue cycles of the units from address `a` to `last`, counted from the cycle after the unit before `a`: (address,
cycle) pairs and the cycles they take. With `all` every iteration of a loop is listed, else the first. An IF or REP is
listed with the word it governs. The first argument bounds the walk. -/
def Column.issues (o : Column) (all : Bool) : Nat → Nat → Nat → List (Nat × Nat) × Nat
  | 0, _, _ => ([], 0)
  | f + 1, a, last =>
    if last < a then ([], 0)
    else
      let w := (o.word a).toNat
      let d := o.dOf a
      let go := fun (here : List (Nat × Nat)) (occ next : Nat) =>
        let r := o.issues all f next last
        (here ++ r.1.map fun e => (e.1, e.2 + d + occ), d + occ + r.2)
      let loop := fun (n body : Nat) =>
        let b := o.issues all f (a + 1) (a + 1 + body)
        let reps := if all then n else min n 1
        let inner := (List.range reps).flatMap fun i => b.1.map fun e => (e.1, e.2 + d + 1 + i * b.2)
        go ((a, d) :: inner) (1 + n * b.2) (a + 2 + body)
      let next := if o.tagged (a + 1) then a + 2 else a + 1
      if bits w 23 6 = 0 then
        match bits w 19 4 with
        | 0 | 1 => go [(a, d)] (bits w 0 20) (a + 1)
        | 3 => ([(a, d)], d + 1)
        | 4 => loop (bits w 7 12) (bits w 0 7)
        | 5 => loop (bits w 0 6 + 1) (bits w 6 7)
        | 11 => go [(a, d), (a + 1, d)] 1 (if o.tagged (a + 2) then a + 3 else a + 2)
        | 12 => go [(a, d), (a + 1, d)] (max 1 (bits w 14 5)) (a + 2)
        | _ => go [(a, d)] 1 next
      else go [(a, d)] 1 next

/-- A whole column. -/
def Column.schedule (o : Column) (all : Bool) : List (Nat × Nat) := (o.issues all 8193 0 0x1FFF).1

/-- The instruction at an address, where there is one. -/
def Column.instrAt (o : Column) (c : Col) (a : Nat) : Option Instr :=
  if o.tagged a then none
  else match decode c (o.word a).toNat (o.literal a) with
    | .ok d => if d.ins.literalOk then some d.ins else none
    | .error _ => none

/-- The instructions of the code a section gave. -/
def Column.allInstrs (o : Column) (c : Col) : List Instr := o.code.filterMap fun e => o.instrAt c e.1

/-- The semaphore that a word sets (R303). -/
def setsSem : Instr → Option Nat
  | .sadd b _ e => if e = 0 then some b.toNat else none
  | .fetch _ _ _ _ _ k _ _ (some l) | .stow _ _ _ _ _ k (some l) | .copy _ _ _ k (some l) | .weave _ _ _ _ k (some l) =>
    litCredit k l
  | .rfetch _ _ _ _ _ k l | .rstow _ _ _ _ _ k l => litCredit k l
  | .send _ _ _ _ _ l | .sendb _ _ _ _ _ l => sendCredit l
  | _ => none

/-- The semaphore that a word waits on, and whether its index comes from a register. -/
def waitsSem : Instr → Option (Nat × Bool)
  | .swait b _ e | .swaitb b _ e => some (b.toNat, e == 1)
  | _ => none

/-- The columns of an image. -/
def Image.columns (im : Image) : List (Col × Column) := allCols.map fun c => (c, im.column c)

/-- The words of an image that issue, with the cycle of their first issue. -/
def Image.firsts (im : Image) : List (Nat × Instr) := im.columns.flatMap fun c =>
  (c.2.schedule false).filterMap fun e => (c.2.instrAt c.1 e.1).map fun i => (e.2, i)

/-- Some wait has no setter with an earlier issue (R303). -/
def Image.forwardWait (im : Image) : Bool :=
  let ws := im.firsts
  ws.any fun w => match waitsSem w.2 with
    | some (b, false) => !(ws.any fun x => setsSem x.2 == some b && decide (x.1 < w.1))
    | _ => false

/-! Link plans (R242, R243). -/

/-- An entry of a link plan. -/
def planEntry (e : List Byte) : Reservation :=
  let w0 := leNat (e.take 8)
  let w1 := leNat (e.drop 8)
  ⟨bits w0 0 11, bits w0 12 4, bits w0 16 8, bits w0 24 40, bits w1 0 40⟩

/-- The header of a plan: VER, reserved bits, NRES. -/
def Package.planHead (p : Package) (a : Nat) : Nat × Bool × Nat :=
  let w0 := (p.memWord a).toNat
  (bits w0 56 8, bits w0 24 32 != 0 || p.memWord (a + 8) != 0, bits w0 0 24)

def Package.planBytes (p : Package) (a n : Nat) : List (List Byte) := (List.range n).map fun i => p.getMem (a + 16 + 16 * i) 16

/-- The reservations of a plan; none without one. -/
def Package.plan (p : Package) (a : Nat) : List Reservation :=
  if a = 0 then [] else (p.planBytes a (p.planHead a).2.2).map planEntry

/-- Two entries share a lane of one port in some cycle. -/
def planClash (a b : Reservation) : Bool :=
  a.prank == b.prank && a.port == b.port && a.lanes &&& b.lanes != 0 && decide (a.first < b.first + b.cycles)
    && decide (b.first < a.first + a.cycles)

def anyClash : List Reservation → Bool
  | [] => false
  | e :: r => r.any (planClash e) || anyClash r

/-- The entries and the header of a plan are sound for a group of packages (R243); a link is open while both of its ports are
(R336). DEDUCED (log entry 73): PRANK = PKGS names no package and is refused. -/
def State.planSound (s : State) (p : Package) (a : Nat) (pkgs : List Nat) : Bool :=
  let h := p.planHead a
  let bs := p.planBytes a h.2.2
  let es := bs.map planEntry
  h.1 == 1 && !h.2.1 && decide (1 ≤ h.2.2) && decide (h.2.2 ≤ 1048576)
    && (bs.all fun e => bits (leNat (e.take 8)) 11 1 == 0 && bits (leNat (e.drop 8)) 40 24 == 0)
    && (es.all fun e => [1, 2, 4, 8].contains (laneCount e.lanes) && decide (e.prank < pkgs.length) && decide (1 ≤ e.cycles)
      && (let q := pkgs.getD e.prank 0
          let open_ := fun (x : Port) => x.admitted && !x.retired
          open_ (Tab.get Port.reset (s.pkg q).ports e.port)
            && (s.pairOf q e.port).all fun y => open_ (Tab.get Port.reset (s.pkg y.1).ports y.2)))
    && !anyClash es

/-- An entry holds link cycle `c` of a port. -/
def planHolds (plan : List Reservation) (prank port c : Nat) : Bool :=
  plan.any fun r => r.prank == prank && r.port == port && decide (r.first ≤ c) && decide (c < r.first + r.cycles)

/-- Every hop of a route satisfies `f` of its sending rank, port and link cycle. -/
def State.routeAll (s : State) (pkgs : List Nat) (a b t : Nat) (f : Nat → Nat → Nat → Bool) : Bool :=
  ((s.route (s.hops a b) a b).zipIdx).all fun e => f (indexOf e.1.1 pkgs) e.1.2 (t + 768 * e.2)

/-- The transfers of RFETCH and RSTOW words are within the plan, at every issue (R243). -/
def State.remotePlanned (s : State) (im : Image) (plan : List Reservation) (pkgs : List Nat) : Bool :=
  let o := im.column .X
  (o.schedule true).all fun e =>
    let check := fun (read : Bool) (peer : Nat) => pkgs.all fun a =>
      match pkgs[peer]? with
      | none => true
      | some b =>
        let h := s.hops a b
        if read then
          s.routeAll pkgs a b e.2 (fun q port c => (planServes plan q port c 256 0).isSome)
            && s.routeAll pkgs b a (e.2 + 768 * h + 832) (planHolds plan)
        else s.routeAll pkgs a b (e.2 + 4) (planHolds plan)
    match o.instrAt .X e.1 with
    | some (.rfetch _ _ _ _ _ _ l) => check true (litPeer l)
    | some (.rstow _ _ _ _ _ _ l) => check false (litPeer l)
    | _ => true

/-- The weave requests of section 13: word address, issue cycle, record address. -/
def Image.weaveRequests (im : Image) : List (Nat × Nat × Nat) :=
  (chunks 16 65536 (im.last 13)).filterMap fun e =>
    let w0 := leNat (e.take 8)
    if bits w0 53 2 = 2 then some (bits w0 40 13, bits w0 0 40, bits (leNat (e.drop 8)) 0 21) else none

/-- What an integer or constant word of the S column gives its register, with its latency, of the values that `get` knows
and the constant bank (R125, R126, R130). -/
def foldWord (get : BitVec 6 → Option W64) (cb : Nat → W64) : Instr → Nat × Option W64
  | .add _ a b => two 1 a b (· + ·) | .sub _ a b => two 1 a b (· - ·) | .mul _ a b => two 3 a b (· * ·)
  | .mulh _ a b => two 3 a b mulhS | .div _ a b => two 10 a b divS | .rem _ a b => two 10 a b remS
  | .smin _ a b => two 1 a b minS | .smax _ a b => two 1 a b maxS | .sand _ a b => two 1 a b (· &&& ·)
  | .sor _ a b => two 1 a b (· ||| ·) | .sxor _ a b => two 1 a b (· ^^^ ·) | .andn _ a b => two 1 a b fun x y => x &&& ~~~ y
  | .shl _ a b => two 1 a b fun x y => x <<< dist y | .shr _ a b => two 1 a b fun x y => x >>> dist y
  | .sar _ a b => two 1 a b fun x y => x.sshiftRight (dist y)
  | .clz _ a => one 1 a fun x => w64 (leadingZeros 64 x.toNat) | .popc _ a => one 1 a fun x => w64 (popCount 64 x.toNat)
  | .addi _ a i => one 1 a (· + simm i) | .muli _ a i => one 3 a (· * simm i) | .andi _ a i => one 1 a (· &&& simm i)
  | .ori _ a i => one 1 a (· ||| simm i) | .xori _ a i => one 1 a (· ^^^ simm i) | .mini _ a i => one 1 a (minS · (simm i))
  | .shli _ a i => one 1 a (· <<< i.toNat) | .shri _ a i => one 1 a (· >>> i.toNat)
  | .sari _ a i => one 1 a fun x => x.sshiftRight i.toNat
  | .ldk _ i => (1, some (i.signExtend 64)) | .lit _ v => (1, some (v.setWidth 64)) | .ldc _ n => (1, some (cb n.toNat))
  | .ldkh q d i => one 1 d fun x => (x &&& ~~~ (0xFFFF#64 <<< (16 * q.toNat))) ||| (i.setWidth 64 <<< (16 * q.toNat))
  | _ => (1, none)
where
  one (l : Nat) (a : BitVec 6) (f : W64 → W64) : Nat × Option W64 := (l, (get a).map f)
  two (l : Nat) (a b : BitVec 6) (f : W64 → W64 → W64) : Nat × Option W64 := (l, (get a).bind fun x => (get b).map (f x))

/-- An S word that may write the s-register its bits 22:17 name: not of the common group, no compare, no predicate word, no
store. -/
def writesRd (w : Nat) : Bool := !([0, 32, 33, 34, 36, 49].contains (bits w 23 6))

/-- The s-register that a word of another column writes: VPART, PROBE, the ply words. -/
def writesFrom : Instr → Option Nat
  | .vpart _ _ s _ => some s.toNat
  | .probe _ _ d _ _ => some d.toNat
  | .mply _ _ _ s _ _ | .mplyz _ _ _ s _ _ | .mplyk _ _ _ s _ _ | .mplyzk _ _ _ s _ _
  | .mres _ _ _ s _ _ => some s.toNat
  | _ => none

/-- A word that may not run whenever it issues: an IF governs it, or it stands in a LOOPC. -/
def Column.conditional (o : Column) (a : Nat) : Bool :=
  let op := fun (b : Nat) => if o.tagged b || bits (o.word b).toNat 23 6 != 0 then 16 else bits (o.word b).toNat 19 4
  (decide (0 < a) && op (a - 1) == 11)
    || (List.range (min a 129)).any fun i => op (a - 1 - i) == 5 && decide (i ≤ bits (o.word (a - 1 - i)).toNat 6 7)

/-- A write of an s-register as arm can tell it: the cycle from which it is read, the register, its value where known. -/
abbrev KnownWrite := Nat × Nat × Option W64

/-- What s-register `r` holds at a cycle, where arm can tell: `ks` newest first, over the values at alignment (R299, R300). -/
def knownAt (ws : List W64) (ks : List KnownWrite) (r t : Nat) : Option W64 :=
  match ks.find? fun k => k.2.1 == r && decide (k.1 ≤ t) with
  | some k => k.2.2
  | none => some (if r < 61 then 0 else recArg ws (r - 61))

/-- The writes of the S column up to some cycle, newest first. -/
def Image.knownWrites (im : Image) (ws : List W64) (upTo : Nat) : List KnownWrite :=
  let o := im.column .S
  let cb := elems32 (im.last 8)
  ((o.schedule true).filter fun e => decide (e.2 < upTo)).foldl (fun ks e =>
    let w := (o.word e.1).toNat
    if o.tagged e.1 || !writesRd w then ks
    else
      let q := ((o.instrAt .S e.1).map (foldWord (fun r => knownAt ws ks r.toNat e.2) fun n => w64 (cb.getD n 0))).getD (1, none)
      (e.2 + q.1, bits w 17 6, if o.conditional e.1 then none else q.2) :: ks) []

/-- The record address of a WEAVE issue. DEDUCED (log entry 24): a request that names word and issue gives it; else s[sa] of
the values that arm can tell (the quantities of R21 that no core's identity enters); else the word's first request. -/
def Image.weaveRecord (im : Image) (ws : List W64) (sa a t : Nat) : Option Nat :=
  let rs := im.weaveRequests.filter fun r => r.1 == a
  let others := (im.columns.drop 1).flatMap fun c => (c.2.allInstrs c.1).filterMap writesFrom
  ((rs.find? fun r => r.2.1 == t).map fun r => r.2.2)
    <|> (if others.contains sa then none else (knownAt ws (im.knownWrites ws t) sa t).map fun v => bits v.toNat 0 21)
    <|> rs.head?.map fun r => r.2.2

/-- Every issue of each WEAVE word by R22 whose record arm can find: word address, task cycle, record address (R243). -/
def Image.weaveIssues (im : Image) (ws : List W64) : List (Nat × Nat × Nat) :=
  let o := im.column .X
  (o.schedule true).filterMap fun e =>
    match o.instrAt .X e.1 with
    | some (.weave _ sa _ _ _ _) => (im.weaveRecord ws sa.toNat e.1 e.2).map fun r => (e.1, e.2, r)
    | _ => none

/-- The scratchpad as the data sections leave it (R301, R305). -/
def Image.spad (im : Image) : Mem := (im.of 9).foldl (fun m x => Tab.splice 0 x.target (im.bytes x) m) []

/-- The run of a planned weave as a core of a package sees it. -/
def plannedRun (d : Desc) (r : WeaveRec) : WeaveRun :=
  { d := d, sh := 0, op := r.op, bf16 := r.bf16, heap := r.heap, rel := r.rel, cls := r.ac, chunk := r.chunk
    cadence := r.cadence, p := r.p, hmax := r.hmax, src := r.src, dst := r.dst, buf := r.buf, stat := r.stat
    levels := r.levels, seq := 0, f := 0, credit := none, off := false }

/-- The transfers of a planned run: source rank, transfer, destination rank. -/
def plannedTransfers (w : WeaveRun) (pkgs : List Nat) : List (Nat × Nat × Nat) :=
  (List.range pkgs.length).flatMap fun q => (List.range (weaveCount w)).map fun j => (q, j, weavePeer w q j)

/-- A planned weave's HMAX is exact and every hop of its transfers is served (R239, R243). -/
def State.weavePlanned (s : State) (w : WeaveRun) (plan : List Reservation) (pkgs : List Nat) : Bool :=
  let ts := plannedTransfers w pkgs
  let h := fun (e : Nat × Nat × Nat) => s.hops (pkgs.getD e.1 0) (pkgs.getD e.2.2 0)
  (ts.map h).foldl max 0 == w.hmax
    && ts.all fun e =>
      s.routeAll pkgs (pkgs.getD e.1 0) (pkgs.getD e.2.2 0) (weaveEmit w e.2.1 + if w.heap then 896 else 0) fun q port c =>
        (planServes plan q port c w.chunk (if w.heap then 0 else w.chunk / 64 + 4)).isSome

/-- Open destination elements of a run on the package of rank `q`: first arrival, t_end, bytes (R238). -/
def State.openState (s : State) (w : WeaveRun) (pkgs : List Nat) (q : Nat) : Option (Nat × Nat × Nat) :=
  let ts := (plannedTransfers w pkgs).filter fun e => e.2.2 == q
  match ts with
  | [] => none
  | _ =>
    let arr := ts.map fun e => weaveArrive w e.2.1 (s.hops (pkgs.getD e.1 0) (pkgs.getD q 0))
    let units := ts.flatMap fun e => (List.range (w.chunk / 64)).map fun u => weaveDst w e.2.1 / 64 + u
    some (arr.foldl min (arr.headD 0), weaveEnd w, units.eraseDups.length * 64)

/-- No package holds more than 16 MiB of open elements at a time (R238). -/
def State.openFits (s : State) (ws : List WeaveRun) (pkgs : List Nat) : Bool :=
  (List.range pkgs.length).all fun q =>
    let os := ws.filterMap fun w => s.openState w pkgs q
    os.all fun o => decide (((os.filter fun p => decide (p.1 ≤ o.1) && decide (o.1 ≤ p.2.1)).map fun p => p.2.2).foldl (· + ·) 0
      ≤ 16 * 2 ^ 20)

/-- The run of a WEAVE issue by the record at `a`. DEDUCED (log entry 24): a record that the word refuses where it issues, for its
place, its bank or its fields, makes no run and has no transfers (R228, R234). -/
def Image.weaveRun (im : Image) (mem : Mem) (pkgs : Nat) (e : Nat × Nat × Nat) : Option WeaveRun :=
  let a := e.2.2
  let r := parseWeave (Tab.slice 0 mem a 256) pkgs
  let wp := bits (leNat (((im.last 6).drop (40 * bankOf a)).take 8)) 38 1 == 1
  if a % 64 == 0 && decide (a + 256 ≤ spadSize) && wp && r.ok then some (plannedRun ⟨0, .X, e.1, e.2.1, 0⟩ r) else none

/-- The plan of a record holds all its transfers; a record on one package may have none (R94, R238, R239, R243). -/
def State.planOk (s : State) (p : Package) (im : Image) (rw : List W64) (pkgs : List Nat) : Bool :=
  let a := recPlan rw
  let plan := p.plan a
  let mem := im.spad
  let ws := (im.weaveIssues rw).filterMap (im.weaveRun mem pkgs.length)
  (if a = 0 then pkgs.length == 1 else s.planSound p a pkgs)
    && s.remotePlanned im plan pkgs && (ws.all fun w => s.weavePlanned w plan pkgs) && s.openFits ws pkgs

/-! Loading (R300, R301, R305). -/

/-- A column that is empty and has ended. -/
def emptyColumn : Column := { code := [], lits := [], cu := Cursor.reset }

/-- Special registers and units as R301 sets them. -/
def Screen.loaded (im : Image) : Screen :=
  let bs := im.last 11
  let z : Screen :=
    { cls := Tab.entries 0 0 (toWords (bs.take 320)), tbl := [], ctr := [], limit := [], gen := false, runs := []
      tblEnd := 0, release := 0, tblD := none, comD := none }
  ((chunks (1033 * 64) 8 (bs.drop 320)).zipIdx).foldl (fun z c =>
    { z with tbl := Tab.splice 0 (tblBase c.2 false) c.1 z.tbl }) z

/-- The record of a core before its rings are set up. -/
def bareCore (id prank rank : Nat) (words : List W64) (pkgs size : Nat) (tags : Tab Tag) (im : Image) : Core :=
  { sh := id, rank := rank, prank := prank
    s := Tab.entries 0 61 [recArg words 0, recArg words 1, recArg words 2]
    p := 0, q := [], v := [], fwd := [], acc := [], bound := [], cover := []
    mask := { block := none, value := none, armed := false, arming := none, d := none }
    cbank := Tab.entries 0 0 ((elems32 (im.last 8)).map (BitVec.ofNat 32)), sem := [], spad := []
    tags := tags, rings := []
    bfmt := Tab.entries 0x3F800000 0 ((chunks 40 24 (im.last 6)).map fun e => BitVec.ofNat 39 (leNat (e.take 8)))
    bcb := Tab.entries 0 0 ((chunks 40 24 (im.last 6)).flatMap fun e => toWords (e.drop 8))
    fflags := 0, fset := 0, fcyc := 0, shape := 0, rot := false, base := 0, lin := BitVec.ofNat 40 rank
    gang := w64 (prank % 2048 * 2 ^ 51 + pkgs % 4096 * 2 ^ 39 + size % 2 ^ 20 * 2 ^ 19 + rank % 2 ^ 19)
    cols := (im.column .S, im.column .V, im.column .M, im.column .X)
    board := [], own := [], occ := [], ports := [], cuts := [], wp := [], rmw := [], acc1 := [], wlast := [], array := none
    walker := { tab := 0, left := 0, ended := true, run := none, out := [] }
    weaveEnd := none, copyEnd := none, copyBuf := [], copyBad := [], screen := Screen.loaded im
    pbanks := BitVec.ofNat 24 (recPbank words), ptags := [], phand := 0, bad := [], ill := [] }


/-- Records that a tile of an output ring holds at load (R305). -/
def Screen.tileRecords (z : Screen) (g n : Nat) : Nat :=
  (((List.range 8).findSome? fun c =>
    if bits (z.clsWord c 0) 63 1 = 1 && ((List.range 4).any fun k => z.outRing c k == some g) then some (n / z.pitch c)
    else none)).getD 0

/-- The positions that an image fills at load: pushed in order, the write cursor behind them (R305). -/
def Core.preload (c : Core) (g n : Nat) : Core :=
  let r := c.ring g
  let recs := c.screen.tileRecords g r.tileBytes
  let r := { r with wr := n * r.tileBytes
                    tiles := (List.range n).map fun i => ⟨i, 0, none, r.tileBytes, none, recs⟩ }
  (List.range n).foldl (fun c i => c.push 0 g i) (c.setRing g r)

/-- The ring words of an image and its preload entries. -/
def Image.ringWords (im : Image) : List W64 := (toWords (im.last 7)).take 16
def Image.pushed (im : Image) (g : Nat) : Nat := bits ((toWords (im.last 12)).getD g 0).toNat 0 20

/-- The rings of an image set up in a core (R305): configured, the data sections written, positions pushed. -/
def Core.setRings (c : Core) (im : Image) : Core :=
  let ws := im.ringWords
  let out := c.screen.declared
  let c := (List.range 16).foldl (fun c g => c.newRing 0 g (ringCfg (ws.getD g 0)) (out.contains g)) c
  let c := { c with spad := im.spad }
  (List.range 16).foldl (fun c g => if (c.ring g).nfr = 0 then c else c.preload g (im.pushed g)) c

/-- A core as the loader leaves it. -/
def loadCore (id prank rank : Nat) (words : List W64) (pkgs size : Nat) (tags : Tab Tag) (im : Image) : Core :=
  (bareCore id prank rank words pkgs size tags im).setRings im

/-! What R302 finds wrong with an image. -/

/-- Reserved bits of a record class (R250, FORMAT). -/
def Screen.reservedClass (z : Screen) (c : Nat) : Bool :=
  let w0 := z.clsWord c 0
  bits w0 32 31 != 0 || bits w0 24 5 != 0
    || (List.range 16).any fun j => bits (z.clsWord c (1 + j / 4)) (16 * (j % 4) + 9) 7 != 0

/-- The class words of an image that R250 refuses. -/
def Screen.badClass (z : Screen) (c : Nat) : Bool :=
  let w0 := z.clsWord c 0
  let outs := (List.range 4).filterMap fun k => z.outRing c k
  outs.eraseDups.length != outs.length || (bits w0 29 1 == 1 && bits w0 (20 + bits w0 30 2) 1 == 0)

/-- Reserved bits of the launch header, bank formats, rings, preloads, plan requests or record classes (FORMAT). -/
def Image.reservedSet (im : Image) : Bool :=
  recReservedSet (toWords (im.pkg.getMem im.base 256))
    || ((chunks 40 24 (im.last 6)).any fun e => bits (leNat (e.take 8)) 39 25 != 0)
    || (im.ringWords.any fun w => bits w.toNat 29 35 != 0)
    || ((toWords (im.last 12)).any fun w => bits w.toNat 20 44 != 0)
    || ((chunks 16 65536 (im.last 13)).any fun e =>
      let w0 := leNat (e.take 8)
      let w1 := leNat (e.drop 8)
      bits w0 55 9 != 0 || bits w1 21 43 != 0 || (bits w0 53 2 != 2 && w1 != 0))
    || (List.range 8).any (Screen.loaded im).reservedClass

/-- A section, bank, ring, class, probe set or stage table refused with IMAGE. -/
def Image.refused (im : Image) (words : List W64) (inWindow : Section → Bool) : Bool :=
  let bare := bareCore 0 0 0 words 1 8 [] im
  let bad := (List.range 16).foldl (fun (a : Core × Bool) g =>
    let cfg := ringCfg (im.ringWords.getD g 0)
    (a.1.newRing 0 g cfg false, a.2 || a.1.badRing g cfg || decide (cfg.nfr / max 1 cfg.tile < im.pushed g))) (bare, false)
  (im.secs.any fun x => !sectionFits x || (x.kind == 10 && !inWindow x) || (x.kind == 9 && x.len == 0)
      || (x.kind == 13 && x.len % 16 != 0))
    || ((chunks 40 24 (im.last 6)).any fun e => decide (12 ≤ bits (leNat (e.take 8)) 32 4))
    || bad.2 || decide (16 < ((List.range 24).filter fun b => bits (recPbank words) b 1 == 1).length)
    || ((List.range 8).any bare.screen.badClass) || (bare.screen.shadowBad false).isSome

end Sys2Proof.Machine
end

