-- ==== Sys2Proof/Machine/Launch.lean ====
section
/-! DEFINITION. Launch records, arm and queues (R298, R299, R302 to R309, R312, R360 to R367, R376): the record pool, the
checks of arm, the command queue's status, the scheduler's state. -/

namespace Sys2Proof.Machine

/-! Partitions of the domain (R366, R367). -/

def Package.part (p : Package) (n : Nat) : Partition := Tab.get Partition.reset p.parts n

def Package.setPart (p : Package) (n : Nat) (x : Partition) : Package := { p with parts := Tab.set Partition.reset n x p.parts }

def State.updPart (s : State) (pkg n : Nat) (f : Partition → Partition) : State :=
  s.updPkg pkg fun p => p.setPart n (f (p.part n))

/-- The package of a domain number (R337). -/
def State.byNum (s : State) (n : Nat) : Option Nat := s.pkgs.findIdx? fun p => p.formed && p.num.toNat == n

/-- Packages of the domain in the order of their numbers. -/
def State.domain (s : State) : List Nat := (List.range 2048).filterMap s.byNum

/-- The package that keeps a partition's watermarks and couch order (R314, R367). -/
def State.markHome (s : State) (n : Nat) : Nat :=
  ((s.domain.find? fun q => let x := (s.pkg q).part n; x.valid && x.clus != 0)).getD 0

/-- CUR of a partition (R315). -/
def State.curMark (s : State) (n : Nat) : Nat := ((s.pkg (s.markHome n)).part n).cur.toNat

/-! The record pool (R298). -/

/-- Word `w` of record `i` of a partition's pool on a package. -/
def State.recAddr (s : State) (pkg n i w : Nat) : Nat := ((s.pkg pkg).part n).pool + 256 * i + 8 * w

def State.recWord (s : State) (pkg n i w : Nat) : W64 := (s.pkg pkg).memWord (s.recAddr pkg n i w)

/-- The same word as the mill controller reads it (R280). -/
def State.readRec (s : State) (pkg n i w : Nat) : W64 := (s.asRead pkg).memWord (s.recAddr pkg n i w)

def State.putRec (s : State) (pkg n i w : Nat) (v : W64) : State :=
  s.updPkg pkg fun p => p.putMem (s.recAddr pkg n i w) (leBytes 8 v.toNat)

/-- STATE of a record as it stands in the pool (R312). -/
def State.recState (s : State) (pkg n i : Nat) : Nat := bits (s.recWord pkg n i 23).toNat 0 4

/-- OUTC of a record. -/
def State.recOutc (s : State) (pkg n i : Nat) : Nat := bits (s.recWord pkg n i 24).toNat 32 3

/-- Word 23 of a sheet (R312). -/
def stateWord (sh : Sheet) : W64 := w64 (sh.retries % 32 * 256 + min sh.attempt 15 * 16 + sh.state % 16)

/-- A sheet enters a state, which its record shows (R313). -/
def State.enter (s : State) (id st : Nat) : State :=
  let s := s.updSheet id fun sh => { sh with state := st }
  match s.sheet? id with
  | some sh => s.putRec sh.home sh.part sh.rcd 23 (stateWord sh)
  | none => s

/-- A record refused (R302): OUTC 2 with the code, STATE final. -/
def State.refuseRecord (s : State) (pkg n i code : Nat) (last : W64) : State :=
  let s := (List.range 7).foldl (fun s j => s.putRec pkg n i (25 + j) 0) s
  (s.putRec pkg n i 24 (w64 (2 * 2 ^ 32 + code))).putRec pkg n i 23 last

/-! The checks of arm (R302). -/

/-- R13, a width of 0, SPAN 0 (WORKSPACE). -/
def badWork (ws : List W64) : Bool :=
  let g := recGang ws
  ((List.range 6).any fun j => recWid ws j == 0 || decide (24 < recWid ws j) || decide (2 ^ recWid ws j < recLim ws j))
    || decide (2 ^ 39 < recWork ws) || decide (40 < ((List.range 6).map (recWid ws)).foldl (· + ·) 0)
    || (g != 0 && recPasses ws != (recWork ws + g - 1) / g) || recSpan ws == 0

/-- Bits set among 24. -/
def popcount24 (n : Nat) : Nat := ((List.range 24).filter fun b => bits n b 1 == 1).length

/-- The packages of a record's group, `none` for an entry outside the domain (R299). -/
def State.groupOf (s : State) (p : Package) (ws : List W64) : List (Option Nat) :=
  (List.range (recPkgs ws)).map fun q =>
    let e := leNat (p.getMem (recGrpt ws + 2 * q) 2)
    if e < 2048 then s.byNum e else none

/-- GANG: clusters, PCLS, the group (R302, R367). -/
def State.badGang (s : State) (home n : Nat) (ws : List W64) : Bool :=
  let g := s.groupOf (s.asRead home) ws
  let ps := g.filterMap id
  recCpp ws == 0 || decide (24 < recCpp ws) || (recPin ws && popcount24 (recPcls ws) != recCpp ws)
    || (!recPin ws && recPcls ws != 0) || ps.length != recPkgs ws || ps.eraseDups.length != ps.length
    || ps.head? != some home || ps.any fun q => !((s.pkg q).part n).valid

/-- A region window of a package's region table (R360, R361). -/
def Package.window (p : Package) (pkg a i : Nat) : Window :=
  let w := fun (j : Nat) => (p.memWord (a + 32 * i + 8 * j)).toNat
  let base := bits (w 0) 0 48
  let size := bits (w 1) 0 48
  let n := if size = 0 then 0 else (base + size - 1) / 2 ^ 21 - base / 2 ^ 21 + 1
  let m := bits (w 2) 0 48
  { pkg := pkg, idx := i, base := base, size := size, key := bits (w 3) 16 7, mop := bits (w 3) 8 2
    peer := bits (w 3) 6 1 == 1, wr := bits (w 3) 5 1 == 1, rd := bits (w 3) 4 1 == 1, cls := bits (w 3) 0 3
    exts := (List.range n).map fun e => bits (p.memWord (m + 8 * e)).toNat 0 18 }

/-- The key of a partition's lowest-numbered slot on a package (R369). -/
def Package.saveKey (p : Package) (n : Nat) : List Byte :=
  (((List.range 128).find? (p.part n).keys.getLsbD).map p.keyOf).getD []

/-- The windows of a record on a package. -/
def State.windowsOf (s : State) (pkg : Nat) (ws : List W64) : List Window :=
  (List.range (recNreg ws)).map fun i => (s.asRead pkg).window pkg (recRegt ws) i

/-- Reserved bits of a region entry or its map (R360, R361). -/
def Package.reservedEntry (p : Package) (a i : Nat) (w : Window) : Bool :=
  let word := fun (j : Nat) => (p.memWord (a + 32 * i + 8 * j)).toNat
  bits (word 0) 48 16 != 0 || bits (word 1) 48 16 != 0 || bits (word 2) 48 16 != 0 || bits (word 3) 23 41 != 0
    || bits (word 3) 10 6 != 0 || bits (word 3) 7 1 != 0 || bits (word 3) 3 1 != 0
    || (List.range w.exts.length).any fun e =>
      bits (p.memWord (bits (word 2) 0 48 + 8 * e)).toNat 18 45 != 0

/-- A map entry that is not valid (R361, R364). -/
def Package.badMap (p : Package) (a i : Nat) (w : Window) : Bool :=
  let m := bits (p.memWord (a + 32 * i + 16)).toNat 0 48
  (List.range w.exts.length).any fun e => bits (p.memWord (m + 8 * e)).toNat 63 1 == 0

/-- Reserved bits in the region table of a record: FORMAT, the lower of the codes that R302 and R364 give (log entry 53). -/
def State.reservedRegions (s : State) (pkg : Nat) (ws : List W64) : Bool :=
  (s.windowsOf pkg ws).any fun w => (s.asRead pkg).reservedEntry (recRegt ws) w.idx w

def overlapAny : List Window → Bool
  | [] => false
  | w :: r => (r.any fun v => decide (w.base < v.base + v.size) && decide (v.base < w.base + w.size)) || overlapAny r

/-- Two windows map one physical extent. -/
def shareExtent : List Window → Bool
  | [] => false
  | w :: r => (r.any fun v => w.exts.any v.exts.contains) || shareExtent r

/-- A region table that R364 refuses on a package. -/
def State.badRegions (s : State) (pkg n : Nat) (ws : List W64) : Bool :=
  let p := s.pkg pkg
  let m := s.asRead pkg
  let x := p.part n
  let wins := s.windowsOf pkg ws
  let exts := wins.flatMap (·.exts)
  decide (32 < recNreg ws)
    || (wins.any fun w =>
      m.badMap (recRegt ws) w.idx w || decide (5 < w.cls) || w.base % 4096 != 0 || w.size % 4096 != 0 || w.size == 0
        || (w.wr && (w.cls == clsR || w.cls == clsI)) || (w.mop != 0 && w.cls != clsM) || (w.cls == clsD && !recPriv ws)
        || (w.exts.any fun e => decide (e < x.elo.toNat) || decide (x.ehi.toNat < e) || decide (196607 < e))
        || !(x.keys.getLsbD w.key) || (p.sec != 0 && !(Tab.get KeySlot.reset p.slots w.key).valid))
    || overlapAny wins || shareExtent wins || decide (1 < (wins.filter Window.peer).length)
    || decide (196608 < exts.length) || (!p.badSets.isEmpty && !exts.isEmpty)

/-- The heap windows of a group of packages are missing or disagree (R363); a record on one package needs none (DEDUCED, log
entry 73). -/
def State.heapsDiffer (s : State) (pkgs : List Nat) (ws : List W64) : Bool :=
  let hs := pkgs.map fun q => ((s.windowsOf q ws).find? Window.peer).map fun w => (w.idx, w.base, w.size, w.cls)
  hs.any (fun h => h != hs.headD none) || (decide (1 < pkgs.length) && hs.any Option.isNone)

/-- The first check that a record fails, as its refusal code (R302). -/
def State.armCode (s : State) (home n i : Nat) (ws : List W64) : Option Nat :=
  let p := s.asRead home
  let im := p.image (recImage ws)
  let pkgs := (s.groupOf p ws).filterMap id
  let code := im.columns.flatMap fun c => c.2.allInstrs c.1
  let multi := decide (1 < recPkgs ws)
  let badLenient := recLen ws && (multi || recWdog ws == 0 || code.any fun i =>
    match i with
    | .weave _ _ _ _ _ _ | .rfetch _ _ _ _ _ _ _ | .rstow _ _ _ _ _ _ _ => true
    | i => (waitsSem i).any fun w => w.2)
  let inWin := fun (x : Section) => (s.windowsOf home ws).any fun w => decide (w.base ≤ x.target)
    && decide (x.target + x.len ≤ w.base + w.size)
  let checks : List (Nat × (Unit → Bool)) :=
    [(1, fun _ => rfld ws 0 56 8 != 1 || recReservedSet ws || im.reservedSet
        || pkgs.any fun q => s.reservedRegions q ws),
     (2, fun _ => badWork ws),
     (3, fun _ => s.badGang home n ws),
     (4, fun _ => badLenient || (recPriv ws && !(p.part n).privok) || (recVpol ws && multi)),
     (5, fun _ => im.refused ws inWin),
     (6, fun _ => im.forwardWait),
     (7, fun _ => !(s.planOk p im ws pkgs)),
     (8, fun _ => (pkgs.any fun q => s.badRegions q n ws) || s.heapsDiffer pkgs ws
        || pkgs.any fun q => decide (recCpp ws * (s.pkg q).share < recQuota ws)),
     (9, fun _ => recLo ws == 0 || decide (recHi ws < recLo ws) || decide (1250 < recHi ws)),
     (10, fun _ => (List.range 8).any fun k => decide (2 ^ 15 ≤ recDep ws k) && recDep ws k % 2 ^ 14 == i),
     (11, fun _ => recPmask ws &&& 0xFF80FC03 != 0)]
  (checks.find? fun c => c.2 ()).map (·.1)

/-! Queues (R308, R309). -/

def State.queue (s : State) (pkg n q : Nat) : Queue := Tab.get Queue.reset ((s.pkg pkg).part n).queues q

def State.setQueue (s : State) (pkg n q : Nat) (x : Queue) : State :=
  s.updPart pkg n fun p => { p with queues := Tab.set Queue.reset q x p.queues }

/-- A sheet that waits in its queue: armed, or saved and to be resumed (R308, R310). -/
def Sheet.waits (sh : Sheet) : Bool := sh.state == 1 || (sh.state == 5 && sh.held == .saved)

/-- Saved sheets, the one saved last first (R310). -/
def insertSaved (a : Sheet) : List Sheet → List Sheet
  | [] => [a]
  | b :: r => if b.heldAt ≤ a.heldAt then a :: b :: r else b :: insertSaved a r

/-- The sheets that wait in a queue, head first: saved ones, each of which returned to the head, before the others (R310). -/
def State.inQueue (s : State) (pkg n q : Nat) : List Sheet :=
  let ws := s.sheets.filter fun sh => sh.home == pkg && sh.part == n && recQueue sh.words == q && sh.waits
  (ws.filter fun sh => sh.held == .saved).foldr insertSaved [] ++ ws.filter (fun sh => sh.held != .saved)

/-- The queue becomes backlogged: its PASS takes no credit for idle time (R309). -/
def State.backlog (s : State) (pkg n q : Nat) : State :=
  if !(s.inQueue pkg n q).isEmpty then s
  else
    let others := (List.range 16).filterMap fun i =>
      let o := q / 16 * 16 + i
      if o != q && !(s.inQueue pkg n o).isEmpty then some (s.queue pkg n o).pass.toNat else none
    match others with
    | [] => s
    | o :: r =>
      let x := s.queue pkg n q
      s.setQueue pkg n q { x with pass := w64 (max x.pass.toNat (r.foldl min o)) }

/-- The scheduler of a partition looks for a record to place, from now on. -/
def State.wake (s : State) (n : Nat) : State := s.post s.ttc phSeam none (.placement n)

/-- A sheet as its arm makes it. -/
def armedSheet (id n i home : Nat) (ws : List W64) : Sheet :=
  { id := id, part := n, rcd := i, home := home, words := ws, state := 1, retries := 0, attempt := 0, armSeq := id
    pkgs := [], clusters := [], placed := 0, again := [], gang := [], t0 := 0, swm := 0, priv := recPriv ws, lenient := recLen ws, sec := [], dbg := []
    windows := [], plan := [], holds := 0, hcu := 0, hth := 0, hrel := 0, hcap := 0, hsl := 0, patches := [], pdrop := false
    faults := [], stops := [], settle := 0, stall := none, paced := [], haccs := [], irrev := 0, irrevLines := [], endTtc := 0, span := 0
    held := .none, victim := none, heldAt := 0, skeys := [], mhzSum := 0, mhzAt := 0, links := [], past := [], sbytes := []
    prepared := [], decision := none, vatFaults := [] }

/-- ARMING A RECORD: words 0 to 22 are copied, the image and tables checked; the record is queued or refused (R302).
`true` beside the state: it is queued. -/
def State.armRecord (s : State) (pkg n i : Nat) : State × Bool :=
  let ws := (List.range 23).map fun w => s.readRec pkg n i w
  let code := s.armCode pkg n i ws
  let s := s.spend (s.readCost pkg)
  match code with
  | some code => ((s.refuseRecord pkg n i code 8).wake n, false)
  | none =>
    let id := s.nextSheet
    let s := s.backlog pkg n (recQueue ws)
    let s := { s with sheets := s.sheets ++ [armedSheet id n i pkg ws], nextSheet := id + 1 }
    ((s.enter id 1).wake n, true)

/-! The command queue (R376). -/

/-- The address of the packet being executed: the one at HEAD. -/
def Package.packet (p : Package) : Nat := p.cqBase.toNat + 64 * (p.cqHead.toNat % max 1 p.cqSize.toNat)

/-- STATUS written into word 7, HEAD advanced (R376). -/
def State.finish (s : State) (pkg status : Nat) : State :=
  s.updPkg pkg fun p =>
    let p := p.putMem (p.packet + 56) (leBytes 8 status)
    { p with cqHead := p.cqHead + 1 }

/-- The step that the packet of words `ws` asks for; `none` where it is malformed. -/
def packetAct (pkg : Nat) (ws : List W64) : Option Act :=
  let w := fun (i : Nat) => (ws.getD i 0).toNat
  let rest := fun (i : Nat) => (ws.drop i).take (7 - i)|>.all (· == 0)
  if bits (w 0) 8 8 != 0 || bits (w 0) 32 32 != 0 then none
  else
    match bits (w 0) 0 8 with
    | 1 => if bits (w 1) 3 13 == 0 && bits (w 1) 30 34 == 0 && rest 2 then
        some (.armCommand pkg (bits (w 1) 0 3) (bits (w 1) 16 14)) else none
    | 2 => if w 1 < 8 && bits (w 2) 24 35 == 0 && bits (w 3) 42 22 == 0 && bits (w 3) 18 6 == 0 && rest 6 then
        some (.partition pkg (w 1) (ws.getD 2 0) (ws.getD 3 0) (ws.getD 4 0) (ws.getD 5 0)) else none
    | 3 => if bits (w 1) 23 41 == 0 && bits (w 2) 55 9 == 0 && bits (w 3) 11 5 == 0 && rest 4
          && (List.range 16).all fun n => bits (w 3) (3 * n + 16) 3 != 7 then
        some (.domain pkg (ws.getD 1 0) (ws.getD 2 0) (ws.getD 3 0)) else none
    | 4 => if bits (w 1) 32 32 == 0 && rest 2 then some (.lease pkg (bits (w 1) 0 16) (bits (w 1) 16 16)) else none
    | 5 => if w 1 < 4 && rest 2 then some (.power pkg (w 1)) else none
    | 6 => some (.debugToken pkg ((ws.drop 1).take 6))
    | 7 => if w 1 < 32 && rest 2 then some (.vatcfg pkg (w 1)) else none
    | _ => none

/-- A packet of the package being executed. -/
def isPacket (pkg : Nat) : Act → Bool
  | .armCommand p _ _ | .partition p _ _ _ _ _ | .domain p _ _ _ | .lease p _ _ | .power p _ | .debugToken p _ | .vatcfg p _
  | .malformedPacket p => p == pkg
  | _ => false

/-- The mill controller of the package executes nothing: it is held in reset (R371), or off (R373). -/
def Package.silent (p : Package) : Bool := !p.booted || p.power == 3

/-- The next packet of a package, if one is posted, is executed from now on; one at a time in ring order (R376). A LEASE packet is
executed until its major slot (R377; log entry 56). -/
def State.nextPacket (s : State) (pkg : Nat) : State :=
  let p := s.pkg pkg
  if p.silent || p.cqHead == p.cqTail || p.cqSize = 0 || s.agenda.any (fun e => isPacket pkg e.act)
      || s.leaseReq.any (fun r => r.1 == pkg) then s
  else
    let ws := toWords ((s.asRead pkg).getMem p.packet 64)
    (s.spend (s.readCost pkg)).post s.ttc phSeam none ((packetAct pkg ws).getD (.malformedPacket pkg))

/-- A packet is done with STATUS, and the next one follows. -/
def State.status (s : State) (pkg st : Nat) : State := (s.finish pkg st).nextPacket pkg

/-- ARM (R302, R376). A record that is neither never armed nor final is left as it is; before DOMAIN, and in a partition
that does not exist, the command is refused (R384). -/
def execArmCommand (pkg n i : Nat) (s : State) : Host.Outcome State Fault Refusal :=
  let st := s.recState pkg n i
  let p := s.pkg pkg
  if !p.formed || !(p.part n).valid || (st != 0 && st != 8) then .next (s.status pkg 1)
  else
    let r := s.armRecord pkg n i
    .next (r.1.status pkg (if r.2 then 0 else 1))

/-- MALFORMED PACKET: STATUS 2 (R376). -/
def execMalformedPacket (pkg : Nat) (s : State) : Host.Outcome State Fault Refusal := .next (s.status pkg 2)

end Sys2Proof.Machine
end

