-- ==== Sys2Proof/Machine/Place.lean ====
section
/-! DEFINITION. Placement, loading and alignment (R17, R26, R300 to R311, R316, R353, R361). -/

namespace Sys2Proof.Machine

/-! Clusters. -/

/-- The logical id of position `i` in cluster `c` (die * 12 + cluster; R10). -/
def coreId (c i : Nat) : Nat := c / 12 * 96 + c % 12 * 8 + i

/-- A sheet holds its clusters from its placement to its couch or repulp, unless it is saved (R310). -/
def Sheet.holdsClusters (sh : Sheet) : Bool :=
  decide (2 ≤ sh.state) && decide (sh.state ≤ 7) && sh.held != .saved

def Sheet.clustersOn (sh : Sheet) (pkg : Nat) : List Nat := (sh.clusters.filter fun c => c.1 == pkg).flatMap (·.2)

/-- A cluster that a lasting fault keeps from being used until its core is retired (R352). -/
def Package.unfit (p : Package) (c : Nat) : Bool := p.lasting.any fun ch => ch / 9 == c

/-- The free clusters of a partition on a package of the domain, those of `extra` counted in (R307, R367). -/
def State.freeClusters (s : State) (pkg n : Nat) (extra : List Sheet) : List Nat :=
  let p := s.pkg pkg
  if !p.formed || !(p.part n).valid then [] else
  let used := (s.sheets.filter fun sh => sh.holdsClusters && !(extra.any fun e => e.id == sh.id)).flatMap fun sh => sh.clustersOn pkg
  (List.range 24).filter fun c => (p.part n).clus.getLsbD c && !(Tab.get false p.cmapRet c) && !p.unfit c && !used.contains c

/-! Whether a head can be placed (R307). -/

inductive Fit where
  | refuse (code : Nat)
  | wait
  | noRoom
  | fits (cs : List (Nat × List Nat))
  deriving DecidableEq, Repr

/-- The clusters a record takes on a package. -/
def takeClusters (ws : List W64) (free : List Nat) : Option (List Nat) :=
  if recPin ws then
    let want := (List.range 24).filter fun c => bits (recPcls ws) c 1 == 1
    if want.all free.contains then some want else none
  else if recCpp ws ≤ free.length then some (free.take (recCpp ws)) else none

/-- The clusters of an earlier attempt on which a sheet is relaunched, unless one of them has been retired (R351 to R353). -/
def State.sameCores (s : State) (sh : Sheet) : Bool :=
  !sh.again.isEmpty && sh.again.all fun c => c.2.all fun n => !(Tab.get false (s.pkg c.1).cmapRet n)

/-- Whether a waiting sheet fits, the clusters of `extra` counted as free. A saved sheet goes on the clusters it held. A package of
the group table that has left the domain has no clusters for it. -/
def State.fit (s : State) (sh : Sheet) (extra : List Sheet) : Fit :=
  let on := fun (cs : List (Nat × List Nat)) =>
    if cs.all fun c => c.2.all (s.freeClusters c.1 sh.part extra).contains then Fit.fits cs else .noRoom
  if sh.held = .saved then on sh.clusters
  else
    let deps := (List.range 8).filterMap fun k => let d := recDep sh.words k; if 2 ^ 15 ≤ d then some (d % 2 ^ 14) else none
    let st := deps.map fun i => (s.recState sh.home sh.part i, s.recOutc sh.home sh.part i)
    let group := s.groupOf (s.asRead sh.home) sh.words
    let pkgs := group.filterMap id
    if st.any fun d => d.1 == 8 && d.2 != 0 then .refuse 10
    else if recPin sh.words && pkgs.any fun q => (List.range 24).any fun c =>
        bits (recPcls sh.words) c 1 == 1 && Tab.get false (s.pkg q).cmapRet c then .refuse 3
    else if (st.any fun d => d.1 != 8) || s.mhz < recLo sh.words || recHi sh.words < s.mhz then .wait
    else if group.any Option.isNone then .noRoom
    else if s.sameCores sh then on sh.again
    else
      let cs := pkgs.map fun q => (takeClusters sh.words (s.freeClusters q sh.part extra)).map fun c => (q, c)
      if cs.all Option.isSome then .fits (cs.filterMap id) else .noRoom

/-! Selection (R309, R310). -/

/-- The heads of the queues of a class on all packages, where TICKETS is not 0: package, queue, sheet. -/
def State.heads (s : State) (n cls : Nat) : List (Nat × Nat × Sheet) :=
  s.domain.flatMap fun pkg => (List.range 16).filterMap fun i =>
    let q := 16 * cls + i
    if (s.queue pkg n q).tickets = 0 then none else (s.inQueue pkg n q).head?.map fun sh => (pkg, q, sh)

/-- What the scheduler does next. -/
inductive Choice where
  | none
  | refuse (sh : Sheet) (code : Nat)
  | place (sh : Sheet) (cs : List (Nat × List Nat))
  | victims (vs : List Nat) (rcd : Nat)
  deriving DecidableEq, Repr

/-- Victims in the order of R310: highest class first, within a class the latest placed first. -/
def victimBefore (a b : Sheet) : Bool :=
  let ca := recQueue a.words / 16
  let cb := recQueue b.words / 16
  decide (cb < ca) || (ca == cb && decide (b.placed < a.placed))

def insertVictim (a : Sheet) : List Sheet → List Sheet
  | [] => [a]
  | b :: r => if victimBefore a b then a :: b :: r else b :: insertVictim a r

/-- The sheets that a head of class `cls` may pre-empt. -/
def State.preemptible (s : State) (n cls : Nat) : List Sheet :=
  (s.sheets.filter fun v => v.part == n && v.state == 5 && v.held == .none && decide (cls < recQueue v.words / 16)
    && !(v.irrev != 0 && recSave v.words == 0)).foldr insertVictim []

/-- Victims taken until the head fits. -/
def State.takeVictims (s : State) (sh : Sheet) : List Sheet → List Sheet → Option (List Sheet)
  | taken, [] => match s.fit sh taken with
    | .fits _ => some taken
    | _ => none
  | taken, v :: vs => match s.fit sh taken with
    | .fits _ => some taken
    | _ => s.takeVictims sh (taken ++ [v]) vs

/-- The queue of lowest PASS among heads that fit; a tie goes to the lower queue (R309). -/
def State.best (s : State) (n : Nat) : List (Nat × Nat × Sheet) → Option (Sheet × List (Nat × List Nat) × Nat × Nat)
  | [] => none
  | (pkg, q, sh) :: r =>
    let rest := s.best n r
    match s.fit sh [] with
    | .fits cs =>
      let p := (s.queue pkg n q).pass.toNat
      match rest with
      | some b => if b.2.2.1 < p || (b.2.2.1 == p && decide (b.2.2.2 < q)) then rest else some (sh, cs, p, q)
      | none => some (sh, cs, p, q)
    | _ => rest

/-- The first of some heads that is never placed, with its refusal code (R307). -/
def State.refusable (s : State) (hs : List (Nat × Nat × Sheet)) : Option (Sheet × Nat) :=
  hs.findSome? fun h => match s.fit h.2.2 [] with
    | .refuse c => some (h.2.2, c)
    | _ => none

/-- The head to place from class `cls` on, or the victims of one that has no clusters; the first argument counts the classes left
(R309, R310). -/
def State.seek (s : State) (n : Nat) : Nat → Nat → Choice
  | 0, _ => .none
  | f + 1, cls =>
    let hs := s.heads n cls
    match s.best n hs with
    | some b => .place b.1 b.2.1
    | none =>
      let short := hs.filter fun h => s.fit h.2.2 [] == .noRoom
      if short.isEmpty then s.seek n f (cls + 1)
      else
        let vs := short.findSome? fun h =>
          match s.takeVictims h.2.2 [] (s.preemptible n cls) with
          | some vs => if vs.all fun v => v.victim.isSome then none else some (vs.map (·.id), h.2.2.rcd)
          | none => none
        match vs with
        | some v => .victims v.1 v.2
        | none => .none

/-- The scheduler's choice among `f` classes from `cls` on: a head of any of them that is never placed is refused first, whatever
class waits for clusters (R307). -/
def State.choose (s : State) (n f cls : Nat) : Choice :=
  match s.refusable ((List.range' cls f).flatMap (s.heads n)) with
  | some (sh, c) => .refuse sh c
  | none => s.seek n f cls

/-- PASS of a queue advanced at a placement (R309). -/
def State.charge (s : State) (sh : Sheet) : State :=
  let q := recQueue sh.words
  let x := s.queue sh.home sh.part q
  let cost := 2 ^ 20 / max 1 x.tickets.toNat * 8 * recCpp sh.words * recPkgs sh.words * recSpan sh.words
  s.setQueue sh.home sh.part q { x with pass := w64 (min (x.pass.toNat + (cost + 65535) / 65536) (2 ^ 64 - 1)) }

/-! Loading. -/

/-- Bytes written in place at a virtual address of a sheet's window (R304), under the partition's save key (R369). -/
def State.placeBytes (s : State) (sh : Sheet) (pkg va : Nat) (bs : List Byte) : State :=
  match sh.window? pkg va bs.length with
  | none => s
  | some w =>
    let key := (s.pkg pkg).saveKey sh.part
    (cutLines (bs.length / 64 + 2) va (bs.map some)).foldl (fun s c =>
      s.untimedLine pkg key (w.phys (64 * c.1) / 64) c.2.1 c.2.2) s

/-- The logical ids of a gang on a package, ascending (R11). -/
def gangIds (cs : List Nat) : List Nat := cs.flatMap fun c => (List.range 8).map (coreId c)

/-- The cores of a gang by rank: key, package rank, rank. -/
def gangOf (cs : List (Nat × List Nat)) : List (Nat × Nat × Nat) :=
  ((cs.zipIdx).flatMap fun c => (gangIds c.1.2).map fun i => (coreKey c.1.1 i, c.2)).zipIdx.map fun e => (e.1.1, e.1.2, e.2)

/-- Placement returns an idle package to the active state (R373). -/
def State.wakePkgs (s : State) (qs : List Nat) : State :=
  qs.foldl (fun s q => s.updPkg q fun p => if p.power = 1 then { p with power := 0 } else p) s

/-- A sheet's attempt begins: its clusters, its gang, every core loaded, HBM data sections in place (R300 to R305). -/
def State.load (s : State) (sh : Sheet) (cs : List (Nat × List Nat)) : State :=
  let pkgs := cs.map (·.1)
  let g := gangOf cs
  let m := s.asRead sh.home
  let im := m.image (recImage sh.words)
  let sh' := { sh with
    pkgs := pkgs, clusters := cs, placed := s.placements, again := [], gang := g.map (·.1), attempt := sh.attempt + 1
    windows := pkgs.flatMap fun q => s.windowsOf q sh.words, plan := m.plan (recPlan sh.words)
    holds := 0, hcu := 0, hth := 0, hrel := 0, hcap := 0, hsl := 0, patches := [], pdrop := false, faults := [], stops := []
    settle := 0, stall := none, paced := [], haccs := [], irrev := 0, irrevLines := [], endTtc := 0, span := 0, held := .none, victim := none, skeys := []
    mhzSum := 0, mhzAt := 0, links := [], past := [], sbytes := [], prepared := [], decision := none
    vatFaults := [] }
  let s := { s.spend (s.readCost sh.home) with placements := s.placements + 1 }.updSheet sh.id fun _ => sh'
  let s := (s.enter sh.id 2).wakePkgs pkgs
  let s := { s with cores := g.foldl (fun (cs : Tab Core) (e : Nat × Nat × Nat) =>
    Tab.put e.1 (loadCore sh.id e.2.1 e.2.2 sh.words pkgs.length g.length (Tab.get [] s.frames e.1) im) cs) s.cores }
  let s := pkgs.foldl (fun s q => (im.of 10).foldl (fun s x => s.placeBytes sh' q x.target (im.bytes x)) s) s
  let s := s.enter sh.id 3
  (s.post (4096 * (s.ttc / 4096 + 1 + Config.loading s.free)) phSeam (some sh.id) (.sheetAlignment sh.id)).spend 1

/-- A sheet whose record is final leaves the machine (R313). -/
def State.drop (s : State) (id : Nat) : State :=
  { s with
    sheets := s.sheets.filter fun x => x.id != id
    agenda := s.agenda.filter fun e => e.sh != some id
    savedEvents := s.savedEvents.filter fun e => e.1 != id
    savedCores := s.savedCores.filter fun e => e.1 != id
    cores := s.cores.filter fun e => e.2.sh != id }

/-- A step posted now unless it is already. -/
def State.postOnce (s : State) (id : Nat) (a : Act) : State :=
  if s.agenda.any (fun e => e.act == a) then s else s.post s.ttc phSeam (some id) a

/-- The couches of a partition are looked at again: sheets that have ended or wait in their couch (R324, R327, R328), and
sheets frozen for an irrevocable couch (R323). -/
def State.pump (s : State) (n : Nat) : State :=
  s.sheets.foldl (fun s sh =>
    if sh.part != n then s
    else if sh.state == 6 || (sh.state == 7 && sh.pkgs.length ≤ 1) then s.postOnce sh.id (.couch sh.id)
    else if sh.state == 7 && sh.decision.isNone then
      if sh.prepared.length = sh.pkgs.length then s.postOnce sh.id (.couchDecide sh.id)
      else sh.pkgs.foldl (fun s q =>
        if sh.prepared.any (fun e => e.1 == q) then s else s.postOnce sh.id (.couchPrepare sh.id q)) s
    else if sh.state == 5 && sh.irrev == 2 && sh.held == .inPlace then s.postOnce sh.id (.irrevocableCouch sh.id)
    else s) s

/-- A head is placed or gone: the sheets chosen for it are no victims any more (R310). -/
def State.unmark (s : State) (n rcd : Nat) : State :=
  { s with sheets := s.sheets.map fun sh => if sh.part == n && sh.victim == some rcd then { sh with victim := none } else sh }

/-- PLACEMENT: the scheduler of a partition places or refuses one head, or chooses victims (R307, R309, R310). -/
def execPlacement (n : Nat) (s : State) : Host.Outcome State Fault Refusal :=
  match s.choose n 4 0 with
  | .none => .next s
  | .refuse sh code =>
    .next ((((s.unmark n sh.rcd).refuseRecord sh.home sh.part sh.rcd code (stateWord { sh with state := 8 })).drop sh.id).wake n
      |>.pump n)
  | .place sh cs =>
    let s := s.unmark n sh.rcd
    if sh.held = .saved then .next ((s.updSheet sh.id fun x => { x with held := .restore }).wake n)
    else .next (((s.charge sh).load sh cs).wake n)
  | .victims vs rcd =>
    .next { s with sheets := s.sheets.map fun sh => if vs.contains sh.id then { sh with victim := some rcd } else sh }

/-! Alignment (R17, R26, R313, R316). -/

/-- The address of a word of a column that may not stand there: a first word that is no ALIGN with Y = 1 and D = 0, or an
ALIGN elsewhere (R26). -/
def Column.misaligned (o : Column) (c : Col) : Option Nat :=
  let w := (o.word 0).toNat
  if o.tagged 0 || o.instrAt c 0 != some .align then some 0
  else if bits w 29 3 != 4 then some 0
  else (List.find? (fun (e : Nat × W32) => e.1 != 0 && o.instrAt c e.1 == some .align) o.code).map (·.1)

/-- The faults of a core whose columns are misaligned. -/
def Core.alignFaults (c : Core) (k : Nat) : List CFault :=
  allCols.filterMap fun o => ((c.col o).misaligned o).map fun a =>
    ⟨cIllegal, 0, ⟨k, o, a, 0, 0⟩, 0, ((c.col o).word a).setWidth 64, 0, 0⟩

/-- No column issues. -/
def Core.still (c : Core) : Core := allCols.foldl (fun c o => c.setCursor o { (c.col o).cu with ended := some 0 }) c

/-- A sheet's reservations from T0 on meet those of a running sheet (R243). -/
def State.planMeets (s : State) (sh : Sheet) (t0 : Nat) : Bool :=
  s.sheets.any fun o => o.id != sh.id && o.state == 5 && o.held != .saved && sh.plan.any fun a => o.plan.any fun b =>
    sh.pkgs.getD a.prank 0 == o.pkgs.getD b.prank 0 && a.port == b.port && a.lanes &&& b.lanes != 0
      && decide (t0 + a.first < o.t0 + b.first + b.cycles) && decide (o.t0 + b.first < t0 + a.first + a.cycles)

/-- What sheets of the partition that run irrevocably have written in place: a sheet aligned meanwhile reads each byte of it old or
new (R323). -/
def State.inherited (s : State) (n : Nat) : List Past :=
  (s.sheets.filter fun o => o.inPlace && o.part == n).flatMap fun o =>
    (o.past.filter fun p => p.who.any fun u => u.1 == o.id && (u.2 == clsT || u.2 == clsM)).map fun p =>
      { p with from_ := 0, till := none, acc := none }

/-- SHEET ALIGNMENT: T0 is this seam, the start watermark is sampled, the sheet runs from task cycle 0; where its
reservations meet another sheet's, the next seam is tried (R17, R243, R313, R316). -/
def execSheetAlignment (id : Nat) (s : State) : Host.Outcome State Fault Refusal :=
  match s.sheet? id with
  | none => .next s
  | some sh =>
    if sh.state != 3 then .next s
    else if s.planMeets sh s.ttc then .next (s.post (s.ttc + 4096) phSeam (some id) (.sheetAlignment id))
    else
      let s := s.updSheet id fun x => { x with
        t0 := s.ttc, swm := s.curMark sh.part, past := s.inherited sh.part, sec := sh.pkgs.map fun q => (s.pkg q).sec
        dbg := sh.pkgs.map fun q => ((s.pkg q).part sh.part).dbg }
      let s := (s.enter id 4).enter id 5
      let s := if recWdog sh.words = 0 then s else s.post (s.ttc + recWdog sh.words) phWatch (some id) (.watchdog id)
      let bad := sh.pkgs.filterMap fun q => sh.gang.find? fun k => keyPkg k == q
      let fs := bad.flatMap fun k => ((s.core? k).map fun c => c.alignFaults k).getD []
      if fs.isEmpty then .next s
      else .next ({ s with cores := s.cores.map fun (e : Nat × Core) => if e.2.sh == id then (e.1, e.2.still) else e }.raiseAll id fs)

end Sys2Proof.Machine
end

