-- ==== Sys2Proof/Machine/Sheets.lean ====
section
/-! DEFINITION. How a sheet stops and ends (R33 to R36, R39, R309 to R313, R329, R342 to R349, R359): the stop of a faulted
gang, the watchdog, the end, the repulp with its completion record, patches and arms held until the couch (R248, R249). -/

namespace Sys2Proof.Machine

/-! The fault records of a sheet. -/

/-- A core of a sheet, on its clusters or in its save (R356). -/
def State.coreOf (s : State) (id k : Nat) : Option Core :=
  match s.core? k with
  | some c => if c.sh == id then some c else none
  | none => (s.savedCores.find? fun e => e.1 == id && e.2.1 == k).map (·.2.2)

/-- The task cycle at which a sheet stands: 0 before its alignment, where it was stopped while it is off its clock (R17), its span once
it has ended (R345). -/
def State.taskOf (s : State) (sh : Sheet) : Nat :=
  if sh.state < 4 then 0 else if 6 ≤ sh.state then sh.span else (if sh.held = .none then s.ttc else sh.heldAt) - sh.t0

/-- The record of a cause of the whole sheet: rank 0, column S, the word that S would issue next (R345). `k` is the core
it names. -/
def State.wholeRec (s : State) (sh : Sheet) (pkg k cause sub task : Nat) (d0 d1 d2 : W64) : FaultRec :=
  let c := s.coreOf sh.id k
  { pkg := pkg, ch := none, margin := false, cause := cause, sub := sub, whole := true, k := k, core := if sh.gang.isEmpty then 0xFF else keyId k
    rank := (c.map fun c => c.rank).getD 0, col := .S, word := (c.map fun c => (c.col .S).cu.pc).getD 0, task := task
    d0 := d0, d1 := d1, d2 := d2 }

/-- A cause of the whole sheet at the cycle at which it stands, named on rank 0 (R345). -/
def State.whole (s : State) (sh : Sheet) (pkg cause sub : Nat) (d0 d1 d2 : W64) : FaultRec :=
  s.wholeRec sh pkg (sh.gang.headD 0) cause sub (s.taskOf sh) d0 d1 d2

/-- A fault logged on its package (R342, R346); one that an uncorrectable error causes counts as its event (R351). -/
def State.logFault (s : State) (sh : Sheet) (f : FaultRec) : State :=
  s.updPkg f.pkg fun p => p.event s.ttc (if f.margin then 3 else if f.hard then 2 else 0) (f.channel p)
    ⟨f.cause, f.sub, f.core, f.col.code, f.rank, f.word, sh.part, f.task, sh.attempt, sh.rcd, f.d0, f.d1, f.d2⟩

/-! PEER_ABORT_STOP (R34). -/

/-- PEER_ABORT as package `q` reports it for a fault of another (R34, R343). -/
def State.peerRec (s : State) (sh : Sheet) (q : Nat) (f : FaultRec) (t : Nat) : FaultRec :=
  { s.whole sh q cPeer 0 (w64 (indexOf f.pkg sh.pkgs)) (w64 (f.cause + 256 * f.sub)) 0 with task := t }

/-- The fault whose message stops package `q` at task cycle `t`. -/
def State.stopCause (s : State) (sh : Sheet) (q t : Nat) : Option FaultRec :=
  match sh.faults.find? fun f => f.task + 768 * s.hops f.pkg q + 64 == t with
  | some f => some f
  | none => sh.faults.head?

/-- The place of a cause among those of one word (R345). -/
def causeRank (cause sub : Nat) : Nat :=
  let order := [cIllegal, cLiteral, cRange, cUncorrectable, cRegion, cProtect, cMiss, cBusy, cLane, cRmw, cCoincident, cTrap,
    cVatCap, cAbort]
  let score := [mScore, mRendezvous, mSwait, mRing, mTag, mLate]
  16 * indexOf cause order + (if cause = cMiss then indexOf sub score else 0)

/-- Two causes that one word meets at one cycle. -/
def FaultRec.meets (f g : FaultRec) : Bool :=
  !f.whole && !g.whole && f.pkg == g.pkg && f.k == g.k && f.col == g.col && f.word == g.word && f.task == g.task

/-- A cause among faults: of one word and cycle the first in the order of R345 stays. -/
def insertCause (fs : List FaultRec) (f : FaultRec) : List FaultRec :=
  if fs.any f.meets then
    fs.map fun g => if f.meets g && decide (causeRank f.cause f.sub < causeRank g.cause g.sub) then f else g
  else fs ++ [f]

/-- The faults that some causes come to: one for each word and cycle (R345). -/
def firstCauses (fs : List FaultRec) : List FaultRec := fs.foldl insertCause []

/-- What package `q` reports: its own faults up to now, else PEER_ABORT. -/
def State.stopFaults (s : State) (sh : Sheet) (q t : Nat) : List FaultRec :=
  match firstCauses (sh.faults.filter fun f => f.pkg == q && decide (f.task ≤ t)) with
  | [] =>
    match s.stopCause sh q t with
    | some f => [s.peerRec sh q f t]
    | none => []
  | fs => fs

/-- Errors of package `q` that its stop leaves without a fault: causes after the first of their word, and faults of later cycles
(R345, R348). -/
def Sheet.lostErrors (sh : Sheet) (q : Nat) (kept : List FaultRec) : List FaultRec :=
  sh.faults.filter fun f => f.pkg == q && f.hard && !(kept.contains f)

/-- WATCHDOG comes in the cycle WDOG on a home package that stops in it: the sheet has not ended by the end of that cycle (R33,
R345, R359). -/
def State.watched (s : State) (sh : Sheet) (q t : Nat) : State :=
  if q = sh.home && recWdog sh.words != 0 && t == recWdog sh.words && !(sh.faults.any fun f => f.cause == cWatchdog) then
    s.raise sh.id (s.whole sh q cWatchdog 0 (w64 t) 0 0)
  else s

/-- The gang's cores on a package issue no more. -/
def State.halt (s : State) (id q : Nat) : State :=
  { s with cores := s.cores.map fun (e : Nat × Core) => if e.2.sh == id && keyPkg e.1 == q then (e.1, e.2.still) else e }

/-- The sheet's steps come back to the agenda, moved by the time it was off its clock (R17, R357). -/
def State.unshelve (s : State) (id by_ : Nat) : State :=
  let back := ((s.savedEvents.filter fun e => e.1 == id).flatMap (·.2)).map fun e => { e with ttc := e.ttc + by_ }
  let cores := (s.savedCores.filter fun e => e.1 == id).map (·.2)
  { s with
    agenda := s.agenda ++ back
    savedEvents := s.savedEvents.filter fun e => e.1 != id
    savedCores := s.savedCores.filter fun e => e.1 != id
    cores := cores.foldl (fun (cs : Tab Core) (e : Nat × Core) => Tab.put e.1 e.2 cs) s.cores }

/-- A sheet off its clock but on its clusters goes on, with every task cycle where it was (R17). -/
def State.backOnClock (s : State) (sh : Sheet) : State :=
  let gap := s.ttc - sh.heldAt
  (s.unshelve sh.id gap).updSheet sh.id fun x => { x with t0 := x.t0 + gap, held := .none }

/-- Bytes of a saved sheet's transfer performed now. -/
def State.performSaved (s : State) (x : Xfer) (off : Nat) (data : List Byte) : State :=
  if data.isEmpty then s else s.performBytes x.sh (xferAccess x) (x.va + off) data

/-- The writes that a saved sheet has issued are performed, from the bytes saved with their entries and from its saved
scratchpads, and its weaves come to their end (R329, R356). -/
def State.performAll (s : State) (sh : Sheet) : State :=
  let todo := ((s.savedEvents.filter fun e => e.1 == sh.id).flatMap (·.2)).map Event.act
  let cores := ((s.savedCores.filter fun e => e.1 == sh.id).map (·.2)).foldl (fun (cs : Tab Core) (e : Nat × Core) => Tab.put e.1 e.2 cs) []
  let u := todo.foldl (fun s a =>
    match a with
    | .hbmPerform x off data => s.performSaved x off data
    | .laneBeat m ps =>
      match m.kind, s.core? m.k with
      | .stow x, some c => ps.foldl (fun s p => s.performSaved x p.off (Tab.slice 0 c.spad p.addr p.len)) s
      | _, _ => s
    | _ => s) { s with cores := cores }
  { u.finishWeaves todo with cores := s.cores }

/-- Every package has stopped: the repulp follows once the gang's transfers have performed or landed (R329). Those of a sheet
frozen in place go on for it; those of a saved one are performed now. -/
def State.repulpSoon (s : State) (sh : Sheet) : State :=
  let soon := fun (s : State) => s.post (max s.ttc (sh.t0 + sh.settle)) phStop (some sh.id) (.repulp sh.id)
  match sh.held with
  | .none => soon s
  | .saved => (s.performAll sh).post s.ttc phStop (some sh.id) (.repulp sh.id)
  | _ => (s.backOnClock sh).post (max s.ttc (sh.t0 + (s.ttc - sh.heldAt) + sh.settle)) phStop (some sh.id) (.repulp sh.id)

/-- PEER ABORT STOP: at the end of this cycle the gang's cores on package `q` stop issuing, and the package logs its
faults (R34, R342, R345). -/
def execPeerAbortStop (id q : Nat) (s : State) : Host.Outcome State Fault Refusal :=
  match s.sheet? id with
  | none => .next s
  | some sh =>
    if sh.state != 5 || (sh.stopAt q).isSome then .next s
    else
      let t := s.taskOf sh
      let s := s.watched sh q t
      let sh := (s.sheet? id).getD sh
      let fs := s.stopFaults sh q t
      let s := fs.foldl (fun s f => (s.logFault sh f).marginCheck f) s
      let s := (sh.lostErrors q fs).foldl State.hardEvent s
      let sh' := { sh with
        stops := sh.stops ++ [(q, t)], faults := sh.faults ++ fs.filter fun f => f.cause == cPeer }
      let s := (s.halt id q).updSheet id fun _ => sh'
      .next (if sh'.pkgs.all fun p => (sh'.stopAt p).isSome then s.repulpSoon sh' else s)

/-- A cause of the whole sheet that every package meets at this seam: no word issues at its task cycle (R310, R335). -/
def State.raiseAtSeam (s : State) (id : Nat) (f : FaultRec) : State :=
  match s.sheet? id with
  | none => s
  | some sh =>
    let s := s.updSheet id fun x => { x with faults := x.faults ++ [f] }
    sh.pkgs.foldl (fun s q => s.post s.ttc phSeam (some id) (.peerAbortStop id q)) s

/-- WATCHDOG: the sheet has not ended by the end of task cycle WDOG (R39, R359). -/
def execWatchdog (id : Nat) (s : State) : Host.Outcome State Fault Refusal :=
  match s.sheet? id with
  | none => .next s
  | some sh =>
    if sh.state != 5 || (sh.stopAt sh.home).isSome then .next s
    else .next (s.raise id (s.whole sh sh.home cWatchdog 0 (w64 (recWdog sh.words)) 0 0))

/-! SHEET_END (R33). -/

/-- Every column of every core of the gang has issued END. -/
def State.allEnded (s : State) (sh : Sheet) : Bool :=
  sh.gang.all fun k => match s.core? k with
    | some c => allCols.all fun o => (c.col o).cu.ended.isSome
    | none => true

/-- Clock and task cycles counted into the mean of the attempt (R312). -/
def Sheet.clocked (sh : Sheet) (mhz t : Nat) : Sheet :=
  { sh with mhzSum := sh.mhzSum + mhz * (t - sh.mhzAt), mhzAt := t }

/-- SHEET END: every column has ended and every transfer has performed or landed; the sheet waits for its couch (R33,
R313). A fault ends it otherwise. -/
def execSheetEnd (id : Nat) (s : State) : Host.Outcome State Fault Refusal :=
  match s.sheet? id with
  | none => .next s
  | some sh =>
    let t := s.task sh
    if sh.state != 5 || !sh.stops.isEmpty || !s.allEnded sh || sh.faults.any (fun f => decide (f.task ≤ t)) then .next s
    else if t < sh.settle then .next (s.post (sh.t0 + sh.settle) phStop (some id) (.sheetEnd id))
    else
      let s := s.updSheet id fun x => { x.clocked s.mhz t with endTtc := s.ttc, span := t }
      .next ((s.enter id 6).pump sh.part)

/-! The completion record (R312). -/

/-- What an attempt's completion record says beside its counts. -/
structure Outcome where
  outc : Nat
  cause : Nat
  sub : Nat
  rank : Nat
  col : Nat
  word : Nat
  ftask : Nat
  data : W64
  deriving DecidableEq, Repr

/-- A couched sheet: its watermark. -/
def Outcome.couched (w : Nat) : Outcome := ⟨0, 0, 0, 0, 0, 0, 0, w64 w⟩

def FaultRec.outcome (f : FaultRec) : Outcome := ⟨1, f.cause, f.sub, f.rank, f.col.code, f.word, f.task, f.d0⟩

/-- Words 24 to 31; `energy` stands for the measured energies (R312). WORD of a fault at address 0x2000 is 0 (DESIGN CHOICE, log
entry 65). -/
def completionWords (sh : Sheet) (o : Outcome) (mhz span : Nat) (energy : W64) : List W64 :=
  [w64 (o.rank % 2 ^ 19 * 2 ^ 45 + (if sh.pdrop then 2 ^ 44 else 0) + o.outc % 8 * 2 ^ 32 + o.word % 8192 * 2 ^ 19
      + o.col % 4 * 2 ^ 17 + (if sh.inPlace then 2 ^ 16 else 0) + o.sub % 256 * 2 ^ 8 + o.cause % 256),
   w64 (o.ftask % 2 ^ 48), o.data, w64 sh.t0, w64 (mhz % 2 ^ 16 * 2 ^ 48 + span % 2 ^ 48), energy,
   w64 (sh.hcu % 2 ^ 32 * 2 ^ 32 + sh.hth % 2 ^ 32),
   w64 (sh.hrel % 2 ^ 21 * 2 ^ 42 + sh.hcap % 2 ^ 21 * 2 ^ 21 + sh.hsl % 2 ^ 21)]

/-- The completion record of an attempt that ends after `span` task cycles, written into words 24 to 31 (R312). -/
def State.complete (s : State) (id span : Nat) (o : Outcome) : State :=
  match s.sheet? id with
  | none => s
  | some sh =>
    let x := sh.clocked s.mhz span
    let ws := completionWords sh o (if span = 0 then s.mhz else x.mhzSum / span) span (Config.word s.free)
    (ws.zipIdx.foldl (fun s w => s.putRec sh.home sh.part sh.rcd (24 + w.2) w.1) s).spend 1

/-! Held patches and arms (R248, R249, R306). -/

/-- A word of a record as the pool and this sheet's held patches leave it. -/
def State.heldWord (s : State) (sh : Sheet) (pkg i w : Nat) : W64 :=
  sh.patches.foldl (fun v e =>
    if keyPkg e.2.k == pkg && e.2.rcd == i && e.2.field == w then e.2.val.getD v else v) (s.recWord pkg sh.part i w)

/-- The record is armed, in the pool or by an ARM that this sheet holds. -/
def State.heldArmed (s : State) (sh : Sheet) (pkg i : Nat) : Bool :=
  let st := bits (s.heldWord sh pkg i 23).toNat 0 4
  (st != 0 && st != 8) || sh.patches.any fun e => keyPkg e.2.k == pkg && e.2.rcd == i && e.2.val.isNone

/-- PATCH ARM CHECK at issue + 832: the word is held, or faults with WINDOW, FIELD or ARMED (R248). -/
def execPatchArmCheck (h : Held) (d : Desc) (s : State) : Host.Outcome State Fault Refusal :=
  match s.sheet? h.sh with
  | none => .next s
  | some sh =>
    let t := s.task sh
    let pkg := keyPkg h.k
    let fault := fun (sub : Nat) => s.raiseAll h.sh [⟨cRegion, sub, d, t, w64 h.rcd, 0, 0⟩]
    if 16384 ≤ h.rcd then .next (fault rWindow)
    else if h.val.isSome && bits (s.heldWord sh pkg h.rcd 15).toNat (32 + h.field) 1 = 0 then .next (fault rField)
    else if s.heldArmed sh pkg h.rcd then .next (fault rArmed)
    else .next (s.updSheet h.sh fun x => { x with patches := x.patches ++ [(t, h)] })

/-- A held word applied; it is dropped where its record has been armed meanwhile (R249, R306). -/
def State.applyHeld (s : State) (id n : Nat) (h : Held) : State :=
  let pkg := keyPkg h.k
  let st := s.recState pkg n h.rcd
  if st != 0 && st != 8 then s.updSheet id fun x => { x with pdrop := true }
  else match h.val with
    | some v => s.putRec pkg n h.rcd h.field v
    | none => (s.armRecord pkg n h.rcd).1

/-- All held words of a couching sheet in the order of their checks. -/
def State.applyPatches (s : State) (id : Nat) : State :=
  match s.sheet? id with
  | none => s
  | some sh => sh.patches.foldl (fun s e => s.applyHeld id sh.part e.2) s

/-! The end of an attempt. -/

/-- A frame's tag with all its advances (R80). -/
def Tag.settled (g : Tag) : Tag := ⟨g.val + BitVec.ofNat 16 g.inc, 0, 0⟩

/-- The cores of a sheet leave the machine; their frames keep their tags (R80). -/
def State.keepTags (s : State) (id : Nat) : State :=
  let mine := (s.cores.filter fun e => e.2.sh == id) ++ (s.savedCores.filter fun e => e.1 == id).map (·.2)
  { s with frames := mine.foldl (fun (fs : Tab (Tab Tag)) (e : Nat × Core) =>
      Tab.set [] e.1 (Tab.change ⟨0, 0, 0⟩ (fun _ (g : Tag) => g.settled) e.2.tags) fs) s.frames }

/-- A block whose frozen sheet is gone freezes nothing (R382). -/
def DebugBlock.thaw (d : DebugBlock) (id : Nat) : DebugBlock :=
  if d.held == some id then { d with frozen := false, held := none, scanLeft := 0 } else d

/-- What an attempt holds is released: cores, pending steps, vat lines, open destinations (R310, R329). -/
def State.release (s : State) (id : Nat) : State :=
  let s := s.keepTags id
  { s with
    agenda := s.agenda.filter fun e => e.sh != some id
    savedEvents := s.savedEvents.filter fun e => e.1 != id
    savedCores := s.savedCores.filter fun e => e.1 != id
    cores := s.cores.filter fun e => e.2.sh != id
    pkgs := s.pkgs.map fun p => { p with
      vat := p.vat.filter fun v => v.sh != id, runs := p.runs.filter fun r => r.sh != id
      parts := Tab.change Partition.reset (fun _ (x : Partition) => { x with dblk := x.dblk.thaw id }) p.parts } }

/-! OLDEST and drains (R315, R319, R327). -/

/-- A sheet whose start watermark counts (R315). -/
def Sheet.live (sh : Sheet) : Bool := decide (4 ≤ sh.state) && decide (sh.state ≤ 7)

/-- OLDEST of a partition (R315). -/
def State.oldest (s : State) (n : Nat) : Nat :=
  match (s.sheets.filter fun sh => sh.part == n && sh.live).map Sheet.swm with
  | [] => s.curMark n
  | w :: r => r.foldl min w

/-- A version may be drained: OLDEST has reached it and it is the line's oldest (R319). -/
def State.drainable (s : State) (p : Package) (v : Version) : Bool :=
  decide (v.w ≤ s.oldest v.part) && !(p.versions.any fun u => u.line == v.line && decide (u.w < v.w))

/-- The entries that OLDEST has reached leave the recent-commit filter (R327). -/
def State.trimFilter (s : State) (n : Nat) : State :=
  let old := s.oldest n
  { s with pkgs := s.pkgs.map fun p => { p with filter := p.filter.filter fun e => e.1 != n || decide (old < e.2.2) } }

/-- The drains of a partition that may be made now. -/
def State.drains (s : State) (n : Nat) : State :=
  let s := s.trimFilter n
  (s.pkgs.zipIdx).foldl (fun s e => e.1.versions.foldl (fun s v =>
    if v.part == n && s.drainable e.1 v && !(s.agenda.any fun x => x.act == .vatDrain e.2 v.line v.w) then
      s.post s.ttc phSeam none (.vatDrain e.2 v.line v.w)
    else s) s) s

/-- A version's bytes in place, under the key of its window (R319, R368); they cover a poisoned line (R350). -/
def Package.putVersion (p : Package) (v : Version) : Package :=
  { p with
    hbm := Tab.splice 0 (64 * v.line) v.bytes p.hbm
    lineKeys := Tab.set [] v.line v.key p.lineKeys
    poison := p.poison.filter fun l => l != v.line }

/-- VAT DRAIN: the version goes into place (R319). -/
def execVatDrain (pkg line w : Nat) (s : State) : Host.Outcome State Fault Refusal :=
  let p := s.pkg pkg
  match p.versions.find? fun v => v.line == line && v.w == w with
  | none => .next s
  | some v =>
    if !s.drainable p v then .next s
    else
      let before := s
      let s := s.updPkg pkg fun p => { p.putVersion v with
        versions := p.versions.filter fun u => !(u.line == line && u.w == w) }
      let s := s.noted before pkg line 0 [] none
      .next ((s.drains v.part).pump v.part)

/-- A partition after one of its attempts is over: placements, couches and drains are looked at again. -/
def State.stir (s : State) (n : Nat) : State := ((s.wake n).drains n).pump n

/-! REPULP (R311, R312, R329, R345, R346). -/

/-- The place of a cause among those of the whole sheet (R345). -/
def wholeRank (cause : Nat) : Nat :=
  indexOf cause [cWatchdog, cOverrun, cLink, cUncorrectable, cVatConflict, cKill, cPeer]

/-- The order in which faults are preferred for the completion record (R34, R345, R346). -/
def faultKey (sh : Sheet) (f : FaultRec) : List Nat :=
  [if f.cause = cPeer then 1 else 0, f.task, indexOf f.pkg sh.pkgs, if f.whole then 1 else 0]
    ++ (if f.whole then [wholeRank f.cause] else [f.core, f.col.code, f.word, causeRank f.cause f.sub])

/-- The fault that the completion record carries, among those met before their package's stop (R346). -/
def Sheet.reported (sh : Sheet) : Option FaultRec :=
  (sh.faults.filter fun f => (sh.stopAt f.pkg).all fun t => decide (f.task ≤ t)).foldl (fun best f =>
    match best with
    | none => some f
    | some b => if lexLt (faultKey sh f) (faultKey sh b) then some f else best) none

/-- S-class bytes that a repulped sheet wrote hold any value (R317). -/
def State.scramble (s : State) (rs : List (Nat × Nat × Nat)) : State :=
  rs.foldl (fun s r =>
    let n := r.2.2 + 1 - r.2.1
    ((cutLines (n / 64 + 2) r.2.1 ((List.range n).map fun i => some (Config.byte (s.free + i)))).foldl (fun s c =>
      s.untimedLine r.1 ((s.pkg r.1).lineKey c.1) c.1 c.2.1 c.2.2) s).spend n) s

/-- The lines that a sheet resumed as irrevocable wrote after W keep W as their last commit (R323). -/
def State.keepIrrevocable (s : State) (sh : Sheet) : State :=
  if !sh.inPlace then s
  else sh.irrevLines.foldl (fun s l => s.updPkg l.1 fun p => { p with
    filter := (p.filter.filter fun e => e.2.1 != l.2) ++ [(sh.part, l.2, sh.swm)] }) s

/-- A fault that a hardware error in a core has caused (R351). -/
def FaultRec.ofCore (f : FaultRec) : Bool := f.cause == cUncorrectable && decide (f.sub ≤ 5)

/-- The repulped sheet waits at the head of its queue for its relaunch, after an error of one of its cores on the same ones (R311,
R313, R351). -/
def State.requeue (s : State) (sh : Sheet) (f : FaultRec) : State :=
  let s := s.backlog sh.home sh.part (recQueue sh.words)
  let back := { armedSheet sh.id sh.part sh.rcd sh.home sh.words with
    armSeq := sh.armSeq, retries := sh.retries, attempt := sh.attempt, again := if f.ofCore then sh.clusters else [] }
  { s with sheets := back :: s.sheets.filter fun x => x.id != sh.id }

/-- REPULP: vat lines, patches and arms are discarded, S-class bytes are open, the completion record is written; the sheet
relaunches while RETRIES is at most RETRY, else it is final (R311, R312, R329). -/
def execRepulp (id : Nat) (s : State) : Host.Outcome State Fault Refusal :=
  match s.sheet? id with
  | none => .next s
  | some sh =>
    match sh.reported with
    | none => .next s
    | some f =>
      let span := s.taskOf sh
      let charged := f.cause != cKill && f.cause != cPeer
      let sh' := { sh with retries := sh.retries + (if charged then 1 else 0) }
      let s := ((s.scramble sh.sbytes).keepIrrevocable sh).updSheet id fun _ => sh'
      let s := (s.complete id span f.outcome).release id
      let s := if sh'.retries ≤ recRetry sh.words && !sh.inPlace then (s.requeue sh' f).enter id 1
        else (s.enter id 8).drop id
      .next (s.stir sh.part)

end Sys2Proof.Machine
end

