-- ==== Sys2Proof/Machine/Couch.lean ====
section
/-! DEFINITION. The couch (R314 to R328): couch order, conflicts, installation at a watermark, two phases for a sheet on
several packages, the irrevocable policy. -/

namespace Sys2Proof.Machine

/-! Couch order (R324). -/

/-- Sheet `y` names the record of `x` as a dependence (R299). -/
def dependsOn (y x : Sheet) : Bool :=
  x.home == y.home && (List.range 8).any fun k => recDep y.words k == 2 ^ 15 + x.rcd

/-- Rule 4. -/
def queueBefore (x y : Sheet) : Bool :=
  let a := recQueue x.words
  let b := recQueue y.words
  decide (a < b) || (a == b && (decide (x.rcd < y.rcd) || (x.rcd == y.rcd && decide (x.home < y.home))))

/-- `x` couches before `y` (R324). A sheet that has not ended counts as ending after every sheet that has; of two sheets that
run, rule 4 decides. -/
def couchBefore (x y : Sheet) : Bool :=
  if dependsOn y x then true
  else if dependsOn x y then false
  else if x.home == y.home && recQueue x.words == recQueue y.words then decide (x.armSeq < y.armSeq)
  else if 6 ≤ x.state && 6 ≤ y.state then
    decide (x.endTtc < y.endTtc) || (x.endTtc == y.endTtc && queueBefore x y)
  else if 6 ≤ x.state then true
  else if 6 ≤ y.state then false
  else decide (4 ≤ x.state) && queueBefore x y

/-- No sheet of the partition comes before this one, none couches or runs irrevocably (R323, R324), and a watermark is
left (R314). A sheet resumed as irrevocable has had its turn: every other waits for it, and it takes no further watermark (R323). -/
def State.myTurn (s : State) (sh : Sheet) : Bool :=
  if sh.inPlace then !(s.sheets.any fun x => x.part == sh.part && x.id != sh.id && x.inPlace)
  else
    !(s.sheets.any fun x => x.part == sh.part && x.id != sh.id && (couchBefore x sh || x.state == 7 || x.inPlace))
      && ((s.pkg (s.markHome sh.part)).part sh.part).counter != 0xFFFFFFFFFFFF

/-! Conflicts (R325, R327). -/

/-- The watermark of the newest couched version of a line that the filter holds (R327). -/
def Package.lastCommit (p : Package) (line : Nat) : Nat :=
  (p.filter.filter fun e => e.2.1 == line).foldl (fun m e => max m e.2.2) 0

/-- The vat lines of a sheet on a package. -/
def Package.linesOf (p : Package) (id : Nat) : List VLine := p.vat.filter fun v => v.sh == id

/-- The lowest T-class line of a sheet that a later watermark has taken (R325). -/
def Package.conflict (p : Package) (sh : Sheet) : Option VLine :=
  ((p.linesOf sh.id).filter fun v => v.merge.isNone && decide (sh.swm < p.lastCommit v.line)).foldl (fun best v =>
    match best with
    | none => some v
    | some b => if v.line < b.line then some v else best) none

/-- VAT_CONFLICT as package `q` reports it: the lowest gang rank there, the word of S, the span (R343, R345). -/
def State.conflictRec (s : State) (sh : Sheet) (q : Nat) (v : VLine) : FaultRec :=
  let k := (sh.gang.find? fun k => keyPkg k == q).getD 0
  let r := s.wholeRec sh q k cVatConflict 0 0 (w64 (64 * v.line)) (w64 (v.line / 4 % 8)) (w64 ((s.pkg q).lastCommit v.line))
  { r with task := s.taskOf sh }

/-- Entries of the recent-commit filter on one stack, and couched versions that a stack's vat quarter holds (R320, R327). -/
def filterRoom : Nat := 4194304
def Package.versionRoom (p : Package) (stack : Nat) : Nat := vatUnits (Tab.get 0 p.vatSize stack) * 2 ^ 21

/-- The couch finds room for its entries and versions on package `q` (R327). -/
def Package.hasRoom (p : Package) (id : Nat) : Bool :=
  let mine := p.linesOf id
  (List.range 8).all fun st =>
    let at_ := fun (l : Nat) => l / 4 % 8 == st
    let new := (mine.filter fun v => at_ v.line && !(p.filter.any fun e => e.2.1 == v.line)).length
    decide ((p.filter.filter fun e => at_ e.2.1).length + new ≤ filterRoom)
      && decide ((p.versions.filter fun v => at_ v.line).length + (mine.filter fun v => at_ v.line).length ≤ p.versionRoom st)

/-! Installation (R325, R326). -/

/-- The new version of a line: written bytes over the newest one, or the contribution merged into it. -/
def Package.installed (p : Package) (v : VLine) : List Byte :=
  let old := p.lineAt v.key v.line none
  match v.merge with
  | none => overlay old ((List.range 64).map fun i => Tab.find? i v.bytes)
  | some mop => mergeLine mop v.bytes 0 old

/-- A line installed at a watermark, with its last commit. -/
def Package.installLine (p : Package) (part w : Nat) (v : VLine) : Package :=
  { p with versions := p.versions ++ [⟨part, v.line, w, p.installed v, v.key⟩]
           filter := (p.filter.filter fun e => e.2.1 != v.line) ++ [(part, v.line, w)] }

/-- Every line of a sheet on a package installed at once; its vat lines are freed. -/
def State.install (s : State) (sh : Sheet) (q w : Nat) : State :=
  s.updPkg q fun p =>
    let p' := (p.linesOf sh.id).foldl (fun p v => p.installLine sh.part w v) p
    { p' with vat := p'.vat.filter fun v => v.sh != sh.id }

/-- The next watermark of a partition (R314). -/
def State.nextMark (s : State) (n : Nat) : Nat := ((s.pkg (s.markHome n)).part n).counter.toNat + 1

/-- Every piece of a partition of the domain changed: all of them use the same watermarks (R314, R367). -/
def State.updPieces (s : State) (n : Nat) (f : Partition → Partition) : State :=
  { s with pkgs := s.pkgs.map fun p => if p.formed && (p.part n).valid then p.setPart n (f (p.part n)) else p }

def State.setCounter (s : State) (n w : Nat) : State := s.updPieces n fun p => { p with counter := BitVec.ofNat 48 w }

/-- CUR: installation is complete on every package (R315). -/
def State.setCur (s : State) (n w : Nat) : State := s.updPieces n fun p => { p with cur := BitVec.ofNat 48 w }

/-! The end of a couch. -/

/-- A couched sheet: its patches and arms are applied, its record carries W and becomes final (R249, R312, R325). -/
def State.couched (s : State) (sh : Sheet) (w : Nat) : State :=
  let s := (s.applyPatches sh.id).complete sh.id sh.span (.couched w)
  (((s.enter sh.id 8).release sh.id).drop sh.id).stir sh.part

/-- A sheet that does not run any more ends with the faults of some of its packages, and PEER_ABORT on the others (R34, R328). -/
def State.endWith (s : State) (sh : Sheet) (fs : List FaultRec) : State :=
  let peers := match fs with
    | [] => []
    | f :: _ => (sh.pkgs.filter fun q => !(fs.any fun g => g.pkg == q)).map fun q => s.peerRec sh q f f.task
  let s := (fs ++ peers).foldl (fun s g => s.logFault sh g) s
  let s := sh.pkgs.foldl (fun s q => s.halt sh.id q) s
  (s.updSheet sh.id fun x => { x with
    faults := x.faults ++ (fs ++ peers), stops := sh.pkgs.map fun q => (q, s.taskOf sh) }).repulpSoon sh

/-- A conflict repulps the sheet: the packages that found one report VAT_CONFLICT, the others PEER_ABORT (R325, R328). -/
def State.conflicted (s : State) (sh : Sheet) (fs : List FaultRec) : State := s.endWith sh fs

/-- A dependence of an ended sheet is final without a couch (R307, R324). -/
def State.depFailed (s : State) (sh : Sheet) : Bool :=
  (List.range 8).any fun k =>
    let d := recDep sh.words k
    decide (2 ^ 15 ≤ d) && s.recState sh.home sh.part (d % 2 ^ 14) == 8 && s.recOutc sh.home sh.part (d % 2 ^ 14) != 0

/-- An ended sheet of which a dependence failed: the attempt's record says OUTC 2 and code 10 (R307, R312). -/
def State.refused (s : State) (sh : Sheet) : State :=
  let s := s.complete sh.id sh.span ⟨2, 10, 0, 0, 0, 0, 0, 0⟩
  (((s.enter sh.id 8).release sh.id).drop sh.id).stir sh.part

/-- COUCH: an ended sheet at its turn. A sheet resumed as irrevocable is final at the watermark it has (R323); one is refused where a
dependence failed (R307); a sheet on several packages prepares on each (R328); a sheet on one is checked and installed, or waits for
room (R325, R327). -/
def execCouch (id : Nat) (s : State) : Host.Outcome State Fault Refusal :=
  match s.sheet? id with
  | none => .next s
  | some sh =>
    if sh.state != 6 && sh.state != 7 || (sh.state == 7 && 1 < sh.pkgs.length) || !(s.myTurn sh) then .next s
    else if sh.inPlace then .next ((s.keepIrrevocable sh).couched sh sh.swm)
    else if s.depFailed sh then .next (s.refused sh)
    else
      let s := s.enter id 7
      if 1 < sh.pkgs.length then
        .next (sh.pkgs.foldl (fun s q => s.post s.ttc phSeam (some id) (.couchPrepare id q)) s)
      else
        match (s.pkg sh.home).conflict sh with
        | some v => .next (s.conflicted { sh with state := 7 } [s.conflictRec { sh with state := 7 } sh.home v])
        | none =>
          if !(s.pkg sh.home).hasRoom id then .next s
          else
            let w := s.nextMark sh.part
            .next (((s.install sh sh.home w).setCounter sh.part w |>.setCur sh.part w).couched sh w)

/-- COUCH PREPARE: a package checks its own lines and reports ready or conflict; without room it waits (R327, R328). -/
def execCouchPrepare (id q : Nat) (s : State) : Host.Outcome State Fault Refusal :=
  match s.sheet? id with
  | none => .next s
  | some sh =>
    if sh.state != 7 || sh.prepared.any (fun e => e.1 == q) || sh.decision.isSome then .next s
    else
      let report := fun (ready : Bool) (f : Option FaultRec) =>
        let s := s.updSheet id fun x => { x with
          prepared := x.prepared ++ [(q, ready)], vatFaults := x.vatFaults ++ f.toList }
        if sh.prepared.length + 1 = sh.pkgs.length then s.post s.ttc phSeam (some id) (.couchDecide id) else s
      match (s.pkg q).conflict sh with
      | some v => .next (report false (some (s.conflictRec sh q v)))
      | none => if (s.pkg q).hasRoom id then .next (report true none) else .next s

/-- COUCH DECIDE: the coordinator takes W where every package is ready, else it aborts; a decision is final (R328). -/
def execCouchDecide (id : Nat) (s : State) : Host.Outcome State Fault Refusal :=
  match s.sheet? id with
  | none => .next s
  | some sh =>
    if sh.state != 7 || sh.decision.isSome || sh.prepared.length < sh.pkgs.length then .next s
    else
      let w := s.nextMark sh.part
      let ok := sh.prepared.all (·.2)
      let s := if ok then s.setCounter sh.part w else s
      let s := s.updSheet id fun x => { x with decision := some (if ok then some w else none) }
      .next (sh.pkgs.foldl (fun s q => s.post s.ttc phSeam (some id) (.couchApply id q)) s)

/-- Faults in the order of the ranks of their packages. -/
def Sheet.byRank (sh : Sheet) (fs : List FaultRec) : List FaultRec :=
  sh.pkgs.flatMap fun q => fs.filter fun f => f.pkg == q

/-- COUCH APPLY: a package installs at W or repulps; the last one to install completes the couch (R315, R328). -/
def execCouchApply (id q : Nat) (s : State) : Host.Outcome State Fault Refusal :=
  match s.sheet? id with
  | none => .next s
  | some sh =>
    match sh.decision with
    | none => .next s
    | some d =>
      if !(sh.prepared.any fun e => e.1 == q) then .next s
      else
        let left := sh.prepared.filter fun e => e.1 != q
        let s := s.updSheet id fun x => { x with prepared := left }
        match d with
        | some w =>
          let s := s.install sh q w
          if left.isEmpty then .next ((s.setCur sh.part w).couched sh w) else .next s
        | none => .next (if left.isEmpty then s.conflicted sh (sh.byRank sh.vatFaults) else s)

/-! The irrevocable policy (R323). -/

/-- The pending steps of a sheet leave the agenda with it. -/
def State.shelve (s : State) (id : Nat) : State :=
  { s with
    agenda := s.agenda.filter fun e => e.sh != some id
    savedEvents := s.savedEvents ++ [(id, s.agenda.filter fun e => e.sh == some id)] }

/-- A sheet leaves its clock at this seam (R35, R358). -/
def State.freeze (s : State) (id : Nat) (h : Hold) : State :=
  (s.shelve id).updSheet id fun x => { x.clocked s.mhz (s.ttc - x.t0) with held := h, heldAt := s.ttc }

/-- A running sheet on its clock that has met no fault by now (R310, R335). -/
def State.unfaulted (s : State) (sh : Sheet) : Bool :=
  sh.state == 5 && sh.held == .none && sh.stops.isEmpty && !(sh.faults.any fun f => decide (f.task ≤ s.taskOf sh))

/-- IRREVOCABLE FREEZE: at the first seam after a sheet passes its quota it freezes in place, and waits to be first in couch
order. A sheet that has faulted does not. -/
def execIrrevocableFreeze (id : Nat) (s : State) : Host.Outcome State Fault Refusal :=
  match s.sheet? id with
  | none => .next s
  | some sh =>
    if sh.irrev != 1 || !(s.unfaulted sh) then .next s
    else .next (((s.freeze id .inPlace).updSheet id fun x => { x with irrev := 2 }).pump sh.part)

/-- The sheet's own writes up to now are couched: what it wrote through its T-class and M-class windows is no open change any more. -/
def Sheet.settled (sh : Sheet) : Sheet :=
  { sh with past := sh.past.map fun p =>
      if p.who.any fun u => u.1 == sh.id && (u.2 == clsT || u.2 == clsM) then { p with who := none } else p }

/-- IRREVOCABLE COUCH: the frozen sheet's lines are couched at W, or conflict; its S becomes W and it resumes at a later
seam, writing in place. -/
def execIrrevocableCouch (id : Nat) (s : State) : Host.Outcome State Fault Refusal :=
  match s.sheet? id with
  | none => .next s
  | some sh =>
    if sh.irrev != 2 || sh.held != .inPlace || !(s.myTurn sh) then .next s
    else
      match (s.pkg sh.home).conflict sh with
      | some v => .next (s.conflicted sh [s.conflictRec sh sh.home v])
      | none =>
        if !(s.pkg sh.home).hasRoom id then .next s
        else
          let w := s.nextMark sh.part
          let s := (s.install sh sh.home w).setCounter sh.part w |>.setCur sh.part w
          let s := s.updSheet id fun x => { x.settled with irrev := 3, swm := w, held := .release }
          .next (s.stir sh.part)

end Sys2Proof.Machine
end

