-- ==== Sys2Proof/Machine/SaveImage.lean ====
section
/-! DEFINITION. The save image of a gang (R192, R202, R355, R356, R369, R372). -/

namespace Sys2Proof.Machine

/-- `n` bytes of a part of the image that holds `x` in a layout the spec leaves open (log entry 37). -/
def openBytes {α : Type} (x : α) (n : Nat) : List Byte := (List.range n).map fun i => Config.layout x i

/-- Free bytes. -/
def freeBytes (fr n : Nat) : List Byte := (List.range n).map fun i => Config.byte (fr + i)

/-- Words of a store as bytes. -/
def wordBytes (n : Nat) (t : Tab W32) : List Byte := (Tab.slice 0 t 0 n).flatMap fun w => leBytes 4 w.toNat

/-- A bound store in its 4 KiB (R192); the bytes past the layout are open. -/
def Bound.bytes (b : Bound) : List Byte :=
  (([b.closed, b.ra, b.rb, b.total, b.resid].flatMap (wordBytes 128))
    ++ leBytes 4 b.covm.toNat ++ leBytes 4 b.totm.toNat ++ leBytes 8 ((if b.fullc then 2 else 0) + (if b.opened then 1 else 0)))
    ++ openBytes () 0x5F0

/-- Steps that a sheet off its clock has pending and that concern a core. -/
def Event.ofCore (e : Event) (k : Nat) : Bool :=
  match e.act with
  | .hbmSample (.xfer x _) | .hbmPerform x _ _ | .readBeatLanding x _ _ => x.d.k == k
  | .laneBeat m _ => m.k == k
  | .transferCredit j _ _ => j == k
  | _ => false

/-- Sampled read data that wait for their landing (R331, R357). -/
def Event.landing (e : Event) : Bool :=
  match e.act with
  | .readBeatLanding _ _ _ => true
  | _ => false

/-- A core block of the save area (R355): scratchpad, accumulators, vector registers, landing buffer, bound stores, semaphores,
registers and control state, sidecars, screen chain, array, X state. `es` are the pending steps of the core. -/
def Core.block (c : Core) (es : List Event) : List Byte :=
  let regs := ((c.s, c.p, c.q, c.cover, c.shape, c.rot, c.base, c.fflags, c.fset, c.lin, c.gang, c.bfmt, c.bcb),
    (c.rings.map fun g => (g.1, { g.2 with sidecars := [] }), c.mask, c.tags),
    (c.cols.1.cu, c.cols.2.1.cu, c.cols.2.2.1.cu, c.cols.2.2.2.cu), (c.fwd, c.board, c.walker))
  Tab.slice 0 c.spad 0 0x180000 ++ (wordBytes 0x20000 c.acc ++ (wordBytes 0x8000 c.v
    ++ (openBytes (es.filter Event.landing) 0x20000 ++ (((List.range 8).flatMap fun a => (c.boundOf a).bytes)
    ++ (((List.range 1024).flatMap fun b => openBytes (Tab.get ⟨0, 0, 0, 0, 0⟩ c.sem b) 16) ++ (openBytes regs 0x4000
    ++ (openBytes (c.rings.map fun g => (g.1, g.2.sidecars)) 0x20000 ++ (openBytes c.screen 0x200000
    ++ (openBytes (c.array, c.own) 0x40000
    ++ openBytes (es.filter fun e => !e.landing, c.weaveEnd, c.copyEnd, c.copyBuf, c.copyBad, c.ptags, c.phand) 0x50000)))))))))

/-- The package block of the save area: queued accesses with their windows, sampled data, weave queues and open destinations,
received flits (R355). -/
def State.packageBlock (s : State) (sh : Sheet) (q : Nat) (es : List Event) : List Byte :=
  openBytes (es, (s.pkg q).runs.filter fun r => r.sh == sh.id, sh.links) 0x800000

/-- The header of the save area on a package (R355). -/
def saveHeader (sh : Sheet) (q ttc : Nat) : List Byte :=
  [2 ^ 48 * 3 + (sh.gang.filter fun k => keyPkg k == q).length % 256 * 2 ^ 16 + indexOf q sh.pkgs % 2048 * 2 ^ 5, ttc, sh.t0, sh.rcd]
    |>.flatMap (leBytes 8)

/-- The bytes of the save area on a package. -/
def saveBytes (sh : Sheet) (q : Nat) : Nat := 0x801000 + (sh.gang.filter fun k => keyPkg k == q).length * 0x500000

/-- The key under which the host sees the save images of a partition: the save key where partition-debug has them in plaintext, else
none, which leaves what is stored as ciphertext (R369, R372). -/
def Package.imageKey (p : Package) (n : Nat) : List Byte :=
  let clear := ((List.range 128).find? (p.part n).keys.getLsbD).any fun k => (Tab.get KeySlot.reset p.slots k).dbgclr
  if (p.part n).dbg = 1 && clear then p.saveKey n else []

/-- The key under which the host sees a line of device memory: that of save images in the save area of a sheet (R355, R372). -/
def State.hostKey (s : State) (q line : Nat) : List Byte :=
  let at_ := fun (sh : Sheet) => let a := recSave sh.words
    a != 0 && sh.pkgs.contains q && decide (a ≤ 64 * line) && decide (64 * line < a + saveBytes sh q)
  ((s.sheets.find? at_).map fun sh => (s.pkg q).imageKey sh.part).getD []

/-- `n` bytes of device memory as the host reads them through CXL.mem (R280, R372, R374). Reads change nothing, so they are no step of
the machine. -/
def State.hostRead (s : State) (q a n : Nat) : List Byte :=
  (((linesOf a n).flatMap fun l => s.untimedRead q (s.hostKey q l) (64 * l) 64).drop (a % 64)).take n

/-- What a sheet has pending: off its clock, what is shelved. -/
def State.pendingOf (s : State) (id : Nat) : List Event :=
  ((s.savedEvents.filter fun e => e.1 == id).flatMap (·.2)) ++ s.agenda.filter fun e => e.sh == some id

/-- The save image of a sheet written on each of its packages (R355, R356). -/
def State.writeImage (s : State) (sh : Sheet) : State :=
  let a := recSave sh.words
  let es := s.pendingOf sh.id
  sh.pkgs.foldl (fun s q =>
    let key := (s.pkg q).saveKey sh.part
    let s := (s.untimedBytes q key a (saveHeader sh q s.ttc)).untimedBytes q key (a + 0x1000) (s.packageBlock sh q es)
    ((sh.gang.filter fun k => keyPkg k == q).zipIdx).foldl (fun s e =>
      match s.coreOf sh.id e.1 with
      | some c => s.untimedBytes q key (a + 0x801000 + e.2 * 0x500000) (c.block (es.filter fun x => x.ofCore e.1))
      | none => s) s) s

/-- An uncorrectable error that the copy of a core meets: core, location as a subcode of R343, address (R356). -/
def State.saveError (s : State) (sh : Sheet) : Option (Nat × Nat × Nat) :=
  sh.gang.findSome? fun k => (s.coreOf sh.id k).bind fun c =>
    ((c.bad.head?.map fun a => (1, a)) <|> c.ill.find? fun (e : Nat × Nat) => decide (e.1 < softLoc)).map fun (e : Nat × Nat) =>
      (k, if e.1 = landingLoc then 1 else e.1, e.2)

end Sys2Proof.Machine
end

