-- ==== Sys2Proof/Machine/Slots.lean ====
section
/-! DEFINITION. Maintenance slots (R16 to R18, R28, R29, R330 to R336, R341, R352 to R354, R377, R383), hold units, the
save and return of a gang (R35, R310, R355 to R358), failures of links and margins (R340, R354). -/

namespace Sys2Proof.Machine

/-- A step posted before every other of this cycle. -/
def State.postFirst (s : State) (id : Option Nat) (a : Act) : State :=
  { s with agenda := { ttc := s.ttc, ph := phSeam, sh := id, act := a } :: s.agenda }

/-- TTC cycles between seams, and between major slots (R18). -/
def minorPeriod : Nat := 4096
def majorPeriod : Nat := 1048576

/-- The next seam. -/
def State.nextSeam (s : State) : Nat := minorPeriod * (s.seams + 1)

/-- Some package is in an aligned domain, so that seams fall (R337). -/
def State.domainFormed (s : State) : Bool := s.pkgs.any Package.formed

/-! The drain (R331). -/

/-- A timed access whose window opened before TTC `n` and whose bytes the controller holds. -/
def State.opened (s : State) (n : Nat) (e : Event) : Bool :=
  match e.sh.bind s.sheet? with
  | none => false
  | some sh =>
    match e.act with
    | .hbmSample (.xfer x _) => decide (sh.t0 + x.d.start + 768 * x.h + 64 < n)
    | .hbmSample (.weave w j) => decide (sh.t0 + weaveEmit w j + 64 < n)
    | .hbmPerform x _ data => !data.isEmpty && decide (sh.t0 + x.d.start + 768 * x.h + 64 < n)
    | .weaveContribution w j =>
      match s.weaveTo sh w j, s.core? w.d.k with
      | some (win, _, h), some c =>
        e.ph == phSeam && decide (sh.t0 + weaveArrive w j h + 64 < n)
          && (((s.pkg win.pkg).weaveRun? w).any fun r => r.cs.any fun q =>
            q.src == c.prank && q.core == keyId w.d.k && q.j == j && q.data.isSome)
      | _, _ => false
    | _ => false

/-- The drain of the slot at TTC `n`: opened accesses are made at n - 1; everything else stays queued. -/
def State.drain (s : State) (n : Nat) : State :=
  let now := (s.agenda.filter (s.opened n)).map fun e => { e with ttc := n - 1 }
  { s with agenda := now ++ s.agenda.filter fun e => !(s.opened n e) }

/-! The work of a slot. -/

/-- Free values taken one after another by a fold over the packages. -/
def State.eachPkg (s : State) (f : State → Nat → State) : State := (List.range s.pkgs.length).foldl f s

/-- BALLAST SETTING of each pair for the next interval (R383). -/
def State.setBallast (s : State) : State := s.eachPkg fun s q =>
  (s.updPkg q fun p => { p with ballast := Tab.entries 0 0 ((List.range 12).map fun j => Config.ballast (s.free + j)) }).spend 12

/-- Debug states change at a seam; in the attested state the package first returns to provisioned (R372). -/
def Package.debugChange (p : Package) : Package :=
  let changed := p.parts.any fun e => e.2.dbgNext.any fun d => d != e.2.dbg
  { p with
    sec := if changed && p.sec = 2 then 1 else p.sec
    parts := Tab.change Partition.reset (fun _ (x : Partition) =>
      match x.dbgNext with
      | some d => { x with dbg := d, dbgNext := none }
      | none => x) p.parts }

/-- An uncorrectable error of a pair under trial that scrub finds fails the trial. In a major slot its voltage is restored by the
work of that slot; DESIGN CHOICE (log entry 60): in a minor slot it is restored as outside a slot (R354). -/
def State.scrubMargin (s : State) (q ch : Nat) (major : Bool) (addr : Nat) : State :=
  if !(s.pkg q).underTrial ch then s
  else
    let s := s.updPkg q fun p => { p with trial := p.trial.map fun t => { t with failed := true, addr := w64 addr } }
    if major then s else s.post s.ttc phStop none (.marginRestore q (ch / 18) 1)

/-- What a scrub step finds of the errors that stand (R350): a corrected error is logged; a line of HBM is poisoned. -/
def State.scrubErrors (major : Bool) (s : State) (q : Nat) : State :=
  ((s.pkg q).errors.zipIdx).foldl (fun s e =>
    if !(Config.choice (s.free + e.2)) then s
    else
      let s := s.updPkg q fun p =>
        let p := { p with errors := p.errors.filter fun x => x != e.1 }
        let p := p.event s.ttc e.1.kind e.1.ch (p.errorFields e.1.ch e.1.addr)
        if e.1.kind == 2 && decide (216 ≤ e.1.ch) && decide (e.1.ch < 224) then { p with poison := e.1.addr / 64 :: p.poison } else p
      if e.1.kind == 2 then s.scrubMargin q e.1.ch major e.1.addr else s) s
    |>.spend (s.pkg q).errors.length

/-- A scrub finding in the scratchpad of a running sheet repulps it at the end of the slot: the core's rank, column S, the
task cycle of the seam (R345, R350). -/
def State.scrubCores (s : State) (major : Bool) : State :=
  (s.cores.zipIdx).foldl (fun s e =>
    match s.sheet? e.1.2.sh, e.1.2.bad.head? with
    | some sh, some a =>
      if sh.state == 5 && sh.held == .none && Config.choice (s.free + e.2) then
        let q := keyPkg e.1.1
        let ch := (s.pkg q).coreChannel (keyId e.1.1)
        let f := { s.wholeRec sh q e.1.1 cUncorrectable 1 (s.taskOf sh) (w64 a) 0 0 with margin := (s.pkg q).underTrial ch }
        (s.raiseAtSeam sh.id f).scrubMargin q ch major a
      else s
    | _, _ => s) s |>.spend s.cores.length

/-- A core with a lasting fault that no running sheet holds (R352). -/
def State.retirable (s : State) (q c : Nat) : Bool :=
  !(s.sheets.any fun sh => decide (2 ≤ sh.state) && decide (sh.state ≤ 5) && sh.held != .saved && (sh.clustersOn q).contains c)

/-- CORE RETIREMENT: the spare takes the logical id of a retired position; CLUSTER RETIREMENT where the spare is in use
(R352, R353). -/
def Package.retire (p : Package) (ch : Nat) : Package :=
  let c := ch / 9
  let pos := ch % 9
  let p := { p with
    lasting := p.lasting.filter fun x => x != ch
    cmapBad := Tab.set 0 c (Tab.get 0 p.cmapBad c ||| (1#9 <<< pos)) p.cmapBad
    history := p.history.filter fun e => e.1 != c * 9 + 8 }
  if Tab.get false p.cmapSpu c then { p with cmapRet := Tab.set false c true p.cmapRet }
  else
    let m := (p.cmap c).toNat
    let m' := ((List.range 8).map fun i => (if bits m (4 * i) 4 = pos then 8 else bits m (4 * i) 4) * 16 ^ i).foldl (· + ·) 0
    { p with cmapMap := Tab.set 0x76543210 c (BitVec.ofNat 32 m') p.cmapMap, cmapSpu := Tab.set false c true p.cmapSpu }

/-- Lasting faults whose time has come; the spare starts with cleared tags. -/
def State.retireCores (s : State) : State := s.eachPkg fun s q =>
  (s.pkg q).lasting.foldl (fun s ch =>
    if !(s.retirable q (ch / 9)) then s
    else
      let p := s.pkg q
      let gone := (List.range 8).filter fun i => bits (p.cmap (ch / 9)).toNat (4 * i) 4 == ch % 9
      { s.updPkg q fun p => p.retire ch with
        frames := s.frames.filter fun e => !(gone.any fun i => e.1 == coreKey q (coreId (ch / 9) i)) }) s

/-! The work of a major slot. -/

/-- VOLTAGE TRIAL: the one that ends sets the pair's last-good voltage, or restores last-good + 10 mV unless that has been done; another pair may be
lowered until the next major slot (R354). -/
def State.trials (s : State) : State := s.eachPkg fun s q =>
  (s.updPkg q fun p =>
    let p := match p.trial with
      | some t =>
        let good := Tab.get 0 p.lastGood t.pair
        { p with trial := none, lastGood := Tab.set 0 t.pair (if t.restored then good else if t.failed then good + 10 else t.mv) p.lastGood }
      | none => p
    let j := (Config.word s.free).toNat % 12
    if Config.choice s.free then
      { p with trial := some ⟨j, Tab.get 0 p.lastGood j - ((Config.word (s.free + 1)).toNat : Int), false, false, 0⟩ }
    else p).spend 2

/-- PAD of a port at a clock (R339). -/
def padOf (lat mhz : Nat) : Nat := 768 - (lat * mhz + 999999) / 1000000 - 16

/-- The sheets whose clock range binds the domain (R341, R377). -/
def State.clocked (s : State) : List Sheet := s.sheets.filter fun sh => decide (2 ≤ sh.state) && decide (sh.state ≤ 7)

/-- CLOCK CHANGE: an announced clock takes effect where it lies in the range of every sheet in states 2 to 7 (R341). -/
def State.changeClock (s : State) (n : Nat) : State :=
  let due := s.announced.filter fun a => a.1 == n
  let s := { s with announced := s.announced.filter fun a => decide (n < a.1) }
  match due with
  | [] => s
  | (_, m, _) :: _ =>
    if s.clocked.all fun sh => decide (recLo sh.words ≤ m) && decide (m ≤ recHi sh.words) then
      { s with mhz := m
               sheets := s.sheets.map fun sh => if sh.state == 5 && sh.held == .none then sh.clocked s.mhz (n - sh.t0) else sh }
    else s

/-- The lowest of the requests. -/
def lowestLease : List (Nat × Nat) → Option (Nat × Nat)
  | [] => none
  | r :: rs => match lowestLease rs with
    | some b => if b.1 < r.1 then some b else some r
    | none => some r

/-! Victims and freezes of a seam. -/

/-- A running sheet that is on its clock and has not faulted (R310, R335). -/
def Sheet.sound (sh : Sheet) : Bool := sh.state == 5 && sh.held == .none && sh.stops.isEmpty

/-- A column that has issued END, or issues it at task cycle `t`. -/
def Column.endsBy (o : Column) (c : Col) (t : Nat) : Bool :=
  o.cu.ended.isSome || (decide (o.cu.due ≤ t) && o.cu.gov == .plain && o.instrAt c o.cu.pc == some .endc)

/-- A sheet ends at the seam of TTC `n`: its last columns issue END there at the latest, its transfers are over, and no fault of it
comes before (R33). -/
def State.endsAt (s : State) (sh : Sheet) (n : Nat) : Bool :=
  let t := n - sh.t0
  sh.sound && sh.stall.isNone && decide (sh.settle ≤ t) && !(sh.faults.any fun f => decide (f.task ≤ t))
    && sh.gang.all fun k => match s.core? k with
      | some c => allCols.all fun o => (c.col o).endsBy o t
      | none => true

/-- Victims without a save area are killed at this seam; one that has ended, or ends at it, is none (R310). -/
def State.killVictims (s : State) : State :=
  s.sheets.foldl (fun s sh =>
    match sh.victim with
    | none => s
    | some rcd =>
      if !sh.sound || s.endsAt sh s.ttc then s.updSheet sh.id fun x => { x with victim := none }
      else if recSave sh.words = 0 then
        (s.updSheet sh.id fun x => { x with victim := none }).raiseAtSeam sh.id (s.whole sh sh.home cKill 0 (w64 rcd) 0 0)
      else s) s

def State.updDebug (s : State) (q n : Nat) (f : DebugBlock → DebugBlock) : State :=
  s.updPart q n fun p => { p with dblk := f p.dblk }

/-- The sheet that a block has frozen. -/
def State.frozenSheet (s : State) (q n : Nat) : Option Sheet := ((s.pkg q).part n).dblk.held.bind s.sheet?

/-- Another package's block keeps the sheet frozen. -/
def State.frozenElsewhere (s : State) (q : Nat) (sh : Sheet) : Bool :=
  sh.pkgs.any fun p => p != q && ((s.pkg p).part sh.part).dblk.held == some sh.id

/-- A freeze ends with the current unit, or a suspended sheet resumes at a later seam; FROZEN and SCANNED are cleared (R358, R382). -/
def State.releaseBlock (s : State) (q n : Nat) : State :=
  let d := ((s.pkg q).part n).dblk
  if !d.frozen then s
  else
    let s' := s.updDebug q n fun d => { d with frozen := false, held := none, scanned := false, scanLeft := 0 }
    match s.frozenSheet q n with
    | some sh =>
      if d.susp && sh.held == .inPlace && !(s.frozenElsewhere q sh) then s'.updSheet sh.id fun x => { x with held := .release } else s'
    | none => s'

/-- The running sheet that a request for a freeze names: the one of BRK, or that of a record of the package's pool. -/
def State.askedSheet (s : State) (q n : Nat) (a : BitVec 14 × Option Nat) : Option Sheet :=
  s.sheets.find? fun sh => sh.part == n && sh.sound && match a.2 with
    | some id => sh.id == id
    | none => sh.home == q && sh.pkgs.contains q && sh.rcd == a.1.toNat

/-- The debug freezes that a block has been asked for, at a seam: the first one whose sheet runs takes effect, and REC names it (R382);
the others wait until it is released (DESIGN CHOICE, log entry 59). -/
def State.freezeAsked (s : State) (q n : Nat) (d : DebugBlock) : DebugBlock :=
  let live := d.asks.filterMap fun a => (s.askedSheet q n a).map fun sh => (a, sh)
  match live, d.frozen with
  | (_, sh) :: r, false => { d with
      asks := (r.filter fun y => y.2.id != sh.id).map Prod.fst, frozen := true, held := some sh.id
      stRec := BitVec.ofNat 14 sh.rcd, units := 0, susp := false, scanned := false }
  | _, _ => { d with asks := live.map Prod.fst }

/-- Debug freezes at a seam; in a partition that is locked none is left and none begins (R372, R382). -/
def State.beginFreezes (s : State) : State := s.eachPkg fun s q =>
  (s.pkg q).parts.foldl (fun s e =>
    if e.2.dblk.asks.isEmpty && !e.2.dblk.frozen then s
    else if e.2.dbg = 0 then (s.releaseBlock q e.1).updDebug q e.1 fun d => { d with asks := [] }
    else s.updDebug q e.1 (s.freezeAsked q e.1)) s

/-- Units of scan-out that this seam takes: 168 for every save and restore together (R356, R357). -/
def State.scanUnits (s : State) : Nat :=
  if s.sheets.any fun sh => (sh.victim.isSome && sh.sound && recSave sh.words != 0) || sh.held == .restore then 168 else 0

/-! HOLD_UNIT (R333, R334). -/

/-- The causes in the order of R333. -/
def holdOrder : List HoldCause := [.extension, .reliability, .preemption, .debug, .current, .thermal, .slew, .powerCap]

/-- A freeze that holds the slot, or a scan of a suspended sheet (R334, R382). -/
def DebugBlock.holds (d : DebugBlock) : Bool := (d.frozen && !d.susp && decide (d.units < 256)) || decide (0 < d.scanLeft)

/-- Requests that a unit after the slot's current end answers: those that have reached the exchange by E - 128, and the scans and
freezes in progress (R333). -/
def State.asked (s : State) (z : Slot) : List HoldCause :=
  let extOk := decide (z.exts < if z.major then 16 else 1)
  ((s.requests.filter fun r => decide (r.1 + 128 ≤ z.stop)).map (·.2)).filter (fun c => c != .extension || extOk)
    ++ (if 0 < z.scan then [.preemption] else [])
    ++ (if s.pkgs.any fun p => p.parts.any fun e => e.2.dblk.holds then [.debug] else [])

/-- The cause of the next unit, if one is agreed. -/
def State.nextUnit (s : State) (z : Slot) : Option HoldCause := holdOrder.find? fun c => (s.asked z).contains c

/-- A unit counted in a sheet's HOLDS and completion record (R334). -/
def Sheet.addUnit (sh : Sheet) (c : HoldCause) : Sheet :=
  let sh := { sh with holds := sh.holds + 256 }
  match c with
  | .extension | .reliability => { sh with hrel := sh.hrel + 1 }
  | .current => { sh with hcu := sh.hcu + 1 }
  | .thermal => { sh with hth := sh.hth + 1 }
  | .slew => { sh with hsl := sh.hsl + 1 }
  | .powerCap => { sh with hcap := sh.hcap + 1 }
  | .preemption | .debug => sh

/-- A running sheet that is not saved (R334). -/
def Sheet.onClock (sh : Sheet) : Bool := sh.state == 5 && sh.held != .saved && sh.held != .restore

/-- A unit of debug freeze counted in a block. -/
def DebugBlock.addUnit (d : DebugBlock) : DebugBlock :=
  { d with units := if d.frozen && !d.susp then d.units + 1 else d.units, scanLeft := d.scanLeft - 1 }

/-- A unit of debug freeze; scans that it completes are done. -/
def State.debugUnit (s : State) : State :=
  let done := (s.pkgs.zipIdx).flatMap fun e => (e.1.parts.filter fun x => x.2.dblk.scanLeft == 1).map fun x => (e.2, x.1)
  let s := { s with pkgs := s.pkgs.map fun p => { p with
    parts := Tab.change Partition.reset (fun _ (x : Partition) => { x with dblk := x.dblk.addUnit }) p.parts } }
  done.foldl (fun s e => s.post s.ttc phSeam none (.debugScanDone e.1 e.2)) s

/-- HOLD UNIT: 256 PCC cycles appended to the slot on every package; every running sheet that is not saved counts them
(R333, R334). -/
def execHoldUnit (c : HoldCause) (s : State) : Host.Outcome State Fault Refusal :=
  match s.slot with
  | none => .next s
  | some z =>
    let s := { s with
      slot := some { z with stop := z.stop + 256, exts := if c = .extension then z.exts + 1 else z.exts
                            scan := if c = .preemption then z.scan - 1 else z.scan }
      requests := s.requests.filter fun r => decide (z.stop < r.1 + 128)
      sheets := s.sheets.map fun sh => if sh.onClock then sh.addUnit c else sh }
    .next (if c = .debug then s.debugUnit else s)

/-! Packages that leave the domain, ports that retire (R336, R340). -/

/-- A sheet in states 2 to 7 that must end at once: a running one by R34, another by its repulp, with PEER_ABORT on the other
packages (R328, R340). A recorded decision is final (R328). -/
def State.strike (s : State) (sh : Sheet) (f : FaultRec) : State :=
  if sh.state == 5 then s.raise sh.id f
  else if sh.state < 2 || 7 < sh.state || sh.decision.isSome then s
  else s.endWith sh [f]

/-- A sheet's gang includes the package, or its link plan crosses it: some reservation's port leads to it (R340). -/
def State.crosses (s : State) (sh : Sheet) (q : Nat) : Bool :=
  sh.pkgs.contains q || sh.plan.any fun r => s.farOf (sh.pkgs.getD r.prank sh.home) r.port == some q

/-- The package that detects the loss of package `q` for a sheet: `q` itself, which finds no link left; where `q` is `gone`, another of the
gang, a neighbour first (log entry 56). -/
def State.detects (s : State) (sh : Sheet) (q : Nat) (gone : Bool) : Nat :=
  if sh.pkgs.contains q && !gone then q
  else ((sh.pkgs.find? fun p => p != q && s.hops p q == 1) <|> (sh.pkgs.find? fun p => p != q)).getD sh.home

/-- LINK_FAILURE as the loss of package `q` gives it to a sheet: on `q` its port `n` and the package at the far end, elsewhere the
port toward `q` and `q` (R340, R343). -/
def State.loss (s : State) (sh : Sheet) (q n : Nat) (gone : Bool) : FaultRec :=
  let d := s.detects sh q gone
  let far := if d = q then s.farOf q n else some q
  s.whole sh d cLink 0 (w64 (if d = q then n else (s.pkg d).portTo (s.nextHop d q).2)) (w64 (far.elim 0 fun p => (s.pkg p).num.toNat)) 0

/-- Some port of the package is admitted. -/
def Package.linked (p : Package) : Bool := p.ports.any fun e => e.2.admitted

/-- The ports of a package that lead to package `q`. -/
def State.towards (s : State) (p q : Nat) : List Nat := (List.range 16).filter fun n => s.farOf p n == some q

/-- Ports of a package that lose their admission. -/
def Package.unlink (p : Package) (ns : List Nat) : Package :=
  { p with ports := Tab.change Port.reset (fun n (x : Port) => if ns.contains n then { x with admitted := false } else x) p.ports }

/-- Packages leave the domain, each with the port that it lost last and whether it is `gone`: every sheet that a loss affects is
repulped with LINK_FAILURE on the package that detects it, the links to the package are down, and a neighbour that has no other
leaves too (R340). A LEASE of its that waits is refused. The first argument bounds the walk. -/
def State.leaveAll : Nat → List (Nat × Nat × Bool) → State → State
  | 0, _, s => s
  | _ + 1, [], s => s
  | f + 1, (q, n, gone) :: r, s =>
    let hit := s.clocked.filter fun sh => s.crosses sh q
    let s := hit.foldl (fun s sh => s.strike sh (s.loss sh q n gone)) s
    let near := (List.range s.pkgs.length).filter fun p => p != q && (s.pkg p).formed && !(s.towards p q).isEmpty
    let lone := near.filter fun p => (s.pkg p).linked && !((s.pkg p).unlink (s.towards p q)).linked
    let next := lone.map fun p => (p, (s.towards p q).headD 0, false)
    let s := near.foldl (fun u p => u.updPkg p fun x => x.unlink (s.towards p q)) s
    let s := s.updPkg q fun p => { p with formed := false, dstate := 0 }
    let s := if s.leaseReq.any fun r => r.1 == q then { s with leaseReq := s.leaseReq.filter fun r => r.1 != q }.status q 1 else s
    leaveAll f (r ++ next) s

/-- A package leaves the domain (R340). -/
def State.leave (s : State) (q n : Nat) (gone : Bool) : State := s.leaveAll s.pkgs.length [(q, n, gone)]

/-- A port out of service for good. -/
def Package.retirePort (p : Package) (n : Nat) : Package :=
  { p with
    dstate := if p.dstate = 2 then 3 else p.dstate
    ports := Tab.change Port.reset (fun i (x : Port) => if i == n then { x with admitted := false, retired := true } else x) p.ports }

/-- A link is lost: its ports are retired at both ends, and an end package without an admitted port leaves (R336, R340). -/
def State.dropPort (s : State) (q n : Nat) : State :=
  let ends := (q, n) :: (s.pairOf q n).toList
  let s := ends.foldl (fun s e => s.updPkg e.1 fun p => p.retirePort e.2) s
  ends.foldl (fun s e =>
    if (s.pkg e.1).linked || (e.1 != q && !(s.pkg e.1).formed) then s else s.leave e.1 e.2 false) s

/-! The work of a major slot, packages and clocks. -/

/-- A measured skew that retraining can remove or leave within 8 cycles either way (R337). -/
def skewOk (w : W64) : Bool := (w.setWidth 8 : BitVec 8).toInt.natAbs ≤ 8

/-- An admitted port padded for a clock, with its residual skew (R339, R341). -/
def Port.retrain (x : Port) (mhz : Nat) (measured : W64) : Port :=
  if x.admitted then { x with pad := BitVec.ofNat 10 (padOf x.lat.toNat mhz), skew := measured.setWidth 8 } else x

/-- Padding recomputed, and the residual skew measured again; a port whose skew lies beyond 8 cycles fails (R336, R337). -/
def State.retrain (s : State) : State := s.eachPkg fun s q =>
  let fr := s.free
  let failed := ((s.pkg q).ports.filter fun e => e.2.admitted && !(skewOk (Config.word (fr + e.1)))).map (·.1)
  let s := (s.updPkg q fun p => { p with
    ports := Tab.change Port.reset (fun n (x : Port) => x.retrain s.mhz (Config.word (fr + n))) p.ports }).spend 16
  failed.foldl (fun s n => s.dropPort q n) s

/-- The answers to the LEASE packets that wait (R376, R377). -/
def State.answerLeases (s : State) (st : Nat) : State :=
  s.leaseReq.foldl (fun s r => s.status r.1 st) { s with leaseReq := [] }

/-- Leases asked for since the last major slot: one clock is announced a major period ahead with its return, the lowest
asked for, clamped to the sheets' lowest HI; the requests are refused below some sheet's LO (R377). -/
def State.announceLease (s : State) (n : Nat) : State :=
  let start := n + majorPeriod
  match lowestLease (s.leaseReq.map (·.2)) with
  | none => s
  | some (m, periods) =>
    let m := s.clocked.foldl (fun m sh => min m (recHi sh.words)) m
    if s.clocked.any fun sh => decide (m < recLo sh.words) then s.answerLeases 1
    else
      { s with announced := (s.announced.filter fun (a : Nat × Nat × Bool) => decide (a.1 < start))
          ++ [(start, m, false), (start + periods * majorPeriod, 1100, false)] }.answerLeases 0

/-- LEASE REVOCATION: the return is announced a major period ahead (R377). -/
def State.revokeLease (s : State) (n : Nat) : State :=
  if !s.revokeReq then s
  else { s with
    revokeReq := false
    announced := (s.announced.filter fun (a : Nat × Nat × Bool) => decide (a.1 < n + majorPeriod)) ++ [(n + majorPeriod, 1100, true)] }

/-- PACKAGE JOIN: a package that DOMAIN has trained joins the aligned domain once a link of it is admitted; a domain of one package
has none (R337, R340). -/
def Package.join (p : Package) : Package :=
  if p.dstate = 1 && (p.dsize == 1 || p.ports.any fun e => e.2.admitted) then
    { p with formed := true, ttcBase := 0, dstate := if p.ports.any fun e => e.2.retired then 3 else 2 } else p

/-- The pieces of a partition in a domain use the same watermarks, the highest that one of them has (R314, R367). -/
def State.syncMarks (s : State) (n : Nat) : State :=
  let most := fun (f : Partition → BitVec 48) =>
    (s.pkgs.filter fun p => p.formed && (p.part n).valid).foldl (fun m p => max m (f (p.part n)).toNat) 0
  (s.setCounter n (most Partition.counter)).setCur n (most Partition.cur)

def State.joinPackages (s : State) : State :=
  (List.range 8).foldl State.syncMarks { s with pkgs := s.pkgs.map Package.join }

/-- The links of the packages that have joined since `old` are admitted again at both ends, unless one of the two ports is retired
(R337, R340). -/
def State.relink (s old : State) : State :=
  let news := (List.range s.pkgs.length).filter fun q => (s.pkg q).formed && !(old.pkg q).formed
  s.eachPkg fun u q => u.updPkg q fun p =>
    if !p.formed then p
    else { p with ports := Tab.change Port.reset (fun n (x : Port) =>
      match s.pairOf q n with
      | some y =>
        if news.contains q || news.contains y.1 then
          { x with admitted := x.pad != 0 && !x.retired && !(Tab.get Port.reset (s.pkg y.1).ports y.2).retired }
        else x
      | none => x) p.ports }

/-- PACKAGE JOIN at a major slot. -/
def State.joinMajor (s : State) : State := s.joinPackages.relink s

/-- LEASE as this major slot leaves it in every package of the domain (R142). -/
def State.showLease (s : State) : State :=
  { s with pkgs := s.pkgs.map fun p => if p.formed then { p with lease := s.leaseNow } else p }

/-- The work of a major slot at seam `n` (R330). -/
def State.majorWork (s : State) (n : Nat) : State :=
  ((((((s.changeClock n).revokeLease n).announceLease n).joinMajor).retrain).trials).showLease

/-! MAINTENANCE_SLOT. -/

/-- The slot of the next seam opens: every engine freezes, the accesses of the drain fall due (R18, R28, R331). -/
def State.openSlot (s : State) : State :=
  let n := s.nextSeam
  let major := n % majorPeriod == 0
  { { s with ttc := n }.drain n with slot := some ⟨n, major, if major then 4096 else 256, 0, 0, false⟩ }

/-- The work of a slot, after its drain (R330). -/
def State.slotWork (s : State) (z : Slot) : State :=
  let s := { s with ttc := z.seam }
  let s := ({ s with pkgs := s.pkgs.map Package.debugChange }.beginFreezes.setBallast).scrubCores z.major
  let s := s.eachPkg (State.scrubErrors z.major)
  let s := { s with pkgs := s.pkgs.map Package.settle }
  let s := if z.major then s.majorWork z.seam else s
  let s := (s.retireCores).killVictims
  { s with slot := some { z with scan := s.scanUnits, worked := true } }

/-- MAINTENANCE SLOT: TTC reaches a seam and the slot opens; once the drain is over, the work of a minor or major slot is done
(R18, R28, R330 to R332). -/
def execMaintenanceSlot (s : State) : Host.Outcome State Fault Refusal :=
  match s.slot with
  | none => .next (if s.domainFormed then s.openSlot else s)
  | some z => .next (if z.worked then s else s.slotWork z)

/-! Ports and resources. -/

/-- LINK FAILURE: a port of a package is lost (R340). -/
def execLinkFailure (q n : Nat) (s : State) : Host.Outcome State Fault Refusal := .next (s.dropPort q n)

/-- RESOURCE RETIREMENT at the end of an overrun slot, spares first (R336). A lane is numbered 16 * port + lane. -/
def State.retireResource (s : State) (q kind idx : Nat) : State :=
  match kind with
  | 1 =>
    let n := idx / 16
    if (Tab.get Port.reset (s.pkg q).ports n).spare then s.dropPort q n
    else s.updPkg q fun p => { p with ports := Tab.change Port.reset (fun i (x : Port) => if i == n then { x with spare := true } else x) p.ports }
  | 2 => s.dropPort q idx
  | 3 => (if Config.choice s.free then s else s.updPkg q fun p => { p with badSets := idx :: p.badSets }).spend 1
  | _ =>
    let n := ((List.range 16).find? fun i => (Tab.get Port.reset (s.pkg q).ports i).admitted).getD 0
    (if Config.choice s.free then s else s.leave q n true).spend 1

/-! SLOT_END. -/

/-- The unfinished action of a slot that ends at PCC offset `stop` (R335). -/
def State.overrun (s : State) (stop : Nat) : Option (Nat × Nat × Nat) :=
  match s.action with
  | some (till, q, kind, idx) => if stop < till then some (q, kind, idx) else none
  | none => none

/-- SLOT OVERRUN: sheets in state 5 are repulped, sheets aligned to this seam wait for the next, the resource is retired
(R335, R336). -/
def State.overran (s : State) (n : Nat) (o : Nat × Nat × Nat) : State :=
  let d0 := w64 ((s.pkg o.1).num.toNat * 2 ^ 53 + o.2.1 % 256 * 2 ^ 8 + o.2.2 % 256)
  let s := s.sheets.foldl (fun s sh =>
    if sh.state != 5 then s
    else s.raiseAtSeam sh.id { s.whole sh sh.home cOverrun 0 d0 (w64 n) 0 with task := s.taskOf sh }) s
  let s := { s with agenda := s.agenda.map fun (e : Event) => match e.act with
    | .sheetAlignment _ => if e.ttc = n then { e with ttc := n + minorPeriod } else e
    | _ => e }
  s.retireResource o.1 o.2.1 o.2.2

/-- What comes at a seam once the slot is over and before any word: saves, returns, freezes and suspensions. -/
def State.seamSteps (s : State) : State :=
  s.sheets.foldl (fun s sh =>
    if sh.victim.isSome && sh.sound then s.postFirst (some sh.id) (.contextSave sh.id)
    else if sh.held == .restore || sh.held == .release then s.postFirst (some sh.id) (.resume sh.id)
    else if sh.irrev == 1 && sh.sound then s.postFirst (some sh.id) (.irrevocableFreeze sh.id)
    else if sh.sound && (sh.pkgs.any fun q =>
      let d := ((s.pkg q).part sh.part).dblk
      d.held == some sh.id && !d.susp && decide (256 ≤ d.units)) then
        s.postFirst (some sh.id) (.debugSuspension sh.id)
    else s) s

/-- SLOT END: TTC goes on at the seam's value, PCC has counted the slot; an unfinished action makes it an overrun (R16, R18,
R330, R335). A request that came after E - 128 applies to the next end (R333). -/
def execSlotEnd (s : State) : Host.Outcome State Fault Refusal :=
  match s.slot with
  | none => .next s
  | some z =>
    let kept := (s.requests.filter fun (r : Nat × HoldCause) => decide (z.stop < r.1 + 128)).map fun r => r.2
    let s : State := { s with
      slot := none
      ttc := z.seam
      seams := z.seam / minorPeriod
      requests := (kept.filter fun c => c != .extension).map fun c => (0, c)
      pkgs := s.pkgs.map fun (p : Package) => { p.settle with pcc := p.pcc + w64 z.stop } }
    let late := s.overrun z.stop
    let s := State.seamSteps { s with action := none }
    let s := match late with
      | some o => s.overran z.seam o
      | none => s
    let parts := s.domain.flatMap fun q => (s.pkg q).parts.map fun (e : Nat × Partition) => e.1
    .next (parts.eraseDups.foldl State.stir s)

/-! Save and return (R35, R355 to R358). -/

/-- Last-good + 10 mV restored for a pair under trial, once (R354). -/
def Package.restoreMargin (p : Package) (pair : Nat) : Package :=
  match p.trial with
  | some t =>
    if t.pair == pair && !t.restored then
      { p with trial := some { t with failed := true, restored := true }
               lastGood := Tab.set 0 pair (Tab.get 0 p.lastGood pair + 10) p.lastGood }
    else p
  | none => p

/-- An uncorrectable error of a pair under trial that the copy of a save meets: within a major slot its voltage is restored, at another
seam as outside a slot (R354; log entry 60). -/
def State.saveMargin (s : State) (q ch loc addr : Nat) : State :=
  if !(s.pkg q).underTrial ch then s
  else if s.ttc % majorPeriod = 0 then s.updPkg q fun p => p.restoreMargin (ch / 18)
  else (s.updPkg q fun p => { p with trial := p.trial.map fun t => { t with failed := true, addr := w64 addr } }).post s.ttc phStop none
    (.marginRestore q (ch / 18) loc)

/-- CONTEXT SAVE: the victim's image is written, its cores and queued accesses leave the clusters; it keeps state 5, its vat
lines and its quota (R35, R310, R356). An uncorrectable error discards the save; a sheet that faulted is not saved. -/
def execContextSave (id : Nat) (s : State) : Host.Outcome State Fault Refusal :=
  match s.sheet? id with
  | none => .next s
  | some sh =>
    let s := s.updSheet id fun x => { x with victim := none }
    if !(s.unfaulted sh) then .next s
    else
      match s.saveError sh with
      | some (k, loc, a) =>
        let q := keyPkg k
        let ch := (s.pkg q).coreChannel (keyId k)
        let f := { s.wholeRec sh q k cUncorrectable loc (s.taskOf sh) (w64 a) 0 0 with margin := (s.pkg q).underTrial ch }
        .next ((s.raiseAtSeam id f).saveMargin q ch loc a)
      | none =>
        let keys := sh.pkgs.map fun q => (s.pkg q).saveKey sh.part
        let s := (((s.freeze id .saved).writeImage sh).keepTags id).updSheet id fun x => { x with skeys := keys }
        let mine := s.cores.filter fun e => e.2.sh == id
        .next (({ s with cores := s.cores.filter fun e => e.2.sh != id
                         savedCores := s.savedCores ++ mine.map fun (e : Nat × Core) => (id, e.1, e.2) }).wake sh.part)

/-- What a restore finds wrong with the save area on a package: another version, a poisoned line, or an uncorrectable error of HBM
(R357). -/
def State.restoreFault (s : State) (sh : Sheet) : Option FaultRec :=
  let a := recSave sh.words
  (sh.pkgs.zipIdx).findSome? fun e =>
    let q := e.1
    let p := s.pkg q
    let n := saveBytes sh q
    let bad := ((p.poisoned [(a, a + n - 1)]).map (64 * ·)) <|> ((p.errors.find? fun x =>
      x.kind == 2 && decide (216 ≤ x.ch) && decide (x.ch < 224) && decide (a ≤ x.addr) && decide (x.addr < a + n)).map (·.addr))
    match bad with
    | some b => some { s.whole sh q cUncorrectable 6 (w64 b) 0 0 with ch := some (q, 216 + stackOf b) }
    | none =>
      if bits (leNat (p.readUnder (sh.skeys.getD e.2 []) a 8)) 48 16 = 3 then none else some (s.whole sh q cKill 0 0 0 0)

/-- RESUME: a saved or frozen sheet goes on at this seam with T0' = T0 + (TTC now - TTC at its stop), so that no task cycle
moves (R17, R323, R357, R358); where its reservations would meet another sheet's, a later seam is tried (R243). -/
def execResume (id : Nat) (s : State) : Host.Outcome State Fault Refusal :=
  match s.sheet? id with
  | none => .next s
  | some sh =>
    let gap := s.ttc - sh.heldAt
    if sh.state != 5 || !(sh.held == .restore || sh.held == .release) || !sh.stops.isEmpty then .next s
    else if s.planMeets sh (sh.t0 + gap) then .next s
    else
      match if sh.held = .restore then s.restoreFault sh else none with
      | some f => .next ((s.updPkg f.pkg fun p => { p with errors := p.errors.filter fun x => w64 x.addr != f.d0 }).raiseAtSeam id f)
      | none => .next ((s.unshelve id gap).updSheet id fun x => { x with t0 := x.t0 + gap, held := .none })

/-- DEBUG SUSPENSION: a freeze past 256 units goes on in place, off the slots (R334, R358). -/
def execDebugSuspension (id : Nat) (s : State) : Host.Outcome State Fault Refusal :=
  match s.sheet? id with
  | none => .next s
  | some sh =>
    if !(s.unfaulted sh) then .next s
    else
      let s := s.freeze id .inPlace
      .next (sh.pkgs.foldl (fun s q => s.updPart q sh.part fun p =>
        if p.dblk.held == some id then { p with dblk := { p.dblk with susp := true } } else p) s)

/-! MARGIN_RESTORE (R354). -/

/-- A core of a sheet in a pair of clusters of a package. -/
def Sheet.inPair (sh : Sheet) (q pair : Nat) : Option Nat :=
  sh.gang.find? fun k => keyPkg k == q && clusterOf (keyId k) / 2 == pair

/-- MARGIN RESTORE: the trial of a pair has failed, last-good + 10 mV is restored, and every sheet with a core in the pair is repulped
at the end of this cycle with UNCORRECTABLE, whose subcode is the location of the error, but one that has met it itself or has
stopped there (R345, R354). A saved sheet has no core in the pair. -/
def execMarginRestore (q pair loc : Nat) (s : State) : Host.Outcome State Fault Refusal :=
  let addr := ((s.pkg q).trial.map Trial.addr).getD 0
  let s := s.updPkg q fun p => p.restoreMargin pair
  .next (s.sheets.foldl (fun s sh =>
    match sh.inPair q pair with
    | none => s
    | some k =>
      if !sh.holdsClusters || (sh.stopAt q).isSome
          || sh.faults.any (fun f => f.pkg == q && f.cause == cUncorrectable && f.task == s.taskOf sh) then s
      else s.strike sh { s.whole sh q cUncorrectable loc addr 0 0 with
        ch := some (q, (s.pkg q).coreChannel (keyId k)), margin := true }) s)

end Sys2Proof.Machine
end

