-- ==== Sys2Proof/Machine/Host.lean ====
section
/-! DEFINITION. The host's commands (R366 to R368, R372, R373, R376, R377, R384), mailboxes (R379), reset (R6, R371) and the
takeover by the twin (R337). -/

namespace Sys2Proof.Machine

/-! Shared. -/

/-- Bytes written unencrypted to device memory by an untimed agent, which running sheets may meet (R280). -/
def State.untimedWrite (s : State) (q a : Nat) (bs : List Byte) : State := s.untimedBytes q [] a bs

/-- A sheet of the package is in states 2 to 7. -/
def State.busyPkg (s : State) (q : Nat) : Bool :=
  s.sheets.any fun sh => decide (2 ≤ sh.state) && decide (sh.state ≤ 7) && (sh.home == q || sh.pkgs.contains q)

/-- Key slots cleared where `f` says so: GEN counts the clear (R368). -/
def Package.clearKeys (p : Package) (f : Nat → KeySlot → Bool) : Package :=
  { p with slots := Tab.change KeySlot.reset (fun i (k : KeySlot) =>
      if k.valid && f i k then { k with valid := false, dbgclr := false, gen := k.gen + 1, key := [] } else k) p.slots }

/-- The security state as fused (R373). -/
def fusedSec : BitVec 2 := if Config.identity then 1 else 0

/-- Faults logged on the packages of a sheet that have not stopped, and PEER_ABORT on those that have none of them (R34). -/
def State.logEnd (s : State) (q : Nat) (sh : Sheet) (fs : List FaultRec) : State :=
  (sh.pkgs.filter fun p => p != q && (sh.stopAt p).isNone).foldl (fun s p =>
    match fs.filter fun f => f.pkg == p with
    | [] => fs.head?.elim s fun f => s.logFault sh (s.peerRec sh p f f.task)
    | own => own.foldl (fun s f => s.logFault sh f) s) s

/-- A sheet armed by a package that is gone ends with it: the packages of its gang report the loss (R34, R340; log entry 56). A
decision that has been recorded is applied first on every package that still holds its prepared state (R328). -/
def State.orphan (s : State) (q : Nat) (sh : Sheet) : State :=
  match sh.decision with
  | some (some w) => ((sh.prepared.foldl (fun s e => s.install sh e.1 w) s).setCur sh.part w).couched sh w
  | some none => (((s.logEnd q sh (sh.byRank sh.vatFaults)).release sh.id).drop sh.id).stir sh.part
  | none =>
    let s := if sh.state < 2 then s else s.logEnd q sh [s.loss sh q 0 true]
    ((s.release sh.id).drop sh.id).stir sh.part

/-- A package is gone from the domain with the sheets it armed; its cores run no other (R340, R373). -/
def State.vanish (s : State) (q : Nat) : State :=
  let s := (s.sheets.filter fun sh => sh.home == q).foldl (fun s sh => s.orphan q sh) s
  let s := if (s.pkg q).formed then s.leave q 0 true else s
  { s with cores := s.cores.filter fun e => keyPkg e.1 != q }

/-! PARTITION (R366, R367). -/

/-- PARTp as written, over the fields that a write does not reach. A partition that comes to exist starts with the watermarks it
has elsewhere in the domain, or 0 (R314, R367), and with a record pool at a base that the driver chooses: a multiple of 4 KiB in
device memory that no register shows (R298, R384; log entry 11). -/
def Partition.write (x : Partition) (w0 w1 w2 w3 : W64) (marks : BitVec 48 × BitVec 48) (base : W64) : Partition :=
  let valid := bits w0.toNat 63 1 == 1
  let b := if valid && !x.valid then
      { x with counter := marks.1, cur := marks.2, pool := 4096 * (base.toNat % (3 * 2 ^ 25 - 1023)) }
    else x
  { b with
    valid := valid, privok := bits w0.toNat 62 1 == 1, retain := bits w0.toNat 59 1 == 1
    clus := BitVec.ofNat 24 w0.toNat, ehi := BitVec.ofNat 18 (bits w1.toNat 24 18), elo := BitVec.ofNat 18 w1.toNat
    keys := BitVec.ofNat 128 (w2.toNat + 2 ^ 64 * w3.toNat) }

/-- Two partitions share a cluster, an extent or a key slot (R366). -/
def Partition.shares (x y : Partition) : Bool :=
  x.valid && y.valid && (x.clus &&& y.clus != 0 || x.keys &&& y.keys != 0 || (decide (x.elo ≤ y.ehi) && decide (y.elo ≤ x.ehi)))

/-- Key slots name their owner (R368). -/
def Package.ownSlots (p : Package) (n : Nat) (keys : BitVec 128) : Package :=
  { p with slots := (List.range 128).foldl (fun (t : Tab KeySlot) k =>
      if keys.getLsbD k then Tab.set KeySlot.reset k { Tab.get KeySlot.reset t k with part := BitVec.ofNat 3 n } t else t) p.slots }

/-- Every couched version of a partition goes into place, the lowest watermark first; no sheet is live (R319, R327). -/
def Package.drainPart (p : Package) (n : Nat) : Package :=
  { (p.versions.filter fun v => v.part == n).foldl Package.putVersion p with
    versions := p.versions.filter fun v => v.part != n, filter := p.filter.filter fun e => e.1 != n }

/-- PARTITION: refused while a sheet of the partition is in states 2 to 7, or where it would share with another (R366). -/
def execPartition (q n : Nat) (w0 w1 w2 w3 : W64) (s : State) : Host.Outcome State Fault Refusal :=
  let home := (s.pkg (s.markHome n)).part n
  let old := (s.pkg q).part n
  let x := old.write w0 w1 w2 w3 (if home.valid then (home.counter, home.cur) else (0, 0)) (Config.word s.free)
  let busy := s.sheets.any fun sh => sh.part == n && decide (2 ≤ sh.state) && decide (sh.state ≤ 7)
  if 8 ≤ n || busy || (s.pkg q).parts.any (fun e => e.1 != n && x.shares e.2) then .next (s.status q 1)
  else
    .next (((s.updPkg q fun p =>
      let p := if x.valid == old.valid then p else p.drainPart n
      let p := (p.setPart n x).ownSlots n x.keys
      { p with spdm := { p.spdm with challenged := false } }).spend 1).status q 0)

/-! DOMAIN (R337 to R339, R376). -/

/-- LINK TRAINING of a port with a direction: its latency is measured in both directions; it is admitted when each is at most
595,200 ps and they differ by at most 4,000 ps (R337). -/
def trainPort (fr mhz n dir : Nat) : Port :=
  let lat := (Config.word (fr + n)).toNat % 2 ^ 20
  let back := (Config.word (fr + 16 + n)).toNat % 2 ^ 20
  let ok := decide (lat ≤ 595200) && decide (back ≤ 595200) && decide (lat ≤ back + 4000) && decide (back ≤ lat + 4000)
  { skew := BitVec.ofInt 8 (((Config.word (fr + 32 + n)).toNat % 17 : Nat) - (8 : Int))
    pad := if ok then BitVec.ofNat 10 (padOf lat mhz) else 0, lat := BitVec.ofNat 20 lat
    admitted := ok, retired := false, spare := false, dir := BitVec.ofNat 3 dir }

/-- The fields of DOMAIN: NUM, DSIZE, coordinates, extents. -/
def domainFields (w1 w2 w3 : W64) : Nat × Nat × (Nat × Nat × Nat) × (Nat × Nat × Nat) :=
  let a := w1.toNat
  let b := w2.toNat
  (bits a 0 11, bits a 11 12, (bits b 0 11, bits b 11 11, bits b 22 11), (bits b 33 11, bits b 44 11, bits w3.toNat 0 11))

/-- A package as DOMAIN leaves it: its place, its links trained (R337, R376). -/
def Package.enlist (p : Package) (fr mhz : Nat) (w1 w2 w3 : W64) : Package :=
  let f := domainFields w1 w2 w3
  { p with
    num := BitVec.ofNat 11 f.1, dsize := BitVec.ofNat 12 f.2.1, coord := f.2.2.1, ext := f.2.2.2, dstate := 1, master := 0
    ports := (List.range 16).filterMap fun n =>
      let d := bits w3.toNat (3 * n + 16) 3
      if d = 0 then none else some (n, trainPort fr mhz n d) }

/-- The domain is formed once every number of it has its package: TTC becomes a multiple of 1,048,576, whose major slot is
its first (R337). -/
def State.formDomain (s : State) (size : Nat) : State :=
  let here := fun (n : Nat) => s.pkgs.any fun p => p.dstate == 1 && p.num.toNat == n && p.dsize.toNat == size
  if s.domainFormed || size = 0 || !((List.range size).all here) then s
  else
    let t := (s.ttc / majorPeriod + 1) * majorPeriod
    State.joinMajor { s with ttc := t, seams := t / minorPeriod - 1 }

/-- DOMAIN: the package gets its number and trains its links; it joins the domain when that is formed, or at the next major
slot of one that runs (R337, R340). Refused for a package in a domain, before its partitions (R384), and for numbers that
name no place on the torus (R241). -/
def execDomain (q : Nat) (w1 w2 w3 : W64) (s : State) : Host.Outcome State Fault Refusal :=
  let f := domainFields w1 w2 w3
  let x := f.2.2.1
  let e := f.2.2.2
  let bad := decide (f.2.1 ≤ f.1) || e.1 * e.2.1 * e.2.2 != f.2.1 || decide (e.1 ≤ x.1) || decide (e.2.1 ≤ x.2.1)
    || decide (e.2.2 ≤ x.2.2) || s.pkgs.zipIdx.any fun y => y.2 != q && y.1.dstate != 0 && y.1.num.toNat == f.1
  if (s.pkg q).formed || bad || !((s.pkg q).parts.any fun y => y.2.valid) then .next (s.status q 1)
  else
    .next ((((s.updPkg q fun p => p.enlist s.free s.mhz w1 w2 w3).spend 48).formDomain f.2.1).status q 0)

/-! LEASE (R377). -/

/-- LEASE: the request waits for the alignment master's next major slot, which answers it (R376, R377; log entry 56). -/
def execLease (q mhz periods : Nat) (s : State) : Host.Outcome State Fault Refusal :=
  if !(s.pkg q).formed || mhz < 1100 || 1250 < mhz || periods = 0 then .next (s.status q 1)
  else .next { s with leaseReq := s.leaseReq ++ [(q, mhz, periods)] }

/-! POWER (R373). -/

/-- A package in standby: keys cleared but under RETAIN, attested becomes provisioned. -/
def Package.standby (p : Package) : Package :=
  let p := p.clearKeys fun _ k => !((p.part k.part.toNat).retain)
  { p with power := 2, dstate := 0, sec := if p.sec = 2 then 1 else p.sec }

/-- A package that is off: HBM's content lost, keys cleared, debug locked, security as fused. -/
def Package.off (p : Package) : Package :=
  let p := p.clearKeys fun _ _ => true
  { p with
    power := 3, dstate := 0, sec := fusedSec, hbm := [], lineKeys := [], poison := [], vat := [], versions := [], filter := []
    parts := Tab.change Partition.reset (fun _ (x : Partition) => { x with dbg := 0, dbgNext := none }) p.parts }

/-- A package active or idle again: after standby it waits to rejoin its domain (R340, R373). -/
def Package.rouse (p : Package) (st : BitVec 2) : Package :=
  { p with power := st, dstate := if p.power = 2 && p.dsize != 0 then 1 else p.dstate }

/-- POWER: idle keeps everything; standby is refused while a sheet is in states 2 to 7; standby and off leave the domain, off has no
sheets; active or idle after standby rejoins the domain at a major slot, or forms it again with the others (R337, R340, R373). The
packet is done before the next one begins. -/
def execPower (q st : Nat) (s : State) : Host.Outcome State Fault Refusal :=
  if st = 2 && s.busyPkg q then .next (s.status q 1)
  else
    let s := s.finish q 0
    let s := match st with
      | 0 | 1 => (s.updPkg q fun p => p.rouse (BitVec.ofNat 2 st)).formDomain (s.pkg q).dsize.toNat
      | 2 => (if (s.pkg q).formed then s.leave q 0 true else s).updPkg q Package.standby
      | _ => (s.vanish q).updPkg q Package.off
    .next (s.nextPacket q)

/-! DEBUG (R372). -/

/-- A debug state asked for: it takes effect at the next seam, or at once where no seam falls. -/
def Package.askDebug (p : Package) (n : Nat) (d : BitVec 2) : Package :=
  let p := p.setPart n { p.part n with dbgNext := some d }
  let p := { p with spdm := { p.spdm with challenged := false } }
  if p.formed then p else p.debugChange

/-- DEBUG: a token signed under a fused key. Vendor-debug is refused while a sheet of the package is in states 2 to 7; it
clears every key slot and sets unprovisioned (R372). -/
def execDebugToken (q : Nat) (token : List W64) (s : State) : Host.Outcome State Fault Refusal :=
  let g := Config.tokenGrant token
  if !(Config.tokenValid token) || 3 ≤ g.1 || 8 ≤ g.2 || (g.1 = 2 && s.busyPkg q) then .next (s.status q 1)
  else if g.1 = 2 then
    .next ((s.updPkg q fun p =>
      (List.range 8).foldl (fun p n => p.askDebug n 2) { p.clearKeys (fun _ _ => true) with sec := 0 }).status q 0)
  else .next ((s.updPkg q fun p => p.askDebug g.2 (BitVec.ofNat 2 g.1)).status q 0)

/-! VATCFG and the mailboxes (R320, R379). -/

def Package.mailbox (p : Package) (i : Nat) : Mailbox := Tab.get Mailbox.reset p.mail i

def Package.setMailbox (p : Package) (i : Nat) (m : Mailbox) : Package := { p with mail := Tab.set Mailbox.reset i m p.mail }

/-- VATCFG: operation 1 of every stack's mailbox; the size counts from the next package reset (R320, R379). It is refused while
a mailbox is busy, which would ignore it (log entry 56). -/
def execVatcfg (q size : Nat) (s : State) : Host.Outcome State Fault Refusal :=
  if (s.pkg q).mail.any fun e => e.2.busy then .next (s.status q 1)
  else
    .next ((s.updPkg q fun p => (List.range 8).foldl (fun p i =>
      { p.setMailbox i { busy := false, op := 1, stat := 0, args := [w64 size, 0, 0] } with
        vatNext := Tab.set 0 i (BitVec.ofNat 5 (vatUnits (BitVec.ofNat 5 size))) p.vatNext }) p).status q 0)

/-- A stack controller answers a message with words whose values the spec does not give. -/
def State.mailAnswer (s : State) (q i op : Nat) : State :=
  (s.updPkg q fun p => p.setMailbox i
    { busy := false, op := BitVec.ofNat 8 op, stat := 0, args := (List.range 3).map fun j => Config.word (s.free + j) }).spend 3

/-- READ REPAIR MAP: operation 2. -/
def execReadRepairMap (q i : Nat) (s : State) : Host.Outcome State Fault Refusal := .next (s.mailAnswer q i 2)

/-- READ TEMPERATURES: operation 3. -/
def execReadTemperatures (q i : Nat) (s : State) : Host.Outcome State Fault Refusal := .next (s.mailAnswer q i 3)

/-- ELOST CLEAR (R349). -/
def Package.clearLost (p : Package) : Package := { p with lost := 0, firstLost := 0 }

def execElostClear (q : Nat) (s : State) : Host.Outcome State Fault Refusal := .next (s.updPkg q Package.clearLost)

/-! Reset and takeover. -/

/-- Couched versions go into place, the lowest watermark first (R319). -/
def Package.drainAll (p : Package) : Package := { p.versions.foldl Package.putVersion p with versions := [], filter := [] }

/-- The images that the boot ROM verifies: mill controller, stack controllers, headbox, by their measurement index (R370, R371). -/
def bootImages : List Nat := [2, 3, 4]

/-- The first firmware image of package `q` that fails its signature or its rollback check (R371). -/
def Package.failedImage (p : Package) (q : Nat) : Option Nat :=
  bootImages.find? fun i => !(Config.firmwareGood (8 * q + i)) || decide (Config.rollback (8 * q + i) < p.fuses)

/-- A package after reset: every register at its reset value, a pending vat size in force; memory and fuses stand (R6, R320). A
firmware image that fails its check holds the package in reset and is reported (R371). TTC counts from 0 (R139). -/
def Package.afterReset (p : Package) (ttc : Nat) (bad : Option Nat) : Package :=
  let d := p.drainAll
  { Package.reset with
    hbm := d.hbm, lineKeys := d.lineKeys, poison := d.poison, errors := p.errors, vatSize := p.vatNext, vatNext := p.vatNext
    sec := fusedSec, fuses := p.fuses, ttcBase := ttc, booted := bad.isNone, badImage := bad }

/-- A pending step of a package that belongs to no sheet. -/
def packageStep (q : Nat) : Act → Bool
  | .readRepairMap p _ | .readTemperatures p _ | .linkFailure p _ | .marginRestore p _ _ | .vatDrain p _ _
  | .debugFreeze p _ | .debugRelease p _ | .debugScan p _ | .debugScanDone p _ | .headboxDescriptor p _
  | .headboxFrameDone p _ => p == q
  | a => isPacket q a

/-- PACKAGE RESET: the package leaves its domain, the sheets it armed are gone, its frames' tags are 0 (R6, R80, R340, R371). -/
def execPackageReset (q : Nat) (s : State) : Host.Outcome State Fault Refusal :=
  let s := s.vanish q
  let s := { s with
    frames := s.frames.filter fun e => keyPkg e.1 != q
    agenda := s.agenda.filter fun e => !(packageStep q e.act) }
  .next (s.updPkg q fun p => p.afterReset s.ttc (p.failedImage q))

/-- STANDBY TWIN TAKEOVER: the twin goes on with the roles of the failed mill controller; decisions that were recorded reach
their packages through it (R328, R337). -/
def execStandbyTwinTakeover (q : Nat) (s : State) : Host.Outcome State Fault Refusal :=
  let s := s.updPkg q fun p => { p with twin := true }
  .next (s.sheets.foldl (fun s sh =>
    if sh.decision.isNone then s.pump sh.part
    else sh.prepared.foldl (fun s e => s.postOnce sh.id (.couchApply sh.id e.1)) s) s)

end Sys2Proof.Machine
end

