-- ==== Sys2Proof/Machine/DebugUnit.lean ====
section
/-! DEFINITION. The debug block with MARK and BRK (R124, R382). -/

namespace Sys2Proof.Machine

/-- The debug state of a partition lets its block be used (R372, R375). -/
def State.unlocked (s : State) (q n : Nat) : Bool := ((s.pkg q).part n).dbg != 0

/-- A freeze asked for, once. -/
def DebugBlock.ask (d : DebugBlock) (a : BitVec 14 × Option Nat) : DebugBlock :=
  { d with asks := if d.asks.contains a then d.asks else d.asks ++ [a] }

/-- DEBUG FREEZE: a freeze of the sheet of record REC is asked for at the next seam. -/
def execDebugFreeze (q n : Nat) (s : State) : Host.Outcome State Fault Refusal :=
  .next (if s.unlocked q n then s.updDebug q n fun d => d.ask (d.ctlRec, none) else s)

/-- DEBUG RELEASE: the freeze ends with the current unit, or a suspended sheet resumes at a later seam; FROZEN and SCANNED are
cleared. -/
def execDebugRelease (q n : Nat) (s : State) : Host.Outcome State Fault Refusal := .next (s.releaseBlock q n)

/-- DEBUG SCAN: while the sheet is frozen and has a save area, its image is written in 168 further units of debug freeze
(R356). -/
def execDebugScan (q n : Nat) (s : State) : Host.Outcome State Fault Refusal :=
  .next (match s.frozenSheet q n with
    | some sh =>
      if ((s.pkg q).part n).dblk.frozen && recSave sh.words != 0 then s.updDebug q n fun d => { d with scanLeft := 168 } else s
    | none => s)

/-- DEBUG SCAN DONE: the image stands in the save area and SCANNED is set. -/
def execDebugScanDone (q n : Nat) (s : State) : Host.Outcome State Fault Refusal :=
  .next (match s.frozenSheet q n with
    | some sh =>
      if ((s.pkg q).part n).dblk.frozen then (s.writeImage sh).updDebug q n fun d => { d with scanned := true } else s
    | none => s)

/-- A trace entry (R382): it is dropped where the ring is full. -/
def State.trace (s : State) (q n : Nat) (entry : List Byte) : State :=
  let d := ((s.pkg q).part n).dblk
  if d.trHead - d.trTail == d.trSize.setWidth 64 then s.updDebug q n fun d => { d with trLost := d.trLost + 1 }
  else
    (s.untimedWrite q (d.trBase.toNat + 16 * (d.trHead.toNat % max 1 d.trSize.toNat)) entry).updDebug q n fun d =>
      { d with trHead := d.trHead + 1 }

/-- MARK n: a trace entry where the package's debug state and the ring permit it (R124, R382). -/
def execMark (n : BitVec 16) (s : State) : Host.Outcome State Fault Refusal :=
  let x := s.cur
  match s.core? x.k with
  | none => .next s
  | some c =>
    match s.sheet? c.sh with
    | none => .next s
    | some sh =>
      let q := keyPkg x.k
      if x.off || !(s.unlocked q sh.part) || !((s.pkg q).part sh.part).dblk.trEn then .next s
      else
        .next (s.trace q sh.part (leBytes 8 (n.toNat * 2 ^ 48 + x.t % 2 ^ 48)
          ++ leBytes 8 (c.rank % 2 ^ 19 * 2 ^ 24 + keyId x.k * 2 ^ 16 + x.col.code * 2 ^ 14 + sh.rcd)))

/-- BRK n: where bit n of the bitmap is set and the debug state permits, a freeze of this sheet is asked for (R124, R382). -/
def execBrk (n : BitVec 16) (s : State) : Host.Outcome State Fault Refusal :=
  let x := s.cur
  match s.core? x.k with
  | none => .next s
  | some c =>
    match s.sheet? c.sh with
    | none => .next s
    | some sh =>
      let q := keyPkg x.k
      let base := ((s.pkg q).part sh.part).dblk.bpBase.toNat
      let armed := base != 0 && bits (leNat ((s.pkg q).getMem (base + n.toNat / 8) 1)) (n.toNat % 8) 1 == 1
      if x.off || !armed || !(s.unlocked q sh.part) then .next s
      else .next (s.updDebug q sh.part fun d =>
        { d.ask (BitVec.ofNat 14 sh.rcd, some sh.id) with brkn := n, stRec := BitVec.ofNat 14 sh.rcd })

/-- TRACE LOST CLEAR. -/
def execTraceLostClear (q n : Nat) (s : State) : Host.Outcome State Fault Refusal :=
  .next (if s.unlocked q n then s.updDebug q n fun d => { d with trLost := 0 } else s)

end Sys2Proof.Machine
end

