-- ==== Sys2Proof/Machine/Headbox.lean ====
section
/-! DEFINITION. The headbox units (R380, R381). -/

namespace Sys2Proof.Machine

def Package.box (p : Package) (u : Nat) : Headbox := Tab.get Headbox.reset p.boxes u

def State.updBox (s : State) (q u : Nat) (f : Headbox → Headbox) : State :=
  s.updPkg q fun p => { p with boxes := Tab.set Headbox.reset u (f (p.box u)) p.boxes }

/-- The unit takes its next descriptor while it is enabled. -/
def State.boxNext (s : State) (q u : Nat) : State :=
  let b := (s.pkg q).box u
  if !(s.pkg q).silent && b.en && b.job.isNone && b.head != b.tail && b.size != 0 && !(s.agenda.any fun e => e.act == .headboxDescriptor q u) then
    s.post s.ttc phSeam none (.headboxDescriptor q u)
  else s

/-- HBCTL as written: PART is kept while the unit is enabled, KEY unless it is a slot of PART (log entry 58); EN set again clears CODE
(R381). -/
def Headbox.control (b : Headbox) (p : Package) (v : W64) : Headbox :=
  let en := bits v.toNat 63 1 == 1
  let part := if b.en then b.part else BitVec.ofNat 3 v.toNat
  let key := BitVec.ofNat 7 (bits v.toNat 8 7)
  { b with
    en := en, part := part, key := if (p.part part.toNat).keys.getLsbD key.toNat then key else b.key
    code := if en && !b.en then 0 else b.code }

def State.writeHbctl (s : State) (q u : Nat) (v : W64) : State := (s.updBox q u fun b => b.control (s.pkg q) v).boxNext q u

/-- HBCTL WRITE. A package that is held in reset or off takes none (R371, R373). -/
def execHbctlWrite (q u : Nat) (v : W64) (s : State) : Host.Outcome State Fault Refusal :=
  .next (if (s.pkg q).silent then s else s.writeHbctl q u v)

/-- The fields of a descriptor (R380). -/
structure FrameJob where
  codec : Nat
  src : Nat
  fmt : Nat
  out : Nat
  height : Nat
  width : Nat
  pitch : Nat
  done : Nat

def frameJob (ws : List W64) : FrameJob :=
  let w := fun (i : Nat) => (ws.getD i 0).toNat
  ⟨bits (w 0) 48 2, bits (w 0) 0 48, bits (w 1) 48 4, bits (w 1) 0 48, bits (w 2) 48 14, bits (w 2) 32 14, bits (w 2) 0 32, w 3⟩

/-- The bytes that a frame occupies (R380). -/
def FrameJob.bytes (j : FrameJob) : Nat := j.pitch * j.height + j.pitch * ((j.height + 1) / 2)

/-- A byte range within a partition's extents. -/
def Partition.owns (x : Partition) (a n : Nat) : Bool :=
  x.valid && decide (x.elo.toNat * 2 ^ 21 ≤ a) && decide (a + n ≤ (x.ehi.toNat + 1) * 2 ^ 21)

/-- The key under which a unit reads and writes HBM: that of its slot, where its partition has the slot (R368, R381). -/
def Package.boxKey (p : Package) (b : Headbox) : List Byte :=
  if (p.part b.part.toNat).keys.getLsbD b.key.toNat then p.keyOf b.key.toNat else []

/-- The bitstream of a descriptor as a unit reads it: byte `i` of it. -/
def State.bitstream (s : State) (q : Nat) (b : Headbox) (src i : Nat) : Byte :=
  (s.untimedRead q ((s.pkg q).boxKey b) (src + i) 1).headD 0

/-- A descriptor with a reserved bit set (R7, R380). -/
def reservedJob (ws : List W64) : Bool :=
  let w := fun (i : Nat) => (ws.getD i 0).toNat
  bits (w 0) 50 14 != 0 || bits (w 1) 52 12 != 0 || bits (w 2) 62 2 != 0 || bits (w 2) 46 2 != 0

/-- The refusal that a descriptor meets before decoding (R381), `stream` being its bitstream. Misaligned addresses count as addresses,
sizes out of range as sizes (log entry 58). -/
def FrameJob.refusal (j : FrameJob) (x : Partition) (stream : Nat → Byte) : Option Nat :=
  if j.codec = 3 then some 1
  else if j.fmt != 7 && j.fmt != 3 then some 2
  else if !(x.owns j.src 1) || !(x.owns j.out j.bytes) || !(x.owns j.done 8) || j.out % 64 != 0 || j.done % 8 != 0 then some 3
  else if j.height < 2 || 4320 < j.height || j.width < 2 || 7680 < j.width || Config.codedWidth j.codec stream != j.width
      || Config.codedHeight j.codec stream != j.height then some 4
  else if j.pitch % 128 != 0 || j.pitch < 2 * j.width then some 5
  else none

/-- A descriptor is refused: recorded, HEAD goes on (R381). -/
def Headbox.refuse (b : Headbox) (code : Nat) : Headbox :=
  { b with code := BitVec.ofNat 8 code, index := BitVec.ofNat 32 b.head.toNat, head := b.head + 1, job := none }

/-- What a unit makes of the descriptor at an address: refused where that lies outside the owning partition or a reserved bit is set,
the latter with a code that the spec does not give (log entry 58). -/
def State.jobRefusal (s : State) (q : Nat) (b : Headbox) (a : Nat) (ws : List W64) : Option Nat :=
  let x := (s.pkg q).part b.part.toNat
  let j := frameJob ws
  if !(x.owns a 32) then some 3
  else if reservedJob ws then some (1 + (Config.word s.free).toNat % 6)
  else j.refusal x (s.bitstream q b j.src)

/-- HEADBOX DESCRIPTOR: the next descriptor is refused, or its frame is decoded, which takes time that the spec leaves open. -/
def execHeadboxDescriptor (q u : Nat) (s : State) : Host.Outcome State Fault Refusal :=
  let p := s.pkg q
  let b := p.box u
  if !b.en || b.job.isSome || b.head == b.tail || b.size = 0 then .next s
  else
    let a := b.base.toNat + 32 * (b.head.toNat % b.size.toNat)
    let ws := toWords (s.untimedRead q (p.boxKey b) a 32)
    match s.jobRefusal q b a ws with
    | some code => .next (((s.updBox q u fun b => b.refuse code).spend 1).boxNext q u)
    | none =>
      .next (((s.updBox q u fun b => { b with job := some ws }).post (s.ttc + Config.loading s.free) phSeam none
        (.headboxFrameDone q u)).spend 1)

/-- A sample in its two bytes: INT16, or FP16, which holds ten bits exactly. -/
def sampleBytes (fmt v : Nat) : List Byte := leBytes 2 (if fmt = 7 then v else (fp16.pack 0 (FV.fin false v 0)).1)

/-- The planes of a frame: address, rows, samples per row, pitch (R380). -/
def FrameJob.planes (j : FrameJob) : List (Nat × Nat × Nat × Nat) :=
  let h := (j.height + 1) / 2
  let w := (j.width + 1) / 2
  [(j.out, j.height, j.width, j.pitch), (j.out + j.pitch * j.height, h, w, j.pitch / 2),
   (j.out + j.pitch * j.height + j.pitch / 2 * h, h, w, j.pitch / 2)]

/-- The rows of a decoded frame, each with its address. -/
def FrameJob.rows (j : FrameJob) (stream : Nat → Byte) : List (Nat × List Byte) :=
  (j.planes.zipIdx).flatMap fun e => (List.range e.1.2.1).map fun r =>
    (e.1.1 + r * e.1.2.2.2,
      (List.range e.1.2.2.1).flatMap fun c => sampleBytes j.fmt (Config.sample j.codec stream e.2 r c % 1024))

/-- HEADBOX FRAME DONE: the frame is written and its count goes up; a bitstream error leaves its bytes open (R380, R381). -/
def execHeadboxFrameDone (q u : Nat) (s : State) : Host.Outcome State Fault Refusal :=
  let b := (s.pkg q).box u
  match b.job with
  | none => .next s
  | some ws =>
    let j := frameJob ws
    let key := (s.pkg q).boxKey b
    let stream := s.bitstream q b j.src
    let rows := j.rows stream
    if Config.bitstreamGood j.codec stream then
      let s := rows.foldl (fun s r => s.untimedBytes q key r.1 r.2) s
      let n := w64 (leNat (s.untimedRead q key j.done 8)) + 1
      let s := s.untimedBytes q key j.done (leBytes 8 n.toNat)
      .next ((s.updBox q u fun b => { b with head := b.head + 1, job := none }).boxNext q u)
    else
      let s := rows.foldl (fun s r => (s.untimedBytes q key r.1 (freeBytes s.free r.2.length)).spend r.2.length) s
      .next ((s.updBox q u fun b => b.refuse 6).boxNext q u)

end Sys2Proof.Machine
end

