-- ==== Sys2Proof/Machine/Security.lean ====
section
/-! DEFINITION. SPDM (R370, R371), keys (R368, R369), the attested state (R372). -/

namespace Sys2Proof.Machine

/-- A flag at a bit of a register. -/
def flagAt (b : Bool) (n : Nat) : Nat := if b then 2 ^ n else 0

/-- The registers of a partition, as PARTp shows them (R366). -/
def Partition.words (x : Partition) : List W64 :=
  [w64 (flagAt x.valid 63 + flagAt x.privok 62 + x.dbg.toNat * 2 ^ 60 + flagAt x.retain 59 + x.clus.toNat),
   w64 (x.ehi.toNat * 2 ^ 24 + x.elo.toNat), w64 x.keys.toNat, w64 (x.keys.toNat / 2 ^ 64)]

/-- What measurement `i` of package `q` is a digest of: a firmware image, the partition table, the debug states (R370; log
entry 62). -/
def Package.measured (p : Package) (q i : Nat) : List Byte :=
  if i = 5 then (List.range 8).flatMap fun n => (p.part n).words.flatMap fun w => leBytes 8 w.toNat
  else if i = 6 then (List.range 8).map fun n => BitVec.ofNat 8 (p.part n).dbg.toNat
  else Config.firmware (8 * q + i)

def Package.measurement (p : Package) (q i : Nat) : List Byte := Config.sha384 (p.measured q i)

/-- Words of an answer that the spec does not give. -/
def State.answerWords (s : State) : List W64 := (List.range 4).map fun i => Config.word (s.free + i)

/-- A request that the responder accepts where `ok` says so, else refuses (R370). A package held in reset reports the image that
failed (R371); one that is off answers nothing. -/
def State.spdmStep (s : State) (q : Nat) (ok : Spdm → Bool) (f : Spdm → Spdm) (reply : SpdmReply) : State :=
  let p := s.pkg q
  let x := p.spdm
  let x := match p.badImage with
    | some i => { x with answer := .heldInReset i }
    | none => if p.power = 3 then { x with answer := .none } else if ok x then { f x with answer := reply } else { x with answer := .refused }
  (s.updPkg q fun p => { p with spdm := x }).spend 4

/-- The package signs: an identity key is installed (R370). -/
def State.signs (s : State) (q : Nat) : Bool := (s.pkg q).sec != 0

/-- GET VERSION begins a connection: version 1.3. -/
def execGetVersion (q : Nat) (s : State) : Host.Outcome State Fault Refusal :=
  .next (s.spdmStep q (fun _ => true) (fun _ => { Spdm.reset with version := true }) (.version 1 3))

def execGetCapabilities (q : Nat) (s : State) : Host.Outcome State Fault Refusal :=
  .next (s.spdmStep q (·.version) (fun x => { x with caps := true }) (.capabilities s.answerWords))

/-- NEGOTIATE ALGORITHMS: the one signature and the one hash. -/
def execNegotiateAlgorithms (q : Nat) (s : State) : Host.Outcome State Fault Refusal :=
  .next (s.spdmStep q (·.caps) (fun x => { x with algs := true }) (.algorithms .ecdsaBrainpoolP384r1 .sha384))

/-- GET DIGESTS and GET CERTIFICATE of the chain, where one is installed. -/
def execGetDigests (q : Nat) (s : State) : Host.Outcome State Fault Refusal :=
  .next (s.spdmStep q (fun x => x.algs && s.signs q) (fun x => x) (.certificates s.answerWords))

def execGetCertificate (q : Nat) (s : State) : Host.Outcome State Fault Refusal :=
  .next (s.spdmStep q (fun x => x.algs && s.signs q) (fun x => x) (.certificates s.answerWords))

/-- CHALLENGE of the current measurements; it succeeds where an identity key is installed. -/
def execChallenge (q _nonce : Nat) (s : State) : Host.Outcome State Fault Refusal :=
  .next (s.spdmStep q (fun x => x.algs && s.signs q) (fun x => { x with challenged := true })
    (.signed ((List.range 6).flatMap fun i => (s.pkg q).measurement q (i + 1)) s.answerWords))

/-- GET MEASUREMENTS, signed, of indexes 1 to 6. -/
def execGetMeasurements (q index : Nat) (s : State) : Host.Outcome State Fault Refusal :=
  .next (s.spdmStep q (fun x => x.algs && s.signs q && decide (1 ≤ index) && decide (index ≤ 6)) (fun x => x)
    (.signed ((s.pkg q).measurement q index) s.answerWords))

/-- KEY EXCHANGE opens a session, signed with the identity key. -/
def execKeyExchange (q _share : Nat) (s : State) : Host.Outcome State Fault Refusal :=
  .next (s.spdmStep q (fun x => x.algs && s.signs q) (fun x => { x with exchange := true, secured := false })
    (.signed [] s.answerWords))

/-- FINISH completes it. -/
def execSpdmFinish (q : Nat) (s : State) : Host.Outcome State Fault Refusal :=
  .next (s.spdmStep q (·.exchange) (fun x => { x with secured := true }) .finished)

/-- A key slot that a sheet in states 2 to 7 uses: through a window or as the save key of its partition (R369). -/
def State.slotUsed (s : State) (q k : Nat) : Bool :=
  s.sheets.any fun sh => decide (2 ≤ sh.state) && decide (sh.state ≤ 7)
    && (sh.windows.any (fun w => w.pkg == q && w.key == k)
      || (sh.pkgs.contains q && (List.range 128).find? (fun i => ((s.pkg q).part sh.part).keys.getLsbD i) == some k))

/-- KEY LOAD: accepted in a secured session of a provisioned or attested package, into a slot of the partition that no sheet
uses; GEN counts it (R368 to R370, R372, R384). -/
def execKeyLoad (q k n : Nat) (dbgclr : Bool) (key : List Byte) (s : State) : Host.Outcome State Fault Refusal :=
  let p := s.pkg q
  let ok := p.spdm.secured && p.sec != 0 && p.formed && decide (k < 128) && (p.part n).valid && (p.part n).keys.getLsbD k
    && key.length == 64 && !(s.slotUsed q k)
  if !ok then .next s
  else
    let old := Tab.get KeySlot.reset p.slots k
    let new : KeySlot := { valid := true, dbgclr := dbgclr, part := BitVec.ofNat 3 n, gen := old.gen + 1, key := key }
    .next (s.updPkg q fun p => { p with slots := Tab.set KeySlot.reset k new p.slots })

/-- ENTER ATTESTED: a provisioned package after a successful CHALLENGE, every partition locked (R372). -/
def execEnterAttested (q : Nat) (s : State) : Host.Outcome State Fault Refusal :=
  let p := s.pkg q
  if p.booted && p.sec = 1 && p.spdm.challenged && p.parts.all fun e => e.2.dbg == 0 && e.2.dbgNext.isNone then
    .next (s.updPkg q fun p => { p with sec := 2 })
  else .next s

end Sys2Proof.Machine
end

