-- ==== Sys2Proof/Machine/Bar.lean ====
section
/-! DEFINITION. BAR0 as the host writes and reads it, and device memory (R6, R374, R375). -/

namespace Sys2Proof.Machine

/-- A write to the scheduler block of partition `n`: TICKETS alone, at most 1,024 (R308). -/
def State.writeScheduler (s : State) (q n r : Nat) (v : W64) : State :=
  if r < 0x400 && r % 16 = 0 then
    let x := s.queue q n (r / 16)
    (s.setQueue q n (r / 16) { x with tickets := BitVec.ofNat 11 (min (bits v.toNat 0 11) 1024) }).wake n
  else s

/-- A write to the error block (R349): LOST takes what is written, and 0 clears FIRST with it. -/
def Package.writeError (p : Package) (r : Nat) (v : W64) : Package :=
  match r with
  | 8 => { p with logBase := v }
  | 0x10 => { p with logTail := BitVec.ofNat 13 v.toNat }
  | 0x18 =>
    let n := bits v.toNat 40 24
    if n = 0 then p.clearLost else { p with lost := BitVec.ofNat 24 n }
  | _ => p

/-- A write to a stack's mailbox: OP 2 and 3 while it is not busy, arguments (R375, R379). -/
def State.writeMailbox (s : State) (q i r : Nat) (v : W64) : State :=
  let m := (s.pkg q).mailbox i
  match r with
  | 0 =>
    let op := bits v.toNat 16 8
    if m.busy || (op != 2 && op != 3) then s
    else
      let s := s.updPkg q fun p => p.setMailbox i { m with busy := true, op := BitVec.ofNat 8 op }
      s.post s.ttc phSeam none (if op = 2 then .readRepairMap q i else .readTemperatures q i)
  | 8 | 16 | 24 => s.updPkg q fun p => p.setMailbox i { m with args := listSet m.args (r / 8 - 1) v }
  | _ => s

/-- A write to a headbox unit (R381). -/
def State.writeHeadbox (s : State) (q u r : Nat) (v : W64) : State :=
  match r with
  | 0 => s.writeHbctl q u v
  | 8 => s.updBox q u fun b => { b with base := v }
  | 0x10 => s.updBox q u fun b => { b with size := BitVec.ofNat 16 v.toNat }
  | 0x20 => (s.updBox q u fun b => { b with tail := v }).boxNext q u
  | _ => s

/-- A write to a debug block, where the debug state accepts it (R375, R382). -/
def State.writeDebug (s : State) (q n r : Nat) (v : W64) : State :=
  if !(s.unlocked q n) then s
  else
    match r with
    | 0 => s.updDebug q n fun d => { d with trBase := v }
    | 8 => s.updDebug q n fun d => { d with trEn := bits v.toNat 63 1 == 1, trSize := BitVec.ofNat 16 v.toNat }
    | 0x18 => s.updDebug q n fun d => { d with trTail := v }
    | 0x20 => s.updDebug q n fun d => { d with trLost := v }
    | 0x28 => s.updDebug q n fun d => { d with bpBase := v }
    | 0x30 =>
      let s := s.updDebug q n fun d => { d with ctlRec := BitVec.ofNat 14 (bits v.toNat 32 14) }
      let s := if bits v.toNat 0 1 = 1 then s.post s.ttc phSeam none (.debugFreeze q n) else s
      let s := if bits v.toNat 1 1 = 1 then s.post s.ttc phSeam none (.debugRelease q n) else s
      if bits v.toNat 2 1 = 1 then s.post s.ttc phSeam none (.debugScan q n) else s
    | _ => s

/-- A write to the command block; TAIL rings the doorbell (R376). -/
def State.writeCommand (s : State) (q r : Nat) (v : W64) : State :=
  match r with
  | 0 => s.updPkg q fun p => { p with cqBase := v }
  | 8 => s.updPkg q fun p => { p with cqSize := BitVec.ofNat 16 v.toNat }
  | 0x18 => (s.updPkg q fun p => { p with cqTail := v }).nextPacket q
  | _ => s

/-- A host write of 64 bits at a BAR0 offset, by block; read-only registers, PARTp, VATCFG and KSLOTk ignore it (R6, R374,
R375). -/
def State.writeBar (s : State) (q off : Nat) (v : W64) : State :=
  let r := off % 0x10000
  if off % 8 != 0 then s
  else match off / 0x10000 with
    | 0 => s.writeCommand q r v
    | 1 => if r / 0x1000 < 8 then s.writeScheduler q (r / 0x1000) (r % 0x1000) v else s
    | 3 => s.updPkg q fun p => p.writeError r v
    | 5 => if r / 0x100 < 8 then s.writeMailbox q (r / 0x100) (r % 0x100) v else s
    | 6 => if r / 0x100 < 4 then s.writeHeadbox q (r / 0x100) (r % 0x100) v else s
    | 7 => if r / 0x100 < 8 then s.writeDebug q (r / 0x100) (r % 0x100) v else s
    | _ => s

/-- REGISTER WRITE. A package that is held in reset or off takes none (R371, R373). -/
def execRegisterWrite (q off : Nat) (v : W64) (s : State) : Host.Outcome State Fault Refusal :=
  .next (if (s.pkg q).silent then s else s.writeBar q off v)

/-! Host reads of BAR0 (R6, R374): reserved and write-only fields read as 0. -/

/-- The command block (R376). -/
def Package.readCommand (p : Package) (r : Nat) : W64 :=
  match r with
  | 0 => p.cqBase
  | 8 => p.cqSize.setWidth 64
  | 0x10 => p.cqHead
  | 0x18 => p.cqTail
  | _ => 0

/-- The scheduler block of partition `n`: QCFG and QPASS of each queue, PWM (R308, R315). -/
def State.readScheduler (s : State) (q n r : Nat) : W64 :=
  let i := r / 16
  if r < 0x400 then
    if r % 16 = 0 then w64 ((s.inQueue q n i).length % 2 ^ 16 * 2 ^ 24 + (s.queue q n i).tickets.toNat) else (s.queue q n i).pass
  else
    let x := (s.pkg q).part n
    let live := s.sheets.any fun sh => sh.part == n && sh.live
    match r with
    | 0x400 => x.cur.setWidth 64
    | 0x408 => w64 (flagAt live 48 + if live then s.oldest n else x.cur.toNat)
    | _ => 0

/-- Ports with a property, one bit each. -/
def Package.portMask (p : Package) (f : Port → Bool) : Nat :=
  ((List.range 16).map fun n => flagAt (f (Tab.get Port.reset p.ports n)) n).foldl (· + ·) 0

/-- The domain block: DSTAT and LPAD of each port (R338, R339). -/
def Package.readDomain (p : Package) (r : Nat) : W64 :=
  if r = 0 then
    w64 (p.dstate.toNat * 2 ^ 56 + p.master.toNat * 2 ^ 45 + p.portMask Port.retired * 2 ^ 16 + p.portMask Port.admitted)
  else if 0x100 ≤ r && r < 0x180 then
    let x := Tab.get Port.reset p.ports ((r - 0x100) / 8)
    w64 (x.skew.toNat * 2 ^ 32 + x.pad.toNat * 2 ^ 20 + x.lat.toNat)
  else 0

/-- The error block, with the counters of each channel and the cluster maps (R349, R352). -/
def Package.readErrors (p : Package) (r : Nat) : W64 :=
  let c := r % 0x800 / 8
  if r < 0x20 then
    match r with
    | 0 => p.evNext.setWidth 64
    | 8 => p.logBase
    | 0x10 => w64 (p.logHead.toNat * 2 ^ 16 + p.logTail.toNat)
    | _ => w64 (p.lost.toNat * 2 ^ 40 + p.firstLost.toNat)
  else if r / 0x800 = 2 then Tab.get 0 p.ecor c
  else if r / 0x800 = 3 then Tab.get 0 p.eunc c
  else if r / 0x800 = 4 then Tab.get 0 p.eoth c
  else if r / 0x800 = 6 && decide (c < 24) then
    w64 (flagAt (Tab.get false p.cmapRet c) 42 + flagAt (Tab.get false p.cmapSpu c) 41
      + (Tab.get 0 p.cmapBad c).toNat * 2 ^ 32 + (p.cmap c).toNat)
  else 0

/-- KSLOTk (R368): the key itself reads back nowhere. -/
def KeySlot.word (k : KeySlot) : W64 := w64 (flagAt k.valid 15 + flagAt k.dbgclr 14 + k.part.toNat * 2 ^ 8 + k.gen.toNat)

/-- The security block: PARTp and KSLOTk. -/
def Package.readSecurity (p : Package) (r : Nat) : W64 :=
  if r < 0x100 then (p.part (r / 32)).words.getD (r % 32 / 8) 0
  else if r < 0x500 then (Tab.get KeySlot.reset p.slots ((r - 0x100) / 8)).word
  else 0

/-- A stack's mailbox (R379). -/
def Mailbox.read (m : Mailbox) (r : Nat) : W64 :=
  match r with
  | 0 => w64 (flagAt m.busy 63 + m.op.toNat * 2 ^ 16 + m.stat.toNat)
  | 8 | 16 | 24 => m.args.getD (r / 8 - 1) 0
  | _ => 0

/-- A headbox unit (R381). -/
def Headbox.read (b : Headbox) (r : Nat) : W64 :=
  match r with
  | 0 => w64 (flagAt b.en 63 + b.key.toNat * 2 ^ 8 + b.part.toNat)
  | 8 => b.base
  | 0x10 => b.size.setWidth 64
  | 0x18 => b.head
  | 0x20 => b.tail
  | 0x28 => w64 (b.code.toNat * 2 ^ 32 + b.index.toNat)
  | _ => 0

/-- A debug block (R382). -/
def DebugBlock.read (d : DebugBlock) (r : Nat) : W64 :=
  match r with
  | 0 => d.trBase
  | 8 => w64 (flagAt d.trEn 63 + d.trSize.toNat)
  | 0x10 => d.trHead
  | 0x18 => d.trTail
  | 0x20 => d.trLost
  | 0x28 => d.bpBase
  | 0x30 => w64 (d.ctlRec.toNat * 2 ^ 32)
  | 0x38 => w64 (d.stRec.toNat * 2 ^ 32 + d.brkn.toNat * 2 ^ 16 + flagAt d.susp 2 + flagAt d.scanned 1 + flagAt d.frozen 0)
  | _ => 0

/-- What a host read of 64 bits at a BAR0 offset returns (R374). Reads change nothing, so they are no step of the machine. -/
def State.readBar (s : State) (q off : Nat) : W64 :=
  let r := off % 0x10000
  let p := s.pkg q
  if off % 8 != 0 then 0
  else match off / 0x10000 with
    | 0 => p.readCommand r
    | 1 => if r / 0x1000 < 8 then s.readScheduler q (r / 0x1000) (r % 0x1000) else 0
    | 2 => p.readDomain r
    | 3 => p.readErrors r
    | 4 => p.readSecurity r
    | 5 => if r / 0x100 < 8 then (p.mailbox (r / 0x100)).read (r % 0x100) else 0
    | 6 => if r / 0x100 < 4 then (p.box (r / 0x100)).read (r % 0x100) else 0
    | 7 => if r / 0x100 < 8 then (p.part (r / 0x100)).dblk.read (r % 0x100) else 0
    | _ => 0

/-- Device memory of a package: 384 GiB (R74). -/
def deviceBytes : Nat := 384 * 2 ^ 30

/-- HOST CXL MEM WRITE: an untimed write of device memory, in place (R280, R317, R374). A package that is held in reset or off has no
memory to write (R371, R373, R384). -/
def execHostCxlMemWrite (q a : Nat) (bytes : List Byte) (s : State) : Host.Outcome State Fault Refusal :=
  if deviceBytes < a + bytes.length then .fault (.noSuchAddress q a)
  else .next (if (s.pkg q).silent then s else s.untimedWrite q a bytes)

end Sys2Proof.Machine
end

