-- ==== Sys2Proof/Machine/Access.lean ====
section
/-! DEFINITION. Scratchpad accesses that may race with the writes of their cycle: S loads and stores (R132), gathers and
scatters (R169 to R171), the ragged walker's table (R177). -/

namespace Sys2Proof.Machine

/-- The access of an S load or store at issue + 2 (R132). -/
def execSScratchAccess (k : Nat) (a : SAccess) (s : State) : Host.Outcome State Fault Refusal :=
  let races := s.racesNow k 0
  s.atCore k fun t fr c =>
    match a.store with
    | some v => c.storeScratch t fr a v
    | none =>
      let r := c.readBank t fr races a.addr a.size 0 a.d
      match r.2 with
      | some bs => r.1.also [(t + 4, phStart, .registerWriteback k (.s a.rd) (extend a.size a.sext bs) 0)]
      | none => r.1

/-- GATHER SCATTER ACCESS: the items whose banks the beats pass in this cycle. A gather's register is written at
issue + 99 (R170). -/
def execGatherScatterAccess (g : GatherRun) (items : List (Nat × Nat)) (s : State) :
    Host.Outcome State Fault Refusal :=
  let races := if g.scat then noRace else s.racesNow g.d.k g.cls
  s.atCore g.d.k fun t fr c =>
    match items with
    | [] =>
      let c := { c with v := writeLanes [(g.vd, lanesFrom 1024 (g.got.map fun e => (e.1, some e.2)))] c.v }
      Eff.ok (if g.fl = 0 then c else c.setFlags t g.fl)
    | i :: _ =>
      let now := nowItems items
      let rest := items.dropWhile fun e => e.1 == i.1
      let r := c.items t fr races g rest now
      r.1.also (match rest with
        | j :: _ => [(j.1, if g.scat then phWrite else phRead, .gatherScatterAccess r.2 rest)]
        | [] => if g.scat then [] else [(g.d.start + 87, phStart, .gatherScatterAccess r.2 [])])

/-- RAGGED TABLE READ: the walker's next 32 entries through its table port, in alias class 0. DESIGN CHOICE (log entry 67): a walk
that falls due while an older one still reads the table waits for it (R177). -/
def execRaggedTableRead (r : RaggedRun) (e : Nat) (s : State) : Host.Outcome State Fault Refusal :=
  let races := s.racesNow r.d.k 0
  s.atCore r.d.k fun t fr c =>
    if c.walker.run.any fun d => !(sameWord d r.d) then
      (Eff.ok c).also [(t + 1, phRead, .raggedTableRead r e)]
    else
      let w0 := match e, r.restart with
        | 0, some a => { c.walker with tab := BitVec.ofNat 21 a, left := 0, ended := false }
        | _, _ => c.walker
      let todo := r.lanes.length - r.plan.length
      let probe := ragWalk (2048 - r.reads) todo (halves (Tab.slice 0 c.spad w0.tab.toNat 64)) w0 0
      let n := 2 * probe.2.2.1
      let a := w0.tab.toNat
      if spadSize < a + n then
        (Eff.ok { c with walker := { w0 with run := none } }).faults [⟨cRegion, rScratch, r.d, t, w64 (max a spadSize), 0, 0⟩]
      else
        let m := c.readBank t fr races a n 0 r.d
        match m.2 with
        | none => m.1
        | some bs =>
          let res := ragWalk (2048 - r.reads) todo (halves bs) w0 0
          let plan := r.plan ++ res.1
          m.1.andThen fun c =>
            if res.2.2.2 then
              Eff.ok { c with walker := { res.2.1 with run := none, out := c.walker.out ++ [(r.d, plan)] } }
            else
              (Eff.ok { c with walker := { res.2.1 with run := some r.d, out := c.walker.out } }).also
                [(t + 1, phRead, .raggedTableRead { r with plan := plan, reads := r.reads + res.2.2.1 } (e + 1))]

end Sys2Proof.Machine
end

