-- ==== Sys2Proof/Machine/Matrix.lean ====
section
/-! DEFINITION. The words of the M column (R199 to R217): ply words, MDROP, MMAD, masks, clearing, sums, scales, biases,
output. -/

namespace Sys2Proof.Machine

/-! Resources (R87, R203). Tiles are 0 to 7, the array 8. -/

/-- ACC_BUSY against the lowest resource that another word still holds. -/
def Core.busyFaults (c : Core) (x : Ctx) (rs : List Nat) : List CFault :=
  match rs.findSome? fun r => (c.own.find? fun o => o.res == r && decide (x.t < o.last)).map fun o => (r, o) with
  | some (r, o) => [⟨cBusy, 0, x.desc, x.t, w64 r, descBits c.prank o.d, 0⟩]
  | none => []

/-- The register's value is the unfinished result of a word that holds one of the resources. -/
def Core.owes (c : Core) (x : Ctx) (rs : List Nat) (r : Nat × Nat) : Bool :=
  (c.early x r).any fun p => c.own.any fun o => rs.contains o.res && decide (x.t < o.last) && o.d == p.d

/-- Resources held until a cycle. -/
def Core.hold (c : Core) (x : Ctx) (rs : List Nat) (last : Nat) : Core :=
  { c with own := (c.own.filter fun o => decide (x.t < o.last)) ++ rs.map fun r => ⟨r, last, x.desc⟩ }

/-! Operand tiles (R199). -/

/-- The tile number at a ring's read cursor. -/
def Ring.head (r : Ring) : Nat := if r.tileBytes = 0 then 0 else r.rd / r.tileBytes

/-- The tile at the read cursor was pushed before cycle `t` (R83). -/
def Ring.ready (r : Ring) (t k : Nat) : Bool := (r.tile? k).any fun x => x.pushed.any fun p => decide (p < t)

/-- SCHEDULE_MISS, RING, at the read cursor. -/
def Core.ringMiss (c : Core) (d : Desc) (t g : Nat) : CFault :=
  let r := c.ring g
  ⟨cMiss, mRing, d, t, w64 g, w64 (if r.size = 0 then 0 else r.rd % r.size), 0⟩

/-- A ring that a word may not read: unconfigured (R84), or held by a SCREEN (R260). -/
def Core.ringShut (c : Core) (t g : Nat) : Bool := (c.ring g).nfr == 0 || c.screenHeld t g

/-- The fault of a word that names such a ring. -/
def Core.shutFault (c : Core) (x : Ctx) (g : Nat) : Eff := (Eff.ok c).faults [c.ringMiss x.desc x.t g]

/-- The format and codebook of the operand tile `k` of ring `g`; a frame of another format or a scale other than 1.0 is
named by its bank. -/
def Core.operand (c : Core) (g k : Nat) : Except Nat BankFmt :=
  let r := c.ring g
  let b0 := c.bank (bankOf (r.addr (k * r.tileBytes)))
  match ((r.frames k).map fun f => f / 16).find? fun b =>
      (c.bank b).fmt != b0.fmt || (c.bank b).scale != 0x3F800000 with
  | some b => .error b
  | none => .ok b0

/-- The bank for which the operand tile at a ring's read cursor is refused. -/
def Core.operandBad (c : Core) (g : Nat) : Option Nat :=
  match c.operand g (c.ring g).head with
  | .error b => some b
  | .ok _ => none

/-- The read cursor moves past tile `k`. -/
def Core.passTile (c : Core) (g k : Nat) : Core :=
  let r := c.ring g
  c.setRing g { r with rd := (k + 1) * r.tileBytes }

/-- The wait for a mask that is not armed yet (R210, R211). -/
def Core.maskWait (c : Core) (x : Ctx) : Option (Waiting × CFault) :=
  match c.mask.arming with
  | some a =>
    if x.t < a then
      some (.reg x.k a, ⟨cMiss, mScore, x.desc, x.t, w64 (4 * 256),
        (c.mask.d.map (descBits c.prank)).getD 0, 0⟩)
    else none
  | none => none

/-- The armed mask, sampled and disarmed (R211). -/
def Core.takeMask (c : Core) : Core × Option (List Byte × Option W32) :=
  match c.mask.armed, c.mask.block with
  | true, some b => ({ c with mask := { c.mask with armed := false } }, some (b, c.mask.value))
  | _, _ => (c, none)

/-- An operation on the array before its operands arrive. -/
def emptyRun : MRun :=
  { d := ⟨0, .M, 0, 0, 0⟩, dense := false, a := 0, gw := 0, ga := 0, sb := 0, cap := 0, lanes := 0, opens := false,
    zeroes := false, keep := false, int := false, kt := 256, afmt := 0, acb := [], wfmt := 0, wcb := [], mask := none,
    ra := [], rb := [], budget := 0, slots := 0, act := [], wgt := [], plies := [], tileTag := 0, count := 0, cursor := 0,
    total := [], resid := [], covAdd := [], totAdd := none, quanta := 0, stopped := false, failed := false }

/-- A movement of an operand into the array. -/
def intake (d : Desc) (dep lane unit : Nat) (kind : MoveKind) (ring : Option (Nat × Nat)) : Move :=
  { d := { d with start := dep }, k := d.k, cls := 0, lane := lane, unit := unit, kind := kind, ring := ring, beat := 256,
    tag := none, lanes := [], bytes := [], fl := 0 }

/-- Formats a ply word takes as activations (R200). -/
def plyAct (fmt : Nat) : Bool := fmt == 4 || fmt == 5 || fmt == 11 || fmt == 8 || fmt == 9 || fmt == 10

/-- The activation tile streams in from t + 8 (R205). -/
def Core.streamAct (c : Core) (x : Ctx) (lane ga k n : Nat) : Eff :=
  let r := c.ring ga
  let off := k * r.tileBytes
  c.startRead x.t (intake x.desc (x.t + 8) (lane + 4) 5 .actIn (some (ga, off))) 4 (x.t + 8) (r.runs off n)

/-- The ply words (R204 to R206). ACC_BUSY stands before what the holder's own unfinished span leaves undecided: its
result in s[sb], and whether the block is open (R203, with the row of its change table; DEDUCED, log 40). The ply tile
checked at issue is the one at the read cursor; a later ply is checked when its header is read (R199; DEDUCED, log 54). -/
def plyWord (opens zeroes keep : Bool) (a : BitVec 3) (gw ga : BitVec 4) (sb : BitVec 6) (cap : BitVec 4) (lg : BitVec 1)
    (x : Ctx) (c : Core) : Eff :=
  let a := a.toNat
  let gw := gw.toNat
  let ga := ga.toNat
  let ra := c.ring ga
  let last := x.t + 128 * cap.toNat + 160
  let k := ra.head
  let b := c.boundOf a
  let kv := c.coverOf a
  let reads := opens || kv.cursor != kv.count
  if c.ringShut x.t gw then c.shutFault x gw
  else if c.ringShut x.t ga then c.shutFault x ga
  else
    match c.operand ga k with
    | .error b => Eff.illegal c x [b]
    | .ok fmt =>
      if !plyAct fmt.fmt then Eff.illegal c x [fmt.fmt, (c.bank (bankOf ((c.ring gw).addr (c.ring gw).rd))).fmt]
      else if reads && (c.operandBad gw).isSome then Eff.illegal c x (c.operandBad gw).toList
      else if !zeroes && kv.kind == 2 then Eff.illegal c x [a]
      else
        let n := 128 * 256 * fmtWidth fmt.fmt / 8
        let busy := c.busyFaults x [a, 8]
        let pre := busy
          ++ (if ra.tileBytes < n || !ra.ready x.t k || (opens && !ra.act) then [c.ringMiss x.desc x.t ga] else [])
          ++ (if !opens && !b.opened && (c.busyFaults x [a]).isEmpty then [c.ringMiss x.desc x.t gw] else [])
        if c.owes x [a, 8] (sReg sb.toNat) then (Eff.ok c).faults pre
        else match c.maskWait x with
        | some w => { Eff.waits c w with flt := pre }
        | none =>
          c.checked x [sReg sb.toNat] [(sReg sb.toNat, last)] pre fun c =>
            let m := c.takeMask
            let c := ((m.1.hold x [a, 8] last).useRing x.desc gw (c.ring gw).rd).useRing x.desc ga ra.rd
            let lane := 8 * lg.toNat
            let run := { emptyRun with
              d := x.desc, a := a, gw := gw, ga := ga, sb := sb.toNat, cap := cap.toNat, lanes := lane, opens := opens
              zeroes := zeroes, keep := keep, afmt := fmt.fmt, mask := m.2
              ra := if opens then Tab.get (List.replicate 128 0) ra.amax k else []
              rb := if opens then Tab.get (List.replicate 128 0) ra.sidecars (k % ra.cap) else []
              budget := (c.sget sb.toNat).toNat % 2 ^ 32
              tileTag := kv.tile, count := kv.count.toNat, cursor := if opens then 0 else kv.cursor.toNat }
            let c := { c with array := some run }
            let c := if keep then c else c.passTile ga k
            (c.streamAct x lane ga k n).also
              ((if reads then [(x.t + 4, phRead, .plyHeaderRead x.k 0)] else []) ++ [(last, phStart, .plySpanEnd x.k)])

def execMply (a : BitVec 3) (gw ga : BitVec 4) (sb : BitVec 6) (cap : BitVec 4) (l : BitVec 1) (s : State) :
    Host.Outcome State Fault Refusal :=
  s.issueOn (plyWord true false false a gw ga sb cap l)
def execMplyz (a : BitVec 3) (gw ga : BitVec 4) (sb : BitVec 6) (cap : BitVec 4) (l : BitVec 1) (s : State) :
    Host.Outcome State Fault Refusal :=
  s.issueOn (plyWord true true false a gw ga sb cap l)
def execMplyk (a : BitVec 3) (gw ga : BitVec 4) (sb : BitVec 6) (cap : BitVec 4) (l : BitVec 1) (s : State) :
    Host.Outcome State Fault Refusal :=
  s.issueOn (plyWord true false true a gw ga sb cap l)
def execMplyzk (a : BitVec 3) (gw ga : BitVec 4) (sb : BitVec 6) (cap : BitVec 4) (l : BitVec 1) (s : State) :
    Host.Outcome State Fault Refusal :=
  s.issueOn (plyWord true true true a gw ga sb cap l)
def execMres (a : BitVec 3) (gw ga : BitVec 4) (sb : BitVec 6) (cap : BitVec 4) (l : BitVec 1) (s : State) :
    Host.Outcome State Fault Refusal :=
  s.issueOn (plyWord false false false a gw ga sb cap l)

/-- The header at the head of ring `gw`: R83's check, its tag, its bytes, R188's checks against the block's tile tag and
count (none for a new block) and cursor. -/
def Core.readHdr (c : Core) (t fr : Nat) (races : Racing) (d : Desc) (gw : Nat) (block : Option (Half × Nat))
    (cursor : Nat) : Eff × Option Hdr :=
  let r := c.ring gw
  let k := r.head
  let miss := c.ringMiss d t gw
  if !r.ready t k then ((Eff.ok c).faults [miss], none)
  else
    let off := k * r.tileBytes
    let f := frameOf (r.addr off)
    let tags := c.tagFault t f (r.wantTag off) d
    let m := c.readBank t fr races (r.addr off) 0x440 0 d
    match m.2 with
    | none => (m.1.faults tags, none)
    | some bs =>
      let h := parseHdr bs
      let e := m.1.faults tags
      if h.bad then
        (e.faults [⟨cIllegal, 0, d, t, ((c.col d.col).word d.addr).setWidth 64, w64 f, 0⟩], none)
      else if h.index != cursor || (block.any fun b => b.1 != h.tile || b.2 != h.count)
          || decide (r.tile < 1 + h.dataFrames) then (e.faults [miss], none)
      else if !tags.isEmpty then (e, none)
      else (e, some h)

/-- What a header read does to the operation (R191): the block's quantities, the ply consumed or the end. A ply consumed in slot 1 or
later whose tile lies in banks of unlike formats, or of a scale other than 1.0, is refused (R199; DEDUCED, log 54). -/
def Core.takePly (c : Core) (t : Nat) (a : MRun) (h : Hdr) (slot : Nat) : Eff :=
  let a := if a.opens && slot = 0 then
      { a with tileTag := h.tile, count := h.count, total := h.q.map safeMass, totAdd := some (safeMass h.qmass) }
    else a
  if a.slots = a.cap || decide (a.budget < h.cost) then
    Eff.ok { c with array := some { a with stopped := true, resid := h.q.map safeMass } }
  else match if slot = 0 then none else c.operandBad a.gw with
  | some b =>
    (Eff.ok { c with array := some { a with failed := true } }).faults
      [⟨cIllegal, 0, a.d, t, ((c.col a.d.col).word a.d.addr).setWidth 64, w64 b, 0⟩]
  | none =>
    let r := c.ring a.gw
    let k := r.head
    let off := k * r.tileBytes
    let a' := { a with
      budget := a.budget - h.cost, slots := a.slots + 1, cursor := a.cursor + 1, quanta := a.quanta + h.cost
      covAdd := a.covAdd ++ [safeMass h.pmass], plies := a.plies ++ [⟨h.fmt, h.ncode, h.pexp, h.cb, []⟩] }
    let c := ({ c with array := some a' }).passTile a.gw k
    let dep := a.d.start + 128 * slot + 8
    let e := c.startRead t (intake a.d dep a.lanes 7 (.plyIn slot (h.fmt == 3)) (some (a.gw, off + 4096))) 4 dep
      (r.runs (off + 4096) h.dataBytes)
    e.also (if a'.cursor < a'.count then
      [(a.d.start + 128 * (slot + 1) + 4, phRead, .plyHeaderRead a.d.k (slot + 1))] else [])

/-- PLY HEADER READ for slot `slot` (R188, R191, R205). -/
def execPlyHeaderRead (k slot : Nat) (s : State) : Host.Outcome State Fault Refusal :=
  let races := s.racesNow k 0
  s.atCore k fun t fr c =>
    match c.array with
    | none => Eff.ok c
    | some a =>
      if a.failed then Eff.ok c
      else
        let block := if a.opens && slot = 0 then none else some (a.tileTag, a.count)
        let r := c.readHdr t fr races a.d a.gw block a.cursor
        r.1.andThen fun c =>
          match r.2 with
          | none => Eff.ok (c.intoArray fun a => { a with failed := true })
          | some h => c.takePly t a h slot

/-- The elements of a tile, row-major. -/
def Core.tileVals (c : Core) (a : Nat) : List W32 := Tab.slice 0 c.acc (16384 * a) 16384

def Core.setTile (c : Core) (a : Nat) (v : List W32) : Core := { c with acc := Tab.splice 0 (16384 * a) v c.acc }

/-- The bound store after a ply word (R191, R193). -/
def MRun.bound (a : MRun) (b : Bound) (all : Bool) : Bound :=
  let b := if a.zeroes then zeroBound else if a.opens then b.close all else b
  let b := if a.opens then
      { b with opened := true, ra := fromLine a.ra, rb := fromLine a.rb, total := fromLine a.total
               totm := match a.totAdd with
                 | some q => addUp b.totm q
                 | none => b.totm }
    else b
  { b with
    covm := a.covAdd.foldl addUp b.covm
    resid := if a.cursor < a.count then fromLine a.resid else [] }

/-- PLY SPAN END (R206): everything a ply word does to its tile, at the last cycle of its span. -/
def Core.endPly (c : Core) (t : Nat) (a : MRun) : Core :=
  let kv := c.coverOf a.a
  let b := a.bound (c.boundOf a.a) (kv.cursor == kv.count)
  let acc := if a.zeroes || kv.kind == 0 then List.replicate 16384 0 else c.tileVals a.a
  let act := operandVals a.afmt a.acb a.act
  let r := a.plies.foldl (fun (s : List W32 × Flags) p =>
    let q := plyPass act p s.1
    (q.1, s.2 ||| q.2)) (acc, 0)
  let kv' : Cover :=
    { quanta := BitVec.ofNat 19 (min ((if a.zeroes then 0 else kv.quanta.toNat) + a.quanta) 524287)
      sat := if a.zeroes then false else kv.sat
      kind := 1, tile := a.tileTag, count := BitVec.ofNat 4 a.count, cursor := BitVec.ofNat 4 a.cursor, cov := kv.cov }
  let c := ((c.setTile a.a (applyMask a.mask false r.1)).setBound a.a b).setCover a.a (kv'.sync b)
  let c := c.sset a.sb (w64 a.budget)
  if r.2 = 0 then c else c.setFlags t r.2

def execPlySpanEnd (k : Nat) (s : State) : Host.Outcome State Fault Refusal :=
  s.atCore k fun t _ c =>
    match c.array with
    | none => Eff.ok c
    | some a => Eff.ok { (if a.failed then c else c.endPly t a) with array := none }

/-! MDROP (R207). -/

/-- MDROP a, gw ends an open block without consuming it. -/
def execMdrop (a : BitVec 3) (gw : BitVec 4) (s : State) : Host.Outcome State Fault Refusal :=
  s.issueOn fun x c =>
    let a := a.toNat
    let gw := gw.toNat
    if c.ringShut x.t gw then c.shutFault x gw
    else
      c.checked x [] [] (c.busyFaults x [a]) fun c =>
        let c := (c.hold x [a] (x.t + 8)).useRing x.desc gw (c.ring gw).rd
        (Eff.ok c).also (if (c.boundOf a).opened then [(x.t + 4, phRead, .mdropPop x.k a gw true x.desc)] else [])

/-- A tile position popped unread (R207). -/
def Core.dropTile (c : Core) (t gw : Nat) : Core :=
  let k := (c.ring gw).head
  (c.passTile gw k).popTile t gw (k * (c.ring gw).tileBytes)

/-- Up to `n` positions popped; `false` where one was not pushed. -/
def Core.dropTiles (c : Core) (t gw : Nat) : Nat → Core × Bool
  | 0 => (c, true)
  | n + 1 => if (c.ring gw).ready t (c.ring gw).head then (c.dropTile t gw).dropTiles t gw n else (c, false)

/-- MDROP's header read at t + 4 (`rd`), its pops and its close at t + 8. DESIGN CHOICE (log entry 69): on an open block with
CURSOR = COUNT it reads the header too, as R207 says of OPEN = 1, and R188 then refuses whatever header stands there. -/
def execMdropPop (k a gw : Nat) (rd : Bool) (d : Desc) (s : State) : Host.Outcome State Fault Refusal :=
  let races := s.racesNow k 0
  s.atCore k fun t fr c =>
    let kv := c.coverOf a
    if rd then
      let r := c.readHdr t fr races d gw (some (kv.tile, kv.count.toNat)) kv.cursor.toNat
      r.1.also (if r.2.isSome then [(t + 4, phStart, .mdropPop k a gw false d)] else [])
    else
      let r := c.dropTiles t gw (kv.count.toNat - kv.cursor.toNat)
      if r.2 then
        let b := (c.boundOf a).close (kv.cursor == kv.count)
        Eff.ok ((r.1.setBound a b).setCover a (kv.sync b))
      else (Eff.ok r.1).faults [r.1.ringMiss d t gw]

/-! MMAD (R200, R208). -/

/-- The operand pairs of MMAD: (K_t, integer). -/
def madKind (a w : Nat) : Option (Nat × Bool) :=
  let narrow := fun (f : Nat) => f == 4 || f == 5 || f == 11
  let int := fun (f : Nat) => f == 8 || f == 9
  if narrow a && narrow w then some (256, false)
  else if a == 2 && (w == 2 || narrow w) then some (128, false)
  else if narrow a && w == 2 then some (128, false)
  else if int a && int w then some (256, true)
  else none

/-- MMAD a, gw, ga {, Z} {, K}, fN. -/
def execMmad (a : BitVec 3) (gw ga : BitVec 4) (z keep lg : BitVec 1) (s : State) : Host.Outcome State Fault Refusal :=
  s.issueOn fun x c =>
    let a := a.toNat
    let gw := gw.toNat
    let ga := ga.toNat
    let rw := c.ring gw
    let ra := c.ring ga
    let kw := rw.head
    let ka := ra.head
    let kv := c.coverOf a
    if c.ringShut x.t gw then c.shutFault x gw
    else if c.ringShut x.t ga then c.shutFault x ga
    else
      match c.operand ga ka, c.operand gw kw with
      | .error b, _ => Eff.illegal c x [b]
      | _, .error b => Eff.illegal c x [b]
      | .ok fa, .ok fw =>
        match madKind fa.fmt fw.fmt with
        | none => Eff.illegal c x [fa.fmt, fw.fmt]
        | some (kt, int) =>
          if z = 0 && ((int && kv.kind == 1) || (!int && kv.kind == 2)) then Eff.illegal c x [a]
          else
            let na := 128 * kt * fmtWidth fa.fmt / 8
            let nw := 128 * kt * fmtWidth fw.fmt / 8
            let pre := c.busyFaults x [a, 8]
              ++ (if ra.tileBytes < na || !ra.ready x.t ka then [c.ringMiss x.desc x.t ga] else [])
              ++ (if rw.tileBytes < nw || !rw.ready x.t kw then [c.ringMiss x.desc x.t gw] else [])
            match c.maskWait x with
            | some w => { Eff.waits c w with flt := pre }
            | none =>
              c.checked x [] [] pre fun c =>
                let m := c.takeMask
                let c := ((m.1.hold x [a, 8] (x.t + 288)).useRing x.desc gw (c.ring gw).rd).useRing x.desc ga (c.ring ga).rd
                let lane := 8 * lg.toNat
                let run := { emptyRun with
                  d := x.desc, dense := true, a := a, gw := gw, ga := ga, lanes := lane, zeroes := z == 1
                  keep := keep == 1, int := int, kt := kt, afmt := fa.fmt, wfmt := fw.fmt, mask := m.2 }
                let c := ({ c with array := some run }).passTile gw kw
                let c := if keep = 1 then c else c.passTile ga ka
                let off := kw * rw.tileBytes
                ((c.streamAct x lane ga ka na).andThen fun c =>
                  c.startRead x.t (intake x.desc (x.t + 8) lane 7 (.plyIn 0 false) (some (gw, off))) 4 (x.t + 8)
                    (rw.runs off nw)).also [(x.t + 288, phStart, .mmadSpanEnd x.k)]

/-- MMAD SPAN END: the pass joins the tile. -/
def Core.endMad (c : Core) (t : Nat) (a : MRun) : Core :=
  let kv := c.coverOf a.a
  let acc := if a.zeroes then List.replicate 16384 0 else c.tileVals a.a
  let sat0 := if a.zeroes then false else kv.sat
  if a.int then
    let r := intPass (operandInts a.afmt a.act) (operandInts a.wfmt a.wgt) acc
    let c := (c.setTile a.a (applyMask a.mask true r.1)).setCover a.a { kv with kind := 2, sat := sat0 || r.2 }
    if r.2 then c.setFlags t IS else c
  else
    let r := densePass (a.kt == 256) a.kt (operandVals a.afmt a.acb a.act) (operandVals a.wfmt a.wcb a.wgt) acc
    let c := (c.setTile a.a (applyMask a.mask false r.1)).setCover a.a { kv with kind := 1, sat := sat0 }
    if r.2 = 0 then c else c.setFlags t r.2

def execMmadSpanEnd (k : Nat) (s : State) : Host.Outcome State Fault Refusal :=
  s.atCore k fun t _ c =>
    match c.array with
    | none => Eff.ok c
    | some a => Eff.ok { (if a.failed then c else c.endMad t a) with array := none }

/-! Masks (R209 to R211). -/

/-- MMASK sA, sV, fN, mode. -/
def execMmask (sa sv : BitVec 6) (f : BitVec 4) (mode : BitVec 2) (s : State) : Host.Outcome State Fault Refusal :=
  s.issueOn fun x c =>
    let a := c.sget sa.toNat
    let pre := imageFaults x a 2048
    match c.maskWait x with
    | some w => { Eff.waits c w with flt := pre }
    | none =>
      c.checked x ([sReg sa.toNat] ++ (if mode = 1 then [sReg sv.toNat] else [])) [] pre fun c =>
        let runs := [(a.toNat, 2048)]
        let done := lastArrival f.toNat 64 (x.t + 2) 9 runs + 1
        let c := { c with mask := { c.mask with
          arming := some done, d := some x.desc
          value := if mode = 1 then some ((c.sget sv.toNat).setWidth 32) else none } }
        c.startRead x.t (moveOf x (x.t + 2) 0 f.toNat 9 (.maskBlock done) none 64) 1 (x.t + 2) runs

/-- MASK ARM. -/
def execMaskArm (k : Nat) (block : List Byte) (s : State) : Host.Outcome State Fault Refusal :=
  s.atCore k fun _ _ c =>
    Eff.ok { c with mask := { c.mask with block := some block, armed := true, arming := none } }

/-! Clearing, sums, scales, biases (R212 to R214). -/

/-- MZERO a. -/
def execMzero (a : BitVec 3) (s : State) : Host.Outcome State Fault Refusal :=
  s.issueOn fun x c =>
    c.checked x [] [] (c.busyFaults x [a.toNat]) fun c =>
      (Eff.ok (c.hold x [a.toNat] (x.t + 1))).also [(x.t + 1, phStart, .mzeroEffect x.k a.toNat)]

def execMzeroEffect (k a : Nat) (s : State) : Host.Outcome State Fault Refusal :=
  s.atCore k fun _ _ c =>
    Eff.ok ((({ c with acc := Tab.clear (16384 * a) 16384 c.acc }).setBound a zeroBound).setCover a zeroCover)

/-- MADD ad, as. -/
def execMadd (ad as : BitVec 3) (s : State) : Host.Outcome State Fault Refusal :=
  s.issueOn fun x c =>
    let kd := (c.coverOf ad.toNat).kind
    let ks := (c.coverOf as.toNat).kind
    if (kd == 1 && ks == 2) || (kd == 2 && ks == 1) then Eff.illegal c x [ad.toNat]
    else
      let rs := [min ad.toNat as.toNat, max ad.toNat as.toNat].eraseDups
      c.checked x [] [] (c.busyFaults x rs) fun c =>
        (Eff.ok (c.hold x rs (x.t + 128))).also [(x.t + 128, phStart, .maddEffect x.k ad.toNat as.toNat)]

/-- Elements joined one by one, with the flags and the saturation mark. -/
def joinTiles (int : Bool) (xs ys : List W32) : List W32 × Flags × Bool :=
  if int then
    let r := List.zipWith (fun (x y : W32) => clamp32 (x.toInt + y.toInt)) xs ys
    let sat := (r.map (·.2)).any id
    (r.map (·.1), flagIf sat IS, sat)
  else
    let r := List.zipWith (fun (x y : W32) => fp32.fadd 0 x.toNat y.toNat) xs ys
    (r.map fun e => BitVec.ofNat 32 e.1, (r.map (·.2)).foldl (· ||| ·) 0, false)

/-- A tile's block closed, its cover register following (R193, R213). -/
def Core.closeTile (c : Core) (a : Nat) : Core :=
  let kv := c.coverOf a
  let b := c.boundOf a
  if b.opened then
    let b := b.close (kv.cursor == kv.count)
    (c.setBound a b).setCover a (kv.sync b)
  else c

/-- MADD EFFECT (R197, R213). -/
def execMaddEffect (k ad as : Nat) (s : State) : Host.Outcome State Fault Refusal :=
  s.atCore k fun t _ c =>
    let c := (c.closeTile ad).closeTile as
    let bd := c.boundOf ad
    let bs := c.boundOf as
    let kd := c.coverOf ad
    let ks := c.coverOf as
    let kind := max kd.kind.toNat ks.kind.toNat
    let r := joinTiles (kind == 2) (c.tileVals ad) (c.tileVals as)
    let b := { bd with
      closed := fromLine (List.zipWith addUp (line128 bd.closed) (line128 bs.closed))
      covm := addUp bd.covm bs.covm, totm := addUp bd.totm bs.totm, fullc := bd.fullc && bs.fullc }
    let kv := { kd with
      sat := kd.sat || ks.sat || r.2.2, kind := BitVec.ofNat 2 kind
      quanta := BitVec.ofNat 19 (min (kd.quanta.toNat + ks.quanta.toNat) 524287) }
    let c := ((c.setTile ad r.1).setBound ad b).setCover ad (kv.sync b)
    Eff.ok (if r.2.1 = 0 then c else c.setFlags t r.2.1)

/-- The vector of MSCALE and MBIAS: lane (⌊n ÷ 64⌋, n mod 64) of v for column n (R179, R214). -/
def Core.columnVec (c : Core) (v : Nat) : List W32 := Tab.slice 0 c.v (1024 * v) 128

/-- The scoreboard without the V words of this cycle, whose results land later than MSCALE and MBIAS read (R214's table of
events in one cycle). -/
def Core.before (c : Core) (x : Ctx) : Core :=
  { c with board := c.board.filter fun p => !(p.d.col == .V && p.d.start == x.t) }

/-- What MSCALE and MBIAS share. -/
def vecWord (a : BitVec 3) (v : BitVec 5) (scale : Bool) (x : Ctx) (c : Core) : Eff :=
  if scale && (c.coverOf a.toNat).kind == 2 then Eff.illegal c x [a.toNat]
  else
    let pre := c.busyFaults x [a.toNat] ++ c.illRegs x [vReg v.toNat]
    match (c.before x).board? x [vReg v.toNat] [] with
    | some w => { Eff.waits c w with flt := pre }
    | none =>
      if !pre.isEmpty then (Eff.ok c).faults pre
      else
        (Eff.ok (c.hold x [a.toNat] (x.t + 128))).also
          [(x.t + 128, phStart, .mscaleMbiasEffect x.k a.toNat scale (c.columnVec v.toNat))]

def execMscale (a : BitVec 3) (v : BitVec 5) (s : State) : Host.Outcome State Fault Refusal := s.issueOn (vecWord a v true)
def execMbias (a : BitVec 3) (v : BitVec 5) (s : State) : Host.Outcome State Fault Refusal := s.issueOn (vecWord a v false)

/-- max_n |c[n]|; a NaN makes it +∞ (R193, R214). -/
def maxMag (v : List W32) : W32 :=
  maxUp (v.map fun x =>
    match fpv x with
    | .nan _ => 0x7F800000
    | _ => x &&& 0x7FFFFFFF)

/-- A row-wise vector repeated for every row of a tile. -/
def everyRow (v : List W32) : List W32 := (List.replicate 128 v).flatten

/-- MSCALE MBIAS EFFECT (R214). -/
def execMscaleMbiasEffect (k a : Nat) (scale : Bool) (v : List W32) (s : State) : Host.Outcome State Fault Refusal :=
  s.atCore k fun t _ c =>
    let kv := c.coverOf a
    let kind := if kv.kind == 0 then 1 else kv.kind
    if scale then
      let r := List.zipWith (fun (x y : W32) => fp32.fmul 0 x.toNat y.toNat) (c.tileVals a) (everyRow v)
      let fl := (r.map (·.2)).foldl (· ||| ·) 0
      let b := (c.boundOf a).close (kv.cursor == kv.count)
      let m := maxMag v
      let b := { b with closed := fromLine ((line128 b.closed).map fun x => mulUp x m) }
      let c := ((c.setTile a (r.map fun e => BitVec.ofNat 32 e.1)).setBound a b).setCover a ({ kv with kind := kind }.sync b)
      Eff.ok (if fl = 0 then c else c.setFlags t fl)
    else
      let r := joinTiles (kv.kind == 2) (c.tileVals a) (everyRow v)
      let c := (c.setTile a r.1).setCover a { kv with kind := kind, sat := kv.sat || r.2.2 }
      Eff.ok (if r.2.1 = 0 then c else c.setFlags t r.2.1)

/-! Output (R215 to R217). -/

/-- The width of MOUT's elements; RAW writes 32 bits. -/
def outWidth (fmt : Nat) : Nat := if fmt = 0 then 32 else fmtWidth fmt

/-- A bank that MOUT's format does not meet (R215). -/
def Core.outBank (c : Core) (fmt : Nat) (runs : List (Nat × Nat)) : Option Nat :=
  if fmt = 0 then none
  else (banksOf runs).find? fun b => !((c.bank b).fmt == fmt || ((c.bank b).fmt == 0 && fmt != fmtC4))

/-- The parts of row `m`: lane, cycle of departure, address, length, stream offset within the row. -/
def outBeats (width f t m : Nat) (runs : List (Nat × Nat)) : List (Nat × Nat × Nat × Nat × Nat) :=
  (partsOf 64 runs).map fun p =>
    let j := p.2.2 / 64
    (f + j % 4, t + 2 * m + 1 + j / 4, p.1, p.2.1, p.2.2 % (16 * width))

/-- The segments of all beats of a MOUT: each lane's beats leave every second cycle, or every cycle for 32-bit
elements. -/
def outOccs (d : Desc) (width f t : Nat) (r : Ring) (off : Nat) : List Occ :=
  (List.range 128).flatMap fun m =>
    (outBeats width f t m (r.runs (off + 16 * width * m) (16 * width))).flatMap fun b =>
      (Leg.mk b.1 9 (bankStation (bankOf b.2.2.1)) b.2.1 1 1).occs d false

/-- Neighbouring uses of one segment, two cycles or one apart, as one use. -/
def joinOccs : List Occ → List Occ → List Occ
  | [], acc => acc
  | o :: r, acc =>
    match acc.find? fun a => a.lane == o.lane && a.seg == o.seg
        && ((a.lo == a.hi && (o.lo == a.hi + 1 || o.lo == a.hi + 2)) || (a.lo != a.hi && o.lo == a.hi + a.step)) with
    | some a => joinOccs r (acc.map fun b => if b = a then { a with hi := o.lo, step := o.lo - a.hi } else b)
    | none => joinOccs r (o :: acc)

/-- MOUT a, g, fmt, rm, pol, fN. -/
def execMout (a : BitVec 3) (g fmt : BitVec 4) (rm pol : BitVec 2) (f : BitVec 4) (s : State) :
    Host.Outcome State Fault Refusal :=
  s.issueOn fun x c =>
    let g := g.toNat
    let r := c.ring g
    let w := outWidth fmt.toNat
    let n := 2048 * w
    if r.nfr = 0 then ringFault c x g 0
    else
      match c.outBank fmt.toNat (r.runs r.wr (min n r.size)) with
      | some b => Eff.illegal c x [b]
      | none =>
        c.checked x [] [] (c.busyFaults x [a.toNat]) fun c =>
          c.fills x g n fun c off =>
            let o := c.occupy x.k (joinOccs (outOccs x.desc w f.toNat x.t r off) []) x.t
            let run : OutRun :=
              { d := x.desc, a := a.toNat, g := g, roff := off, fmt := fmt.toNat, rm := rm.toNat, pol := pol.toNat,
                f := f.toNat }
            ((Eff.ok (o.1.hold x [a.toNat] (x.t + 255))).also [(x.t + 1, phRead, .moutRow run 0)]).faults o.2

/-- The exact value of an accumulator element of a tile's kind. -/
def elemVal (kind : BitVec 2) (v : W32) : FV := if kind = 2 then FV.ofInt v.toInt else fpv v

/-- An element as MOUT writes it in a bank (R64, R215). -/
def outCode (b : BankFmt) (fmt rm pol : Nat) (kind : BitVec 2) (v : W32) : Conv :=
  if fmt = 0 then ⟨v.toNat, 0, false⟩
  else
    let x := elemVal kind v
    if b.fmt = 0 then convertTo fmt rm pol x
    else if fmt = fmtC4 then encodeC4 b.cb (fp32.value b.scale) x pol
    else
      let s := fp32.value b.scale
      let y := x.div s
      let o := convertTo fmt rm pol y.1
      { o with fl := o.fl ||| flagIf y.2.1 NV ||| flagIf y.2.2 DZ ||| sigFlag [x, s] }

/-- MOUT ROW: row `m` leaves the converter at t + 2m + 1 and its beats depart (R216). -/
def execMoutRow (o : OutRun) (m : Nat) (s : State) : Host.Outcome State Fault Refusal :=
  s.atCore o.d.k fun t _ c =>
    let r := c.ring o.g
    let w := outWidth o.fmt
    let off := o.roff + 16 * w * m
    let runs := r.runs off (16 * w)
    let kind := (c.coverOf o.a).kind
    let vals := if kind = 0 then List.replicate 128 0 else Tab.slice 0 c.acc (16384 * o.a + 128 * m) 128
    let codes := (vals.zipIdx).map fun e => outCode (c.bank (bankOf (runAddr runs (w * e.2 / 8)))) o.fmt o.rm o.pol kind e.1
    let next : List (Nat × Nat × Act) := if m + 1 < 128 then [(t + 2, phRead, .moutRow o (m + 1))] else []
    match (codes.zipIdx).find? fun e => e.1.trap with
    | some e => ((Eff.ok c).also next).faults [⟨cTrap, 0, o.d, t, w64 (128 * m + e.2), 0, 0⟩]
    | none =>
      let fl := (codes.map (·.fl)).foldl (· ||| ·) 0
      let bytes := codeBytes w (codes.map fun k => some k.bits)
      let pieces := fillParts (fun p =>
        t + p.2.2 / 256 + hopsOn (o.f + p.2.2 / 64 % 4) 9 (bankStation (bankOf p.1))) (partsOf 64 runs) bytes.1 []
      let mv : Move :=
        { d := o.d, k := o.d.k, cls := 0, lane := o.f, unit := 9, kind := .store, ring := some (o.g, off), beat := 256,
          tag := none, lanes := [], bytes := [], fl := 0 }
      ((Eff.ok (if fl = 0 then c else c.setFlags t fl)).also (startWrites mv pieces)).also next

/-- A cover register as 64 bits (R202). -/
def Cover.word (k : Cover) (b : Bound) : Nat :=
  k.quanta.toNat * 2 ^ 45 + (if k.sat then 2 ^ 44 else 0) + k.kind.toNat * 2 ^ 42 + (if b.opened then 2 ^ 41 else 0)
    + (if b.fullc then 2 ^ 40 else 0) + k.tile.toNat * 2 ^ 24 + k.count.toNat * 2 ^ 20 + k.cursor.toNat * 2 ^ 16
    + k.cov.toNat

/-- The register MOUTB writes (R217). -/
def Core.boundVec (c : Core) (a : Nat) : List W32 :=
  let b := c.boundOf a
  let k := (c.coverOf a).word b
  b.rows ++ [BitVec.ofNat 32 k, BitVec.ofNat 32 (k / 2 ^ 32), b.covm, b.totm] ++ List.replicate 892 0

/-- An uncorrectable error in the bound store that MOUTB reads. DESIGN CHOICE (log entry 29): bound stores follow the 512 KiB of the
accumulators in the addresses of ACCUM, 4 KiB each. -/
def Core.illBound (c : Core) (x : Ctx) (a : Nat) : List CFault :=
  c.illFaults x.desc x.t 2 fun e => decide (0x80000 + 4096 * a ≤ e) && decide (e < 0x80000 + 4096 * (a + 1))

/-- MOUTB a, v. -/
def execMoutb (a : BitVec 3) (v : BitVec 5) (s : State) : Host.Outcome State Fault Refusal :=
  s.issueOn fun x c =>
    c.checked x [] [(vReg v.toNat, x.t + 4)] (c.busyFaults x [a.toNat] ++ c.illBound x a.toNat) fun c =>
      (Eff.ok (c.hold x [a.toNat] (x.t + 1))).also
        [(x.t + 4, phStart, .moutbWrite x.k v.toNat (c.boundVec a.toNat))]

/-- MOUTB WRITE at t + 4. -/
def execMoutbWrite (k v : Nat) (vals : List W32) (s : State) : Host.Outcome State Fault Refusal :=
  s.atCore k fun _ _ c => Eff.ok { c with v := writeLanes [(v, vals.map some)] c.v }

end Sys2Proof.Machine
end

