-- ==== Sys2Proof/Machine/OnDie.lean ====
section
/-! DEFINITION. Uncorrectable errors of accumulators, bound stores, the array, screen tables and landing buffers, met by the pending
step that reads them (R343, R350). Registers, code and the shadow tables are met at issue: `Core.illRegs`, `Core.illCode`,
`Core.illBound`, `Core.illTables`. -/

namespace Sys2Proof.Machine

/-- The addresses of `n` rows of a tile from row `m` on, and of its bound store where `bound` says so. -/
def tileRange (a m n : Nat) (bound : Bool) (e : Nat) : Bool :=
  (decide (65536 * a + 512 * m ≤ e) && decide (e < 65536 * a + 512 * (m + n)))
    || (bound && decide (0x80000 + 4096 * a ≤ e) && decide (e < 0x80000 + 4096 * (a + 1)))

/-- Where the array and the side unit lie among the addresses of ARRAY: above the screen tables (log entry 29). -/
def arrayBase : Nat := 2 ^ 22

/-- The word that holds a tile. -/
def Core.holder (c : Core) (a : Nat) : Option Desc := (c.own.find? fun o => o.res == a).map Owner.d

/-- What a step of core `c` meets of the errors in the stores it reads at cycle `t`. -/
def Core.illReads (c : Core) (t : Nat) : Act → List CFault
  | .moutRow o m => c.illFaults o.d t 2 (tileRange o.a m 1 false)
  | .plySpanEnd _ | .mmadSpanEnd _ =>
    match c.array with
    | some a =>
      c.illFaults a.d t 5 (fun e => decide (arrayBase ≤ e))
        ++ (if a.zeroes then [] else c.illFaults a.d t 2 (tileRange a.a 0 128 a.dense.not))
    | none => []
  | .maddEffect _ ad as =>
    match c.holder ad with
    | some d => c.illFaults d t 2 fun e => tileRange ad 0 128 true e || tileRange as 0 128 true e
    | none => []
  | .mscaleMbiasEffect _ a scale _ =>
    match c.holder a with
    | some d => c.illFaults d t 2 (tileRange a 0 128 scale)
    | none => []
  | .mdropPop _ a _ rd d => if rd then [] else c.illFaults d t 2 fun e => tileRange a 0 0 true e
  | .screenStageLookup _ y st =>
    match c.screen.flyer y with
    | some (r, e) => if e.drop then [] else c.illFaults r.d t 5 (screenRange st e.gen)
    | none => []
  | .readBeatLanding x _ _ => (c.illFaults x.d t landingLoc fun _ => true).map fun f => { f with sub := 1 }
  | _ => []

/-- The core whose on-die stores a step reads. -/
def readerOf : Act → Option Nat
  | .moutRow o _ => some o.d.k
  | .plySpanEnd k | .mmadSpanEnd k | .maddEffect k _ _ | .mscaleMbiasEffect k _ _ _ | .mdropPop k _ _ _ _
  | .screenStageLookup k _ _ => some k
  | .readBeatLanding x _ _ => some x.d.k
  | _ => none

/-- The errors that a step meets, with the sheet they end. -/
def State.illReads (s : State) (a : Act) : Option (Nat × List CFault) :=
  match (readerOf a).bind s.core? with
  | none => none
  | some c =>
    match s.sheet? c.sh with
    | none => none
    | some sh =>
      let fs := c.illReads (s.task sh) a
      if fs.isEmpty then none else some (sh.id, fs)

end Sys2Proof.Machine
end

