-- ==== Sys2Proof/Machine/Agenda.lean ====
section
/-! DEFINITION. The pending steps of the agenda: each runs the meaning of its row, and the next one is found. -/

namespace Sys2Proof.Machine

/-- The meaning of a pending step: that of its row of the table. -/
def actMeaning (a : Act) (s : State) : Host.Outcome State Fault Refusal :=
  match a with
  | .repRepetition a1 a2 => execRepRepetition a1 a2 s
  | .rotatingIterationBoundary a1 a2 a3 a4 => execRotatingIterationBoundary a1 a2 a3 a4 s
  | .lenientStallRecheck a1 => execLenientStallRecheck a1 s
  | .registerWriteback a1 a2 a3 a4 => execRegisterWriteback a1 a2 a3 a4 s
  | .vResultWriteback a1 a2 => execVResultWriteback a1 a2 s
  | .sScratchAccess a1 a2 => execSScratchAccess a1 a2 s
  | .atomRead a1 a2 => execAtomRead a1 a2 s
  | .atomWrite a1 a2 a3 => execAtomWrite a1 a2 a3 s
  | .laneBeat a1 a2 => execLaneBeat a1 a2 s
  | .vStoreConversion a1 => execVStoreConversion a1 s
  | .sidecarAttach a1 a2 a3 a4 => execSidecarAttach a1 a2 a3 a4 s
  | .gatherScatterAccess a1 a2 => execGatherScatterAccess a1 a2 s
  | .raggedTableRead a1 a2 => execRaggedTableRead a1 a2 s
  | .hbmSample a1 => execHbmSample a1 s
  | .hbmPerform a1 a2 a3 => execHbmPerform a1 a2 a3 s
  | .readBeatLanding a1 a2 a3 => execReadBeatLanding a1 a2 a3 s
  | .transferCredit a1 a2 a3 => execTransferCredit a1 a2 a3 s
  | .sendBeatLanding a1 a2 a3 a4 => execSendBeatLanding a1 a2 a3 a4 s
  | .copyStep a1 a2 a3 => execCopyStep a1 a2 a3 s
  | .weaveEmission a1 a2 => execWeaveEmission a1 a2 s
  | .weaveContribution a1 a2 => execWeaveContribution a1 a2 s
  | .weaveStatusWrite a1 => execWeaveStatusWrite a1 s
  | .linkFlitRelease a1 => execLinkFlitRelease a1 s
  | .plyHeaderRead a1 a2 => execPlyHeaderRead a1 a2 s
  | .plySpanEnd a1 => execPlySpanEnd a1 s
  | .mmadSpanEnd a1 => execMmadSpanEnd a1 s
  | .mdropPop a1 a2 a3 a4 a5 => execMdropPop a1 a2 a3 a4 a5 s
  | .mzeroEffect a1 a2 => execMzeroEffect a1 a2 s
  | .maddEffect a1 a2 a3 => execMaddEffect a1 a2 a3 s
  | .mscaleMbiasEffect a1 a2 a3 a4 => execMscaleMbiasEffect a1 a2 a3 a4 s
  | .moutRow a1 a2 => execMoutRow a1 a2 s
  | .moutbWrite a1 a2 a3 => execMoutbWrite a1 a2 a3 s
  | .maskArm a1 a2 => execMaskArm a1 a2 s
  | .probeResult a1 a2 a3 a4 a5 => execProbeResult a1 a2 a3 a4 a5 s
  | .pinvEffect a1 a2 a3 => execPinvEffect a1 a2 a3 s
  | .ringcfgEffect a1 a2 a3 => execRingcfgEffect a1 a2 a3 s
  | .patchArmCheck a1 a2 => execPatchArmCheck a1 a2 s
  | .screenAdmission a1 a2 => execScreenAdmission a1 a2 s
  | .screenStageLookup a1 a2 a3 => execScreenStageLookup a1 a2 a3 s
  | .screenStageAction a1 a2 a3 => execScreenStageAction a1 a2 a3 s
  | .screenExit a1 a2 => execScreenExit a1 a2 s
  | .screenSpanEnd a1 => execScreenSpanEnd a1 s
  | .stblLine a1 a2 a3 => execStblLine a1 a2 a3 s
  | .peerAbortStop a1 a2 => execPeerAbortStop a1 a2 s
  | .watchdog a1 => execWatchdog a1 s
  | .sheetEnd a1 => execSheetEnd a1 s
  | .armCommand a1 a2 a3 => execArmCommand a1 a2 a3 s
  | .partition a1 a2 a3 a4 a5 a6 => execPartition a1 a2 a3 a4 a5 a6 s
  | .domain a1 a2 a3 a4 => execDomain a1 a2 a3 a4 s
  | .lease a1 a2 a3 => execLease a1 a2 a3 s
  | .power a1 a2 => execPower a1 a2 s
  | .debugToken a1 a2 => execDebugToken a1 a2 s
  | .vatcfg a1 a2 => execVatcfg a1 a2 s
  | .readRepairMap a1 a2 => execReadRepairMap a1 a2 s
  | .readTemperatures a1 a2 => execReadTemperatures a1 a2 s
  | .placement a1 => execPlacement a1 s
  | .sheetAlignment a1 => execSheetAlignment a1 s
  | .maintenanceSlot => execMaintenanceSlot s
  | .holdUnit a1 => execHoldUnit a1 s
  | .slotEnd => execSlotEnd s
  | .linkFailure a1 a2 => execLinkFailure a1 a2 s
  | .marginRestore a1 a2 a3 => execMarginRestore a1 a2 a3 s
  | .contextSave a1 => execContextSave a1 s
  | .resume a1 => execResume a1 s
  | .irrevocableFreeze a1 => execIrrevocableFreeze a1 s
  | .irrevocableCouch a1 => execIrrevocableCouch a1 s
  | .couch a1 => execCouch a1 s
  | .couchPrepare a1 a2 => execCouchPrepare a1 a2 s
  | .couchDecide a1 => execCouchDecide a1 s
  | .couchApply a1 a2 => execCouchApply a1 a2 s
  | .repulp a1 => execRepulp a1 s
  | .vatDrain a1 a2 a3 => execVatDrain a1 a2 a3 s
  | .debugFreeze a1 a2 => execDebugFreeze a1 a2 s
  | .debugRelease a1 a2 => execDebugRelease a1 a2 s
  | .debugScan a1 a2 => execDebugScan a1 a2 s
  | .debugScanDone a1 a2 => execDebugScanDone a1 a2 s
  | .debugSuspension a1 => execDebugSuspension a1 s
  | .elostClear a1 => execElostClear a1 s
  | .traceLostClear a1 a2 => execTraceLostClear a1 a2 s
  | .hbctlWrite a1 a2 a3 => execHbctlWrite a1 a2 a3 s
  | .headboxDescriptor a1 a2 => execHeadboxDescriptor a1 a2 s
  | .headboxFrameDone a1 a2 => execHeadboxFrameDone a1 a2 s
  | .getVersion a1 => execGetVersion a1 s
  | .getCapabilities a1 => execGetCapabilities a1 s
  | .negotiateAlgorithms a1 => execNegotiateAlgorithms a1 s
  | .getDigests a1 => execGetDigests a1 s
  | .getCertificate a1 => execGetCertificate a1 s
  | .challenge a1 a2 => execChallenge a1 a2 s
  | .getMeasurements a1 a2 => execGetMeasurements a1 a2 s
  | .keyExchange a1 a2 => execKeyExchange a1 a2 s
  | .spdmFinish a1 => execSpdmFinish a1 s
  | .keyLoad a1 a2 a3 a4 a5 => execKeyLoad a1 a2 a3 a4 a5 s
  | .enterAttested a1 => execEnterAttested a1 s
  | .packageReset a1 => execPackageReset a1 s
  | .registerWrite a1 a2 a3 => execRegisterWrite a1 a2 a3 s
  | .hostCxlMemWrite a1 a2 a3 => execHostCxlMemWrite a1 a2 a3 s
  | .malformedPacket a1 => execMalformedPacket a1 s
  | .standbyTwinTakeover a1 => execStandbyTwinTakeover a1 s

/-- A pending step runs its meaning; an uncorrectable error in a store that it reads faults its word (R350). -/
def runAct (a : Act) (s : State) : Host.Outcome State Fault Refusal :=
  match s.illReads a with
  | none => actMeaning a s
  | some (id, fs) =>
    match actMeaning a s with
    | .next t => .next (t.raiseAll id fs)
    | o => o

/-! Corrected errors of on-die stores (R350). -/

/-- The corrected errors that stand in the cores: core, its sheet, location and address as `Core.ill` has them. -/
def State.soft (s : State) : List (Nat × Nat × Nat × Nat) :=
  s.cores.flatMap fun e => (e.2.ill.filter fun x => decide (softLoc ≤ x.1)).map fun x => (e.1, e.2.sh, x)

/-- The core as if one of them were uncorrectable. -/
def Core.harden (c : Core) (e : Nat × Nat) : Core :=
  let c := { c with ill := c.ill.filter fun x => x != e }
  if e.1 = softLoc + 1 then { c with bad := e.2 :: c.bad } else { c with ill := (e.1 - softLoc, e.2) :: c.ill }

/-- What a machine has reported: the faults of its sheets, the events of its packages. -/
def State.told (s : State) : List (List FaultRec) × List (List Report × BitVec 40) :=
  (s.sheets.map Sheet.faults, s.pkgs.map fun p => (p.reports, p.evNext))

/-- A corrected error met: it is an event of its core's channel, and stands no more. -/
def State.correct (s : State) (e : Nat × Nat × Nat × Nat) : State :=
  let q := keyPkg e.1
  let ch := (s.pkg q).coreChannel (keyId e.1)
  let gone := fun (c : Core) => if c.sh = e.2.1 then { c with ill := c.ill.filter fun x => x != e.2.2 } else c
  { s with
    cores := s.cores.map fun (x : Nat × Core) => if x.1 == e.1 then (x.1, gone x.2) else x
    savedCores := s.savedCores.map fun (x : Nat × Nat × Core) => if x.2.1 == e.1 then (x.1, x.2.1, gone x.2.2) else x }.updPkg q
      fun p => p.event s.ttc 1 ch (p.errorFields ch e.2.2.2)

/-- A step over cores with corrected errors: it meets those at whose places an uncorrectable error would be reported, which changes
nothing else (R350). -/
def corrected (m : State → Host.Outcome State Fault Refusal) (s : State) : Host.Outcome State Fault Refusal :=
  match m s with
  | .next t => .next (s.soft.foldl (fun u e =>
      match (s.core? e.1).map fun c => m (s.setCore e.1 (c.harden e.2.2)) with
      | some (.next v) => if v.told = t.told then u else u.correct e
      | _ => u) t)
  | o => o

/-- The order in which pending steps fall due; those of one cycle and phase keep the order of their posting. -/
def Event.before (a b : Event) : Bool := decide (a.ttc < b.ttc) || (a.ttc == b.ttc && decide (a.ph < b.ph))

/-- The pending step that is due first, and the others. -/
def firstDue : List Event → Option (Event × List Event)
  | [] => none
  | e :: r =>
    match firstDue r with
    | none => some (e, [])
    | some (f, rest) => if f.before e then some (f, e :: rest) else some (e, r)

/-- The column of a core that issues next, if it issues at all: a running sheet on its clock, no gang-wide stall, END not
issued (R22, R25, R31). -/
def State.dueOf (s : State) (k : Nat) (c : Core) (o : Col) : Option (Nat × Nat × Col) :=
  match s.sheet? c.sh with
  | none => none
  | some sh =>
    let cu := (c.col o).cu
    if sh.state == 5 && sh.held == .none && sh.stall.isNone && cu.ended.isNone then some (sh.t0 + cu.due, k, o) else none

/-- The order of cores within a cycle: by logical core id, as R92 and R321 rank accesses, then by package. -/
def coreBefore (a b : Nat) : Bool := decide (keyId a < keyId b) || (keyId a == keyId b && decide (keyPkg a < keyPkg b))

/-- The earlier of two issues; within a cycle the columns go S, V, M, X, and cores in their order. -/
def issueBefore (a b : Nat × Nat × Col) : Bool :=
  decide (a.1 < b.1) || (a.1 == b.1 && (decide (a.2.2.code < b.2.2.code) || (a.2.2.code == b.2.2.code && coreBefore a.2.1 b.2.1)))

/-- The issue that is due first. -/
def firstIssue : List (Nat × Nat × Col) → Option (Nat × Nat × Col)
  | [] => none
  | e :: r =>
    match firstIssue r with
    | none => some e
    | some f => if issueBefore f e then some f else some e

/-- The word that issues next: its TTC, core key, column. -/
def State.nextIssue (s : State) : Option (Nat × Nat × Col) :=
  firstIssue (s.cores.flatMap fun e => allCols.filterMap fun o => s.dueOf e.1 e.2 o)

/-- What the machine does next. -/
inductive Turn where
  | event (e : Event) (rest : List Event)
  | issue (t k : Nat) (o : Col)
  | seam (n : Nat)
  | idle
  deriving DecidableEq, Repr

/-- The TTC of a turn; nothing is due where there is none. -/
def Turn.at_ : Turn → Option Nat
  | .event e _ => some e.ttc
  | .issue t _ _ => some t
  | .seam n => some n
  | .idle => none

/-- Pending steps and issues in the order of their cycles; steps of the earlier phases come before issue. -/
def State.nextDue (s : State) : Turn :=
  match firstDue s.agenda, s.nextIssue with
  | none, none => .idle
  | some (e, r), none => .event e r
  | none, some (t, k, o) => .issue t k o
  | some (e, r), some (t, k, o) =>
    if decide (e.ttc < t) || (e.ttc == t && decide (e.ph < phIssue)) then .event e r else .issue t k o

/-- A seam falls before everything stamped with its TTC (R18). -/
def State.turn (s : State) : Turn :=
  let d := s.nextDue
  if s.domainFormed && (d.at_.all fun t => decide (s.nextSeam ≤ t)) then .seam s.nextSeam else d

/-- Time passes: the events of the cycle that ends take their ids (R348), PCC counts with TTC (R16). -/
def State.advance (s : State) (t : Nat) : State :=
  if t ≤ s.ttc then s
  else { s with ttc := t, pkgs := s.pkgs.map fun (p : Package) => { p.settle with pcc := p.pcc + w64 (t - s.ttc) } }

/-- A step that a slot lets pass: an access that its drain makes, or after the drain a step of an untimed agent (R331, R332). -/
def Event.inSlot (z : Slot) (e : Event) : Bool :=
  decide (e.ttc < z.seam) || (z.worked && e.sh.isNone && e.ph == phSeam && e.ttc == z.seam)

/-- The first step that a slot lets pass, and the agenda without it. -/
def slotDue (z : Slot) : List Event → Option (Event × List Event)
  | [] => none
  | e :: r => if e.inSlot z then some (e, r) else (slotDue z r).map fun x => (x.1, e :: x.2)

end Sys2Proof.Machine
end

