-- ==== Sys2Proof/Machine/Dispatch.lean ====
section
/-! DEFINITION. One arm per row of the opcode table. -/

namespace Sys2Proof.Machine

def exec (i : Instr) (s : State) : Host.Outcome State Fault Refusal :=
  match i with
  | .idle a1 => Sys2Proof.Machine.execIdle a1 s
  | .align => Sys2Proof.Machine.execAlign s
  | .endc => Sys2Proof.Machine.execEndc s
  | .loop a1 a2 => Sys2Proof.Machine.execLoop a1 a2 s
  | .loopc a1 a2 a3 => Sys2Proof.Machine.execLoopc a1 a2 a3 s
  | .sadd a1 a2 a3 => Sys2Proof.Machine.execSadd a1 a2 a3 s
  | .swait a1 a2 a3 => Sys2Proof.Machine.execSwait a1 a2 a3 s
  | .swaitb a1 a2 a3 => Sys2Proof.Machine.execSwaitb a1 a2 a3 s
  | .mark a1 => Sys2Proof.Machine.execMark a1 s
  | .brk a1 => Sys2Proof.Machine.execBrk a1 s
  | .ifp a1 => Sys2Proof.Machine.execIfp a1 s
  | .rep a1 a2 => Sys2Proof.Machine.execRep a1 a2 s
  | .add a1 a2 a3 => Sys2Proof.Machine.execAdd a1 a2 a3 s
  | .sub a1 a2 a3 => Sys2Proof.Machine.execSub a1 a2 a3 s
  | .mul a1 a2 a3 => Sys2Proof.Machine.execMul a1 a2 a3 s
  | .mulh a1 a2 a3 => Sys2Proof.Machine.execMulh a1 a2 a3 s
  | .div a1 a2 a3 => Sys2Proof.Machine.execDiv a1 a2 a3 s
  | .rem a1 a2 a3 => Sys2Proof.Machine.execRem a1 a2 a3 s
  | .smin a1 a2 a3 => Sys2Proof.Machine.execSmin a1 a2 a3 s
  | .smax a1 a2 a3 => Sys2Proof.Machine.execSmax a1 a2 a3 s
  | .sand a1 a2 a3 => Sys2Proof.Machine.execSand a1 a2 a3 s
  | .sor a1 a2 a3 => Sys2Proof.Machine.execSor a1 a2 a3 s
  | .sxor a1 a2 a3 => Sys2Proof.Machine.execSxor a1 a2 a3 s
  | .andn a1 a2 a3 => Sys2Proof.Machine.execAndn a1 a2 a3 s
  | .shl a1 a2 a3 => Sys2Proof.Machine.execShl a1 a2 a3 s
  | .shr a1 a2 a3 => Sys2Proof.Machine.execShr a1 a2 a3 s
  | .sar a1 a2 a3 => Sys2Proof.Machine.execSar a1 a2 a3 s
  | .clz a1 a2 => Sys2Proof.Machine.execClz a1 a2 s
  | .popc a1 a2 => Sys2Proof.Machine.execPopc a1 a2 s
  | .addi a1 a2 a3 => Sys2Proof.Machine.execAddi a1 a2 a3 s
  | .muli a1 a2 a3 => Sys2Proof.Machine.execMuli a1 a2 a3 s
  | .andi a1 a2 a3 => Sys2Proof.Machine.execAndi a1 a2 a3 s
  | .ori a1 a2 a3 => Sys2Proof.Machine.execOri a1 a2 a3 s
  | .xori a1 a2 a3 => Sys2Proof.Machine.execXori a1 a2 a3 s
  | .mini a1 a2 a3 => Sys2Proof.Machine.execMini a1 a2 a3 s
  | .shli a1 a2 a3 => Sys2Proof.Machine.execShli a1 a2 a3 s
  | .shri a1 a2 a3 => Sys2Proof.Machine.execShri a1 a2 a3 s
  | .sari a1 a2 a3 => Sys2Proof.Machine.execSari a1 a2 a3 s
  | .ceq a1 a2 a3 => Sys2Proof.Machine.execCeq a1 a2 a3 s
  | .cne a1 a2 a3 => Sys2Proof.Machine.execCne a1 a2 a3 s
  | .clt a1 a2 a3 => Sys2Proof.Machine.execClt a1 a2 a3 s
  | .cge a1 a2 a3 => Sys2Proof.Machine.execCge a1 a2 a3 s
  | .cltu a1 a2 a3 => Sys2Proof.Machine.execCltu a1 a2 a3 s
  | .cgeu a1 a2 a3 => Sys2Proof.Machine.execCgeu a1 a2 a3 s
  | .ceqi a1 a2 a3 => Sys2Proof.Machine.execCeqi a1 a2 a3 s
  | .cnei a1 a2 a3 => Sys2Proof.Machine.execCnei a1 a2 a3 s
  | .clti a1 a2 a3 => Sys2Proof.Machine.execClti a1 a2 a3 s
  | .cgei a1 a2 a3 => Sys2Proof.Machine.execCgei a1 a2 a3 s
  | .cltui a1 a2 a3 => Sys2Proof.Machine.execCltui a1 a2 a3 s
  | .cgeui a1 a2 a3 => Sys2Proof.Machine.execCgeui a1 a2 a3 s
  | .pand a1 a2 a3 => Sys2Proof.Machine.execPand a1 a2 a3 s
  | .por a1 a2 a3 => Sys2Proof.Machine.execPor a1 a2 a3 s
  | .pxor a1 a2 a3 => Sys2Proof.Machine.execPxor a1 a2 a3 s
  | .pandn a1 a2 a3 => Sys2Proof.Machine.execPandn a1 a2 a3 s
  | .sel a1 a2 a3 a4 => Sys2Proof.Machine.execSel a1 a2 a3 a4 s
  | .fceq a1 a2 a3 => Sys2Proof.Machine.execFceq a1 a2 a3 s
  | .fclt a1 a2 a3 => Sys2Proof.Machine.execFclt a1 a2 a3 s
  | .fcle a1 a2 a3 => Sys2Proof.Machine.execFcle a1 a2 a3 s
  | .ldk a1 a2 => Sys2Proof.Machine.execLdk a1 a2 s
  | .lit a1 a2 => Sys2Proof.Machine.execLit a1 a2 s
  | .ldc a1 a2 => Sys2Proof.Machine.execLdc a1 a2 s
  | .ldkh a1 a2 a3 => Sys2Proof.Machine.execLdkh a1 a2 a3 s
  | .ldb a1 a2 a3 => Sys2Proof.Machine.execLdb a1 a2 a3 s
  | .ldh a1 a2 a3 => Sys2Proof.Machine.execLdh a1 a2 a3 s
  | .ldw a1 a2 a3 => Sys2Proof.Machine.execLdw a1 a2 a3 s
  | .ldd a1 a2 a3 => Sys2Proof.Machine.execLdd a1 a2 a3 s
  | .ldbu a1 a2 a3 => Sys2Proof.Machine.execLdbu a1 a2 a3 s
  | .ldhu a1 a2 a3 => Sys2Proof.Machine.execLdhu a1 a2 a3 s
  | .ldwu a1 a2 a3 => Sys2Proof.Machine.execLdwu a1 a2 a3 s
  | .stb a1 a2 a3 => Sys2Proof.Machine.execStb a1 a2 a3 s
  | .sth a1 a2 a3 => Sys2Proof.Machine.execSth a1 a2 a3 s
  | .stw a1 a2 a3 => Sys2Proof.Machine.execStw a1 a2 a3 s
  | .std a1 a2 a3 => Sys2Proof.Machine.execStd a1 a2 a3 s
  | .atomadd a1 a2 a3 a4 => Sys2Proof.Machine.execAtomadd a1 a2 a3 a4 s
  | .atommin a1 a2 a3 a4 => Sys2Proof.Machine.execAtommin a1 a2 a3 a4 s
  | .atommax a1 a2 a3 a4 => Sys2Proof.Machine.execAtommax a1 a2 a3 a4 s
  | .atomswp a1 a2 a3 a4 => Sys2Proof.Machine.execAtomswp a1 a2 a3 a4 s
  | .atomcas a1 a2 a3 a4 => Sys2Proof.Machine.execAtomcas a1 a2 a3 a4 s
  | .fadd a1 a2 a3 => Sys2Proof.Machine.execFadd a1 a2 a3 s
  | .fsub a1 a2 a3 => Sys2Proof.Machine.execFsub a1 a2 a3 s
  | .fmul a1 a2 a3 => Sys2Proof.Machine.execFmul a1 a2 a3 s
  | .fdiv a1 a2 a3 => Sys2Proof.Machine.execFdiv a1 a2 a3 s
  | .fmin a1 a2 a3 => Sys2Proof.Machine.execFmin a1 a2 a3 s
  | .fmax a1 a2 a3 => Sys2Proof.Machine.execFmax a1 a2 a3 s
  | .fsqrt a1 a2 => Sys2Proof.Machine.execFsqrt a1 a2 s
  | .ffma a1 a2 a3 => Sys2Proof.Machine.execFfma a1 a2 a3 s
  | .ftoi a1 a2 => Sys2Proof.Machine.execFtoi a1 a2 s
  | .ftoiz a1 a2 => Sys2Proof.Machine.execFtoiz a1 a2 s
  | .itof a1 a2 => Sys2Proof.Machine.execItof a1 a2 s
  | .faddi a1 a2 => Sys2Proof.Machine.execFaddi a1 a2 s
  | .fmuli a1 a2 => Sys2Proof.Machine.execFmuli a1 a2 s
  | .wid a1 a2 => Sys2Proof.Machine.execWid a1 a2 s
  | .widn a1 => Sys2Proof.Machine.execWidn a1 s
  | .rdsp a1 a2 => Sys2Proof.Machine.execRdsp a1 a2 s
  | .wrsp a1 a2 => Sys2Proof.Machine.execWrsp a1 a2 s
  | .cal a1 a2 => Sys2Proof.Machine.execCal a1 a2 s
  | .abort a1 a2 => Sys2Proof.Machine.execAbort a1 a2 s
  | .vadd a1 a2 a3 a4 => Sys2Proof.Machine.execVadd a1 a2 a3 a4 s
  | .vsub a1 a2 a3 a4 => Sys2Proof.Machine.execVsub a1 a2 a3 a4 s
  | .vmul a1 a2 a3 a4 => Sys2Proof.Machine.execVmul a1 a2 a3 a4 s
  | .vdiv a1 a2 a3 a4 => Sys2Proof.Machine.execVdiv a1 a2 a3 a4 s
  | .vmin a1 a2 a3 a4 => Sys2Proof.Machine.execVmin a1 a2 a3 a4 s
  | .vmax a1 a2 a3 a4 => Sys2Proof.Machine.execVmax a1 a2 a3 a4 s
  | .vfma a1 a2 a3 a4 => Sys2Proof.Machine.execVfma a1 a2 a3 a4 s
  | .vfms a1 a2 a3 a4 => Sys2Proof.Machine.execVfms a1 a2 a3 a4 s
  | .vfnma a1 a2 a3 a4 => Sys2Proof.Machine.execVfnma a1 a2 a3 a4 s
  | .vexp2 a1 a2 a3 => Sys2Proof.Machine.execVexp2 a1 a2 a3 s
  | .vlog2 a1 a2 a3 => Sys2Proof.Machine.execVlog2 a1 a2 a3 s
  | .vrcp a1 a2 a3 => Sys2Proof.Machine.execVrcp a1 a2 a3 s
  | .vrsq a1 a2 a3 => Sys2Proof.Machine.execVrsq a1 a2 a3 s
  | .vsin a1 a2 a3 => Sys2Proof.Machine.execVsin a1 a2 a3 s
  | .vcos a1 a2 a3 => Sys2Proof.Machine.execVcos a1 a2 a3 s
  | .vtanh a1 a2 a3 => Sys2Proof.Machine.execVtanh a1 a2 a3 s
  | .vsqrt a1 a2 a3 => Sys2Proof.Machine.execVsqrt a1 a2 a3 s
  | .vabs a1 a2 a3 => Sys2Proof.Machine.execVabs a1 a2 a3 s
  | .vneg a1 a2 a3 => Sys2Proof.Machine.execVneg a1 a2 a3 s
  | .viadd a1 a2 a3 a4 => Sys2Proof.Machine.execViadd a1 a2 a3 a4 s
  | .visub a1 a2 a3 a4 => Sys2Proof.Machine.execVisub a1 a2 a3 a4 s
  | .vimul a1 a2 a3 a4 => Sys2Proof.Machine.execVimul a1 a2 a3 a4 s
  | .vimin a1 a2 a3 a4 => Sys2Proof.Machine.execVimin a1 a2 a3 a4 s
  | .vimax a1 a2 a3 a4 => Sys2Proof.Machine.execVimax a1 a2 a3 a4 s
  | .viminu a1 a2 a3 a4 => Sys2Proof.Machine.execViminu a1 a2 a3 a4 s
  | .vimaxu a1 a2 a3 a4 => Sys2Proof.Machine.execVimaxu a1 a2 a3 a4 s
  | .viadds a1 a2 a3 a4 => Sys2Proof.Machine.execViadds a1 a2 a3 a4 s
  | .visubs a1 a2 a3 a4 => Sys2Proof.Machine.execVisubs a1 a2 a3 a4 s
  | .vand a1 a2 a3 a4 => Sys2Proof.Machine.execVand a1 a2 a3 a4 s
  | .vor a1 a2 a3 a4 => Sys2Proof.Machine.execVor a1 a2 a3 a4 s
  | .vxor a1 a2 a3 a4 => Sys2Proof.Machine.execVxor a1 a2 a3 a4 s
  | .vandn a1 a2 a3 a4 => Sys2Proof.Machine.execVandn a1 a2 a3 a4 s
  | .vshl a1 a2 a3 a4 => Sys2Proof.Machine.execVshl a1 a2 a3 a4 s
  | .vshr a1 a2 a3 a4 => Sys2Proof.Machine.execVshr a1 a2 a3 a4 s
  | .vsar a1 a2 a3 a4 => Sys2Proof.Machine.execVsar a1 a2 a3 a4 s
  | .vclz a1 a2 a3 => Sys2Proof.Machine.execVclz a1 a2 a3 s
  | .vpopc a1 a2 a3 => Sys2Proof.Machine.execVpopc a1 a2 a3 s
  | .vfshl a1 a2 a3 a4 => Sys2Proof.Machine.execVfshl a1 a2 a3 a4 s
  | .vfshr a1 a2 a3 a4 => Sys2Proof.Machine.execVfshr a1 a2 a3 a4 s
  | .vfceq a1 a2 a3 a4 => Sys2Proof.Machine.execVfceq a1 a2 a3 a4 s
  | .vfclt a1 a2 a3 a4 => Sys2Proof.Machine.execVfclt a1 a2 a3 a4 s
  | .vfcle a1 a2 a3 a4 => Sys2Proof.Machine.execVfcle a1 a2 a3 a4 s
  | .vfcun a1 a2 a3 a4 => Sys2Proof.Machine.execVfcun a1 a2 a3 a4 s
  | .viceq a1 a2 a3 a4 => Sys2Proof.Machine.execViceq a1 a2 a3 a4 s
  | .viclt a1 a2 a3 a4 => Sys2Proof.Machine.execViclt a1 a2 a3 a4 s
  | .vicle a1 a2 a3 a4 => Sys2Proof.Machine.execVicle a1 a2 a3 a4 s
  | .vicltu a1 a2 a3 a4 => Sys2Proof.Machine.execVicltu a1 a2 a3 a4 s
  | .vicleu a1 a2 a3 a4 => Sys2Proof.Machine.execVicleu a1 a2 a3 a4 s
  | .vsel a1 a2 a3 a4 => Sys2Proof.Machine.execVsel a1 a2 a3 a4 s
  | .vcvt a1 a2 a3 a4 a5 a6 a7 => Sys2Proof.Machine.execVcvt a1 a2 a3 a4 a5 a6 a7 s
  | .vpack a1 a2 a3 a4 a5 a6 a7 => Sys2Proof.Machine.execVpack a1 a2 a3 a4 a5 a6 a7 s
  | .vunpl a1 a2 a3 a4 a5 a6 a7 => Sys2Proof.Machine.execVunpl a1 a2 a3 a4 a5 a6 a7 s
  | .vunph a1 a2 a3 a4 a5 a6 a7 => Sys2Proof.Machine.execVunph a1 a2 a3 a4 a5 a6 a7 s
  | .vaddi a1 a2 => Sys2Proof.Machine.execVaddi a1 a2 s
  | .vmuli a1 a2 => Sys2Proof.Machine.execVmuli a1 a2 s
  | .vmaxi a1 a2 => Sys2Proof.Machine.execVmaxi a1 a2 s
  | .vmini a1 a2 => Sys2Proof.Machine.execVmini a1 a2 s
  | .viaddi a1 a2 => Sys2Proof.Machine.execViaddi a1 a2 s
  | .viandi a1 a2 => Sys2Proof.Machine.execViandi a1 a2 s
  | .vishli a1 a2 => Sys2Proof.Machine.execVishli a1 a2 s
  | .vishri a1 a2 => Sys2Proof.Machine.execVishri a1 a2 s
  | .qand a1 a2 a3 => Sys2Proof.Machine.execQand a1 a2 a3 s
  | .qor a1 a2 a3 => Sys2Proof.Machine.execQor a1 a2 a3 s
  | .qxor a1 a2 a3 => Sys2Proof.Machine.execQxor a1 a2 a3 s
  | .qandn a1 a2 a3 => Sys2Proof.Machine.execQandn a1 a2 a3 s
  | .qnot a1 a2 => Sys2Proof.Machine.execQnot a1 a2 s
  | .qgath a1 a2 a3 => Sys2Proof.Machine.execQgath a1 a2 a3 s
  | .qseti a1 a2 => Sys2Proof.Machine.execQseti a1 a2 s
  | .qfromv a1 a2 => Sys2Proof.Machine.execQfromv a1 a2 s
  | .vld a1 a2 a3 a4 a5 => Sys2Proof.Machine.execVld a1 a2 a3 a4 a5 s
  | .vst a1 a2 a3 a4 a5 => Sys2Proof.Machine.execVst a1 a2 a3 a4 a5 s
  | .vlda a1 a2 a3 a4 a5 => Sys2Proof.Machine.execVlda a1 a2 a3 a4 a5 s
  | .vsta a1 a2 a3 a4 a5 => Sys2Proof.Machine.execVsta a1 a2 a3 a4 a5 s
  | .vldt a1 a2 a3 a4 a5 => Sys2Proof.Machine.execVldt a1 a2 a3 a4 a5 s
  | .vstm a1 a2 a3 a4 a5 => Sys2Proof.Machine.execVstm a1 a2 a3 a4 a5 s
  | .vgath a1 a2 a3 a4 a5 => Sys2Proof.Machine.execVgath a1 a2 a3 a4 a5 s
  | .vscat a1 a2 a3 a4 a5 => Sys2Proof.Machine.execVscat a1 a2 a3 a4 a5 s
  | .vstb a1 a2 a3 => Sys2Proof.Machine.execVstb a1 a2 a3 s
  | .vradd a1 a2 a3 => Sys2Proof.Machine.execVradd a1 a2 a3 s
  | .vrmax a1 a2 a3 => Sys2Proof.Machine.execVrmax a1 a2 a3 s
  | .vrmin a1 a2 a3 => Sys2Proof.Machine.execVrmin a1 a2 a3 s
  | .vradds a1 a2 a3 => Sys2Proof.Machine.execVradds a1 a2 a3 s
  | .vrmaxs a1 a2 a3 => Sys2Proof.Machine.execVrmaxs a1 a2 a3 s
  | .vrmins a1 a2 a3 => Sys2Proof.Machine.execVrmins a1 a2 a3 s
  | .vcadd a1 a2 a3 => Sys2Proof.Machine.execVcadd a1 a2 a3 s
  | .vcmax a1 a2 a3 => Sys2Proof.Machine.execVcmax a1 a2 a3 s
  | .vcmin a1 a2 a3 => Sys2Proof.Machine.execVcmin a1 a2 a3 s
  | .vcadds a1 a2 a3 => Sys2Proof.Machine.execVcadds a1 a2 a3 s
  | .vcmaxs a1 a2 a3 => Sys2Proof.Machine.execVcmaxs a1 a2 a3 s
  | .vcmins a1 a2 a3 => Sys2Proof.Machine.execVcmins a1 a2 a3 s
  | .vrrot a1 a2 a3 a4 => Sys2Proof.Machine.execVrrot a1 a2 a3 a4 s
  | .vcrot a1 a2 a3 a4 => Sys2Proof.Machine.execVcrot a1 a2 a3 a4 s
  | .vrbc a1 a2 a3 a4 => Sys2Proof.Machine.execVrbc a1 a2 a3 a4 s
  | .vcbc a1 a2 a3 a4 => Sys2Proof.Machine.execVcbc a1 a2 a3 a4 s
  | .vpart a1 a2 a3 a4 => Sys2Proof.Machine.execVpart a1 a2 a3 a4 s
  | .vragg a1 a2 a3 a4 a5 => Sys2Proof.Machine.execVragg a1 a2 a3 a4 a5 s
  | .vbnda a1 a2 a3 => Sys2Proof.Machine.execVbnda a1 a2 a3 s
  | .vbnds a1 a2 a3 => Sys2Proof.Machine.execVbnds a1 a2 a3 s
  | .shape a1 a2 a3 a4 a5 a6 a7 => Sys2Proof.Machine.execShape a1 a2 a3 a4 a5 a6 a7 s
  | .rrb a1 => Sys2Proof.Machine.execRrb a1 s
  | .mply a1 a2 a3 a4 a5 a6 => Sys2Proof.Machine.execMply a1 a2 a3 a4 a5 a6 s
  | .mplyz a1 a2 a3 a4 a5 a6 => Sys2Proof.Machine.execMplyz a1 a2 a3 a4 a5 a6 s
  | .mplyk a1 a2 a3 a4 a5 a6 => Sys2Proof.Machine.execMplyk a1 a2 a3 a4 a5 a6 s
  | .mplyzk a1 a2 a3 a4 a5 a6 => Sys2Proof.Machine.execMplyzk a1 a2 a3 a4 a5 a6 s
  | .mres a1 a2 a3 a4 a5 a6 => Sys2Proof.Machine.execMres a1 a2 a3 a4 a5 a6 s
  | .mdrop a1 a2 => Sys2Proof.Machine.execMdrop a1 a2 s
  | .mmad a1 a2 a3 a4 a5 a6 => Sys2Proof.Machine.execMmad a1 a2 a3 a4 a5 a6 s
  | .mmask a1 a2 a3 a4 => Sys2Proof.Machine.execMmask a1 a2 a3 a4 s
  | .mzero a1 => Sys2Proof.Machine.execMzero a1 s
  | .madd a1 a2 => Sys2Proof.Machine.execMadd a1 a2 s
  | .mout a1 a2 a3 a4 a5 a6 => Sys2Proof.Machine.execMout a1 a2 a3 a4 a5 a6 s
  | .moutb a1 a2 => Sys2Proof.Machine.execMoutb a1 a2 s
  | .mscale a1 a2 => Sys2Proof.Machine.execMscale a1 a2 s
  | .mbias a1 a2 => Sys2Proof.Machine.execMbias a1 a2 s
  | .fetch a1 a2 a3 a4 a5 a6 a7 a8 a9 => Sys2Proof.Machine.execFetch a1 a2 a3 a4 a5 a6 a7 a8 a9 s
  | .rfetch a1 a2 a3 a4 a5 a6 a7 => Sys2Proof.Machine.execRfetch a1 a2 a3 a4 a5 a6 a7 s
  | .stow a1 a2 a3 a4 a5 a6 a7 => Sys2Proof.Machine.execStow a1 a2 a3 a4 a5 a6 a7 s
  | .rstow a1 a2 a3 a4 a5 a6 a7 => Sys2Proof.Machine.execRstow a1 a2 a3 a4 a5 a6 a7 s
  | .send a1 a2 a3 a4 a5 a6 => Sys2Proof.Machine.execSend a1 a2 a3 a4 a5 a6 s
  | .sendb a1 a2 a3 a4 a5 a6 => Sys2Proof.Machine.execSendb a1 a2 a3 a4 a5 a6 s
  | .copy a1 a2 a3 a4 a5 => Sys2Proof.Machine.execCopy a1 a2 a3 a4 a5 s
  | .weave a1 a2 a3 a4 a5 a6 => Sys2Proof.Machine.execWeave a1 a2 a3 a4 a5 a6 s
  | .probe a1 a2 a3 a4 a5 => Sys2Proof.Machine.execProbe a1 a2 a3 a4 a5 s
  | .pinv a1 a2 a3 => Sys2Proof.Machine.execPinv a1 a2 a3 s
  | .screen a1 a2 a3 a4 => Sys2Proof.Machine.execScreen a1 a2 a3 a4 s
  | .scommit a1 => Sys2Proof.Machine.execScommit a1 s
  | .stbl a1 a2 a3 a4 a5 => Sys2Proof.Machine.execStbl a1 a2 a3 a4 a5 s
  | .patch a1 a2 a3 a4 => Sys2Proof.Machine.execPatch a1 a2 a3 a4 s
  | .armRec a1 a2 => Sys2Proof.Machine.execArmRec a1 a2 s
  | .ringcfg a1 a2 a3 => Sys2Proof.Machine.execRingcfg a1 a2 a3 s
  | .repRepetition a1 a2 => Sys2Proof.Machine.execRepRepetition a1 a2 s
  | .rotatingIterationBoundary a1 a2 a3 a4 => Sys2Proof.Machine.execRotatingIterationBoundary a1 a2 a3 a4 s
  | .lenientStallRecheck a1 => Sys2Proof.Machine.execLenientStallRecheck a1 s
  | .registerWriteback a1 a2 a3 a4 => Sys2Proof.Machine.execRegisterWriteback a1 a2 a3 a4 s
  | .vResultWriteback a1 a2 => Sys2Proof.Machine.execVResultWriteback a1 a2 s
  | .sScratchAccess a1 a2 => Sys2Proof.Machine.execSScratchAccess a1 a2 s
  | .atomRead a1 a2 => Sys2Proof.Machine.execAtomRead a1 a2 s
  | .atomWrite a1 a2 a3 => Sys2Proof.Machine.execAtomWrite a1 a2 a3 s
  | .laneBeat a1 a2 => Sys2Proof.Machine.execLaneBeat a1 a2 s
  | .vStoreConversion a1 => Sys2Proof.Machine.execVStoreConversion a1 s
  | .sidecarAttach a1 a2 a3 a4 => Sys2Proof.Machine.execSidecarAttach a1 a2 a3 a4 s
  | .gatherScatterAccess a1 a2 => Sys2Proof.Machine.execGatherScatterAccess a1 a2 s
  | .raggedTableRead a1 a2 => Sys2Proof.Machine.execRaggedTableRead a1 a2 s
  | .hbmSample a1 => Sys2Proof.Machine.execHbmSample a1 s
  | .hbmPerform a1 a2 a3 => Sys2Proof.Machine.execHbmPerform a1 a2 a3 s
  | .readBeatLanding a1 a2 a3 => Sys2Proof.Machine.execReadBeatLanding a1 a2 a3 s
  | .transferCredit a1 a2 a3 => Sys2Proof.Machine.execTransferCredit a1 a2 a3 s
  | .sendBeatLanding a1 a2 a3 a4 => Sys2Proof.Machine.execSendBeatLanding a1 a2 a3 a4 s
  | .copyStep a1 a2 a3 => Sys2Proof.Machine.execCopyStep a1 a2 a3 s
  | .weaveEmission a1 a2 => Sys2Proof.Machine.execWeaveEmission a1 a2 s
  | .weaveContribution a1 a2 => Sys2Proof.Machine.execWeaveContribution a1 a2 s
  | .weaveStatusWrite a1 => Sys2Proof.Machine.execWeaveStatusWrite a1 s
  | .linkFlitRelease a1 => Sys2Proof.Machine.execLinkFlitRelease a1 s
  | .plyHeaderRead a1 a2 => Sys2Proof.Machine.execPlyHeaderRead a1 a2 s
  | .plySpanEnd a1 => Sys2Proof.Machine.execPlySpanEnd a1 s
  | .mmadSpanEnd a1 => Sys2Proof.Machine.execMmadSpanEnd a1 s
  | .mdropPop a1 a2 a3 a4 a5 => Sys2Proof.Machine.execMdropPop a1 a2 a3 a4 a5 s
  | .mzeroEffect a1 a2 => Sys2Proof.Machine.execMzeroEffect a1 a2 s
  | .maddEffect a1 a2 a3 => Sys2Proof.Machine.execMaddEffect a1 a2 a3 s
  | .mscaleMbiasEffect a1 a2 a3 a4 => Sys2Proof.Machine.execMscaleMbiasEffect a1 a2 a3 a4 s
  | .moutRow a1 a2 => Sys2Proof.Machine.execMoutRow a1 a2 s
  | .moutbWrite a1 a2 a3 => Sys2Proof.Machine.execMoutbWrite a1 a2 a3 s
  | .maskArm a1 a2 => Sys2Proof.Machine.execMaskArm a1 a2 s
  | .probeResult a1 a2 a3 a4 a5 => Sys2Proof.Machine.execProbeResult a1 a2 a3 a4 a5 s
  | .pinvEffect a1 a2 a3 => Sys2Proof.Machine.execPinvEffect a1 a2 a3 s
  | .ringcfgEffect a1 a2 a3 => Sys2Proof.Machine.execRingcfgEffect a1 a2 a3 s
  | .patchArmCheck a1 a2 => Sys2Proof.Machine.execPatchArmCheck a1 a2 s
  | .screenAdmission a1 a2 => Sys2Proof.Machine.execScreenAdmission a1 a2 s
  | .screenStageLookup a1 a2 a3 => Sys2Proof.Machine.execScreenStageLookup a1 a2 a3 s
  | .screenStageAction a1 a2 a3 => Sys2Proof.Machine.execScreenStageAction a1 a2 a3 s
  | .screenExit a1 a2 => Sys2Proof.Machine.execScreenExit a1 a2 s
  | .screenSpanEnd a1 => Sys2Proof.Machine.execScreenSpanEnd a1 s
  | .stblLine a1 a2 a3 => Sys2Proof.Machine.execStblLine a1 a2 a3 s
  | .peerAbortStop a1 a2 => Sys2Proof.Machine.execPeerAbortStop a1 a2 s
  | .watchdog a1 => Sys2Proof.Machine.execWatchdog a1 s
  | .sheetEnd a1 => Sys2Proof.Machine.execSheetEnd a1 s
  | .armCommand a1 a2 a3 => Sys2Proof.Machine.execArmCommand a1 a2 a3 s
  | .partition a1 a2 a3 a4 a5 a6 => Sys2Proof.Machine.execPartition a1 a2 a3 a4 a5 a6 s
  | .domain a1 a2 a3 a4 => Sys2Proof.Machine.execDomain a1 a2 a3 a4 s
  | .lease a1 a2 a3 => Sys2Proof.Machine.execLease a1 a2 a3 s
  | .power a1 a2 => Sys2Proof.Machine.execPower a1 a2 s
  | .debugToken a1 a2 => Sys2Proof.Machine.execDebugToken a1 a2 s
  | .vatcfg a1 a2 => Sys2Proof.Machine.execVatcfg a1 a2 s
  | .readRepairMap a1 a2 => Sys2Proof.Machine.execReadRepairMap a1 a2 s
  | .readTemperatures a1 a2 => Sys2Proof.Machine.execReadTemperatures a1 a2 s
  | .placement a1 => Sys2Proof.Machine.execPlacement a1 s
  | .sheetAlignment a1 => Sys2Proof.Machine.execSheetAlignment a1 s
  | .maintenanceSlot => Sys2Proof.Machine.execMaintenanceSlot s
  | .holdUnit a1 => Sys2Proof.Machine.execHoldUnit a1 s
  | .slotEnd => Sys2Proof.Machine.execSlotEnd s
  | .linkFailure a1 a2 => Sys2Proof.Machine.execLinkFailure a1 a2 s
  | .marginRestore a1 a2 a3 => Sys2Proof.Machine.execMarginRestore a1 a2 a3 s
  | .contextSave a1 => Sys2Proof.Machine.execContextSave a1 s
  | .resume a1 => Sys2Proof.Machine.execResume a1 s
  | .irrevocableFreeze a1 => Sys2Proof.Machine.execIrrevocableFreeze a1 s
  | .irrevocableCouch a1 => Sys2Proof.Machine.execIrrevocableCouch a1 s
  | .couch a1 => Sys2Proof.Machine.execCouch a1 s
  | .couchPrepare a1 a2 => Sys2Proof.Machine.execCouchPrepare a1 a2 s
  | .couchDecide a1 => Sys2Proof.Machine.execCouchDecide a1 s
  | .couchApply a1 a2 => Sys2Proof.Machine.execCouchApply a1 a2 s
  | .repulp a1 => Sys2Proof.Machine.execRepulp a1 s
  | .vatDrain a1 a2 a3 => Sys2Proof.Machine.execVatDrain a1 a2 a3 s
  | .debugFreeze a1 a2 => Sys2Proof.Machine.execDebugFreeze a1 a2 s
  | .debugRelease a1 a2 => Sys2Proof.Machine.execDebugRelease a1 a2 s
  | .debugScan a1 a2 => Sys2Proof.Machine.execDebugScan a1 a2 s
  | .debugScanDone a1 a2 => Sys2Proof.Machine.execDebugScanDone a1 a2 s
  | .debugSuspension a1 => Sys2Proof.Machine.execDebugSuspension a1 s
  | .elostClear a1 => Sys2Proof.Machine.execElostClear a1 s
  | .traceLostClear a1 a2 => Sys2Proof.Machine.execTraceLostClear a1 a2 s
  | .hbctlWrite a1 a2 a3 => Sys2Proof.Machine.execHbctlWrite a1 a2 a3 s
  | .headboxDescriptor a1 a2 => Sys2Proof.Machine.execHeadboxDescriptor a1 a2 s
  | .headboxFrameDone a1 a2 => Sys2Proof.Machine.execHeadboxFrameDone a1 a2 s
  | .getVersion a1 => Sys2Proof.Machine.execGetVersion a1 s
  | .getCapabilities a1 => Sys2Proof.Machine.execGetCapabilities a1 s
  | .negotiateAlgorithms a1 => Sys2Proof.Machine.execNegotiateAlgorithms a1 s
  | .getDigests a1 => Sys2Proof.Machine.execGetDigests a1 s
  | .getCertificate a1 => Sys2Proof.Machine.execGetCertificate a1 s
  | .challenge a1 a2 => Sys2Proof.Machine.execChallenge a1 a2 s
  | .getMeasurements a1 a2 => Sys2Proof.Machine.execGetMeasurements a1 a2 s
  | .keyExchange a1 a2 => Sys2Proof.Machine.execKeyExchange a1 a2 s
  | .spdmFinish a1 => Sys2Proof.Machine.execSpdmFinish a1 s
  | .keyLoad a1 a2 a3 a4 a5 => Sys2Proof.Machine.execKeyLoad a1 a2 a3 a4 a5 s
  | .enterAttested a1 => Sys2Proof.Machine.execEnterAttested a1 s
  | .packageReset a1 => Sys2Proof.Machine.execPackageReset a1 s
  | .registerWrite a1 a2 a3 => Sys2Proof.Machine.execRegisterWrite a1 a2 a3 s
  | .hostCxlMemWrite a1 a2 a3 => Sys2Proof.Machine.execHostCxlMemWrite a1 a2 a3 s
  | .malformedPacket a1 => Sys2Proof.Machine.execMalformedPacket a1 s
  | .standbyTwinTakeover a1 => Sys2Proof.Machine.execStandbyTwinTakeover a1 s

end Sys2Proof.Machine
end

