-- ==== Sys2Proof/Machine/Step.lean ====
section
/-! DEFINITION. One step of the machine: a word that issues, a pending step, or a part of a maintenance slot. -/

namespace Sys2Proof.Machine

/-- The word of column `o` of core `k` that issues at TTC `t` (R22). -/
def State.issueWord (s : State) (t k : Nat) (o : Col) : Host.Outcome State Fault Refusal :=
  match s.core? k with
  | none => .next s
  | some c =>
    match s.sheet? c.sh with
    | none => .next s
    | some sh =>
      match s.fetch sh k c o (t - sh.t0) with
      | .run s i => exec i s
      | .still s => .next s

/-- Outside a slot: a seam opens one; the first of the pending steps and issues is made; with nothing due, a cycle passes. -/
def State.openStep (s : State) : Host.Outcome State Fault Refusal :=
  match s.turn with
  | .seam n => runAct .maintenanceSlot (s.advance n)
  | .event e r => runAct e.act (State.advance { s with agenda := r } e.ttc)
  | .issue t k o => (s.advance t).issueWord t k o
  | .idle => .next (s.advance (s.ttc + 1))

/-- Inside a slot: its drain, its work, the untimed agents, then the agreed units, then its end (R330 to R333). -/
def State.slotStep (s : State) (z : Slot) : Host.Outcome State Fault Refusal :=
  match slotDue z s.agenda with
  | some (e, r) => runAct e.act { s with agenda := r, ttc := min e.ttc z.seam }
  | none =>
    if !z.worked then runAct .maintenanceSlot s
    else match s.nextUnit z with
      | some c => runAct (.holdUnit c) s
      | none => runAct .slotEnd s

/-- A step in a slot or outside. -/
def State.oneStep (s : State) : Host.Outcome State Fault Refusal :=
  match s.slot with
  | some z => s.slotStep z
  | none => s.openStep

/-- ONE STEP. -/
def step (s : State) : Host.Outcome State Fault Refusal := corrected State.oneStep s

/-! The host's way to lay one word where the next step fetches (log entry 1): a running sheet with one core on package 0
whose column holds the word at address 1, due now; nothing else is due. -/

/-- A column that holds a word and its literal. -/
def oneWord (w : Nat) (lit : Option W32) (due : Nat) : Column :=
  { code := Tab.put 1 (BitVec.ofNat 32 w) ((lit.map fun l => (2, l)).toList)
    lits := (lit.map fun _ => (2, true)).toList
    cu := { Cursor.reset with pc := 1, due := due } }

/-- A column that has issued END. -/
def endedColumn : Column := { code := [], lits := [], cu := { Cursor.reset with ended := some 0 } }

/-- A core as an empty image loads it, its columns ended. -/
def idleCore (id : Nat) : Core :=
  let c := bareCore id 0 0 [] 1 8 [] ⟨Package.reset, 0, []⟩
  { c with cols := (endedColumn, endedColumn, endedColumn, endedColumn) }

/-- A running sheet of that core. -/
def oneSheet (id ttc : Nat) : Sheet :=
  { armedSheet id 0 0 0 [] with
    state := 5, pkgs := [0], clusters := [(0, [0])], gang := [0], t0 := ttc / 4096 * 4096 }

def State.withFetchWord (s : State) (nbits w : Nat) : State :=
  let b := bytesOf 8 (w % 2 ^ nbits)
  let low := wordOfBytes (b.take 4)
  let high : W32 := BitVec.ofNat 32 (wordOfBytes (b.drop 4))
  let r := firstColumn low (some high)
  let col := match r with
    | some x => x.1
    | none => Col.S
  let lit := match r with
    | some x => x.2.ins.literal
    | none => none
  let due := s.ttc - s.ttc / 4096 * 4096
  { s with
    slot := none, agenda := [], seams := s.ttc / 4096
    sheets := [oneSheet s.nextSheet s.ttc], nextSheet := s.nextSheet + 1
    cores := [(0, (idleCore s.nextSheet).setCol col (oneWord low lit due))] }

end Sys2Proof.Machine
end

