-- ==== Sys2Proof/Laws/Encoding.lean ====
section
/-! SUPPORT. What the decoder reads from an encoded word: one lemma for each arrangement of operand fields. -/

namespace Sys2Proof.Laws.Encoding

theorem fld_eq {n : Nat} (v : BitVec n) (w lo : Nat) (h : bits w lo n = v.toNat) : fld w lo n = v := by
  apply BitVec.eq_of_toNat_eq
  simpa [fld, bits] using h

/-- The fields of a word with operands at bits 0, as for IDLE. -/
def f0 (x0 : BitVec 20) (w : Nat) : Prop :=
  bits w 23 6 = 0 ∧ (bits w 19 4 = 0 ∨ bits w 19 4 = 1) ∧ bits w 20 3 = 0 ∧ fld w 0 20 = x0

theorem f0_fields (b : Nat) (x0 : BitVec 20) (hb : b = 0)  :
  b + put x0 0 < 2 ^ 29 ∧ ∀ h, f0 x0 (h * 2 ^ 29 + (b + put x0 0)) := by
  have := x0.isLt
  unfold f0 put
  refine ⟨by omega, fun h => ⟨by unfold bits; omega, by unfold bits; omega, by unfold bits; omega, fld_eq _ _ _ (by unfold bits; omega)⟩⟩

/-- The fields of a word without operands. -/
def f (m : Nat)  (w : Nat) : Prop :=
  bits w 23 6 = 0 ∧ bits w 19 4 = m ∧ bits w 0 19 = 0

theorem f_fields (b : Nat) (m : Nat)  (hb : b = m * 2 ^ 19) (hm : m < 16) :
  b < 2 ^ 29 ∧ ∀ h, f m (h * 2 ^ 29 + (b)) := by
  unfold f
  refine ⟨by omega, fun h => ⟨by unfold bits; omega, by unfold bits; omega, by unfold bits; omega⟩⟩

/-- The fields of a word with operands at bits 7, 0, as for LOOP. -/
def f7_0 (m : Nat) (x0 : BitVec 12) (x1 : BitVec 7) (w : Nat) : Prop :=
  bits w 23 6 = 0 ∧ bits w 19 4 = m ∧ fld w 7 12 = x0 ∧ fld w 0 7 = x1

theorem f7_0_fields (b : Nat) (m : Nat) (x0 : BitVec 12) (x1 : BitVec 7) (hb : b = m * 2 ^ 19) (hm : m < 16) :
  b + put x0 7 + put x1 0 < 2 ^ 29 ∧ ∀ h, f7_0 m x0 x1 (h * 2 ^ 29 + (b + put x0 7 + put x1 0)) := by
  have := x0.isLt; have := x1.isLt
  unfold f7_0 put
  refine ⟨by omega, fun h => ⟨by unfold bits; omega, by unfold bits; omega, fld_eq _ _ _ (by unfold bits; omega), fld_eq _ _ _ (by unfold bits; omega)⟩⟩

/-- The fields of a word with operands at bits 13, 6, 0, as for LOOPC. -/
def f13_6_0 (m : Nat) (x0 : BitVec 6) (x1 : BitVec 7) (x2 : BitVec 6) (w : Nat) : Prop :=
  bits w 23 6 = 0 ∧ bits w 19 4 = m ∧ fld w 13 6 = x0 ∧ fld w 6 7 = x1 ∧ fld w 0 6 = x2

theorem f13_6_0_fields (b : Nat) (m : Nat) (x0 : BitVec 6) (x1 : BitVec 7) (x2 : BitVec 6) (hb : b = m * 2 ^ 19) (hm : m < 16) :
  b + put x0 13 + put x1 6 + put x2 0 < 2 ^ 29 ∧ ∀ h, f13_6_0 m x0 x1 x2 (h * 2 ^ 29 + (b + put x0 13 + put x1 6 + put x2 0)) := by
  have := x0.isLt; have := x1.isLt; have := x2.isLt
  unfold f13_6_0 put
  refine ⟨by omega, fun h => ⟨by unfold bits; omega, by unfold bits; omega, fld_eq _ _ _ (by unfold bits; omega), fld_eq _ _ _ (by unfold bits; omega), fld_eq _ _ _ (by unfold bits; omega)⟩⟩

/-- The fields of a word with operands at bits 9, 3, 2, as for SADD. -/
def f9_3_2 (m : Nat) (x0 : BitVec 10) (x1 : BitVec 6) (x2 : BitVec 1) (w : Nat) : Prop :=
  bits w 23 6 = 0 ∧ bits w 19 4 = m ∧ bits w 0 2 = 0 ∧ fld w 9 10 = x0 ∧ fld w 3 6 = x1 ∧ fld w 2 1 = x2

theorem f9_3_2_fields (b : Nat) (m : Nat) (x0 : BitVec 10) (x1 : BitVec 6) (x2 : BitVec 1) (hb : b = m * 2 ^ 19) (hm : m < 16) :
  b + put x0 9 + put x1 3 + put x2 2 < 2 ^ 29 ∧ ∀ h, f9_3_2 m x0 x1 x2 (h * 2 ^ 29 + (b + put x0 9 + put x1 3 + put x2 2)) := by
  have := x0.isLt; have := x1.isLt; have := x2.isLt
  unfold f9_3_2 put
  refine ⟨by omega, fun h => ⟨by unfold bits; omega, by unfold bits; omega, by unfold bits; omega, fld_eq _ _ _ (by unfold bits; omega), fld_eq _ _ _ (by unfold bits; omega), fld_eq _ _ _ (by unfold bits; omega)⟩⟩

/-- The fields of a word with operands at bits 0, as for MARK. -/
def f0_2 (m : Nat) (x0 : BitVec 16) (w : Nat) : Prop :=
  bits w 23 6 = 0 ∧ bits w 19 4 = m ∧ bits w 16 3 = 0 ∧ fld w 0 16 = x0

theorem f0_2_fields (b : Nat) (m : Nat) (x0 : BitVec 16) (hb : b = m * 2 ^ 19) (hm : m < 16) :
  b + put x0 0 < 2 ^ 29 ∧ ∀ h, f0_2 m x0 (h * 2 ^ 29 + (b + put x0 0)) := by
  have := x0.isLt
  unfold f0_2 put
  refine ⟨by omega, fun h => ⟨by unfold bits; omega, by unfold bits; omega, by unfold bits; omega, fld_eq _ _ _ (by unfold bits; omega)⟩⟩

/-- The fields of a word with operands at bits 16, as for IFP. -/
def f16 (m : Nat) (x0 : BitVec 3) (w : Nat) : Prop :=
  bits w 23 6 = 0 ∧ bits w 19 4 = m ∧ bits w 0 16 = 0 ∧ fld w 16 3 = x0

theorem f16_fields (b : Nat) (m : Nat) (x0 : BitVec 3) (hb : b = m * 2 ^ 19) (hm : m < 16) :
  b + put x0 16 < 2 ^ 29 ∧ ∀ h, f16 m x0 (h * 2 ^ 29 + (b + put x0 16)) := by
  have := x0.isLt
  unfold f16 put
  refine ⟨by omega, fun h => ⟨by unfold bits; omega, by unfold bits; omega, by unfold bits; omega, fld_eq _ _ _ (by unfold bits; omega)⟩⟩

/-- The fields of a word with operands at bits 14, 10, as for REP. -/
def f14_10 (m : Nat) (x0 : BitVec 5) (x1 : BitVec 4) (w : Nat) : Prop :=
  bits w 23 6 = 0 ∧ bits w 19 4 = m ∧ bits w 0 10 = 0 ∧ fld w 14 5 = x0 ∧ fld w 10 4 = x1

theorem f14_10_fields (b : Nat) (m : Nat) (x0 : BitVec 5) (x1 : BitVec 4) (hb : b = m * 2 ^ 19) (hm : m < 16) :
  b + put x0 14 + put x1 10 < 2 ^ 29 ∧ ∀ h, f14_10 m x0 x1 (h * 2 ^ 29 + (b + put x0 14 + put x1 10)) := by
  have := x0.isLt; have := x1.isLt
  unfold f14_10 put
  refine ⟨by omega, fun h => ⟨by unfold bits; omega, by unfold bits; omega, by unfold bits; omega, fld_eq _ _ _ (by unfold bits; omega), fld_eq _ _ _ (by unfold bits; omega)⟩⟩

/-- The fields of a word with operands at bits 17, 11, 5, as for ADD. -/
def f17_11_5 (M m : Nat) (x0 : BitVec 6) (x1 : BitVec 6) (x2 : BitVec 6) (w : Nat) : Prop :=
  bits w 23 6 = M ∧ bits w 0 5 = m ∧ fld w 17 6 = x0 ∧ fld w 11 6 = x1 ∧ fld w 5 6 = x2

theorem f17_11_5_fields (b : Nat) (M m : Nat) (x0 : BitVec 6) (x1 : BitVec 6) (x2 : BitVec 6) (hb : b = M * 2 ^ 23 + m * 2 ^ 0) (hM : M < 64) (hm : m < 32) :
  b + put x0 17 + put x1 11 + put x2 5 < 2 ^ 29 ∧ ∀ h, f17_11_5 M m x0 x1 x2 (h * 2 ^ 29 + (b + put x0 17 + put x1 11 + put x2 5)) := by
  have := x0.isLt; have := x1.isLt; have := x2.isLt
  unfold f17_11_5 put
  refine ⟨by omega, fun h => ⟨by unfold bits; omega, by unfold bits; omega, fld_eq _ _ _ (by unfold bits; omega), fld_eq _ _ _ (by unfold bits; omega), fld_eq _ _ _ (by unfold bits; omega)⟩⟩

/-- The fields of a word with operands at bits 17, 11, as for CLZ. -/
def f17_11 (M m : Nat) (x0 : BitVec 6) (x1 : BitVec 6) (w : Nat) : Prop :=
  bits w 23 6 = M ∧ bits w 0 5 = m ∧ bits w 5 6 = 0 ∧ fld w 17 6 = x0 ∧ fld w 11 6 = x1

theorem f17_11_fields (b : Nat) (M m : Nat) (x0 : BitVec 6) (x1 : BitVec 6) (hb : b = M * 2 ^ 23 + m * 2 ^ 0) (hM : M < 64) (hm : m < 32) :
  b + put x0 17 + put x1 11 < 2 ^ 29 ∧ ∀ h, f17_11 M m x0 x1 (h * 2 ^ 29 + (b + put x0 17 + put x1 11)) := by
  have := x0.isLt; have := x1.isLt
  unfold f17_11 put
  refine ⟨by omega, fun h => ⟨by unfold bits; omega, by unfold bits; omega, by unfold bits; omega, fld_eq _ _ _ (by unfold bits; omega), fld_eq _ _ _ (by unfold bits; omega)⟩⟩

/-- The fields of a word with operands at bits 17, 11, 0, as for ADDI. -/
def f17_11_0 (M : Nat) (x0 : BitVec 6) (x1 : BitVec 6) (x2 : BitVec 11) (w : Nat) : Prop :=
  bits w 23 6 = M ∧ fld w 17 6 = x0 ∧ fld w 11 6 = x1 ∧ fld w 0 11 = x2

theorem f17_11_0_fields (b : Nat) (M : Nat) (x0 : BitVec 6) (x1 : BitVec 6) (x2 : BitVec 11) (hb : b = M * 2 ^ 23) (hM : M < 64) :
  b + put x0 17 + put x1 11 + put x2 0 < 2 ^ 29 ∧ ∀ h, f17_11_0 M x0 x1 x2 (h * 2 ^ 29 + (b + put x0 17 + put x1 11 + put x2 0)) := by
  have := x0.isLt; have := x1.isLt; have := x2.isLt
  unfold f17_11_0 put
  refine ⟨by omega, fun h => ⟨by unfold bits; omega, fld_eq _ _ _ (by unfold bits; omega), fld_eq _ _ _ (by unfold bits; omega), fld_eq _ _ _ (by unfold bits; omega)⟩⟩

/-- The fields of a word with operands at bits 20, 11, 5, as for CEQ. -/
def f20_11_5 (M m : Nat) (x0 : BitVec 3) (x1 : BitVec 6) (x2 : BitVec 6) (w : Nat) : Prop :=
  bits w 23 6 = M ∧ bits w 17 3 = m ∧ bits w 0 5 = 0 ∧ fld w 20 3 = x0 ∧ fld w 11 6 = x1 ∧ fld w 5 6 = x2

theorem f20_11_5_fields (b : Nat) (M m : Nat) (x0 : BitVec 3) (x1 : BitVec 6) (x2 : BitVec 6) (hb : b = M * 2 ^ 23 + m * 2 ^ 17) (hM : M < 64) (hm : m < 8) :
  b + put x0 20 + put x1 11 + put x2 5 < 2 ^ 29 ∧ ∀ h, f20_11_5 M m x0 x1 x2 (h * 2 ^ 29 + (b + put x0 20 + put x1 11 + put x2 5)) := by
  have := x0.isLt; have := x1.isLt; have := x2.isLt
  unfold f20_11_5 put
  refine ⟨by omega, fun h => ⟨by unfold bits; omega, by unfold bits; omega, by unfold bits; omega, fld_eq _ _ _ (by unfold bits; omega), fld_eq _ _ _ (by unfold bits; omega), fld_eq _ _ _ (by unfold bits; omega)⟩⟩

/-- The fields of a word with operands at bits 20, 11, 0, as for CEQI. -/
def f20_11_0 (M m : Nat) (x0 : BitVec 3) (x1 : BitVec 6) (x2 : BitVec 11) (w : Nat) : Prop :=
  bits w 23 6 = M ∧ bits w 17 3 = m ∧ fld w 20 3 = x0 ∧ fld w 11 6 = x1 ∧ fld w 0 11 = x2

theorem f20_11_0_fields (b : Nat) (M m : Nat) (x0 : BitVec 3) (x1 : BitVec 6) (x2 : BitVec 11) (hb : b = M * 2 ^ 23 + m * 2 ^ 17) (hM : M < 64) (hm : m < 8) :
  b + put x0 20 + put x1 11 + put x2 0 < 2 ^ 29 ∧ ∀ h, f20_11_0 M m x0 x1 x2 (h * 2 ^ 29 + (b + put x0 20 + put x1 11 + put x2 0)) := by
  have := x0.isLt; have := x1.isLt; have := x2.isLt
  unfold f20_11_0 put
  refine ⟨by omega, fun h => ⟨by unfold bits; omega, by unfold bits; omega, fld_eq _ _ _ (by unfold bits; omega), fld_eq _ _ _ (by unfold bits; omega), fld_eq _ _ _ (by unfold bits; omega)⟩⟩

/-- The fields of a word with operands at bits 20, 17, 14, as for PAND. -/
def f20_17_14 (M m : Nat) (x0 : BitVec 3) (x1 : BitVec 3) (x2 : BitVec 3) (w : Nat) : Prop :=
  bits w 23 6 = M ∧ bits w 0 3 = m ∧ bits w 3 11 = 0 ∧ fld w 20 3 = x0 ∧ fld w 17 3 = x1 ∧ fld w 14 3 = x2

theorem f20_17_14_fields (b : Nat) (M m : Nat) (x0 : BitVec 3) (x1 : BitVec 3) (x2 : BitVec 3) (hb : b = M * 2 ^ 23 + m * 2 ^ 0) (hM : M < 64) (hm : m < 8) :
  b + put x0 20 + put x1 17 + put x2 14 < 2 ^ 29 ∧ ∀ h, f20_17_14 M m x0 x1 x2 (h * 2 ^ 29 + (b + put x0 20 + put x1 17 + put x2 14)) := by
  have := x0.isLt; have := x1.isLt; have := x2.isLt
  unfold f20_17_14 put
  refine ⟨by omega, fun h => ⟨by unfold bits; omega, by unfold bits; omega, by unfold bits; omega, fld_eq _ _ _ (by unfold bits; omega), fld_eq _ _ _ (by unfold bits; omega), fld_eq _ _ _ (by unfold bits; omega)⟩⟩

/-- The fields of a word with operands at bits 17, 11, 5, 2, as for SEL. -/
def f17_11_5_2 (M : Nat) (x0 : BitVec 6) (x1 : BitVec 6) (x2 : BitVec 6) (x3 : BitVec 3) (w : Nat) : Prop :=
  bits w 23 6 = M ∧ bits w 0 2 = 0 ∧ fld w 17 6 = x0 ∧ fld w 11 6 = x1 ∧ fld w 5 6 = x2 ∧ fld w 2 3 = x3

theorem f17_11_5_2_fields (b : Nat) (M : Nat) (x0 : BitVec 6) (x1 : BitVec 6) (x2 : BitVec 6) (x3 : BitVec 3) (hb : b = M * 2 ^ 23) (hM : M < 64) :
  b + put x0 17 + put x1 11 + put x2 5 + put x3 2 < 2 ^ 29 ∧ ∀ h, f17_11_5_2 M x0 x1 x2 x3 (h * 2 ^ 29 + (b + put x0 17 + put x1 11 + put x2 5 + put x3 2)) := by
  have := x0.isLt; have := x1.isLt; have := x2.isLt; have := x3.isLt
  unfold f17_11_5_2 put
  refine ⟨by omega, fun h => ⟨by unfold bits; omega, by unfold bits; omega, fld_eq _ _ _ (by unfold bits; omega), fld_eq _ _ _ (by unfold bits; omega), fld_eq _ _ _ (by unfold bits; omega), fld_eq _ _ _ (by unfold bits; omega)⟩⟩

/-- The fields of a word with operands at bits 17, 0, as for LDK. -/
def f17_0 (M : Nat) (x0 : BitVec 6) (x1 : BitVec 17) (w : Nat) : Prop :=
  bits w 23 6 = M ∧ fld w 17 6 = x0 ∧ fld w 0 17 = x1

theorem f17_0_fields (b : Nat) (M : Nat) (x0 : BitVec 6) (x1 : BitVec 17) (hb : b = M * 2 ^ 23) (hM : M < 64) :
  b + put x0 17 + put x1 0 < 2 ^ 29 ∧ ∀ h, f17_0 M x0 x1 (h * 2 ^ 29 + (b + put x0 17 + put x1 0)) := by
  have := x0.isLt; have := x1.isLt
  unfold f17_0 put
  refine ⟨by omega, fun h => ⟨by unfold bits; omega, fld_eq _ _ _ (by unfold bits; omega), fld_eq _ _ _ (by unfold bits; omega)⟩⟩

/-- The fields of a word with operands at bits 17, as for LIT. -/
def f17 (M : Nat) (x0 : BitVec 6) (w : Nat) : Prop :=
  bits w 23 6 = M ∧ bits w 0 17 = 0 ∧ fld w 17 6 = x0

theorem f17_fields (b : Nat) (M : Nat) (x0 : BitVec 6) (hb : b = M * 2 ^ 23) (hM : M < 64) :
  b + put x0 17 < 2 ^ 29 ∧ ∀ h, f17 M x0 (h * 2 ^ 29 + (b + put x0 17)) := by
  have := x0.isLt
  unfold f17 put
  refine ⟨by omega, fun h => ⟨by unfold bits; omega, by unfold bits; omega, fld_eq _ _ _ (by unfold bits; omega)⟩⟩

/-- The fields of a word with operands at bits 17, 0, as for LDC. -/
def f17_0_2 (M : Nat) (x0 : BitVec 6) (x1 : BitVec 8) (w : Nat) : Prop :=
  bits w 23 6 = M ∧ bits w 8 9 = 0 ∧ fld w 17 6 = x0 ∧ fld w 0 8 = x1

theorem f17_0_2_fields (b : Nat) (M : Nat) (x0 : BitVec 6) (x1 : BitVec 8) (hb : b = M * 2 ^ 23) (hM : M < 64) :
  b + put x0 17 + put x1 0 < 2 ^ 29 ∧ ∀ h, f17_0_2 M x0 x1 (h * 2 ^ 29 + (b + put x0 17 + put x1 0)) := by
  have := x0.isLt; have := x1.isLt
  unfold f17_0_2 put
  refine ⟨by omega, fun h => ⟨by unfold bits; omega, by unfold bits; omega, fld_eq _ _ _ (by unfold bits; omega), fld_eq _ _ _ (by unfold bits; omega)⟩⟩

/-- The fields of a word with operands at bits 23, 17, 0, as for LDKH. -/
def f23_17_0 (M : Nat) (x0 : BitVec 2) (x1 : BitVec 6) (x2 : BitVec 16) (w : Nat) : Prop :=
  bits w 23 6 = M + x0.toNat ∧ bits w 16 1 = 0 ∧ fld w 23 2 = x0 ∧ fld w 17 6 = x1 ∧ fld w 0 16 = x2

theorem f23_17_0_fields (b : Nat) (M : Nat) (x0 : BitVec 2) (x1 : BitVec 6) (x2 : BitVec 16) (hb : b = M * 2 ^ 23) (hM : M = 44) :
  b + put x0 23 + put x1 17 + put x2 0 < 2 ^ 29 ∧ ∀ h, f23_17_0 M x0 x1 x2 (h * 2 ^ 29 + (b + put x0 23 + put x1 17 + put x2 0)) := by
  have := x0.isLt; have := x1.isLt; have := x2.isLt
  unfold f23_17_0 put
  refine ⟨by omega, fun h => ⟨by unfold bits; omega, by unfold bits; omega, fld_eq _ _ _ (by unfold bits; omega), fld_eq _ _ _ (by unfold bits; omega), fld_eq _ _ _ (by unfold bits; omega)⟩⟩

/-- The fields of a word with operands at bits 17, 11, 3, as for LDB. -/
def f17_11_3 (M m : Nat) (x0 : BitVec 6) (x1 : BitVec 6) (x2 : BitVec 8) (w : Nat) : Prop :=
  bits w 23 6 = M ∧ bits w 0 3 = m ∧ fld w 17 6 = x0 ∧ fld w 11 6 = x1 ∧ fld w 3 8 = x2

theorem f17_11_3_fields (b : Nat) (M m : Nat) (x0 : BitVec 6) (x1 : BitVec 6) (x2 : BitVec 8) (hb : b = M * 2 ^ 23 + m * 2 ^ 0) (hM : M < 64) (hm : m < 8) :
  b + put x0 17 + put x1 11 + put x2 3 < 2 ^ 29 ∧ ∀ h, f17_11_3 M m x0 x1 x2 (h * 2 ^ 29 + (b + put x0 17 + put x1 11 + put x2 3)) := by
  have := x0.isLt; have := x1.isLt; have := x2.isLt
  unfold f17_11_3 put
  refine ⟨by omega, fun h => ⟨by unfold bits; omega, by unfold bits; omega, fld_eq _ _ _ (by unfold bits; omega), fld_eq _ _ _ (by unfold bits; omega), fld_eq _ _ _ (by unfold bits; omega)⟩⟩

/-- The fields of a word with operands at bits 17, 11, 5, 0, as for ATOMADD. -/
def f17_11_5_0 (M m : Nat) (x0 : BitVec 6) (x1 : BitVec 6) (x2 : BitVec 6) (x3 : BitVec 2) (w : Nat) : Prop :=
  bits w 23 6 = M ∧ bits w 2 3 = m ∧ fld w 17 6 = x0 ∧ fld w 11 6 = x1 ∧ fld w 5 6 = x2 ∧ fld w 0 2 = x3

theorem f17_11_5_0_fields (b : Nat) (M m : Nat) (x0 : BitVec 6) (x1 : BitVec 6) (x2 : BitVec 6) (x3 : BitVec 2) (hb : b = M * 2 ^ 23 + m * 2 ^ 2) (hM : M < 64) (hm : m < 8) :
  b + put x0 17 + put x1 11 + put x2 5 + put x3 0 < 2 ^ 29 ∧ ∀ h, f17_11_5_0 M m x0 x1 x2 x3 (h * 2 ^ 29 + (b + put x0 17 + put x1 11 + put x2 5 + put x3 0)) := by
  have := x0.isLt; have := x1.isLt; have := x2.isLt; have := x3.isLt
  unfold f17_11_5_0 put
  refine ⟨by omega, fun h => ⟨by unfold bits; omega, by unfold bits; omega, fld_eq _ _ _ (by unfold bits; omega), fld_eq _ _ _ (by unfold bits; omega), fld_eq _ _ _ (by unfold bits; omega), fld_eq _ _ _ (by unfold bits; omega)⟩⟩

/-- The fields of a word with operands at bits 17, 1, as for FADDI. -/
def f17_1 (M m : Nat) (x0 : BitVec 6) (x1 : BitVec 16) (w : Nat) : Prop :=
  bits w 23 6 = M ∧ bits w 0 1 = m ∧ fld w 17 6 = x0 ∧ fld w 1 16 = x1

theorem f17_1_fields (b : Nat) (M m : Nat) (x0 : BitVec 6) (x1 : BitVec 16) (hb : b = M * 2 ^ 23 + m * 2 ^ 0) (hM : M < 64) (hm : m < 2) :
  b + put x0 17 + put x1 1 < 2 ^ 29 ∧ ∀ h, f17_1 M m x0 x1 (h * 2 ^ 29 + (b + put x0 17 + put x1 1)) := by
  have := x0.isLt; have := x1.isLt
  unfold f17_1 put
  refine ⟨by omega, fun h => ⟨by unfold bits; omega, by unfold bits; omega, fld_eq _ _ _ (by unfold bits; omega), fld_eq _ _ _ (by unfold bits; omega)⟩⟩

/-- The fields of a word with operands at bits 17, 8, as for WID. -/
def f17_8 (M m : Nat) (x0 : BitVec 6) (x1 : BitVec 9) (w : Nat) : Prop :=
  bits w 23 6 = M ∧ bits w 0 3 = m ∧ bits w 3 5 = 0 ∧ fld w 17 6 = x0 ∧ fld w 8 9 = x1

theorem f17_8_fields (b : Nat) (M m : Nat) (x0 : BitVec 6) (x1 : BitVec 9) (hb : b = M * 2 ^ 23 + m * 2 ^ 0) (hM : M < 64) (hm : m < 8) :
  b + put x0 17 + put x1 8 < 2 ^ 29 ∧ ∀ h, f17_8 M m x0 x1 (h * 2 ^ 29 + (b + put x0 17 + put x1 8)) := by
  have := x0.isLt; have := x1.isLt
  unfold f17_8 put
  refine ⟨by omega, fun h => ⟨by unfold bits; omega, by unfold bits; omega, by unfold bits; omega, fld_eq _ _ _ (by unfold bits; omega), fld_eq _ _ _ (by unfold bits; omega)⟩⟩

/-- The fields of a word with operands at bits 17, as for WIDN. -/
def f17_2 (M m : Nat) (x0 : BitVec 6) (w : Nat) : Prop :=
  bits w 23 6 = M ∧ bits w 0 3 = m ∧ bits w 3 14 = 0 ∧ fld w 17 6 = x0

theorem f17_2_fields (b : Nat) (M m : Nat) (x0 : BitVec 6) (hb : b = M * 2 ^ 23 + m * 2 ^ 0) (hM : M < 64) (hm : m < 8) :
  b + put x0 17 < 2 ^ 29 ∧ ∀ h, f17_2 M m x0 (h * 2 ^ 29 + (b + put x0 17)) := by
  have := x0.isLt
  unfold f17_2 put
  refine ⟨by omega, fun h => ⟨by unfold bits; omega, by unfold bits; omega, by unfold bits; omega, fld_eq _ _ _ (by unfold bits; omega)⟩⟩

/-- The fields of a word with operands at bits 18, 13, 8, 4, as for VADD. -/
def f18_13_8_4 (M m : Nat) (x0 : BitVec 5) (x1 : BitVec 5) (x2 : BitVec 5) (x3 : BitVec 4) (w : Nat) : Prop :=
  bits w 23 6 = M ∧ bits w 0 4 = m ∧ fld w 18 5 = x0 ∧ fld w 13 5 = x1 ∧ fld w 8 5 = x2 ∧ fld w 4 4 = x3

theorem f18_13_8_4_fields (b : Nat) (M m : Nat) (x0 : BitVec 5) (x1 : BitVec 5) (x2 : BitVec 5) (x3 : BitVec 4) (hb : b = M * 2 ^ 23 + m * 2 ^ 0) (hM : M < 64) (hm : m < 16) :
  b + put x0 18 + put x1 13 + put x2 8 + put x3 4 < 2 ^ 29 ∧ ∀ h, f18_13_8_4 M m x0 x1 x2 x3 (h * 2 ^ 29 + (b + put x0 18 + put x1 13 + put x2 8 + put x3 4)) := by
  have := x0.isLt; have := x1.isLt; have := x2.isLt; have := x3.isLt
  unfold f18_13_8_4 put
  refine ⟨by omega, fun h => ⟨by unfold bits; omega, by unfold bits; omega, fld_eq _ _ _ (by unfold bits; omega), fld_eq _ _ _ (by unfold bits; omega), fld_eq _ _ _ (by unfold bits; omega), fld_eq _ _ _ (by unfold bits; omega)⟩⟩

/-- The fields of a word with operands at bits 18, 13, 4, as for VEXP2. -/
def f18_13_4 (M m : Nat) (x0 : BitVec 5) (x1 : BitVec 5) (x2 : BitVec 4) (w : Nat) : Prop :=
  bits w 23 6 = M ∧ bits w 0 4 = m ∧ bits w 8 5 = 0 ∧ fld w 18 5 = x0 ∧ fld w 13 5 = x1 ∧ fld w 4 4 = x2

theorem f18_13_4_fields (b : Nat) (M m : Nat) (x0 : BitVec 5) (x1 : BitVec 5) (x2 : BitVec 4) (hb : b = M * 2 ^ 23 + m * 2 ^ 0) (hM : M < 64) (hm : m < 16) :
  b + put x0 18 + put x1 13 + put x2 4 < 2 ^ 29 ∧ ∀ h, f18_13_4 M m x0 x1 x2 (h * 2 ^ 29 + (b + put x0 18 + put x1 13 + put x2 4)) := by
  have := x0.isLt; have := x1.isLt; have := x2.isLt
  unfold f18_13_4 put
  refine ⟨by omega, fun h => ⟨by unfold bits; omega, by unfold bits; omega, by unfold bits; omega, fld_eq _ _ _ (by unfold bits; omega), fld_eq _ _ _ (by unfold bits; omega), fld_eq _ _ _ (by unfold bits; omega)⟩⟩

/-- The fields of a word with operands at bits 19, 13, 8, 4, as for VFCEQ. -/
def f19_13_8_4 (M m : Nat) (x0 : BitVec 4) (x1 : BitVec 5) (x2 : BitVec 5) (x3 : BitVec 4) (w : Nat) : Prop :=
  bits w 23 6 = M ∧ bits w 0 4 = m ∧ bits w 18 1 = 0 ∧ fld w 19 4 = x0 ∧ fld w 13 5 = x1 ∧ fld w 8 5 = x2 ∧ fld w 4 4 = x3

theorem f19_13_8_4_fields (b : Nat) (M m : Nat) (x0 : BitVec 4) (x1 : BitVec 5) (x2 : BitVec 5) (x3 : BitVec 4) (hb : b = M * 2 ^ 23 + m * 2 ^ 0) (hM : M < 64) (hm : m < 16) :
  b + put x0 19 + put x1 13 + put x2 8 + put x3 4 < 2 ^ 29 ∧ ∀ h, f19_13_8_4 M m x0 x1 x2 x3 (h * 2 ^ 29 + (b + put x0 19 + put x1 13 + put x2 8 + put x3 4)) := by
  have := x0.isLt; have := x1.isLt; have := x2.isLt; have := x3.isLt
  unfold f19_13_8_4 put
  refine ⟨by omega, fun h => ⟨by unfold bits; omega, by unfold bits; omega, by unfold bits; omega, fld_eq _ _ _ (by unfold bits; omega), fld_eq _ _ _ (by unfold bits; omega), fld_eq _ _ _ (by unfold bits; omega), fld_eq _ _ _ (by unfold bits; omega)⟩⟩

/-- The fields of a word with operands at bits 18, 13, 8, 4, as for VSEL. -/
def f18_13_8_4_2 (M : Nat) (x0 : BitVec 5) (x1 : BitVec 5) (x2 : BitVec 5) (x3 : BitVec 4) (w : Nat) : Prop :=
  bits w 23 6 = M ∧ bits w 0 4 = 0 ∧ fld w 18 5 = x0 ∧ fld w 13 5 = x1 ∧ fld w 8 5 = x2 ∧ fld w 4 4 = x3

theorem f18_13_8_4_2_fields (b : Nat) (M : Nat) (x0 : BitVec 5) (x1 : BitVec 5) (x2 : BitVec 5) (x3 : BitVec 4) (hb : b = M * 2 ^ 23) (hM : M < 64) :
  b + put x0 18 + put x1 13 + put x2 8 + put x3 4 < 2 ^ 29 ∧ ∀ h, f18_13_8_4_2 M x0 x1 x2 x3 (h * 2 ^ 29 + (b + put x0 18 + put x1 13 + put x2 8 + put x3 4)) := by
  have := x0.isLt; have := x1.isLt; have := x2.isLt; have := x3.isLt
  unfold f18_13_8_4_2 put
  refine ⟨by omega, fun h => ⟨by unfold bits; omega, by unfold bits; omega, fld_eq _ _ _ (by unfold bits; omega), fld_eq _ _ _ (by unfold bits; omega), fld_eq _ _ _ (by unfold bits; omega), fld_eq _ _ _ (by unfold bits; omega)⟩⟩

/-- The fields of a word with operands at bits 18, 13, 10, 9, 7, 5, 1, as for VCVT. -/
def f18_13_10_9_7_5_1 (M : Nat) (x0 : BitVec 5) (x1 : BitVec 5) (x2 : BitVec 3) (x3 : BitVec 1) (x4 : BitVec 2) (x5 : BitVec 2) (x6 : BitVec 4) (w : Nat) : Prop :=
  bits w 23 6 = M ∧ bits w 0 1 = 0 ∧ fld w 18 5 = x0 ∧ fld w 13 5 = x1 ∧ fld w 10 3 = x2 ∧ fld w 9 1 = x3 ∧ fld w 7 2 = x4 ∧ fld w 5 2 = x5 ∧ fld w 1 4 = x6

theorem f18_13_10_9_7_5_1_fields (b : Nat) (M : Nat) (x0 : BitVec 5) (x1 : BitVec 5) (x2 : BitVec 3) (x3 : BitVec 1) (x4 : BitVec 2) (x5 : BitVec 2) (x6 : BitVec 4) (hb : b = M * 2 ^ 23) (hM : M < 64) :
  b + put x0 18 + put x1 13 + put x2 10 + put x3 9 + put x4 7 + put x5 5 + put x6 1 < 2 ^ 29 ∧ ∀ h, f18_13_10_9_7_5_1 M x0 x1 x2 x3 x4 x5 x6 (h * 2 ^ 29 + (b + put x0 18 + put x1 13 + put x2 10 + put x3 9 + put x4 7 + put x5 5 + put x6 1)) := by
  have := x0.isLt; have := x1.isLt; have := x2.isLt; have := x3.isLt; have := x4.isLt; have := x5.isLt; have := x6.isLt
  unfold f18_13_10_9_7_5_1 put
  refine ⟨by omega, fun h => ⟨by unfold bits; omega, by unfold bits; omega, fld_eq _ _ _ (by unfold bits; omega), fld_eq _ _ _ (by unfold bits; omega), fld_eq _ _ _ (by unfold bits; omega), fld_eq _ _ _ (by unfold bits; omega), fld_eq _ _ _ (by unfold bits; omega), fld_eq _ _ _ (by unfold bits; omega), fld_eq _ _ _ (by unfold bits; omega)⟩⟩

/-- The fields of a word with operands at bits 18, 2, as for VADDI. -/
def f18_2 (M m : Nat) (x0 : BitVec 5) (x1 : BitVec 16) (w : Nat) : Prop :=
  bits w 23 6 = M ∧ bits w 0 2 = m ∧ fld w 18 5 = x0 ∧ fld w 2 16 = x1

theorem f18_2_fields (b : Nat) (M m : Nat) (x0 : BitVec 5) (x1 : BitVec 16) (hb : b = M * 2 ^ 23 + m * 2 ^ 0) (hM : M < 64) (hm : m < 4) :
  b + put x0 18 + put x1 2 < 2 ^ 29 ∧ ∀ h, f18_2 M m x0 x1 (h * 2 ^ 29 + (b + put x0 18 + put x1 2)) := by
  have := x0.isLt; have := x1.isLt
  unfold f18_2 put
  refine ⟨by omega, fun h => ⟨by unfold bits; omega, by unfold bits; omega, fld_eq _ _ _ (by unfold bits; omega), fld_eq _ _ _ (by unfold bits; omega)⟩⟩

/-- The fields of a word with operands at bits 19, 15, 11, as for QAND. -/
def f19_15_11 (M m : Nat) (x0 : BitVec 4) (x1 : BitVec 4) (x2 : BitVec 4) (w : Nat) : Prop :=
  bits w 23 6 = M ∧ bits w 0 4 = m ∧ bits w 4 7 = 0 ∧ fld w 19 4 = x0 ∧ fld w 15 4 = x1 ∧ fld w 11 4 = x2

theorem f19_15_11_fields (b : Nat) (M m : Nat) (x0 : BitVec 4) (x1 : BitVec 4) (x2 : BitVec 4) (hb : b = M * 2 ^ 23 + m * 2 ^ 0) (hM : M < 64) (hm : m < 16) :
  b + put x0 19 + put x1 15 + put x2 11 < 2 ^ 29 ∧ ∀ h, f19_15_11 M m x0 x1 x2 (h * 2 ^ 29 + (b + put x0 19 + put x1 15 + put x2 11)) := by
  have := x0.isLt; have := x1.isLt; have := x2.isLt
  unfold f19_15_11 put
  refine ⟨by omega, fun h => ⟨by unfold bits; omega, by unfold bits; omega, by unfold bits; omega, fld_eq _ _ _ (by unfold bits; omega), fld_eq _ _ _ (by unfold bits; omega), fld_eq _ _ _ (by unfold bits; omega)⟩⟩

/-- The fields of a word with operands at bits 19, 15, as for QNOT. -/
def f19_15 (M m : Nat) (x0 : BitVec 4) (x1 : BitVec 4) (w : Nat) : Prop :=
  bits w 23 6 = M ∧ bits w 0 4 = m ∧ bits w 4 11 = 0 ∧ fld w 19 4 = x0 ∧ fld w 15 4 = x1

theorem f19_15_fields (b : Nat) (M m : Nat) (x0 : BitVec 4) (x1 : BitVec 4) (hb : b = M * 2 ^ 23 + m * 2 ^ 0) (hM : M < 64) (hm : m < 16) :
  b + put x0 19 + put x1 15 < 2 ^ 29 ∧ ∀ h, f19_15 M m x0 x1 (h * 2 ^ 29 + (b + put x0 19 + put x1 15)) := by
  have := x0.isLt; have := x1.isLt
  unfold f19_15 put
  refine ⟨by omega, fun h => ⟨by unfold bits; omega, by unfold bits; omega, by unfold bits; omega, fld_eq _ _ _ (by unfold bits; omega), fld_eq _ _ _ (by unfold bits; omega)⟩⟩

/-- The fields of a word with operands at bits 19, 15, 10, as for QGATH. -/
def f19_15_10 (M : Nat) (x0 : BitVec 4) (x1 : BitVec 4) (x2 : BitVec 5) (w : Nat) : Prop :=
  bits w 23 6 = M ∧ bits w 0 10 = 0 ∧ fld w 19 4 = x0 ∧ fld w 15 4 = x1 ∧ fld w 10 5 = x2

theorem f19_15_10_fields (b : Nat) (M : Nat) (x0 : BitVec 4) (x1 : BitVec 4) (x2 : BitVec 5) (hb : b = M * 2 ^ 23) (hM : M < 64) :
  b + put x0 19 + put x1 15 + put x2 10 < 2 ^ 29 ∧ ∀ h, f19_15_10 M x0 x1 x2 (h * 2 ^ 29 + (b + put x0 19 + put x1 15 + put x2 10)) := by
  have := x0.isLt; have := x1.isLt; have := x2.isLt
  unfold f19_15_10 put
  refine ⟨by omega, fun h => ⟨by unfold bits; omega, by unfold bits; omega, fld_eq _ _ _ (by unfold bits; omega), fld_eq _ _ _ (by unfold bits; omega), fld_eq _ _ _ (by unfold bits; omega)⟩⟩

/-- The fields of a word with operands at bits 19, 0, as for QSETI. -/
def f19_0 (M : Nat) (x0 : BitVec 4) (x1 : BitVec 16) (w : Nat) : Prop :=
  bits w 23 6 = M ∧ bits w 16 3 = 0 ∧ fld w 19 4 = x0 ∧ fld w 0 16 = x1

theorem f19_0_fields (b : Nat) (M : Nat) (x0 : BitVec 4) (x1 : BitVec 16) (hb : b = M * 2 ^ 23) (hM : M < 64) :
  b + put x0 19 + put x1 0 < 2 ^ 29 ∧ ∀ h, f19_0 M x0 x1 (h * 2 ^ 29 + (b + put x0 19 + put x1 0)) := by
  have := x0.isLt; have := x1.isLt
  unfold f19_0 put
  refine ⟨by omega, fun h => ⟨by unfold bits; omega, by unfold bits; omega, fld_eq _ _ _ (by unfold bits; omega), fld_eq _ _ _ (by unfold bits; omega)⟩⟩

/-- The fields of a word with operands at bits 19, 14, as for QFROMV. -/
def f19_14 (M : Nat) (x0 : BitVec 4) (x1 : BitVec 5) (w : Nat) : Prop :=
  bits w 23 6 = M ∧ bits w 0 14 = 0 ∧ fld w 19 4 = x0 ∧ fld w 14 5 = x1

theorem f19_14_fields (b : Nat) (M : Nat) (x0 : BitVec 4) (x1 : BitVec 5) (hb : b = M * 2 ^ 23) (hM : M < 64) :
  b + put x0 19 + put x1 14 < 2 ^ 29 ∧ ∀ h, f19_14 M x0 x1 (h * 2 ^ 29 + (b + put x0 19 + put x1 14)) := by
  have := x0.isLt; have := x1.isLt
  unfold f19_14 put
  refine ⟨by omega, fun h => ⟨by unfold bits; omega, by unfold bits; omega, fld_eq _ _ _ (by unfold bits; omega), fld_eq _ _ _ (by unfold bits; omega)⟩⟩

/-- The fields of a word with operands at bits 18, 14, 10, 4, 0, as for VLD. -/
def f18_14_10_4_0 (M : Nat) (x0 : BitVec 5) (x1 : BitVec 4) (x2 : BitVec 4) (x3 : BitVec 4) (x4 : BitVec 2) (w : Nat) : Prop :=
  bits w 23 6 = M ∧ bits w 2 2 = 0 ∧ bits w 8 2 = 0 ∧ fld w 18 5 = x0 ∧ fld w 14 4 = x1 ∧ fld w 10 4 = x2 ∧ fld w 4 4 = x3 ∧ fld w 0 2 = x4

theorem f18_14_10_4_0_fields (b : Nat) (M : Nat) (x0 : BitVec 5) (x1 : BitVec 4) (x2 : BitVec 4) (x3 : BitVec 4) (x4 : BitVec 2) (hb : b = M * 2 ^ 23) (hM : M < 64) :
  b + put x0 18 + put x1 14 + put x2 10 + put x3 4 + put x4 0 < 2 ^ 29 ∧ ∀ h, f18_14_10_4_0 M x0 x1 x2 x3 x4 (h * 2 ^ 29 + (b + put x0 18 + put x1 14 + put x2 10 + put x3 4 + put x4 0)) := by
  have := x0.isLt; have := x1.isLt; have := x2.isLt; have := x3.isLt; have := x4.isLt
  unfold f18_14_10_4_0 put
  refine ⟨by omega, fun h => ⟨by unfold bits; omega, by unfold bits; omega, by unfold bits; omega, fld_eq _ _ _ (by unfold bits; omega), fld_eq _ _ _ (by unfold bits; omega), fld_eq _ _ _ (by unfold bits; omega), fld_eq _ _ _ (by unfold bits; omega), fld_eq _ _ _ (by unfold bits; omega)⟩⟩

/-- The fields of a word with operands at bits 18, 12, 8, 4, 0, as for VLDA. -/
def f18_12_8_4_0 (M m : Nat) (x0 : BitVec 5) (x1 : BitVec 6) (x2 : BitVec 4) (x3 : BitVec 4) (x4 : BitVec 2) (w : Nat) : Prop :=
  bits w 23 6 = M ∧ bits w 2 2 = m ∧ fld w 18 5 = x0 ∧ fld w 12 6 = x1 ∧ fld w 8 4 = x2 ∧ fld w 4 4 = x3 ∧ fld w 0 2 = x4

theorem f18_12_8_4_0_fields (b : Nat) (M m : Nat) (x0 : BitVec 5) (x1 : BitVec 6) (x2 : BitVec 4) (x3 : BitVec 4) (x4 : BitVec 2) (hb : b = M * 2 ^ 23 + m * 2 ^ 2) (hM : M < 64) (hm : m < 4) :
  b + put x0 18 + put x1 12 + put x2 8 + put x3 4 + put x4 0 < 2 ^ 29 ∧ ∀ h, f18_12_8_4_0 M m x0 x1 x2 x3 x4 (h * 2 ^ 29 + (b + put x0 18 + put x1 12 + put x2 8 + put x3 4 + put x4 0)) := by
  have := x0.isLt; have := x1.isLt; have := x2.isLt; have := x3.isLt; have := x4.isLt
  unfold f18_12_8_4_0 put
  refine ⟨by omega, fun h => ⟨by unfold bits; omega, by unfold bits; omega, fld_eq _ _ _ (by unfold bits; omega), fld_eq _ _ _ (by unfold bits; omega), fld_eq _ _ _ (by unfold bits; omega), fld_eq _ _ _ (by unfold bits; omega), fld_eq _ _ _ (by unfold bits; omega)⟩⟩

/-- The fields of a word with operands at bits 18, 12, 6, 2, 0, as for VLDT. -/
def f18_12_6_2_0 (M : Nat) (x0 : BitVec 5) (x1 : BitVec 6) (x2 : BitVec 6) (x3 : BitVec 4) (x4 : BitVec 2) (w : Nat) : Prop :=
  bits w 23 6 = M ∧ fld w 18 5 = x0 ∧ fld w 12 6 = x1 ∧ fld w 6 6 = x2 ∧ fld w 2 4 = x3 ∧ fld w 0 2 = x4

theorem f18_12_6_2_0_fields (b : Nat) (M : Nat) (x0 : BitVec 5) (x1 : BitVec 6) (x2 : BitVec 6) (x3 : BitVec 4) (x4 : BitVec 2) (hb : b = M * 2 ^ 23) (hM : M < 64) :
  b + put x0 18 + put x1 12 + put x2 6 + put x3 2 + put x4 0 < 2 ^ 29 ∧ ∀ h, f18_12_6_2_0 M x0 x1 x2 x3 x4 (h * 2 ^ 29 + (b + put x0 18 + put x1 12 + put x2 6 + put x3 2 + put x4 0)) := by
  have := x0.isLt; have := x1.isLt; have := x2.isLt; have := x3.isLt; have := x4.isLt
  unfold f18_12_6_2_0 put
  refine ⟨by omega, fun h => ⟨by unfold bits; omega, fld_eq _ _ _ (by unfold bits; omega), fld_eq _ _ _ (by unfold bits; omega), fld_eq _ _ _ (by unfold bits; omega), fld_eq _ _ _ (by unfold bits; omega), fld_eq _ _ _ (by unfold bits; omega)⟩⟩

/-- The fields of a word with operands at bits 18, 12, 8, 5, 0, as for VSTM. -/
def f18_12_8_5_0 (M : Nat) (x0 : BitVec 5) (x1 : BitVec 6) (x2 : BitVec 4) (x3 : BitVec 3) (x4 : BitVec 2) (w : Nat) : Prop :=
  bits w 23 6 = M ∧ bits w 2 3 = 0 ∧ fld w 18 5 = x0 ∧ fld w 12 6 = x1 ∧ fld w 8 4 = x2 ∧ fld w 5 3 = x3 ∧ fld w 0 2 = x4

theorem f18_12_8_5_0_fields (b : Nat) (M : Nat) (x0 : BitVec 5) (x1 : BitVec 6) (x2 : BitVec 4) (x3 : BitVec 3) (x4 : BitVec 2) (hb : b = M * 2 ^ 23) (hM : M < 64) :
  b + put x0 18 + put x1 12 + put x2 8 + put x3 5 + put x4 0 < 2 ^ 29 ∧ ∀ h, f18_12_8_5_0 M x0 x1 x2 x3 x4 (h * 2 ^ 29 + (b + put x0 18 + put x1 12 + put x2 8 + put x3 5 + put x4 0)) := by
  have := x0.isLt; have := x1.isLt; have := x2.isLt; have := x3.isLt; have := x4.isLt
  unfold f18_12_8_5_0 put
  refine ⟨by omega, fun h => ⟨by unfold bits; omega, by unfold bits; omega, fld_eq _ _ _ (by unfold bits; omega), fld_eq _ _ _ (by unfold bits; omega), fld_eq _ _ _ (by unfold bits; omega), fld_eq _ _ _ (by unfold bits; omega), fld_eq _ _ _ (by unfold bits; omega)⟩⟩

/-- The fields of a word with operands at bits 18, 13, 7, 3, 0, as for VGATH. -/
def f18_13_7_3_0 (M : Nat) (x0 : BitVec 5) (x1 : BitVec 5) (x2 : BitVec 6) (x3 : BitVec 4) (x4 : BitVec 2) (w : Nat) : Prop :=
  bits w 23 6 = M ∧ bits w 2 1 = 0 ∧ fld w 18 5 = x0 ∧ fld w 13 5 = x1 ∧ fld w 7 6 = x2 ∧ fld w 3 4 = x3 ∧ fld w 0 2 = x4

theorem f18_13_7_3_0_fields (b : Nat) (M : Nat) (x0 : BitVec 5) (x1 : BitVec 5) (x2 : BitVec 6) (x3 : BitVec 4) (x4 : BitVec 2) (hb : b = M * 2 ^ 23) (hM : M < 64) :
  b + put x0 18 + put x1 13 + put x2 7 + put x3 3 + put x4 0 < 2 ^ 29 ∧ ∀ h, f18_13_7_3_0 M x0 x1 x2 x3 x4 (h * 2 ^ 29 + (b + put x0 18 + put x1 13 + put x2 7 + put x3 3 + put x4 0)) := by
  have := x0.isLt; have := x1.isLt; have := x2.isLt; have := x3.isLt; have := x4.isLt
  unfold f18_13_7_3_0 put
  refine ⟨by omega, fun h => ⟨by unfold bits; omega, by unfold bits; omega, fld_eq _ _ _ (by unfold bits; omega), fld_eq _ _ _ (by unfold bits; omega), fld_eq _ _ _ (by unfold bits; omega), fld_eq _ _ _ (by unfold bits; omega), fld_eq _ _ _ (by unfold bits; omega)⟩⟩

/-- The fields of a word with operands at bits 18, 14, 4, as for VSTB. -/
def f18_14_4 (M : Nat) (x0 : BitVec 5) (x1 : BitVec 4) (x2 : BitVec 4) (w : Nat) : Prop :=
  bits w 23 6 = M ∧ bits w 0 4 = 0 ∧ bits w 8 6 = 0 ∧ fld w 18 5 = x0 ∧ fld w 14 4 = x1 ∧ fld w 4 4 = x2

theorem f18_14_4_fields (b : Nat) (M : Nat) (x0 : BitVec 5) (x1 : BitVec 4) (x2 : BitVec 4) (hb : b = M * 2 ^ 23) (hM : M < 64) :
  b + put x0 18 + put x1 14 + put x2 4 < 2 ^ 29 ∧ ∀ h, f18_14_4 M x0 x1 x2 (h * 2 ^ 29 + (b + put x0 18 + put x1 14 + put x2 4)) := by
  have := x0.isLt; have := x1.isLt; have := x2.isLt
  unfold f18_14_4 put
  refine ⟨by omega, fun h => ⟨by unfold bits; omega, by unfold bits; omega, by unfold bits; omega, fld_eq _ _ _ (by unfold bits; omega), fld_eq _ _ _ (by unfold bits; omega), fld_eq _ _ _ (by unfold bits; omega)⟩⟩

/-- The fields of a word with operands at bits 18, 13, 7, 3, as for VRROT. -/
def f18_13_7_3 (M m : Nat) (x0 : BitVec 5) (x1 : BitVec 5) (x2 : BitVec 6) (x3 : BitVec 4) (w : Nat) : Prop :=
  bits w 23 6 = M ∧ bits w 0 3 = m ∧ fld w 18 5 = x0 ∧ fld w 13 5 = x1 ∧ fld w 7 6 = x2 ∧ fld w 3 4 = x3

theorem f18_13_7_3_fields (b : Nat) (M m : Nat) (x0 : BitVec 5) (x1 : BitVec 5) (x2 : BitVec 6) (x3 : BitVec 4) (hb : b = M * 2 ^ 23 + m * 2 ^ 0) (hM : M < 64) (hm : m < 8) :
  b + put x0 18 + put x1 13 + put x2 7 + put x3 3 < 2 ^ 29 ∧ ∀ h, f18_13_7_3 M m x0 x1 x2 x3 (h * 2 ^ 29 + (b + put x0 18 + put x1 13 + put x2 7 + put x3 3)) := by
  have := x0.isLt; have := x1.isLt; have := x2.isLt; have := x3.isLt
  unfold f18_13_7_3 put
  refine ⟨by omega, fun h => ⟨by unfold bits; omega, by unfold bits; omega, fld_eq _ _ _ (by unfold bits; omega), fld_eq _ _ _ (by unfold bits; omega), fld_eq _ _ _ (by unfold bits; omega), fld_eq _ _ _ (by unfold bits; omega)⟩⟩

/-- The fields of a word with operands at bits 18, 13, 7, 3, as for VPART. -/
def f18_13_7_3_2 (M : Nat) (x0 : BitVec 5) (x1 : BitVec 5) (x2 : BitVec 6) (x3 : BitVec 4) (w : Nat) : Prop :=
  bits w 23 6 = M ∧ bits w 0 3 = 0 ∧ fld w 18 5 = x0 ∧ fld w 13 5 = x1 ∧ fld w 7 6 = x2 ∧ fld w 3 4 = x3

theorem f18_13_7_3_2_fields (b : Nat) (M : Nat) (x0 : BitVec 5) (x1 : BitVec 5) (x2 : BitVec 6) (x3 : BitVec 4) (hb : b = M * 2 ^ 23) (hM : M < 64) :
  b + put x0 18 + put x1 13 + put x2 7 + put x3 3 < 2 ^ 29 ∧ ∀ h, f18_13_7_3_2 M x0 x1 x2 x3 (h * 2 ^ 29 + (b + put x0 18 + put x1 13 + put x2 7 + put x3 3)) := by
  have := x0.isLt; have := x1.isLt; have := x2.isLt; have := x3.isLt
  unfold f18_13_7_3_2 put
  refine ⟨by omega, fun h => ⟨by unfold bits; omega, by unfold bits; omega, fld_eq _ _ _ (by unfold bits; omega), fld_eq _ _ _ (by unfold bits; omega), fld_eq _ _ _ (by unfold bits; omega), fld_eq _ _ _ (by unfold bits; omega)⟩⟩

/-- The fields of a word with operands at bits 18, 14, 8, 4, 0, as for VRAGG. -/
def f18_14_8_4_0 (M : Nat) (x0 : BitVec 5) (x1 : BitVec 4) (x2 : BitVec 6) (x3 : BitVec 4) (x4 : BitVec 4) (w : Nat) : Prop :=
  bits w 23 6 = M ∧ fld w 18 5 = x0 ∧ fld w 14 4 = x1 ∧ fld w 8 6 = x2 ∧ fld w 4 4 = x3 ∧ fld w 0 4 = x4

theorem f18_14_8_4_0_fields (b : Nat) (M : Nat) (x0 : BitVec 5) (x1 : BitVec 4) (x2 : BitVec 6) (x3 : BitVec 4) (x4 : BitVec 4) (hb : b = M * 2 ^ 23) (hM : M < 64) :
  b + put x0 18 + put x1 14 + put x2 8 + put x3 4 + put x4 0 < 2 ^ 29 ∧ ∀ h, f18_14_8_4_0 M x0 x1 x2 x3 x4 (h * 2 ^ 29 + (b + put x0 18 + put x1 14 + put x2 8 + put x3 4 + put x4 0)) := by
  have := x0.isLt; have := x1.isLt; have := x2.isLt; have := x3.isLt; have := x4.isLt
  unfold f18_14_8_4_0 put
  refine ⟨by omega, fun h => ⟨by unfold bits; omega, fld_eq _ _ _ (by unfold bits; omega), fld_eq _ _ _ (by unfold bits; omega), fld_eq _ _ _ (by unfold bits; omega), fld_eq _ _ _ (by unfold bits; omega), fld_eq _ _ _ (by unfold bits; omega)⟩⟩

/-- The fields of a word with operands at bits 18, 13, 8, as for VBNDA. -/
def f18_13_8 (M m : Nat) (x0 : BitVec 5) (x1 : BitVec 5) (x2 : BitVec 5) (w : Nat) : Prop :=
  bits w 23 6 = M ∧ bits w 0 1 = m ∧ bits w 1 7 = 0 ∧ fld w 18 5 = x0 ∧ fld w 13 5 = x1 ∧ fld w 8 5 = x2

theorem f18_13_8_fields (b : Nat) (M m : Nat) (x0 : BitVec 5) (x1 : BitVec 5) (x2 : BitVec 5) (hb : b = M * 2 ^ 23 + m * 2 ^ 0) (hM : M < 64) (hm : m < 2) :
  b + put x0 18 + put x1 13 + put x2 8 < 2 ^ 29 ∧ ∀ h, f18_13_8 M m x0 x1 x2 (h * 2 ^ 29 + (b + put x0 18 + put x1 13 + put x2 8)) := by
  have := x0.isLt; have := x1.isLt; have := x2.isLt
  unfold f18_13_8 put
  refine ⟨by omega, fun h => ⟨by unfold bits; omega, by unfold bits; omega, by unfold bits; omega, fld_eq _ _ _ (by unfold bits; omega), fld_eq _ _ _ (by unfold bits; omega), fld_eq _ _ _ (by unfold bits; omega)⟩⟩

/-- The fields of a word with operands at bits 18, 13, 5, as for VBNDS. -/
def f18_13_5 (M m : Nat) (x0 : BitVec 5) (x1 : BitVec 5) (x2 : BitVec 8) (w : Nat) : Prop :=
  bits w 23 6 = M ∧ bits w 0 1 = m ∧ bits w 1 4 = 0 ∧ fld w 18 5 = x0 ∧ fld w 13 5 = x1 ∧ fld w 5 8 = x2

theorem f18_13_5_fields (b : Nat) (M m : Nat) (x0 : BitVec 5) (x1 : BitVec 5) (x2 : BitVec 8) (hb : b = M * 2 ^ 23 + m * 2 ^ 0) (hM : M < 64) (hm : m < 2) :
  b + put x0 18 + put x1 13 + put x2 5 < 2 ^ 29 ∧ ∀ h, f18_13_5 M m x0 x1 x2 (h * 2 ^ 29 + (b + put x0 18 + put x1 13 + put x2 5)) := by
  have := x0.isLt; have := x1.isLt; have := x2.isLt
  unfold f18_13_5 put
  refine ⟨by omega, fun h => ⟨by unfold bits; omega, by unfold bits; omega, by unfold bits; omega, fld_eq _ _ _ (by unfold bits; omega), fld_eq _ _ _ (by unfold bits; omega), fld_eq _ _ _ (by unfold bits; omega)⟩⟩

/-- The fields of a word with operands at bits 19, 13, 10, 8, 6, 5, 2, as for SHAPE. -/
def f19_13_10_8_6_5_2 (M m : Nat) (x0 : BitVec 4) (x1 : BitVec 6) (x2 : BitVec 3) (x3 : BitVec 2) (x4 : BitVec 2) (x5 : BitVec 1) (x6 : BitVec 3) (w : Nat) : Prop :=
  bits w 23 6 = M ∧ bits w 0 2 = m ∧ fld w 19 4 = x0 ∧ fld w 13 6 = x1 ∧ fld w 10 3 = x2 ∧ fld w 8 2 = x3 ∧ fld w 6 2 = x4 ∧ fld w 5 1 = x5 ∧ fld w 2 3 = x6

theorem f19_13_10_8_6_5_2_fields (b : Nat) (M m : Nat) (x0 : BitVec 4) (x1 : BitVec 6) (x2 : BitVec 3) (x3 : BitVec 2) (x4 : BitVec 2) (x5 : BitVec 1) (x6 : BitVec 3) (hb : b = M * 2 ^ 23 + m * 2 ^ 0) (hM : M < 64) (hm : m < 4) :
  b + put x0 19 + put x1 13 + put x2 10 + put x3 8 + put x4 6 + put x5 5 + put x6 2 < 2 ^ 29 ∧ ∀ h, f19_13_10_8_6_5_2 M m x0 x1 x2 x3 x4 x5 x6 (h * 2 ^ 29 + (b + put x0 19 + put x1 13 + put x2 10 + put x3 8 + put x4 6 + put x5 5 + put x6 2)) := by
  have := x0.isLt; have := x1.isLt; have := x2.isLt; have := x3.isLt; have := x4.isLt; have := x5.isLt; have := x6.isLt
  unfold f19_13_10_8_6_5_2 put
  refine ⟨by omega, fun h => ⟨by unfold bits; omega, by unfold bits; omega, fld_eq _ _ _ (by unfold bits; omega), fld_eq _ _ _ (by unfold bits; omega), fld_eq _ _ _ (by unfold bits; omega), fld_eq _ _ _ (by unfold bits; omega), fld_eq _ _ _ (by unfold bits; omega), fld_eq _ _ _ (by unfold bits; omega), fld_eq _ _ _ (by unfold bits; omega)⟩⟩

/-- The fields of a word with operands at bits 19, as for RRB. -/
def f19 (M m : Nat) (x0 : BitVec 4) (w : Nat) : Prop :=
  bits w 23 6 = M ∧ bits w 0 2 = m ∧ bits w 2 17 = 0 ∧ fld w 19 4 = x0

theorem f19_fields (b : Nat) (M m : Nat) (x0 : BitVec 4) (hb : b = M * 2 ^ 23 + m * 2 ^ 0) (hM : M < 64) (hm : m < 4) :
  b + put x0 19 < 2 ^ 29 ∧ ∀ h, f19 M m x0 (h * 2 ^ 29 + (b + put x0 19)) := by
  have := x0.isLt
  unfold f19 put
  refine ⟨by omega, fun h => ⟨by unfold bits; omega, by unfold bits; omega, by unfold bits; omega, fld_eq _ _ _ (by unfold bits; omega)⟩⟩

/-- The fields of a word with operands at bits 20, 16, 12, 6, 2, 1, as for MPLY. -/
def f20_16_12_6_2_1 (M : Nat) (x0 : BitVec 3) (x1 : BitVec 4) (x2 : BitVec 4) (x3 : BitVec 6) (x4 : BitVec 4) (x5 : BitVec 1) (w : Nat) : Prop :=
  bits w 23 6 = M ∧ bits w 0 1 = 0 ∧ fld w 20 3 = x0 ∧ fld w 16 4 = x1 ∧ fld w 12 4 = x2 ∧ fld w 6 6 = x3 ∧ fld w 2 4 = x4 ∧ fld w 1 1 = x5

theorem f20_16_12_6_2_1_fields (b : Nat) (M : Nat) (x0 : BitVec 3) (x1 : BitVec 4) (x2 : BitVec 4) (x3 : BitVec 6) (x4 : BitVec 4) (x5 : BitVec 1) (hb : b = M * 2 ^ 23) (hM : M < 64) :
  b + put x0 20 + put x1 16 + put x2 12 + put x3 6 + put x4 2 + put x5 1 < 2 ^ 29 ∧ ∀ h, f20_16_12_6_2_1 M x0 x1 x2 x3 x4 x5 (h * 2 ^ 29 + (b + put x0 20 + put x1 16 + put x2 12 + put x3 6 + put x4 2 + put x5 1)) := by
  have := x0.isLt; have := x1.isLt; have := x2.isLt; have := x3.isLt; have := x4.isLt; have := x5.isLt
  unfold f20_16_12_6_2_1 put
  refine ⟨by omega, fun h => ⟨by unfold bits; omega, by unfold bits; omega, fld_eq _ _ _ (by unfold bits; omega), fld_eq _ _ _ (by unfold bits; omega), fld_eq _ _ _ (by unfold bits; omega), fld_eq _ _ _ (by unfold bits; omega), fld_eq _ _ _ (by unfold bits; omega), fld_eq _ _ _ (by unfold bits; omega)⟩⟩

/-- The fields of a word with operands at bits 20, 16, as for MDROP. -/
def f20_16 (M : Nat) (x0 : BitVec 3) (x1 : BitVec 4) (w : Nat) : Prop :=
  bits w 23 6 = M ∧ bits w 0 16 = 0 ∧ fld w 20 3 = x0 ∧ fld w 16 4 = x1

theorem f20_16_fields (b : Nat) (M : Nat) (x0 : BitVec 3) (x1 : BitVec 4) (hb : b = M * 2 ^ 23) (hM : M < 64) :
  b + put x0 20 + put x1 16 < 2 ^ 29 ∧ ∀ h, f20_16 M x0 x1 (h * 2 ^ 29 + (b + put x0 20 + put x1 16)) := by
  have := x0.isLt; have := x1.isLt
  unfold f20_16 put
  refine ⟨by omega, fun h => ⟨by unfold bits; omega, by unfold bits; omega, fld_eq _ _ _ (by unfold bits; omega), fld_eq _ _ _ (by unfold bits; omega)⟩⟩

/-- The fields of a word with operands at bits 20, 16, 12, 3, 2, 1, as for MMAD. -/
def f20_16_12_3_2_1 (M : Nat) (x0 : BitVec 3) (x1 : BitVec 4) (x2 : BitVec 4) (x3 : BitVec 1) (x4 : BitVec 1) (x5 : BitVec 1) (w : Nat) : Prop :=
  bits w 23 6 = M ∧ bits w 0 1 = 0 ∧ bits w 4 8 = 0 ∧ fld w 20 3 = x0 ∧ fld w 16 4 = x1 ∧ fld w 12 4 = x2 ∧ fld w 3 1 = x3 ∧ fld w 2 1 = x4 ∧ fld w 1 1 = x5

theorem f20_16_12_3_2_1_fields (b : Nat) (M : Nat) (x0 : BitVec 3) (x1 : BitVec 4) (x2 : BitVec 4) (x3 : BitVec 1) (x4 : BitVec 1) (x5 : BitVec 1) (hb : b = M * 2 ^ 23) (hM : M < 64) :
  b + put x0 20 + put x1 16 + put x2 12 + put x3 3 + put x4 2 + put x5 1 < 2 ^ 29 ∧ ∀ h, f20_16_12_3_2_1 M x0 x1 x2 x3 x4 x5 (h * 2 ^ 29 + (b + put x0 20 + put x1 16 + put x2 12 + put x3 3 + put x4 2 + put x5 1)) := by
  have := x0.isLt; have := x1.isLt; have := x2.isLt; have := x3.isLt; have := x4.isLt; have := x5.isLt
  unfold f20_16_12_3_2_1 put
  refine ⟨by omega, fun h => ⟨by unfold bits; omega, by unfold bits; omega, by unfold bits; omega, fld_eq _ _ _ (by unfold bits; omega), fld_eq _ _ _ (by unfold bits; omega), fld_eq _ _ _ (by unfold bits; omega), fld_eq _ _ _ (by unfold bits; omega), fld_eq _ _ _ (by unfold bits; omega), fld_eq _ _ _ (by unfold bits; omega)⟩⟩

/-- The fields of a word with operands at bits 17, 11, 7, 5, as for MMASK. -/
def f17_11_7_5 (M : Nat) (x0 : BitVec 6) (x1 : BitVec 6) (x2 : BitVec 4) (x3 : BitVec 2) (w : Nat) : Prop :=
  bits w 23 6 = M ∧ bits w 0 5 = 0 ∧ fld w 17 6 = x0 ∧ fld w 11 6 = x1 ∧ fld w 7 4 = x2 ∧ fld w 5 2 = x3

theorem f17_11_7_5_fields (b : Nat) (M : Nat) (x0 : BitVec 6) (x1 : BitVec 6) (x2 : BitVec 4) (x3 : BitVec 2) (hb : b = M * 2 ^ 23) (hM : M < 64) :
  b + put x0 17 + put x1 11 + put x2 7 + put x3 5 < 2 ^ 29 ∧ ∀ h, f17_11_7_5 M x0 x1 x2 x3 (h * 2 ^ 29 + (b + put x0 17 + put x1 11 + put x2 7 + put x3 5)) := by
  have := x0.isLt; have := x1.isLt; have := x2.isLt; have := x3.isLt
  unfold f17_11_7_5 put
  refine ⟨by omega, fun h => ⟨by unfold bits; omega, by unfold bits; omega, fld_eq _ _ _ (by unfold bits; omega), fld_eq _ _ _ (by unfold bits; omega), fld_eq _ _ _ (by unfold bits; omega), fld_eq _ _ _ (by unfold bits; omega)⟩⟩

/-- The fields of a word with operands at bits 20, as for MZERO. -/
def f20 (M : Nat) (x0 : BitVec 3) (w : Nat) : Prop :=
  bits w 23 6 = M ∧ bits w 0 20 = 0 ∧ fld w 20 3 = x0

theorem f20_fields (b : Nat) (M : Nat) (x0 : BitVec 3) (hb : b = M * 2 ^ 23) (hM : M < 64) :
  b + put x0 20 < 2 ^ 29 ∧ ∀ h, f20 M x0 (h * 2 ^ 29 + (b + put x0 20)) := by
  have := x0.isLt
  unfold f20 put
  refine ⟨by omega, fun h => ⟨by unfold bits; omega, by unfold bits; omega, fld_eq _ _ _ (by unfold bits; omega)⟩⟩

/-- The fields of a word with operands at bits 20, 17, as for MADD. -/
def f20_17 (M : Nat) (x0 : BitVec 3) (x1 : BitVec 3) (w : Nat) : Prop :=
  bits w 23 6 = M ∧ bits w 0 17 = 0 ∧ fld w 20 3 = x0 ∧ fld w 17 3 = x1

theorem f20_17_fields (b : Nat) (M : Nat) (x0 : BitVec 3) (x1 : BitVec 3) (hb : b = M * 2 ^ 23) (hM : M < 64) :
  b + put x0 20 + put x1 17 < 2 ^ 29 ∧ ∀ h, f20_17 M x0 x1 (h * 2 ^ 29 + (b + put x0 20 + put x1 17)) := by
  have := x0.isLt; have := x1.isLt
  unfold f20_17 put
  refine ⟨by omega, fun h => ⟨by unfold bits; omega, by unfold bits; omega, fld_eq _ _ _ (by unfold bits; omega), fld_eq _ _ _ (by unfold bits; omega)⟩⟩

/-- The fields of a word with operands at bits 20, 16, 12, 10, 8, 4, as for MOUT. -/
def f20_16_12_10_8_4 (M : Nat) (x0 : BitVec 3) (x1 : BitVec 4) (x2 : BitVec 4) (x3 : BitVec 2) (x4 : BitVec 2) (x5 : BitVec 4) (w : Nat) : Prop :=
  bits w 23 6 = M ∧ bits w 0 4 = 0 ∧ fld w 20 3 = x0 ∧ fld w 16 4 = x1 ∧ fld w 12 4 = x2 ∧ fld w 10 2 = x3 ∧ fld w 8 2 = x4 ∧ fld w 4 4 = x5

theorem f20_16_12_10_8_4_fields (b : Nat) (M : Nat) (x0 : BitVec 3) (x1 : BitVec 4) (x2 : BitVec 4) (x3 : BitVec 2) (x4 : BitVec 2) (x5 : BitVec 4) (hb : b = M * 2 ^ 23) (hM : M < 64) :
  b + put x0 20 + put x1 16 + put x2 12 + put x3 10 + put x4 8 + put x5 4 < 2 ^ 29 ∧ ∀ h, f20_16_12_10_8_4 M x0 x1 x2 x3 x4 x5 (h * 2 ^ 29 + (b + put x0 20 + put x1 16 + put x2 12 + put x3 10 + put x4 8 + put x5 4)) := by
  have := x0.isLt; have := x1.isLt; have := x2.isLt; have := x3.isLt; have := x4.isLt; have := x5.isLt
  unfold f20_16_12_10_8_4 put
  refine ⟨by omega, fun h => ⟨by unfold bits; omega, by unfold bits; omega, fld_eq _ _ _ (by unfold bits; omega), fld_eq _ _ _ (by unfold bits; omega), fld_eq _ _ _ (by unfold bits; omega), fld_eq _ _ _ (by unfold bits; omega), fld_eq _ _ _ (by unfold bits; omega), fld_eq _ _ _ (by unfold bits; omega)⟩⟩

/-- The fields of a word with operands at bits 20, 15, as for MOUTB. -/
def f20_15 (M : Nat) (x0 : BitVec 3) (x1 : BitVec 5) (w : Nat) : Prop :=
  bits w 23 6 = M ∧ bits w 0 15 = 0 ∧ fld w 20 3 = x0 ∧ fld w 15 5 = x1

theorem f20_15_fields (b : Nat) (M : Nat) (x0 : BitVec 3) (x1 : BitVec 5) (hb : b = M * 2 ^ 23) (hM : M < 64) :
  b + put x0 20 + put x1 15 < 2 ^ 29 ∧ ∀ h, f20_15 M x0 x1 (h * 2 ^ 29 + (b + put x0 20 + put x1 15)) := by
  have := x0.isLt; have := x1.isLt
  unfold f20_15 put
  refine ⟨by omega, fun h => ⟨by unfold bits; omega, by unfold bits; omega, fld_eq _ _ _ (by unfold bits; omega), fld_eq _ _ _ (by unfold bits; omega)⟩⟩

/-- The fields of a word with operands at bits 20, 16, 10, 6, 4, 3, 2, 0, as for FETCH. -/
def f20_16_10_6_4_3_2_0 (M : Nat) (x0 : BitVec 3) (x1 : BitVec 4) (x2 : BitVec 6) (x3 : BitVec 4) (x4 : BitVec 2) (x5 : BitVec 1) (x6 : BitVec 1) (x7 : BitVec 1) (w : Nat) : Prop :=
  bits w 23 6 = M ∧ bits w 1 1 = 0 ∧ fld w 20 3 = x0 ∧ fld w 16 4 = x1 ∧ fld w 10 6 = x2 ∧ fld w 6 4 = x3 ∧ fld w 4 2 = x4 ∧ fld w 3 1 = x5 ∧ fld w 2 1 = x6 ∧ fld w 0 1 = x7

theorem f20_16_10_6_4_3_2_0_fields (b : Nat) (M : Nat) (x0 : BitVec 3) (x1 : BitVec 4) (x2 : BitVec 6) (x3 : BitVec 4) (x4 : BitVec 2) (x5 : BitVec 1) (x6 : BitVec 1) (x7 : BitVec 1) (hb : b = M * 2 ^ 23) (hM : M < 64) :
  b + put x0 20 + put x1 16 + put x2 10 + put x3 6 + put x4 4 + put x5 3 + put x6 2 + put x7 0 < 2 ^ 29 ∧ ∀ h, f20_16_10_6_4_3_2_0 M x0 x1 x2 x3 x4 x5 x6 x7 (h * 2 ^ 29 + (b + put x0 20 + put x1 16 + put x2 10 + put x3 6 + put x4 4 + put x5 3 + put x6 2 + put x7 0)) := by
  have := x0.isLt; have := x1.isLt; have := x2.isLt; have := x3.isLt; have := x4.isLt; have := x5.isLt; have := x6.isLt; have := x7.isLt
  unfold f20_16_10_6_4_3_2_0 put
  refine ⟨by omega, fun h => ⟨by unfold bits; omega, by unfold bits; omega, fld_eq _ _ _ (by unfold bits; omega), fld_eq _ _ _ (by unfold bits; omega), fld_eq _ _ _ (by unfold bits; omega), fld_eq _ _ _ (by unfold bits; omega), fld_eq _ _ _ (by unfold bits; omega), fld_eq _ _ _ (by unfold bits; omega), fld_eq _ _ _ (by unfold bits; omega), fld_eq _ _ _ (by unfold bits; omega)⟩⟩

/-- The fields of a word with operands at bits 20, 16, 10, 6, 4, 3, as for RFETCH. -/
def f20_16_10_6_4_3 (M : Nat) (x0 : BitVec 3) (x1 : BitVec 4) (x2 : BitVec 6) (x3 : BitVec 4) (x4 : BitVec 2) (x5 : BitVec 1) (w : Nat) : Prop :=
  bits w 23 6 = M ∧ bits w 0 3 = 0 ∧ fld w 20 3 = x0 ∧ fld w 16 4 = x1 ∧ fld w 10 6 = x2 ∧ fld w 6 4 = x3 ∧ fld w 4 2 = x4 ∧ fld w 3 1 = x5

theorem f20_16_10_6_4_3_fields (b : Nat) (M : Nat) (x0 : BitVec 3) (x1 : BitVec 4) (x2 : BitVec 6) (x3 : BitVec 4) (x4 : BitVec 2) (x5 : BitVec 1) (hb : b = M * 2 ^ 23) (hM : M < 64) :
  b + put x0 20 + put x1 16 + put x2 10 + put x3 6 + put x4 4 + put x5 3 < 2 ^ 29 ∧ ∀ h, f20_16_10_6_4_3 M x0 x1 x2 x3 x4 x5 (h * 2 ^ 29 + (b + put x0 20 + put x1 16 + put x2 10 + put x3 6 + put x4 4 + put x5 3)) := by
  have := x0.isLt; have := x1.isLt; have := x2.isLt; have := x3.isLt; have := x4.isLt; have := x5.isLt
  unfold f20_16_10_6_4_3 put
  refine ⟨by omega, fun h => ⟨by unfold bits; omega, by unfold bits; omega, fld_eq _ _ _ (by unfold bits; omega), fld_eq _ _ _ (by unfold bits; omega), fld_eq _ _ _ (by unfold bits; omega), fld_eq _ _ _ (by unfold bits; omega), fld_eq _ _ _ (by unfold bits; omega), fld_eq _ _ _ (by unfold bits; omega)⟩⟩

/-- The fields of a word with operands at bits 20, 16, 12, 6, 2, as for SEND. -/
def f20_16_12_6_2 (M : Nat) (x0 : BitVec 3) (x1 : BitVec 4) (x2 : BitVec 4) (x3 : BitVec 6) (x4 : BitVec 4) (w : Nat) : Prop :=
  bits w 23 6 = M ∧ bits w 0 2 = 0 ∧ fld w 20 3 = x0 ∧ fld w 16 4 = x1 ∧ fld w 12 4 = x2 ∧ fld w 6 6 = x3 ∧ fld w 2 4 = x4

theorem f20_16_12_6_2_fields (b : Nat) (M : Nat) (x0 : BitVec 3) (x1 : BitVec 4) (x2 : BitVec 4) (x3 : BitVec 6) (x4 : BitVec 4) (hb : b = M * 2 ^ 23) (hM : M < 64) :
  b + put x0 20 + put x1 16 + put x2 12 + put x3 6 + put x4 2 < 2 ^ 29 ∧ ∀ h, f20_16_12_6_2 M x0 x1 x2 x3 x4 (h * 2 ^ 29 + (b + put x0 20 + put x1 16 + put x2 12 + put x3 6 + put x4 2)) := by
  have := x0.isLt; have := x1.isLt; have := x2.isLt; have := x3.isLt; have := x4.isLt
  unfold f20_16_12_6_2 put
  refine ⟨by omega, fun h => ⟨by unfold bits; omega, by unfold bits; omega, fld_eq _ _ _ (by unfold bits; omega), fld_eq _ _ _ (by unfold bits; omega), fld_eq _ _ _ (by unfold bits; omega), fld_eq _ _ _ (by unfold bits; omega), fld_eq _ _ _ (by unfold bits; omega)⟩⟩

/-- The fields of a word with operands at bits 20, 16, 10, 4, 0, as for SENDB. -/
def f20_16_10_4_0 (M : Nat) (x0 : BitVec 3) (x1 : BitVec 4) (x2 : BitVec 6) (x3 : BitVec 6) (x4 : BitVec 4) (w : Nat) : Prop :=
  bits w 23 6 = M ∧ fld w 20 3 = x0 ∧ fld w 16 4 = x1 ∧ fld w 10 6 = x2 ∧ fld w 4 6 = x3 ∧ fld w 0 4 = x4

theorem f20_16_10_4_0_fields (b : Nat) (M : Nat) (x0 : BitVec 3) (x1 : BitVec 4) (x2 : BitVec 6) (x3 : BitVec 6) (x4 : BitVec 4) (hb : b = M * 2 ^ 23) (hM : M < 64) :
  b + put x0 20 + put x1 16 + put x2 10 + put x3 4 + put x4 0 < 2 ^ 29 ∧ ∀ h, f20_16_10_4_0 M x0 x1 x2 x3 x4 (h * 2 ^ 29 + (b + put x0 20 + put x1 16 + put x2 10 + put x3 4 + put x4 0)) := by
  have := x0.isLt; have := x1.isLt; have := x2.isLt; have := x3.isLt; have := x4.isLt
  unfold f20_16_10_4_0 put
  refine ⟨by omega, fun h => ⟨by unfold bits; omega, fld_eq _ _ _ (by unfold bits; omega), fld_eq _ _ _ (by unfold bits; omega), fld_eq _ _ _ (by unfold bits; omega), fld_eq _ _ _ (by unfold bits; omega), fld_eq _ _ _ (by unfold bits; omega)⟩⟩

/-- The fields of a word with operands at bits 20, 14, 4, 3, as for COPY. -/
def f20_14_4_3 (M : Nat) (x0 : BitVec 3) (x1 : BitVec 6) (x2 : BitVec 4) (x3 : BitVec 1) (w : Nat) : Prop :=
  bits w 23 6 = M ∧ bits w 0 3 = 0 ∧ bits w 8 6 = 0 ∧ fld w 20 3 = x0 ∧ fld w 14 6 = x1 ∧ fld w 4 4 = x2 ∧ fld w 3 1 = x3

theorem f20_14_4_3_fields (b : Nat) (M : Nat) (x0 : BitVec 3) (x1 : BitVec 6) (x2 : BitVec 4) (x3 : BitVec 1) (hb : b = M * 2 ^ 23) (hM : M < 64) :
  b + put x0 20 + put x1 14 + put x2 4 + put x3 3 < 2 ^ 29 ∧ ∀ h, f20_14_4_3 M x0 x1 x2 x3 (h * 2 ^ 29 + (b + put x0 20 + put x1 14 + put x2 4 + put x3 3)) := by
  have := x0.isLt; have := x1.isLt; have := x2.isLt; have := x3.isLt
  unfold f20_14_4_3 put
  refine ⟨by omega, fun h => ⟨by unfold bits; omega, by unfold bits; omega, by unfold bits; omega, fld_eq _ _ _ (by unfold bits; omega), fld_eq _ _ _ (by unfold bits; omega), fld_eq _ _ _ (by unfold bits; omega), fld_eq _ _ _ (by unfold bits; omega)⟩⟩

/-- The fields of a word with operands at bits 20, 14, 8, 4, 3, as for WEAVE. -/
def f20_14_8_4_3 (M : Nat) (x0 : BitVec 3) (x1 : BitVec 6) (x2 : BitVec 6) (x3 : BitVec 4) (x4 : BitVec 1) (w : Nat) : Prop :=
  bits w 23 6 = M ∧ bits w 0 3 = 0 ∧ fld w 20 3 = x0 ∧ fld w 14 6 = x1 ∧ fld w 8 6 = x2 ∧ fld w 4 4 = x3 ∧ fld w 3 1 = x4

theorem f20_14_8_4_3_fields (b : Nat) (M : Nat) (x0 : BitVec 3) (x1 : BitVec 6) (x2 : BitVec 6) (x3 : BitVec 4) (x4 : BitVec 1) (hb : b = M * 2 ^ 23) (hM : M < 64) :
  b + put x0 20 + put x1 14 + put x2 8 + put x3 4 + put x4 3 < 2 ^ 29 ∧ ∀ h, f20_14_8_4_3 M x0 x1 x2 x3 x4 (h * 2 ^ 29 + (b + put x0 20 + put x1 14 + put x2 8 + put x3 4 + put x4 3)) := by
  have := x0.isLt; have := x1.isLt; have := x2.isLt; have := x3.isLt; have := x4.isLt
  unfold f20_14_8_4_3 put
  refine ⟨by omega, fun h => ⟨by unfold bits; omega, by unfold bits; omega, fld_eq _ _ _ (by unfold bits; omega), fld_eq _ _ _ (by unfold bits; omega), fld_eq _ _ _ (by unfold bits; omega), fld_eq _ _ _ (by unfold bits; omega), fld_eq _ _ _ (by unfold bits; omega)⟩⟩

/-- The fields of a word with operands at bits 20, 17, 11, 5, 3, as for PROBE. -/
def f20_17_11_5_3 (M : Nat) (x0 : BitVec 3) (x1 : BitVec 3) (x2 : BitVec 6) (x3 : BitVec 6) (x4 : BitVec 2) (w : Nat) : Prop :=
  bits w 23 6 = M ∧ bits w 0 3 = 0 ∧ fld w 20 3 = x0 ∧ fld w 17 3 = x1 ∧ fld w 11 6 = x2 ∧ fld w 5 6 = x3 ∧ fld w 3 2 = x4

theorem f20_17_11_5_3_fields (b : Nat) (M : Nat) (x0 : BitVec 3) (x1 : BitVec 3) (x2 : BitVec 6) (x3 : BitVec 6) (x4 : BitVec 2) (hb : b = M * 2 ^ 23) (hM : M < 64) :
  b + put x0 20 + put x1 17 + put x2 11 + put x3 5 + put x4 3 < 2 ^ 29 ∧ ∀ h, f20_17_11_5_3 M x0 x1 x2 x3 x4 (h * 2 ^ 29 + (b + put x0 20 + put x1 17 + put x2 11 + put x3 5 + put x4 3)) := by
  have := x0.isLt; have := x1.isLt; have := x2.isLt; have := x3.isLt; have := x4.isLt
  unfold f20_17_11_5_3 put
  refine ⟨by omega, fun h => ⟨by unfold bits; omega, by unfold bits; omega, fld_eq _ _ _ (by unfold bits; omega), fld_eq _ _ _ (by unfold bits; omega), fld_eq _ _ _ (by unfold bits; omega), fld_eq _ _ _ (by unfold bits; omega), fld_eq _ _ _ (by unfold bits; omega)⟩⟩

/-- The fields of a word with operands at bits 20, 14, 13, as for PINV. -/
def f20_14_13 (M : Nat) (x0 : BitVec 3) (x1 : BitVec 6) (x2 : BitVec 1) (w : Nat) : Prop :=
  bits w 23 6 = M ∧ bits w 0 13 = 0 ∧ fld w 20 3 = x0 ∧ fld w 14 6 = x1 ∧ fld w 13 1 = x2

theorem f20_14_13_fields (b : Nat) (M : Nat) (x0 : BitVec 3) (x1 : BitVec 6) (x2 : BitVec 1) (hb : b = M * 2 ^ 23) (hM : M < 64) :
  b + put x0 20 + put x1 14 + put x2 13 < 2 ^ 29 ∧ ∀ h, f20_14_13 M x0 x1 x2 (h * 2 ^ 29 + (b + put x0 20 + put x1 14 + put x2 13)) := by
  have := x0.isLt; have := x1.isLt; have := x2.isLt
  unfold f20_14_13 put
  refine ⟨by omega, fun h => ⟨by unfold bits; omega, by unfold bits; omega, fld_eq _ _ _ (by unfold bits; omega), fld_eq _ _ _ (by unfold bits; omega), fld_eq _ _ _ (by unfold bits; omega)⟩⟩

/-- The fields of a word with operands at bits 20, 16, 13, as for SCREEN. -/
def f20_16_13 (M : Nat) (x0 : BitVec 3) (x1 : BitVec 4) (x2 : BitVec 3) (w : Nat) : Prop :=
  bits w 23 6 = M ∧ bits w 0 13 = 0 ∧ fld w 20 3 = x0 ∧ fld w 16 4 = x1 ∧ fld w 13 3 = x2

theorem f20_16_13_fields (b : Nat) (M : Nat) (x0 : BitVec 3) (x1 : BitVec 4) (x2 : BitVec 3) (hb : b = M * 2 ^ 23) (hM : M < 64) :
  b + put x0 20 + put x1 16 + put x2 13 < 2 ^ 29 ∧ ∀ h, f20_16_13 M x0 x1 x2 (h * 2 ^ 29 + (b + put x0 20 + put x1 16 + put x2 13)) := by
  have := x0.isLt; have := x1.isLt; have := x2.isLt
  unfold f20_16_13 put
  refine ⟨by omega, fun h => ⟨by unfold bits; omega, by unfold bits; omega, fld_eq _ _ _ (by unfold bits; omega), fld_eq _ _ _ (by unfold bits; omega), fld_eq _ _ _ (by unfold bits; omega)⟩⟩

/-- The fields of a word with operands at bits 20, 17, 11, 5, 1, as for STBL. -/
def f20_17_11_5_1 (M : Nat) (x0 : BitVec 3) (x1 : BitVec 3) (x2 : BitVec 6) (x3 : BitVec 6) (x4 : BitVec 4) (w : Nat) : Prop :=
  bits w 23 6 = M ∧ bits w 0 1 = 0 ∧ fld w 20 3 = x0 ∧ fld w 17 3 = x1 ∧ fld w 11 6 = x2 ∧ fld w 5 6 = x3 ∧ fld w 1 4 = x4

theorem f20_17_11_5_1_fields (b : Nat) (M : Nat) (x0 : BitVec 3) (x1 : BitVec 3) (x2 : BitVec 6) (x3 : BitVec 6) (x4 : BitVec 4) (hb : b = M * 2 ^ 23) (hM : M < 64) :
  b + put x0 20 + put x1 17 + put x2 11 + put x3 5 + put x4 1 < 2 ^ 29 ∧ ∀ h, f20_17_11_5_1 M x0 x1 x2 x3 x4 (h * 2 ^ 29 + (b + put x0 20 + put x1 17 + put x2 11 + put x3 5 + put x4 1)) := by
  have := x0.isLt; have := x1.isLt; have := x2.isLt; have := x3.isLt; have := x4.isLt
  unfold f20_17_11_5_1 put
  refine ⟨by omega, fun h => ⟨by unfold bits; omega, by unfold bits; omega, fld_eq _ _ _ (by unfold bits; omega), fld_eq _ _ _ (by unfold bits; omega), fld_eq _ _ _ (by unfold bits; omega), fld_eq _ _ _ (by unfold bits; omega), fld_eq _ _ _ (by unfold bits; omega)⟩⟩

/-- The fields of a word with operands at bits 20, 14, 8, 0, as for PATCH. -/
def f20_14_8_0 (M : Nat) (x0 : BitVec 3) (x1 : BitVec 6) (x2 : BitVec 6) (x3 : BitVec 5) (w : Nat) : Prop :=
  bits w 23 6 = M ∧ bits w 5 3 = 0 ∧ fld w 20 3 = x0 ∧ fld w 14 6 = x1 ∧ fld w 8 6 = x2 ∧ fld w 0 5 = x3

theorem f20_14_8_0_fields (b : Nat) (M : Nat) (x0 : BitVec 3) (x1 : BitVec 6) (x2 : BitVec 6) (x3 : BitVec 5) (hb : b = M * 2 ^ 23) (hM : M < 64) :
  b + put x0 20 + put x1 14 + put x2 8 + put x3 0 < 2 ^ 29 ∧ ∀ h, f20_14_8_0 M x0 x1 x2 x3 (h * 2 ^ 29 + (b + put x0 20 + put x1 14 + put x2 8 + put x3 0)) := by
  have := x0.isLt; have := x1.isLt; have := x2.isLt; have := x3.isLt
  unfold f20_14_8_0 put
  refine ⟨by omega, fun h => ⟨by unfold bits; omega, by unfold bits; omega, fld_eq _ _ _ (by unfold bits; omega), fld_eq _ _ _ (by unfold bits; omega), fld_eq _ _ _ (by unfold bits; omega), fld_eq _ _ _ (by unfold bits; omega)⟩⟩

/-- The fields of a word with operands at bits 20, 14, as for ARMREC. -/
def f20_14 (M : Nat) (x0 : BitVec 3) (x1 : BitVec 6) (w : Nat) : Prop :=
  bits w 23 6 = M ∧ bits w 0 14 = 0 ∧ fld w 20 3 = x0 ∧ fld w 14 6 = x1

theorem f20_14_fields (b : Nat) (M : Nat) (x0 : BitVec 3) (x1 : BitVec 6) (hb : b = M * 2 ^ 23) (hM : M < 64) :
  b + put x0 20 + put x1 14 < 2 ^ 29 ∧ ∀ h, f20_14 M x0 x1 (h * 2 ^ 29 + (b + put x0 20 + put x1 14)) := by
  have := x0.isLt; have := x1.isLt
  unfold f20_14 put
  refine ⟨by omega, fun h => ⟨by unfold bits; omega, by unfold bits; omega, fld_eq _ _ _ (by unfold bits; omega), fld_eq _ _ _ (by unfold bits; omega)⟩⟩

/-- The fields of a word with operands at bits 20, 16, 10, as for RINGCFG. -/
def f20_16_10 (M : Nat) (x0 : BitVec 3) (x1 : BitVec 4) (x2 : BitVec 6) (w : Nat) : Prop :=
  bits w 23 6 = M ∧ bits w 0 10 = 0 ∧ fld w 20 3 = x0 ∧ fld w 16 4 = x1 ∧ fld w 10 6 = x2

theorem f20_16_10_fields (b : Nat) (M : Nat) (x0 : BitVec 3) (x1 : BitVec 4) (x2 : BitVec 6) (hb : b = M * 2 ^ 23) (hM : M < 64) :
  b + put x0 20 + put x1 16 + put x2 10 < 2 ^ 29 ∧ ∀ h, f20_16_10 M x0 x1 x2 (h * 2 ^ 29 + (b + put x0 20 + put x1 16 + put x2 10)) := by
  have := x0.isLt; have := x1.isLt; have := x2.isLt
  unfold f20_16_10 put
  refine ⟨by omega, fun h => ⟨by unfold bits; omega, by unfold bits; omega, fld_eq _ _ _ (by unfold bits; omega), fld_eq _ _ _ (by unfold bits; omega), fld_eq _ _ _ (by unfold bits; omega)⟩⟩

theorem bits_of_fld {w lo n : Nat} {v : BitVec n} (h : fld w lo n = v) : bits w lo n = v.toNat := by
  subst h
  simp [fld, bits]

theorem bit_eq_zero {k : BitVec 1} (h : k ≠ 1) : k = 0 := by
  revert k; decide

theorem bit_eq_one {k : BitVec 1} (h : k ≠ 0) : k = 1 := by
  revert k; decide

/-- Decoding the words of an instruction gives it back, with its rendezvous bit and delay, in every column that has it. -/
def Survives (i : Instr) : Prop :=
  ∀ (c : Col) (y : Bool) (d : BitVec 2) (w : Nat) (l : Option W32), i.inColumn c = true → i.wellFormed = true →
    encode ⟨y, d, i⟩ = some (w, l) → decode c w l = .ok ⟨y, d, i⟩

theorem survives_of {i : Instr} {o : Nat} {F : Nat → Prop} (ho : encodeOps i = some o)
    (hF : o < 2 ^ 29 ∧ ∀ h, F (h * 2 ^ 29 + o))
    (hd : ∀ c, i.inColumn c = true → i.wellFormed = true → ∀ w, F w → decodeOps c w i.literal = .ok i) :
    Survives i := by
  intro c y d w l hc hw he
  simp only [encode, ho, Option.map_some, Option.some.injEq, Prod.mk.injEq] at he
  obtain ⟨rfl, rfl⟩ := he
  obtain ⟨hl, hF⟩ := hF
  have e : y.toNat * 2 ^ 31 + d.toNat * 2 ^ 29 + o = (y.toNat * 4 + d.toNat) * 2 ^ 29 + o := by ring
  have hdl := d.isLt
  rw [e, decode, hd c hc hw _ (hF _)]
  have hb : bits ((y.toNat * 4 + d.toNat) * 2 ^ 29 + o) 31 1 = y.toNat := by
    unfold bits; cases y <;> simp <;> omega
  have hf : fld ((y.toNat * 4 + d.toNat) * 2 ^ 29 + o) 29 2 = d := by
    apply BitVec.eq_of_toNat_eq; simp [fld]; omega
  simp only [hw, if_true, hb, hf]
  cases y <;> rfl

theorem survives_S {i : Instr} {o : Nat} {F : Nat → Prop} (ho : encodeOps i = some o)
    (hF : o < 2 ^ 29 ∧ ∀ h, F (h * 2 ^ 29 + o))
    (hc : i.inColumn .V = false ∧ i.inColumn .M = false ∧ i.inColumn .X = false)
    (hd : i.wellFormed = true → ∀ w, F w → decodeOps .S w i.literal = .ok i) : Survives i :=
  survives_of ho hF fun c h => by
    cases c
    · exact hd
    · exact absurd h (by simp [hc.1])
    · exact absurd h (by simp [hc.2.1])
    · exact absurd h (by simp [hc.2.2])

theorem survives_V {i : Instr} {o : Nat} {F : Nat → Prop} (ho : encodeOps i = some o)
    (hF : o < 2 ^ 29 ∧ ∀ h, F (h * 2 ^ 29 + o))
    (hc : i.inColumn .S = false ∧ i.inColumn .M = false ∧ i.inColumn .X = false)
    (hd : i.wellFormed = true → ∀ w, F w → decodeOps .V w i.literal = .ok i) : Survives i :=
  survives_of ho hF fun c h => by
    cases c
    · exact absurd h (by simp [hc.1])
    · exact hd
    · exact absurd h (by simp [hc.2.1])
    · exact absurd h (by simp [hc.2.2])

theorem survives_M {i : Instr} {o : Nat} {F : Nat → Prop} (ho : encodeOps i = some o)
    (hF : o < 2 ^ 29 ∧ ∀ h, F (h * 2 ^ 29 + o))
    (hc : i.inColumn .S = false ∧ i.inColumn .V = false ∧ i.inColumn .X = false)
    (hd : i.wellFormed = true → ∀ w, F w → decodeOps .M w i.literal = .ok i) : Survives i :=
  survives_of ho hF fun c h => by
    cases c
    · exact absurd h (by simp [hc.1])
    · exact absurd h (by simp [hc.2.1])
    · exact hd
    · exact absurd h (by simp [hc.2.2])

theorem survives_X {i : Instr} {o : Nat} {F : Nat → Prop} (ho : encodeOps i = some o)
    (hF : o < 2 ^ 29 ∧ ∀ h, F (h * 2 ^ 29 + o))
    (hc : i.inColumn .S = false ∧ i.inColumn .V = false ∧ i.inColumn .M = false)
    (hd : i.wellFormed = true → ∀ w, F w → decodeOps .X w i.literal = .ok i) : Survives i :=
  survives_of ho hF fun c h => by
    cases c
    · exact absurd h (by simp [hc.1])
    · exact absurd h (by simp [hc.2.1])
    · exact absurd h (by simp [hc.2.2])
    · exact hd

end Sys2Proof.Laws.Encoding
end

