-- ==== Sys2Proof/Laws/PerInstr.lean ====
section
/-! SUPPORT. The round trip of encoding and decoding, instruction by instruction. Rows without an encoding have nothing to
decode. -/

namespace Sys2Proof.Laws.RoundTrip

open Sys2Proof.Laws.Encoding

/-- The words of the instruction decode to it, in every column that has it, at every operand value its fields allow. -/
def Statement (i : Instr) : Prop :=
  ∀ (c : Col) (y : Bool) (d : BitVec 2) (w : Nat) (l : Option W32), i.inColumn c = true → i.wellFormed = true →
    encode ⟨y, d, i⟩ = some (w, l) → decode c w l = .ok ⟨y, d, i⟩

theorem idle a1 : Statement (.idle a1) :=
  survives_of rfl (f0_fields 0x00000000 a1 rfl) fun _ _ _ w ⟨h0, h1, n0, f0⟩ => by
    unfold decodeOps decodeCommon; rw [if_pos h0]; rcases h1 with h1 | h1 <;> (rw [h1, n0, f0]; rfl)

theorem align : Statement (.align) :=
  survives_of rfl (f_fields 0x00100000 2 rfl (by decide)) fun _ _ _ w ⟨h0, h1, n0⟩ => by
    unfold decodeOps decodeCommon; rw [if_pos h0, h1, n0]; rfl

theorem endc : Statement (.endc) :=
  survives_of rfl (f_fields 0x00180000 3 rfl (by decide)) fun _ _ _ w ⟨h0, h1, n0⟩ => by
    unfold decodeOps decodeCommon; rw [if_pos h0, h1, n0]; rfl

theorem loop a1 a2 : Statement (.loop a1 a2) :=
  survives_of rfl (f7_0_fields 0x00200000 4 a1 a2 rfl (by decide)) fun _ _ _ w ⟨h0, h1, f0, f1⟩ => by
    unfold decodeOps decodeCommon; rw [if_pos h0, h1, f0, f1]; rfl

theorem loopc a1 a2 a3 : Statement (.loopc a1 a2 a3) :=
  survives_of rfl (f13_6_0_fields 0x00280000 5 a1 a2 a3 rfl (by decide)) fun _ _ _ w ⟨h0, h1, f0, f1, f2⟩ => by
    unfold decodeOps decodeCommon; rw [if_pos h0, h1, f0, f1, f2]; rfl

theorem sadd a1 a2 a3 : Statement (.sadd a1 a2 a3) :=
  survives_of rfl (f9_3_2_fields 0x00300000 6 a1 a2 a3 rfl (by decide)) fun _ _ _ w ⟨h0, h1, n0, f0, f1, f2⟩ => by
    unfold decodeOps decodeCommon; rw [if_pos h0, h1, n0, f0, f1, f2]; rfl

theorem swait a1 a2 a3 : Statement (.swait a1 a2 a3) :=
  survives_of rfl (f9_3_2_fields 0x00380000 7 a1 a2 a3 rfl (by decide)) fun _ _ _ w ⟨h0, h1, n0, f0, f1, f2⟩ => by
    unfold decodeOps decodeCommon; rw [if_pos h0, h1, n0, f0, f1, f2]; rfl

theorem swaitb a1 a2 a3 : Statement (.swaitb a1 a2 a3) :=
  survives_of rfl (f9_3_2_fields 0x00400000 8 a1 a2 a3 rfl (by decide)) fun _ _ _ w ⟨h0, h1, n0, f0, f1, f2⟩ => by
    unfold decodeOps decodeCommon; rw [if_pos h0, h1, n0, f0, f1, f2]; rfl

theorem mark a1 : Statement (.mark a1) :=
  survives_of rfl (f0_2_fields 0x00480000 9 a1 rfl (by decide)) fun _ _ _ w ⟨h0, h1, n0, f0⟩ => by
    unfold decodeOps decodeCommon; rw [if_pos h0, h1, n0, f0]; rfl

theorem brk a1 : Statement (.brk a1) :=
  survives_of rfl (f0_2_fields 0x00500000 10 a1 rfl (by decide)) fun _ _ _ w ⟨h0, h1, n0, f0⟩ => by
    unfold decodeOps decodeCommon; rw [if_pos h0, h1, n0, f0]; rfl

theorem ifp a1 : Statement (.ifp a1) :=
  survives_S rfl (f16_fields 0x00580000 11 a1 rfl (by decide)) (by exact ⟨rfl, rfl, rfl⟩) fun _ w ⟨h0, h1, n0, f0⟩ => by
    unfold decodeOps decodeCommon; rw [if_pos h0, h1, n0, f0]; rfl

theorem rep a1 a2 : Statement (.rep a1 a2) :=
  survives_V rfl (f14_10_fields 0x00600000 12 a1 a2 rfl (by decide)) (by exact ⟨rfl, rfl, rfl⟩) fun _ w ⟨h0, h1, n0, f0, f1⟩ => by
    unfold decodeOps decodeCommon; rw [if_pos h0, h1, n0, f0, f1]; rfl

theorem add a1 a2 a3 : Statement (.add a1 a2 a3) :=
  survives_S rfl (f17_11_5_fields 0x00800000 1 0 a1 a2 a3 rfl (by decide) (by decide)) (by exact ⟨rfl, rfl, rfl⟩) fun _ w ⟨h1, h2, f0, f1, f2⟩ => by
    unfold decodeOps decodeS; rw [h1, h2, f0, f1, f2]; rfl

theorem sub a1 a2 a3 : Statement (.sub a1 a2 a3) :=
  survives_S rfl (f17_11_5_fields 0x00800001 1 1 a1 a2 a3 rfl (by decide) (by decide)) (by exact ⟨rfl, rfl, rfl⟩) fun _ w ⟨h1, h2, f0, f1, f2⟩ => by
    unfold decodeOps decodeS; rw [h1, h2, f0, f1, f2]; rfl

theorem mul a1 a2 a3 : Statement (.mul a1 a2 a3) :=
  survives_S rfl (f17_11_5_fields 0x00800002 1 2 a1 a2 a3 rfl (by decide) (by decide)) (by exact ⟨rfl, rfl, rfl⟩) fun _ w ⟨h1, h2, f0, f1, f2⟩ => by
    unfold decodeOps decodeS; rw [h1, h2, f0, f1, f2]; rfl

theorem mulh a1 a2 a3 : Statement (.mulh a1 a2 a3) :=
  survives_S rfl (f17_11_5_fields 0x00800003 1 3 a1 a2 a3 rfl (by decide) (by decide)) (by exact ⟨rfl, rfl, rfl⟩) fun _ w ⟨h1, h2, f0, f1, f2⟩ => by
    unfold decodeOps decodeS; rw [h1, h2, f0, f1, f2]; rfl

theorem div a1 a2 a3 : Statement (.div a1 a2 a3) :=
  survives_S rfl (f17_11_5_fields 0x00800004 1 4 a1 a2 a3 rfl (by decide) (by decide)) (by exact ⟨rfl, rfl, rfl⟩) fun _ w ⟨h1, h2, f0, f1, f2⟩ => by
    unfold decodeOps decodeS; rw [h1, h2, f0, f1, f2]; rfl

theorem rem a1 a2 a3 : Statement (.rem a1 a2 a3) :=
  survives_S rfl (f17_11_5_fields 0x00800005 1 5 a1 a2 a3 rfl (by decide) (by decide)) (by exact ⟨rfl, rfl, rfl⟩) fun _ w ⟨h1, h2, f0, f1, f2⟩ => by
    unfold decodeOps decodeS; rw [h1, h2, f0, f1, f2]; rfl

theorem smin a1 a2 a3 : Statement (.smin a1 a2 a3) :=
  survives_S rfl (f17_11_5_fields 0x00800006 1 6 a1 a2 a3 rfl (by decide) (by decide)) (by exact ⟨rfl, rfl, rfl⟩) fun _ w ⟨h1, h2, f0, f1, f2⟩ => by
    unfold decodeOps decodeS; rw [h1, h2, f0, f1, f2]; rfl

theorem smax a1 a2 a3 : Statement (.smax a1 a2 a3) :=
  survives_S rfl (f17_11_5_fields 0x00800007 1 7 a1 a2 a3 rfl (by decide) (by decide)) (by exact ⟨rfl, rfl, rfl⟩) fun _ w ⟨h1, h2, f0, f1, f2⟩ => by
    unfold decodeOps decodeS; rw [h1, h2, f0, f1, f2]; rfl

theorem sand a1 a2 a3 : Statement (.sand a1 a2 a3) :=
  survives_S rfl (f17_11_5_fields 0x01000000 2 0 a1 a2 a3 rfl (by decide) (by decide)) (by exact ⟨rfl, rfl, rfl⟩) fun _ w ⟨h1, h2, f0, f1, f2⟩ => by
    unfold decodeOps decodeS; rw [h1, h2, f0, f1, f2]; rfl

theorem sor a1 a2 a3 : Statement (.sor a1 a2 a3) :=
  survives_S rfl (f17_11_5_fields 0x01000001 2 1 a1 a2 a3 rfl (by decide) (by decide)) (by exact ⟨rfl, rfl, rfl⟩) fun _ w ⟨h1, h2, f0, f1, f2⟩ => by
    unfold decodeOps decodeS; rw [h1, h2, f0, f1, f2]; rfl

theorem sxor a1 a2 a3 : Statement (.sxor a1 a2 a3) :=
  survives_S rfl (f17_11_5_fields 0x01000002 2 2 a1 a2 a3 rfl (by decide) (by decide)) (by exact ⟨rfl, rfl, rfl⟩) fun _ w ⟨h1, h2, f0, f1, f2⟩ => by
    unfold decodeOps decodeS; rw [h1, h2, f0, f1, f2]; rfl

theorem andn a1 a2 a3 : Statement (.andn a1 a2 a3) :=
  survives_S rfl (f17_11_5_fields 0x01000003 2 3 a1 a2 a3 rfl (by decide) (by decide)) (by exact ⟨rfl, rfl, rfl⟩) fun _ w ⟨h1, h2, f0, f1, f2⟩ => by
    unfold decodeOps decodeS; rw [h1, h2, f0, f1, f2]; rfl

theorem shl a1 a2 a3 : Statement (.shl a1 a2 a3) :=
  survives_S rfl (f17_11_5_fields 0x01000004 2 4 a1 a2 a3 rfl (by decide) (by decide)) (by exact ⟨rfl, rfl, rfl⟩) fun _ w ⟨h1, h2, f0, f1, f2⟩ => by
    unfold decodeOps decodeS; rw [h1, h2, f0, f1, f2]; rfl

theorem shr a1 a2 a3 : Statement (.shr a1 a2 a3) :=
  survives_S rfl (f17_11_5_fields 0x01000005 2 5 a1 a2 a3 rfl (by decide) (by decide)) (by exact ⟨rfl, rfl, rfl⟩) fun _ w ⟨h1, h2, f0, f1, f2⟩ => by
    unfold decodeOps decodeS; rw [h1, h2, f0, f1, f2]; rfl

theorem sar a1 a2 a3 : Statement (.sar a1 a2 a3) :=
  survives_S rfl (f17_11_5_fields 0x01000006 2 6 a1 a2 a3 rfl (by decide) (by decide)) (by exact ⟨rfl, rfl, rfl⟩) fun _ w ⟨h1, h2, f0, f1, f2⟩ => by
    unfold decodeOps decodeS; rw [h1, h2, f0, f1, f2]; rfl

theorem clz a1 a2 : Statement (.clz a1 a2) :=
  survives_S rfl (f17_11_fields 0x01000007 2 7 a1 a2 rfl (by decide) (by decide)) (by exact ⟨rfl, rfl, rfl⟩) fun _ w ⟨h1, h2, n0, f0, f1⟩ => by
    unfold decodeOps decodeS; rw [h1, h2, n0, f0, f1]; rfl

theorem popc a1 a2 : Statement (.popc a1 a2) :=
  survives_S rfl (f17_11_fields 0x01000008 2 8 a1 a2 rfl (by decide) (by decide)) (by exact ⟨rfl, rfl, rfl⟩) fun _ w ⟨h1, h2, n0, f0, f1⟩ => by
    unfold decodeOps decodeS; rw [h1, h2, n0, f0, f1]; rfl

theorem addi a1 a2 a3 : Statement (.addi a1 a2 a3) :=
  survives_S rfl (f17_11_0_fields 0x08000000 16 a1 a2 a3 rfl (by decide)) (by exact ⟨rfl, rfl, rfl⟩) fun _ w ⟨h1, f0, f1, f2⟩ => by
    unfold decodeOps decodeS; rw [h1, f0, f1, f2]; rfl

theorem muli a1 a2 a3 : Statement (.muli a1 a2 a3) :=
  survives_S rfl (f17_11_0_fields 0x08800000 17 a1 a2 a3 rfl (by decide)) (by exact ⟨rfl, rfl, rfl⟩) fun _ w ⟨h1, f0, f1, f2⟩ => by
    unfold decodeOps decodeS; rw [h1, f0, f1, f2]; rfl

theorem andi a1 a2 a3 : Statement (.andi a1 a2 a3) :=
  survives_S rfl (f17_11_0_fields 0x09000000 18 a1 a2 a3 rfl (by decide)) (by exact ⟨rfl, rfl, rfl⟩) fun _ w ⟨h1, f0, f1, f2⟩ => by
    unfold decodeOps decodeS; rw [h1, f0, f1, f2]; rfl

theorem ori a1 a2 a3 : Statement (.ori a1 a2 a3) :=
  survives_S rfl (f17_11_0_fields 0x09800000 19 a1 a2 a3 rfl (by decide)) (by exact ⟨rfl, rfl, rfl⟩) fun _ w ⟨h1, f0, f1, f2⟩ => by
    unfold decodeOps decodeS; rw [h1, f0, f1, f2]; rfl

theorem xori a1 a2 a3 : Statement (.xori a1 a2 a3) :=
  survives_S rfl (f17_11_0_fields 0x0A000000 20 a1 a2 a3 rfl (by decide)) (by exact ⟨rfl, rfl, rfl⟩) fun _ w ⟨h1, f0, f1, f2⟩ => by
    unfold decodeOps decodeS; rw [h1, f0, f1, f2]; rfl

theorem mini a1 a2 a3 : Statement (.mini a1 a2 a3) :=
  survives_S rfl (f17_11_0_fields 0x0A800000 21 a1 a2 a3 rfl (by decide)) (by exact ⟨rfl, rfl, rfl⟩) fun _ w ⟨h1, f0, f1, f2⟩ => by
    unfold decodeOps decodeS; rw [h1, f0, f1, f2]; rfl

theorem shli a1 a2 a3 : Statement (.shli a1 a2 a3) :=
  survives_S rfl (f17_11_0_fields 0x0C000000 24 a1 a2 a3 rfl (by decide)) (by exact ⟨rfl, rfl, rfl⟩) fun _ w ⟨h1, f0, f1, f2⟩ => by
    unfold decodeOps decodeS; rw [h1, f0, f1, f2]; rfl

theorem shri a1 a2 a3 : Statement (.shri a1 a2 a3) :=
  survives_S rfl (f17_11_0_fields 0x0C800000 25 a1 a2 a3 rfl (by decide)) (by exact ⟨rfl, rfl, rfl⟩) fun _ w ⟨h1, f0, f1, f2⟩ => by
    unfold decodeOps decodeS; rw [h1, f0, f1, f2]; rfl

theorem sari a1 a2 a3 : Statement (.sari a1 a2 a3) :=
  survives_S rfl (f17_11_0_fields 0x0D000000 26 a1 a2 a3 rfl (by decide)) (by exact ⟨rfl, rfl, rfl⟩) fun _ w ⟨h1, f0, f1, f2⟩ => by
    unfold decodeOps decodeS; rw [h1, f0, f1, f2]; rfl

theorem ceq a1 a2 a3 : Statement (.ceq a1 a2 a3) :=
  survives_S rfl (f20_11_5_fields 0x10000000 32 0 a1 a2 a3 rfl (by decide) (by decide)) (by exact ⟨rfl, rfl, rfl⟩) fun _ w ⟨h1, h2, n0, f0, f1, f2⟩ => by
    unfold decodeOps decodeS; rw [h1, h2, n0, f0, f1, f2]; rfl

theorem cne a1 a2 a3 : Statement (.cne a1 a2 a3) :=
  survives_S rfl (f20_11_5_fields 0x10020000 32 1 a1 a2 a3 rfl (by decide) (by decide)) (by exact ⟨rfl, rfl, rfl⟩) fun _ w ⟨h1, h2, n0, f0, f1, f2⟩ => by
    unfold decodeOps decodeS; rw [h1, h2, n0, f0, f1, f2]; rfl

theorem clt a1 a2 a3 : Statement (.clt a1 a2 a3) :=
  survives_S rfl (f20_11_5_fields 0x10040000 32 2 a1 a2 a3 rfl (by decide) (by decide)) (by exact ⟨rfl, rfl, rfl⟩) fun _ w ⟨h1, h2, n0, f0, f1, f2⟩ => by
    unfold decodeOps decodeS; rw [h1, h2, n0, f0, f1, f2]; rfl

theorem cge a1 a2 a3 : Statement (.cge a1 a2 a3) :=
  survives_S rfl (f20_11_5_fields 0x10060000 32 3 a1 a2 a3 rfl (by decide) (by decide)) (by exact ⟨rfl, rfl, rfl⟩) fun _ w ⟨h1, h2, n0, f0, f1, f2⟩ => by
    unfold decodeOps decodeS; rw [h1, h2, n0, f0, f1, f2]; rfl

theorem cltu a1 a2 a3 : Statement (.cltu a1 a2 a3) :=
  survives_S rfl (f20_11_5_fields 0x10080000 32 4 a1 a2 a3 rfl (by decide) (by decide)) (by exact ⟨rfl, rfl, rfl⟩) fun _ w ⟨h1, h2, n0, f0, f1, f2⟩ => by
    unfold decodeOps decodeS; rw [h1, h2, n0, f0, f1, f2]; rfl

theorem cgeu a1 a2 a3 : Statement (.cgeu a1 a2 a3) :=
  survives_S rfl (f20_11_5_fields 0x100A0000 32 5 a1 a2 a3 rfl (by decide) (by decide)) (by exact ⟨rfl, rfl, rfl⟩) fun _ w ⟨h1, h2, n0, f0, f1, f2⟩ => by
    unfold decodeOps decodeS; rw [h1, h2, n0, f0, f1, f2]; rfl

theorem ceqi a1 a2 a3 : Statement (.ceqi a1 a2 a3) :=
  survives_S rfl (f20_11_0_fields 0x10800000 33 0 a1 a2 a3 rfl (by decide) (by decide)) (by exact ⟨rfl, rfl, rfl⟩) fun _ w ⟨h1, h2, f0, f1, f2⟩ => by
    unfold decodeOps decodeS; rw [h1, h2, f0, f1, f2]; rfl

theorem cnei a1 a2 a3 : Statement (.cnei a1 a2 a3) :=
  survives_S rfl (f20_11_0_fields 0x10820000 33 1 a1 a2 a3 rfl (by decide) (by decide)) (by exact ⟨rfl, rfl, rfl⟩) fun _ w ⟨h1, h2, f0, f1, f2⟩ => by
    unfold decodeOps decodeS; rw [h1, h2, f0, f1, f2]; rfl

theorem clti a1 a2 a3 : Statement (.clti a1 a2 a3) :=
  survives_S rfl (f20_11_0_fields 0x10840000 33 2 a1 a2 a3 rfl (by decide) (by decide)) (by exact ⟨rfl, rfl, rfl⟩) fun _ w ⟨h1, h2, f0, f1, f2⟩ => by
    unfold decodeOps decodeS; rw [h1, h2, f0, f1, f2]; rfl

theorem cgei a1 a2 a3 : Statement (.cgei a1 a2 a3) :=
  survives_S rfl (f20_11_0_fields 0x10860000 33 3 a1 a2 a3 rfl (by decide) (by decide)) (by exact ⟨rfl, rfl, rfl⟩) fun _ w ⟨h1, h2, f0, f1, f2⟩ => by
    unfold decodeOps decodeS; rw [h1, h2, f0, f1, f2]; rfl

theorem cltui a1 a2 a3 : Statement (.cltui a1 a2 a3) :=
  survives_S rfl (f20_11_0_fields 0x10880000 33 4 a1 a2 a3 rfl (by decide) (by decide)) (by exact ⟨rfl, rfl, rfl⟩) fun _ w ⟨h1, h2, f0, f1, f2⟩ => by
    unfold decodeOps decodeS; rw [h1, h2, f0, f1, f2]; rfl

theorem cgeui a1 a2 a3 : Statement (.cgeui a1 a2 a3) :=
  survives_S rfl (f20_11_0_fields 0x108A0000 33 5 a1 a2 a3 rfl (by decide) (by decide)) (by exact ⟨rfl, rfl, rfl⟩) fun _ w ⟨h1, h2, f0, f1, f2⟩ => by
    unfold decodeOps decodeS; rw [h1, h2, f0, f1, f2]; rfl

theorem pand a1 a2 a3 : Statement (.pand a1 a2 a3) :=
  survives_S rfl (f20_17_14_fields 0x11000000 34 0 a1 a2 a3 rfl (by decide) (by decide)) (by exact ⟨rfl, rfl, rfl⟩) fun _ w ⟨h1, h2, n0, f0, f1, f2⟩ => by
    unfold decodeOps decodeS; rw [h1, h2, n0, f0, f1, f2]; rfl

theorem por a1 a2 a3 : Statement (.por a1 a2 a3) :=
  survives_S rfl (f20_17_14_fields 0x11000001 34 1 a1 a2 a3 rfl (by decide) (by decide)) (by exact ⟨rfl, rfl, rfl⟩) fun _ w ⟨h1, h2, n0, f0, f1, f2⟩ => by
    unfold decodeOps decodeS; rw [h1, h2, n0, f0, f1, f2]; rfl

theorem pxor a1 a2 a3 : Statement (.pxor a1 a2 a3) :=
  survives_S rfl (f20_17_14_fields 0x11000002 34 2 a1 a2 a3 rfl (by decide) (by decide)) (by exact ⟨rfl, rfl, rfl⟩) fun _ w ⟨h1, h2, n0, f0, f1, f2⟩ => by
    unfold decodeOps decodeS; rw [h1, h2, n0, f0, f1, f2]; rfl

theorem pandn a1 a2 a3 : Statement (.pandn a1 a2 a3) :=
  survives_S rfl (f20_17_14_fields 0x11000003 34 3 a1 a2 a3 rfl (by decide) (by decide)) (by exact ⟨rfl, rfl, rfl⟩) fun _ w ⟨h1, h2, n0, f0, f1, f2⟩ => by
    unfold decodeOps decodeS; rw [h1, h2, n0, f0, f1, f2]; rfl

theorem sel a1 a2 a3 a4 : Statement (.sel a1 a2 a3 a4) :=
  survives_S rfl (f17_11_5_2_fields 0x11800000 35 a1 a2 a3 a4 rfl (by decide)) (by exact ⟨rfl, rfl, rfl⟩) fun _ w ⟨h1, n0, f0, f1, f2, f3⟩ => by
    unfold decodeOps decodeS; rw [h1, n0, f0, f1, f2, f3]; rfl

theorem fceq a1 a2 a3 : Statement (.fceq a1 a2 a3) :=
  survives_S rfl (f20_11_5_fields 0x12000000 36 0 a1 a2 a3 rfl (by decide) (by decide)) (by exact ⟨rfl, rfl, rfl⟩) fun _ w ⟨h1, h2, n0, f0, f1, f2⟩ => by
    unfold decodeOps decodeS; rw [h1, h2, n0, f0, f1, f2]; rfl

theorem fclt a1 a2 a3 : Statement (.fclt a1 a2 a3) :=
  survives_S rfl (f20_11_5_fields 0x12020000 36 1 a1 a2 a3 rfl (by decide) (by decide)) (by exact ⟨rfl, rfl, rfl⟩) fun _ w ⟨h1, h2, n0, f0, f1, f2⟩ => by
    unfold decodeOps decodeS; rw [h1, h2, n0, f0, f1, f2]; rfl

theorem fcle a1 a2 a3 : Statement (.fcle a1 a2 a3) :=
  survives_S rfl (f20_11_5_fields 0x12040000 36 2 a1 a2 a3 rfl (by decide) (by decide)) (by exact ⟨rfl, rfl, rfl⟩) fun _ w ⟨h1, h2, n0, f0, f1, f2⟩ => by
    unfold decodeOps decodeS; rw [h1, h2, n0, f0, f1, f2]; rfl

theorem ldk a1 a2 : Statement (.ldk a1 a2) :=
  survives_S rfl (f17_0_fields 0x14000000 40 a1 a2 rfl (by decide)) (by exact ⟨rfl, rfl, rfl⟩) fun _ w ⟨h1, f0, f1⟩ => by
    unfold decodeOps decodeS; rw [h1, f0, f1]; rfl

theorem lit a1 a2 : Statement (.lit a1 a2) :=
  survives_S rfl (f17_fields 0x15000000 42 a1 rfl (by decide)) (by exact ⟨rfl, rfl, rfl⟩) fun _ w ⟨h1, n0, f0⟩ => by
    unfold decodeOps decodeS; rw [h1, n0, f0]; rfl

theorem ldc a1 a2 : Statement (.ldc a1 a2) :=
  survives_S rfl (f17_0_2_fields 0x15800000 43 a1 a2 rfl (by decide)) (by exact ⟨rfl, rfl, rfl⟩) fun _ w ⟨h1, n0, f0, f1⟩ => by
    unfold decodeOps decodeS; rw [h1, n0, f0, f1]; rfl

theorem ldkh a1 a2 a3 : Statement (.ldkh a1 a2 a3) :=
  survives_S rfl (f23_17_0_fields 0x16000000 44 a1 a2 a3 rfl rfl) (by exact ⟨rfl, rfl, rfl⟩) fun _ w ⟨h1, n0, f0, f1, f2⟩ => by
    have h2 : bits w 23 6 = 44 ∨ bits w 23 6 = 45 ∨ bits w 23 6 = 46 ∨ bits w 23 6 = 47 := by have := a1.isLt; omega
    unfold decodeOps decodeS
    rcases h2 with h2 | h2 | h2 | h2 <;> (rw [h2, n0, f0, f1, f2]; rfl)

theorem ldb a1 a2 a3 : Statement (.ldb a1 a2 a3) :=
  survives_S rfl (f17_11_3_fields 0x18000000 48 0 a1 a2 a3 rfl (by decide) (by decide)) (by exact ⟨rfl, rfl, rfl⟩) fun _ w ⟨h1, h2, f0, f1, f2⟩ => by
    unfold decodeOps decodeS; rw [h1, h2, f0, f1, f2]; rfl

theorem ldh a1 a2 a3 : Statement (.ldh a1 a2 a3) :=
  survives_S rfl (f17_11_3_fields 0x18000001 48 1 a1 a2 a3 rfl (by decide) (by decide)) (by exact ⟨rfl, rfl, rfl⟩) fun _ w ⟨h1, h2, f0, f1, f2⟩ => by
    unfold decodeOps decodeS; rw [h1, h2, f0, f1, f2]; rfl

theorem ldw a1 a2 a3 : Statement (.ldw a1 a2 a3) :=
  survives_S rfl (f17_11_3_fields 0x18000002 48 2 a1 a2 a3 rfl (by decide) (by decide)) (by exact ⟨rfl, rfl, rfl⟩) fun _ w ⟨h1, h2, f0, f1, f2⟩ => by
    unfold decodeOps decodeS; rw [h1, h2, f0, f1, f2]; rfl

theorem ldd a1 a2 a3 : Statement (.ldd a1 a2 a3) :=
  survives_S rfl (f17_11_3_fields 0x18000003 48 3 a1 a2 a3 rfl (by decide) (by decide)) (by exact ⟨rfl, rfl, rfl⟩) fun _ w ⟨h1, h2, f0, f1, f2⟩ => by
    unfold decodeOps decodeS; rw [h1, h2, f0, f1, f2]; rfl

theorem ldbu a1 a2 a3 : Statement (.ldbu a1 a2 a3) :=
  survives_S rfl (f17_11_3_fields 0x18000004 48 4 a1 a2 a3 rfl (by decide) (by decide)) (by exact ⟨rfl, rfl, rfl⟩) fun _ w ⟨h1, h2, f0, f1, f2⟩ => by
    unfold decodeOps decodeS; rw [h1, h2, f0, f1, f2]; rfl

theorem ldhu a1 a2 a3 : Statement (.ldhu a1 a2 a3) :=
  survives_S rfl (f17_11_3_fields 0x18000005 48 5 a1 a2 a3 rfl (by decide) (by decide)) (by exact ⟨rfl, rfl, rfl⟩) fun _ w ⟨h1, h2, f0, f1, f2⟩ => by
    unfold decodeOps decodeS; rw [h1, h2, f0, f1, f2]; rfl

theorem ldwu a1 a2 a3 : Statement (.ldwu a1 a2 a3) :=
  survives_S rfl (f17_11_3_fields 0x18000006 48 6 a1 a2 a3 rfl (by decide) (by decide)) (by exact ⟨rfl, rfl, rfl⟩) fun _ w ⟨h1, h2, f0, f1, f2⟩ => by
    unfold decodeOps decodeS; rw [h1, h2, f0, f1, f2]; rfl

theorem stb a1 a2 a3 : Statement (.stb a1 a2 a3) :=
  survives_S rfl (f17_11_3_fields 0x18800000 49 0 a1 a2 a3 rfl (by decide) (by decide)) (by exact ⟨rfl, rfl, rfl⟩) fun _ w ⟨h1, h2, f0, f1, f2⟩ => by
    unfold decodeOps decodeS; rw [h1, h2, f0, f1, f2]; rfl

theorem sth a1 a2 a3 : Statement (.sth a1 a2 a3) :=
  survives_S rfl (f17_11_3_fields 0x18800001 49 1 a1 a2 a3 rfl (by decide) (by decide)) (by exact ⟨rfl, rfl, rfl⟩) fun _ w ⟨h1, h2, f0, f1, f2⟩ => by
    unfold decodeOps decodeS; rw [h1, h2, f0, f1, f2]; rfl

theorem stw a1 a2 a3 : Statement (.stw a1 a2 a3) :=
  survives_S rfl (f17_11_3_fields 0x18800002 49 2 a1 a2 a3 rfl (by decide) (by decide)) (by exact ⟨rfl, rfl, rfl⟩) fun _ w ⟨h1, h2, f0, f1, f2⟩ => by
    unfold decodeOps decodeS; rw [h1, h2, f0, f1, f2]; rfl

theorem std a1 a2 a3 : Statement (.std a1 a2 a3) :=
  survives_S rfl (f17_11_3_fields 0x18800003 49 3 a1 a2 a3 rfl (by decide) (by decide)) (by exact ⟨rfl, rfl, rfl⟩) fun _ w ⟨h1, h2, f0, f1, f2⟩ => by
    unfold decodeOps decodeS; rw [h1, h2, f0, f1, f2]; rfl

theorem atomadd a1 a2 a3 a4 : Statement (.atomadd a1 a2 a3 a4) :=
  survives_S rfl (f17_11_5_0_fields 0x19000000 50 0 a1 a2 a3 a4 rfl (by decide) (by decide)) (by exact ⟨rfl, rfl, rfl⟩) fun _ w ⟨h1, h2, f0, f1, f2, f3⟩ => by
    unfold decodeOps decodeS; rw [h1, h2, f0, f1, f2, f3]; rfl

theorem atommin a1 a2 a3 a4 : Statement (.atommin a1 a2 a3 a4) :=
  survives_S rfl (f17_11_5_0_fields 0x19000004 50 1 a1 a2 a3 a4 rfl (by decide) (by decide)) (by exact ⟨rfl, rfl, rfl⟩) fun _ w ⟨h1, h2, f0, f1, f2, f3⟩ => by
    unfold decodeOps decodeS; rw [h1, h2, f0, f1, f2, f3]; rfl

theorem atommax a1 a2 a3 a4 : Statement (.atommax a1 a2 a3 a4) :=
  survives_S rfl (f17_11_5_0_fields 0x19000008 50 2 a1 a2 a3 a4 rfl (by decide) (by decide)) (by exact ⟨rfl, rfl, rfl⟩) fun _ w ⟨h1, h2, f0, f1, f2, f3⟩ => by
    unfold decodeOps decodeS; rw [h1, h2, f0, f1, f2, f3]; rfl

theorem atomswp a1 a2 a3 a4 : Statement (.atomswp a1 a2 a3 a4) :=
  survives_S rfl (f17_11_5_0_fields 0x1900000C 50 3 a1 a2 a3 a4 rfl (by decide) (by decide)) (by exact ⟨rfl, rfl, rfl⟩) fun _ w ⟨h1, h2, f0, f1, f2, f3⟩ => by
    unfold decodeOps decodeS; rw [h1, h2, f0, f1, f2, f3]; rfl

theorem atomcas a1 a2 a3 a4 : Statement (.atomcas a1 a2 a3 a4) :=
  survives_S rfl (f17_11_5_0_fields 0x19000010 50 4 a1 a2 a3 a4 rfl (by decide) (by decide)) (by exact ⟨rfl, rfl, rfl⟩) fun _ w ⟨h1, h2, f0, f1, f2, f3⟩ => by
    unfold decodeOps decodeS; rw [h1, h2, f0, f1, f2, f3]; rfl

theorem fadd a1 a2 a3 : Statement (.fadd a1 a2 a3) :=
  survives_S rfl (f17_11_5_fields 0x1B000000 54 0 a1 a2 a3 rfl (by decide) (by decide)) (by exact ⟨rfl, rfl, rfl⟩) fun _ w ⟨h1, h2, f0, f1, f2⟩ => by
    unfold decodeOps decodeS; rw [h1, h2, f0, f1, f2]; rfl

theorem fsub a1 a2 a3 : Statement (.fsub a1 a2 a3) :=
  survives_S rfl (f17_11_5_fields 0x1B000001 54 1 a1 a2 a3 rfl (by decide) (by decide)) (by exact ⟨rfl, rfl, rfl⟩) fun _ w ⟨h1, h2, f0, f1, f2⟩ => by
    unfold decodeOps decodeS; rw [h1, h2, f0, f1, f2]; rfl

theorem fmul a1 a2 a3 : Statement (.fmul a1 a2 a3) :=
  survives_S rfl (f17_11_5_fields 0x1B000002 54 2 a1 a2 a3 rfl (by decide) (by decide)) (by exact ⟨rfl, rfl, rfl⟩) fun _ w ⟨h1, h2, f0, f1, f2⟩ => by
    unfold decodeOps decodeS; rw [h1, h2, f0, f1, f2]; rfl

theorem fdiv a1 a2 a3 : Statement (.fdiv a1 a2 a3) :=
  survives_S rfl (f17_11_5_fields 0x1B000003 54 3 a1 a2 a3 rfl (by decide) (by decide)) (by exact ⟨rfl, rfl, rfl⟩) fun _ w ⟨h1, h2, f0, f1, f2⟩ => by
    unfold decodeOps decodeS; rw [h1, h2, f0, f1, f2]; rfl

theorem fmin a1 a2 a3 : Statement (.fmin a1 a2 a3) :=
  survives_S rfl (f17_11_5_fields 0x1B000004 54 4 a1 a2 a3 rfl (by decide) (by decide)) (by exact ⟨rfl, rfl, rfl⟩) fun _ w ⟨h1, h2, f0, f1, f2⟩ => by
    unfold decodeOps decodeS; rw [h1, h2, f0, f1, f2]; rfl

theorem fmax a1 a2 a3 : Statement (.fmax a1 a2 a3) :=
  survives_S rfl (f17_11_5_fields 0x1B000005 54 5 a1 a2 a3 rfl (by decide) (by decide)) (by exact ⟨rfl, rfl, rfl⟩) fun _ w ⟨h1, h2, f0, f1, f2⟩ => by
    unfold decodeOps decodeS; rw [h1, h2, f0, f1, f2]; rfl

theorem fsqrt a1 a2 : Statement (.fsqrt a1 a2) :=
  survives_S rfl (f17_11_fields 0x1B000006 54 6 a1 a2 rfl (by decide) (by decide)) (by exact ⟨rfl, rfl, rfl⟩) fun _ w ⟨h1, h2, n0, f0, f1⟩ => by
    unfold decodeOps decodeS; rw [h1, h2, n0, f0, f1]; rfl

theorem ffma a1 a2 a3 : Statement (.ffma a1 a2 a3) :=
  survives_S rfl (f17_11_5_fields 0x1B800000 55 0 a1 a2 a3 rfl (by decide) (by decide)) (by exact ⟨rfl, rfl, rfl⟩) fun _ w ⟨h1, h2, f0, f1, f2⟩ => by
    unfold decodeOps decodeS; rw [h1, h2, f0, f1, f2]; rfl

theorem ftoi a1 a2 : Statement (.ftoi a1 a2) :=
  survives_S rfl (f17_11_fields 0x1C000000 56 0 a1 a2 rfl (by decide) (by decide)) (by exact ⟨rfl, rfl, rfl⟩) fun _ w ⟨h1, h2, n0, f0, f1⟩ => by
    unfold decodeOps decodeS; rw [h1, h2, n0, f0, f1]; rfl

theorem ftoiz a1 a2 : Statement (.ftoiz a1 a2) :=
  survives_S rfl (f17_11_fields 0x1C000001 56 1 a1 a2 rfl (by decide) (by decide)) (by exact ⟨rfl, rfl, rfl⟩) fun _ w ⟨h1, h2, n0, f0, f1⟩ => by
    unfold decodeOps decodeS; rw [h1, h2, n0, f0, f1]; rfl

theorem itof a1 a2 : Statement (.itof a1 a2) :=
  survives_S rfl (f17_11_fields 0x1C000002 56 2 a1 a2 rfl (by decide) (by decide)) (by exact ⟨rfl, rfl, rfl⟩) fun _ w ⟨h1, h2, n0, f0, f1⟩ => by
    unfold decodeOps decodeS; rw [h1, h2, n0, f0, f1]; rfl

theorem faddi a1 a2 : Statement (.faddi a1 a2) :=
  survives_S rfl (f17_1_fields 0x1C800000 57 0 a1 a2 rfl (by decide) (by decide)) (by exact ⟨rfl, rfl, rfl⟩) fun _ w ⟨h1, h2, f0, f1⟩ => by
    unfold decodeOps decodeS; rw [h1, h2, f0, f1]; rfl

theorem fmuli a1 a2 : Statement (.fmuli a1 a2) :=
  survives_S rfl (f17_1_fields 0x1C800001 57 1 a1 a2 rfl (by decide) (by decide)) (by exact ⟨rfl, rfl, rfl⟩) fun _ w ⟨h1, h2, f0, f1⟩ => by
    unfold decodeOps decodeS; rw [h1, h2, f0, f1]; rfl

theorem wid a1 a2 : Statement (.wid a1 a2) :=
  survives_S rfl (f17_8_fields 0x1E000000 60 0 a1 a2 rfl (by decide) (by decide)) (by exact ⟨rfl, rfl, rfl⟩) fun _ w ⟨h1, h2, n0, f0, f1⟩ => by
    unfold decodeOps decodeS; rw [h1, h2, n0, f0, f1]; rfl

theorem widn a1 : Statement (.widn a1) :=
  survives_S rfl (f17_2_fields 0x1E000001 60 1 a1 rfl (by decide) (by decide)) (by exact ⟨rfl, rfl, rfl⟩) fun _ w ⟨h1, h2, n0, f0⟩ => by
    unfold decodeOps decodeS; rw [h1, h2, n0, f0]; rfl

theorem rdsp a1 a2 : Statement (.rdsp a1 a2) :=
  survives_S rfl (f17_8_fields 0x1E800000 61 0 a1 a2 rfl (by decide) (by decide)) (by exact ⟨rfl, rfl, rfl⟩) fun _ w ⟨h1, h2, n0, f0, f1⟩ => by
    unfold decodeOps decodeS; rw [h1, h2, n0, f0, f1]; rfl

theorem wrsp a1 a2 : Statement (.wrsp a1 a2) :=
  survives_S rfl (f17_8_fields 0x1E800001 61 1 a1 a2 rfl (by decide) (by decide)) (by exact ⟨rfl, rfl, rfl⟩) fun _ w ⟨h1, h2, n0, f0, f1⟩ => by
    unfold decodeOps decodeS; rw [h1, h2, n0, f0, f1]; rfl

theorem cal a1 a2 : Statement (.cal a1 a2) :=
  survives_S rfl (f17_8_fields 0x1F000000 62 0 a1 a2 rfl (by decide) (by decide)) (by exact ⟨rfl, rfl, rfl⟩) fun _ w ⟨h1, h2, n0, f0, f1⟩ => by
    unfold decodeOps decodeS; rw [h1, h2, n0, f0, f1]; rfl

theorem abort a1 a2 : Statement (.abort a1 a2) :=
  survives_S rfl (f17_8_fields 0x1F000001 62 1 a1 a2 rfl (by decide) (by decide)) (by exact ⟨rfl, rfl, rfl⟩) fun _ w ⟨h1, h2, n0, f0, f1⟩ => by
    unfold decodeOps decodeS; rw [h1, h2, n0, f0, f1]; rfl

theorem vadd a1 a2 a3 a4 : Statement (.vadd a1 a2 a3 a4) :=
  survives_V rfl (f18_13_8_4_fields 0x00800000 1 0 a1 a2 a3 a4 rfl (by decide) (by decide)) (by exact ⟨rfl, rfl, rfl⟩) fun _ w ⟨h1, h2, f0, f1, f2, f3⟩ => by
    unfold decodeOps decodeV; rw [h1, h2, f0, f1, f2, f3]; rfl

theorem vsub a1 a2 a3 a4 : Statement (.vsub a1 a2 a3 a4) :=
  survives_V rfl (f18_13_8_4_fields 0x00800001 1 1 a1 a2 a3 a4 rfl (by decide) (by decide)) (by exact ⟨rfl, rfl, rfl⟩) fun _ w ⟨h1, h2, f0, f1, f2, f3⟩ => by
    unfold decodeOps decodeV; rw [h1, h2, f0, f1, f2, f3]; rfl

theorem vmul a1 a2 a3 a4 : Statement (.vmul a1 a2 a3 a4) :=
  survives_V rfl (f18_13_8_4_fields 0x00800002 1 2 a1 a2 a3 a4 rfl (by decide) (by decide)) (by exact ⟨rfl, rfl, rfl⟩) fun _ w ⟨h1, h2, f0, f1, f2, f3⟩ => by
    unfold decodeOps decodeV; rw [h1, h2, f0, f1, f2, f3]; rfl

theorem vdiv a1 a2 a3 a4 : Statement (.vdiv a1 a2 a3 a4) :=
  survives_V rfl (f18_13_8_4_fields 0x00800003 1 3 a1 a2 a3 a4 rfl (by decide) (by decide)) (by exact ⟨rfl, rfl, rfl⟩) fun _ w ⟨h1, h2, f0, f1, f2, f3⟩ => by
    unfold decodeOps decodeV; rw [h1, h2, f0, f1, f2, f3]; rfl

theorem vmin a1 a2 a3 a4 : Statement (.vmin a1 a2 a3 a4) :=
  survives_V rfl (f18_13_8_4_fields 0x00800004 1 4 a1 a2 a3 a4 rfl (by decide) (by decide)) (by exact ⟨rfl, rfl, rfl⟩) fun _ w ⟨h1, h2, f0, f1, f2, f3⟩ => by
    unfold decodeOps decodeV; rw [h1, h2, f0, f1, f2, f3]; rfl

theorem vmax a1 a2 a3 a4 : Statement (.vmax a1 a2 a3 a4) :=
  survives_V rfl (f18_13_8_4_fields 0x00800005 1 5 a1 a2 a3 a4 rfl (by decide) (by decide)) (by exact ⟨rfl, rfl, rfl⟩) fun _ w ⟨h1, h2, f0, f1, f2, f3⟩ => by
    unfold decodeOps decodeV; rw [h1, h2, f0, f1, f2, f3]; rfl

theorem vfma a1 a2 a3 a4 : Statement (.vfma a1 a2 a3 a4) :=
  survives_V rfl (f18_13_8_4_fields 0x01000000 2 0 a1 a2 a3 a4 rfl (by decide) (by decide)) (by exact ⟨rfl, rfl, rfl⟩) fun _ w ⟨h1, h2, f0, f1, f2, f3⟩ => by
    unfold decodeOps decodeV; rw [h1, h2, f0, f1, f2, f3]; rfl

theorem vfms a1 a2 a3 a4 : Statement (.vfms a1 a2 a3 a4) :=
  survives_V rfl (f18_13_8_4_fields 0x01000001 2 1 a1 a2 a3 a4 rfl (by decide) (by decide)) (by exact ⟨rfl, rfl, rfl⟩) fun _ w ⟨h1, h2, f0, f1, f2, f3⟩ => by
    unfold decodeOps decodeV; rw [h1, h2, f0, f1, f2, f3]; rfl

theorem vfnma a1 a2 a3 a4 : Statement (.vfnma a1 a2 a3 a4) :=
  survives_V rfl (f18_13_8_4_fields 0x01000002 2 2 a1 a2 a3 a4 rfl (by decide) (by decide)) (by exact ⟨rfl, rfl, rfl⟩) fun _ w ⟨h1, h2, f0, f1, f2, f3⟩ => by
    unfold decodeOps decodeV; rw [h1, h2, f0, f1, f2, f3]; rfl

theorem vexp2 a1 a2 a3 : Statement (.vexp2 a1 a2 a3) :=
  survives_V rfl (f18_13_4_fields 0x01800000 3 0 a1 a2 a3 rfl (by decide) (by decide)) (by exact ⟨rfl, rfl, rfl⟩) fun _ w ⟨h1, h2, n0, f0, f1, f2⟩ => by
    unfold decodeOps decodeV; rw [h1, h2, n0, f0, f1, f2]; rfl

theorem vlog2 a1 a2 a3 : Statement (.vlog2 a1 a2 a3) :=
  survives_V rfl (f18_13_4_fields 0x01800001 3 1 a1 a2 a3 rfl (by decide) (by decide)) (by exact ⟨rfl, rfl, rfl⟩) fun _ w ⟨h1, h2, n0, f0, f1, f2⟩ => by
    unfold decodeOps decodeV; rw [h1, h2, n0, f0, f1, f2]; rfl

theorem vrcp a1 a2 a3 : Statement (.vrcp a1 a2 a3) :=
  survives_V rfl (f18_13_4_fields 0x01800002 3 2 a1 a2 a3 rfl (by decide) (by decide)) (by exact ⟨rfl, rfl, rfl⟩) fun _ w ⟨h1, h2, n0, f0, f1, f2⟩ => by
    unfold decodeOps decodeV; rw [h1, h2, n0, f0, f1, f2]; rfl

theorem vrsq a1 a2 a3 : Statement (.vrsq a1 a2 a3) :=
  survives_V rfl (f18_13_4_fields 0x01800003 3 3 a1 a2 a3 rfl (by decide) (by decide)) (by exact ⟨rfl, rfl, rfl⟩) fun _ w ⟨h1, h2, n0, f0, f1, f2⟩ => by
    unfold decodeOps decodeV; rw [h1, h2, n0, f0, f1, f2]; rfl

theorem vsin a1 a2 a3 : Statement (.vsin a1 a2 a3) :=
  survives_V rfl (f18_13_4_fields 0x01800004 3 4 a1 a2 a3 rfl (by decide) (by decide)) (by exact ⟨rfl, rfl, rfl⟩) fun _ w ⟨h1, h2, n0, f0, f1, f2⟩ => by
    unfold decodeOps decodeV; rw [h1, h2, n0, f0, f1, f2]; rfl

theorem vcos a1 a2 a3 : Statement (.vcos a1 a2 a3) :=
  survives_V rfl (f18_13_4_fields 0x01800005 3 5 a1 a2 a3 rfl (by decide) (by decide)) (by exact ⟨rfl, rfl, rfl⟩) fun _ w ⟨h1, h2, n0, f0, f1, f2⟩ => by
    unfold decodeOps decodeV; rw [h1, h2, n0, f0, f1, f2]; rfl

theorem vtanh a1 a2 a3 : Statement (.vtanh a1 a2 a3) :=
  survives_V rfl (f18_13_4_fields 0x01800006 3 6 a1 a2 a3 rfl (by decide) (by decide)) (by exact ⟨rfl, rfl, rfl⟩) fun _ w ⟨h1, h2, n0, f0, f1, f2⟩ => by
    unfold decodeOps decodeV; rw [h1, h2, n0, f0, f1, f2]; rfl

theorem vsqrt a1 a2 a3 : Statement (.vsqrt a1 a2 a3) :=
  survives_V rfl (f18_13_4_fields 0x01800007 3 7 a1 a2 a3 rfl (by decide) (by decide)) (by exact ⟨rfl, rfl, rfl⟩) fun _ w ⟨h1, h2, n0, f0, f1, f2⟩ => by
    unfold decodeOps decodeV; rw [h1, h2, n0, f0, f1, f2]; rfl

theorem vabs a1 a2 a3 : Statement (.vabs a1 a2 a3) :=
  survives_V rfl (f18_13_4_fields 0x01800008 3 8 a1 a2 a3 rfl (by decide) (by decide)) (by exact ⟨rfl, rfl, rfl⟩) fun _ w ⟨h1, h2, n0, f0, f1, f2⟩ => by
    unfold decodeOps decodeV; rw [h1, h2, n0, f0, f1, f2]; rfl

theorem vneg a1 a2 a3 : Statement (.vneg a1 a2 a3) :=
  survives_V rfl (f18_13_4_fields 0x01800009 3 9 a1 a2 a3 rfl (by decide) (by decide)) (by exact ⟨rfl, rfl, rfl⟩) fun _ w ⟨h1, h2, n0, f0, f1, f2⟩ => by
    unfold decodeOps decodeV; rw [h1, h2, n0, f0, f1, f2]; rfl

theorem viadd a1 a2 a3 a4 : Statement (.viadd a1 a2 a3 a4) :=
  survives_V rfl (f18_13_8_4_fields 0x08000000 16 0 a1 a2 a3 a4 rfl (by decide) (by decide)) (by exact ⟨rfl, rfl, rfl⟩) fun _ w ⟨h1, h2, f0, f1, f2, f3⟩ => by
    unfold decodeOps decodeV; rw [h1, h2, f0, f1, f2, f3]; rfl

theorem visub a1 a2 a3 a4 : Statement (.visub a1 a2 a3 a4) :=
  survives_V rfl (f18_13_8_4_fields 0x08000001 16 1 a1 a2 a3 a4 rfl (by decide) (by decide)) (by exact ⟨rfl, rfl, rfl⟩) fun _ w ⟨h1, h2, f0, f1, f2, f3⟩ => by
    unfold decodeOps decodeV; rw [h1, h2, f0, f1, f2, f3]; rfl

theorem vimul a1 a2 a3 a4 : Statement (.vimul a1 a2 a3 a4) :=
  survives_V rfl (f18_13_8_4_fields 0x08000002 16 2 a1 a2 a3 a4 rfl (by decide) (by decide)) (by exact ⟨rfl, rfl, rfl⟩) fun _ w ⟨h1, h2, f0, f1, f2, f3⟩ => by
    unfold decodeOps decodeV; rw [h1, h2, f0, f1, f2, f3]; rfl

theorem vimin a1 a2 a3 a4 : Statement (.vimin a1 a2 a3 a4) :=
  survives_V rfl (f18_13_8_4_fields 0x08000003 16 3 a1 a2 a3 a4 rfl (by decide) (by decide)) (by exact ⟨rfl, rfl, rfl⟩) fun _ w ⟨h1, h2, f0, f1, f2, f3⟩ => by
    unfold decodeOps decodeV; rw [h1, h2, f0, f1, f2, f3]; rfl

theorem vimax a1 a2 a3 a4 : Statement (.vimax a1 a2 a3 a4) :=
  survives_V rfl (f18_13_8_4_fields 0x08000004 16 4 a1 a2 a3 a4 rfl (by decide) (by decide)) (by exact ⟨rfl, rfl, rfl⟩) fun _ w ⟨h1, h2, f0, f1, f2, f3⟩ => by
    unfold decodeOps decodeV; rw [h1, h2, f0, f1, f2, f3]; rfl

theorem viminu a1 a2 a3 a4 : Statement (.viminu a1 a2 a3 a4) :=
  survives_V rfl (f18_13_8_4_fields 0x08000005 16 5 a1 a2 a3 a4 rfl (by decide) (by decide)) (by exact ⟨rfl, rfl, rfl⟩) fun _ w ⟨h1, h2, f0, f1, f2, f3⟩ => by
    unfold decodeOps decodeV; rw [h1, h2, f0, f1, f2, f3]; rfl

theorem vimaxu a1 a2 a3 a4 : Statement (.vimaxu a1 a2 a3 a4) :=
  survives_V rfl (f18_13_8_4_fields 0x08000006 16 6 a1 a2 a3 a4 rfl (by decide) (by decide)) (by exact ⟨rfl, rfl, rfl⟩) fun _ w ⟨h1, h2, f0, f1, f2, f3⟩ => by
    unfold decodeOps decodeV; rw [h1, h2, f0, f1, f2, f3]; rfl

theorem viadds a1 a2 a3 a4 : Statement (.viadds a1 a2 a3 a4) :=
  survives_V rfl (f18_13_8_4_fields 0x08000007 16 7 a1 a2 a3 a4 rfl (by decide) (by decide)) (by exact ⟨rfl, rfl, rfl⟩) fun _ w ⟨h1, h2, f0, f1, f2, f3⟩ => by
    unfold decodeOps decodeV; rw [h1, h2, f0, f1, f2, f3]; rfl

theorem visubs a1 a2 a3 a4 : Statement (.visubs a1 a2 a3 a4) :=
  survives_V rfl (f18_13_8_4_fields 0x08000008 16 8 a1 a2 a3 a4 rfl (by decide) (by decide)) (by exact ⟨rfl, rfl, rfl⟩) fun _ w ⟨h1, h2, f0, f1, f2, f3⟩ => by
    unfold decodeOps decodeV; rw [h1, h2, f0, f1, f2, f3]; rfl

theorem vand a1 a2 a3 a4 : Statement (.vand a1 a2 a3 a4) :=
  survives_V rfl (f18_13_8_4_fields 0x08800000 17 0 a1 a2 a3 a4 rfl (by decide) (by decide)) (by exact ⟨rfl, rfl, rfl⟩) fun _ w ⟨h1, h2, f0, f1, f2, f3⟩ => by
    unfold decodeOps decodeV; rw [h1, h2, f0, f1, f2, f3]; rfl

theorem vor a1 a2 a3 a4 : Statement (.vor a1 a2 a3 a4) :=
  survives_V rfl (f18_13_8_4_fields 0x08800001 17 1 a1 a2 a3 a4 rfl (by decide) (by decide)) (by exact ⟨rfl, rfl, rfl⟩) fun _ w ⟨h1, h2, f0, f1, f2, f3⟩ => by
    unfold decodeOps decodeV; rw [h1, h2, f0, f1, f2, f3]; rfl

theorem vxor a1 a2 a3 a4 : Statement (.vxor a1 a2 a3 a4) :=
  survives_V rfl (f18_13_8_4_fields 0x08800002 17 2 a1 a2 a3 a4 rfl (by decide) (by decide)) (by exact ⟨rfl, rfl, rfl⟩) fun _ w ⟨h1, h2, f0, f1, f2, f3⟩ => by
    unfold decodeOps decodeV; rw [h1, h2, f0, f1, f2, f3]; rfl

theorem vandn a1 a2 a3 a4 : Statement (.vandn a1 a2 a3 a4) :=
  survives_V rfl (f18_13_8_4_fields 0x08800003 17 3 a1 a2 a3 a4 rfl (by decide) (by decide)) (by exact ⟨rfl, rfl, rfl⟩) fun _ w ⟨h1, h2, f0, f1, f2, f3⟩ => by
    unfold decodeOps decodeV; rw [h1, h2, f0, f1, f2, f3]; rfl

theorem vshl a1 a2 a3 a4 : Statement (.vshl a1 a2 a3 a4) :=
  survives_V rfl (f18_13_8_4_fields 0x08800004 17 4 a1 a2 a3 a4 rfl (by decide) (by decide)) (by exact ⟨rfl, rfl, rfl⟩) fun _ w ⟨h1, h2, f0, f1, f2, f3⟩ => by
    unfold decodeOps decodeV; rw [h1, h2, f0, f1, f2, f3]; rfl

theorem vshr a1 a2 a3 a4 : Statement (.vshr a1 a2 a3 a4) :=
  survives_V rfl (f18_13_8_4_fields 0x08800005 17 5 a1 a2 a3 a4 rfl (by decide) (by decide)) (by exact ⟨rfl, rfl, rfl⟩) fun _ w ⟨h1, h2, f0, f1, f2, f3⟩ => by
    unfold decodeOps decodeV; rw [h1, h2, f0, f1, f2, f3]; rfl

theorem vsar a1 a2 a3 a4 : Statement (.vsar a1 a2 a3 a4) :=
  survives_V rfl (f18_13_8_4_fields 0x08800006 17 6 a1 a2 a3 a4 rfl (by decide) (by decide)) (by exact ⟨rfl, rfl, rfl⟩) fun _ w ⟨h1, h2, f0, f1, f2, f3⟩ => by
    unfold decodeOps decodeV; rw [h1, h2, f0, f1, f2, f3]; rfl

theorem vclz a1 a2 a3 : Statement (.vclz a1 a2 a3) :=
  survives_V rfl (f18_13_4_fields 0x08800007 17 7 a1 a2 a3 rfl (by decide) (by decide)) (by exact ⟨rfl, rfl, rfl⟩) fun _ w ⟨h1, h2, n0, f0, f1, f2⟩ => by
    unfold decodeOps decodeV; rw [h1, h2, n0, f0, f1, f2]; rfl

theorem vpopc a1 a2 a3 : Statement (.vpopc a1 a2 a3) :=
  survives_V rfl (f18_13_4_fields 0x08800008 17 8 a1 a2 a3 rfl (by decide) (by decide)) (by exact ⟨rfl, rfl, rfl⟩) fun _ w ⟨h1, h2, n0, f0, f1, f2⟩ => by
    unfold decodeOps decodeV; rw [h1, h2, n0, f0, f1, f2]; rfl

theorem vfshl a1 a2 a3 a4 : Statement (.vfshl a1 a2 a3 a4) :=
  survives_V rfl (f18_13_8_4_fields 0x09000000 18 0 a1 a2 a3 a4 rfl (by decide) (by decide)) (by exact ⟨rfl, rfl, rfl⟩) fun _ w ⟨h1, h2, f0, f1, f2, f3⟩ => by
    unfold decodeOps decodeV; rw [h1, h2, f0, f1, f2, f3]; rfl

theorem vfshr a1 a2 a3 a4 : Statement (.vfshr a1 a2 a3 a4) :=
  survives_V rfl (f18_13_8_4_fields 0x09000001 18 1 a1 a2 a3 a4 rfl (by decide) (by decide)) (by exact ⟨rfl, rfl, rfl⟩) fun _ w ⟨h1, h2, f0, f1, f2, f3⟩ => by
    unfold decodeOps decodeV; rw [h1, h2, f0, f1, f2, f3]; rfl

theorem vfceq a1 a2 a3 a4 : Statement (.vfceq a1 a2 a3 a4) :=
  survives_V rfl (f19_13_8_4_fields 0x0C000000 24 0 a1 a2 a3 a4 rfl (by decide) (by decide)) (by exact ⟨rfl, rfl, rfl⟩) fun _ w ⟨h1, h2, n0, f0, f1, f2, f3⟩ => by
    unfold decodeOps decodeV; rw [h1, h2, n0, f0, f1, f2, f3]; rfl

theorem vfclt a1 a2 a3 a4 : Statement (.vfclt a1 a2 a3 a4) :=
  survives_V rfl (f19_13_8_4_fields 0x0C000001 24 1 a1 a2 a3 a4 rfl (by decide) (by decide)) (by exact ⟨rfl, rfl, rfl⟩) fun _ w ⟨h1, h2, n0, f0, f1, f2, f3⟩ => by
    unfold decodeOps decodeV; rw [h1, h2, n0, f0, f1, f2, f3]; rfl

theorem vfcle a1 a2 a3 a4 : Statement (.vfcle a1 a2 a3 a4) :=
  survives_V rfl (f19_13_8_4_fields 0x0C000002 24 2 a1 a2 a3 a4 rfl (by decide) (by decide)) (by exact ⟨rfl, rfl, rfl⟩) fun _ w ⟨h1, h2, n0, f0, f1, f2, f3⟩ => by
    unfold decodeOps decodeV; rw [h1, h2, n0, f0, f1, f2, f3]; rfl

theorem vfcun a1 a2 a3 a4 : Statement (.vfcun a1 a2 a3 a4) :=
  survives_V rfl (f19_13_8_4_fields 0x0C000003 24 3 a1 a2 a3 a4 rfl (by decide) (by decide)) (by exact ⟨rfl, rfl, rfl⟩) fun _ w ⟨h1, h2, n0, f0, f1, f2, f3⟩ => by
    unfold decodeOps decodeV; rw [h1, h2, n0, f0, f1, f2, f3]; rfl

theorem viceq a1 a2 a3 a4 : Statement (.viceq a1 a2 a3 a4) :=
  survives_V rfl (f19_13_8_4_fields 0x0C800000 25 0 a1 a2 a3 a4 rfl (by decide) (by decide)) (by exact ⟨rfl, rfl, rfl⟩) fun _ w ⟨h1, h2, n0, f0, f1, f2, f3⟩ => by
    unfold decodeOps decodeV; rw [h1, h2, n0, f0, f1, f2, f3]; rfl

theorem viclt a1 a2 a3 a4 : Statement (.viclt a1 a2 a3 a4) :=
  survives_V rfl (f19_13_8_4_fields 0x0C800001 25 1 a1 a2 a3 a4 rfl (by decide) (by decide)) (by exact ⟨rfl, rfl, rfl⟩) fun _ w ⟨h1, h2, n0, f0, f1, f2, f3⟩ => by
    unfold decodeOps decodeV; rw [h1, h2, n0, f0, f1, f2, f3]; rfl

theorem vicle a1 a2 a3 a4 : Statement (.vicle a1 a2 a3 a4) :=
  survives_V rfl (f19_13_8_4_fields 0x0C800002 25 2 a1 a2 a3 a4 rfl (by decide) (by decide)) (by exact ⟨rfl, rfl, rfl⟩) fun _ w ⟨h1, h2, n0, f0, f1, f2, f3⟩ => by
    unfold decodeOps decodeV; rw [h1, h2, n0, f0, f1, f2, f3]; rfl

theorem vicltu a1 a2 a3 a4 : Statement (.vicltu a1 a2 a3 a4) :=
  survives_V rfl (f19_13_8_4_fields 0x0C800003 25 3 a1 a2 a3 a4 rfl (by decide) (by decide)) (by exact ⟨rfl, rfl, rfl⟩) fun _ w ⟨h1, h2, n0, f0, f1, f2, f3⟩ => by
    unfold decodeOps decodeV; rw [h1, h2, n0, f0, f1, f2, f3]; rfl

theorem vicleu a1 a2 a3 a4 : Statement (.vicleu a1 a2 a3 a4) :=
  survives_V rfl (f19_13_8_4_fields 0x0C800004 25 4 a1 a2 a3 a4 rfl (by decide) (by decide)) (by exact ⟨rfl, rfl, rfl⟩) fun _ w ⟨h1, h2, n0, f0, f1, f2, f3⟩ => by
    unfold decodeOps decodeV; rw [h1, h2, n0, f0, f1, f2, f3]; rfl

theorem vsel a1 a2 a3 a4 : Statement (.vsel a1 a2 a3 a4) :=
  survives_V rfl (f18_13_8_4_2_fields 0x0D000000 26 a1 a2 a3 a4 rfl (by decide)) (by exact ⟨rfl, rfl, rfl⟩) fun _ w ⟨h1, n0, f0, f1, f2, f3⟩ => by
    unfold decodeOps decodeV; rw [h1, n0, f0, f1, f2, f3]; rfl

theorem vcvt a1 a2 a3 a4 a5 a6 a7 : Statement (.vcvt a1 a2 a3 a4 a5 a6 a7) :=
  survives_V rfl (f18_13_10_9_7_5_1_fields 0x0E000000 28 a1 a2 a3 a4 a5 a6 a7 rfl (by decide)) (by exact ⟨rfl, rfl, rfl⟩) fun _ w ⟨h1, n0, f0, f1, f2, f3, f4, f5, f6⟩ => by
    unfold decodeOps decodeV; rw [h1, n0, f0, f1, f2, f3, f4, f5, f6]; rfl

theorem vpack a1 a2 a3 a4 a5 a6 a7 : Statement (.vpack a1 a2 a3 a4 a5 a6 a7) :=
  survives_V rfl (f18_13_10_9_7_5_1_fields 0x0E800000 29 a1 a2 a3 a4 a5 a6 a7 rfl (by decide)) (by exact ⟨rfl, rfl, rfl⟩) fun _ w ⟨h1, n0, f0, f1, f2, f3, f4, f5, f6⟩ => by
    unfold decodeOps decodeV; rw [h1, n0, f0, f1, f2, f3, f4, f5, f6]; rfl

theorem vunpl a1 a2 a3 a4 a5 a6 a7 : Statement (.vunpl a1 a2 a3 a4 a5 a6 a7) :=
  survives_V rfl (f18_13_10_9_7_5_1_fields 0x0F000000 30 a1 a2 a3 a4 a5 a6 a7 rfl (by decide)) (by exact ⟨rfl, rfl, rfl⟩) fun _ w ⟨h1, n0, f0, f1, f2, f3, f4, f5, f6⟩ => by
    unfold decodeOps decodeV; rw [h1, n0, f0, f1, f2, f3, f4, f5, f6]; rfl

theorem vunph a1 a2 a3 a4 a5 a6 a7 : Statement (.vunph a1 a2 a3 a4 a5 a6 a7) :=
  survives_V rfl (f18_13_10_9_7_5_1_fields 0x0F800000 31 a1 a2 a3 a4 a5 a6 a7 rfl (by decide)) (by exact ⟨rfl, rfl, rfl⟩) fun _ w ⟨h1, n0, f0, f1, f2, f3, f4, f5, f6⟩ => by
    unfold decodeOps decodeV; rw [h1, n0, f0, f1, f2, f3, f4, f5, f6]; rfl

theorem vaddi a1 a2 : Statement (.vaddi a1 a2) :=
  survives_V rfl (f18_2_fields 0x10000000 32 0 a1 a2 rfl (by decide) (by decide)) (by exact ⟨rfl, rfl, rfl⟩) fun _ w ⟨h1, h2, f0, f1⟩ => by
    unfold decodeOps decodeV; rw [h1, h2, f0, f1]; rfl

theorem vmuli a1 a2 : Statement (.vmuli a1 a2) :=
  survives_V rfl (f18_2_fields 0x10000001 32 1 a1 a2 rfl (by decide) (by decide)) (by exact ⟨rfl, rfl, rfl⟩) fun _ w ⟨h1, h2, f0, f1⟩ => by
    unfold decodeOps decodeV; rw [h1, h2, f0, f1]; rfl

theorem vmaxi a1 a2 : Statement (.vmaxi a1 a2) :=
  survives_V rfl (f18_2_fields 0x10000002 32 2 a1 a2 rfl (by decide) (by decide)) (by exact ⟨rfl, rfl, rfl⟩) fun _ w ⟨h1, h2, f0, f1⟩ => by
    unfold decodeOps decodeV; rw [h1, h2, f0, f1]; rfl

theorem vmini a1 a2 : Statement (.vmini a1 a2) :=
  survives_V rfl (f18_2_fields 0x10000003 32 3 a1 a2 rfl (by decide) (by decide)) (by exact ⟨rfl, rfl, rfl⟩) fun _ w ⟨h1, h2, f0, f1⟩ => by
    unfold decodeOps decodeV; rw [h1, h2, f0, f1]; rfl

theorem viaddi a1 a2 : Statement (.viaddi a1 a2) :=
  survives_V rfl (f18_2_fields 0x10800000 33 0 a1 a2 rfl (by decide) (by decide)) (by exact ⟨rfl, rfl, rfl⟩) fun _ w ⟨h1, h2, f0, f1⟩ => by
    unfold decodeOps decodeV; rw [h1, h2, f0, f1]; rfl

theorem viandi a1 a2 : Statement (.viandi a1 a2) :=
  survives_V rfl (f18_2_fields 0x10800001 33 1 a1 a2 rfl (by decide) (by decide)) (by exact ⟨rfl, rfl, rfl⟩) fun _ w ⟨h1, h2, f0, f1⟩ => by
    unfold decodeOps decodeV; rw [h1, h2, f0, f1]; rfl

theorem vishli a1 a2 : Statement (.vishli a1 a2) :=
  survives_V rfl (f18_2_fields 0x10800002 33 2 a1 a2 rfl (by decide) (by decide)) (by exact ⟨rfl, rfl, rfl⟩) fun _ w ⟨h1, h2, f0, f1⟩ => by
    unfold decodeOps decodeV; rw [h1, h2, f0, f1]; rfl

theorem vishri a1 a2 : Statement (.vishri a1 a2) :=
  survives_V rfl (f18_2_fields 0x10800003 33 3 a1 a2 rfl (by decide) (by decide)) (by exact ⟨rfl, rfl, rfl⟩) fun _ w ⟨h1, h2, f0, f1⟩ => by
    unfold decodeOps decodeV; rw [h1, h2, f0, f1]; rfl

theorem qand a1 a2 a3 : Statement (.qand a1 a2 a3) :=
  survives_V rfl (f19_15_11_fields 0x14000000 40 0 a1 a2 a3 rfl (by decide) (by decide)) (by exact ⟨rfl, rfl, rfl⟩) fun _ w ⟨h1, h2, n0, f0, f1, f2⟩ => by
    unfold decodeOps decodeV; rw [h1, h2, n0, f0, f1, f2]; rfl

theorem qor a1 a2 a3 : Statement (.qor a1 a2 a3) :=
  survives_V rfl (f19_15_11_fields 0x14000001 40 1 a1 a2 a3 rfl (by decide) (by decide)) (by exact ⟨rfl, rfl, rfl⟩) fun _ w ⟨h1, h2, n0, f0, f1, f2⟩ => by
    unfold decodeOps decodeV; rw [h1, h2, n0, f0, f1, f2]; rfl

theorem qxor a1 a2 a3 : Statement (.qxor a1 a2 a3) :=
  survives_V rfl (f19_15_11_fields 0x14000002 40 2 a1 a2 a3 rfl (by decide) (by decide)) (by exact ⟨rfl, rfl, rfl⟩) fun _ w ⟨h1, h2, n0, f0, f1, f2⟩ => by
    unfold decodeOps decodeV; rw [h1, h2, n0, f0, f1, f2]; rfl

theorem qandn a1 a2 a3 : Statement (.qandn a1 a2 a3) :=
  survives_V rfl (f19_15_11_fields 0x14000003 40 3 a1 a2 a3 rfl (by decide) (by decide)) (by exact ⟨rfl, rfl, rfl⟩) fun _ w ⟨h1, h2, n0, f0, f1, f2⟩ => by
    unfold decodeOps decodeV; rw [h1, h2, n0, f0, f1, f2]; rfl

theorem qnot a1 a2 : Statement (.qnot a1 a2) :=
  survives_V rfl (f19_15_fields 0x14000004 40 4 a1 a2 rfl (by decide) (by decide)) (by exact ⟨rfl, rfl, rfl⟩) fun _ w ⟨h1, h2, n0, f0, f1⟩ => by
    unfold decodeOps decodeV; rw [h1, h2, n0, f0, f1]; rfl

theorem qgath a1 a2 a3 : Statement (.qgath a1 a2 a3) :=
  survives_V rfl (f19_15_10_fields 0x14800000 41 a1 a2 a3 rfl (by decide)) (by exact ⟨rfl, rfl, rfl⟩) fun _ w ⟨h1, n0, f0, f1, f2⟩ => by
    unfold decodeOps decodeV; rw [h1, n0, f0, f1, f2]; rfl

theorem qseti a1 a2 : Statement (.qseti a1 a2) :=
  survives_V rfl (f19_0_fields 0x15000000 42 a1 a2 rfl (by decide)) (by exact ⟨rfl, rfl, rfl⟩) fun _ w ⟨h1, n0, f0, f1⟩ => by
    unfold decodeOps decodeV; rw [h1, n0, f0, f1]; rfl

theorem qfromv a1 a2 : Statement (.qfromv a1 a2) :=
  survives_V rfl (f19_14_fields 0x15800000 43 a1 a2 rfl (by decide)) (by exact ⟨rfl, rfl, rfl⟩) fun _ w ⟨h1, n0, f0, f1⟩ => by
    unfold decodeOps decodeV; rw [h1, n0, f0, f1]; rfl

theorem vld a1 a2 a3 a4 a5 : Statement (.vld a1 a2 a3 a4 a5) :=
  survives_V rfl (f18_14_10_4_0_fields 0x18000000 48 a1 a2 a3 a4 a5 rfl (by decide)) (by exact ⟨rfl, rfl, rfl⟩) fun _ w ⟨h1, n0, n1, f0, f1, f2, f3, f4⟩ => by
    unfold decodeOps decodeV; rw [h1, n0, n1, f0, f1, f2, f3, f4]; rfl

theorem vst a1 a2 a3 a4 a5 : Statement (.vst a1 a2 a3 a4 a5) :=
  survives_V rfl (f18_14_10_4_0_fields 0x18800000 49 a1 a2 a3 a4 a5 rfl (by decide)) (by exact ⟨rfl, rfl, rfl⟩) fun _ w ⟨h1, n0, n1, f0, f1, f2, f3, f4⟩ => by
    unfold decodeOps decodeV; rw [h1, n0, n1, f0, f1, f2, f3, f4]; rfl

theorem vlda a1 a2 a3 a4 a5 : Statement (.vlda a1 a2 a3 a4 a5) :=
  survives_V rfl (f18_12_8_4_0_fields 0x19000000 50 0 a1 a2 a3 a4 a5 rfl (by decide) (by decide)) (by exact ⟨rfl, rfl, rfl⟩) fun _ w ⟨h1, h2, f0, f1, f2, f3, f4⟩ => by
    unfold decodeOps decodeV; rw [h1, h2, f0, f1, f2, f3, f4]; rfl

theorem vsta a1 a2 a3 a4 a5 : Statement (.vsta a1 a2 a3 a4 a5) :=
  survives_V rfl (f18_12_8_4_0_fields 0x19000004 50 1 a1 a2 a3 a4 a5 rfl (by decide) (by decide)) (by exact ⟨rfl, rfl, rfl⟩) fun _ w ⟨h1, h2, f0, f1, f2, f3, f4⟩ => by
    unfold decodeOps decodeV; rw [h1, h2, f0, f1, f2, f3, f4]; rfl

theorem vldt a1 a2 a3 a4 a5 : Statement (.vldt a1 a2 a3 a4 a5) :=
  survives_V rfl (f18_12_6_2_0_fields 0x19800000 51 a1 a2 a3 a4 a5 rfl (by decide)) (by exact ⟨rfl, rfl, rfl⟩) fun _ w ⟨h1, f0, f1, f2, f3, f4⟩ => by
    unfold decodeOps decodeV; rw [h1, f0, f1, f2, f3, f4]; rfl

theorem vstm a1 a2 a3 a4 a5 : Statement (.vstm a1 a2 a3 a4 a5) :=
  survives_V rfl (f18_12_8_5_0_fields 0x1A000000 52 a1 a2 a3 a4 a5 rfl (by decide)) (by exact ⟨rfl, rfl, rfl⟩) fun _ w ⟨h1, n0, f0, f1, f2, f3, f4⟩ => by
    unfold decodeOps decodeV; rw [h1, n0, f0, f1, f2, f3, f4]; rfl

theorem vgath a1 a2 a3 a4 a5 : Statement (.vgath a1 a2 a3 a4 a5) :=
  survives_V rfl (f18_13_7_3_0_fields 0x1A800000 53 a1 a2 a3 a4 a5 rfl (by decide)) (by exact ⟨rfl, rfl, rfl⟩) fun _ w ⟨h1, n0, f0, f1, f2, f3, f4⟩ => by
    unfold decodeOps decodeV; rw [h1, n0, f0, f1, f2, f3, f4]; rfl

theorem vscat a1 a2 a3 a4 a5 : Statement (.vscat a1 a2 a3 a4 a5) :=
  survives_V rfl (f18_13_7_3_0_fields 0x1B000000 54 a1 a2 a3 a4 a5 rfl (by decide)) (by exact ⟨rfl, rfl, rfl⟩) fun _ w ⟨h1, n0, f0, f1, f2, f3, f4⟩ => by
    unfold decodeOps decodeV; rw [h1, n0, f0, f1, f2, f3, f4]; rfl

theorem vstb a1 a2 a3 : Statement (.vstb a1 a2 a3) :=
  survives_V rfl (f18_14_4_fields 0x1B800000 55 a1 a2 a3 rfl (by decide)) (by exact ⟨rfl, rfl, rfl⟩) fun _ w ⟨h1, n0, n1, f0, f1, f2⟩ => by
    unfold decodeOps decodeV; rw [h1, n0, n1, f0, f1, f2]; rfl

theorem vradd a1 a2 a3 : Statement (.vradd a1 a2 a3) :=
  survives_V rfl (f18_13_4_fields 0x1C000000 56 0 a1 a2 a3 rfl (by decide) (by decide)) (by exact ⟨rfl, rfl, rfl⟩) fun _ w ⟨h1, h2, n0, f0, f1, f2⟩ => by
    unfold decodeOps decodeV; rw [h1, h2, n0, f0, f1, f2]; rfl

theorem vrmax a1 a2 a3 : Statement (.vrmax a1 a2 a3) :=
  survives_V rfl (f18_13_4_fields 0x1C000001 56 1 a1 a2 a3 rfl (by decide) (by decide)) (by exact ⟨rfl, rfl, rfl⟩) fun _ w ⟨h1, h2, n0, f0, f1, f2⟩ => by
    unfold decodeOps decodeV; rw [h1, h2, n0, f0, f1, f2]; rfl

theorem vrmin a1 a2 a3 : Statement (.vrmin a1 a2 a3) :=
  survives_V rfl (f18_13_4_fields 0x1C000002 56 2 a1 a2 a3 rfl (by decide) (by decide)) (by exact ⟨rfl, rfl, rfl⟩) fun _ w ⟨h1, h2, n0, f0, f1, f2⟩ => by
    unfold decodeOps decodeV; rw [h1, h2, n0, f0, f1, f2]; rfl

theorem vradds a1 a2 a3 : Statement (.vradds a1 a2 a3) :=
  survives_V rfl (f18_13_4_fields 0x1C000003 56 3 a1 a2 a3 rfl (by decide) (by decide)) (by exact ⟨rfl, rfl, rfl⟩) fun _ w ⟨h1, h2, n0, f0, f1, f2⟩ => by
    unfold decodeOps decodeV; rw [h1, h2, n0, f0, f1, f2]; rfl

theorem vrmaxs a1 a2 a3 : Statement (.vrmaxs a1 a2 a3) :=
  survives_V rfl (f18_13_4_fields 0x1C000004 56 4 a1 a2 a3 rfl (by decide) (by decide)) (by exact ⟨rfl, rfl, rfl⟩) fun _ w ⟨h1, h2, n0, f0, f1, f2⟩ => by
    unfold decodeOps decodeV; rw [h1, h2, n0, f0, f1, f2]; rfl

theorem vrmins a1 a2 a3 : Statement (.vrmins a1 a2 a3) :=
  survives_V rfl (f18_13_4_fields 0x1C000005 56 5 a1 a2 a3 rfl (by decide) (by decide)) (by exact ⟨rfl, rfl, rfl⟩) fun _ w ⟨h1, h2, n0, f0, f1, f2⟩ => by
    unfold decodeOps decodeV; rw [h1, h2, n0, f0, f1, f2]; rfl

theorem vcadd a1 a2 a3 : Statement (.vcadd a1 a2 a3) :=
  survives_V rfl (f18_13_4_fields 0x1C800000 57 0 a1 a2 a3 rfl (by decide) (by decide)) (by exact ⟨rfl, rfl, rfl⟩) fun _ w ⟨h1, h2, n0, f0, f1, f2⟩ => by
    unfold decodeOps decodeV; rw [h1, h2, n0, f0, f1, f2]; rfl

theorem vcmax a1 a2 a3 : Statement (.vcmax a1 a2 a3) :=
  survives_V rfl (f18_13_4_fields 0x1C800001 57 1 a1 a2 a3 rfl (by decide) (by decide)) (by exact ⟨rfl, rfl, rfl⟩) fun _ w ⟨h1, h2, n0, f0, f1, f2⟩ => by
    unfold decodeOps decodeV; rw [h1, h2, n0, f0, f1, f2]; rfl

theorem vcmin a1 a2 a3 : Statement (.vcmin a1 a2 a3) :=
  survives_V rfl (f18_13_4_fields 0x1C800002 57 2 a1 a2 a3 rfl (by decide) (by decide)) (by exact ⟨rfl, rfl, rfl⟩) fun _ w ⟨h1, h2, n0, f0, f1, f2⟩ => by
    unfold decodeOps decodeV; rw [h1, h2, n0, f0, f1, f2]; rfl

theorem vcadds a1 a2 a3 : Statement (.vcadds a1 a2 a3) :=
  survives_V rfl (f18_13_4_fields 0x1C800003 57 3 a1 a2 a3 rfl (by decide) (by decide)) (by exact ⟨rfl, rfl, rfl⟩) fun _ w ⟨h1, h2, n0, f0, f1, f2⟩ => by
    unfold decodeOps decodeV; rw [h1, h2, n0, f0, f1, f2]; rfl

theorem vcmaxs a1 a2 a3 : Statement (.vcmaxs a1 a2 a3) :=
  survives_V rfl (f18_13_4_fields 0x1C800004 57 4 a1 a2 a3 rfl (by decide) (by decide)) (by exact ⟨rfl, rfl, rfl⟩) fun _ w ⟨h1, h2, n0, f0, f1, f2⟩ => by
    unfold decodeOps decodeV; rw [h1, h2, n0, f0, f1, f2]; rfl

theorem vcmins a1 a2 a3 : Statement (.vcmins a1 a2 a3) :=
  survives_V rfl (f18_13_4_fields 0x1C800005 57 5 a1 a2 a3 rfl (by decide) (by decide)) (by exact ⟨rfl, rfl, rfl⟩) fun _ w ⟨h1, h2, n0, f0, f1, f2⟩ => by
    unfold decodeOps decodeV; rw [h1, h2, n0, f0, f1, f2]; rfl

theorem vrrot a1 a2 a3 a4 : Statement (.vrrot a1 a2 a3 a4) :=
  survives_V rfl (f18_13_7_3_fields 0x1D000000 58 0 a1 a2 a3 a4 rfl (by decide) (by decide)) (by exact ⟨rfl, rfl, rfl⟩) fun _ w ⟨h1, h2, f0, f1, f2, f3⟩ => by
    unfold decodeOps decodeV; rw [h1, h2, f0, f1, f2, f3]; rfl

theorem vcrot a1 a2 a3 a4 : Statement (.vcrot a1 a2 a3 a4) :=
  survives_V rfl (f18_13_7_3_fields 0x1D000001 58 1 a1 a2 a3 a4 rfl (by decide) (by decide)) (by exact ⟨rfl, rfl, rfl⟩) fun _ w ⟨h1, h2, f0, f1, f2, f3⟩ => by
    unfold decodeOps decodeV; rw [h1, h2, f0, f1, f2, f3]; rfl

theorem vrbc a1 a2 a3 a4 : Statement (.vrbc a1 a2 a3 a4) :=
  survives_V rfl (f18_13_7_3_fields 0x1D000002 58 2 a1 a2 a3 a4 rfl (by decide) (by decide)) (by exact ⟨rfl, rfl, rfl⟩) fun _ w ⟨h1, h2, f0, f1, f2, f3⟩ => by
    unfold decodeOps decodeV; rw [h1, h2, f0, f1, f2, f3]; rfl

theorem vcbc a1 a2 a3 a4 : Statement (.vcbc a1 a2 a3 a4) :=
  survives_V rfl (f18_13_7_3_fields 0x1D000003 58 3 a1 a2 a3 a4 rfl (by decide) (by decide)) (by exact ⟨rfl, rfl, rfl⟩) fun _ w ⟨h1, h2, f0, f1, f2, f3⟩ => by
    unfold decodeOps decodeV; rw [h1, h2, f0, f1, f2, f3]; rfl

theorem vpart a1 a2 a3 a4 : Statement (.vpart a1 a2 a3 a4) :=
  survives_V rfl (f18_13_7_3_2_fields 0x1D800000 59 a1 a2 a3 a4 rfl (by decide)) (by exact ⟨rfl, rfl, rfl⟩) fun _ w ⟨h1, n0, f0, f1, f2, f3⟩ => by
    unfold decodeOps decodeV; rw [h1, n0, f0, f1, f2, f3]; rfl

theorem vragg a1 a2 a3 a4 a5 : Statement (.vragg a1 a2 a3 a4 a5) :=
  survives_V rfl (f18_14_8_4_0_fields 0x1E000000 60 a1 a2 a3 a4 a5 rfl (by decide)) (by exact ⟨rfl, rfl, rfl⟩) fun _ w ⟨h1, f0, f1, f2, f3, f4⟩ => by
    unfold decodeOps decodeV; rw [h1, f0, f1, f2, f3, f4]; rfl

theorem vbnda a1 a2 a3 : Statement (.vbnda a1 a2 a3) :=
  survives_V rfl (f18_13_8_fields 0x1E800000 61 0 a1 a2 a3 rfl (by decide) (by decide)) (by exact ⟨rfl, rfl, rfl⟩) fun _ w ⟨h1, h2, n0, f0, f1, f2⟩ => by
    unfold decodeOps decodeV; rw [h1, h2, n0, f0, f1, f2]; rfl

theorem vbnds a1 a2 a3 : Statement (.vbnds a1 a2 a3) :=
  survives_V rfl (f18_13_5_fields 0x1E800001 61 1 a1 a2 a3 rfl (by decide) (by decide)) (by exact ⟨rfl, rfl, rfl⟩) fun _ w ⟨h1, h2, n0, f0, f1, f2⟩ => by
    unfold decodeOps decodeV; rw [h1, h2, n0, f0, f1, f2]; rfl

theorem shape a1 a2 a3 a4 a5 a6 a7 : Statement (.shape a1 a2 a3 a4 a5 a6 a7) :=
  survives_V rfl (f19_13_10_8_6_5_2_fields 0x1F000000 62 0 a1 a2 a3 a4 a5 a6 a7 rfl (by decide) (by decide)) (by exact ⟨rfl, rfl, rfl⟩) fun _ w ⟨h1, h2, f0, f1, f2, f3, f4, f5, f6⟩ => by
    unfold decodeOps decodeV; rw [h1, h2, f0, f1, f2, f3, f4, f5, f6]; rfl

theorem rrb a1 : Statement (.rrb a1) :=
  survives_V rfl (f19_fields 0x1F000001 62 1 a1 rfl (by decide) (by decide)) (by exact ⟨rfl, rfl, rfl⟩) fun _ w ⟨h1, h2, n0, f0⟩ => by
    unfold decodeOps decodeV; rw [h1, h2, n0, f0]; rfl

theorem mply a1 a2 a3 a4 a5 a6 : Statement (.mply a1 a2 a3 a4 a5 a6) :=
  survives_M rfl (f20_16_12_6_2_1_fields 0x00800000 1 a1 a2 a3 a4 a5 a6 rfl (by decide)) (by exact ⟨rfl, rfl, rfl⟩) fun _ w ⟨h1, n0, f0, f1, f2, f3, f4, f5⟩ => by
    unfold decodeOps decodeM; rw [h1, n0, f0, f1, f2, f3, f4, f5]; rfl

theorem mplyz a1 a2 a3 a4 a5 a6 : Statement (.mplyz a1 a2 a3 a4 a5 a6) :=
  survives_M rfl (f20_16_12_6_2_1_fields 0x01000000 2 a1 a2 a3 a4 a5 a6 rfl (by decide)) (by exact ⟨rfl, rfl, rfl⟩) fun _ w ⟨h1, n0, f0, f1, f2, f3, f4, f5⟩ => by
    unfold decodeOps decodeM; rw [h1, n0, f0, f1, f2, f3, f4, f5]; rfl

theorem mplyk a1 a2 a3 a4 a5 a6 : Statement (.mplyk a1 a2 a3 a4 a5 a6) :=
  survives_M rfl (f20_16_12_6_2_1_fields 0x01800000 3 a1 a2 a3 a4 a5 a6 rfl (by decide)) (by exact ⟨rfl, rfl, rfl⟩) fun _ w ⟨h1, n0, f0, f1, f2, f3, f4, f5⟩ => by
    unfold decodeOps decodeM; rw [h1, n0, f0, f1, f2, f3, f4, f5]; rfl

theorem mplyzk a1 a2 a3 a4 a5 a6 : Statement (.mplyzk a1 a2 a3 a4 a5 a6) :=
  survives_M rfl (f20_16_12_6_2_1_fields 0x02000000 4 a1 a2 a3 a4 a5 a6 rfl (by decide)) (by exact ⟨rfl, rfl, rfl⟩) fun _ w ⟨h1, n0, f0, f1, f2, f3, f4, f5⟩ => by
    unfold decodeOps decodeM; rw [h1, n0, f0, f1, f2, f3, f4, f5]; rfl

theorem mres a1 a2 a3 a4 a5 a6 : Statement (.mres a1 a2 a3 a4 a5 a6) :=
  survives_M rfl (f20_16_12_6_2_1_fields 0x02800000 5 a1 a2 a3 a4 a5 a6 rfl (by decide)) (by exact ⟨rfl, rfl, rfl⟩) fun _ w ⟨h1, n0, f0, f1, f2, f3, f4, f5⟩ => by
    unfold decodeOps decodeM; rw [h1, n0, f0, f1, f2, f3, f4, f5]; rfl

theorem mdrop a1 a2 : Statement (.mdrop a1 a2) :=
  survives_M rfl (f20_16_fields 0x03000000 6 a1 a2 rfl (by decide)) (by exact ⟨rfl, rfl, rfl⟩) fun _ w ⟨h1, n0, f0, f1⟩ => by
    unfold decodeOps decodeM; rw [h1, n0, f0, f1]; rfl

theorem mmad a1 a2 a3 a4 a5 a6 : Statement (.mmad a1 a2 a3 a4 a5 a6) :=
  survives_M rfl (f20_16_12_3_2_1_fields 0x03800000 7 a1 a2 a3 a4 a5 a6 rfl (by decide)) (by exact ⟨rfl, rfl, rfl⟩) fun _ w ⟨h1, n0, n1, f0, f1, f2, f3, f4, f5⟩ => by
    unfold decodeOps decodeM; rw [h1, n0, n1, f0, f1, f2, f3, f4, f5]; rfl

theorem mmask a1 a2 a3 a4 : Statement (.mmask a1 a2 a3 a4) :=
  survives_M rfl (f17_11_7_5_fields 0x04000000 8 a1 a2 a3 a4 rfl (by decide)) (by exact ⟨rfl, rfl, rfl⟩) fun _ w ⟨h1, n0, f0, f1, f2, f3⟩ => by
    unfold decodeOps decodeM; rw [h1, n0, f0, f1, f2, f3]; rfl

theorem mzero a1 : Statement (.mzero a1) :=
  survives_M rfl (f20_fields 0x04800000 9 a1 rfl (by decide)) (by exact ⟨rfl, rfl, rfl⟩) fun _ w ⟨h1, n0, f0⟩ => by
    unfold decodeOps decodeM; rw [h1, n0, f0]; rfl

theorem madd a1 a2 : Statement (.madd a1 a2) :=
  survives_M rfl (f20_17_fields 0x05000000 10 a1 a2 rfl (by decide)) (by exact ⟨rfl, rfl, rfl⟩) fun _ w ⟨h1, n0, f0, f1⟩ => by
    unfold decodeOps decodeM; rw [h1, n0, f0, f1]; rfl

theorem mout a1 a2 a3 a4 a5 a6 : Statement (.mout a1 a2 a3 a4 a5 a6) :=
  survives_M rfl (f20_16_12_10_8_4_fields 0x05800000 11 a1 a2 a3 a4 a5 a6 rfl (by decide)) (by exact ⟨rfl, rfl, rfl⟩) fun _ w ⟨h1, n0, f0, f1, f2, f3, f4, f5⟩ => by
    unfold decodeOps decodeM; rw [h1, n0, f0, f1, f2, f3, f4, f5]; rfl

theorem moutb a1 a2 : Statement (.moutb a1 a2) :=
  survives_M rfl (f20_15_fields 0x06000000 12 a1 a2 rfl (by decide)) (by exact ⟨rfl, rfl, rfl⟩) fun _ w ⟨h1, n0, f0, f1⟩ => by
    unfold decodeOps decodeM; rw [h1, n0, f0, f1]; rfl

theorem mscale a1 a2 : Statement (.mscale a1 a2) :=
  survives_M rfl (f20_15_fields 0x06800000 13 a1 a2 rfl (by decide)) (by exact ⟨rfl, rfl, rfl⟩) fun _ w ⟨h1, n0, f0, f1⟩ => by
    unfold decodeOps decodeM; rw [h1, n0, f0, f1]; rfl

theorem mbias a1 a2 : Statement (.mbias a1 a2) :=
  survives_M rfl (f20_15_fields 0x07000000 14 a1 a2 rfl (by decide)) (by exact ⟨rfl, rfl, rfl⟩) fun _ w ⟨h1, n0, f0, f1⟩ => by
    unfold decodeOps decodeM; rw [h1, n0, f0, f1]; rfl

theorem fetch a1 a2 a3 a4 a5 a6 a7 a8 a9 : Statement (.fetch a1 a2 a3 a4 a5 a6 a7 a8 a9) :=
  survives_X rfl (f20_16_10_6_4_3_2_0_fields 0x00800000 1 a1 a2 a3 a4 a5 a6 a7 a8 rfl (by decide)) (by exact ⟨rfl, rfl, rfl⟩) fun hw w ⟨h1, n0, f0, f1, f2, f3, f4, f5, f6, f7⟩ => by
    have hk := bits_of_fld f5
    unfold decodeOps decodeX
    rw [h1, n0, f0, f1, f2, f3, f4, f5, f6, f7, hk]
    cases a9 with
    | none =>
      obtain rfl : a6 = 0 := by
        refine bit_eq_zero fun h => ?_
        subst h
        simp [Instr.wellFormed] at hw
      rfl
    | some l =>
      obtain rfl : a6 = 1 := by
        refine bit_eq_one fun h => ?_
        subst h
        simp [Instr.wellFormed] at hw
      rfl

theorem rfetch a1 a2 a3 a4 a5 a6 a7 : Statement (.rfetch a1 a2 a3 a4 a5 a6 a7) :=
  survives_X rfl (f20_16_10_6_4_3_fields 0x01000000 2 a1 a2 a3 a4 a5 a6 rfl (by decide)) (by exact ⟨rfl, rfl, rfl⟩) fun _ w ⟨h1, n0, f0, f1, f2, f3, f4, f5⟩ => by
    unfold decodeOps decodeX; rw [h1, n0, f0, f1, f2, f3, f4, f5]; rfl

theorem stow a1 a2 a3 a4 a5 a6 a7 : Statement (.stow a1 a2 a3 a4 a5 a6 a7) :=
  survives_X rfl (f20_16_10_6_4_3_fields 0x01800000 3 a1 a2 a3 a4 a5 a6 rfl (by decide)) (by exact ⟨rfl, rfl, rfl⟩) fun hw w ⟨h1, n0, f0, f1, f2, f3, f4, f5⟩ => by
    have hk := bits_of_fld f5
    unfold decodeOps decodeX
    rw [h1, n0, f0, f1, f2, f3, f4, f5, hk]
    cases a7 with
    | none =>
      obtain rfl : a6 = 0 := by
        refine bit_eq_zero fun h => ?_
        subst h
        simp [Instr.wellFormed] at hw
      rfl
    | some l =>
      obtain rfl : a6 = 1 := by
        refine bit_eq_one fun h => ?_
        subst h
        simp [Instr.wellFormed] at hw
      rfl

theorem rstow a1 a2 a3 a4 a5 a6 a7 : Statement (.rstow a1 a2 a3 a4 a5 a6 a7) :=
  survives_X rfl (f20_16_10_6_4_3_fields 0x02000000 4 a1 a2 a3 a4 a5 a6 rfl (by decide)) (by exact ⟨rfl, rfl, rfl⟩) fun _ w ⟨h1, n0, f0, f1, f2, f3, f4, f5⟩ => by
    unfold decodeOps decodeX; rw [h1, n0, f0, f1, f2, f3, f4, f5]; rfl

theorem send a1 a2 a3 a4 a5 a6 : Statement (.send a1 a2 a3 a4 a5 a6) :=
  survives_X rfl (f20_16_12_6_2_fields 0x02800000 5 a1 a2 a3 a4 a5 rfl (by decide)) (by exact ⟨rfl, rfl, rfl⟩) fun _ w ⟨h1, n0, f0, f1, f2, f3, f4⟩ => by
    unfold decodeOps decodeX; rw [h1, n0, f0, f1, f2, f3, f4]; rfl

theorem sendb a1 a2 a3 a4 a5 a6 : Statement (.sendb a1 a2 a3 a4 a5 a6) :=
  survives_X rfl (f20_16_10_4_0_fields 0x03000000 6 a1 a2 a3 a4 a5 rfl (by decide)) (by exact ⟨rfl, rfl, rfl⟩) fun _ w ⟨h1, f0, f1, f2, f3, f4⟩ => by
    unfold decodeOps decodeX; rw [h1, f0, f1, f2, f3, f4]; rfl

theorem copy a1 a2 a3 a4 a5 : Statement (.copy a1 a2 a3 a4 a5) :=
  survives_X rfl (f20_14_4_3_fields 0x03800000 7 a1 a2 a3 a4 rfl (by decide)) (by exact ⟨rfl, rfl, rfl⟩) fun hw w ⟨h1, n0, n1, f0, f1, f2, f3⟩ => by
    have hk := bits_of_fld f3
    unfold decodeOps decodeX
    rw [h1, n0, n1, f0, f1, f2, f3, hk]
    cases a5 with
    | none =>
      obtain rfl : a4 = 0 := by
        refine bit_eq_zero fun h => ?_
        subst h
        simp [Instr.wellFormed] at hw
      rfl
    | some l =>
      obtain rfl : a4 = 1 := by
        refine bit_eq_one fun h => ?_
        subst h
        simp [Instr.wellFormed] at hw
      rfl

theorem weave a1 a2 a3 a4 a5 a6 : Statement (.weave a1 a2 a3 a4 a5 a6) :=
  survives_X rfl (f20_14_8_4_3_fields 0x04000000 8 a1 a2 a3 a4 a5 rfl (by decide)) (by exact ⟨rfl, rfl, rfl⟩) fun hw w ⟨h1, n0, f0, f1, f2, f3, f4⟩ => by
    have hk := bits_of_fld f4
    unfold decodeOps decodeX
    rw [h1, n0, f0, f1, f2, f3, f4, hk]
    cases a6 with
    | none =>
      obtain rfl : a5 = 0 := by
        refine bit_eq_zero fun h => ?_
        subst h
        simp [Instr.wellFormed] at hw
      rfl
    | some l =>
      obtain rfl : a5 = 1 := by
        refine bit_eq_one fun h => ?_
        subst h
        simp [Instr.wellFormed] at hw
      rfl

theorem probe a1 a2 a3 a4 a5 : Statement (.probe a1 a2 a3 a4 a5) :=
  survives_X rfl (f20_17_11_5_3_fields 0x04800000 9 a1 a2 a3 a4 a5 rfl (by decide)) (by exact ⟨rfl, rfl, rfl⟩) fun _ w ⟨h1, n0, f0, f1, f2, f3, f4⟩ => by
    unfold decodeOps decodeX; rw [h1, n0, f0, f1, f2, f3, f4]; rfl

theorem pinv a1 a2 a3 : Statement (.pinv a1 a2 a3) :=
  survives_X rfl (f20_14_13_fields 0x05000000 10 a1 a2 a3 rfl (by decide)) (by exact ⟨rfl, rfl, rfl⟩) fun _ w ⟨h1, n0, f0, f1, f2⟩ => by
    unfold decodeOps decodeX; rw [h1, n0, f0, f1, f2]; rfl

theorem screen a1 a2 a3 a4 : Statement (.screen a1 a2 a3 a4) :=
  survives_X rfl (f20_16_13_fields 0x05800000 11 a1 a2 a3 rfl (by decide)) (by exact ⟨rfl, rfl, rfl⟩) fun _ w ⟨h1, n0, f0, f1, f2⟩ => by
    unfold decodeOps decodeX; rw [h1, n0, f0, f1, f2]; rfl

theorem scommit a1 : Statement (.scommit a1) :=
  survives_X rfl (f20_fields 0x06000000 12 a1 rfl (by decide)) (by exact ⟨rfl, rfl, rfl⟩) fun _ w ⟨h1, n0, f0⟩ => by
    unfold decodeOps decodeX; rw [h1, n0, f0]; rfl

theorem stbl a1 a2 a3 a4 a5 : Statement (.stbl a1 a2 a3 a4 a5) :=
  survives_X rfl (f20_17_11_5_1_fields 0x06800000 13 a1 a2 a3 a4 a5 rfl (by decide)) (by exact ⟨rfl, rfl, rfl⟩) fun _ w ⟨h1, n0, f0, f1, f2, f3, f4⟩ => by
    unfold decodeOps decodeX; rw [h1, n0, f0, f1, f2, f3, f4]; rfl

theorem patch a1 a2 a3 a4 : Statement (.patch a1 a2 a3 a4) :=
  survives_X rfl (f20_14_8_0_fields 0x07000000 14 a1 a2 a3 a4 rfl (by decide)) (by exact ⟨rfl, rfl, rfl⟩) fun _ w ⟨h1, n0, f0, f1, f2, f3⟩ => by
    unfold decodeOps decodeX; rw [h1, n0, f0, f1, f2, f3]; rfl

theorem armRec a1 a2 : Statement (.armRec a1 a2) :=
  survives_X rfl (f20_14_fields 0x07800000 15 a1 a2 rfl (by decide)) (by exact ⟨rfl, rfl, rfl⟩) fun _ w ⟨h1, n0, f0, f1⟩ => by
    unfold decodeOps decodeX; rw [h1, n0, f0, f1]; rfl

theorem ringcfg a1 a2 a3 : Statement (.ringcfg a1 a2 a3) :=
  survives_X rfl (f20_16_10_fields 0x08000000 16 a1 a2 a3 rfl (by decide)) (by exact ⟨rfl, rfl, rfl⟩) fun _ w ⟨h1, n0, f0, f1, f2⟩ => by
    unfold decodeOps decodeX; rw [h1, n0, f0, f1, f2]; rfl

theorem repRepetition a1 a2 : Statement (.repRepetition a1 a2) := fun _ _ _ _ _ _ _ h => nomatch h

theorem rotatingIterationBoundary a1 a2 a3 a4 : Statement (.rotatingIterationBoundary a1 a2 a3 a4) := fun _ _ _ _ _ _ _ h => nomatch h

theorem lenientStallRecheck a1 : Statement (.lenientStallRecheck a1) := fun _ _ _ _ _ _ _ h => nomatch h

theorem registerWriteback a1 a2 a3 a4 : Statement (.registerWriteback a1 a2 a3 a4) := fun _ _ _ _ _ _ _ h => nomatch h

theorem vResultWriteback a1 a2 : Statement (.vResultWriteback a1 a2) := fun _ _ _ _ _ _ _ h => nomatch h

theorem sScratchAccess a1 a2 : Statement (.sScratchAccess a1 a2) := fun _ _ _ _ _ _ _ h => nomatch h

theorem atomRead a1 a2 : Statement (.atomRead a1 a2) := fun _ _ _ _ _ _ _ h => nomatch h

theorem atomWrite a1 a2 a3 : Statement (.atomWrite a1 a2 a3) := fun _ _ _ _ _ _ _ h => nomatch h

theorem laneBeat a1 a2 : Statement (.laneBeat a1 a2) := fun _ _ _ _ _ _ _ h => nomatch h

theorem vStoreConversion a1 : Statement (.vStoreConversion a1) := fun _ _ _ _ _ _ _ h => nomatch h

theorem sidecarAttach a1 a2 a3 a4 : Statement (.sidecarAttach a1 a2 a3 a4) := fun _ _ _ _ _ _ _ h => nomatch h

theorem gatherScatterAccess a1 a2 : Statement (.gatherScatterAccess a1 a2) := fun _ _ _ _ _ _ _ h => nomatch h

theorem raggedTableRead a1 a2 : Statement (.raggedTableRead a1 a2) := fun _ _ _ _ _ _ _ h => nomatch h

theorem hbmSample a1 : Statement (.hbmSample a1) := fun _ _ _ _ _ _ _ h => nomatch h

theorem hbmPerform a1 a2 a3 : Statement (.hbmPerform a1 a2 a3) := fun _ _ _ _ _ _ _ h => nomatch h

theorem readBeatLanding a1 a2 a3 : Statement (.readBeatLanding a1 a2 a3) := fun _ _ _ _ _ _ _ h => nomatch h

theorem transferCredit a1 a2 a3 : Statement (.transferCredit a1 a2 a3) := fun _ _ _ _ _ _ _ h => nomatch h

theorem sendBeatLanding a1 a2 a3 a4 : Statement (.sendBeatLanding a1 a2 a3 a4) := fun _ _ _ _ _ _ _ h => nomatch h

theorem copyStep a1 a2 a3 : Statement (.copyStep a1 a2 a3) := fun _ _ _ _ _ _ _ h => nomatch h

theorem weaveEmission a1 a2 : Statement (.weaveEmission a1 a2) := fun _ _ _ _ _ _ _ h => nomatch h

theorem weaveContribution a1 a2 : Statement (.weaveContribution a1 a2) := fun _ _ _ _ _ _ _ h => nomatch h

theorem weaveStatusWrite a1 : Statement (.weaveStatusWrite a1) := fun _ _ _ _ _ _ _ h => nomatch h

theorem linkFlitRelease a1 : Statement (.linkFlitRelease a1) := fun _ _ _ _ _ _ _ h => nomatch h

theorem plyHeaderRead a1 a2 : Statement (.plyHeaderRead a1 a2) := fun _ _ _ _ _ _ _ h => nomatch h

theorem plySpanEnd a1 : Statement (.plySpanEnd a1) := fun _ _ _ _ _ _ _ h => nomatch h

theorem mmadSpanEnd a1 : Statement (.mmadSpanEnd a1) := fun _ _ _ _ _ _ _ h => nomatch h

theorem mdropPop a1 a2 a3 a4 a5 : Statement (.mdropPop a1 a2 a3 a4 a5) := fun _ _ _ _ _ _ _ h => nomatch h

theorem mzeroEffect a1 a2 : Statement (.mzeroEffect a1 a2) := fun _ _ _ _ _ _ _ h => nomatch h

theorem maddEffect a1 a2 a3 : Statement (.maddEffect a1 a2 a3) := fun _ _ _ _ _ _ _ h => nomatch h

theorem mscaleMbiasEffect a1 a2 a3 a4 : Statement (.mscaleMbiasEffect a1 a2 a3 a4) := fun _ _ _ _ _ _ _ h => nomatch h

theorem moutRow a1 a2 : Statement (.moutRow a1 a2) := fun _ _ _ _ _ _ _ h => nomatch h

theorem moutbWrite a1 a2 a3 : Statement (.moutbWrite a1 a2 a3) := fun _ _ _ _ _ _ _ h => nomatch h

theorem maskArm a1 a2 : Statement (.maskArm a1 a2) := fun _ _ _ _ _ _ _ h => nomatch h

theorem probeResult a1 a2 a3 a4 a5 : Statement (.probeResult a1 a2 a3 a4 a5) := fun _ _ _ _ _ _ _ h => nomatch h

theorem pinvEffect a1 a2 a3 : Statement (.pinvEffect a1 a2 a3) := fun _ _ _ _ _ _ _ h => nomatch h

theorem ringcfgEffect a1 a2 a3 : Statement (.ringcfgEffect a1 a2 a3) := fun _ _ _ _ _ _ _ h => nomatch h

theorem patchArmCheck a1 a2 : Statement (.patchArmCheck a1 a2) := fun _ _ _ _ _ _ _ h => nomatch h

theorem screenAdmission a1 a2 : Statement (.screenAdmission a1 a2) := fun _ _ _ _ _ _ _ h => nomatch h

theorem screenStageLookup a1 a2 a3 : Statement (.screenStageLookup a1 a2 a3) := fun _ _ _ _ _ _ _ h => nomatch h

theorem screenStageAction a1 a2 a3 : Statement (.screenStageAction a1 a2 a3) := fun _ _ _ _ _ _ _ h => nomatch h

theorem screenExit a1 a2 : Statement (.screenExit a1 a2) := fun _ _ _ _ _ _ _ h => nomatch h

theorem screenSpanEnd a1 : Statement (.screenSpanEnd a1) := fun _ _ _ _ _ _ _ h => nomatch h

theorem stblLine a1 a2 a3 : Statement (.stblLine a1 a2 a3) := fun _ _ _ _ _ _ _ h => nomatch h

theorem peerAbortStop a1 a2 : Statement (.peerAbortStop a1 a2) := fun _ _ _ _ _ _ _ h => nomatch h

theorem watchdog a1 : Statement (.watchdog a1) := fun _ _ _ _ _ _ _ h => nomatch h

theorem sheetEnd a1 : Statement (.sheetEnd a1) := fun _ _ _ _ _ _ _ h => nomatch h

theorem armCommand a1 a2 a3 : Statement (.armCommand a1 a2 a3) := fun _ _ _ _ _ _ _ h => nomatch h

theorem partition a1 a2 a3 a4 a5 a6 : Statement (.partition a1 a2 a3 a4 a5 a6) := fun _ _ _ _ _ _ _ h => nomatch h

theorem domain a1 a2 a3 a4 : Statement (.domain a1 a2 a3 a4) := fun _ _ _ _ _ _ _ h => nomatch h

theorem lease a1 a2 a3 : Statement (.lease a1 a2 a3) := fun _ _ _ _ _ _ _ h => nomatch h

theorem power a1 a2 : Statement (.power a1 a2) := fun _ _ _ _ _ _ _ h => nomatch h

theorem debugToken a1 a2 : Statement (.debugToken a1 a2) := fun _ _ _ _ _ _ _ h => nomatch h

theorem vatcfg a1 a2 : Statement (.vatcfg a1 a2) := fun _ _ _ _ _ _ _ h => nomatch h

theorem readRepairMap a1 a2 : Statement (.readRepairMap a1 a2) := fun _ _ _ _ _ _ _ h => nomatch h

theorem readTemperatures a1 a2 : Statement (.readTemperatures a1 a2) := fun _ _ _ _ _ _ _ h => nomatch h

theorem placement a1 : Statement (.placement a1) := fun _ _ _ _ _ _ _ h => nomatch h

theorem sheetAlignment a1 : Statement (.sheetAlignment a1) := fun _ _ _ _ _ _ _ h => nomatch h

theorem maintenanceSlot : Statement (.maintenanceSlot) := fun _ _ _ _ _ _ _ h => nomatch h

theorem holdUnit a1 : Statement (.holdUnit a1) := fun _ _ _ _ _ _ _ h => nomatch h

theorem slotEnd : Statement (.slotEnd) := fun _ _ _ _ _ _ _ h => nomatch h

theorem linkFailure a1 a2 : Statement (.linkFailure a1 a2) := fun _ _ _ _ _ _ _ h => nomatch h

theorem marginRestore a1 a2 a3 : Statement (.marginRestore a1 a2 a3) := fun _ _ _ _ _ _ _ h => nomatch h

theorem contextSave a1 : Statement (.contextSave a1) := fun _ _ _ _ _ _ _ h => nomatch h

theorem resume a1 : Statement (.resume a1) := fun _ _ _ _ _ _ _ h => nomatch h

theorem irrevocableFreeze a1 : Statement (.irrevocableFreeze a1) := fun _ _ _ _ _ _ _ h => nomatch h

theorem irrevocableCouch a1 : Statement (.irrevocableCouch a1) := fun _ _ _ _ _ _ _ h => nomatch h

theorem couch a1 : Statement (.couch a1) := fun _ _ _ _ _ _ _ h => nomatch h

theorem couchPrepare a1 a2 : Statement (.couchPrepare a1 a2) := fun _ _ _ _ _ _ _ h => nomatch h

theorem couchDecide a1 : Statement (.couchDecide a1) := fun _ _ _ _ _ _ _ h => nomatch h

theorem couchApply a1 a2 : Statement (.couchApply a1 a2) := fun _ _ _ _ _ _ _ h => nomatch h

theorem repulp a1 : Statement (.repulp a1) := fun _ _ _ _ _ _ _ h => nomatch h

theorem vatDrain a1 a2 a3 : Statement (.vatDrain a1 a2 a3) := fun _ _ _ _ _ _ _ h => nomatch h

theorem debugFreeze a1 a2 : Statement (.debugFreeze a1 a2) := fun _ _ _ _ _ _ _ h => nomatch h

theorem debugRelease a1 a2 : Statement (.debugRelease a1 a2) := fun _ _ _ _ _ _ _ h => nomatch h

theorem debugScan a1 a2 : Statement (.debugScan a1 a2) := fun _ _ _ _ _ _ _ h => nomatch h

theorem debugScanDone a1 a2 : Statement (.debugScanDone a1 a2) := fun _ _ _ _ _ _ _ h => nomatch h

theorem debugSuspension a1 : Statement (.debugSuspension a1) := fun _ _ _ _ _ _ _ h => nomatch h

theorem elostClear a1 : Statement (.elostClear a1) := fun _ _ _ _ _ _ _ h => nomatch h

theorem traceLostClear a1 a2 : Statement (.traceLostClear a1 a2) := fun _ _ _ _ _ _ _ h => nomatch h

theorem hbctlWrite a1 a2 a3 : Statement (.hbctlWrite a1 a2 a3) := fun _ _ _ _ _ _ _ h => nomatch h

theorem headboxDescriptor a1 a2 : Statement (.headboxDescriptor a1 a2) := fun _ _ _ _ _ _ _ h => nomatch h

theorem headboxFrameDone a1 a2 : Statement (.headboxFrameDone a1 a2) := fun _ _ _ _ _ _ _ h => nomatch h

theorem getVersion a1 : Statement (.getVersion a1) := fun _ _ _ _ _ _ _ h => nomatch h

theorem getCapabilities a1 : Statement (.getCapabilities a1) := fun _ _ _ _ _ _ _ h => nomatch h

theorem negotiateAlgorithms a1 : Statement (.negotiateAlgorithms a1) := fun _ _ _ _ _ _ _ h => nomatch h

theorem getDigests a1 : Statement (.getDigests a1) := fun _ _ _ _ _ _ _ h => nomatch h

theorem getCertificate a1 : Statement (.getCertificate a1) := fun _ _ _ _ _ _ _ h => nomatch h

theorem challenge a1 a2 : Statement (.challenge a1 a2) := fun _ _ _ _ _ _ _ h => nomatch h

theorem getMeasurements a1 a2 : Statement (.getMeasurements a1 a2) := fun _ _ _ _ _ _ _ h => nomatch h

theorem keyExchange a1 a2 : Statement (.keyExchange a1 a2) := fun _ _ _ _ _ _ _ h => nomatch h

theorem spdmFinish a1 : Statement (.spdmFinish a1) := fun _ _ _ _ _ _ _ h => nomatch h

theorem keyLoad a1 a2 a3 a4 a5 : Statement (.keyLoad a1 a2 a3 a4 a5) := fun _ _ _ _ _ _ _ h => nomatch h

theorem enterAttested a1 : Statement (.enterAttested a1) := fun _ _ _ _ _ _ _ h => nomatch h

theorem packageReset a1 : Statement (.packageReset a1) := fun _ _ _ _ _ _ _ h => nomatch h

theorem registerWrite a1 a2 a3 : Statement (.registerWrite a1 a2 a3) := fun _ _ _ _ _ _ _ h => nomatch h

theorem hostCxlMemWrite a1 a2 a3 : Statement (.hostCxlMemWrite a1 a2 a3) := fun _ _ _ _ _ _ _ h => nomatch h

theorem malformedPacket a1 : Statement (.malformedPacket a1) := fun _ _ _ _ _ _ _ h => nomatch h

theorem standbyTwinTakeover a1 : Statement (.standbyTwinTakeover a1) := fun _ _ _ _ _ _ _ h => nomatch h

end Sys2Proof.Laws.RoundTrip
end

