-- ==== Sys2Proof/Safety.lean ====
section
/-! DEFINITION. The terms in which statements speak of the machine: who runs what, when a word finds its registers ready,
the state that an effect on one core leaves, the canonical form of memory, a run that has not stopped. -/

namespace Sys2Proof.Machine

/-- The canonical form of byte memory: addresses strictly rising, no zero byte listed (an unlisted byte reads as 0). -/
def Memory.wf (m : Mem) : Bool := Tab.wf (0 : Byte) m

/-- Every package's HBM is in canonical form. -/
def State.HbmCanonical (s : State) : Prop := ∀ p ∈ s.pkgs, Memory.wf p.hbm = true

/-- Core `c`, of key `k`, runs sheet `sh`. -/
structure State.Runs (s : State) (k : Nat) (c : Core) (sh : Sheet) : Prop where
  core : s.core? k = some c
  sheet : s.sheet? c.sh = some sh

/-- Every register of `rs` holds its value at the issue of `x` (R122): no older word's result for it is still to come,
but for one of the same REP unit, which the repeat path hands on (R161). -/
def Core.Readable (c : Core) (x : Ctx) (rs : List (Nat × Nat)) : Prop :=
  ∀ r ∈ rs, ∀ p ∈ c.board, p.cls = r.1 → p.num = r.2 → p.done ≤ x.t ∨ (p.unit.isSome = true ∧ p.unit = x.unit)

/-- Every result of `ws` (register, cycle) is written after the results of older words to its register (R122). -/
def Core.Writable (c : Core) (ws : List ((Nat × Nat) × Nat)) : Prop :=
  ∀ w ∈ ws, ∀ p ∈ c.board, p.cls = w.1.1 → p.num = w.1.2 → p.done < w.2

/-- The scoreboard lets a word issue that reads `rs` and writes `ws`, and no register of `rs` holds an uncorrectable error (R350). -/
structure Core.Ready (c : Core) (x : Ctx) (rs : List (Nat × Nat)) (ws : List ((Nat × Nat) × Nat)) : Prop where
  reads : c.Readable x rs
  writes : c.Writable ws
  sound : c.illRegs x rs = []

/-- The state in which core `k` has become `c` and the steps `evs` (task cycle, phase, step) of its sheet are to come;
nothing else differs. -/
def State.leaves (s : State) (sh : Sheet) (k : Nat) (c : Core) (evs : List (Nat × Nat × Act)) : State :=
  { s with
    cores := Tab.put k c s.cores
    agenda := s.agenda ++ evs.map fun e => { ttc := sh.t0 + e.1, ph := e.2.1, sh := some sh.id, act := e.2.2 } }

/-- The outcome is a next state. -/
def Goes (o : Host.Outcome State Fault Refusal) : Prop := ∃ t, o = .next t

/-- A safe run of `n` steps: no step stops. -/
def SafeFor : Nat → State → Prop
  | 0, _ => True
  | n + 1, s => ∃ t, step s = .next t ∧ SafeFor n t

/-- The word `i` leaves one result: register `w` is noted as in flight until task cycle `t + lat`, at which `dst` takes
the value and the flags of `r`; nothing else differs. -/
def State.Gives (s : State) (sh : Sheet) (c : Core) (i : Instr) (w : Nat × Nat) (dst : RegRef) (lat : Nat)
    (r : W64 × Flags) : Prop :=
  exec i s = .next (s.leaves sh s.cur.k (c.claim s.cur [(w, s.cur.t + lat)])
    [(s.cur.t + lat, phStart, .registerWriteback s.cur.k dst r.1 r.2)])

/-- A result in s-register `rd`. -/
def State.GivesS (s : State) (sh : Sheet) (c : Core) (i : Instr) (rd : BitVec 6) (lat : Nat) (r : W64 × Flags) : Prop :=
  s.Gives sh c i (sReg rd.toNat) (.s rd.toNat) lat r

/-- A result in p-register `pd`: bit 0 of the value. -/
def State.GivesP (s : State) (sh : Sheet) (c : Core) (i : Instr) (pd : BitVec 3) (lat : Nat) (b : Bool) (fl : Flags) : Prop :=
  s.Gives sh c i (pReg pd.toNat) (.p pd.toNat) lat (if b then 1 else 0, fl)

/-- An access of cycle `t` to bytes `lo` to `hi` meets nothing: no atomic's window over its lines (R88), no other access
of the cycle to its bytes (R273, R274), no uncorrectable byte (R350). -/
structure Core.Quiet (c : Core) (t lo hi : Nat) : Prop where
  window : ∀ r ∈ c.rmw, r.hi < t ∨ t < r.lo ∨ r.line < lo / 64 ∨ hi / 64 < r.line
  alone : ∀ a ∈ c.acc1, a.cyc = t → a.hi < lo ∨ hi < a.lo
  sound : ∀ a ∈ c.bad, a < lo ∨ hi < a

/-- No word of the same agent that issued later has written any of the bytes `lo` to `hi` (R272). -/
def Core.Latest (c : Core) (d : Desc) (lo hi : Nat) : Prop :=
  ∀ e ∈ c.wlast, sameAgent e.1 d = true → d.iss < e.1.iss → e.2.2 < lo ∨ hi < e.2.1

/-- The storage of the core is in canonical form. -/
structure Core.Canonical (c : Core) : Prop where
  spad : Memory.wf c.spad = true
  s : Tab.wf (0 : W64) c.s = true
  q : Tab.wf (0 : Half) c.q = true
  v : Tab.wf (0 : W32) c.v = true
  acc : Tab.wf (0 : W32) c.acc = true
  sem : Tab.wf (⟨0, 0, 0, 0, 0⟩ : Sem) c.sem = true
  tags : Tab.wf (⟨0, 0, 0⟩ : Tag) c.tags = true
  rings : Tab.wf noRing c.rings = true
  bound : Tab.wf zeroBound c.bound = true
  cover : Tab.wf zeroCover c.cover = true
  ptags : Tab.wf (⟨0, false, false, false⟩ : ProbeTag) c.ptags = true
  bfmt : Tab.wf (0x3F800000 : BitVec 39) c.bfmt = true
  bcb : Tab.wf (0 : W64) c.bcb = true
  tbl : Memory.wf c.screen.tbl = true
  ctr : Tab.wf (0 : BitVec 40) c.screen.ctr = true
  limit : Tab.wf (0 : BitVec 40) c.screen.limit = true
  copyBuf : c.copyBuf.Pairwise fun a b => a.1 < b.1
  closed : ∀ a, Tab.wf (0 : W32) (c.boundOf a).closed = true

/-- A byte of the scratchpad. -/
def Core.byte (c : Core) (a : Nat) : Byte := Tab.get 0 c.spad a

/-- `n` bytes of the scratchpad from address `a`, lowest first, as a number (R4). -/
def Core.bytesAt (c : Core) (a n : Nat) : Nat := leNat ((List.range n).map fun i => c.byte (a + i))

/-- Lane `l` = 64 r + c lies within the active rows and columns and its mask bit is set (R148). -/
def laneOn (sh : VShape) (q : List Half) (l : Nat) : Bool :=
  decide (l / 64 ≤ sh.rows) && decide (l % 64 ≤ sh.cols) && (q.getD (l % 64) 0).getLsbD (l / 64)

/-- Sub-element `j` of width `w` of lane `l` of physical register `r` (R147), as word `x` reads it. -/
def Core.elem (c : Core) (x : Ctx) (r w l j : Nat) : Nat := ((c.vget x r).getD l 0).toNat / 2 ^ (w * j) % 2 ^ w

/-- The V word `i` gives physical register `d` at `t + lat`: sub-element `j` of width `w` of each lane `l` that is on
becomes `(f l j).1`, other lanes keep their values, and the flags that any of them raises are set (R148, R150). -/
def State.GivesLanes (s : State) (sh : Sheet) (c : Core) (i : Instr) (d lat : Nat) (on : Nat → Bool) (w : Nat)
    (f : Nat → Nat → Nat × Flags) : Prop :=
  ∃ vs fl, exec i s = .next (s.leaves sh s.cur.k
      ((c.claim s.cur [(vReg d, s.cur.t + lat)]).forward s.cur d (s.cur.t + lat) vs)
      [(s.cur.t + lat, phStart, .vResultWriteback s.cur.k ⟨[(d, vs)], [], fl⟩)])
    ∧ vs.length = 1024
    ∧ (∀ l < 1024, on l = false → vs[l]? = some none)
    ∧ (∀ l < 1024, on l = true → ∃ v : W32, vs[l]? = some (some v)
        ∧ ∀ j < 32 / w, v.toNat / 2 ^ (w * j) % 2 ^ w = (f l j).1 % 2 ^ w)
    ∧ ∀ b < 6, fl.getLsbD b = true ↔ ∃ l < 1024, on l = true ∧ ∃ j < 32 / w, (f l j).2.getLsbD b = true

/-- The V word `i` gives every bit of q-register `qd` at `t + lat`: bit r of word c is that of lane 64 r + c. -/
def State.GivesMask (s : State) (sh : Sheet) (c : Core) (i : Instr) (qd lat : Nat) (bit : Nat → Bool)
    (flag : Nat → Prop) : Prop :=
  ∃ (ws : List Half) (fl : Flags), exec i s = .next (s.leaves sh s.cur.k (c.claim s.cur [(qReg qd, s.cur.t + lat)])
      [(s.cur.t + lat, phStart, .vResultWriteback s.cur.k ⟨[], [(qd, ws.map some)], fl⟩)])
    ∧ ws.length = 64
    ∧ (∀ l < 1024, (ws.getD (l % 64) 0).getLsbD (l / 64) = bit l)
    ∧ ∀ b < 6, fl.getLsbD b = true ↔ flag b

/-- The step `i` on core `k` at task cycle `t` starts movements: the core becomes `base` but for its rings and lanes, of which `P` speaks; the steps
`evs` are to come, the lane segments `news` are taken, the faults `flt` are raised and, beside them, only LANE_COLLISION
(R77), which cannot be where no earlier movement still holds a segment. -/
def State.MovesAt (s : State) (sh : Sheet) (k t : Nat) (c : Core) (i : Instr) (base : Core) (news : List Occ)
    (evs : List (Nat × Nat × Act)) (flt : List CFault) (P : Core → Prop) : Prop :=
  ∃ c' fs, exec i s = .next ((s.leaves sh k c' evs).raiseAll sh.id (fs ++ flt))
    ∧ (∀ f ∈ fs, f.cause = cLane) ∧ ((∀ o ∈ c.occ, o.hi < t) → fs = [])
    ∧ c' = { base with rings := c'.rings, occ := c'.occ, cuts := c'.cuts } ∧ (∀ o ∈ news, o ∈ c'.occ) ∧ P c'

/-- A word of the cursor's core starts movements. -/
def State.Moves (s : State) (sh : Sheet) (c : Core) (i : Instr) (base : Core) (news : List Occ)
    (evs : List (Nat × Nat × Act)) (flt : List CFault) (P : Core → Prop) : Prop :=
  s.MovesAt sh s.cur.k s.cur.t c i base news evs flt P

/-- Only the cursor, tiles and users of ring `g` differ. -/
def Core.ringsBut (c c' : Core) (g : Nat) (wr rd : Nat) (tiles : List Tile) : Prop :=
  c'.ring g = { c.ring g with wr := wr, rd := rd, tiles := tiles, users := (c'.ring g).users }
  ∧ ∀ h, h ≠ g → c'.ring h = c.ring h

/-- The ring is configured and no SCREEN holds it (R84, R260). -/
def Core.ringOpen (c : Core) (t g : Nat) : Prop := (c.ring g).nfr ≠ 0 ∧ c.screenHeld t g = false

/-- The `n` bytes at the read cursor of a ring lie in tiles pushed before cycle `t` (R83). -/
def Ring.pushedBefore (r : Ring) (t n : Nat) : Prop :=
  ∀ k ∈ r.tilesOf r.rd n, ∃ x, r.tile? k = some x ∧ ∃ p < t, x.pushed = some p

/-- Lane `l` of physical v-register `r`, and word `i` of q-register `n`, as stored. -/
def Core.lane (c : Core) (r l : Nat) : W32 := Tab.get 0 c.v (1024 * r + l)

def Core.maskWord (c : Core) (n i : Nat) : Half := Tab.get 0 c.q (64 * n + i)

/-- The flags `fl` become visible after cycle `t`, and no flag is lost (R61). -/
def Core.raisesFlags (c c' : Core) (t : Nat) (fl : Flags) : Prop :=
  c.fcyc ≤ t → c'.flagsAt t = c.flagsAt t ∧ ∀ u > t, c'.flagsAt u = c.flagsAt u ||| fl

/-- Piece `p` of movement `m` on core `c` meets nothing in the cycle in progress: no other access to its bytes, no
segment closed to it (R77), no tag of another generation (R80). -/
structure State.Clear (s : State) (c : Core) (sh : Sheet) (m : Move) (p : Piece) : Prop where
  some : 0 < p.len
  quiet : c.Quiet (s.task sh) p.addr (p.addr + p.len - 1)
  alone : ∀ r ∈ s.writersNow m.k m.cls, r.2 < p.addr ∨ p.addr + p.len - 1 < r.1
  uncut : ∀ u ∈ c.cuts, sameWord u.d m.d = false
  tags : c.pieceTags (s.task sh) m p = []

/-- Element `i` of packed elements of width `w` in the scratchpad from address `a` (R55). -/
def Core.elemAt (c : Core) (w a i : Nat) : Nat :=
  if w = 4 then (c.byte (a + i / 2)).toNat / 16 ^ (i % 2) % 16 else c.bytesAt (a + i * (w / 8)) (w / 8)

/-- Element (m, n) of accumulator tile `a`. -/
def Core.tileElem (c : Core) (a m n : Nat) : W32 := Tab.get 0 c.acc (16384 * a + 128 * m + n)

/-- No word holds one of the resources `rs` of the M column at the issue of `x` (R203). -/
def Core.Idle (c : Core) (x : Ctx) (rs : List Nat) : Prop := ∀ o ∈ c.own, o.res ∈ rs → o.last ≤ x.t

/-- `o` is the oldest of the words that hold a tile, or the array as number 8, past the cycle of a word (R87). -/
def Core.Holder (c : Core) (x : Ctx) (n : Nat) (o : Owner) : Prop :=
  ∃ l r, c.own = l ++ o :: r ∧ o.res = n ∧ x.t < o.last ∧ ∀ e ∈ l, e.res = n → e.last ≤ x.t

/-- No MMASK is under way (R210). -/
def Core.MaskStill (c : Core) (x : Ctx) : Prop := ∀ a, c.mask.arming = some a → a ≤ x.t

/-- Rings differ only in their users, and ring `g` in its read cursor, where `past` is the tile that it has passed. -/
def Core.passed (c c' : Core) (past : List (Nat × Nat)) : Prop :=
  ∀ h, c'.ring h = { c.ring h with
    users := (c'.ring h).users
    rd := match past.find? fun e => e.1 == h with
      | some e => (e.2 + 1) * (c.ring h).tileBytes
      | none => (c.ring h).rd }

/-- `t` is `s` with core `k` become `c'`: no other core, nothing of the cursor and the time differs, no pending step is
dropped, no byte of any HBM differs. -/
structure State.After (s t : State) (k : Nat) (c' : Core) : Prop where
  core : t.core? k = some c'
  others : ∀ j ≠ k, t.core? j = s.core? j
  agenda : ∀ e ∈ s.agenda, e ∈ t.agenda
  ttc : t.ttc = s.ttc
  cur : t.cur = s.cur
  hbm : ∀ p, (t.pkg p).hbm = (s.pkg p).hbm

/-- The step `a` of the sheet is to come at task cycle `cyc`. -/
def State.Due (t : State) (sh : Sheet) (cyc ph : Nat) (a : Act) : Prop := ⟨sh.t0 + cyc, ph, some sh.id, a⟩ ∈ t.agenda

/-- The sheet's transfers last at least until task cycle `n` (R33). -/
def State.Settled (t : State) (sh : Sheet) (n : Nat) : Prop := ∃ sh', t.sheet? sh.id = some sh' ∧ n ≤ sh'.settle

/-- The sheet has the faults it had. -/
def State.NoFault (t : State) (sh : Sheet) : Prop := ∃ sh', t.sheet? sh.id = some sh' ∧ sh'.faults = sh.faults

/-- The storage of the package is in canonical form, and every couched version is a whole line. -/
structure Package.Canonical (p : Package) : Prop where
  hbm : Memory.wf p.hbm = true
  parts : Tab.wf Partition.reset p.parts = true
  queues : ∀ n, Tab.wf Queue.reset (p.part n).queues = true
  slots : Tab.wf KeySlot.reset p.slots = true
  boxes : Tab.wf Headbox.reset p.boxes = true
  mail : Tab.wf Mailbox.reset p.mail = true
  ports : Tab.wf Port.reset p.ports = true
  lineKeys : Tab.wf ([] : List Byte) p.lineKeys = true
  vatSize : Tab.wf (0 : BitVec 5) p.vatSize = true
  vatNext : Tab.wf (0 : BitVec 5) p.vatNext = true
  cmapMap : Tab.wf (0x76543210 : W32) p.cmapMap = true
  cmapBad : Tab.wf (0 : BitVec 9) p.cmapBad = true
  cmapSpu : Tab.wf false p.cmapSpu = true
  cmapRet : Tab.wf false p.cmapRet = true
  ecor : Tab.wf (0 : W64) p.ecor = true
  eunc : Tab.wf (0 : W64) p.eunc = true
  eoth : Tab.wf (0 : W64) p.eoth = true
  lines : ∀ v ∈ p.versions, v.bytes.length = 64

/-- Contribution `b` of a run writes destination byte `v` (R236). -/
def weaveCovers (w : WeaveRun) (v : Nat) (b : Contribution) : Bool := decide (b.dst ≤ v) && decide (v < b.dst + w.chunk)

/-- Bytes of an element of a run (R234). -/
def weaveElemBytes (w : WeaveRun) : Nat := if w.bf16 then 2 else 4

/-- The element that contribution `b` brings to destination byte `v`, as FP32 bits (R236). -/
def weaveElemAt (w : WeaveRun) (b : Contribution) (v : Nat) : Nat :=
  leNat (((b.data.getD []).drop (v - b.dst)).take (weaveElemBytes w)) * (if w.bf16 then 65536 else 1)

/-- Contributions combined one after another into the element at destination byte `v`, which holds `y` (R71, R236): what it
holds then, and the flags. -/
def weaveCombined (w : WeaveRun) (cs : List Contribution) (v : Nat) (y : Option W32) : Option W32 × Flags :=
  (cs.filter (weaveCovers w v)).foldl (fun a b =>
    let r := weaveCombine w.op a.1 (weaveElemAt w b v)
    (some (BitVec.ofNat 32 r.1), a.2 ||| r.2)) (y, 0)

/-- Destination byte `v` once contributions have taken effect on an element that held `y`: the last one's byte, or that of the
combined element, rounded to BF16 where the run says so (R236). -/
def weaveLeft (w : WeaveRun) (cs : List Contribution) (y : Option W32) (v : Nat) : Byte :=
  match (cs.filter (weaveCovers w v)).getLast? with
  | none => 0
  | some b =>
    if w.op = 0 then (b.data.getD []).getD (v - b.dst) 0
    else
      let x := ((weaveCombined w cs (v / weaveElemBytes w * weaveElemBytes w) y).1.getD 0).toNat
      BitVec.ofNat 8 ((if w.bf16 then (bf16.pack 0 (fp32.value x)).1 else x) / 256 ^ (v % weaveElemBytes w))

/-- Writes of window `w` to the lines of `n` bytes from `va` go in place into memory, under the key of the window: its class
says so, no couched version of the lines waits, and they stand under that key (R317, R368). -/
structure State.PlainLines (s : State) (w : Window) (va n : Nat) : Prop where
  cls : w.cls = clsS ∨ w.cls = clsD
  pkg : w.pkg < s.pkgs.length
  fresh : ∀ l ∈ linesOf va n, (s.pkg w.pkg).version? (w.phys (64 * l) / 64) none = none
  key : ∀ l ∈ linesOf va n, Tab.get [] (s.pkg w.pkg).lineKeys (w.phys (64 * l) / 64) = (s.pkg w.pkg).keyOf w.key

/-- `u` is `t` with corrected errors of on-die stores met: they stand no more, and each is an event of KIND 1 of its package. -/
def State.CorrectedBy (t u : State) : Prop :=
  let bare := fun (c : Core) => { c with ill := [] }
  u = { t with cores := u.cores, savedCores := u.savedCores, pkgs := u.pkgs }
  ∧ (u.cores.map fun e => (e.1, bare e.2)) = t.cores.map (fun e => (e.1, bare e.2))
  ∧ (u.savedCores.map fun e => (e.1, e.2.1, bare e.2.2)) = t.savedCores.map (fun e => (e.1, e.2.1, bare e.2.2))
  ∧ (u.pkgs.map fun p => { p with reports := [] }) = t.pkgs.map (fun p => { p with reports := [] })
  ∧ ∀ q, ∃ rs, (u.pkg q).reports = (t.pkg q).reports ++ rs ∧ ∀ r ∈ rs, r.kind = 1

/-- No package but `q` differs. -/
def State.pkgOnly (s t : State) (q : Nat) : Prop := t.pkgs.length = s.pkgs.length ∧ ∀ p, p ≠ q → t.pkg p = s.pkg p

/-- Packages, and what sheets note of earlier bytes (R271, R280), may differ; nothing else does. -/
def State.NotesOnly (s t : State) : Prop :=
  t = { s with pkgs := t.pkgs, sheets := t.sheets }
    ∧ t.sheets.map (fun x => { x with past := [] }) = s.sheets.map fun x => { x with past := [] }

/-- A byte of device memory as an untimed agent reads it. -/
def Package.byteAt (p : Package) (a : Nat) : Byte := (p.getMem a 1).getD 0 0

/-- `leaf i` folded pairwise over `2 ^ n` leaves (R70); a leaf that is left out counts as the identity. -/
def redOver (op : RedOp) (n : Nat) (leaf : Nat → Option Nat) : Nat × Flags :=
  redTree op n ((List.range (2 ^ n)).map fun i => (leaf i).getD op.ident)

/-- No segment starts after one and up to the other of two positions (R172). -/
def sameSegment (start : Nat → Bool) (i j : Nat) : Bool :=
  (List.range 1024).all fun k => !(decide (min i j < k) && decide (k ≤ max i j) && start k)

/-- A masked element keeps its place under the mask bit (m, n) (R209, R211). -/
def maskKeeps (mask : Option (List Byte × Option W32)) (m n : Nat) : Bool :=
  match mask with
  | none => true
  | some b => (b.1.getD (16 * m + n / 8) 0xFF).getLsbD (n % 8)

/-- What a masked element becomes. -/
def maskValue (mask : Option (List Byte × Option W32)) (int : Bool) : W32 :=
  match mask with
  | some (_, some v) => v
  | _ => if int then 0x80000000 else 0xFF800000

/-- FULLC of a tile once its block is closed (R193). -/
def Core.fullAfter (c : Core) (a : Nat) : Bool :=
  (c.boundOf a).fullc && (!(c.boundOf a).opened || (c.coverOf a).cursor == (c.coverOf a).count)

/-- Byte `j` of packed codes of width `w` (R55). -/
def packed (w : Nat) (code : Nat → Conv) (j : Nat) : Byte :=
  if w = 4 then BitVec.ofNat 8 ((code (2 * j)).bits % 16 + 16 * ((code (2 * j + 1)).bits % 16))
  else BitVec.ofNat 8 ((code (j / (w / 8))).bits / 256 ^ (j % (w / 8)))

/-- The packet at HEAD answered with `st`, and HEAD advanced; the next packet is not looked at yet. -/
def State.Answered (s t : State) (q st : Nat) : Prop :=
  (t.pkg q).memWord ((s.pkg q).packet + 56) = BitVec.ofNat 64 st ∧ (t.pkg q).cqHead = (s.pkg q).cqHead + 1
    ∧ (∀ b, b < (s.pkg q).packet + 56 ∨ (s.pkg q).packet + 64 ≤ b → (t.pkg q).byteAt b = (s.pkg q).byteAt b)
    ∧ s.pkgOnly t q ∧ t = { s with pkgs := t.pkgs }

/-- A key slot cleared (R368). -/
def KeySlot.cleared (k : KeySlot) : KeySlot :=
  if k.valid then { k with valid := false, dbgclr := false, gen := k.gen + 1, key := [] } else k

/-- Headbox unit `u` of a package set. -/
def Package.setBox (p : Package) (u : Nat) (b : Headbox) : Package := { p with boxes := Tab.set Headbox.reset u b p.boxes }

/-- A package of the domain keeps the watermarks of partition `n` (R314, R367). -/
def State.keepsMarks (s : State) (n : Nat) : Prop :=
  s.markHome n < s.pkgs.length ∧ (s.pkg (s.markHome n)).formed = true ∧ ((s.pkg (s.markHome n)).part n).valid = true

/-- `W` is the watermark of a couch: one above the last, the new counter and CUR. -/
def State.Marked (s u : State) (n w : Nat) : Prop :=
  w = ((s.pkg (s.markHome n)).part n).counter.toNat + 1
    ∧ ((u.pkg (s.markHome n)).part n).counter.toNat = w ∧ ((u.pkg (s.markHome n)).part n).cur.toNat = w

/-- The record of a sheet says COUCHED at watermark `w`; the sheet and all it held are gone. -/
def State.Final (u : State) (sh : Sheet) (w : Nat) : Prop :=
  u.sheet? sh.id = none ∧ u.recState sh.home sh.part sh.rcd = 8
    ∧ (u.recOutc sh.home sh.part sh.rcd) = 0 ∧ u.recWord sh.home sh.part sh.rcd 26 = BitVec.ofNat 64 w
    ∧ (∀ e ∈ u.cores, e.2.sh ≠ sh.id) ∧ ∀ p, ∀ v ∈ (u.pkg p).vat, v.sh ≠ sh.id

/-- The bytes of every package's HBM and of every core's scratchpad are in canonical form. -/
structure State.MemCanonical (s : State) : Prop where
  hbm : s.HbmCanonical
  spad : ∀ e ∈ s.cores, Memory.wf e.2.spad = true
  saved : ∀ e ∈ s.savedCores, Memory.wf e.2.2.spad = true

/-- All storage that is written by number is in canonical form: equal storage is equal data. -/
structure State.Canonical (s : State) : Prop where
  pkgs : ∀ p ∈ s.pkgs, p.Canonical
  cores : ∀ e ∈ s.cores, e.2.Canonical
  saved : ∀ e ∈ s.savedCores, e.2.2.Canonical
  frames : ∀ e ∈ s.frames, Tab.wf (⟨0, 0, 0⟩ : Tag) e.2 = true

/-- The majors that a column's map reserves, 0x3F (illegal in every column) among them. -/
def reservedMajors : Col → List Nat
  | .S => [3, 4, 5, 6, 7, 8, 9, 10, 11, 12, 13, 14, 15, 22, 23, 27, 28, 29, 30, 31, 37, 38, 39, 41, 51, 52, 53, 58, 59, 63]
  | .V => [4, 5, 6, 7, 8, 9, 10, 11, 12, 13, 14, 15, 19, 20, 21, 22, 23, 27, 34, 35, 36, 37, 38, 39, 44, 45, 46, 47, 63]
  | .M => (List.range 49).map (15 + ·)
  | .X => (List.range 47).map (17 + ·)

/-- The number an encoding stands for, where it stands for one. -/
def FV.num : FV → ℚ
  | .fin neg m e => (if neg then -1 else 1) * (m : ℚ) * 2 ^ e
  | _ => 0

/-- `cov` is the coverage of a bound store (R195), where `all` tells that CURSOR = COUNT. Masses are not negative (R189). -/
def Bound.Covered (b : Bound) (all : Bool) (cov : Half) : Prop :=
  if b.fullc = true ∧ (b.opened = false ∨ all = true) then cov = 0x8000
  else if b.totm = 0x7F800000 then cov = 0
  else if b.covm = 0x7F800000 then cov = 0x7FFF
  else if (fpv b.totm).num = 0 then cov = 0
  else (cov.toNat : ℤ) = min 0x7FFF ⌊|(fpv b.covm).num| / |(fpv b.totm).num| * 2 ^ 15⌋

/-- Tile `a` has the coverage of its bound store. -/
def Core.Covers (c : Core) (a : Nat) : Prop :=
  (c.boundOf a).Covered ((c.coverOf a).cursor == (c.coverOf a).count) (c.coverOf a).cov

/-- `z` encodes a number. -/
def FloatFmt.Number (f : FloatFmt) (z : Nat) : Prop := z < 2 ^ f.width ∧ ∃ s m e, f.value z = .fin s m e

/-- `r` is the number `x` rounded once in mode `rm` (R56, R67): to the nearest (0), toward zero (1), up (2), down (3); beyond
the largest number it is an infinity where the mode gives one. NX says that it is not `x` itself, OF that it overflowed. -/
structure FloatFmt.Rounds (f : FloatFmt) (rm : Nat) (x : ℚ) (r : FRes) : Prop where
  bits : r.1 < 2 ^ f.width
  number : ∀ s m e, f.value r.1 = .fin s m e →
    let v := (f.value r.1).num
    (rm = 0 → ∀ z, f.Number z → |v - x| ≤ |(f.value z).num - x|
      ∧ (|v - x| = |(f.value z).num - x| → (f.value z).num ≠ v → r.1 % 2 = 0))
    ∧ (rm = 1 → |v| ≤ |x| ∧ 0 ≤ v * x ∧ ∀ z, f.Number z → |(f.value z).num| ≤ |x| → |(f.value z).num| ≤ |v|)
    ∧ (rm = 2 → x ≤ v ∧ ∀ z, f.Number z → x ≤ (f.value z).num → v ≤ (f.value z).num)
    ∧ (rm = 3 → v ≤ x ∧ ∀ z, f.Number z → (f.value z).num ≤ x → (f.value z).num ≤ v)
    ∧ (r.2 &&& NX = NX ↔ v ≠ x)
  infinite : ∀ s, f.value r.1 = .inf s → (s = true ↔ x < 0) ∧ r.2 = OF ||| NX ∧ rm ≠ 1 ∧ (rm = 2 → 0 < x) ∧ (rm = 3 → x < 0)
    ∧ ∀ z, f.Number z → |(f.value z).num| < |x|
  noNan : ∀ s, f.value r.1 ≠ .nan s

end Sys2Proof.Machine
end

