-- ==== Sys2Proof/Certificates/Slice0/Obligations.lean ====
section
/-! DEFINITION. The statements about the machine. A statement that covers several words of one kind is the conjunction of its
parts, each a proposition under `Says` with the rules of the manual that it formalises. -/

open Sys2Proof Sys2Proof.Machine

/-- Eight words, each taken from a table of worked encodings of the manual, decode in their column (with their literal,
if they have one) to the instruction and operands of the assembly line beside them. -/
def Obligations.SpecWordsDecode : Prop :=
  decode .X 0x05840000 (some 0x003C0004) = .ok ⟨false, 0, .screen 0 4 0 0x003C0004⟩
  ∧ decode .S 0x188A17F3 none = .ok ⟨false, 0, .std 5 2 0xFE⟩
  ∧ decode .V 0x0C184711 none = .ok ⟨false, 0, .vfclt 3 2 7 1⟩
  ∧ decode .M 0x0194130E none = .ok ⟨false, 0, .mplyk 1 4 1 12 3 1⟩
  ∧ decode .X 0x0282524C (some 0x00001404) = .ok ⟨false, 0, .send 0 2 5 9 3 0x00001404⟩
  ∧ decode .S 0x00286507 none = .ok ⟨false, 0, .loopc 3 20 7⟩
  ∧ decode .X 0x21243208 (some 0x00001411) = .ok ⟨false, 1, .rfetch 2 4 12 8 0 1 0x00001411⟩
  ∧ decode .X 0x00400030 none = .ok ⟨false, 0, .swaitb 0 6 0⟩

/-- For every instruction, every column whose map has it, every Y and D and every value its operand fields allow:
decoding the word and the literal that encode gives returns the instruction with its Y and D. -/
def Obligations.EncodedInstructionsDecode : Prop :=
 ∀ i, Laws.RoundTrip.Statement i

/-- If a 32-bit word decodes in a column, encoding the result gives back the word bit for bit, the instruction is well
formed and stands in that column's map, and its literal, where it has one, is the word that followed. No two words
stand for one instruction, and no reserved bit is dropped. -/
def Obligations.DecodedWordsEncode : Prop :=
  ∀ (c : Col) (w : Nat) (lit : Option W32) (d : Decoded), w < 2 ^ 32 → decode c w lit = .ok d →
    encode d = some (w, d.ins.literal) ∧ d.ins.wellFormed = true ∧ d.ins.inColumn c = true
      ∧ (∀ l, d.ins.literal = some l → lit = some l)

/-- For each column, a word whose major its map reserves (0x3F among them) is refused whatever its other bits are, and
for each other major some word of that major decodes. -/
def Obligations.ReservedMajorsAreRefused : Prop :=
  (∀ (c : Col) (w : Nat) (lit : Option W32), bits w 23 6 ∈ reservedMajors c → decode c w lit = .error .reservedMajor)
  ∧ ∀ (c : Col) (m : Nat), m < 64 → m ∉ reservedMajors c →
      ∃ w < 2 ^ 32, bits w 23 6 = m ∧ ∃ d, decode c w (some 0) = .ok d

/-- Outside a slot, when the turn is an issue: a word past the store or one that does not decode raises
ILLEGAL_ENCODING, a tagged word LITERAL_EXEC, and every other word is executed by exec in the state in which its
column has moved on and the issue context is set; a Y-marked word that is not bundled raises RENDEZVOUS first in
strict mode and does not execute in lenient mode. Where corrected errors stand in an on-die store (`State.soft`), the step is that one
with the events of those it meets. -/
def Obligations.StepRunsTheDecodedWord : Prop :=
  ∀ (s : State) (t k : Nat) (o : Col) (c : Core) (sh : Sheet), s.slot = none → s.turn = .issue t k o →
    (s.advance t).Runs k c sh →
    let s' := s.advance t
    let e := c.col o
    let a := e.cu.pc
    let w := e.word a
    let n := t - sh.t0
    let x := e.context k o n
    let ill := fun (d : Decoded) => c.illCode x d.ins.literal.isSome
    let steps := fun (r : Host.Outcome State Fault Refusal) => s.oneStep = r ∧ (s.soft = [] → step s = r)
    (0x1FFF < a → steps (.next (s'.refuseWord k c { x with addr := 0x2000, word := 0 } cIllegal)))
    ∧ (a ≤ 0x1FFF → e.tagged a = true → steps (.next (s'.refuseWord k c x cLiteral)))
    ∧ (a ≤ 0x1FFF → e.tagged a = false → (∀ d, decode o w.toNat (e.literal a) = .ok d → d.ins.literalOk = false) →
        steps (.next (s'.refuseWord k c x cIllegal)))
    ∧ (∀ d, a ≤ 0x1FFF → e.tagged a = false → decode o w.toNat (e.literal a) = .ok d → d.ins.literalOk = true →
        ill d ≠ [] → steps (.next ((s'.setCore k (c.pass o n)).raiseAll sh.id (ill d))))
    ∧ (∀ d, a ≤ 0x1FFF → e.tagged a = false → decode o w.toNat (e.literal a) = .ok d → d.ins.literalOk = true → ill d = [] →
        let u := if ownPace d.ins then ({ e.cu with due := n + 1 }, []) else e.after k n d.ins.literal.isSome
        let r := ({ s' with cur := x }.setCore k (c.setCursor o
          { u.1 with yAt := if d.y then some n else u.1.yAt })).postAll sh.t0 sh.id u.2
        (d.y = false ∨ c.bundled n = true → steps (exec d.ins r))
        ∧ (d.y = true → c.bundled n = false → sh.lenient = false → steps (exec d.ins
            (r.raiseAll sh.id [⟨cMiss, mRendezvous, x.desc, n, BitVec.ofNat 64 (c.yMask n), 0, 0⟩])))
        ∧ (d.y = true → c.bundled n = false → sh.lenient = true → steps (.next (s'.setCore k (c.pass o n)))))

/-- Each pending step is executed as the instruction of its row of the table; a step takes the earliest pending step in
the order of cycle and phase, or opens the slot of a seam before everything stamped with its TTC, or, with nothing
due, lets one cycle pass; PCC advances with TTC in every package. Where corrected errors stand in on-die stores, the step is the same
but for the events of those it meets. Phases of a cycle are log entry 4, the order of words in a cycle log entry 8. That untimed
packages idle one cycle at a time is the model's. -/
def Obligations.StepMakesWhatIsDueFirst : Prop :=
  let issues := fun (s : State) (k : Nat) (o : Col) (t : Nat) => ∃ c sh, (k, c) ∈ s.cores ∧ s.sheet? c.sh = some sh ∧ sh.state = 5
    ∧ sh.held = .none ∧ sh.stall = none ∧ (c.col o).cu.ended = none ∧ t = sh.t0 + (c.col o).cu.due
  (∀ (a : Act) (s : State), s.illReads a = none → runAct a s = exec a.instr s)
  ∧ (∀ (a : Act) (s t : State) id fs, s.illReads a = some (id, fs) → exec a.instr s = .next t →
      runAct a s = .next (t.raiseAll id fs))
  ∧ (∀ (s : State), s.slot = none → (∀ e r, s.turn = .event e r →
      s.oneStep = runAct e.act (State.advance { s with agenda := r } e.ttc)))
  ∧ (∀ (s : State) n, s.slot = none → s.turn = .seam n → s.oneStep = exec .maintenanceSlot (s.advance n))
  ∧ (∀ (s : State), s.slot = none → s.turn = .idle → s.oneStep = .next (s.advance (s.ttc + 1)))
  ∧ (∀ (s : State), s.soft = [] → step s = s.oneStep)
  ∧ (∀ (s t : State), s.oneStep = .next t → ∃ u, step s = .next u ∧ t.CorrectedBy u)
  ∧ (∀ (s : State) e r, s.turn = .event e r → e ∈ s.agenda ∧ (∀ f, f ∈ s.agenda ↔ f = e ∨ f ∈ r)
      ∧ (∀ f ∈ s.agenda, e.ttc < f.ttc ∨ (e.ttc = f.ttc ∧ e.ph ≤ f.ph))
      ∧ ∀ k o t, issues s k o t → e.ttc < t ∨ (e.ttc = t ∧ e.ph < phIssue))
  ∧ (∀ (s : State) t k o, s.turn = .issue t k o → issues s k o t
      ∧ (∀ f ∈ s.agenda, t < f.ttc ∨ (t = f.ttc ∧ phIssue ≤ f.ph))
      ∧ ∀ k' o' t', issues s k' o' t' → t ≤ t' ∧ (t = t' → o.code ≤ o'.code ∧ (o = o' → k % 256 ≤ k' % 256)))
  ∧ (∀ (s : State) n, s.turn = .seam n → s.domainFormed = true ∧ n = 4096 * (s.seams + 1) ∧ (∀ e ∈ s.agenda, n ≤ e.ttc)
      ∧ ∀ k o t, issues s k o t → n ≤ t)
  ∧ (∀ (s : State), s.turn = .idle → s.domainFormed = false ∧ s.agenda = [] ∧ ∀ k o t, ¬issues s k o t)
  ∧ ∀ (s : State) t, s.ttc ≤ t → (s.advance t).ttc = t
      ∧ ∀ q < s.pkgs.length, ((s.advance t).pkg q).pcc = (s.pkg q).pcc + BitVec.ofNat 64 (t - s.ttc)

/-- If the HBM of every package and the scratchpad of every core, running or saved, list their bytes by rising address
with no zero byte listed, they do so after a step. The form is the model's; an unlisted byte reads as 0 by log entry
3. -/
def Obligations.MemoryStaysCanonical : Prop :=
  ∀ (s t : State), s.MemCanonical → step s = .next t → t.MemCanonical

/-- Registers, lanes, accumulators, semaphores, tags, rings, bound stores, table banks, counters, package registers,
partitions, slots, ports and mailboxes: if they are in canonical form in every core and package, they are after a
step, and every couched version stays a whole line of 64 bytes. The form is the model's. -/
def Obligations.StorageStaysCanonical : Prop :=
  ∀ (s t : State), s.Canonical → step s = .next t → t.Canonical

/-- R6, R16, R337, R348, R373 -/
def Says.ResetState : Prop :=
  State.reset.Canonical ∧ State.reset.ttc = 0 ∧ State.reset.cores = [] ∧ State.reset.sheets = [] ∧ State.reset.agenda = []
  ∧ State.reset.slot = none
  ∧ ∀ p ∈ State.reset.pkgs, p.pcc = 0 ∧ p.formed = false ∧ p.dstate = 0 ∧ p.cqSize = 0 ∧ p.evNext = 1 ∧ p.parts = []
      ∧ p.power = 0 ∧ p.mail = []

/-- R139, R12, R15, R60, R78, R85, R142, R145, R182 -/
def Says.ResetSpecials : Prop :=
  ∀ (k n : Nat), State.reset.specialOf k n =
    if n = 4 then 0x1000 else if 32 ≤ n ∧ n ≤ 55 then 0x3F800000 else 0

/-- R308, R315, R338, R339, R349, R352, R366, R368, R376, R379, R381, R382 -/
def Says.ResetBar : Prop :=
  ∀ (q off : Nat), q < 4 → off % 8 = 0 → State.reset.readBar q off =
    if off = 0x30000 then 1 else if 0x33000 ≤ off ∧ off < 0x330C0 then 0x76543210 else 0

/-- After reset all storage is in canonical form, TTC and every PCC are 0, no package is aligned, no sheet, core or pending step is
there, no partition is valid, event ids begin at 1. Every special register of every core and every register of BAR0 reads as its
reset value; a core that no sheet holds is not listed (log entry 55). Which packages there are is log entry 10. Of the model's
choices, agenda = [] is log entry 14 and power = 0, the active state, log entry 16. -/
def Obligations.ResetState : Prop :=
  Says.ResetState ∧ Says.ResetSpecials ∧ Says.ResetBar

/-- Every instruction of these columns but MARK and BRK answers a next state in every state; no package (so no byte of any HBM), no
other core, no saved tag and no pending step differs, nor do the time and the issue context. Only the steps by which issue itself
goes on (the next repetition, the next iteration of a rotating loop) are held back where a lenient sheet stalls; and where the
core's sheet does not run any more, an uncorrectable error that the word meets is an event of the package (R348; log entry 61),
which has no other change. -/
def Obligations.ProgramWordsKeepTheRest : Prop :=
  ∀ (s : State) (i : Instr), i.inColumn .S = true ∨ i.inColumn .V = true ∨ i.inColumn .M = true →
    (∀ n, i ≠ .mark n) → (∀ n, i ≠ .brk n) →
    ∃ t : State, exec i s = .next t ∧ t.ttc = s.ttc ∧ t.cur = s.cur ∧ t.slot = s.slot ∧ t.frames = s.frames
      ∧ ((∀ c sh, s.core? s.cur.k = some c → s.sheet? c.sh = some sh → sh.state = 5 ∧ sh.stops = []) → t.pkgs = s.pkgs)
      ∧ (t.pkgs.map fun p => { p with reports := [], trial := none }) = s.pkgs.map (fun p => { p with reports := [], trial := none })
      ∧ (∀ k ≠ s.cur.k, t.core? k = s.core? k) ∧ ∀ e ∈ s.agenda, pacedCore e.act = none → e ∈ t.agenda

/-- R121, R125, R126 -/
def Says.IntegerRegisterResults : Prop :=
  ∀ (s : State) (c : Core) (sh : Sheet) (rd ra rb : BitVec 6), s.Runs s.cur.k c sh → s.cur.off = false →
    let a := c.sget ra.toNat
    let b := c.sget rb.toNat
    let gives := fun (i : Instr) (lat : Nat) (v : W64) => s.GivesS sh c i rd lat (v, 0)
    let free := fun (rs : List (BitVec 6)) (lat : Nat) =>
      c.Ready s.cur (rs.map fun r => sReg r.toNat) [(sReg rd.toNat, s.cur.t + lat)]
    (free [ra, rb] 1 →
      gives (.add rd ra rb) 1 (a + b) ∧ gives (.sub rd ra rb) 1 (a - b)
      ∧ gives (.smin rd ra rb) 1 (if a.toInt < b.toInt then a else b)
      ∧ gives (.smax rd ra rb) 1 (if a.toInt < b.toInt then b else a)
      ∧ gives (.sand rd ra rb) 1 (a &&& b) ∧ gives (.sor rd ra rb) 1 (a ||| b)
      ∧ gives (.sxor rd ra rb) 1 (a ^^^ b) ∧ gives (.andn rd ra rb) 1 (a &&& ~~~ b)
      ∧ gives (.shl rd ra rb) 1 (a <<< b.extractLsb' 0 6) ∧ gives (.shr rd ra rb) 1 (a >>> b.extractLsb' 0 6)
      ∧ gives (.sar rd ra rb) 1 (a.sshiftRight' (b.extractLsb' 0 6)))
    ∧ (free [ra] 1 → gives (.clz rd ra) 1 a.clz ∧ gives (.popc rd ra) 1 a.cpop)
    ∧ (free [ra, rb] 3 →
      gives (.mul rd ra rb) 3 (a * b)
      ∧ gives (.mulh rd ra rb) 3 ((a.signExtend 128 * b.signExtend 128).extractLsb' 64 64))
    ∧ (free [ra, rb] 10 →
      gives (.div rd ra rb) 10 (if b = 0 then 0xFFFFFFFFFFFFFFFF else a.sdiv b)
      ∧ gives (.rem rd ra rb) 10 (if b = 0 then a else a.srem b))

/-- R126 -/
def Says.ImmediateResults : Prop :=
  ∀ (s : State) (c : Core) (sh : Sheet) (rd ra : BitVec 6) (i : BitVec 11), s.Runs s.cur.k c sh → s.cur.off = false →
    let a := c.sget ra.toNat
    let b : W64 := i.signExtend 64
    let gives := fun (i : Instr) (lat : Nat) (v : W64) => s.GivesS sh c i rd lat (v, 0)
    let free := fun (lat : Nat) => c.Ready s.cur [sReg ra.toNat] [(sReg rd.toNat, s.cur.t + lat)]
    (free 1 → gives (.addi rd ra i) 1 (a + b) ∧ gives (.andi rd ra i) 1 (a &&& b) ∧ gives (.ori rd ra i) 1 (a ||| b)
      ∧ gives (.xori rd ra i) 1 (a ^^^ b) ∧ gives (.mini rd ra i) 1 (if a.toInt < b.toInt then a else b))
    ∧ (free 3 → gives (.muli rd ra i) 3 (a * b))
    ∧ (free 1 → i.toNat < 64 → gives (.shli rd ra i) 1 (a <<< i.toNat) ∧ gives (.shri rd ra i) 1 (a >>> i.toNat)
      ∧ gives (.sari rd ra i) 1 (a.sshiftRight i.toNat))

/-- ADD to POPC and their immediate forms: each completes, writes the stated value to its destination at issue plus its
latency, raises no flag, and leaves everything else of the state as it is. Division by zero and the most negative
dividend give the values the manual states. -/
def Obligations.IntegerResults : Prop :=
  Says.IntegerRegisterResults ∧ Says.ImmediateResults

/-- R127 -/
def Says.CompareResults : Prop :=
  ∀ (s : State) (c : Core) (sh : Sheet) (pd : BitVec 3) (ra rb : BitVec 6) (i : BitVec 11),
    s.Runs s.cur.k c sh → s.cur.off = false →
    let a := c.sget ra.toNat
    let b := c.sget rb.toNat
    let m : W64 := i.signExtend 64
    let gives := fun (i : Instr) (r : Bool) => s.GivesP sh c i pd 1 r 0
    (c.Ready s.cur [sReg ra.toNat, sReg rb.toNat] [(pReg pd.toNat, s.cur.t + 1)] →
      gives (.ceq pd ra rb) (decide (a = b)) ∧ gives (.cne pd ra rb) (decide (a ≠ b))
      ∧ gives (.clt pd ra rb) (decide (a.toInt < b.toInt)) ∧ gives (.cge pd ra rb) (decide (b.toInt ≤ a.toInt))
      ∧ gives (.cltu pd ra rb) (decide (a.toNat < b.toNat)) ∧ gives (.cgeu pd ra rb) (decide (b.toNat ≤ a.toNat)))
    ∧ (c.Ready s.cur [sReg ra.toNat] [(pReg pd.toNat, s.cur.t + 1)] →
      gives (.ceqi pd ra i) (decide (a = m)) ∧ gives (.cnei pd ra i) (decide (a ≠ m))
      ∧ gives (.clti pd ra i) (decide (a.toInt < m.toInt)) ∧ gives (.cgei pd ra i) (decide (m.toInt ≤ a.toInt))
      ∧ gives (.cltui pd ra i) (decide (a.toNat < m.toNat)) ∧ gives (.cgeui pd ra i) (decide (m.toNat ≤ a.toNat)))

/-- R128 -/
def Says.PredicateLogicResults : Prop :=
  ∀ (s : State) (c : Core) (sh : Sheet) (pd pa pb : BitVec 3), s.Runs s.cur.k c sh → s.cur.off = false →
    c.Ready s.cur [pReg pa.toNat, pReg pb.toNat] [(pReg pd.toNat, s.cur.t + 1)] →
    let a := c.pget pa.toNat
    let b := c.pget pb.toNat
    s.GivesP sh c (.pand pd pa pb) pd 1 (a && b) 0 ∧ s.GivesP sh c (.por pd pa pb) pd 1 (a || b) 0
    ∧ s.GivesP sh c (.pxor pd pa pb) pd 1 (xor a b) 0 ∧ s.GivesP sh c (.pandn pd pa pb) pd 1 (a && !b) 0
    ∧ (pb = 0 → s.GivesP sh c (.pxor pd pa pb) pd 1 (!a) 0)

/-- R129, R130 -/
def Says.SelectAndConstantResults : Prop :=
  ∀ (s : State) (c : Core) (sh : Sheet) (rd ra rb : BitVec 6) (p : BitVec 3) (k : BitVec 17) (v : W32) (n : BitVec 8)
    (q : BitVec 2) (h : BitVec 16), s.Runs s.cur.k c sh → s.cur.off = false →
    let free := fun (rs : List (Nat × Nat)) => c.Ready s.cur rs [(sReg rd.toNat, s.cur.t + 1)]
    let gives := fun (i : Instr) (v : W64) => s.GivesS sh c i rd 1 (v, 0)
    (free [sReg ra.toNat, sReg rb.toNat, pReg p.toNat] →
      gives (.sel rd ra rb p) (if c.pget p.toNat then c.sget ra.toNat else c.sget rb.toNat))
    ∧ (free [] → gives (.ldk rd k) (k.signExtend 64) ∧ gives (.lit rd v) (v.setWidth 64))
    ∧ (free [constReg n.toNat] → gives (.ldc rd n) ((Tab.get 0 c.cbank n.toNat).setWidth 64))
    ∧ (free [sReg rd.toNat] → ∃ w : W64, gives (.ldkh q rd h) w
      ∧ w.extractLsb' (16 * q.toNat) 16 = h
      ∧ ∀ j < 64, j / 16 ≠ q.toNat → w.getLsbD j = (c.sget rd.toNat).getLsbD j)

/-- R106, R121 -/
def Says.PredicatedOffScalarWords : Prop :=
  ∀ (s : State) (c : Core) (sh : Sheet) (i : Instr), s.Runs s.cur.k c sh → s.cur.off = true →
    i.inColumn .S = true → i.inColumn .X = false → (∀ p, i ≠ .ifp p) → exec i s = .next (s.leaves sh s.cur.k c [])

/-- Each word completes, writes the stated p-register or s-register at issue plus 1 and changes nothing else; every S
word but IF, predicated off, leaves its core as it was. -/
def Obligations.CompareSelectAndConstantResults : Prop :=
  Says.CompareResults ∧ Says.PredicateLogicResults ∧ Says.SelectAndConstantResults ∧ Says.PredicatedOffScalarWords

/-- R134 -/
def Says.ScalarFloatResults : Prop :=
  ∀ (s : State) (c : Core) (sh : Sheet) (rd ra rb : BitVec 6) (pd : BitVec 3) (h : BitVec 16),
    s.Runs s.cur.k c sh → s.cur.off = false →
    let a := (c.sget ra.toNat).toNat % 2 ^ 32
    let b := (c.sget rb.toNat).toNat % 2 ^ 32
    let d := (c.sget rd.toNat).toNat % 2 ^ 32
    let gives := fun (i : Instr) (lat : Nat) (r : FRes) => s.GivesS sh c i rd lat (BitVec.ofNat 64 r.1, r.2)
    let free := fun (rs : List (BitVec 6)) (lat : Nat) =>
      c.Ready s.cur (rs.map fun r => sReg r.toNat) [(sReg rd.toNat, s.cur.t + lat)]
    (free [ra, rb] 4 →
      gives (.fadd rd ra rb) 4 (fp32.fadd 0 a b) ∧ gives (.fsub rd ra rb) 4 (fp32.fsub 0 a b)
      ∧ gives (.fmul rd ra rb) 4 (fp32.fmul 0 a b) ∧ gives (.fmin rd ra rb) 4 (fp32.fminmax false a b)
      ∧ gives (.fmax rd ra rb) 4 (fp32.fminmax true a b))
    ∧ (free [ra, rb] 12 → gives (.fdiv rd ra rb) 12 (fp32.fdiv 0 a b))
    ∧ (free [ra] 12 → gives (.fsqrt rd ra) 12 (fp32.fsqrt 0 a))
    ∧ (free [ra, rb, rd] 4 → gives (.ffma rd ra rb) 4 (fp32.ffma 0 a b d false false))
    ∧ (free [rd] 4 → gives (.faddi rd h) 4 (fp32.fadd 0 d (h.toNat * 2 ^ 16))
      ∧ gives (.fmuli rd h) 4 (fp32.fmul 0 d (h.toNat * 2 ^ 16)))
    ∧ (c.Ready s.cur [sReg ra.toNat, sReg rb.toNat] [(pReg pd.toNat, s.cur.t + 2)] →
      s.GivesP sh c (.fceq pd ra rb) pd 2 (fp32.feq a b).1 (fp32.feq a b).2
      ∧ s.GivesP sh c (.fclt pd ra rb) pd 2 (fp32.flt a b).1 (fp32.flt a b).2
      ∧ s.GivesP sh c (.fcle pd ra rb) pd 2 (fp32.fle a b).1 (fp32.fle a b).2)

/-- R135 -/
def Says.ScalarConversionResults : Prop :=
  ∀ (s : State) (c : Core) (sh : Sheet) (rd ra : BitVec 6), s.Runs s.cur.k c sh → s.cur.off = false →
    c.Ready s.cur [sReg ra.toNat] [(sReg rd.toNat, s.cur.t + 2)] →
    let a := c.sget ra.toNat
    let gives := fun (i : Instr) (r : W64 × Flags) => s.GivesS sh c i rd 2 r
    (∀ sig, fp32.value (a.toNat % 2 ^ 32) = .nan sig → gives (.ftoi rd ra) (0, NV) ∧ gives (.ftoiz rd ra) (0, NV))
    ∧ (∀ neg, fp32.value (a.toNat % 2 ^ 32) = .inf neg →
        let v : W64 := if neg then 0x8000000000000000 else 0x7FFFFFFFFFFFFFFF
        gives (.ftoi rd ra) (v, NV ||| IS) ∧ gives (.ftoiz rd ra) (v, NV ||| IS))
    ∧ (∀ neg m e, fp32.value (a.toNat % 2 ^ 32) = .fin neg m e →
        let r := fun (rm : Nat) =>
          let g := roundGrid rm neg m e 0
          let i : Int := if neg then -(g.1 : Int) else g.1
          if i < -2 ^ 63 then ((0x8000000000000000 : W64), NV ||| IS)
          else if 2 ^ 63 - 1 < i then (0x7FFFFFFFFFFFFFFF, NV ||| IS)
          else (BitVec.ofInt 64 i, if g.2 then 0 else NX)
        gives (.ftoi rd ra) (r 0) ∧ gives (.ftoiz rd ra) (r 1))
    ∧ gives (.itof rd ra) (BitVec.ofNat 64 (fp32.pack 0 (.fin (decide (a.toInt < 0)) a.toInt.natAbs 0)).1,
        (fp32.pack 0 (.fin (decide (a.toInt < 0)) a.toInt.natAbs 0)).2)

/-- Sums, products, quotients, roots, fused sums, minimum, maximum, compares and conversions on bits 31:0 of the source:
each completes with the value and the flags of one rounding of the exact result, at its latency, and changes nothing
else. -/
def Obligations.ScalarFloatResults : Prop :=
  Says.ScalarFloatResults ∧ Says.ScalarConversionResults

/-- In FP32, BF16 and FP16, in each of the four rounding modes, for all operands that are numbers: the result is the
nearest number (ties to even), or the nearest one toward zero, above or below; it is an infinity only beyond the
largest number; NX is set exactly when it is not the exact result; it is never a NaN. -/
def Obligations.SumsAndProductsRoundOnce : Prop :=
  ∀ (f : FloatFmt) (rm a b c : Nat), f = fp32 ∨ f = bf16 ∨ f = fp16 → rm < 4 → f.Number a → f.Number b → f.Number c →
    let x := (f.value a).num
    let y := (f.value b).num
    let z := (f.value c).num
    f.Rounds rm (x + y) (f.fadd rm a b) ∧ f.Rounds rm (x - y) (f.fsub rm a b) ∧ f.Rounds rm (x * y) (f.fmul rm a b)
    ∧ f.Rounds rm (x * y + z) (f.ffma rm a b c false false) ∧ f.Rounds rm (x * y - z) (f.ffma rm a b c false true)
    ∧ f.Rounds rm (z - x * y) (f.ffma rm a b c true false) ∧ (y ≠ 0 → f.Rounds rm (x / y) (f.fdiv rm a b))

/-- R131, R132, R81 -/
def Says.LoadStoreIssue : Prop :=
  ∀ (s : State) (c : Core) (sh : Sheet) (rd ra : BitVec 6) (o : BitVec 8), s.Runs s.cur.k c sh → s.cur.off = false →
    let t := s.cur.t
    let d : Desc := ⟨s.cur.k, s.cur.col, s.cur.addr, t + 2, t⟩
    let addr := fun (size : Nat) => c.sget ra.toNat + o.signExtend 64 * BitVec.ofNat 64 size
    let fits := fun (size : Nat) => (addr size).toNat < 0x180000 ∧ (addr size).toNat % size = 0
    let writable := fun (size : Nat) => (c.bfmtReg ((addr size).toNat / 65536)).getLsbD 38 = false
    let load := fun (i : Instr) (size : Nat) (sext : Bool) =>
      c.Ready s.cur [sReg ra.toNat] [(sReg rd.toNat, t + 6)] →
        (fits size → exec i s = .next (s.leaves sh s.cur.k (c.claim s.cur [(sReg rd.toNat, t + 6)])
          [(t + 2, phRead, .sScratchAccess s.cur.k ⟨d, (addr size).toNat, size, sext, rd.toNat, none⟩)]))
        ∧ (¬fits size → exec i s = .next ((s.leaves sh s.cur.k c []).raiseAll sh.id
            [⟨cRegion, rScratch, s.cur.desc, t, addr size, 0, 0⟩]))
    let store := fun (i : Instr) (size : Nat) =>
      c.Ready s.cur [sReg ra.toNat, sReg rd.toNat] [] →
        (fits size → writable size → exec i s = .next (s.leaves sh s.cur.k (c.claim s.cur [])
          [(t + 2, phWrite, .sScratchAccess s.cur.k ⟨d, (addr size).toNat, size, false, 0, some (c.sget rd.toNat)⟩)]))
        ∧ (fits size → ¬writable size → exec i s = .next ((s.leaves sh s.cur.k c []).raiseAll sh.id
            [⟨cProtect, 0, s.cur.desc, t, addr size, BitVec.ofNat 64 ((addr size).toNat / 65536), 0⟩]))
        ∧ (¬fits size → ((addr size).toNat < 0x180000 → writable size) → exec i s
            = .next ((s.leaves sh s.cur.k c []).raiseAll sh.id [⟨cRegion, rScratch, s.cur.desc, t, addr size, 0, 0⟩]))
        ∧ (¬fits size → (addr size).toNat < 0x180000 → ¬writable size → exec i s
            = .next ((s.leaves sh s.cur.k c []).raiseAll sh.id [⟨cRegion, rScratch, s.cur.desc, t, addr size, 0, 0⟩,
              ⟨cProtect, 0, s.cur.desc, t, addr size, BitVec.ofNat 64 ((addr size).toNat / 65536), 0⟩]))
    load (.ldb rd ra o) 1 true ∧ load (.ldh rd ra o) 2 true ∧ load (.ldw rd ra o) 4 true ∧ load (.ldd rd ra o) 8 false
    ∧ load (.ldbu rd ra o) 1 false ∧ load (.ldhu rd ra o) 2 false ∧ load (.ldwu rd ra o) 4 false
    ∧ store (.stb rd ra o) 1 ∧ store (.sth rd ra o) 2 ∧ store (.stw rd ra o) 4 ∧ store (.std rd ra o) 8

/-- R4, R80, R132, R272 -/
def Says.ScratchAccessEffect : Prop :=
  ∀ (s : State) (c : Core) (sh : Sheet) (k : Nat) (a : SAccess), s.Runs k c sh → c.Canonical →
    (a.size = 1 ∨ a.size = 2 ∨ a.size = 4 ∨ a.size = 8) → a.addr % a.size = 0 →
    let t := s.task sh
    c.Quiet t a.addr (a.addr + a.size - 1) →
    (a.store = none → (∀ r ∈ s.writersNow k 0, r.2 < a.addr ∨ a.addr + a.size - 1 < r.1) →
      let raw := c.bytesAt a.addr a.size
      let v : W64 := if a.sext && decide (2 ^ (8 * a.size - 1) ≤ raw) then BitVec.ofInt 64 (raw - 2 ^ (8 * a.size))
        else BitVec.ofNat 64 raw
      ∃ c', exec (.sScratchAccess k a) s = .next (s.leaves sh k c' [(t + 4, phStart, .registerWriteback k (.s a.rd) v 0)])
        ∧ c' = { c with acc1 := c'.acc1 })
    ∧ (∀ v, a.store = some v → c.Latest a.d a.addr (a.addr + a.size - 1) →
      ∃ c', exec (.sScratchAccess k a) s = .next (s.leaves sh k c' [])
        ∧ c' = { c with acc1 := c'.acc1, wlast := c'.wlast, spad := c'.spad, tags := c'.tags }
        ∧ (∀ i < a.size, c'.byte (a.addr + i) = v.extractLsb' (8 * i) 8)
        ∧ (∀ x, x < a.addr ∨ a.addr + a.size ≤ x → c'.byte x = c.byte x)
        ∧ (∀ f, f ≠ a.addr / 4096 ∨ c.inRing f = true → ∀ u, c'.tagAt u f = c.tagAt u f)
        ∧ (c.inRing (a.addr / 4096) = false → (Tab.get ⟨0, 0, 0⟩ c.tags (a.addr / 4096)).cyc ≤ t →
            ∀ u > t, c'.tagAt u (a.addr / 4096) = c.tagAt u (a.addr / 4096) + 1))

/-- Each load and store that lies in the scratchpad and is aligned posts its access for cycle t + 2, else raises its
fault; the access reads or writes exactly the bytes of its size at its address, lowest byte first, extends a signed
load, advances the frame's generation tag, and every other byte stays. -/
def Obligations.LoadsAndStores : Prop :=
  Says.LoadStoreIssue ∧ Says.ScratchAccessEffect

/-- R133, R88 -/
def Says.AtomicIssue : Prop :=
  ∀ (s : State) (c : Core) (sh : Sheet) (rd ra rb : BitVec 6) (sz : BitVec 2), s.Runs s.cur.k c sh → s.cur.off = false →
    let t := s.cur.t
    let d : Desc := ⟨s.cur.k, s.cur.col, s.cur.addr, t + 2, t⟩
    let a := c.sget ra.toNat
    let size := if sz = 0 then 4 else 8
    let free := c.Ready s.cur [sReg ra.toNat, sReg rb.toNat, sReg rd.toNat] [(sReg rd.toNat, t + 5)]
    let starts := fun (i : Instr) (op : AtomKind) => ∃ c',
      exec i s = .next (s.leaves sh s.cur.k c' [(t + 2, phRead, .atomRead s.cur.k
        ⟨d, op, a.toNat, size, c.sget rb.toNat, c.sget rd.toNat, rd.toNat⟩)])
      ∧ c' = { c.claim s.cur [(sReg rd.toNat, t + 5)] with rmw := c'.rmw }
      ∧ ⟨a.toNat / 64, t + 2, t + 4, d, false⟩ ∈ c'.rmw
    let refused := fun (i : Instr) (f : CFault) => exec i s = .next ((s.leaves sh s.cur.k c []).raiseAll sh.id [f])
    let all := fun (p : Instr → AtomKind → Prop) =>
      p (.atomadd rd ra rb sz) .add ∧ p (.atommin rd ra rb sz) .min ∧ p (.atommax rd ra rb sz) .max
      ∧ p (.atomswp rd ra rb sz) .swp ∧ p (.atomcas rd ra rb sz) .cas
    free →
    (a.toNat < 0x180000 → a.toNat % size = 0 → (c.bfmtReg (a.toNat / 65536)).getLsbD 38 = false → all starts)
    ∧ (a.toNat < 0x180000 → a.toNat % size = 0 → (c.bfmtReg (a.toNat / 65536)).getLsbD 38 = true →
        all fun i _ => refused i ⟨cProtect, 0, s.cur.desc, t, a, BitVec.ofNat 64 (a.toNat / 65536), 0⟩)
    ∧ (0x180000 ≤ a.toNat ∨ (a.toNat % size ≠ 0 ∧ (c.bfmtReg (a.toNat / 65536)).getLsbD 38 = false) →
        all fun i _ => refused i ⟨cRegion, rScratch, s.cur.desc, t, a, 0, 0⟩)

/-- R133 -/
def Says.AtomicAccess : Prop :=
  ∀ (s : State) (c : Core) (sh : Sheet) (k : Nat) (a : AtomOp), s.Runs k c sh → c.Canonical →
    (a.size = 4 ∨ a.size = 8) → a.addr % a.size = 0 →
    let t := s.task sh
    let w := 8 * a.size
    let signed := fun (n : Nat) => if n % 2 ^ w < 2 ^ (w - 1) then ((n % 2 ^ w : Nat) : Int) else (n % 2 ^ w : Nat) - 2 ^ w
    let others : Core → Core := fun c => { c with rmw := c.rmw.filter fun r => !(sameWord r.d a.d) }
    (∀ r ∈ c.rmw, sameWord r.d a.d = true → r.void = false) →
    (others c).Quiet t a.addr (a.addr + a.size - 1) →
    (∃ c', exec (.atomRead k a) s = .next (s.leaves sh k c'
        [(t + 3, phStart, .registerWriteback k (.s a.rd) (BitVec.ofInt 64 (signed (c.bytesAt a.addr a.size))) 0),
          (t + 2, phAtom, .atomWrite k a (BitVec.ofInt 64 (signed (c.bytesAt a.addr a.size))))])
      ∧ c' = { c with acc1 := c'.acc1 })
    ∧ (c.Latest a.d a.addr (a.addr + a.size - 1) → ∀ m : W64,
      let new : Option Int := match a.op with
        | .add => some (signed m.toNat + signed a.b.toNat)
        | .min => some (min (signed m.toNat) (signed a.b.toNat))
        | .max => some (max (signed m.toNat) (signed a.b.toNat))
        | .swp => some (signed a.b.toNat)
        | .cas => if signed m.toNat = signed a.e.toNat then some (signed a.b.toNat) else none
      ∃ c', exec (.atomWrite k a m) s = .next (s.leaves sh k c' [])
        ∧ c' = { c with rmw := (others c).rmw, acc1 := c'.acc1, wlast := c'.wlast, spad := c'.spad, tags := c'.tags }
        ∧ (new = none → c'.spad = c.spad ∧ c'.tags = c.tags)
        ∧ (∀ v, new = some v → c'.bytesAt a.addr a.size = (v % 2 ^ w).toNat)
        ∧ (∀ x, x < a.addr ∨ a.addr + a.size ≤ x → c'.byte x = c.byte x))

/-- R61, R121, R122, R138 to R142 -/
def Says.RegisterWriteback : Prop :=
  ∀ (s : State) (c : Core) (sh : Sheet) (k n : Nat) (v : W64) (fl : Flags), s.Runs k c sh → c.Canonical →
    let t := s.task sh
    let flags := fun (c' : Core) => c.fcyc ≤ t → c'.flagsAt t = c.flagsAt t ∧ ∀ u > t, c'.flagsAt u = c.flagsAt u ||| fl
    (∃ c', exec (.registerWriteback k (.s n) v fl) s = .next (s.leaves sh k c' [])
      ∧ c' = { c with s := c'.s, fflags := c'.fflags, fset := c'.fset, fcyc := c'.fcyc } ∧ flags c'
      ∧ (n = 0 → c'.s = c.s) ∧ (n ≠ 0 → c'.sget n = v) ∧ ∀ m, m ≠ n → c'.sget m = c.sget m)
    ∧ (n < 8 → ∃ c', exec (.registerWriteback k (.p n) v fl) s = .next (s.leaves sh k c' [])
      ∧ c' = { c with p := c'.p, fflags := c'.fflags, fset := c'.fset, fcyc := c'.fcyc } ∧ flags c'
      ∧ c'.pget 0 = true ∧ (n = 0 → c'.p = c.p) ∧ (n ≠ 0 → c'.pget n = v.getLsbD 0)
      ∧ ∀ m < 8, m ≠ n → c'.pget m = c.pget m)
    ∧ exec (.registerWriteback k (.sp 9) v 0) s = .next (s.leaves sh k { c with shape := v.extractLsb' 0 21 } [])
    ∧ exec (.registerWriteback k (.sp 10) v 0) s = .next (s.leaves sh k { c with base := v.extractLsb' 0 4 } [])
    ∧ (∀ b < 24, exec (.registerWriteback k (.sp (32 + b)) v 0) s
        = .next (s.leaves sh k { c with bfmt := Tab.set 0x3F800000 b (v.extractLsb' 0 39) c.bfmt } []))
    ∧ (∀ j < 96, exec (.registerWriteback k (.sp (64 + j)) v 0) s
        = .next (s.leaves sh k { c with bcb := Tab.set 0 j v c.bcb } []))

/-- The five atomic words open their window and read at t + 2; the read returns the old value and the write stores the
new one (none for a compare that fails) in the same cycle; a result reaches its register, its flags one cycle later;
s0 and p0 keep their values. -/
def Obligations.AtomicsAndWritebacks : Prop :=
  Says.AtomicIssue ∧ Says.AtomicAccess ∧ Says.RegisterWriteback

/-- WID gives field j of the current work identifier by the mixed radix of the declared bounds; a word whose j is above
5 does not decode. WIDN sets LIN to the minimum of LIN + G and 2^40 - 1 and gives the new WIDB, VALID included. -/
def Obligations.WorkIdentifierWords : Prop :=
  (∀ (w : Nat) (l : Option W32) (d : Decoded) (rd : BitVec 6) (j : BitVec 9), decode .S w l = .ok d → d.ins = .wid rd j →
    j.toNat ≤ 5)
  ∧ ∀ (s : State) (c : Core) (sh : Sheet) (rd : BitVec 6) (j : BitVec 9), s.Runs s.cur.k c sh → s.cur.off = false →
    c.Ready s.cur [] [(sReg rd.toNat, s.cur.t + 1)] →
    let ws := sh.words
    let bounds := (List.range 6).map (recLim ws)
    (j.toNat < 6 → s.GivesS sh c (.wid rd j) rd 1
      (BitVec.ofNat 64 (c.lin.toNat / (bounds.take j.toNat).prod % recLim ws j.toNat), 0))
    ∧ (let lin : BitVec 40 := BitVec.ofNat 40 (min (c.lin.toNat + recGang ws) (2 ^ 40 - 1))
       let widb : W64 := lin.setWidth 64 + if lin.toNat < bounds.prod then 0x8000000000000000 else 0
       exec (.widn rd) s = .next (s.leaves sh s.cur.k { c.claim s.cur [(sReg rd.toNat, s.cur.t + 1)] with lin := lin }
         [(s.cur.t + 1, phStart, .registerWriteback s.cur.k (.s rd.toNat) widb 0)]))

/-- R143 -/
def Says.CalendarRead : Prop :=
  (∀ (w : Nat) (l : Option W32) (d : Decoded) (rd : BitVec 6) (k : BitVec 9), decode .S w l = .ok d → d.ins = .cal rd k →
    k.toNat ≤ 256)
  ∧ ∀ (s : State) (c : Core) (sh : Sheet) (rd : BitVec 6) (k : BitVec 9), s.Runs s.cur.k c sh → s.cur.off = false →
    c.Ready s.cur [] [(sReg rd.toNat, s.cur.t + 1)] → k.toNat ≤ 256 →
    let n := if k.toNat = 256 then (s.ttc / 1048576 + 1) * 1048576 else (s.ttc / 4096 + 1 + k.toNat) * 4096
    let major := decide (n % 1048576 = 0)
    let change := major && s.announced.any fun a => a.1 == n
    let revoked := major && s.announced.any fun a => a.1 == n && a.2.2
    s.GivesS sh c (.cal rd k) rd 1 (BitVec.ofNat 64 (n + major.toNat + 2 * change.toNat + 4 * revoked.toNat), 0)

/-- R144 -/
def Says.AbortEndsTheSheet : Prop :=
  ∀ (s : State) (c : Core) (sh : Sheet) (rd : BitVec 6) (code : BitVec 9), s.Runs s.cur.k c sh →
    c.Ready s.cur [sReg rd.toNat] [] →
    (s.cur.off = true → exec (.abort rd code) s = .next (s.leaves sh s.cur.k c []))
    ∧ (s.cur.off = false → exec (.abort rd code) s
        = .next ((s.leaves sh s.cur.k (c.claim s.cur []) []).raise sh.id
            ((s.leaves sh s.cur.k (c.claim s.cur []) []).faultRec sh
              ⟨cAbort, 0, s.cur.desc, s.cur.t, code.setWidth 64, c.sget rd.toNat, 0⟩)))

/-- CAL returns the TTC of the selected seam with bit 0 for a major slot, bit 1 for an announced clock change there, bit
2 for an announced lease revocation; selectors 257 to 511 do not decode. ABORT raises ABORT_REQUEST with its code
and the value of s[rd]; predicated off it does nothing. -/
def Obligations.CalendarAndAbort : Prop :=
  Says.CalendarRead ∧ Says.AbortEndsTheSheet

/-- R138 to R142, R19 -/
def Says.SpecialRegisterReads : Prop :=
  ∀ (s : State) (c : Core) (sh : Sheet) (rd : BitVec 6) (n : BitVec 9), s.Runs s.cur.k c sh → s.cur.off = false →
    c.Ready s.cur [] [(sReg rd.toNat, s.cur.t + 1)] →
    let pkg := s.pkg (s.cur.k / 256)
    let reads := fun (v : W64) => s.GivesS sh c (.rdsp rd n) rd 1 (v, 0)
    let one := fun (b : Bool) => if b then (1 : W64) else 0
    (n = 0 → reads pkg.pcc) ∧ (n = 1 → reads (BitVec.ofNat 64 (sh.t0 + s.cur.t)))
    ∧ (n = 2 → reads (BitVec.ofNat 64 s.cur.t)) ∧ (n = 3 → reads (BitVec.ofNat 64 sh.t0))
    ∧ (n = 4 → ∃ m, reads (BitVec.ofNat 64 m) ∧ 4096 ∣ m ∧ s.ttc < m ∧ m ≤ s.ttc + 4096)
    ∧ (n = 5 → reads (BitVec.ofNat 64 sh.holds)) ∧ (n = 6 → reads c.gang)
    ∧ (n = 7 → sh.part < 8 →
        reads (BitVec.ofNat 64 sh.part <<< 23 ||| pkg.dsize.setWidth 64 <<< 11 ||| pkg.num.setWidth 64))
    ∧ (n = 8 → reads (c.lin.setWidth 64 + one (decide (c.lin.toNat < recWork sh.words)) <<< 63))
    ∧ (n = 9 → reads (c.shape.setWidth 64)) ∧ (n = 10 → reads (c.base.setWidth 64 + one c.rot <<< 4))
    ∧ (n = 11 → reads ((c.flagsAt s.cur.t).setWidth 64))
    ∧ (n = 12 → reads ((sh.sec.getD c.prank 0).setWidth 64 <<< 3 ||| one sh.priv <<< 2
        ||| one (decide (sh.dbg.getD c.prank 0 ≠ 0)) <<< 1 ||| one sh.lenient))
    ∧ (n = 13 → reads pkg.lease)
    ∧ (16 ≤ n.toNat → n.toNat ≤ 31 → reads (c.occ_ s.cur.t (n.toNat - 16)))
    ∧ (32 ≤ n.toNat → n.toNat ≤ 55 → reads ((c.bfmtReg (n.toNat - 32)).setWidth 64))
    ∧ (64 ≤ n.toNat → n.toNat ≤ 159 → reads (Tab.get 0 c.bcb (n.toNat - 64)))

/-- R138 to R142, R79 -/
def Says.SpecialRegisterWrites : Prop :=
  ∀ (s : State) (c : Core) (sh : Sheet) (rs : BitVec 6) (n : BitVec 9), s.Runs s.cur.k c sh → s.cur.off = false →
    c.Ready s.cur [sReg rs.toNat] [] →
    let v := c.sget rs.toNat
    let c1 := c.claim s.cur []
    let ignored := exec (.wrsp rs n) s = .next (s.leaves sh s.cur.k c1 [])
    let taken := exec (.wrsp rs n) s = .next (s.leaves sh s.cur.k c1
      [(s.cur.t + 1, phStart, .registerWriteback s.cur.k (.sp n.toNat) v 0)])
    let illegal := fun (x : Nat) => exec (.wrsp rs n) s = .next ((s.leaves sh s.cur.k c1 []).raiseAll sh.id
      [⟨cIllegal, 0, s.cur.desc, s.cur.t, s.cur.word.setWidth 64, BitVec.ofNat 64 x, 0⟩])
    (n.toNat ≤ 8 ∨ n = 12 ∨ n = 13 ∨ (16 ≤ n.toNat ∧ n.toNat ≤ 31) → ignored)
    ∧ (n = 9 → (v.extractLsb' 8 3).toNat < 6 → taken)
    ∧ (n = 9 → 6 ≤ (v.extractLsb' 8 3).toNat → illegal (v.extractLsb' 8 3).toNat)
    ∧ (n = 10 → taken)
    ∧ (n = 11 → ∃ c', exec (.wrsp rs n) s = .next (s.leaves sh s.cur.k c' [])
        ∧ c' = { c1 with fflags := c'.fflags, fset := c'.fset, fcyc := c'.fcyc }
        ∧ (c.fcyc ≤ s.cur.t → ∀ f < 6,
            (c'.flagsAt s.cur.t).getLsbD f = ((c.flagsAt s.cur.t).getLsbD f && !v.getLsbD f)))
    ∧ (32 ≤ n.toNat → n.toNat ≤ 55 → sh.priv = true → (v.extractLsb' 32 4).toNat < 12 → taken)
    ∧ (32 ≤ n.toNat → n.toNat ≤ 55 → sh.priv = true → 12 ≤ (v.extractLsb' 32 4).toNat →
        illegal (v.extractLsb' 32 4).toNat)
    ∧ (64 ≤ n.toNat → n.toNat ≤ 159 → sh.priv = true → taken)
    ∧ ((32 ≤ n.toNat ∧ n.toNat ≤ 55) ∨ (64 ≤ n.toNat ∧ n.toNat ≤ 159) → sh.priv = false → ignored)

/-- R138 -/
def Says.UnassignedSpecials : Prop :=
  ∀ (o : Col) (w : Nat) (l : Option W32) (d : Decoded) (r : BitVec 6) (n : BitVec 9), decode o w l = .ok d →
    d.ins = .rdsp r n ∨ d.ins = .wrsp r n →
    n.toNat ≤ 13 ∨ (16 ≤ n.toNat ∧ n.toNat ≤ 55) ∨ (64 ≤ n.toNat ∧ n.toNat ≤ 159)

/-- RDSP gives the value of each assigned number; WRSP is taken, ignored, or raises ILLEGAL_ENCODING as the register's
access and the sheet's PRIV bit have it, and clears FFLAGS bits that are written 1. Neither decodes with a number that is not
assigned. -/
def Obligations.SpecialRegisters : Prop :=
  Says.SpecialRegisterReads ∧ Says.SpecialRegisterWrites ∧ Says.UnassignedSpecials

/-- R123 -/
def Says.SemaphoreWords : Prop :=
  ∀ (s : State) (c : Core) (sh : Sheet) (b : BitVec 10) (r : BitVec 6) (e : BitVec 1), s.Runs s.cur.k c sh →
    c.Canonical →
    let t := s.cur.t
    let idx := if e = 0 then b.toNat else ((c.sget (b.toNat % 64)).toNat % 1024)
    let v := c.sget r.toNat
    let others := fun (c' : Core) => ∀ j, j ≠ idx → ∀ u, c'.semAt u j = c.semAt u j
    c.Ready s.cur ((if e = 0 then [sReg r.toNat] else [sReg (b.toNat % 64), sReg r.toNat]) ++ [semReg idx]) [] →
    (c.semAt t idx).cyc ≤ t →
    let own := fun (e : Event) => s.cur.col == .V && pacedCore e.act == some s.cur.k
    let held := (s.agenda.filter fun e => e.paces sh.id && !own e).map fun e => (e.ttc - sh.t0, e.ph, e.act)
    (∃ c', exec (.sadd b r e) s = .next (s.leaves sh s.cur.k c' [])
      ∧ c' = { c.claim s.cur [] with sem := c'.sem } ∧ others c'
      ∧ (c'.semAt t idx).count = (c.semAt t idx).count
      ∧ ∀ u > t, (c'.semAt u idx).count.toNat = min ((c.semAt u idx).count.toNat + v.toNat % 2 ^ 32) (2 ^ 32 - 1)
        ∧ (c'.semAt u idx).pend = (c.semAt u idx).pend)
    ∧ (v.toNat % 2 ^ 32 ≤ (c.semAt t idx).count.toNat →
      ∃ c', exec (.swait b r e) s = .next (s.leaves sh s.cur.k c' [])
        ∧ c' = { c.claim s.cur [] with sem := c'.sem } ∧ others c'
        ∧ (c'.semAt t idx).count.toNat = (c.semAt t idx).count.toNat - v.toNat % 2 ^ 32
        ∧ (c'.semAt t idx).pend = (c.semAt t idx).pend)
    ∧ (v.toNat % 2 ^ 40 ≤ (c.semAt t idx).pend.toNat →
      ∃ c', exec (.swaitb b r e) s = .next (s.leaves sh s.cur.k c' [])
        ∧ c' = { c.claim s.cur [] with sem := c'.sem } ∧ others c'
        ∧ (c'.semAt t idx).pend.toNat = (c.semAt t idx).pend.toNat - v.toNat % 2 ^ 40
        ∧ (c'.semAt t idx).count = (c.semAt t idx).count)
    ∧ (sh.lenient = false → (c.semAt t idx).count.toNat < v.toNat % 2 ^ 32 →
      exec (.swait b r e) s = .next (s.raiseAll sh.id [⟨cMiss, mSwait, s.cur.desc, t, BitVec.ofNat 64 idx,
        BitVec.ofNat 64 (v.toNat % 2 ^ 32), (c.semAt t idx).count.setWidth 64⟩]))
    ∧ (sh.lenient = false → (c.semAt t idx).pend.toNat < v.toNat % 2 ^ 40 →
      exec (.swaitb b r e) s = .next (s.raiseAll sh.id [⟨cMiss, mSwait, s.cur.desc, t, BitVec.ofNat 64 (idx + 65536),
        BitVec.ofNat 64 (v.toNat % 2 ^ 40), (c.semAt t idx).pend.setWidth 64⟩]))
    ∧ (sh.lenient = true → (c.semAt t idx).count.toNat < v.toNat % 2 ^ 32 →
      ∃ s', exec (.swait b r e) s = .next s' ∧ s'.pkgs = s.pkgs
        ∧ s'.agenda = (s.agenda.filter fun e => !(e.paces sh.id))
          ++ [⟨sh.t0 + t + 1, phStart, some sh.id, .lenientStallRecheck sh.id⟩]
        ∧ s'.sheets = s.sheets.map fun x =>
            if x.id == sh.id then { x with stall := some (t, .sem s.cur.k idx false (v.toNat % 2 ^ 32)), paced := held } else x)
    ∧ (sh.lenient = true → (c.semAt t idx).pend.toNat < v.toNat % 2 ^ 40 →
      ∃ s', exec (.swaitb b r e) s = .next s' ∧ s'.pkgs = s.pkgs
        ∧ s'.agenda = (s.agenda.filter fun e => !(e.paces sh.id))
          ++ [⟨sh.t0 + t + 1, phStart, some sh.id, .lenientStallRecheck sh.id⟩]
        ∧ s'.sheets = s.sheets.map fun x =>
            if x.id == sh.id then { x with stall := some (t, .sem s.cur.k idx true (v.toNat % 2 ^ 40)), paced := held } else x)

/-- R31 -/
def Says.LenientStall : Prop :=
  ∀ (s : State) (sh : Sheet) (start : Nat) (w : Waiting), s.sheet? sh.id = some sh → sh.stall = some (start, w) →
    start ≤ s.task sh →
    (s.waitOver (s.task sh) w = false → sh.stops = [] →
      exec (.lenientStallRecheck sh.id) s
        = .next (s.post (s.ttc + 1) phStart (some sh.id) (.lenientStallRecheck sh.id)))
    ∧ (s.waitOver (s.task sh) w = true → ∃ s', exec (.lenientStallRecheck sh.id) s = .next s'
        ∧ s'.pkgs = s.pkgs ∧ s'.ttc = s.ttc
        ∧ s'.agenda = s.agenda ++ sh.paced.map (fun e =>
            ⟨sh.t0 + (e.1 + (s.task sh - start)), e.2.1, some sh.id, e.2.2⟩)
        ∧ (∀ k c, s.core? k = some c → c.sh ≠ sh.id → s'.core? k = some c)
        ∧ (∀ k c, s.core? k = some c → c.sh = sh.id → ∃ c', s'.core? k = some c'
            ∧ c' = { c with cols := c'.cols, board := c'.board, fwd := c'.fwd }
            ∧ (c'.board.map fun p => (p.cls, p.num, p.done, p.d)) = c.board.map (fun p => (p.cls, p.num, p.done, p.d))
            ∧ ∀ o, ((c'.col o).code = (c.col o).code ∧ (c'.col o).cu.pc = (c.col o).cu.pc
              ∧ (c'.col o).cu.due = if (c.col o).cu.due < start then (c.col o).cu.due
                  else (c.col o).cu.due + (s.task sh - start))
              ∧ (c'.col o).cu.yAt = (if (c.col o).cu.yAt = some start then some (s.task sh) else (c.col o).cu.yAt))
        ∧ ∀ sh', s'.sheet? sh.id = some sh' → sh'.stall = none)

/-- SADD adds to the count, saturating, for later cycles; SWAIT and SWAITB take the amount when it is there; else a
strict sheet raises SCHEDULE_MISS, SWAIT, and a lenient sheet stalls its whole gang. A stalled sheet is looked at
again each cycle and goes on, moved by the cycles it stalled, once the wait is over. -/
def Obligations.SemaphoresAndStalls : Prop :=
  Says.SemaphoreWords ∧ Says.LenientStall

/-- R22, R23, R25, R102, R181 -/
def Says.PaceWords : Prop :=
  ∀ (s : State) (c : Core) (sh : Sheet), s.Runs s.cur.k c sh →
    let x := s.cur
    let o := c.col x.col
    let prev : Cursor := { x.prev with yAt := o.cu.yAt }
    let goesOn := fun (i : Instr) (c : Core) (n base : Nat) => exec i s = .next (s.leaves sh x.k
      (c.setCursor x.col (o.goOn x.k prev n base).1) (o.goOn x.k prev n base).2)
    let opens := fun (i : Instr) (c : Core) (last n pad : Nat) => exec i s = .next (s.leaves sh x.k
      (c.setCursor x.col { prev with
        pc := x.addr + 1
        due := x.t + 1 + o.dOf (x.addr + 1)
        loops := ⟨x.addr + 1, last, n - 1, pad, 0, none⟩ :: prev.loops
        gov := .plain }) [])
    let rotates := fun (i : Instr) (c : Core) (last n pad st : Nat) => exec i s = .next (s.leaves sh x.k
      (c.setCursor x.col { prev with
        pc := x.addr + 1
        due := x.t + 1 + o.dOf (x.addr + 1)
        loops := ⟨x.addr + 1, last, n - 1, pad, 0, some (st, n)⟩ :: prev.loops
        gov := .plain }) [(x.t + 1, phTurn, .rotatingIterationBoundary x.k 0 n st)])
    let plain := x.col ≠ .V ∨ c.shape.extractLsb' 0 3 = 0
    (∀ n, goesOn (.idle n) c (x.addr + 1) (x.t + n.toNat))
    ∧ exec .align s = .next s
    ∧ exec .endc s = .next (s.leaves sh x.k
        (c.setCursor x.col { prev with ended := some x.t, loops := [] }) [(x.t, phStop, .sheetEnd c.sh)])
    ∧ (∀ n bl, let last := x.addr + 1 + bl.toNat
        plain → o.loopOk x.prev x.addr last = true →
          (n = 0 → goesOn (.loop n bl) c (last + 1) (x.t + 1)) ∧ (n ≠ 0 → opens (.loop n bl) c last n.toNat 0))
    ∧ (∀ r bl cap, let last := x.addr + 1 + bl.toNat
        let n := min (c.sget r.toNat).toNat (cap.toNat + 1)
        let pad := (cap.toNat + 1 - n) * o.span 8192 (x.addr + 1) last
        plain → o.loopOk x.prev x.addr last = true → c.Ready x [sReg r.toNat] [] →
          (n = 0 → goesOn (.loopc r bl cap) (c.claim x []) (last + 1) (x.t + 1 + pad))
          ∧ (n ≠ 0 → opens (.loopc r bl cap) (c.claim x []) last n pad))
    ∧ (∀ n (bl : BitVec 7), let last := x.addr + 1 + bl.toNat
        let st := (c.shape.extractLsb' 0 3).toNat + 1
        ¬plain → o.loopOk x.prev x.addr last = true →
          (∀ r cap, o.rotatable x.addr last st = false → ∀ i ∈ [Instr.loop n bl, .loopc r bl cap], exec i s
            = .next ((s.leaves sh x.k c []).raiseAll sh.id [⟨cIllegal, 0, x.desc, x.t, x.word.setWidth 64, 0, 0⟩]))
          ∧ (o.rotatable x.addr last st = true →
            (n = 0 → goesOn (.loop n bl) c (last + 1) (x.t + 1))
            ∧ (n ≠ 0 → rotates (.loop n bl) c last n.toNat 0 st)
            ∧ ∀ r cap, let m := min (c.sget r.toNat).toNat (cap.toNat + 1)
              let pad := (cap.toNat + 1 - m) * o.span 8192 (x.addr + 1) last
              c.Ready x [sReg r.toNat] [] → (m = 0 → goesOn (.loopc r bl cap) (c.claim x []) (last + 1) (x.t + 1 + pad))
                ∧ (m ≠ 0 → rotates (.loopc r bl cap) (c.claim x []) last m pad st)))
    ∧ (∀ n r cap (bl : BitVec 7), o.loopOk x.prev x.addr (x.addr + 1 + bl.toNat) = false →
        ∀ i ∈ [Instr.loop n bl, .loopc r bl cap], exec i s = .next ((s.leaves sh x.k c []).raiseAll sh.id
          [⟨cIllegal, 0, x.desc, x.t, x.word.setWidth 64, 0, 0⟩]))

/-- R22, R23, R184 -/
def Says.WhereAColumnGoesOn : Prop :=
  ∀ (o : Column) (k : Nat) (cu : Cursor) (n base : Nat),
    ((∀ l ∈ cu.loops.head?, n ≤ l.last) →
      o.goOn k cu n base = ({ cu with pc := n, due := base + o.dOf n, gov := .plain }, []))
    ∧ ∀ l r, cu.loops = l :: r → l.last < n →
      let turn := match l.rot with
        | some (st, cnt) => [(base, phTurn, Act.rotatingIterationBoundary k (l.iter + 1) cnt st)]
        | none => []
      (0 < l.left → o.goOn k cu n base = ({ cu with
        pc := l.start
        due := base + o.dOf l.start
        loops := { l with left := l.left - 1, iter := l.iter + 1 } :: r
        gov := .plain }, turn))
      ∧ (l.left = 0 → let u := o.goOn k { cu with loops := r } (l.last + 1) (base + l.pad)
        o.goOn k cu n base = (u.1, turn ++ u.2))

/-- Each word completes with the column's next address, due cycle and open loops; a loop with count 0 passes its body;
LOOPC pads to its cap; a loop whose structure is broken raises ILLEGAL_ENCODING whatever its count register holds; in the V
column a loop rotates where SHAPE says so, if its body may; at the last body word a loop goes back until its count is used up, then
goes on after its body, and each turn of a rotating loop is a boundary. -/
def Obligations.PaceOfAColumn : Prop :=
  Says.PaceWords ∧ Says.WhereAColumnGoesOn

/-- R106 to R109 -/
def Says.GoverningWords : Prop :=
  ∀ (s : State) (c : Core) (sh : Sheet), s.Runs s.cur.k c sh →
    let x := s.cur
    let o := c.col x.col
    let g := x.addr + 1
    let w := (o.word g).toNat
    let prev : Cursor := { x.prev with yAt := o.cu.yAt }
    let sound := ∃ d, decode x.col w (o.literal g) = .ok d ∧ d.ins.literalOk = true
    let own : CFault := ⟨cIllegal, 0, ⟨x.k, x.col, g, x.t, x.t⟩, x.t, (o.word g).setWidth 64, 0, 0⟩
    (∀ p, o.governable x.prev false g = true → sound → c.Ready x [pReg p.toNat] [] →
      exec (.ifp p) s = .next (s.leaves sh x.k ((c.claim x []).setCursor x.col
        { prev with pc := g, due := x.t, gov := .cond (c.pget p.toNat) x.t }) []))
    ∧ (∀ p, o.governable x.prev false g = false →
      exec (.ifp p) s = .next ((s.leaves sh x.k c []).raiseAll sh.id
        [⟨cIllegal, 0, x.desc, x.t, (o.word g).setWidth 64, 0, 0⟩]))
    ∧ (∀ p, o.governable x.prev false g = true → ¬sound → c.Ready x [pReg p.toNat] [] →
      exec (.ifp p) s = .next ((s.leaves sh x.k c []).raiseAll sh.id [own]))
    ∧ (∀ n stride, o.governable x.prev true g = true → ¬sound →
      exec (.rep n stride) s = .next ((s.leaves sh x.k c []).raiseAll sh.id [own]))
    ∧ (∀ n stride, o.governable x.prev true g = true → sound →
      let last := fun (r : Nat) => r + (n.toNat - 1) * stride.toNat
      let vd := last (bits w 18 5)
      let va := last (bits w 13 5) + (if bits w 23 6 = 0x1D then 1 else 0)
      let mask := bits w 23 6 = 0x20 ∨ bits w 23 6 = 0x21
      (n ≠ 0 → vd ≤ 31 → (mask ∨ va ≤ 31) → exec (.rep n stride) s = .next (s.leaves sh x.k (c.setCursor x.col
        { prev with pc := g, due := x.t, gov := .rep 0 n.toNat stride.toNat c.shape x.t }) []))
      ∧ (n = 0 → exec (.rep n stride) s = .next (s.leaves sh x.k
          (c.setCursor x.col (o.goOn x.k prev (x.addr + 2) (x.t + 1)).1) (o.goOn x.k prev (x.addr + 2) (x.t + 1)).2))
      ∧ (n ≠ 0 → 31 < vd → exec (.rep n stride) s = .next ((s.leaves sh x.k c []).raiseAll sh.id
          [⟨cRange, 0, x.desc, x.t, BitVec.ofNat 64 vd, 0, 0⟩]))
      ∧ (n ≠ 0 → vd ≤ 31 → ¬mask → 31 < va → exec (.rep n stride) s = .next ((s.leaves sh x.k c []).raiseAll sh.id
          [⟨cRange, 0, x.desc, x.t, BitVec.ofNat 64 va, 0, 0⟩])))

/-- R107, R161 -/
def Says.RepetitionFallsDue : Prop :=
  ∀ (s : State) (c : Core) (sh : Sheet) (k i j n stride at_ : Nat) (shape : BitVec 21), s.Runs k c sh →
    (c.col .V).cu.gov = .rep j n stride shape at_ →
    exec (.repRepetition k i) s = .next (s.leaves sh k
      (c.setCursor .V { (c.col .V).cu with due := s.task sh, gov := .rep i n stride shape at_ }) [])

/-- R184 -/
def Says.RotatingBoundary : Prop :=
  ∀ (s : State) (c : Core) (sh : Sheet) (k i n st : Nat), s.Runs k c sh → c.Canonical → 0 < st → st ≤ 8 →
    ∃ c', exec (.rotatingIterationBoundary k i n st) s = .next (s.leaves sh k c' [])
      ∧ c' = { c with base := c'.base, q := c'.q, rot := c'.rot }
      ∧ c'.base = (if i = 0 then c.base else c.base - 1)
      ∧ c'.rot = decide (i < n)
      ∧ (i < n → ∀ j < st, c'.qget (8 + j)
          = List.replicate 64 (if j ≤ i ∧ i - j + (st - 1) < n then 0xFFFF else 0))
      ∧ (∀ j, j < 8 ∨ 8 + st ≤ j → c'.qget j = c.qget j)
      ∧ (n ≤ i → c'.q = c.q)

/-- IF and REP complete with the column standing at the governed word; a word that may not stand under them raises ILLEGAL_ENCODING,
a register beyond v31 REGISTER_RANGE; REP 0 executes nothing. At a boundary of a rotating loop BASE goes down by one and the stage
predicates are set. That a repetition of no iteration is not checked for registers beyond v31 is the model's (log entry 50). -/
def Obligations.GoverningWordsAndRepetition : Prop :=
  Says.GoverningWords ∧ Says.RepetitionFallsDue ∧ Says.RotatingBoundary

/-- R147 to R152 -/
def Says.VectorFloatResults : Prop :=
  ∀ (s : State) (c : Core) (sh : Sheet) (vd va vb : BitVec 5) (q : BitVec 4) (fmt : FloatFmt),
    s.Runs s.cur.k c sh → etyFloat (c.shapeFor s.cur).ety = some fmt →
    let x := s.cur
    let rm := (c.shapeFor x).rm
    let w := fmt.width
    let d := c.phys (x.repReg vd.toNat)
    let a := c.phys (x.repReg va.toNat)
    let b := c.phys vb.toNat
    let on := laneOn (c.shapeFor x) (c.qget q.toNat)
    let two := fun (f : Nat → Nat → FRes) (l j : Nat) => f (c.elem x a w l j) (c.elem x b w l j)
    let three := fun (f : Nat → Nat → Nat → FRes) (l j : Nat) => f (c.elem x a w l j) (c.elem x b w l j) (c.elem x d w l j)
    let free := fun (lat : Nat) (rs : List (Nat × Nat)) => c.Ready x rs [(vReg d, x.t + lat)]
    (∃ l < 1024, on l = true) →
    (free 4 [vReg a, qReg q.toNat, vReg b] →
      s.GivesLanes sh c (.vadd vd va vb q) d 4 on w (two (fmt.fadd rm))
      ∧ s.GivesLanes sh c (.vsub vd va vb q) d 4 on w (two (fmt.fsub rm))
      ∧ s.GivesLanes sh c (.vmul vd va vb q) d 4 on w (two (fmt.fmul rm))
      ∧ s.GivesLanes sh c (.vmin vd va vb q) d 4 on w (two (fmt.fminmax false))
      ∧ s.GivesLanes sh c (.vmax vd va vb q) d 4 on w (two (fmt.fminmax true)))
    ∧ (free 12 [vReg a, qReg q.toNat, vReg b] → s.GivesLanes sh c (.vdiv vd va vb q) d 12 on w (two (fmt.fdiv rm)))
    ∧ (free 4 [vReg a, qReg q.toNat, vReg b, vReg d] →
      s.GivesLanes sh c (.vfma vd va vb q) d 4 on w (three fun a b d => fmt.ffma rm a b d false false)
      ∧ s.GivesLanes sh c (.vfms vd va vb q) d 4 on w (three fun a b d => fmt.ffma rm a b d false true)
      ∧ s.GivesLanes sh c (.vfnma vd va vb q) d 4 on w (three fun a b d => fmt.ffma rm a b d true false))

/-- R151 to R153 -/
def Says.VectorFunctionResults : Prop :=
  ∀ (s : State) (c : Core) (sh : Sheet) (vd va : BitVec 5) (q : BitVec 4) (fmt : FloatFmt),
    s.Runs s.cur.k c sh → etyFloat (c.shapeFor s.cur).ety = some fmt →
    let x := s.cur
    let rm := (c.shapeFor x).rm
    let w := fmt.width
    let d := c.phys (x.repReg vd.toNat)
    let a := c.phys (x.repReg va.toNat)
    let on := laneOn (c.shapeFor x) (c.qget q.toNat)
    let gives := fun (i : Instr) (lat : Nat) (f : Nat → FRes) =>
      s.GivesLanes sh c i d lat on w fun l j => f (c.elem x a w l j)
    let free := fun (lat : Nat) => c.Ready x [vReg a, qReg q.toNat] [(vReg d, x.t + lat)]
    (∃ l < 1024, on l = true) →
    (free 8 → gives (.vexp2 vd va q) 8 (fmt.fexp2 rm) ∧ gives (.vlog2 vd va q) 8 (fmt.flog2 rm)
      ∧ gives (.vrcp vd va q) 8 (fmt.frcp rm) ∧ gives (.vrsq vd va q) 8 (fmt.frsq rm)
      ∧ gives (.vsin vd va q) 8 (fmt.fsinpi rm) ∧ gives (.vcos vd va q) 8 (fmt.fcospi rm)
      ∧ gives (.vtanh vd va q) 8 (fmt.ftanh rm))
    ∧ (free 12 → gives (.vsqrt vd va q) 12 (fmt.fsqrt rm))
    ∧ (free 2 → gives (.vabs vd va q) 2 fmt.fabs ∧ gives (.vneg vd va q) 2 fmt.fnegate)

/-- VADD to VFNMA and VEXP2 to VNEG: each completes; each active lane whose mask bit is set takes, in each sub-element,
the value of the operation on that sub-element in SHAPE's rounding mode, other lanes keep theirs, and exactly the
flags that some element raises are set. The values of the functions are those of the model's one correct rounding. -/
def Obligations.VectorFloatResults : Prop :=
  Says.VectorFloatResults ∧ Says.VectorFunctionResults

/-- R154 to R156 -/
def Says.VectorIntegerResults : Prop :=
  ∀ (s : State) (c : Core) (sh : Sheet) (vd va vb : BitVec 5) (q : BitVec 4), s.Runs s.cur.k c sh →
    let x := s.cur
    let w := etyWidth (c.shapeFor x).ety
    let d := c.phys (x.repReg vd.toNat)
    let a := c.phys (x.repReg va.toNat)
    let b := c.phys vb.toNat
    let on := laneOn (c.shapeFor x) (c.qget q.toNat)
    let A := fun (l j : Nat) => BitVec.ofNat w (c.elem x a w l j)
    let B := fun (l j : Nat) => BitVec.ofNat w (c.elem x b w l j)
    let D := fun (l j : Nat) => BitVec.ofNat w (c.elem x d w l j)
    let gives := fun (i : Instr) (f : Nat → Nat → BitVec w) => s.GivesLanes sh c i d 2 on w fun l j => ((f l j).toNat, 0)
    let clamp := fun (n : Int) =>
      if n < -2 ^ (w - 1) then ((BitVec.ofInt w (-2 ^ (w - 1))).toNat, IS)
      else if 2 ^ (w - 1) - 1 < n then ((BitVec.ofInt w (2 ^ (w - 1) - 1)).toNat, IS)
      else ((BitVec.ofInt w n).toNat, 0)
    (∃ l < 1024, on l = true) →
    (c.Ready x [vReg a, qReg q.toNat, vReg b] [(vReg d, x.t + 2)] →
      gives (.viadd vd va vb q) (fun l j => A l j + B l j) ∧ gives (.visub vd va vb q) (fun l j => A l j - B l j)
      ∧ gives (.vimul vd va vb q) (fun l j => A l j * B l j)
      ∧ gives (.vimin vd va vb q) (fun l j => if (A l j).slt (B l j) then A l j else B l j)
      ∧ gives (.vimax vd va vb q) (fun l j => if (A l j).slt (B l j) then B l j else A l j)
      ∧ gives (.viminu vd va vb q) (fun l j => if (A l j).ult (B l j) then A l j else B l j)
      ∧ gives (.vimaxu vd va vb q) (fun l j => if (A l j).ult (B l j) then B l j else A l j)
      ∧ s.GivesLanes sh c (.viadds vd va vb q) d 2 on w (fun l j => clamp ((A l j).toInt + (B l j).toInt))
      ∧ s.GivesLanes sh c (.visubs vd va vb q) d 2 on w (fun l j => clamp ((A l j).toInt - (B l j).toInt))
      ∧ gives (.vand vd va vb q) (fun l j => A l j &&& B l j) ∧ gives (.vor vd va vb q) (fun l j => A l j ||| B l j)
      ∧ gives (.vxor vd va vb q) (fun l j => A l j ^^^ B l j) ∧ gives (.vandn vd va vb q) (fun l j => A l j &&& ~~~ B l j)
      ∧ gives (.vshl vd va vb q) (fun l j => A l j <<< B l j) ∧ gives (.vshr vd va vb q) (fun l j => A l j >>> B l j)
      ∧ gives (.vsar vd va vb q) (fun l j => (A l j).sshiftRight' (B l j)))
    ∧ (c.Ready x [vReg a, qReg q.toNat] [(vReg d, x.t + 2)] →
      gives (.vclz vd va q) (fun l j => (A l j).clz) ∧ gives (.vpopc vd va q) (fun l j => (A l j).cpop))
    ∧ (c.Ready x [vReg a, qReg q.toNat, vReg b, vReg d] [(vReg d, x.t + 2)] →
      gives (.vfshl vd va vb q) (fun l j => ((D l j ++ A l j) <<< min (B l j).toNat w).extractLsb' w w)
      ∧ gives (.vfshr vd va vb q) (fun l j => ((A l j ++ D l j) >>> min (B l j).toNat w).extractLsb' 0 w))

/-- R66, R151, R156 -/
def Says.VectorImmediateResults : Prop :=
  ∀ (s : State) (c : Core) (sh : Sheet) (vd : BitVec 5) (h : BitVec 16), s.Runs s.cur.k c sh →
    let x := s.cur
    let d := c.phys (x.repReg vd.toNat)
    let on := laneOn (c.shapeFor x) (List.replicate 64 0xFFFF)
    (∀ fmt, etyFloat (c.shapeFor x).ety = some fmt → c.Ready x [vReg d, qReg 0] [(vReg d, x.t + 4)] →
      let rm := (c.shapeFor x).rm
      let w := fmt.width
      let m := if fmt = fp32 then h.toNat * 2 ^ 16 else if fmt = bf16 then h.toNat else (fp16.pack 0 (bf16.value h.toNat)).1
      let gives := fun (i : Instr) (f : Nat → FRes) => s.GivesLanes sh c i d 4 on w fun l j => f (c.elem x d w l j)
      gives (.vaddi vd h) (fun a => fmt.fadd rm a m) ∧ gives (.vmuli vd h) (fun a => fmt.fmul rm a m)
      ∧ gives (.vmaxi vd h) (fun a => fmt.fminmax true a m) ∧ gives (.vmini vd h) (fun a => fmt.fminmax false a m))
    ∧ (let w := etyWidth (c.shapeFor x).ety
       let D := fun (l j : Nat) => BitVec.ofNat w (c.elem x d w l j)
       let gives := fun (i : Instr) (f : Nat → Nat → BitVec w) => s.GivesLanes sh c i d 2 on w fun l j => ((f l j).toNat, 0)
       c.Ready x [vReg d, qReg 0] [(vReg d, x.t + 2)] →
       gives (.viaddi vd h) (fun l j => D l j + h.signExtend w) ∧ gives (.viandi vd h) (fun l j => D l j &&& h.signExtend w)
       ∧ gives (.vishli vd h) (fun l j => D l j <<< h.toNat) ∧ gives (.vishri vd h) (fun l j => D l j >>> h.toNat))

/-- VIADD to VFSHR and the immediate forms, at the width of the element type, with saturation and IS for the saturating
sums, for every active lane whose mask bit is set; other lanes keep their values. -/
def Obligations.VectorIntegerResults : Prop :=
  Says.VectorIntegerResults ∧ Says.VectorImmediateResults

/-- R157 -/
def Says.VectorCompareResults : Prop :=
  ∀ (s : State) (c : Core) (sh : Sheet) (qd : BitVec 4) (va vb : BitVec 5) (q : BitVec 4), s.Runs s.cur.k c sh →
    let x := s.cur
    let a := c.phys va.toNat
    let b := c.phys vb.toNat
    let on := laneOn (c.shapeFor x) (c.qget q.toNat)
    c.Ready x [vReg a, vReg b, qReg q.toNat] [(qReg qd.toNat, x.t + 2)] →
    let gives := fun (i : Instr) (w : Nat) (f : Nat → Nat → Bool × Flags) =>
      s.GivesMask sh c i qd.toNat 2
        (fun l => on l && decide (∀ j < 32 / w, (f (c.elem x a w l j) (c.elem x b w l j)).1 = true))
        (fun bit => ∃ l < 1024, on l = true ∧ ∃ j < 32 / w,
          (f (c.elem x a w l j) (c.elem x b w l j)).2.getLsbD bit = true)
    (∀ fmt, etyFloat (c.shapeFor x).ety = some fmt →
      gives (.vfceq qd va vb q) fmt.width fmt.feq ∧ gives (.vfclt qd va vb q) fmt.width fmt.flt
      ∧ gives (.vfcle qd va vb q) fmt.width fmt.fle ∧ gives (.vfcun qd va vb q) fmt.width fmt.funord)
    ∧ (let w := etyWidth (c.shapeFor x).ety
       let N := fun (n : Nat) => BitVec.ofNat w n
       gives (.viceq qd va vb q) w (fun a b => (N a == N b, 0)) ∧ gives (.viclt qd va vb q) w (fun a b => ((N a).slt (N b), 0))
       ∧ gives (.vicle qd va vb q) w (fun a b => ((N a).sle (N b), 0))
       ∧ gives (.vicltu qd va vb q) w (fun a b => ((N a).ult (N b), 0))
       ∧ gives (.vicleu qd va vb q) w (fun a b => ((N a).ule (N b), 0)))

/-- R158, R160 -/
def Says.VectorSelectAndMaskResults : Prop :=
  ∀ (s : State) (c : Core) (sh : Sheet) (vd va vb : BitVec 5) (q qd qa qb : BitVec 4) (h : BitVec 16),
    s.Runs s.cur.k c sh →
    let x := s.cur
    let d := c.phys (x.repReg vd.toNat)
    let a := c.phys (x.repReg va.toNat)
    let b := c.phys vb.toNat
    let full := List.replicate 64 (0xFFFF : Half)
    let word := fun (q : BitVec 4) (i : Nat) => (c.qget q.toNat).getD i 0
    let masks := fun (i : Instr) (lat : Nat) (f : Nat → Half) => ∃ ws : List Half,
      exec i s = .next (s.leaves sh x.k (c.claim x [(qReg qd.toNat, x.t + lat)])
        [(x.t + lat, phStart, .vResultWriteback x.k ⟨[], [(qd.toNat, ws.map some)], 0⟩)])
      ∧ ws.length = 64 ∧ ∀ i < 64, ws.getD i 0 = f i
    (c.Ready x [vReg a, vReg b, qReg q.toNat] [(vReg d, x.t + 2)] →
      s.GivesLanes sh c (.vsel vd va vb q) d 2 (laneOn (c.shapeFor x) full) 32 fun l _ =>
        (if ((c.qget q.toNat).getD (l % 64) 0).getLsbD (l / 64) then c.elem x a 32 l 0 else c.elem x b 32 l 0, 0))
    ∧ (c.Ready x [qReg qa.toNat, qReg qb.toNat] [(qReg qd.toNat, x.t + 1)] →
      masks (.qand qd qa qb) 1 (fun i => word qa i &&& word qb i)
      ∧ masks (.qor qd qa qb) 1 (fun i => word qa i ||| word qb i)
      ∧ masks (.qxor qd qa qb) 1 (fun i => word qa i ^^^ word qb i)
      ∧ masks (.qandn qd qa qb) 1 (fun i => word qa i &&& ~~~ word qb i))
    ∧ (c.Ready x [qReg qa.toNat] [(qReg qd.toNat, x.t + 1)] → masks (.qnot qd qa) 1 (fun i => ~~~ word qa i))
    ∧ (c.Ready x [] [(qReg qd.toNat, x.t + 1)] → masks (.qseti qd h) 1 (fun _ => h))
    ∧ (c.Ready x [qReg qa.toNat, vReg b] [(qReg qd.toNat, x.t + 3)] →
      masks (.qgath qd qa vb) 3 (fun i => if c.elem x b 32 i 0 < 64 then word qa (c.elem x b 32 i 0) else 0))
    ∧ (let a := c.phys va.toNat
       c.Ready x [vReg a] [(qReg qd.toNat, x.t + 2)] →
       s.GivesMask sh c (.qfromv qd va) qd.toNat 2
         (fun l => laneOn (c.shapeFor x) full l && decide (c.elem x a 32 l 0 ≠ 0)) (fun _ => False))

/-- A compare sets the mask bit of each active lane whose sub-elements all compare true and clears every other bit;
VSEL, QAND to QNOT, QSETI, QGATH and QFROMV give the stated bits; each completes at its latency. -/
def Obligations.VectorComparesAndMasks : Prop :=
  Says.VectorCompareResults ∧ Says.VectorSelectAndMaskResults

/-- R148 to R150 -/
def Says.VectorPredicatedOffAndTypes : Prop :=
  ∀ (s : State) (c : Core) (sh : Sheet) (vd va vb : BitVec 5) (q : BitVec 4) (n : BitVec 6), s.Runs s.cur.k c sh →
    let x := s.cur
    let idle := fun (i : Instr) => exec i s = .next (s.leaves sh x.k c [])
    let float : List Instr := [.vadd vd va vb q, .vsub vd va vb q, .vmul vd va vb q, .vdiv vd va vb q, .vmin vd va vb q,
      .vmax vd va vb q, .vfma vd va vb q, .vfms vd va vb q, .vfnma vd va vb q, .vexp2 vd va q, .vlog2 vd va q,
      .vrcp vd va q, .vrsq vd va q, .vsin vd va q, .vcos vd va q, .vtanh vd va q, .vsqrt vd va q, .vabs vd va q,
      .vneg vd va q]
    let other : List Instr := [.viadd vd va vb q, .visub vd va vb q, .vimul vd va vb q, .vimin vd va vb q,
      .vimax vd va vb q, .viminu vd va vb q, .vimaxu vd va vb q, .viadds vd va vb q, .visubs vd va vb q, .vand vd va vb q,
      .vor vd va vb q, .vxor vd va vb q, .vandn vd va vb q, .vshl vd va vb q, .vshr vd va vb q, .vsar vd va vb q,
      .vclz vd va q, .vpopc vd va q, .vfshl vd va vb q, .vfshr vd va vb q, .vrrot vd va n q, .vcrot vd va n q,
      .vrbc vd va n q, .vcbc vd va n q]
    ((∀ l < 1024, laneOn (c.shapeFor x) (c.qget q.toNat) l = false) →
      (∀ i ∈ other, idle i) ∧ ((etyFloat (c.shapeFor x).ety).isSome = true → ∀ i ∈ float, idle i))
    ∧ (etyFloat (c.shapeFor x).ety = none → ∀ i ∈ float ++ [.vfceq q va vb q, .vfclt q va vb q, .vfcle q va vb q,
        .vfcun q va vb q, .vaddi vd 0, .vmuli vd 0, .vmaxi vd 0, .vmini vd 0],
      exec i s = .next ((s.leaves sh x.k c []).raiseAll sh.id
        [⟨cIllegal, 0, x.desc, x.t, x.word.setWidth 64, BitVec.ofNat 64 ((c.shapeFor x).ety % 256), 0⟩]))

/-- R145, R181 -/
def Says.ShapeAndBaseWords : Prop :=
  ∀ (s : State) (c : Core) (sh : Sheet) (rows : BitVec 4) (cols : BitVec 6) (ety stg : BitVec 3) (rm pol : BitVec 2)
    (rag : BitVec 1) (n : BitVec 4), s.Runs s.cur.k c sh →
    let x := s.cur
    let value : BitVec 21 := rows ++ cols ++ ety ++ rm ++ pol ++ rag ++ stg
    exec (.shape rows cols ety rm pol rag stg) s = .next (s.leaves sh x.k c
      [(x.t + 1, phStart, .registerWriteback x.k (.sp 9) (value.setWidth 64) 0)])
    ∧ exec (.rrb n) s = .next (s.leaves sh x.k c
      [(x.t + 1, phStart, .registerWriteback x.k (.sp 10) (n.setWidth 64) 0)])
    ∧ shapeFields value = ⟨rows.toNat, cols.toNat, ety.toNat, rm.toNat, pol.toNat, rag == 1, stg.toNat⟩

/-- With no lane on, an arithmetic, integer, bit or lane-moving vector word writes nothing, claims nothing and is checked for
nothing; a floating-point word under an integer type raises ILLEGAL_ENCODING with the type; SHAPE and RRB write their registers one cycle later. -/
def Obligations.VectorWordsOffAndShape : Prop :=
  Says.VectorPredicatedOffAndTypes ∧ Says.ShapeAndBaseWords

/-- Each active element is converted once under the mode and policy of the word; with policy TRAP the first element that overflows
is named in CONVERSION_TRAP and nothing is written; with equal types VCVT copies. That a trap is recorded at issue with its later
cycle is log entry 32, that the trapping word sets no flags log entry 33: both are the model's. -/
def Obligations.ConversionResults : Prop :=
  ∀ (s : State) (c : Core) (sh : Sheet) (vd va : BitVec 5) (ty : BitVec 3) (rs : BitVec 1) (rm pol : BitVec 2)
    (q : BitVec 4), s.Runs s.cur.k c sh →
    let x := s.cur
    let ts := (c.shapeFor x).ety
    let tt := ty.toNat
    let mode := if rs = 1 then (c.shapeFor x).rm else rm.toNat
    let d := c.phys (x.repReg vd.toNat)
    let a := c.phys (x.repReg va.toNat)
    let b := c.phys (x.repReg va.toNat + 1)
    let on := laneOn (c.shapeFor x) (c.qget q.toNat)
    let lo := fun (l j : Nat) => c.elem x a (etyWidth ts) l j
    let hi := fun (l j : Nat) => lo l (j + etyCount tt)
    let two := fun (l j : Nat) => if j < etyCount ts then lo l j else c.elem x b (etyWidth ts) l (j - etyCount ts)
    let converts := fun (i : Instr) (fits : Prop) (from_ : Nat → Nat → Nat) (rs : List (Nat × Nat)) =>
      let conv := fun (l j : Nat) => convertTo (etyFmt tt) mode pol.toNat (valueOf (etyFmt ts) [] (from_ l j))
      let traps := fun (l j : Nat) => on l = true ∧ j < etyCount tt ∧ (conv l j).trap = true
      fits → c.Ready x (rs ++ [qReg q.toNat]) [(vReg d, x.t + 4)] →
      ((∃ l < 1024, on l = true) → (∀ l < 1024, ∀ j, ¬traps l j) →
        s.GivesLanes sh c i d 4 on (etyWidth tt) fun l j => ((conv l j).bits, (conv l j).fl))
      ∧ (∀ l < 1024, ∀ j, traps l j → (∀ m < 1024, ∀ n, traps m n → l * etyCount tt + j ≤ m * etyCount tt + n) →
        exec i s = .next ((s.leaves sh x.k (c.claim x [(vReg d, x.t + 4)]) []).raiseAll sh.id
          [⟨cTrap, 0, x.desc, x.t + 4, BitVec.ofNat 64 (l * etyCount tt + j), 0, 0⟩]))
    converts (.vcvt vd va ty rs rm pol q) (etyCount tt = etyCount ts ∧ ts ≠ tt) lo [vReg a]
    ∧ (ts = tt → (∃ l < 1024, on l = true) → c.Ready x [vReg a, qReg q.toNat] [(vReg d, x.t + 4)] →
        s.GivesLanes sh c (.vcvt vd va ty rs rm pol q) d 4 on 32 fun l _ => (c.elem x a 32 l 0, 0))
    ∧ converts (.vpack vd va ty rs rm pol q) (etyCount tt = 2 * etyCount ts ∧ (x.rep ≠ none ∨ va ≠ 31)) two [vReg a, vReg b]
    ∧ converts (.vunpl vd va ty rs rm pol q) (etyCount ts = 2 * etyCount tt) lo [vReg a]
    ∧ converts (.vunph vd va ty rs rm pol q) (etyCount ts = 2 * etyCount tt) hi [vReg a]
    ∧ (∀ i ∈ [Instr.vcvt vd va ty rs rm pol q, .vpack vd va ty rs rm pol q, .vunpl vd va ty rs rm pol q,
        .vunph vd va ty rs rm pol q],
        (match i with
          | .vcvt .. => etyCount tt = etyCount ts
          | .vpack .. => etyCount tt = 2 * etyCount ts ∧ (x.rep ≠ none ∨ va ≠ 31)
          | _ => etyCount ts = 2 * etyCount tt) →
        (∀ l < 1024, on l = false) → exec i s = .next (s.leaves sh x.k c []))

/-- Each lane takes the fold, pairwise in a fixed tree, of the elements of its row, column or segment that count, and
the flags of all the folds; ragged segments fold row after row. -/
def Obligations.ReductionResults : Prop :=
  ∀ (s : State) (c : Core) (sh : Sheet) (vd va : BitVec 5) (q : BitVec 4), s.Runs s.cur.k c sh →
    let x := s.cur
    let d := c.phys (x.repReg vd.toNat)
    let a := c.phys (x.repReg va.toNat)
    let ety := (c.shapeFor x).ety
    let w := etyWidth ety
    let act := laneOn (c.shapeFor x) (List.replicate 64 0xFFFF)
    let on := laneOn (c.shapeFor x) (c.qget q.toNat)
    let start := fun (l : Nat) => ((c.qget q.toNat).getD (l % 64) 0).getLsbD (l / 64)
    let rag := (c.shapeFor x).rag
    let leaf := fun (p : Bool) (l j : Nat) => if p then some (c.elem x a w l j) else none
    let gives := fun (i : Instr) (lat : Nat) (f : Nat → Nat → Nat × Flags) =>
      c.Ready x [vReg a, qReg q.toNat] [(vReg d, x.t + lat)] → s.GivesLanes sh c i d lat act w f
    let op := fun (k : RedKind) => redOp k ety (c.shapeFor x).rm
    let rows := fun (k : RedKind) (l j : Nat) =>
      redOver (op k) 6 fun n => leaf (on (64 * (l / 64) + n)) (64 * (l / 64) + n) j
    let cols := fun (k : RedKind) (l j : Nat) => redOver (op k) 4 fun n => leaf (on (64 * n + l % 64)) (64 * n + l % 64) j
    let rowSegs := fun (k : RedKind) (l j : Nat) => redOver (op k) 6 fun n =>
      let m := 64 * (l / 64) + n
      leaf (act m && sameSegment start l m) m j
    let colSegs := fun (k : RedKind) (l j : Nat) => redOver (op k) 4 fun n =>
      let m := 64 * n + l % 64
      leaf (act m && sameSegment (fun r => start (64 * r + l % 64)) (l / 64) n) m j
    let ragged := fun (k : RedKind) (l j : Nat) =>
      let mine := fun (m : Nat) => act m && sameSegment (fun i => act i && start i) l m
      let part := fun (r : Nat) => redOver (op k) 6 fun n => leaf (mine (64 * r + n)) (64 * r + n) j
      match (List.range 16).filter fun r => (List.range 64).any fun n => mine (64 * r + n) with
      | [] => ((op k).ident, 0)
      | r :: rs => rs.foldl (fun (y : Nat × Flags) r =>
          let z := (op k).step y.1 (part r).1
          (z.1, y.2 ||| (part r).2 ||| z.2)) (part r)
    gives (.vradd vd va q) 8 (rows .add) ∧ gives (.vrmax vd va q) 8 (rows .max) ∧ gives (.vrmin vd va q) 8 (rows .min)
    ∧ gives (.vcadd vd va q) 4 (cols .add) ∧ gives (.vcmax vd va q) 4 (cols .max) ∧ gives (.vcmin vd va q) 4 (cols .min)
    ∧ gives (.vcadds vd va q) 4 (colSegs .add) ∧ gives (.vcmaxs vd va q) 4 (colSegs .max)
    ∧ gives (.vcmins vd va q) 4 (colSegs .min)
    ∧ (rag = false → gives (.vradds vd va q) 8 (rowSegs .add) ∧ gives (.vrmaxs vd va q) 8 (rowSegs .max)
      ∧ gives (.vrmins vd va q) 8 (rowSegs .min))
    ∧ (rag = true → gives (.vradds vd va q) 12 (ragged .add) ∧ gives (.vrmaxs vd va q) 12 (ragged .max)
      ∧ gives (.vrmins vd va q) 12 (ragged .min))

/-- R174, R175 -/
def Says.PermutationResults : Prop :=
  ∀ (s : State) (c : Core) (sh : Sheet) (vd va : BitVec 5) (n : BitVec 6) (q : BitVec 4), s.Runs s.cur.k c sh →
    let x := s.cur
    let d := c.phys (x.repReg vd.toNat)
    let a := c.phys (x.repReg va.toNat)
    let on := laneOn (c.shapeFor x) (c.qget q.toNat)
    let gives := fun (i : Instr) (lat : Nat) (row col : Nat → Nat) =>
      c.Ready x [vReg a, qReg q.toNat] [(vReg d, x.t + lat)] → (∃ l < 1024, on l = true) →
      s.GivesLanes sh c i d lat on 32 fun l _ => (c.elem x a 32 (64 * row (l / 64) + col (l % 64)) 0, 0)
    gives (.vrrot vd va n q) 6 (fun r => r) (fun k => (k + 64 - n.toNat) % 64)
    ∧ gives (.vrbc vd va n q) 6 (fun r => r) (fun _ => n.toNat)
    ∧ (n.toNat < 16 → gives (.vcrot vd va n q) 3 (fun r => (r + 16 - n.toNat) % 16) (fun k => k)
      ∧ gives (.vcbc vd va n q) 3 (fun _ => n.toNat) (fun k => k))

/-- R176 -/
def Says.PartitionResults : Prop :=
  ∀ (s : State) (c : Core) (sh : Sheet) (vd va : BitVec 5) (sd : BitVec 6) (q : BitVec 4), s.Runs s.cur.k c sh →
    let x := s.cur
    let d := c.phys vd.toNat
    let a := c.phys va.toNat
    let on := laneOn (c.shapeFor x) (c.qget q.toNat)
    let lanes := fun (o : Nat) => (List.range 1024).filter fun l => on l && c.elem x a 32 l 0 % 4 == o
    let sorted := lanes 0 ++ lanes 1 ++ lanes 2 ++ lanes 3
    let count := fun (o : Nat) => (lanes o).length * 2 ^ (16 * o)
    let claimed := c.claim x [(vReg d, x.t + 16), (sReg sd.toNat, x.t + 16)]
    c.Ready x [vReg a, qReg q.toNat] [(vReg d, x.t + 16), (sReg sd.toNat, x.t + 16)] →
    ∃ vs : List (Option W32), vs.length = 1024
      ∧ (∀ i < 1024, vs[i]? = some (some (BitVec.ofNat 32 (sorted.getD i 0xFFFFFFFF))))
      ∧ exec (.vpart vd va sd q) s = .next (s.leaves sh x.k (claimed.forward x d (x.t + 16) vs)
          [(x.t + 16, phStart, .vResultWriteback x.k ⟨[(d, vs)], [], 0⟩),
            (x.t + 16, phStart, .registerWriteback x.k (.s sd.toNat)
              (BitVec.ofNat 64 (count 0 + count 1 + count 2 + count 3)) 0)])

/-- R179, R180 -/
def Says.BoundResults : Prop :=
  ∀ (s : State) (c : Core) (sh : Sheet) (vd va vb : BitVec 5) (n : BitVec 8), s.Runs s.cur.k c sh →
    let x := s.cur
    let d := c.phys (x.repReg vd.toNat)
    let a := c.phys (x.repReg va.toNat)
    let b := c.phys vb.toNat
    let safe := fun (v : Nat) => match fp32.value v with
      | .nan _ => FV.inf false
      | y => if y.lt (.fin false 0 0) then .inf false else y
    let up := fun (v : FV) => if v = .inf false then 0x7F800000 else (fp32.pack 2 v).1
    (c.Ready x [vReg a, vReg b] [(vReg d, x.t + 4)] →
      s.GivesLanes sh c (.vbnda vd va vb) d 4 (fun _ => true) 32 fun l _ =>
        (up ((safe (c.elem x a 32 l 0)).add 2 (safe (c.elem x b 32 l 0))).1, 0))
    ∧ (c.Ready x [vReg a, constReg n.toNat] [(vReg d, x.t + 4)] →
      let k := match fp32.value (Tab.get 0 c.cbank n.toNat).toNat with
        | .nan _ => FV.inf false
        | y => y.abs
      s.GivesLanes sh c (.vbnds vd va n) d 4 (fun _ => true) 32 fun l _ =>
        let p := (safe (c.elem x a 32 l 0)).mul k
        (if p.2 then 0x7F800000 else up p.1, 0))

/-- Each lane takes the element of the stated row and column; VPART lists the lane numbers of each class in order and
their counts; VBNDA and VBNDS round their sums and products upwards, taking a NaN or a negative bound as infinite. -/
def Obligations.PermutationPartitionAndBounds : Prop :=
  Says.PermutationResults ∧ Says.PartitionResults ∧ Says.BoundResults

/-- R83, R84, R162 to R165 -/
def Says.RingLoadAndStoreIssue : Prop :=
  ∀ (s : State) (c : Core) (sh : Sheet) (vd : BitVec 5) (g f q : BitVec 4) (cls : BitVec 2) (n : Nat)
    (paths : List (Nat × Path)), s.Runs s.cur.k c sh → c.Canonical →
    let x := s.cur
    let G := g.toNat
    let r := c.ring G
    let shape := c.shapeFor x
    let ety := shape.ety
    let on := lanesOn shape (c.qget q.toNat)
    let d := c.phys vd.toNat
    let desc : Desc := ⟨x.k, x.col, x.addr, x.t + 2, x.t⟩
    let move := fun (unit : Nat) (kind : MoveKind) (off : Nat) (cls : Nat) =>
      (⟨desc, x.k, cls, f.toNat, unit, kind, some (G, off), 64, none, [], [], 0⟩ : Move)
    let idle := fun (i : Instr) (c' : Core) (evs : List (Nat × Nat × Act)) => exec i s = .next (s.leaves sh x.k c' evs)
    let missed := fun (i : Instr) (off : Nat) (claims : List ((Nat × Nat) × Nat)) =>
      exec i s = .next ((s.leaves sh x.k (c.claim x claims) []).raiseAll sh.id
        [⟨cMiss, mRing, x.desc, x.t, BitVec.ofNat 64 G, BitVec.ofNat 64 (off % r.size), 0⟩])
    let reads := r.runs r.rd n
    let writes := r.runs r.wr n
    let done := lastArrival f.toNat 64 (x.t + 2) 1 reads
    (r.nfr ≠ 0 → on.any id = true → c.image ety (r.addr r.rd) (r.runs r.rd) = .ok (n, paths) →
      c.Ready x [qReg q.toNat] [(vReg d, done)] →
      (c.ringOpen x.t G → r.pushedBefore x.t n →
        let m := move 1 (.load d done (packMask on) paths) r.rd cls.toNat
        s.Moves sh c (.vld vd g f q cls) (c.claim x [(vReg d, done)])
          (moveOccs desc f.toNat 1 64 (x.t + 2) 1 true (partsOf 64 reads))
          [(x.t + 2, phRead, .laneBeat m (readPiecesOf 64 (x.t + 2) (partsOf 64 reads)))] []
          fun c' => c.ringsBut c' G r.wr (r.rd + n) r.tiles)
      ∧ (¬(c.ringOpen x.t G ∧ r.pushedBefore x.t n) → missed (.vld vd g f q cls) r.rd [(vReg d, done)]))
    ∧ (r.nfr ≠ 0 → on.any id = true → c.image ety (r.addr r.wr) (r.runs r.wr) = .ok (n, paths) →
      c.Ready x [vReg d, qReg q.toNat] [] →
      (∀ r', c.ringOpen x.t G → r.reserve x.t n = some r' →
        let m : StoreRun := ⟨desc, f.toNat, cls.toNat, paths, shape.rm, none, c.vget x d, on, writes, some (G, r.wr), none, none⟩
        s.Moves sh c (.vst vd g f q cls) (c.claim x []) (moveOccs desc f.toNat 1 64 (x.t + 2) 3 false (partsOf 64 writes))
          [(x.t + 2, phRead, .vStoreConversion m)] [] fun c' => c.ringsBut c' G (r.wr + n) r.rd r'.tiles)
      ∧ (¬c.ringOpen x.t G ∨ r.reserve x.t n = none → missed (.vst vd g f q cls) r.wr []))
    ∧ (r.nfr ≠ 0 → on.any id = false → c.ringOpen x.t G →
      (c.image ety (r.addr r.rd) (r.runs r.rd) = .ok (n, paths) → r.pushedBefore x.t n →
        ∃ c', idle (.vld vd g f q cls) c' [(x.t + 2, phRead, .laneBeat (move 1 (.skip false) r.rd 0)
            (readPiecesOf 64 (x.t + 2) (partsOf 64 reads)))]
          ∧ c.ringsBut c' G r.wr (r.rd + n) r.tiles ∧ c' = { c with rings := c'.rings })
      ∧ (∀ r', c.image ety (r.addr r.wr) (r.runs r.wr) = .ok (n, paths) → r.reserve x.t n = some r' →
        ∃ c', idle (.vst vd g f q cls) c' (startWrites (move 3 (.skip true) r.wr 0)
            (fillParts (arriveAt f.toNat 64 (x.t + 2) 3) (partsOf 64 writes) [] []))
          ∧ c.ringsBut c' G (r.wr + n) r.rd r'.tiles ∧ c' = { c with rings := c'.rings }))
    ∧ (r.nfr = 0 → ∀ i ∈ [Instr.vld vd g f q cls, .vst vd g f q cls], exec i s =
        .next ((s.leaves sh x.k c []).raiseAll sh.id [⟨cMiss, mRing, x.desc, x.t, BitVec.ofNat 64 G, 0, 0⟩]))

/-- R162, R166, R167 -/
def Says.ImageLoadAndStoreIssue : Prop :=
  ∀ (s : State) (c : Core) (sh : Sheet) (vd : BitVec 5) (sa sg : BitVec 6) (f q : BitVec 4) (h : BitVec 3) (cls : BitVec 2)
    (n : Nat) (paths : List (Nat × Path)), s.Runs s.cur.k c sh →
    let x := s.cur
    let shape := c.shapeFor x
    let d := c.phys vd.toNat
    let a := (c.sget sa.toNat).toNat
    let desc : Desc := ⟨x.k, x.col, x.addr, x.t + 2, x.t⟩
    let on := lanesOn shape (c.qget q.toNat)
    let all := lanesOn shape (c.qget 0)
    let done := lastArrival f.toNat 64 (x.t + 2) 1 [(a, n)]
    let load := fun (on : List Bool) (tag : Option Half) =>
      (⟨desc, x.k, cls.toNat, f.toNat, 1, .load d done (packMask on) paths, none, 64, tag, [], [], 0⟩ : Move)
    let starts := fun (i : Instr) (m : Move) => s.Moves sh c i (c.claim x [(vReg d, done)])
      (moveOccs desc f.toNat 1 64 (x.t + 2) 1 true (partsOf 64 [(a, n)]))
      [(x.t + 2, phRead, .laneBeat m (readPiecesOf 64 (x.t + 2) (partsOf 64 [(a, n)])))] [] fun c' => c'.rings = c.rings
    let stores := fun (i : Instr) (m : StoreRun) (n : Nat) => s.Moves sh c i (c.claim x [])
      (moveOccs desc f.toNat 1 64 (x.t + 2) 3 false (partsOf 64 [(a, n)])) [(x.t + 2, phRead, .vStoreConversion m)] []
      fun c' => c'.rings = c.rings
    let refused := fun (i : Instr) => exec i s = .next ((s.leaves sh x.k c []).raiseAll sh.id
      [⟨cRegion, rScratch, x.desc, x.t, c.sget sa.toNat, 0, 0⟩])
    let image := c.image shape.ety a (fun n => [(a, min n (0x180000 - a))]) = .ok (n, paths)
    (on.any id = true → image → c.Ready x [sReg sa.toNat, qReg q.toNat] [(vReg d, done)] → a < 0x180000 →
      (a % 64 = 0 ∧ a + n ≤ 0x180000 → starts (.vlda vd sa f q cls) (load on none))
      ∧ (¬(a % 64 = 0 ∧ a + n ≤ 0x180000) → refused (.vlda vd sa f q cls)))
    ∧ (on.any id = true → image → c.Ready x [sReg sa.toNat, qReg q.toNat, vReg d] [] → a < 0x180000 →
      (a % 64 = 0 ∧ a + n ≤ 0x180000 → stores (.vsta vd sa f q cls)
        ⟨desc, f.toNat, cls.toNat, paths, shape.rm, none, c.vget x d, on, [(a, n)], none, none, none⟩ n)
      ∧ (¬(a % 64 = 0 ∧ a + n ≤ 0x180000) → refused (.vsta vd sa f q cls)))
    ∧ (image → c.Ready x [sReg sa.toNat, sReg sg.toNat] [(vReg d, done)] → a < 0x180000 →
      (a % 64 = 0 ∧ a % 4096 + n ≤ 4096 →
        starts (.vldt vd sa sg f cls) (load all (some ((c.sget sg.toNat).setWidth 16))))
      ∧ (¬(a % 64 = 0 ∧ a % 4096 + n ≤ 4096) → refused (.vldt vd sa sg f cls)))
    ∧ (let q0 := 2 * h.toNat
       c.Ready x [sReg sa.toNat, vReg d, qReg q0, qReg (q0 + 1)] [] →
      (a + 2047 < 0x180000 → ∃ mask : List Bool, mask.length = 2048
        ∧ (∀ b < 2048, mask[b]? = some (((c.qget (q0 + b / 1024)).getD (b / 16 % 64) 0).getLsbD (b % 16)))
        ∧ stores (.vstm vd sa f h cls)
          ⟨desc, f.toNat, cls.toNat, [], 0, none, c.vget x d, [], [(a, 2048)], none, some mask, none⟩ 2048)
      ∧ (0x180000 ≤ a + 2047 → refused (.vstm vd sa f h cls)))
    ∧ (0x180000 ≤ a → (on.any id = true → c.Ready x [sReg sa.toNat, qReg q.toNat, vReg d] [] →
        refused (.vlda vd sa f q cls) ∧ refused (.vsta vd sa f q cls))
      ∧ (c.Ready x [sReg sa.toNat, sReg sg.toNat] [] → refused (.vldt vd sa sg f cls)))
    ∧ (on.any id = false → ∀ i ∈ [Instr.vlda vd sa f q cls, .vsta vd sa f q cls],
        exec i s = .next (s.leaves sh x.k c []))

/-- R86, R168 -/
def Says.SidecarWord : Prop :=
  ∀ (s : State) (c : Core) (sh : Sheet) (k : Nat) (vd : BitVec 5) (g q : BitVec 4), s.Runs s.cur.k c sh →
    let x := s.cur
    let G := g.toNat
    let r := c.ring G
    let d := c.phys vd.toNat
    let v := c.elem x d 32
    let none_ := fun (l : Nat) => (match fp32.value (v l 0) with
      | .nan _ => true
      | y => y.lt (.fin false 0 0)) || !(((c.qget q.toNat).getD (l % 64) 0).getLsbD (l / 64))
    (r.nfr ≠ 0 → r.side = true → c.Ready x [vReg d, qReg q.toNat] [] → ∃ vals : List W32, vals.length = 128
      ∧ (∀ l < 128, vals[l]? = some (if none_ l then 0x7F800000 else BitVec.ofNat 32 (v l 0)))
      ∧ exec (.vstb vd g q) s = .next (s.leaves sh x.k (c.claim x [])
          [(x.t + 2, phEnd, .sidecarAttach x.k G (r.wr / r.tileBytes) vals)]))
    ∧ (r.nfr = 0 ∨ r.side = false → exec (.vstb vd g q) s = .next ((s.leaves sh x.k c []).raiseAll sh.id
        [⟨cMiss, mRing, x.desc, x.t, BitVec.ofNat 64 G, if r.nfr = 0 then 0 else BitVec.ofNat 64 (r.wr % r.size), 0⟩]))
    ∧ (∀ (tile : Nat) (vals : List W32), k = x.k → Tab.wf noRing c.rings = true → r.nfr ≠ 0 →
        ∃ c', exec (.sidecarAttach k G tile vals) s = .next (s.leaves sh k c' [])
          ∧ c' = { c with rings := c'.rings } ∧ (∀ h, h ≠ G → c'.ring h = c.ring h)
          ∧ c'.ring G = { r with sidecars := Tab.put (tile % r.cap) vals r.sidecars })

/-- VLD, VST, VLDA, VSTA, VLDT and VSTM post their beats on their lane, claim their registers and move the ring's
cursors; a ring that is not ready, an address outside the scratchpad or unaligned, and a word with no lane on do
what the manual says; VSTB attaches 128 bounds to a tile. -/
def Obligations.VectorLoadAndStoreWords : Prop :=
  Says.RingLoadAndStoreIssue ∧ Says.ImageLoadAndStoreIssue ∧ Says.SidecarWord

/-- R169 to R171 -/
def Says.GatherScatterIssue : Prop :=
  ∀ (s : State) (c : Core) (sh : Sheet) (vd vb : BitVec 5) (sa : BitVec 6) (f : BitVec 4) (cls : BitVec 2),
    s.Runs s.cur.k c sh →
    let x := s.cur
    let shape := c.shapeFor x
    let d := c.phys vd.toNat
    let b := c.phys vb.toNat
    let base := (c.sget sa.toNat).toNat
    let desc : Desc := ⟨x.k, x.col, x.addr, x.t + 12, x.t⟩
    let on := laneOn shape (c.qget 0)
    let index := fun (l : Nat) => c.elem x b 32 l 0
    (∀ p, (if base < 0x180000 then pathOf (c.bank (base / 65536)) shape.ety else some .bit) = some p →
      let at_ := fun (l : Nat) => 8 * base + pathWidth p * index l
      let used := (List.range 1024).filter fun l => on l && decide (index l ≠ 0xFFFFFFFF)
      let near := fun (l : Nat) => decide (base % 4 = 0) && decide (at_ l / 8 < 0x180000)
      let fits := fun (l : Nat) => pathOf (c.bank (at_ l / 8 / 65536)) shape.ety == some p
      let items := (used.filter fun l => near l && fits l).map fun l => (l, at_ l)
      let faults := used.filterMap fun l =>
        if !near l then some ⟨cRegion, rScratch, x.desc, x.t + 12, BitVec.ofNat 64 (at_ l / 8), BitVec.ofNat 64 l, 0⟩
        else if !fits l then some ⟨cIllegal, 0, x.desc, x.t + 12, x.word.setWidth 64,
          BitVec.ofNat 64 (l % 256 + 256 * (at_ l / 8 / 65536)), 0⟩
        else none
      let circuit := fun (unit : Nat) => circuitOccs desc f.toNat unit (x.t + 12)
      (c.Ready x [sReg sa.toNat, vReg b] [(vReg d, x.t + 99)] →
        s.Moves sh c (.vgath vd vb sa f cls) (c.claim x [(vReg d, x.t + 99)]) (circuit 1)
          (startItems ⟨desc, false, f.toNat, d, cls.toNat, p, items.map fun e => (e.1, e.2, 0), [], 0⟩ 1 x.t) faults
          fun c' => c'.rings = c.rings)
      ∧ (c.Ready x [sReg sa.toNat, vReg b, vReg d] [] →
        s.Moves sh c (.vscat vd vb sa f cls) (c.claim x []) (circuit 3)
          [(x.t + 2, phRead, .vStoreConversion ⟨desc, f.toNat, cls.toNat, [(0, p)], shape.rm,
            some shape.pol, c.vget x d, [], [], none, none, some items⟩)] faults fun c' => c'.rings = c.rings))
    ∧ (base < 0x180000 → pathOf (c.bank (base / 65536)) shape.ety = none →
      c.Ready x [sReg sa.toNat, vReg b, vReg d] [(vReg d, x.t + 99)] →
      ∀ i ∈ [Instr.vgath vd vb sa f cls, .vscat vd vb sa f cls], exec i s = .next ((s.leaves sh x.k c []).raiseAll sh.id [⟨cIllegal, 0, x.desc, x.t, x.word.setWidth 64,
          BitVec.ofNat 64 (shape.ety + 256 * (c.bank (base / 65536)).fmt + 65536 * (base / 65536)), 0⟩]))

/-- R169 to R171 -/
def Says.GatherScatterEffect : Prop :=
  ∀ (s : State) (c : Core) (sh : Sheet) (g : GatherRun), s.Runs g.d.k c sh → c.Canonical →
    let t := s.task sh
    let w := pathWidth g.path
    let n := max 1 (w / 8)
    (∀ (cyc l addr v : Nat) (rest : List (Nat × Nat)), g.item.find? (fun i => i.1 == l) = some (l, addr, v) →
      let a := addr / 8
      c.Quiet t a (a + n - 1) → (∀ u ∈ c.cuts, sameWord u.d g.d = false) → (∀ e ∈ rest, e.1 ≠ cyc) →
      (w = 4 ∧ addr % 4 = 0) ∨ w = 8 ∨ w = 16 ∨ w = 32 →
      (g.scat = false → (∀ r ∈ s.writersNow g.d.k g.cls, r.2 < a ∨ a + n - 1 < r.1) →
        let code := if w = 4 then (c.byte a).toNat / 2 ^ (addr % 8) % 16 else c.bytesAt a n
        let got := match g.path with
          | .bit => (code, (0 : Flags))
          | .value _ => bankDecode (c.bank (a / 65536)) code
        let g' := { g with got := (l, BitVec.ofNat 32 got.1) :: g.got, fl := g.fl ||| got.2 }
        ∃ c', exec (.gatherScatterAccess g ((cyc, l) :: rest)) s = .next (s.leaves sh g.d.k c'
            (match rest with
              | [] => [(g.d.start + 87, phStart, .gatherScatterAccess g' [])]
              | e :: _ => [(e.1, phRead, .gatherScatterAccess g' rest)]))
          ∧ c' = { c with acc1 := c'.acc1 })
      ∧ (g.scat = true → c.Latest g.d a (a + n - 1) → (∀ e ∈ c.wp, sameWord e.1 g.d = false) →
        (c.bfmtReg (a / 65536)).getLsbD 38 = false →
        ∃ c', exec (.gatherScatterAccess g ((cyc, l) :: rest)) s = .next (s.leaves sh g.d.k c'
            (match rest with
              | [] => []
              | e :: _ => [(e.1, phWrite, .gatherScatterAccess g rest)]))
          ∧ c' = { c with acc1 := c'.acc1, wlast := c'.wlast, wp := c'.wp, spad := c'.spad, tags := c'.tags }
          ∧ (w ≠ 4 → c'.bytesAt a n = v % 2 ^ w)
          ∧ (w = 4 → (c'.byte a).toNat / 2 ^ (addr % 8) % 16 = v % 16
            ∧ (c'.byte a).toNat / 2 ^ (4 - addr % 8) % 16 = (c.byte a).toNat / 2 ^ (4 - addr % 8) % 16)
          ∧ ∀ b, b < a ∨ a + n ≤ b → c'.byte b = c.byte b))
    ∧ ∃ c', exec (.gatherScatterAccess g []) s = .next (s.leaves sh g.d.k c' [])
        ∧ c' = { c with v := c'.v, fflags := c'.fflags, fset := c'.fset, fcyc := c'.fcyc } ∧ c.raisesFlags c' t g.fl
        ∧ (∀ j < 1024, c'.lane g.vd j = ((g.got.find? fun e => e.1 == j).map Prod.snd).getD (c.lane g.vd j))
        ∧ ∀ d, d ≠ g.vd → ∀ j < 1024, c'.lane d j = c.lane d j

/-- Each active lane whose index is not all ones accesses its element at base + index; an element outside the scratchpad or in a
bank that does not fit raises its fault and no other is stopped; each access reads or writes exactly its element, and the last one
gives the register. The model's are the bit path of a base at or above 0x18_0000 (log entry 52), DATA1 of the lane fault (log entry
41) and the record at issue of a fault of a later cycle (log entry 32). -/
def Obligations.GatherAndScatter : Prop :=
  Says.GatherScatterIssue ∧ Says.GatherScatterEffect

/-- R177 -/
def Says.RaggedWordIssue : Prop :=
  ∀ (s : State) (c : Core) (sh : Sheet) (vd : BitVec 5) (g : BitVec 4) (sa : BitVec 6) (qd f : BitVec 4),
    s.Runs s.cur.k c sh → c.Canonical →
    let x := s.cur
    let shape := c.shapeFor x
    let G := g.toNat
    let r := c.ring G
    let d := c.phys vd.toNat
    let a := c.sget sa.toNat
    let desc : Desc := ⟨x.k, x.col, x.addr, x.t + 2, x.t⟩
    let lanes := (List.range 1024).filter fun l => decide (l / 64 ≤ shape.rows) && decide (l % 64 ≤ shape.cols)
    let n := 4 * lanes.length
    let reads := r.runs r.rd n
    let done := lastArrival f.toNat 64 (x.t + 2) 1 reads + 2
    let restart := if a.getLsbD 63 then some (a.toNat % 2 ^ 21) else none
    let run : RaggedRun := ⟨desc, lanes, d, qd.toNat, restart, [], 0, done⟩
    let m : Move := ⟨desc, x.k, 0, f.toNat, 1, .ragged run, some (G, r.rd), 64, none, [], [], 0⟩
    (shape.rag = true → shape.ety ≤ 1 → r.nfr ≠ 0 →
      c.Ready x [sReg sa.toNat] [(vReg d, done), (qReg qd.toNat, done)] →
      ((a.getLsbD 63 = true → a.getLsbD 0 = false) → c.ringOpen x.t G → r.pushedBefore x.t n →
        s.Moves sh c (.vragg vd g sa qd f) (c.claim x [(vReg d, done), (qReg qd.toNat, done)])
          (moveOccs desc f.toNat 1 64 (x.t + 2) 1 true (partsOf 64 reads))
          [(x.t + 2, phRead, .laneBeat m (readPiecesOf 64 (x.t + 2) (partsOf 64 reads))),
            (x.t + 2, phRead, .raggedTableRead run 0)] [] fun c' => c.ringsBut c' G r.wr (r.rd + n) r.tiles)
      ∧ (a.getLsbD 63 = true → a.getLsbD 0 = true → exec (.vragg vd g sa qd f) s = .next
          ((s.leaves sh x.k c []).raiseAll sh.id
            [⟨cRegion, rScratch, x.desc, x.t, BitVec.ofNat 64 (a.toNat % 2 ^ 21), 0, 0⟩])))
    ∧ (shape.rag = false ∨ 1 < shape.ety → exec (.vragg vd g sa qd f) s = .next
        ((s.leaves sh x.k c []).raiseAll sh.id
          [⟨cIllegal, 0, x.desc, x.t, x.word.setWidth 64, BitVec.ofNat 64 shape.ety, 0⟩]))

/-- R177, R178 -/
def Says.RaggedWalk : Prop :=
  ∀ (s : State) (c : Core) (sh : Sheet) (r : RaggedRun) (e : Nat), s.Runs r.d.k c sh →
    (∀ d, c.walker.run = some d → sameWord d r.d = true) →
    let t := s.task sh
    let w := match e, r.restart with
      | 0, some a => { c.walker with tab := BitVec.ofNat 21 a, left := 0, ended := false }
      | _, _ => c.walker
    let tab := w.tab.toNat
    let todo := r.lanes.length - r.plan.length
    let walk := ragWalk (2048 - r.reads) todo ((List.range 32).map fun i => BitVec.ofNat 16 (c.bytesAt (tab + 2 * i) 2)) w 0
    let n := 2 * walk.2.2.1
    let plan := r.plan ++ walk.1
    (tab + n ≤ 0x180000 → (0 < n → c.Quiet t tab (tab + n - 1)) →
      (∀ q ∈ s.writersNow r.d.k 0, q.2 < tab ∨ tab + n - 1 < q.1) →
      ∃ c', c' = { c with acc1 := c'.acc1, walker := c'.walker }
        ∧ (walk.2.2.2 = true → c'.walker = { walk.2.1 with run := none, out := c.walker.out ++ [(r.d, plan)] }
          ∧ exec (.raggedTableRead r e) s = .next (s.leaves sh r.d.k c' []))
        ∧ (walk.2.2.2 = false → c'.walker = { walk.2.1 with run := some r.d, out := c.walker.out }
          ∧ exec (.raggedTableRead r e) s = .next (s.leaves sh r.d.k c'
              [(t + 1, phRead, .raggedTableRead { r with plan := plan, reads := r.reads + walk.2.2.1 } (e + 1))])))
    ∧ (0x180000 < tab + n → ∃ c', c' = { c with walker := c'.walker } ∧ exec (.raggedTableRead r e) s = .next
        ((s.leaves sh r.d.k c' []).raiseAll sh.id
          [⟨cRegion, rScratch, r.d, t, BitVec.ofNat 64 (max tab 0x180000), 0, 0⟩]))

/-- R178 -/
def Says.RaggedResult : Prop :=
  ∀ (s : State) (c : Core) (sh : Sheet) (m : Move) (r : RaggedRun) (plan : List (Option Bool)), s.Runs m.k c sh →
    c.Canonical → m.kind = .ragged r → c.walker.out.find? (fun o => sameWord o.1 r.d) = some (r.d, plan) →
    r.lanes.Nodup → (∀ l ∈ r.lanes, l < 1024) → plan.length = r.lanes.length → m.lanes.length = r.lanes.length →
    let pads := fun (i : Nat) => plan[i]? = some none
    ∃ c', exec (.laneBeat m []) s = .next (s.leaves sh m.k c' [])
      ∧ c' = { c with v := c'.v, q := c'.q, walker := c'.walker }
      ∧ (∀ i l, r.lanes[i]? = some l →
          (∀ st, plan[i]? = some (some st) → ∀ v, m.lanes[i]? = some (some v) → c'.lane r.vd l = v
            ∧ (r.qd ≠ 0 → (c'.maskWord r.qd (l % 64)).getLsbD (l / 64) = st))
          ∧ (pads i → c'.lane r.vd l = 0
            ∧ (r.qd ≠ 0 → (c'.maskWord r.qd (l % 64)).getLsbD (l / 64) = decide (∀ j < i, plan[j]? ≠ some none))))
      ∧ (∀ d l, l < 1024 → d ≠ r.vd ∨ l ∉ r.lanes → c'.lane d l = c.lane d l)
      ∧ (∀ d, d ≠ r.qd ∨ d = 0 → ∀ i < 64, c'.maskWord d i = c.maskWord d i)
      ∧ ∀ l < 1024, l ∉ r.lanes →
        (c'.maskWord r.qd (l % 64)).getLsbD (l / 64) = (c.maskWord r.qd (l % 64)).getLsbD (l / 64)

/-- The word claims its register and mask and starts its beats and its walk; the walk reads the table entry by entry
within its bounds; the result places elements, zeros for padding, and the start bits. -/
def Obligations.RaggedWalks : Prop :=
  Says.RaggedWordIssue ∧ Says.RaggedWalk ∧ Says.RaggedResult

/-- R61, R150 -/
def Says.VectorResultWriteback : Prop :=
  ∀ (s : State) (c : Core) (sh : Sheet) (k : Nat) (r : VResult), s.Runs k c sh → c.Canonical →
    (r.v.map Prod.fst).Nodup → (r.q.map Prod.fst).Nodup → (∀ e ∈ r.v, e.2.length = 1024) → (∀ e ∈ r.q, e.2.length = 64) →
    ∃ c', exec (.vResultWriteback k r) s = .next (s.leaves sh k c' [])
      ∧ c' = { c with v := c'.v, q := c'.q, fflags := c'.fflags, fset := c'.fset, fcyc := c'.fcyc }
      ∧ (∀ d vs, (d, vs) ∈ r.v → ∀ l < 1024, c'.lane d l = (vs.getD l none).getD (c.lane d l))
      ∧ (∀ d, d ∉ r.v.map Prod.fst → ∀ l < 1024, c'.lane d l = c.lane d l)
      ∧ (∀ d ws, (d, ws) ∈ r.q → d ≠ 0 → ∀ i < 64, c'.maskWord d i = (ws.getD i none).getD (c.maskWord d i))
      ∧ (∀ d, d ∉ r.q.map Prod.fst ∨ d = 0 → ∀ i < 64, c'.maskWord d i = c.maskWord d i)
      ∧ c.raisesFlags c' (s.task sh) r.fl

/-- R162 to R165, R76 -/
def Says.LoadBeatEffect : Prop :=
  ∀ (s : State) (c : Core) (sh : Sheet) (m : Move) (p : Piece) (ps : List Piece) (d done : Nat) (mask : List Half)
    (paths : List (Nat × Path)), s.Runs m.k c sh → m.kind = .load d done mask paths → m.bytes = [] → s.Clear c sh m p →
    (∀ q ∈ ps, q.cyc ≠ p.cyc) →
    let path := pathIn paths (p.addr / 65536)
    let w := pathWidth path
    (w = 4 ∨ w = 8 ∨ w = 16 ∨ w = 32) → p.len * 8 % w = 0 →
    let got := fun (i : Nat) => match path with
      | .bit => (c.elemAt w p.addr i, (0 : Flags))
      | .value _ => bankDecode (c.bank (p.addr / 65536)) (c.elemAt w p.addr i)
    let on := fun (l : Nat) => (mask.getD (l % 64) 0).getLsbD (l / 64)
    mask.length = 64 → m.lanes.length + p.len * 8 / w ≤ 1024 →
    ∃ (c' : Core) (new : List (Option W32)) (fl : Flags), new.length = p.len * 8 / w
      ∧ (∀ i < p.len * 8 / w, new[i]? = some (if on (m.lanes.length + i) then some (BitVec.ofNat 32 (got i).1) else none))
      ∧ (∀ b < 6, fl.getLsbD b = true ↔ ∃ i < p.len * 8 / w, on (m.lanes.length + i) = true ∧ (got i).2.getLsbD b = true)
      ∧ c' = { c with acc1 := c'.acc1, rings := c'.rings } ∧ (m.ring = none → c'.rings = c.rings)
      ∧ exec (.laneBeat m (p :: ps)) s = .next (s.leaves sh m.k c'
          (match ps with
            | [] => [(done, phStart, .vResultWriteback m.d.k ⟨[(d, m.lanes ++ new)], [], m.fl ||| fl⟩)]
            | q :: _ => [(q.cyc, phRead, .laneBeat { m with lanes := m.lanes ++ new, fl := m.fl ||| fl } ps)]))

/-- R76, R80, R272 -/
def Says.StoreBeatEffect : Prop :=
  ∀ (s : State) (c : Core) (sh : Sheet) (m : Move) (p : Piece) (ps : List Piece), s.Runs m.k c sh → c.Canonical →
    m.kind = .store → s.Clear c sh { m with ring := none, tag := none } p →
    c.Latest m.d p.addr (p.addr + p.len - 1) → p.nib = [] → p.data.length = p.len →
    (∀ e ∈ c.wp, sameWord e.1 m.d = false) → (c.bfmtReg (p.addr / 65536)).getLsbD 38 = false →
    (p.addr + p.len - 1) / 65536 = p.addr / 65536 → (∀ q ∈ ps, q.cyc ≠ p.cyc) →
    ∃ c', exec (.laneBeat m (p :: ps)) s = .next (s.leaves sh m.k c'
        (match ps with
          | [] => []
          | q :: _ => [(q.cyc, phWrite, .laneBeat m ps)]))
      ∧ (∀ i < p.len, c'.byte (p.addr + i) = (p.data.getD i none).getD (c.byte (p.addr + i)))
      ∧ (∀ a, a < p.addr ∨ p.addr + p.len ≤ a → c'.byte a = c.byte a)
      ∧ c' = { c with
          acc1 := c'.acc1, wlast := c'.wlast, wp := c'.wp, spad := c'.spad, tags := c'.tags, rings := c'.rings }
      ∧ (m.ring = none → c'.rings = c.rings)

/-- R55, R58, R162, R165 to R167, R170 -/
def Says.StoreConversion : Prop :=
  ∀ (s : State) (c : Core) (sh : Sheet) (m : StoreRun), s.Runs m.d.k c sh →
    let t := s.task sh
    let mv : Move := ⟨m.d, m.d.k, m.cls, m.lane, 3, .store, m.ring, 64, none, [], [], 0⟩
    let parts := partsOf 64 m.runs
    let w := match m.paths with
      | p :: _ => pathWidth p.2
      | [] => 32
    let bank := fun (l : Nat) => runAddr m.runs (w * l / 8) / 65536
    let code := fun (l : Nat) => storeCode (c.bank (bank l)) (pathIn m.paths (bank l)) m.rm m.pol (m.lanes.getD l 0)
    let on := fun (l : Nat) => m.on.getD l false
    (m.items = none → m.mbytes = none → m.lanes.length = 1024 → m.on.length = 1024 →
      (∀ l < 1024, ∃ p, (bank l, p) ∈ m.paths) →
      ((∀ l < 1024, on l = true → (code l).trap = false) → (w = 4 ∨ w = 8 ∨ w = 16 ∨ w = 32) →
        ∃ (c' : Core) (data : List (Option Byte)) (nib : List Nat) (fl : Flags),
          exec (.vStoreConversion m) s
            = .next (s.leaves sh m.d.k c' (startWrites mv (fillParts (arriveAt m.lane 64 t 3) parts data nib)))
          ∧ c' = { c with fflags := c'.fflags, fset := c'.fset, fcyc := c'.fcyc } ∧ c.raisesFlags c' t fl
          ∧ (∀ b < 6, fl.getLsbD b = true ↔ ∃ l < 1024, on l = true ∧ (code l).fl.getLsbD b = true)
          ∧ data.length = 128 * w
          ∧ (w ≠ 4 → nib = [] ∧ ∀ l < 1024, ∀ j < w / 8, data[l * (w / 8) + j]? = some
              (if on l then some (BitVec.ofNat 8 ((code l).bits / 256 ^ j)) else none))
          ∧ (w = 4 → nib.length = 512 ∧ ∀ i < 512,
              nib[i]? = some ((if on (2 * i) then 1 else 0) + (if on (2 * i + 1) then 2 else 0))
              ∧ data[i]? = some (if on (2 * i) || on (2 * i + 1) then
                  some (BitVec.ofNat 8 ((if on (2 * i) then (code (2 * i)).bits % 16 else 0)
                    + 16 * (if on (2 * i + 1) then (code (2 * i + 1)).bits % 16 else 0))) else none)))
      ∧ (∀ l < 1024, on l = true → (code l).trap = true → (∀ j < l, on j = true → (code j).trap = false) →
          exec (.vStoreConversion m) s = .next ((s.leaves sh m.d.k c []).raiseAll sh.id
            [⟨cTrap, 0, m.d, t, BitVec.ofNat 64 l, 0, 0⟩])))
    ∧ (∀ mask, m.items = none → m.mbytes = some mask → mask.length = 2048 → m.lanes.length = 1024 →
        ∃ data : List (Option Byte), data.length = 2048
        ∧ (∀ b < 2048, data[b]? = some (if mask.getD b false then
            some ((m.lanes.getD (b / 4) 0).extractLsb' (8 * (b % 4)) 8) else none))
        ∧ exec (.vStoreConversion m) s
            = .next (s.leaves sh m.d.k c (startWrites mv (fillParts (arriveAt m.lane 64 t 3) parts data []))))
    ∧ (∀ items p, m.items = some items → m.mbytes = none → m.paths = [(0, p)] → m.lanes.length = 1024 →
        (∀ e ∈ items, e.1 < 1024) →
        let code := fun (e : Nat × Nat) => storeCode (c.bank (e.2 / 8 / 65536)) p m.rm m.pol (m.lanes.getD e.1 0)
        (∀ e ∈ items, (code e).trap = false) →
        ∃ c' fl, exec (.vStoreConversion m) s = .next (s.leaves sh m.d.k c' (startItems
            ⟨m.d, true, m.lane, 0, m.cls, p, items.map fun e => (e.1, e.2, (code e).bits), [], 0⟩ 3 (t - 2)))
          ∧ c' = { c with fflags := c'.fflags, fset := c'.fset, fcyc := c'.fcyc } ∧ c.raisesFlags c' t fl
          ∧ ∀ b < 6, fl.getLsbD b = true ↔ ∃ e ∈ items, (code e).fl.getLsbD b = true)

/-- A load beat decodes the elements of its piece by the bank's format and hands on to the next beat or to the register; a store
beat writes exactly its bytes; a store converts each lane that is on and traps on the first that policy TRAP refuses; a result
reaches its lanes, mask words and flags. That a trapping store sets no flags is the model's (log entry 33). -/
def Obligations.VectorBeats : Prop :=
  Says.VectorResultWriteback ∧ Says.LoadBeatEffect ∧ Says.StoreBeatEffect ∧ Says.StoreConversion

/-- R199 to R205 -/
def Says.PlyWords : Prop :=
  ∀ (s : State) (c : Core) (sh : Sheet) (a : BitVec 3) (gw ga cap : BitVec 4) (sb : BitVec 6) (l : BitVec 1) (fmt : BankFmt),
    s.Runs s.cur.k c sh → c.Canonical →
    let x := s.cur
    let A := a.toNat
    let W := gw.toNat
    let G := ga.toNat
    let ra := c.ring G
    let k := ra.head
    let kv := c.coverOf A
    let b := c.boundOf A
    let last := x.t + 128 * cap.toNat + 160
    let n := 4096 * fmtWidth fmt.fmt
    let lane := 8 * l.toNat
    let desc : Desc := ⟨x.k, x.col, x.addr, x.t + 8, x.t⟩
    let reads := ra.runs (k * ra.tileBytes) n
    let intake : Move := ⟨desc, x.k, 0, lane + 4, 5, .actIn, some (G, k * ra.tileBytes), 256, none, [], [], 0⟩
    let starts := fun (i : Instr) (opens zeroes keep : Bool) =>
      let run := { emptyRun with
        d := x.desc, a := A, gw := W, ga := G, sb := sb.toNat, cap := cap.toNat, lanes := lane, opens := opens
        zeroes := zeroes, keep := keep, afmt := fmt.fmt, mask := c.takeMask.2
        ra := if opens then Tab.get (List.replicate 128 0) ra.amax k else []
        rb := if opens then Tab.get (List.replicate 128 0) ra.sidecars (k % ra.cap) else []
        budget := (c.sget sb.toNat).toNat % 2 ^ 32
        tileTag := kv.tile, count := kv.count.toNat, cursor := if opens then 0 else kv.cursor.toNat }
      (zeroes = false → kv.kind ≠ 2) → (opens = true → ra.act = true) → (opens = false → b.opened = true) →
      (opens = true ∨ kv.cursor ≠ kv.count → ∀ e, c.operand W (c.ring W).head ≠ .error e) →
      s.Moves sh c i
        { c.claim x [(sReg sb.toNat, last)] with
          own := (c.hold x [A, 8] last).own, mask := c.takeMask.1.mask, array := some run }
        (moveOccs desc (lane + 4) 4 256 (x.t + 8) 5 true (partsOf 256 reads))
        ([(x.t + 8, phRead, .laneBeat intake (readPiecesOf 256 (x.t + 8) (partsOf 256 reads)))]
          ++ (if opens || kv.cursor != kv.count then [(x.t + 4, phRead, .plyHeaderRead x.k 0)] else [])
          ++ [(last, phStart, .plySpanEnd x.k)]) []
        fun c' => c.passed c' (if keep then [] else [(G, k)])
    c.ringOpen x.t W → c.ringOpen x.t G → c.operand G k = .ok fmt →
    (fmt.fmt = 4 ∨ fmt.fmt = 5 ∨ fmt.fmt = 11 ∨ fmt.fmt = 8 ∨ fmt.fmt = 9 ∨ fmt.fmt = 10) → n ≤ ra.tileBytes →
    ra.ready x.t k = true → c.Idle x [A, 8] → c.MaskStill x →
    c.Ready x [sReg sb.toNat] [(sReg sb.toNat, last)] →
    starts (.mply a gw ga sb cap l) true false false ∧ starts (.mplyz a gw ga sb cap l) true true false
    ∧ starts (.mplyk a gw ga sb cap l) true false true ∧ starts (.mplyzk a gw ga sb cap l) true true true
    ∧ starts (.mres a gw ga sb cap l) false false false

/-- R191, R199 to R201, R206 -/
def Says.PlyWordsRefused : Prop :=
  ∀ (s : State) (c : Core) (sh : Sheet) (a : BitVec 3) (gw ga cap : BitVec 4) (sb : BitVec 6) (l : BitVec 1),
    s.Runs s.cur.k c sh →
    let x := s.cur
    let A := a.toNat
    let W := gw.toNat
    let ra := c.ring ga.toNat
    let rw := c.ring W
    let kv := c.coverOf A
    let last := x.t + 128 * cap.toNat + 160
    let opening : List Instr :=
      [.mply a gw ga sb cap l, .mplyz a gw ga sb cap l, .mplyk a gw ga sb cap l, .mplyzk a gw ga sb cap l]
    let mres : Instr := .mres a gw ga sb cap l
    let raises := fun (i : Instr) (f : CFault) => exec i s = .next ((s.leaves sh x.k c []).raiseAll sh.id [f])
    let refused := fun (i : Instr) (v : Nat) =>
      raises i ⟨cIllegal, 0, x.desc, x.t, x.word.setWidth 64, BitVec.ofNat 64 v, 0⟩
    c.ringOpen x.t W → c.ringOpen x.t ga.toNat →
    (∀ e, c.operand ga.toNat ra.head = .error e → ∀ i ∈ opening ++ [mres], refused i (e % 256))
    ∧ ∀ fmt, c.operand ga.toNat ra.head = .ok fmt →
      let takes := fmt.fmt = 4 ∨ fmt.fmt = 5 ∨ fmt.fmt = 11 ∨ fmt.fmt = 8 ∨ fmt.fmt = 9 ∨ fmt.fmt = 10
      (¬takes → ∀ i ∈ opening ++ [mres], refused i (fmt.fmt + 256 * (c.bank (rw.addr rw.rd / 65536)).fmt))
      ∧ (∀ e, takes → c.operand W rw.head = .error e → (∀ i ∈ opening, refused i (e % 256))
        ∧ (kv.cursor ≠ kv.count → refused mres (e % 256)))
      ∧ (takes → (∀ e, c.operand W rw.head ≠ .error e) → kv.kind = 2 →
        ∀ i ∈ [Instr.mply a gw ga sb cap l, .mplyk a gw ga sb cap l, mres], refused i A)
      ∧ (takes → (∀ e, c.operand W rw.head ≠ .error e) → kv.kind ≠ 2 → 4096 * fmtWidth fmt.fmt ≤ ra.tileBytes →
        ra.ready x.t ra.head = true → c.Idle x [A, 8] → c.MaskStill x →
        c.Ready x [sReg sb.toNat] [(sReg sb.toNat, last)] → (c.boundOf A).opened = false →
        raises mres (c.ringMiss x.desc x.t W))

/-- R190 to R197, R202, R206, R207 -/
def Says.PlyEffect : Prop :=
  ∀ (s : State) (c : Core) (sh : Sheet) (k : Nat) (r : MRun), s.Runs k c sh → c.Canonical → c.array = some r →
    let t := s.task sh
    let kv := c.coverOf r.a
    let b := c.boundOf r.a
    let old := (List.range 16384).map fun i =>
      if r.zeroes || kv.kind == 0 then 0 else c.tileElem r.a (i / 128) (i % 128)
    let x := operandVals r.afmt r.acb r.act
    let passed := r.plies.foldl (fun (y : List W32 × Flags) p =>
      let z := plyPass x p y.1
      (z.1, y.2 ||| z.2)) (old, 0)
    (r.failed = true → exec (.plySpanEnd k) s = .next (s.leaves sh k { c with array := none } []))
    ∧ (r.failed = false → ∃ c', exec (.plySpanEnd k) s = .next (s.leaves sh k c' [])
      ∧ c' = { c with
          array := none, acc := c'.acc, bound := c'.bound, cover := c'.cover, s := c'.s, fflags := c'.fflags
          fset := c'.fset, fcyc := c'.fcyc }
      ∧ (∀ m < 128, ∀ n < 128, c'.tileElem r.a m n =
          if maskKeeps r.mask m n then passed.1.getD (128 * m + n) 0 else maskValue r.mask false)
      ∧ (∀ d m n, d ≠ r.a → m < 128 → n < 128 → c'.tileElem d m n = c.tileElem d m n)
      ∧ (r.sb ≠ 0 → c'.sget r.sb = BitVec.ofNat 64 r.budget) ∧ (∀ n, n ≠ r.sb → c'.sget n = c.sget n)
      ∧ c.raisesFlags c' t passed.2
      ∧ (let kv' := c'.coverOf r.a
         kv'.kind = 1 ∧ kv'.tile = r.tileTag ∧ kv'.count.toNat = r.count % 16 ∧ kv'.cursor.toNat = r.cursor % 16
         ∧ kv'.sat = (!r.zeroes && kv.sat)
         ∧ kv'.quanta.toNat = min ((if r.zeroes then 0 else kv.quanta.toNat) + r.quanta) (2 ^ 19 - 1))
      ∧ c'.Covers r.a ∧ (∀ d ≠ r.a, c'.boundOf d = c.boundOf d ∧ c'.coverOf d = c.coverOf d)
      ∧ (let b' := c'.boundOf r.a
         (b'.fullc = if r.zeroes then true else if r.opens then c.fullAfter r.a else b.fullc)
         ∧ (r.opens = true → b'.opened = true
           ∧ (∀ m < 128, Tab.get 0 b'.closed m = if r.zeroes then 0 else b.rows.getD m 0)
           ∧ (∀ m < 128, Tab.get 0 b'.ra m = r.ra.getD m 0) ∧ (∀ m < 128, Tab.get 0 b'.rb m = r.rb.getD m 0)
           ∧ (∀ n < 128, Tab.get 0 b'.total n = r.total.getD n 0)
           ∧ ∀ q, r.totAdd = some q → b'.totm = addUp (if r.zeroes then 0 else b.totm) q)
         ∧ (r.opens = false → r.zeroes = false → b' = { b with covm := b'.covm, resid := b'.resid })
         ∧ (∀ n < 128, Tab.get 0 b'.resid n = if r.cursor < r.count then r.resid.getD n 0 else 0)
         ∧ b'.covm = r.covAdd.foldl addUp (if r.zeroes then 0 else b.covm)))

/-- R186 to R191, R205 -/
def Says.PlyHeaderEffect : Prop :=
  ∀ (s : State) (c : Core) (sh : Sheet) (k slot : Nat) (r : MRun), s.Runs k c sh → c.Canonical → c.array = some r →
    let t := s.task sh
    let ring := c.ring r.gw
    let head := ring.head
    let addr := ring.addr (head * ring.tileBytes)
    let h := parseHdr ((List.range 0x440).map fun i => c.byte (addr + i))
    let first := r.opens && slot == 0
    (r.failed = true → exec (.plyHeaderRead k slot) s = .next (s.leaves sh k c []))
    ∧ (r.failed = false → ring.ready t head = false → exec (.plyHeaderRead k slot) s = .next
        ((s.leaves sh k { c with array := some { r with failed := true } } []).raiseAll sh.id [c.ringMiss r.d t r.gw]))
    ∧ (r.failed = false → ring.ready t head = true → c.Quiet t addr (addr + 0x43F) →
        (∀ q ∈ s.writersNow k 0, q.2 < addr ∨ addr + 0x43F < q.1) →
        c.tagFault t (addr / 4096) (ring.wantTag (head * ring.tileBytes)) r.d = [] → h.bad = false → h.index = r.cursor →
        (first = false → h.tile = r.tileTag ∧ h.count = r.count) → 1 + h.dataFrames ≤ ring.tile →
        let r1 := if first then
            { r with tileTag := h.tile, count := h.count, total := h.q.map safeMass, totAdd := some (safeMass h.qmass) }
          else r
        (r.slots = r.cap ∨ r.budget < h.cost → ∃ c', exec (.plyHeaderRead k slot) s = .next (s.leaves sh k c' [])
          ∧ c' = { c with acc1 := c'.acc1, array := some { r1 with stopped := true, resid := h.q.map safeMass } })
        ∧ (∀ b, r.slots ≠ r.cap → h.cost ≤ r.budget → slot ≠ 0 → c.operand r.gw head = .error b →
          ∃ c' r', exec (.plyHeaderRead k slot) s = .next ((s.leaves sh k c' []).raiseAll sh.id
              [⟨cIllegal, 0, r.d, t, ((c.col r.d.col).word r.d.addr).setWidth 64, BitVec.ofNat 64 b, 0⟩])
            ∧ c' = { c with acc1 := c'.acc1, array := some r' } ∧ r'.failed = true)
        ∧ (r.slots ≠ r.cap → h.cost ≤ r.budget → (slot = 0 ∨ ∀ b, c.operand r.gw head ≠ .error b) →
          let dep := r.d.start + 128 * slot + 8
          let off := head * ring.tileBytes + 4096
          let m : Move := ⟨{ r.d with start := dep }, r.d.k, 0, r.lanes, 7, .plyIn slot (h.fmt == 3), some (r.gw, off),
            256, none, [], [], 0⟩
          let parts := partsOf 256 (ring.runs off h.dataBytes)
          let r2 := { r1 with
            budget := r.budget - h.cost, slots := r.slots + 1, cursor := r.cursor + 1, quanta := r.quanta + h.cost
            covAdd := r.covAdd ++ [safeMass h.pmass], plies := r.plies ++ [⟨h.fmt, h.ncode, h.pexp, h.cb, []⟩] }
          ∃ acc1, s.MovesAt sh k t c (.plyHeaderRead k slot) { c with acc1 := acc1, array := some r2 }
            (moveOccs m.d r.lanes 4 256 dep 7 true parts)
            ([(dep, phRead, .laneBeat m (readPiecesOf 256 dep parts))]
              ++ if r.cursor + 1 < r1.count then
                  [(r.d.start + 128 * (slot + 1) + 4, phRead, .plyHeaderRead r.d.k (slot + 1))] else []) []
            fun c' => c.passed c' [(r.gw, head)]))

/-- R80, R186, R188 -/
def Says.PlyHeaderRefused : Prop :=
  ∀ (s : State) (c : Core) (sh : Sheet) (k slot : Nat) (r : MRun), s.Runs k c sh → c.array = some r → r.failed = false →
    let t := s.task sh
    let ring := c.ring r.gw
    let addr := ring.addr (ring.head * ring.tileBytes)
    let h := parseHdr ((List.range 0x440).map fun i => c.byte (addr + i))
    let first := r.opens && slot == 0
    let tags := c.tagFault t (addr / 4096) (ring.wantTag (ring.head * ring.tileBytes)) r.d
    let fits := h.index = r.cursor ∧ (first = false → h.tile = r.tileTag ∧ h.count = r.count) ∧ 1 + h.dataFrames ≤ ring.tile
    let refused := fun (fs : List CFault) => ∃ c', exec (.plyHeaderRead k slot) s
        = .next ((s.leaves sh k c' []).raiseAll sh.id (tags ++ fs))
      ∧ c' = { c with acc1 := c'.acc1, array := some { r with failed := true } }
    ring.ready t ring.head = true → c.Quiet t addr (addr + 0x43F) →
    (∀ q ∈ s.writersNow k 0, q.2 < addr ∨ addr + 0x43F < q.1) →
    (h.bad = true → refused
        [⟨cIllegal, 0, r.d, t, ((c.col r.d.col).word r.d.addr).setWidth 64, BitVec.ofNat 64 (addr / 4096), 0⟩])
    ∧ (h.bad = false → ¬fits → refused [c.ringMiss r.d t r.gw])
    ∧ (h.bad = false → fits → tags ≠ [] → refused [])

/-- R188: what makes a header bad. -/
def Says.BadHeaders : Prop :=
  ∀ bs : List Byte, bs.length = 0x440 →
    let w := leNat (bs.take 4)
    let fmt := w % 4
    let ncode := w / 16 % 8
    let count := w / 4096 % 16
    let index := w / 65536 % 16
    let pexp := (BitVec.ofNat 8 (w / 2 ^ 24)).toInt
    let cost := match fmt with
      | 0 | 1 => 1024
      | 2 => 1088
      | _ => 16 * 2 ^ ncode
    (parseHdr bs).bad = false ↔
      (w / 4 % 4 = 0 ∧ w / 128 % 32 = 0 ∧ w / 2 ^ 20 % 16 = 0 ∧ (∀ i < 2, bs.getD (10 + i) 0 = 0)
        ∧ ∀ i < 12, bs.getD (0x14 + i) 0 = 0)
      ∧ (fmt ≠ 2 → ∀ i < 32, bs.getD (0x20 + i) 0 = 0)
      ∧ (if fmt = 3 then ncode ≤ 4 else ncode = 0) ∧ -32 ≤ pexp ∧ pexp ≤ 31 ∧ count ≠ 0 ∧ index < count
      ∧ (fmt = 3 → index = 0) ∧ leNat ((bs.drop 4).take 4) = cost

/-- Each word claims its tile, the array and the budget register until the end of its span and starts its operand stream and
headers; operands that the array does not take are refused at issue, and a later ply when its header is read (log entry 54); a
header is checked, refused where R188 refuses it, and its ply consumed while the budget lasts; at the end of the span the products
are in the tile, and cover, coverage, bound and budget say what was left out. Which ply tile is checked at issue, the one at the
read cursor, is the model's reading (log entry 54). -/
def Obligations.PlyProducts : Prop :=
  Says.PlyWords ∧ Says.PlyWordsRefused ∧ Says.PlyEffect ∧ Says.PlyHeaderEffect ∧ Says.PlyHeaderRefused ∧ Says.BadHeaders

/-- R199 to R203, R208 -/
def Says.DenseProductWord : Prop :=
  ∀ (s : State) (c : Core) (sh : Sheet) (a : BitVec 3) (gw ga : BitVec 4) (z keep l : BitVec 1) (fa fw : BankFmt)
    (kt : Nat) (int : Bool), s.Runs s.cur.k c sh → c.Canonical →
    let x := s.cur
    let A := a.toNat
    let W := gw.toNat
    let G := ga.toNat
    let ra := c.ring G
    let rw := c.ring W
    let kv := c.coverOf A
    let lane := 8 * l.toNat
    let na := 16 * kt * fmtWidth fa.fmt
    let nw := 16 * kt * fmtWidth fw.fmt
    let desc : Desc := ⟨x.k, x.col, x.addr, x.t + 8, x.t⟩
    let acts := ra.runs (ra.head * ra.tileBytes) na
    let weights := rw.runs (rw.head * rw.tileBytes) nw
    let move := fun (lane unit : Nat) (kind : MoveKind) (g off : Nat) =>
      (⟨desc, x.k, 0, lane, unit, kind, some (g, off), 256, none, [], [], 0⟩ : Move)
    let run := { emptyRun with
      d := x.desc, dense := true, a := A, gw := W, ga := G, lanes := lane, zeroes := z == 1, keep := keep == 1
      int := int, kt := kt, afmt := fa.fmt, wfmt := fw.fmt, mask := c.takeMask.2 }
    let narrow := fun (f : Nat) => f = 4 ∨ f = 5 ∨ f = 11
    let whole := fun (f : Nat) => f = 8 ∨ f = 9
    c.ringOpen x.t W → c.ringOpen x.t G → c.operand G ra.head = .ok fa → c.operand W rw.head = .ok fw →
    (kt = 256 ∧ int = false ∧ narrow fa.fmt ∧ narrow fw.fmt)
      ∨ (kt = 128 ∧ int = false ∧ ((fa.fmt = 2 ∧ (fw.fmt = 2 ∨ narrow fw.fmt)) ∨ (narrow fa.fmt ∧ fw.fmt = 2)))
      ∨ (kt = 256 ∧ int = true ∧ whole fa.fmt ∧ whole fw.fmt) →
    (z = 1 ∨ kv.kind ≠ (if int then 1 else 2)) → na ≤ ra.tileBytes → nw ≤ rw.tileBytes → ra.ready x.t ra.head = true →
    rw.ready x.t rw.head = true → c.Idle x [A, 8] → c.MaskStill x →
    s.Moves sh c (.mmad a gw ga z keep l)
      { c.claim x [] with own := (c.hold x [A, 8] (x.t + 288)).own, mask := c.takeMask.1.mask, array := some run }
      (moveOccs desc (lane + 4) 4 256 (x.t + 8) 5 true (partsOf 256 acts)
        ++ moveOccs desc lane 4 256 (x.t + 8) 7 true (partsOf 256 weights))
      [(x.t + 8, phRead, .laneBeat (move (lane + 4) 5 .actIn G (ra.head * ra.tileBytes))
          (readPiecesOf 256 (x.t + 8) (partsOf 256 acts))),
        (x.t + 8, phRead, .laneBeat (move lane 7 (.plyIn 0 false) W (rw.head * rw.tileBytes))
          (readPiecesOf 256 (x.t + 8) (partsOf 256 weights))),
        (x.t + 288, phStart, .mmadSpanEnd x.k)] []
      fun c' => c.passed c' ((W, rw.head) :: if keep = 1 then [] else [(G, ra.head)])

/-- R68 to R71, R208 to R211 -/
def Says.DenseProductEffect : Prop :=
  ∀ (s : State) (c : Core) (sh : Sheet) (k : Nat) (r : MRun), s.Runs k c sh → c.Canonical → c.array = some r →
    let t := s.task sh
    let kv := c.coverOf r.a
    let old := fun (m n : Nat) => if r.zeroes then 0 else c.tileElem r.a m n
    let f : Nat → Nat → W32 × Flags := fun m n =>
      if r.int then
        let x := operandInts r.afmt r.act
        let w := operandInts r.wfmt r.wgt
        let i := (List.range 256).foldl (fun (z : Int) k => z + x.getD (actElem 256 m k) 0 * w.getD (k * 128 + n) 0) 0
          + (old m n).toInt
        if i < -2 ^ 31 then (BitVec.ofInt 32 (-2 ^ 31), IS)
        else if 2 ^ 31 - 1 < i then (BitVec.ofInt 32 (2 ^ 31 - 1), IS) else (BitVec.ofInt 32 i, 0)
      else
        let x := operandVals r.afmt r.acb r.act
        let w := operandVals r.wfmt r.wcb r.wgt
        let p := peColumn (r.kt == 256) (actAt r.kt x m) fun k => w.getD (k * 128 + n) (.fin false 0 0)
        let o := fp32.fadd 0 (old m n).toNat (fp32.pack 0 p.1).1
        (BitVec.ofNat 32 o.1, p.2 ||| o.2)
    (r.failed = true → exec (.mmadSpanEnd k) s = .next (s.leaves sh k { c with array := none } []))
    ∧ (r.failed = false → ∃ c' fl, exec (.mmadSpanEnd k) s = .next (s.leaves sh k c' [])
      ∧ c' = { c with
          array := none, acc := c'.acc, cover := c'.cover, fflags := c'.fflags, fset := c'.fset, fcyc := c'.fcyc }
      ∧ (∀ m < 128, ∀ n < 128,
          c'.tileElem r.a m n = if maskKeeps r.mask m n then (f m n).1 else maskValue r.mask r.int)
      ∧ (∀ b m n, b ≠ r.a → m < 128 → n < 128 → c'.tileElem b m n = c.tileElem b m n)
      ∧ c.raisesFlags c' t fl
      ∧ (∀ b < 6, fl.getLsbD b = true ↔ ∃ m < 128, ∃ n < 128, (f m n).2.getLsbD b = true)
      ∧ c'.coverOf r.a = { kv with
          kind := if r.int then 2 else 1
          sat := (!r.zeroes && kv.sat) || (r.int && fl.getLsbD 5) }
      ∧ ∀ b ≠ r.a, c'.coverOf b = c.coverOf b)

/-- R199 to R201 -/
def Says.DenseProductRefused : Prop :=
  ∀ (s : State) (c : Core) (sh : Sheet) (a : BitVec 3) (gw ga : BitVec 4) (z keep l : BitVec 1), s.Runs s.cur.k c sh →
    let x := s.cur
    let acts := c.operand ga.toNat (c.ring ga.toNat).head
    let weights := c.operand gw.toNat (c.ring gw.toNat).head
    let refused := fun (v : Nat) => exec (.mmad a gw ga z keep l) s = .next ((s.leaves sh x.k c []).raiseAll sh.id
      [⟨cIllegal, 0, x.desc, x.t, x.word.setWidth 64, BitVec.ofNat 64 v, 0⟩])
    let narrow := fun (f : Nat) => f = 4 ∨ f = 5 ∨ f = 11
    let whole := fun (f : Nat) => f = 8 ∨ f = 9
    c.ringOpen x.t gw.toNat → c.ringOpen x.t ga.toNat →
    (∀ e, acts = .error e → refused (e % 256))
    ∧ ∀ fa, acts = .ok fa →
      (∀ e, weights = .error e → refused (e % 256))
      ∧ ∀ fw, weights = .ok fw → fa.fmt < 16 → fw.fmt < 16 →
        let int := whole fa.fmt ∧ whole fw.fmt
        let float := (narrow fa.fmt ∨ fa.fmt = 2) ∧ (narrow fw.fmt ∨ fw.fmt = 2)
        (¬int → ¬float → refused (fa.fmt + 256 * fw.fmt))
        ∧ (z = 0 → (int ∧ (c.coverOf a.toNat).kind = 1 ∨ float ∧ (c.coverOf a.toNat).kind = 2) → refused a.toNat)

/-- The word claims its tile and the array for 288 cycles and starts both operand streams, or is refused at issue for an
operand, a pair of formats or a tile of the other kind; at the end each element of the tile is the old one plus the product
of the operands' row and column, in the fixed order, integer sums saturated, masked elements replaced, and exactly the flags
that arise are set. -/
def Obligations.DenseProducts : Prop :=
  Says.DenseProductWord ∧ Says.DenseProductRefused ∧ Says.DenseProductEffect

/-- R203, R212 to R217 -/
def Says.TileWords : Prop :=
  ∀ (s : State) (c : Core) (sh : Sheet) (a as : BitVec 3) (v : BitVec 5), s.Runs s.cur.k c sh → c.Canonical →
    let x := s.cur
    let A := a.toNat
    let S := as.toNat
    let acts := fun (i : Instr) (c0 : Core) (rs : List Nat) (last cyc : Nat) (act : Act) =>
      exec i s = .next (s.leaves sh x.k { c0 with own := (c.hold x rs last).own } [(cyc, phStart, act)])
    let read := c.illRegs x [vReg v.toNat] = [] ∧ ∀ p ∈ c.board, p.cls = 2 → p.num = v.toNat →
      p.done ≤ x.t ∨ (p.unit.isSome = true ∧ p.unit = x.unit) ∨ (p.d.col = .V ∧ p.d.start = x.t)
    let column := (List.range 128).map fun n => c.lane v.toNat n
    (c.Idle x [A] →
      acts (.mzero a) (c.claim x []) [A] (x.t + 1) (x.t + 1) (.mzeroEffect x.k A)
      ∧ (read → ((c.coverOf A).kind ≠ 2 →
            acts (.mscale a v) c [A] (x.t + 128) (x.t + 128) (.mscaleMbiasEffect x.k A true column))
          ∧ acts (.mbias a v) c [A] (x.t + 128) (x.t + 128) (.mscaleMbiasEffect x.k A false column))
      ∧ (c.Ready x [] [(vReg v.toNat, x.t + 4)] → c.illBound x A = [] →
          acts (.moutb a v) (c.claim x [(vReg v.toNat, x.t + 4)]) [A] (x.t + 1) (x.t + 4)
            (.moutbWrite x.k v.toNat (c.boundVec A))))
    ∧ (c.Idle x [A, S] → ((c.coverOf A).kind, (c.coverOf S).kind) ≠ (1, 2) →
        ((c.coverOf A).kind, (c.coverOf S).kind) ≠ (2, 1) →
        acts (.madd a as) (c.claim x []) [min A S, max A S].eraseDups (x.t + 128) (x.t + 128) (.maddEffect x.k A S))
    ∧ ((c.coverOf A).kind = 1 ∧ (c.coverOf S).kind = 2 ∨ (c.coverOf A).kind = 2 ∧ (c.coverOf S).kind = 1 →
        exec (.madd a as) s = .next ((s.leaves sh x.k c []).raiseAll sh.id
          [⟨cIllegal, 0, x.desc, x.t, x.word.setWidth 64, BitVec.ofNat 64 A, 0⟩]))
    ∧ (∀ o, c.Holder x A o →
        c.Ready x [vReg v.toNat] [(vReg v.toNat, x.t + 4)] → c.illBound x A = [] → (c.coverOf A).kind ≠ 2 →
        ∀ i ∈ [Instr.mzero a, .mscale a v, .mbias a v, .moutb a v], exec i s = .next
          ((s.leaves sh x.k c []).raiseAll sh.id [⟨cBusy, 0, x.desc, x.t, BitVec.ofNat 64 A, descBits c.prank o.d, 0⟩]))
    ∧ ((c.coverOf A).kind = 2 → exec (.mscale a v) s = .next ((s.leaves sh x.k c []).raiseAll sh.id
        [⟨cIllegal, 0, x.desc, x.t, x.word.setWidth 64, BitVec.ofNat 64 A, 0⟩]))

/-- R87, R203: the other words of a tile that older words hold; ACC_BUSY before what is undecided yet is log entry 40 -/
def Says.OwnedTiles : Prop :=
  ∀ (s : State) (c : Core) (sh : Sheet) (a as : BitVec 3) (gw ga g fmt cap f : BitVec 4) (sb : BitVec 6) (l z keep : BitVec 1)
    (rm pol : BitVec 2) (o : Owner), s.Runs s.cur.k c sh →
    let x := s.cur
    let A := a.toNat
    let W := gw.toNat
    let G := ga.toNat
    let ra := c.ring G
    let rw := c.ring W
    let kv := c.coverOf A
    let lo := min A as.toNat
    let hi := max A as.toNat
    let busy := fun (i : Instr) (n : Nat) => exec i s
      = .next ((s.leaves sh x.k c []).raiseAll sh.id [⟨cBusy, 0, x.desc, x.t, BitVec.ofNat 64 n, descBits c.prank o.d, 0⟩])
    let names := fun (i : Instr) => (c.Holder x A o → busy i A) ∧ (c.Idle x [A] → c.Holder x 8 o → busy i 8)
    let opening : List Instr :=
      [.mply a gw ga sb cap l, .mplyz a gw ga sb cap l, .mplyk a gw ga sb cap l, .mplyzk a gw ga sb cap l]
    let last := x.t + 128 * cap.toNat + 160
    let settled := c.owes x [A, 8] (sReg sb.toNat) = true ∨ (c.MaskStill x ∧ c.Ready x [sReg sb.toNat] [(sReg sb.toNat, last)])
    (((c.coverOf A).kind, (c.coverOf as.toNat).kind) ≠ (1, 2) → ((c.coverOf A).kind, (c.coverOf as.toNat).kind) ≠ (2, 1) →
      (c.Holder x lo o → busy (.madd a as) lo) ∧ (c.Idle x [lo] → c.Holder x hi o → busy (.madd a as) hi))
    ∧ ((c.ring g.toNat).nfr ≠ 0 →
        c.outBank fmt.toNat ((c.ring g.toNat).runs (c.ring g.toNat).wr (min (2048 * outWidth fmt.toNat) (c.ring g.toNat).size)) = none →
        c.Holder x A o → busy (.mout a g fmt rm pol f) A)
    ∧ (c.ringOpen x.t W → c.Holder x A o → busy (.mdrop a gw) A)
    ∧ (c.ringOpen x.t W → c.ringOpen x.t G → ra.ready x.t ra.head = true →
        (∀ fa fw kt int, c.operand G ra.head = .ok fa → c.operand W rw.head = .ok fw → madKind fa.fmt fw.fmt = some (kt, int) →
          (z = 1 ∨ kv.kind ≠ if int then 1 else 2) → 16 * kt * fmtWidth fa.fmt ≤ ra.tileBytes →
          16 * kt * fmtWidth fw.fmt ≤ rw.tileBytes → rw.ready x.t rw.head = true → c.MaskStill x → names (.mmad a gw ga z keep l))
        ∧ ∀ fa fw, c.operand G ra.head = .ok fa → c.operand W rw.head = .ok fw → plyAct fa.fmt = true →
          4096 * fmtWidth fa.fmt ≤ ra.tileBytes → settled →
          (ra.act = true → kv.kind ≠ 2 → ∀ i ∈ opening, names i)
          ∧ (ra.act = true → ∀ i ∈ [Instr.mplyz a gw ga sb cap l, .mplyzk a gw ga sb cap l], names i)
          ∧ (kv.kind ≠ 2 → (c.Holder x A o → busy (.mres a gw ga sb cap l) A)
            ∧ ((c.boundOf A).opened = true → names (.mres a gw ga sb cap l))))

/-- R192 to R195, R197, R202, R212 to R214 -/
def Says.TileEffects : Prop :=
  ∀ (s : State) (c : Core) (sh : Sheet) (k a as : Nat) (col : List W32), s.Runs k c sh → c.Canonical → col.length = 128 →
    let t := s.task sh
    let others := fun (c' : Core) => ∀ b ≠ a, (∀ m n, m < 128 → n < 128 → c'.tileElem b m n = c.tileElem b m n)
      ∧ (b ≠ as → c'.boundOf b = c.boundOf b ∧ c'.coverOf b = c.coverOf b)
    let only := fun (c' : Core) => c' = { c with
      acc := c'.acc, bound := c'.bound, cover := c'.cover, fflags := c'.fflags, fset := c'.fset, fcyc := c'.fcyc }
    let sum := fun (int : Bool) (u v : W32) =>
      if int then
        let i := u.toInt + v.toInt
        if i < -2 ^ 31 then (BitVec.ofInt 32 (-2 ^ 31), IS)
        else if 2 ^ 31 - 1 < i then (BitVec.ofInt 32 (2 ^ 31 - 1), IS) else (BitVec.ofInt 32 i, 0)
      else (BitVec.ofNat 32 (fp32.fadd 0 u.toNat v.toNat).1, (fp32.fadd 0 u.toNat v.toNat).2)
    let gives := fun (i : Instr) (f : Nat → Nat → W32 × Flags) (P : Core → Prop) =>
      ∃ c' fl, exec i s = .next (s.leaves sh k c' []) ∧ only c' ∧ others c' ∧ c.raisesFlags c' t fl
        ∧ (∀ m < 128, ∀ n < 128, c'.tileElem a m n = (f m n).1)
        ∧ (∀ b < 6, fl.getLsbD b = true ↔ ∃ m < 128, ∃ n < 128, (f m n).2.getLsbD b = true) ∧ P c'
    let saturates := fun (f : Nat → Nat → W32 × Flags) => ∃ m < 128, ∃ n < 128, (f m n).2 = IS
    let keeps := fun (c' : Core) => as ≠ a → c'.boundOf as = c.boundOf as ∧ c'.coverOf as = c.coverOf as
    let closedRow := fun (c : Core) (a m : Nat) => Tab.get 0 (c.boundOf a).closed m
    let row := fun (a m : Nat) => (c.boundOf a).rows.getD m 0
    let kv := c.coverOf a
    let b := c.boundOf a
    let some_ := if kv.kind = 0 then 1 else kv.kind
    gives (.mzeroEffect k a) (fun _ _ => (0, 0)) (fun c' =>
        c'.boundOf a = zeroBound ∧ c'.coverOf a = zeroCover ∧ keeps c')
    ∧ gives (.mscaleMbiasEffect k a true col)
        (fun m n => (BitVec.ofNat 32 (fp32.fmul 0 (c.tileElem a m n).toNat (col.getD n 0).toNat).1,
          (fp32.fmul 0 (c.tileElem a m n).toNat (col.getD n 0).toNat).2))
        (fun c' =>
          c'.boundOf a = { b with closed := (c'.boundOf a).closed, opened := false, fullc := c.fullAfter a }
          ∧ (∀ m < 128, closedRow c' a m = mulUp (row a m) (maxMag col))
          ∧ c'.coverOf a = { kv with kind := some_, cov := (c'.coverOf a).cov } ∧ c'.Covers a ∧ keeps c')
    ∧ (let f := fun (m n : Nat) => sum (kv.kind == 2) (c.tileElem a m n) (col.getD n 0)
       gives (.mscaleMbiasEffect k a false col) f fun c' =>
        c'.bound = c.bound ∧ keeps c' ∧ c'.coverOf a = { kv with kind := some_, sat := (c'.coverOf a).sat }
        ∧ ((c'.coverOf a).sat = true ↔ kv.sat = true ∨ (kv.kind = 2 ∧ saturates f)))
    ∧ (let ks := c.coverOf as
       let bs := c.boundOf as
       let kind := max kv.kind.toNat ks.kind.toNat
       let f := fun (m n : Nat) => sum (kind == 2) (c.tileElem a m n) (c.tileElem as m n)
       gives (.maddEffect k a as) f fun c' =>
        let b' := c'.boundOf a
        b' = { b with
          closed := b'.closed, opened := false, covm := addUp b.covm bs.covm, totm := addUp b.totm bs.totm
          fullc := c.fullAfter a && c.fullAfter as }
        ∧ (∀ m < 128, closedRow c' a m = addUp (row a m) (row as m))
        ∧ c'.coverOf a = { kv with
          kind := BitVec.ofNat 2 kind, sat := (c'.coverOf a).sat, cov := (c'.coverOf a).cov
          quanta := BitVec.ofNat 19 (min (kv.quanta.toNat + ks.quanta.toNat) (2 ^ 19 - 1)) }
        ∧ ((c'.coverOf a).sat = true ↔ kv.sat = true ∨ ks.sat = true ∨ (kind = 2 ∧ saturates f)) ∧ c'.Covers a
        ∧ (as ≠ a →
          c'.boundOf as = { bs with closed := (c'.boundOf as).closed, opened := false, fullc := c.fullAfter as }
          ∧ (∀ m < 128, closedRow c' as m = row as m)
          ∧ c'.coverOf as = { ks with cov := (c'.coverOf as).cov } ∧ (bs.opened = true → c'.Covers as)
          ∧ (bs.opened = false → (c'.coverOf as).cov = ks.cov)))

/-- Each word completes and acts at its stated cycle; a tile that older words hold raises ACC_BUSY with the oldest of them, in these
words and in every other word of a tile; an integer tile cannot be scaled or added to a floating-point one; the element of every row
and column, the cover register, the bounds and the coverage after each effect are as the manual states, the source tile of a sum
keeping all but its open block. ACC_BUSY before what the holder leaves undecided is the model's reading (log entry 40). -/
def Obligations.TileWords : Prop :=
  Says.TileWords ∧ Says.OwnedTiles ∧ Says.TileEffects

/-- R207, R209, R210 -/
def Says.MaskAndDropWords : Prop :=
  ∀ (s : State) (c : Core) (sh : Sheet) (sa sv : BitVec 6) (f : BitVec 4) (mode : BitVec 2) (a : BitVec 3) (gw : BitVec 4)
    (k : Nat) (block : List Byte), s.Runs s.cur.k c sh →
    let x := s.cur
    let addr := (c.sget sa.toNat).toNat
    let reads := [(addr, 2048)]
    let done := lastArrival f.toNat 64 (x.t + 2) 9 reads + 1
    let desc : Desc := ⟨x.k, x.col, x.addr, x.t + 2, x.t⟩
    let m : Move := ⟨desc, x.k, 0, f.toNat, 9, .maskBlock done, none, 64, none, [], [], 0⟩
    (c.MaskStill x → mode ≤ 1 → c.Ready x [sReg sa.toNat, sReg sv.toNat] [] →
      (addr % 64 = 0 ∧ addr + 2047 < 0x180000 →
        s.Moves sh c (.mmask sa sv f mode)
          { c.claim x [] with mask := { c.mask with
              arming := some done, d := some x.desc
              value := if mode = 1 then some ((c.sget sv.toNat).setWidth 32) else none } }
          (moveOccs desc f.toNat 1 64 (x.t + 2) 9 true (partsOf 64 reads))
          [(x.t + 2, phRead, .laneBeat m (readPiecesOf 64 (x.t + 2) (partsOf 64 reads)))] [] fun c' => c'.rings = c.rings)
      ∧ (¬(addr % 64 = 0 ∧ addr + 2047 < 0x180000) → exec (.mmask sa sv f mode) s = .next
          ((s.leaves sh x.k c []).raiseAll sh.id [⟨cRegion, rScratch, x.desc, x.t, c.sget sa.toNat, 0, 0⟩])))
    ∧ (k = x.k → exec (.maskArm k block) s = .next
        (s.leaves sh k { c with mask := { c.mask with block := some block, armed := true, arming := none } } []))
    ∧ (c.Canonical → c.ringOpen x.t gw.toNat → c.Idle x [a.toNat] → ∃ c',
        exec (.mdrop a gw) s = .next (s.leaves sh x.k c' (if (c.boundOf a.toNat).opened then
          [(x.t + 4, phRead, .mdropPop x.k a.toNat gw.toNat true x.desc)] else []))
        ∧ c' = { c.claim x [] with own := (c.hold x [a.toNat] (x.t + 8)).own, rings := c'.rings } ∧ c.passed c' [])

/-- R188, R193, R195, R207 -/
def Says.BlockDropped : Prop :=
  ∀ (s : State) (c : Core) (sh : Sheet) (k a gw : Nat) (d : Desc), s.Runs k c sh → c.Canonical →
    let t := s.task sh
    let ring := c.ring gw
    let kv := c.coverOf a
    let n := kv.count.toNat - kv.cursor.toNat
    let addr := ring.addr (ring.head * ring.tileBytes)
    let h := parseHdr ((List.range 0x440).map fun i => c.byte (addr + i))
    (ring.ready t ring.head = true → c.Quiet t addr (addr + 0x43F) →
      (∀ q ∈ s.writersNow k 0, q.2 < addr ∨ addr + 0x43F < q.1) →
      c.tagFault t (addr / 4096) (ring.wantTag (ring.head * ring.tileBytes)) d = [] → h.bad = false →
      h.index = kv.cursor.toNat → h.tile = kv.tile → h.count = kv.count.toNat → 1 + h.dataFrames ≤ ring.tile →
      ∃ c', exec (.mdropPop k a gw true d) s
          = .next (s.leaves sh k c' [(t + 4, phStart, .mdropPop k a gw false d)]) ∧ c' = { c with acc1 := c'.acc1 })
    ∧ (ring.ready t ring.head = true → c.Quiet t addr (addr + 0x43F) →
      (∀ q ∈ s.writersNow k 0, q.2 < addr ∨ addr + 0x43F < q.1) →
      c.tagFault t (addr / 4096) (ring.wantTag (ring.head * ring.tileBytes)) d = [] →
      let refused := fun (f : CFault) => ∃ c', exec (.mdropPop k a gw true d) s
        = .next ((s.leaves sh k c' []).raiseAll sh.id [f]) ∧ c' = { c with acc1 := c'.acc1 }
      (h.bad = true → refused
        ⟨cIllegal, 0, d, t, ((c.col d.col).word d.addr).setWidth 64, BitVec.ofNat 64 (addr / 4096), 0⟩)
      ∧ (h.bad = false → ¬(h.index = kv.cursor.toNat ∧ h.tile = kv.tile ∧ h.count = kv.count.toNat
          ∧ 1 + h.dataFrames ≤ ring.tile) → refused (c.ringMiss d t gw)))
    ∧ ((∀ i < n, ring.ready t (ring.head + i) = true) → 0 < ring.tileBytes →
      ∃ c', exec (.mdropPop k a gw false d) s = .next (s.leaves sh k c' [])
        ∧ c' = { c with rings := c'.rings, bound := c'.bound, cover := c'.cover }
        ∧ (0 < n → (c'.ring gw).rd = (ring.head + n) * ring.tileBytes) ∧ (∀ g ≠ gw, c'.ring g = c.ring g)
        ∧ (c'.boundOf a).opened = false
        ∧ (∀ m < 128, Tab.get 0 (c'.boundOf a).closed m = (c.boundOf a).rows.getD m 0)
        ∧ c'.boundOf a = { c.boundOf a with
          closed := (c'.boundOf a).closed, opened := false, fullc := c.fullAfter a }
        ∧ c'.coverOf a = { kv with cov := (c'.coverOf a).cov } ∧ c'.Covers a
        ∧ (∀ b ≠ a, c'.boundOf b = c.boundOf b ∧ c'.coverOf b = c.coverOf b))

/-- MMASK reads its 2,048 bytes or raises its fault, and the mask is armed when they are there; MDROP pops the plies
that the tile has not consumed and closes its bound. -/
def Obligations.MaskAndDroppedBlocks : Prop :=
  Says.MaskAndDropWords ∧ Says.BlockDropped

/-- R215, R216 -/
def Says.OutputWord : Prop :=
  ∀ (s : State) (c : Core) (sh : Sheet) (a : BitVec 3) (g fmt : BitVec 4) (rm pol : BitVec 2) (f : BitVec 4) (r' : Ring),
    s.Runs s.cur.k c sh → c.Canonical →
    let x := s.cur
    let G := g.toNat
    let r := c.ring G
    let w := if fmt = 0 then 32 else fmtWidth fmt.toNat
    let n := 2048 * w
    c.ringOpen x.t G → c.Idle x [a.toNat] →
    (c.outBank fmt.toNat (r.runs r.wr (min n r.size)) = none →
      (r.reserve x.t n = some r' →
        let run : OutRun := ⟨x.desc, a.toNat, G, r.wr, fmt.toNat, rm.toNat, pol.toNat, f.toNat⟩
        s.Moves sh c (.mout a g fmt rm pol f) { c.claim x [] with own := (c.hold x [a.toNat] (x.t + 255)).own } []
          [(x.t + 1, phRead, .moutRow run 0)] [] fun c' => c.ringsBut c' G (r.wr + n) r.rd r'.tiles)
      ∧ (r.reserve x.t n = none → exec (.mout a g fmt rm pol f) s = .next ((s.leaves sh x.k (c.claim x []) []).raiseAll sh.id
          [⟨cMiss, mRing, x.desc, x.t, BitVec.ofNat 64 G, BitVec.ofNat 64 (r.wr % r.size), 0⟩])))
    ∧ (∀ b, c.outBank fmt.toNat (r.runs r.wr (min n r.size)) = some b → exec (.mout a g fmt rm pol f) s
        = .next ((s.leaves sh x.k c []).raiseAll sh.id
          [⟨cIllegal, 0, x.desc, x.t, x.word.setWidth 64, BitVec.ofNat 64 (b % 256), 0⟩]))

/-- R58, R215, R216 -/
def Says.OutputRowEffect : Prop :=
  ∀ (s : State) (c : Core) (sh : Sheet) (o : OutRun) (m : Nat), s.Runs o.d.k c sh → m < 128 →
    let t := s.task sh
    let w := if o.fmt = 0 then 32 else fmtWidth o.fmt
    let off := o.roff + 16 * w * m
    let runs := (c.ring o.g).runs off (16 * w)
    let parts := partsOf 64 runs
    let value := fun (n : Nat) => if (c.coverOf o.a).kind = 0 then 0 else c.tileElem o.a m n
    let code := fun (n : Nat) =>
      outCode (c.bank (runAddr runs (w * n / 8) / 65536)) o.fmt o.rm o.pol (c.coverOf o.a).kind (value n)
    let next : List (Nat × Nat × Act) := if m < 127 then [(t + 2, phRead, .moutRow o (m + 1))] else []
    let mv : Move := ⟨o.d, o.d.k, 0, o.f, 9, .store, some (o.g, off), 256, none, [], [], 0⟩
    let cyc := fun (p : Nat × Nat × Nat) => t + p.2.2 / 256 + hopsOn (o.f + p.2.2 / 64 % 4) 9 (bankStation (bankOf p.1))
    c.Canonical → (w = 4 ∨ w = 8 ∨ w = 16 ∨ w = 32) →
    ((∀ n < 128, (code n).trap = false) → ∃ (c' : Core) (data : List (Option Byte)) (fl : Flags),
      exec (.moutRow o m) s = .next (s.leaves sh o.d.k c' (startWrites mv (fillParts cyc parts data []) ++ next))
      ∧ c' = { c with fflags := c'.fflags, fset := c'.fset, fcyc := c'.fcyc } ∧ c.raisesFlags c' t fl
      ∧ (∀ b < 6, fl.getLsbD b = true ↔ ∃ n < 128, (code n).fl.getLsbD b = true) ∧ data.length = 16 * w
      ∧ (w ≠ 4 → ∀ n < 128, ∀ j < w / 8, data[n * (w / 8) + j]? = some (some (BitVec.ofNat 8 ((code n).bits / 256 ^ j))))
      ∧ (w = 4 → ∀ i < 64, data[i]? = some (some (BitVec.ofNat 8
          ((code (2 * i)).bits % 16 + 16 * ((code (2 * i + 1)).bits % 16))))))
    ∧ (∀ n < 128, (code n).trap = true → (∀ j < n, (code j).trap = false) → exec (.moutRow o m) s
        = .next ((s.leaves sh o.d.k c next).raiseAll sh.id [⟨cTrap, 0, o.d, t, BitVec.ofNat 64 (128 * m + n), 0, 0⟩]))

/-- R217 -/
def Says.BoundVectorWrite : Prop :=
  ∀ (s : State) (c : Core) (sh : Sheet) (k a v : Nat) (vals : List W32), s.Runs k c sh → c.Canonical → vals.length = 1024 →
    (∃ c', exec (.moutbWrite k v vals) s = .next (s.leaves sh k c' []) ∧ c' = { c with v := c'.v }
      ∧ (∀ l < 1024, c'.lane v l = vals.getD l 0) ∧ ∀ d ≠ v, ∀ l < 1024, c'.lane d l = c.lane d l)
    ∧ (c.boundVec a).length = 1024 ∧ (∀ m < 128, (c.boundVec a).getD m 0 = (c.boundOf a).rows.getD m 0)
    ∧ ((c.boundVec a).getD 129 0 ++ (c.boundVec a).getD 128 0 =
        (c.coverOf a).quanta ++ BitVec.ofBool (c.coverOf a).sat ++ (c.coverOf a).kind ++ BitVec.ofBool (c.boundOf a).opened
          ++ BitVec.ofBool (c.boundOf a).fullc ++ (c.coverOf a).tile ++ (c.coverOf a).count ++ (c.coverOf a).cursor
          ++ (c.coverOf a).cov)
    ∧ (c.boundVec a).getD 130 0 = (c.boundOf a).covm ∧ (c.boundVec a).getD 131 0 = (c.boundOf a).totm
    ∧ ∀ l, 132 ≤ l → (c.boundVec a).getD l 0 = 0

/-- The word takes its ring position and posts its rows; a row converts its 128 elements to the output format and posts their bytes,
or traps on the first element that policy TRAP refuses; MOUTB's vector holds the bounds, the cover words and zeros. That later rows
go on after one that traps, and that the trapping row sets no flags, is the model's (log entry 33). -/
def Obligations.MatrixOutput : Prop :=
  Says.OutputWord ∧ Says.OutputRowEffect ∧ Says.BoundVectorWrite

/-- R89, R90, R218 to R223 -/
def Says.FetchWord : Prop :=
  ∀ (s : State) (c : Core) (sh : Sheet) (p : BitVec 3) (g f : BitVec 4) (sa : BitVec 6) (cls : BitVec 2)
    (k cv inv : BitVec 1) (lit : Option W32) (r' : Ring) (w : Nat) (wd : Window),
    s.Runs s.cur.k c sh → c.Canonical → c.pget p.toNat = true →
    let x := s.cur
    let G := g.toNat
    let r := c.ring G
    let v := (c.sget sa.toNat).toNat
    let va := v % 2 ^ 48
    let n := if v / 2 ^ 48 = 0 then r.tileBytes else 64 * (v / 2 ^ 48)
    let hn := n * 32 / w
    let runs := r.runs r.wr n
    let credit := lit.bind (litCredit k)
    let late := sh.lateness s.free
    let X : Xfer := ⟨x.desc, sh.id, true, false, 0, keyPkg x.k, va, n, G, r.wr, f.toNat, cls.toNat, credit, cv == 1, inv == 1,
      false, none, w, late⟩
    let land := x.t + 896 + late
    let nb := (n + 127) / 128
    c.Ready x [pReg p.toNat, sReg sa.toNat] [] → c.ringOpen x.t G → r.reserve x.t n = some r' → n ≤ 131072 → hn ≤ 131072 →
    (cv = 0 ∧ w = 32) ∨ (cv = 1 ∧ ∃ fm ≠ 0, banksOf runs ≠ [] ∧ (∀ b ∈ banksOf runs, (c.bank b).fmt = fm) ∧ w = fmtWidth fm) →
    sh.window? (keyPkg x.k) va hn = some wd → wd.rd = true → va % 64 = 0 → (inv = 1 → sh.priv = true ∧ wd.cls = clsI) →
    ∃ t c', exec (.fetch p g sa f cls k cv inv lit) s = .next t ∧ s.After t x.k c'
      ∧ c' = { c.claim x [] with rings := c'.rings, occ := c'.occ, cuts := c'.cuts, ports := c'.ports }
      ∧ c.ringsBut c' G (r.wr + n) r.rd r'.tiles
      ∧ (∀ i < nb, ∃ cyc, x.t + 64 ≤ cyc ∧ cyc ≤ x.t + 832 + late ∧ t.Due sh cyc phStart (.hbmSample (.xfer X i)))
      ∧ (∀ b, credit = some b → t.Due sh (land + nb - 1) phEnd (.transferCredit x.k b n)) ∧ t.Settled sh (land + nb - 1)
      ∧ ((∀ o ∈ c.occ, o.hi < x.t) → (∀ o ∈ c.ports, o.hi < x.t) → (∀ b ∈ sh.haccs, (xferAccess X).coincides b = false) →
          (rankAccesses s.ttc x.k (granules va hn) ((s.pkg (keyPkg x.k)).hbmUse.filter fun u => s.ttc < u.1 + 896)).2 = none →
          t.NoFault sh)

/-- R218 to R224, R322 -/
def Says.StowWord : Prop :=
  ∀ (s : State) (c : Core) (sh : Sheet) (p : BitVec 3) (g f : BitVec 4) (sa : BitVec 6) (cls : BitVec 2)
    (k : BitVec 1) (lit : Option W32) (wd : Window),
    s.Runs s.cur.k c sh → c.Canonical → c.pget p.toNat = true →
    let x := s.cur
    let G := g.toNat
    let r := c.ring G
    let v := (c.sget sa.toNat).toNat
    let va := v % 2 ^ 48
    let n := if v / 2 ^ 48 = 0 then r.tileBytes else 64 * (v / 2 ^ 48)
    let runs := r.runs r.rd n
    let credit := lit.bind (litCredit k)
    let late := sh.lateness s.free
    let X : Xfer := ⟨x.desc, sh.id, false, false, 0, keyPkg x.k, va, n, G, r.rd, f.toNat, cls.toNat, credit, false, false,
      false, none, 32, late⟩
    let desc : Desc := ⟨x.k, x.col, x.addr, x.t + 2, x.t⟩
    let m : Move := ⟨desc, x.k, cls.toNat, f.toNat, 13, .stow X, some (G, r.rd), 128, none, [], [], 0⟩
    c.Ready x [pReg p.toNat, sReg sa.toNat] [] → c.ringOpen x.t G → r.pushedBefore x.t n → 0 < n → n ≤ 65536 →
    sh.window? (keyPkg x.k) va n = some wd → wd.wr = true → wd.cls ≠ clsR → wd.cls ≠ clsI → va % 64 = 0 →
    ∃ t c', exec (.stow p g sa f cls k lit) s = .next t ∧ s.After t x.k c'
      ∧ c' = { c.claim x [] with rings := c'.rings, occ := c'.occ, cuts := c'.cuts, ports := c'.ports }
      ∧ c.ringsBut c' G r.wr (r.rd + n) r.tiles
      ∧ (runs ≠ [] → t.Due sh (x.t + 2) phRead (.laneBeat m (readPiecesOf 128 (x.t + 2) (partsOf 128 runs))))
      ∧ (∀ b, credit = some b → t.Due sh (x.t + 832 + late) phEnd (.transferCredit x.k b n))
      ∧ t.Due sh x.t phEnd (.hbmPerform X 0 [])

/-- R321, R322 -/
def Says.StowAllocates : Prop :=
  ∀ (s : State) (sh : Sheet) (X : Xfer) (w : Window), s.sheet? X.sh = some sh → sh.window? X.peer X.va X.n = some w →
    w.pkg < s.pkgs.length →
    let t := s.task sh
    let r := s.allocation sh w X.va X.n
    ∃ u, exec (.hbmPerform X 0 []) s = .next u ∧ (∀ p, (u.pkg p).hbm = (s.pkg p).hbm) ∧ u.cores = s.cores
      ∧ (∀ v ∈ (s.pkg w.pkg).vat, v ∈ (u.pkg w.pkg).vat)
      ∧ (∀ l ∈ r.lines, ⟨sh.id, l, [], if w.cls = clsM then some w.mop else none, (s.pkg w.pkg).keyOf w.key⟩ ∈ (u.pkg w.pkg).vat)
      ∧ (r.refused = none → (X.remote = false → u.Settled sh (X.d.start + 832 + X.late))
        ∧ (w.cls = clsT ∨ w.cls = clsM → sh.inPlace = false → ∀ l ∈ linesOf X.va X.n,
            ∃ v ∈ (u.pkg w.pkg).vat, v.sh = sh.id ∧ v.line = w.phys (64 * l) / 64))
      ∧ (∀ st held q, r.refused = some (st, held, q) → sh.state = 5 → sh.stopAt w.pkg = none →
          ∃ sh', u.sheet? sh.id = some sh' ∧ ∃ fr ∈ sh'.faults, fr.cause = cVatCap ∧ fr.task = t ∧ fr.pkg = w.pkg
            ∧ fr.d0 = BitVec.ofNat 64 st ∧ fr.d1 = BitVec.ofNat 64 held ∧ fr.d2 = BitVec.ofNat 64 q)

/-- Each completes with the ring's cursor moved by its bytes, its samples or beats posted within the stated window, its
credit at the stated cycle; at the end of the cycle in which it issues, a STOW into a T-class or M-class window takes its vat
lines or raises VAT_CAPACITY. In a lenient sheet a transfer may fall any number of cycles later, which log entry 57 leaves
free. -/
def Obligations.FetchAndStow : Prop :=
  Says.FetchWord ∧ Says.StowWord ∧ Says.StowAllocates

/-- R93, R225 -/
def Says.RemoteTransferWords : Prop :=
  ∀ (s : State) (c : Core) (sh : Sheet) (p : BitVec 3) (g f : BitVec 4) (sa : BitVec 6) (cls : BitVec 2)
    (k : BitVec 1) (lit : W32) (r' : Ring) (heap : Window), s.Runs s.cur.k c sh → c.Canonical → c.pget p.toNat = true →
    let x := s.cur
    let G := g.toNat
    let r := c.ring G
    let v := (c.sget sa.toNat).toNat
    let off := v % 2 ^ 48
    let n := if v / 2 ^ 48 = 0 then r.tileBytes else 64 * (v / 2 ^ 48)
    let q := lit.toNat / 2 ^ 10 % 2 ^ 11
    let peer := sh.pkgs.getD q 0
    let h := s.hops (keyPkg x.k) peer
    let credit := litCredit k lit
    let late := sh.lateness s.free
    let X := fun (read : Bool) (o : Nat) => (⟨x.desc, sh.id, read, true, h, peer, heap.base + off, n, G, o, f.toNat, cls.toNat,
      credit, false, false, false, none, 32, late⟩ : Xfer)
    let desc : Desc := ⟨x.k, x.col, x.addr, x.t + 2, x.t⟩
    let m : Move := ⟨desc, x.k, cls.toNat, f.toNat, 13, .stow (X false r.rd), some (G, r.rd), 128, none, [], [], 0⟩
    let nb := (n + 127) / 128
    let land := x.t + 1536 * h + 896 + late
    let kept := fun (c' : Core) =>
      c' = { c.claim x [] with rings := c'.rings, occ := c'.occ, cuts := c'.cuts, ports := c'.ports }
    c.Ready x [pReg p.toNat, sReg sa.toNat] [] → c.ringOpen x.t G → off % 64 = 0 → q < sh.pkgs.length →
    sh.heap? peer = some heap → off + n ≤ heap.size → 0 < n →
    (r.reserve x.t n = some r' → n ≤ 131072 → heap.rd = true →
      ∃ t c', exec (.rfetch p g sa f cls k lit) s = .next t ∧ s.After t x.k c' ∧ kept c'
        ∧ c.ringsBut c' G (r.wr + n) r.rd r'.tiles
        ∧ (∀ i < nb, ∃ cyc, x.t + 768 * h + 64 ≤ cyc ∧ cyc ≤ x.t + 768 * h + 832 + late
            ∧ t.Due sh cyc phStart (.hbmSample (.xfer (X true r.wr) i)))
        ∧ (∀ b, credit = some b → t.Due sh (land + nb - 1) phEnd (.transferCredit x.k b n)) ∧ t.Settled sh (land + nb - 1))
    ∧ (r.pushedBefore x.t n → n ≤ 65536 → heap.wr = true → heap.cls ≠ clsR → heap.cls ≠ clsI →
      ∃ t c', exec (.rstow p g sa f cls k lit) s = .next t ∧ s.After t x.k c' ∧ kept c'
        ∧ c.ringsBut c' G r.wr (r.rd + n) r.tiles
        ∧ t.Due sh (x.t + 2) phRead (.laneBeat m (readPiecesOf 128 (x.t + 2) (partsOf 128 (r.runs r.rd n))))
        ∧ t.Due sh (x.t + 768 * h) phEnd (.hbmPerform (X false r.rd) 0 [])
        ∧ (∀ b, credit = some b → t.Due sh (x.t + 768 * h + 832 + late) phEnd
            (.transferCredit (sh.gang.getD (q * (8 * recCpp sh.words) + c.rank % (8 * recCpp sh.words)) x.k) b n))
        ∧ t.Settled sh (x.t + 768 * h + 832 + late))

/-- R218 to R222, R225, R361 to R363; the window that a WINDOW fault names is log entry 25 -/
def Says.TransferFaults : Prop :=
  ∀ (s : State) (c : Core) (sh : Sheet) (p : BitVec 3) (g f : BitVec 4) (sa : BitVec 6) (cls : BitVec 2)
    (k : BitVec 1) (lit : Option W32) (L : W32), s.Runs s.cur.k c sh → c.pget p.toNat = true →
    let x := s.cur
    let v := (c.sget sa.toNat).toNat
    let va := v % 2 ^ 48
    let n := if v / 2 ^ 48 = 0 then (c.ring g.toNat).tileBytes else 64 * (v / 2 ^ 48)
    let own := fun n => sh.window? (keyPkg x.k) va n
    let fault := fun (i : Instr) (cause sub : Nat) (d0 d1 : W64) => exec i s = .next ((s.leaves sh x.k c []).raiseAll sh.id
      [⟨cause, sub, x.desc, x.t, d0, d1, 0⟩])
    let fetch : Instr := .fetch p g sa f cls k 0 0 lit
    let stow : Instr := .stow p g sa f cls k lit
    c.Ready x [pReg p.toNat, sReg sa.toNat] [] → n ≤ 65536 →
    (va % 64 ≠ 0 → fault fetch cRegion rAlign (BitVec.ofNat 64 va) 0 ∧ fault stow cRegion rAlign (BitVec.ofNat 64 va) 0)
    ∧ (va % 64 = 0 → own n = none → own 1 = none →
        fault fetch cRegion rWindow (BitVec.ofNat 64 va) 0 ∧ fault stow cRegion rWindow (BitVec.ofNat 64 va) 0)
    ∧ (∀ w, va % 64 = 0 → own n = none → own 1 = some w →
        fault fetch cRegion rWindow (BitVec.ofNat 64 va) (BitVec.ofNat 64 w.idx)
        ∧ fault stow cRegion rWindow (BitVec.ofNat 64 va) (BitVec.ofNat 64 w.idx))
    ∧ (∀ w, va % 64 = 0 → own n = some w →
        (w.rd = false → fault fetch cRegion rPerm (BitVec.ofNat 64 va) (BitVec.ofNat 64 w.idx))
        ∧ (w.wr = false ∨ w.cls = clsR ∨ w.cls = clsI → fault stow cRegion rPerm (BitVec.ofNat 64 va) (BitVec.ofNat 64 w.idx)))
    ∧ (let q := L.toNat / 2 ^ 10 % 2 ^ 11
       sh.pkgs.length ≤ q →
        fault (.rfetch p g sa f cls k L) cRegion rGang (BitVec.ofNat 64 va) (BitVec.ofNat 64 q)
        ∧ fault (.rstow p g sa f cls k L) cRegion rGang (BitVec.ofNat 64 va) (BitVec.ofNat 64 q))
    ∧ (let q := L.toNat / 2 ^ 10 % 2 ^ 11
       let heap := sh.heap? (sh.pkgs.getD q 0)
       let both := fun (sub : Nat) (d1 : W64) => fault (.rfetch p g sa f cls k L) cRegion sub (BitVec.ofNat 64 va) d1
         ∧ fault (.rstow p g sa f cls k L) cRegion sub (BitVec.ofNat 64 va) d1
       q < sh.pkgs.length →
        (va % 64 ≠ 0 → both rAlign 0)
        ∧ (va % 64 = 0 → heap = none → both rWindow 0)
        ∧ ∀ w, va % 64 = 0 → heap = some w →
          (w.size < va + n → both rWindow (BitVec.ofNat 64 w.idx))
          ∧ (va + n ≤ w.size → w.rd = false → fault (.rfetch p g sa f cls k L) cRegion rPerm (BitVec.ofNat 64 va) (BitVec.ofNat 64 w.idx))
          ∧ (va + n ≤ w.size → w.wr = false ∨ w.cls = clsR ∨ w.cls = clsI →
            fault (.rstow p g sa f cls k L) cRegion rPerm (BitVec.ofNat 64 va) (BitVec.ofNat 64 w.idx)))

/-- R83, R106, R218 to R222 -/
def Says.PredicatedOffTransferWords : Prop :=
  ∀ (s : State) (c : Core) (sh : Sheet) (p pd : BitVec 3) (g f : BitVec 4) (sa sb : BitVec 6) (cls : BitVec 2)
    (k all : BitVec 1) (lit : Option W32) (fld : BitVec 5) (r' : Ring), s.Runs s.cur.k c sh → c.Canonical →
    c.pget p.toNat = false →
    let x := s.cur
    let G := g.toNat
    let r := c.ring G
    let v := (c.sget sa.toNat).toNat
    let n := if v / 2 ^ 48 = 0 then r.tileBytes else 64 * (v / 2 ^ 48)
    let nb := (n + 127) / 128
    let late := sh.lateness s.free
    let idle := fun (i : Instr) => ∃ t, exec i s = .next t ∧ s.After t x.k (c.claim x []) ∧ t.agenda = s.agenda
    (idle (.patch p sa sb fld) ∧ idle (.armRec p sa) ∧ idle (.pinv p sa all) ∧ idle (.ringcfg p g sa)
      ∧ (c.pbanks ≠ 0 → idle (.probe p pd sb sa cls)))
    ∧ (c.ringOpen x.t G → 0 < n → n ≤ 65536 → r.reserve x.t n = some r' → ∃ t c',
        exec (.fetch p g sa f cls k 0 0 lit) s = .next t ∧ s.After t x.k c' ∧ c' = { c.claim x [] with rings := c'.rings }
        ∧ c.ringsBut c' G (r.wr + n) r.rd r'.tiles ∧ t.Settled sh (x.t + 896 + late + nb - 1)
        ∧ ∀ b, lit.bind (litCredit k) = some b → t.Due sh (x.t + 896 + late + nb - 1) phEnd (.transferCredit x.k b n))
    ∧ (c.ringOpen x.t G → 0 < n → n ≤ 65536 → r.pushedBefore x.t n → ∃ t c',
        exec (.stow p g sa f cls k lit) s = .next t ∧ s.After t x.k c' ∧ c' = { c.claim x [] with rings := c'.rings }
        ∧ c.ringsBut c' G r.wr (r.rd + n) r.tiles
        ∧ ∀ b, lit.bind (litCredit k) = some b →
            t.Settled sh (x.t + 832 + late) ∧ t.Due sh (x.t + 832 + late) phEnd (.transferCredit x.k b n))

/-- Remote transfers go to the peer's symmetric heap at the stated cycles for their hops; alignment, window, permission and gang
faults name the address and the window; a predicated-off word moves its ring and its credit and nothing else. The model's are the
window that a WINDOW fault names (log entry 25), when a predicated-off transfer settles (log entry 17), and the lateness of a
lenient sheet that moves samples, landing and credit together (log entry 57). -/
def Obligations.RemoteAndRefusedTransfers : Prop :=
  Says.RemoteTransferWords ∧ Says.TransferFaults ∧ Says.PredicatedOffTransferWords

/-- R94, R226, R227 -/
def Says.SendWords : Prop :=
  ∀ (s : State) (c e : Core) (sh : Sheet) (p : BitVec 3) (gs gd f : BitVec 4) (sd sc : BitVec 6) (lit : W32),
    s.Runs s.cur.k c sh → c.Canonical → e.Canonical → c.pget p.toNat = true →
    let x := s.cur
    let GS := gs.toNat
    let GD := gd.toNat
    let v := (c.sget sc.toNat).toNat
    let id := v % 256
    let key := coreKey (keyPkg x.k) id
    let r := c.ring GS
    let n := if v / 2 ^ 16 % 2 ^ 16 = 0 then r.tileBytes else 64 * (v / 2 ^ 16 % 2 ^ 16)
    let nb := (n + 63) / 64
    let cls := lit.toNat / 2 ^ 12 % 4
    let credit := sendCredit lit
    let mesh := meshHops (keyId x.k) id
    let land := x.t + 40 + 6 * mesh.1 + 64 * mesh.2 + sh.lateness s.free
    let sends := fun (i : Instr) (ring : Option (Nat × Nat)) (addr dstBank : Nat) (P : Core → Prop) =>
      let src := c.bank (r.addr r.rd / 65536)
      let dst := e.bank dstBank
      let ws := (copyWidths src.fmt dst.fmt 0).1
      let wd := (copyWidths src.fmt dst.fmt 0).2
      let nd := n * wd / ws
      let R : SendRun := ⟨x.desc, sh.id, key, nd, land, f.toNat, cls, GS, r.rd, ring, addr, ws, wd, credit, false⟩
      let desc : Desc := ⟨x.k, x.col, x.addr, x.t + 2, x.t⟩
      let m : Move := ⟨desc, x.k, cls, f.toNat, 13, .send R, some (GS, r.rd), 64, none, [], [], 0⟩
      ∃ t c' e', exec i s = .next t ∧ t.core? x.k = some c' ∧ t.core? key = some e'
        ∧ (∀ j, j ≠ x.k → j ≠ key → t.core? j = s.core? j) ∧ (∀ a ∈ s.agenda, a ∈ t.agenda) ∧ t.pkgs = s.pkgs
        ∧ c' = { c.claim x [] with rings := c'.rings, occ := c'.occ, cuts := c'.cuts, ports := c'.ports }
        ∧ (key ≠ x.k → c.ringsBut c' GS r.wr (r.rd + n) r.tiles
          ∧ e' = { e with rings := e'.rings, occ := e'.occ, cuts := e'.cuts, ports := e'.ports } ∧ P e')
        ∧ t.Due sh (x.t + 2) phRead (.laneBeat m (readPiecesOf 64 (x.t + 2) (partsOf 64 (r.runs r.rd n))))
        ∧ (∀ b, credit = some b → t.Due sh (land + nb - 1) phEnd (.transferCredit key b nd)) ∧ t.Settled sh (land + nb - 1)
    id ≤ 191 → s.core? key = some e → e.sh = c.sh → c.ringOpen x.t GS → r.pushedBefore x.t n → 0 < n → n ≤ 131072 →
    (∀ r' nd, c.Ready x [pReg p.toNat, sReg sc.toNat] [] → e.ringOpen x.t GD → (key = x.k → GS ≠ GD) →
      (let src := c.bank (r.addr r.rd / 65536)
       let dst := e.bank ((e.ring GD).addr (e.ring GD).wr / 65536)
       nd = n * (copyWidths src.fmt dst.fmt 0).2 / (copyWidths src.fmt dst.fmt 0).1) →
      (e.ring GD).reserve x.t nd = some r' →
      sends (.send p gs gd sc f lit) (some (GD, (e.ring GD).wr)) 0 ((e.ring GD).addr (e.ring GD).wr / 65536) fun e' =>
        e.ringsBut e' GD ((e.ring GD).wr + nd) (e.ring GD).rd r'.tiles)
    ∧ (let addr := (c.sget sd.toNat).toNat % 2 ^ 21
       c.Ready x [pReg p.toNat, sReg sc.toNat, sReg sd.toNat] [] → addr % 64 = 0 →
       (let src := c.bank (r.addr r.rd / 65536)
        let dst := e.bank (addr / 65536)
        addr + n * (copyWidths src.fmt dst.fmt 0).2 / (copyWidths src.fmt dst.fmt 0).1 ≤ 0x180000) →
       sends (.sendb p gs sd sc f lit) none addr (addr / 65536) fun e' => e'.rings = e.rings)

/-- R226 -/
def Says.SendFaults : Prop :=
  ∀ (s : State) (c : Core) (sh : Sheet) (p : BitVec 3) (gs gd f : BitVec 4) (sd sc : BitVec 6) (lit : W32),
    s.Runs s.cur.k c sh → c.pget p.toNat = true →
    let x := s.cur
    let v := (c.sget sc.toNat).toNat
    let id := v % 256
    let n := if v / 2 ^ 16 % 2 ^ 16 = 0 then (c.ring gs.toNat).tileBytes else 64 * (v / 2 ^ 16 % 2 ^ 16)
    c.Ready x [pReg p.toNat, sReg sc.toNat, sReg sd.toNat] [] → n ≤ 131072 →
    (191 < id ∨ s.core? (coreKey (keyPkg x.k) id) = none ∨ (∃ e, s.core? (coreKey (keyPkg x.k) id) = some e ∧ e.sh ≠ c.sh)) → ∀ i ∈ [Instr.send p gs gd sc f lit, .sendb p gs sd sc f lit],
      exec i s = .next ((s.leaves sh x.k c []).raiseAll sh.id [⟨cRegion, rGang, x.desc, x.t, 0, BitVec.ofNat 64 id, 0⟩])

/-- R64, R226, R227 -/
def Says.SendBeatLands : Prop :=
  ∀ (s : State) (c e : Core) (sh : Sheet) (x : SendRun) (i a : Nat) (fmts : List BankFmt) (data : List (List W32)),
    s.core? x.dst = some c → s.core? x.d.k = some e → s.sheet? x.sh = some sh → c.sh = x.sh → c.Canonical →
    ((meshHops (keyId x.d.k) (keyId x.dst)).2 = 0 ∨ (s.pkg (keyPkg x.dst)).errors = []) →
    let t := s.task sh
    let beat := sendBeat x
    let n := min beat (x.n - beat * i)
    let runs := match x.ring with
      | some (g, o) => (c.ring g).runs (o + beat * i) n
      | none => [(x.addr + beat * i, n)]
    let d := { x.d with start := x.land }
    let elems := (fmts.zip data).flatMap fun p => p.2.map fun v => (p.1, v)
    let code := fun (j : Nat) => match elems[j]? with
      | none => (⟨0, 0, false⟩ : Conv)
      | some el =>
        let b := c.bank (runAddr runs (j * x.wd / 8) / 65536)
        let y := bankDecode el.1 el.2.toNat
        let k := bankEncode b 0 b.pol y.1
        if sameFormat el.1 b then ⟨el.2.toNat, 0, false⟩ else ⟨k.bits, y.2 ||| k.fl, k.trap⟩
    0 < n → partsOf beat runs = [(a, n, 0)] → (a + n - 1) / 65536 = a / 65536 → c.Quiet t a (a + n - 1) →
    c.Latest d a (a + n - 1) → (∀ u ∈ c.cuts, sameWord u.d d = false) → (∀ u ∈ c.wp, sameWord u.1 d = false) →
    (c.bfmtReg (a / 65536)).getLsbD 38 = false →
    elems.length * x.wd = 8 * n → (x.wd = 4 ∨ x.wd = 8 ∨ x.wd = 16 ∨ x.wd = 32) →
    ((∀ j < elems.length, (code j).trap = false) →
      ∃ u c' e' f, exec (.sendBeatLanding x i fmts data) s = .next u ∧ u.core? x.dst = some c' ∧ u.core? x.d.k = some e'
        ∧ (∀ k, k ≠ x.dst → k ≠ x.d.k → u.core? k = s.core? k) ∧ u.agenda = s.agenda ∧ u.pkgs = s.pkgs
        ∧ (∀ j < n, c'.byte (a + j) = packed x.wd code j) ∧ (∀ b, b < a ∨ a + n ≤ b → c'.byte b = c.byte b)
        ∧ c' = { c with
            acc1 := c'.acc1, wlast := c'.wlast, wp := c'.wp, spad := c'.spad, tags := c'.tags, rings := c'.rings
            fflags := c'.fflags, fset := c'.fset, fcyc := c'.fcyc }
        ∧ (x.dst ≠ x.d.k → c'.fflags = c.fflags ∧ e' = { e with fflags := e'.fflags, fset := e'.fset, fcyc := e'.fcyc })
        ∧ e.raisesFlags e' t f ∧ ∀ b < 6, f.getLsbD b = true ↔ ∃ j < elems.length, (code j).fl.getLsbD b = true)
    ∧ (∀ j < elems.length, (code j).trap = true → (∀ m < j, (code m).trap = false) →
        exec (.sendBeatLanding x i fmts data) s = .next ((s.leaves sh x.dst c []).raiseAll sh.id
          [⟨cTrap, 0, x.d, t, BitVec.ofNat 64 (i * (512 / x.ws) + j), 0, 0⟩]))

/-- R241 to R244 -/
def Says.LinkCrossing : Prop :=
  ∀ (s : State) (sh : Sheet) (l : Flit), s.sheet? l.sh = some sh → (s.pkg l.pkg).errors = [] →
    let t := s.task sh
    ∃ u, exec (.linkFlitRelease l) s = .next u ∧ u.cores = s.cores ∧ u.pkgs = s.pkgs
      ∧ (∃ sh', u.sheet? l.sh = some sh' ∧ sh'.links = sh.links.filter fun o => t ≤ o.hi)
      ∧ u.agenda = s.agenda ++ (match l.rest with
        | [] => []
        | (p, port) :: rest => [⟨s.ttc + 768, phStart, some l.sh,
            .linkFlitRelease { l with pkg := p, port := port, enter := t, rest := rest }⟩])

/-- Each takes its bytes from the source ring and reserves them at the destination core; a core that does not exist or runs another
sheet raises its fault; a landing beat writes exactly its bytes, each element moved or converted by the banks it meets, the flags on
the issuing core, or traps on its first element that policy TRAP refuses; a flit goes on to the next link 768 cycles later. The
model's are the element widths fixed at issue by the first bank of each side (log entry 23), no flags on a trap (log entry 33) and
the common lateness (log entry 57). -/
def Obligations.SendsAndLinks : Prop :=
  Says.SendWords ∧ Says.SendFaults ∧ Says.SendBeatLands ∧ Says.LinkCrossing

/-- R228 to R230 -/
def Says.CopyWord : Prop :=
  ∀ (s : State) (c : Core) (sh : Sheet) (p : BitVec 3) (sa : BitVec 6) (f : BitVec 4) (k : BitVec 1) (lit : Option W32),
    s.Runs s.cur.k c sh → c.Canonical →
    let x := s.cur
    let a := (c.sget sa.toNat).toNat % 2 ^ 21
    let rec_ := parseCopy ((List.range 256).map fun i => c.byte (a + i))
    let fs := (c.bank (rec_.src / 65536)).fmt
    let fd := (c.bank (rec_.dst / 65536)).fmt
    let w := copyWidths fs fd rec_.esz
    let elems := (rec_.dims.map fun d => d.1).foldl (· * ·) 1
    let credit := lit.bind (litCredit k)
    let off := !c.pget p.toNat
    let C0 : CopyRun := ⟨x.desc, sh.id, rec_.src, rec_.dst, rec_.ac, rec_.dims, elems, f.toNat, w.1, w.2, fs, fd, [], credit, off⟩
    let C := { C0 with lastWrite := copyFrames C0 }
    let done := x.t + 53 + (elems + 15) / 16
    a + 256 ≤ 0x180000 → a % 64 = 0 → (c.bfmtReg (a / 65536)).getLsbD 38 = true → c.Quiet x.t a (a + 255) →
    (∀ q ∈ s.writersNow x.k 0, q.2 < a ∨ a + 255 < q.1) → rec_.ok = true →
    (rec_.esz = 0 ∨ fs = 0 ∧ fd = 0) → (∀ e, c.copyEnd = some e → e.1 ≤ x.t) →
    (c.pget p.toNat = true → c.Ready x [pReg p.toNat, sReg sa.toNat] [] →
      ∃ t c', exec (.copy p sa f k lit) s = .next t ∧ s.After t x.k c'
        ∧ c' = { c.claim x [] with
            acc1 := c'.acc1, occ := c'.occ, cuts := c'.cuts, copyEnd := some (done, x.desc), copyBuf := [], copyBad := [] }
        ∧ t.Due sh (x.t + 4) phRead (.copyStep C false (copyItems C false (x.t + 4)))
        ∧ t.Due sh (x.t + 30) phWrite (.copyStep C true (copyItems C true (x.t + 30)))
        ∧ (∀ b, credit = some b → t.Due sh done phEnd (.transferCredit x.k b ((elems * w.2 + 7) / 8))) ∧ t.Settled sh done
        ∧ ((∀ o ∈ c.occ, o.hi < x.t) → t.NoFault sh))
    ∧ (c.pget p.toNat = false →
      ∃ t c', exec (.copy p sa f k lit) s = .next t ∧ s.After t x.k c'
        ∧ c' = { c.claim x [] with acc1 := c'.acc1, copyEnd := some (done, x.desc) } ∧ t.Settled sh done
        ∧ (∀ b, credit = some b → t.Due sh done phEnd (.transferCredit x.k b ((elems * w.2 + 7) / 8))))

/-- R229 to R232 -/
def Says.CopySteps : Prop :=
  ∀ (s : State) (c : Core) (sh : Sheet) (C : CopyRun) (j a : Nat), s.Runs C.d.k c sh → c.Canonical →
    let t := s.task sh
    let next := fun (wr : Bool) => if t + 1 < copyDep C wr + copySteps C + 23 then
      [(t + 1, if wr then phWrite else phRead, Act.copyStep C wr (copyItems C wr (t + 1)))] else []
    let w := fun (wr : Bool) => if wr then C.wd else C.ws
    let n := fun (wr : Bool) => max 1 (w wr / 8)
    let quiet := fun (wr : Bool) => c.Quiet t (a / 8) (a / 8 + n wr - 1) ∧ (∀ u ∈ c.cuts, sameWord u.d C.d = false)
      ∧ copyOutside C wr t = [] ∧ ((w wr = 4 ∧ a % 4 = 0) ∨ w wr = 8 ∨ w wr = 16 ∨ w wr = 32)
    (∀ wr, copyOutside C wr t = [] →
      exec (.copyStep C wr []) s = .next (s.leaves sh C.d.k c (next wr)))
    ∧ (quiet false → (∀ q ∈ s.writersNow C.d.k C.cls, q.2 < a / 8 ∨ a / 8 + n false - 1 < q.1) →
      (c.bank (a / 8 / 65536)).fmt = C.fs →
      let code := if C.ws = 4 then (c.byte (a / 8)).toNat / 2 ^ (a % 8) % 16 else c.bytesAt (a / 8) (n false)
      ∃ c', exec (.copyStep C false [(j, a)]) s = .next (s.leaves sh C.d.k c' (next false))
        ∧ c' = { c with acc1 := c'.acc1, copyBuf := c'.copyBuf }
        ∧ Tab.find? j c'.copyBuf = some ⟨BitVec.ofNat 32 code, c.bank (a / 8 / 65536)⟩
        ∧ ∀ m, m ≠ j → Tab.find? m c'.copyBuf = Tab.find? m c.copyBuf)
    ∧ (∀ e, Tab.find? j c.copyBuf = some e →
       let bf := c.bank (a / 8 / 65536)
       let v := bankDecode e.bank e.code.toNat
       let put := bankEncode bf 0 bf.pol v.1
       let k : Conv := if e.bank.fmt = 0 ∨ bf.fmt = 0 ∨ (e.bank.fmt = bf.fmt ∧ e.bank.scale = bf.scale ∧ e.bank.cb = bf.cb)
         then ⟨e.code.toNat, 0, false⟩ else { put with fl := put.fl ||| v.2 }
       quiet true → c.Latest C.d (a / 8) (a / 8 + n true - 1) → (∀ e ∈ c.wp, sameWord e.1 C.d = false) →
       (c.bfmtReg (a / 8 / 65536)).getLsbD 38 = false → (c.bank (a / 8 / 65536)).fmt = C.fd →
       j / 16 ∉ c.copyBad →
       (k.trap = false → ∃ c', exec (.copyStep C true [(j, a)]) s = .next (s.leaves sh C.d.k c' (next true))
        ∧ c' = { c with
            acc1 := c'.acc1, wlast := c'.wlast, wp := c'.wp, spad := c'.spad, tags := c'.tags
            fflags := c'.fflags, fset := c'.fset, fcyc := c'.fcyc } ∧ c.raisesFlags c' t k.fl
        ∧ (C.wd ≠ 4 → c'.bytesAt (a / 8) (n true) = k.bits % 2 ^ C.wd)
        ∧ (C.wd = 4 → (c'.byte (a / 8)).toNat / 2 ^ (a % 8) % 16 = k.bits % 16
          ∧ (c'.byte (a / 8)).toNat / 2 ^ (4 - a % 8) % 16 = (c.byte (a / 8)).toNat / 2 ^ (4 - a % 8) % 16)
        ∧ ∀ b, b < a / 8 ∨ a / 8 + n true ≤ b → c'.byte b = c.byte b)
       ∧ (k.trap = true → exec (.copyStep C true [(j, a)]) s = .next
          ((s.leaves sh C.d.k { c with copyBad := c.copyBad ++ [j / 16] } (next true)).raiseAll sh.id
            [⟨cTrap, 0, C.d, t, BitVec.ofNat 64 j, 0, 0⟩])))
    ∧ (j / 16 ∈ c.copyBad ∨ Tab.find? j c.copyBuf = none → copyOutside C true t = [] →
        exec (.copyStep C true [(j, a)]) s = .next (s.leaves sh C.d.k c (next true)))

/-- The word reads its record, posts both phases and its credit; each step reads its element into the buffer or writes it from
there, converting between unlike banks, and changes no other byte. A step that has trapped writes nothing from then on (log entry
33). That an element is raw or converted by the banks as its write finds them, the source as it was read, is the model's reading
(log entry 22); a copy of a bank that turns RAW meanwhile is log entry 72. -/
def Obligations.Copies : Prop :=
  Says.CopyWord ∧ Says.CopySteps

/-- R233 to R236 -/
def Says.WeaveWord : Prop :=
  ∀ (s : State) (c : Core) (sh : Sheet) (p : BitVec 3) (sa sq : BitVec 6) (f : BitVec 4) (k : BitVec 1) (lit : Option W32),
    s.Runs s.cur.k c sh → c.Canonical →
    let x := s.cur
    let a := (c.sget sa.toNat).toNat % 2 ^ 21
    let rec_ := parseWeave ((List.range 256).map fun i => c.byte (a + i)) sh.pkgs.length
    let credit := lit.bind (litCredit k)
    let off := !c.pget p.toNat
    let W : WeaveRun := ⟨x.desc, sh.id, rec_.op, rec_.bf16, rec_.heap, rec_.rel, rec_.ac, rec_.chunk, rec_.cadence, rec_.p,
      rec_.hmax, rec_.src, rec_.dst, rec_.buf, rec_.stat, rec_.levels, (c.sget sq.toNat).setWidth 32, f.toNat, credit, off⟩
    let J := (rec_.levels.map fun l => l.1).foldl (· * ·) 1
    let last := x.t + 8 + (J - 1) * rec_.cadence
    let done := last + (if rec_.heap then 896 else 0) + 768 * rec_.hmax + 832
    let bytes := J * rec_.chunk
    let issues := fun (t : State) (c' : Core) => exec (.weave p sa sq f k lit) s = .next t ∧ s.After t x.k c'
      ∧ c' = { c.claim x [] with acc1 := c'.acc1, weaveEnd := some (last, x.desc) }
      ∧ ∀ b, credit = some b → t.Due sh done phEnd (.transferCredit x.k b bytes)
    a + 256 ≤ 0x180000 → a % 64 = 0 → (c.bfmtReg (a / 65536)).getLsbD 38 = true → c.Quiet x.t a (a + 255) →
    (∀ q ∈ s.writersNow x.k 0, q.2 < a ∨ a + 255 < q.1) →
    rec_.ok = true → (∀ e, c.weaveEnd = some e → e.1 ≤ x.t) →
    (c.pget p.toNat = true → c.Ready x [pReg p.toNat, sReg sa.toNat, sReg sq.toNat] [] →
      weaveFaults x rec_ (sh.heap? (keyPkg x.k)) ((weaveRanks W c.prank).map fun q => sh.heap? (sh.pkgs.getD q 0)) = [] →
      ∃ t c', issues t c' ∧ t.Due sh (x.t + 8) phStart (.weaveEmission W 0) ∧ t.Settled sh done
        ∧ ((∀ e ∈ s.agenda, sameStatus W e.act = false) → t.Due sh done phEnd (.weaveStatusWrite W)))
    ∧ (c.pget p.toNat = false → ∃ t c', issues t c' ∧ t.Settled sh (if credit = none then last else done))

/-- R236 to R238 -/
def Says.WeaveEmissionEffect : Prop :=
  ∀ (s : State) (c : Core) (sh : Sheet) (w : WeaveRun) (j h va : Nat) (win heap : Window), s.sheet? w.sh = some sh →
    s.core? w.d.k = some c → c.sh = w.sh → s.weaveTo sh w j = some (win, va, h) → win.pkg < s.pkgs.length →
    let t := s.task sh
    let arr := weaveArrive w j h
    let d := { w.d with start := t }
    let m : Move := ⟨d, w.d.k, w.cls, w.f, 13, .weave w j, none, 64, none, [], [], 0⟩
    (∀ i, weaveEmit w i = w.d.start + 8 + i * w.cadence)
    ∧ (arr = weaveEmit w j + (if w.heap then 896 else 0) + 768 * h)
    ∧ ∃ u c', exec (.weaveEmission w j) s = .next u ∧ u.core? w.d.k = some c'
      ∧ c' = { c with occ := c'.occ, cuts := c'.cuts, ports := c'.ports }
      ∧ (∀ k ≠ w.d.k, u.core? k = s.core? k) ∧ (∀ e ∈ s.agenda, e ∈ u.agenda) ∧ (∀ p, (u.pkg p).hbm = (s.pkg p).hbm)
      ∧ (∃ r ∈ (u.pkg win.pkg).runs, sameWeave r w = true
          ∧ ∃ e ∈ r.cs, e = ⟨arr, c.prank, keyId w.d.k, j, va, none, false, false⟩)
      ∧ u.Due sh arr phEnd (.weaveContribution w j)
      ∧ (∃ cyc, arr + 64 ≤ cyc ∧ (w.chunk / 64 ≤ 768 → t = weaveEmit w j → cyc ≤ arr + 832)
          ∧ u.Due sh cyc phSeam (.weaveContribution w j))
      ∧ (j + 1 < weaveCount w → u.Due sh (weaveEmit w (j + 1)) phStart (.weaveEmission w (j + 1)))
      ∧ (w.heap = false → u.Due sh t phRead (.laneBeat m (readPiecesOf 64 t (partsOf 64 [(weaveSrc w j, w.chunk)]))))
      ∧ (w.heap = true → sh.heap? (keyPkg w.d.k) = some heap →
          ∃ cyc, t + 64 ≤ cyc ∧ cyc ≤ t + 832 ∧ u.Due sh cyc phSeam (.hbmSample (.weave w j)))

/-- R71, R236, R237, R321 -/
def Says.WeaveContributionEffect : Prop :=
  ∀ (s : State) (c : Core) (sh : Sheet) (w : WeaveRun) (j h va : Nat) (win : Window) (r : OpenRun),
    s.sheet? w.sh = some sh → s.core? w.d.k = some c → s.weaveTo sh w j = some (win, va, h) → s.HbmCanonical →
    win.pkg < s.pkgs.length →
    let t := s.task sh
    let arr := weaveArrive w j h
    let mem := fun (u : State) (a : Nat) => Tab.get 0 (u.pkg win.pkg).hbm a
    let now := r.cs.map fun e => if e.src == c.prank && e.core == keyId w.d.k && e.j == j then { e with ready := true } else e
    let part := readyPart now
    let acc := fun (b : Contribution) => (⟨win.pkg, b.dst, b.dst + w.chunk - 1, true, w.cls, w.d, b.arr + 64, b.arr + 832,
      some (w.d.addr, w.d.start)⟩ : HAccess)
    let start := fun (v : Nat) => Tab.find? (v / weaveElemBytes w * weaveElemBytes w) r.vals
    let written := fun (v : Nat) => ∃ b ∈ part, weaveCovers w v b = true
    (t < arr + 64 → ∃ u, exec (.weaveContribution w j) s = .next u ∧ u.cores = s.cores
      ∧ (∀ p, (u.pkg p).hbm = (s.pkg p).hbm)
      ∧ ∀ l ∈ (s.allocation sh win va w.chunk).lines, ∃ v ∈ (u.pkg win.pkg).vat, v.sh = sh.id ∧ v.line = l)
    ∧ (arr + 64 ≤ t → (s.pkg win.pkg).weaveRun? w = some r → w.chunk % 64 = 0 →
        (∀ b ∈ part, b.dst % 64 = 0 ∧ (∃ bs, b.data = some bs ∧ bs.length = w.chunk) ∧ s.racing sh (acc b) false = []
          ∧ s.PlainLines win b.dst w.chunk) →
        (∀ v v', written v → written v' → win.phys v = win.phys v' → v = v') →
        ∃ u r', exec (.weaveContribution w j) s = .next u ∧ u.cores = s.cores ∧ (u.pkg win.pkg).weaveRun? w = some r'
          ∧ r'.cs = now.map (fun e =>
              if part.any fun b => e.arr == b.arr && e.src == b.src && e.core == b.core && e.j == b.j then { e with applied := true } else e)
          ∧ (∀ v, written v → mem u (win.phys v) = weaveLeft w part (start v) v)
          ∧ (∀ a, (∀ v, written v → win.phys v ≠ a) → mem u a = mem s a)
          ∧ (∀ p ≠ win.pkg, u.pkg p = s.pkg p)
          ∧ (w.op = 0 → r'.vals = r.vals ∧ r'.fl = r.fl)
          ∧ (w.op ≠ 0 → (∀ v, v % weaveElemBytes w = 0 → Tab.find? v r'.vals = (weaveCombined w part v (start v)).1)
            ∧ ∀ b < 6, r'.fl.getLsbD b = true ↔ r.fl.getLsbD b = true
                ∨ ∃ v, v % weaveElemBytes w = 0 ∧ written v ∧ (weaveCombined w part v (start v)).2.getLsbD b = true))

/-- R237, R238 -/
def Says.WeaveStatusEffect : Prop :=
  ∀ (s : State) (sh : Sheet) (w : WeaveRun) (win : Nat → Window), s.sheet? w.sh = some sh → s.HbmCanonical →
    (∀ q < w.p, sh.heap? (sh.pkgs.getD q 0) = some (win q) ∧ (win q).pkg < s.pkgs.length
      ∧ ∀ q' < w.p, (win q').pkg = (win q).pkg → q' = q) →
    (∀ q < w.p, ∀ r, (s.pkg (win q).pkg).weaveRun? w = some r → r.late = none) →
    let va := fun (q : Nat) => (win q).base + w.stat + (if w.seq.getLsbD 0 then w.buf else 0)
    let word := fun (q : Nat) =>
      let fl := (((s.pkg (win q).pkg).weaveRun? w).map OpenRun.fl).getD 0
      (w.seq ++ ((if fl &&& NX = 0 then 0 else 8) + (if fl &&& NV = 0 then 0 else 4)
        + (if fl &&& OF = 0 then 0 else 2) + 1 : BitVec 32) : W64)
    (w.op = 0 → ∃ u, exec (.weaveStatusWrite w) s = .next u ∧ u.cores = s.cores
      ∧ ∀ p, (u.pkg p).hbm = (s.pkg p).hbm)
    ∧ (w.op ≠ 0 → (∀ q < w.p, va q % 8 = 0 ∧ s.PlainLines (win q) (va q) 8
          ∧ s.racing sh (weaveStatusAccess w (win q)) false = []
          ∧ ∀ e ∈ sh.past, ∀ b, e.acc = some b → (weaveStatusAccess w (win q)).outlastedBy b = false) →
      ∃ u, exec (.weaveStatusWrite w) s = .next u ∧ u.cores = s.cores ∧ u.agenda = s.agenda
        ∧ (∀ q < w.p, ∀ i < 8, Tab.get 0 (u.pkg (win q).pkg).hbm ((win q).phys (va q) + i) = (word q).extractLsb' (8 * i) 8)
        ∧ ∀ p a, (∀ q < w.p, (win q).pkg = p → a < (win q).phys (va q) ∨ (win q).phys (va q) + 8 ≤ a) →
          Tab.get 0 (u.pkg p).hbm a = Tab.get 0 (s.pkg p).hbm a)

/-- The word reads its record and posts its emissions and its credit; each emission leaves at its cadence and arrives at the stated
cycle; the contributions that are ready combine in the order of their arrival with what the run holds, element by element, and write
exactly their bytes; the status word of each package holds the sequence and the flags. That a predicated-off WEAVE without a credit
settles at its last emission (log entry 17), and that the status word is written once for each run (log entry 24), is the model's. -/
def Obligations.Weaves : Prop :=
  Says.WeaveWord ∧ Says.WeaveEmissionEffect ∧ Says.WeaveContributionEffect ∧ Says.WeaveStatusEffect

/-- R95, R245, R246 -/
def Says.ProbeWords : Prop :=
  ∀ (s : State) (c : Core) (sh : Sheet) (p pd : BitVec 3) (sd sa : BitVec 6) (cls : BitVec 2) (all : BitVec 1) (wd : Window),
    s.Runs s.cur.k c sh → c.pget p.toNat = true →
    let x := s.cur
    let va := (c.sget sa.toNat).toNat % 2 ^ 48 / 4096 * 4096
    let pkg := keyPkg x.k
    let frames := c.probeFrames
    let tag := fun (i : Nat) => Tab.get noProbe c.ptags i
    let writes := [(pReg pd.toNat, x.t + 4), (sReg sd.toNat, x.t + 4)]
    let answer := fun (hit : Bool) (i : Nat) => Act.probeResult x.k pd.toNat sd.toNat hit (frames.getD i 0)
    let holds := fun (i : Nat) => (tag i).valid = true ∧ (tag i).block = va / 4096
    let late := sh.lateness s.free
    let first := clockTurn frames.length frames.length c.phand c.ptags
    let turn := if first.2.isSome then first else clockTurn frames.length frames.length c.phand first.1
    (c.Ready x [pReg p.toNat, sReg sa.toNat] writes → c.pbanks ≠ 0 → sh.window? pkg va 4096 = some wd → wd.rd = true →
      (∀ i < frames.length, holds i → (∀ j < i, ¬holds j) → exec (.probe p pd sd sa cls) s = .next (s.leaves sh x.k
        { c.claim x writes with ptags := Tab.set noProbe i { tag i with refd := true } c.ptags }
        [(x.t + 4, phStart, answer true i)]))
      ∧ ((∀ j < frames.length, ¬holds j) → (∃ j < frames.length, (tag j).pending = false) →
          ∃ i t c', turn.2 = some i ∧ (tag i).pending = false ∧
            let X : Xfer := ⟨x.desc, sh.id, true, false, 0, pkg, va, 4096, 0, 0, 0, cls.toNat, none, false, false, false,
              some (i, frames.getD i 0), 32, late⟩
            exec (.probe p pd sd sa cls) s = .next t ∧ s.After t x.k c'
            ∧ c' = { c.claim x writes with
                ptags := Tab.set noProbe i ⟨va / 4096, true, false, true⟩ turn.1, phand := (i + 1) % frames.length
                cuts := c'.cuts, ports := c'.ports }
            ∧ t.Due sh (x.t + 4) phStart (answer false i) ∧ t.Settled sh (x.t + 927 + late)
            ∧ ∀ j < 32, ∃ cyc, x.t + 64 ≤ cyc ∧ cyc ≤ x.t + 832 + late ∧ t.Due sh cyc phStart (.hbmSample (.xfer X j)))
      ∧ ((∀ j < frames.length, ¬holds j ∧ (tag j).pending = true) → exec (.probe p pd sd sa cls) s
          = .next ((s.leaves sh x.k (c.claim x writes) []).raiseAll sh.id [⟨cMiss, mRing, x.desc, x.t, 0, 0, 0⟩])))
    ∧ (c.Ready x [pReg p.toNat, sReg sa.toNat] [] → exec (.pinv p sa all) s = .next (s.leaves sh x.k (c.claim x [])
        [(x.t + 1, phStart, .pinvEffect x.k (all == 1) (va / 4096))]))
    ∧ (c.Ready x [pReg p.toNat, sReg sa.toNat] writes → c.pbanks = 0 → exec (.probe p pd sd sa cls) s = .next
        ((s.leaves sh x.k c []).raiseAll sh.id [⟨cIllegal, 0, x.desc, x.t, x.word.setWidth 64, 0, 0⟩]))

/-- R245, R246 -/
def Says.ProbeEffects : Prop :=
  ∀ (s : State) (c : Core) (sh : Sheet) (k pd sd frame block : Nat) (hit all : Bool), s.Runs k c sh → c.Canonical →
    pd < 8 →
    (∃ c', exec (.probeResult k pd sd hit frame) s = .next (s.leaves sh k c' []) ∧ c' = { c with p := c'.p, s := c'.s }
      ∧ (pd ≠ 0 → c'.pget pd = hit) ∧ (sd ≠ 0 → c'.sget sd = BitVec.ofNat 64 frame)
      ∧ (∀ n < 8, n ≠ pd → c'.pget n = c.pget n) ∧ (∀ n, n ≠ sd → c'.sget n = c.sget n))
    ∧ ∃ c', exec (.pinvEffect k all block) s = .next (s.leaves sh k c' []) ∧ c' = { c with ptags := c'.ptags }
      ∧ ∀ i < c.probeFrames.length, let tag := Tab.get noProbe c.ptags i
        Tab.get noProbe c'.ptags i = if all || (tag.valid && tag.block == block) then
          { tag with valid := false, refd := false } else tag

/-- R82, R83, R247 -/
def Says.RingConfiguration : Prop :=
  ∀ (s : State) (c : Core) (sh : Sheet) (p : BitVec 3) (g : BitVec 4) (sc : BitVec 6) (k n : Nat) (cfg : W64),
    s.Runs s.cur.k c sh → c.Canonical →
    let x := s.cur
    let G := g.toNat
    let v := c.sget sc.toNat
    let f : RingCfg := ⟨cfg.getLsbD 28, cfg.getLsbD 27, (cfg.extractLsb' 18 9).toNat, (cfg.extractLsb' 9 9).toNat,
      (cfg.extractLsb' 0 9).toNat⟩
    let free := ∀ q ∈ (c.ring G).tiles, q.free x.t = true
    (c.pget p.toNat = true → c.Ready x [pReg p.toNat, sReg sc.toNat] [] →
      (v.toNat < 2 ^ 29 → c.badRing G (ringCfg v) = false → c.screenHeld x.t G = false → free →
        ∃ c', exec (.ringcfg p g sc) s = .next (s.leaves sh x.k c' [(x.t + 1, phStart, .ringcfgEffect x.k G v)])
          ∧ c' = { c.claim x [] with rings := c'.rings }
          ∧ ∀ h, c'.ring h = { c.ring h with users := (c'.ring h).users })
      ∧ (2 ^ 29 ≤ v.toNat ∨ c.badRing G (ringCfg v) = true → exec (.ringcfg p g sc) s = .next
          ((s.leaves sh x.k c []).raiseAll sh.id [⟨cIllegal, 0, x.desc, x.t, x.word.setWidth 64, 0, 0⟩]))
      ∧ (v.toNat < 2 ^ 29 → c.badRing G (ringCfg v) = false → c.screenHeld x.t G = true ∨ ¬free →
          exec (.ringcfg p g sc) s = .next ((s.leaves sh x.k c []).raiseAll sh.id [⟨cMiss, mRing, x.desc, x.t,
            BitVec.ofNat 64 G, if (c.ring G).size = 0 then 0 else BitVec.ofNat 64 ((c.ring G).wr % (c.ring G).size), 0⟩])))
    ∧ (k = x.k → ∃ c', exec (.ringcfgEffect k n cfg) s = .next (s.leaves sh k c' []) ∧ c' = { c with rings := c'.rings }
      ∧ (∀ h, h ≠ n → c'.ring h = c.ring h) ∧ ringCfg cfg = f
      ∧ (let r := c'.ring n
         (f.nfr = 0 → r.nfr = 0)
         ∧ (f.nfr ≠ 0 → r.first = f.first ∧ r.nfr = f.nfr ∧ r.tile = f.tile ∧ r.side = f.side ∧ r.act = f.act
          ∧ r.wr = 0 ∧ r.rd = 0 ∧ r.tiles = [] ∧ r.sidecars = [] ∧ r.amax = []
          ∧ ∀ i < f.nfr, r.gbase[i]? = some (c.tagAt (s.task sh) (f.first + i)))))

/-- R248, R249 -/
def Says.HeldWords : Prop :=
  ∀ (s : State) (c : Core) (sh : Sheet) (p : BitVec 3) (sr sv : BitVec 6) (fld : BitVec 5) (h : Held) (d : Desc),
    s.Runs s.cur.k c sh → c.pget p.toNat = true →
    let x := s.cur
    let held := fun (field : Nat) (v : Option W64) =>
      (⟨sh.id, x.k, (c.sget sr.toNat).toNat % 2 ^ 14, field, v⟩ : Held)
    let waits := fun (i : Instr) (h : Held) => ∃ t, exec i s = .next t ∧ s.After t x.k (c.claim x [])
      ∧ t.Due sh (x.t + 832) phEnd (.patchArmCheck h x.desc) ∧ t.Settled sh (x.t + 832)
    (c.Ready x [pReg p.toNat, sReg sr.toNat, sReg sv.toNat] [] →
      waits (.patch p sr sv fld) (held fld.toNat (some (c.sget sv.toNat))) ∧ waits (.armRec p sr) (held 0 none))
    ∧ (h.sh = sh.id →
      let t := s.task sh
      let pkg := keyPkg h.k
      let open_ := h.val.isSome = true → (s.heldWord sh pkg h.rcd 15).getLsbD (32 + h.field) = true
      let fault := fun (sub : Nat) => exec (.patchArmCheck h d) s
        = .next (s.raiseAll sh.id [⟨cRegion, sub, d, t, BitVec.ofNat 64 h.rcd, 0, 0⟩])
      h.field < 32 →
      (h.rcd < 16384 → open_ → s.heldArmed sh pkg h.rcd = false → exec (.patchArmCheck h d) s
          = .next (s.updSheet sh.id fun x => { x with patches := x.patches ++ [(t, h)] }))
      ∧ (16384 ≤ h.rcd → fault rWindow) ∧ (h.rcd < 16384 → ¬open_ → fault rField)
      ∧ (h.rcd < 16384 → open_ → s.heldArmed sh pkg h.rcd = true → fault rArmed))

/-- A probe hit answers with the frame of the entry; a miss takes the entry that the clock hand finds, fetches its block and answers
no; PINV drops one block or all; without probe banks PROBE raises ILLEGAL_ENCODING. RINGCFG checks its word and its ring and lays
the ring out anew one cycle later, with the tags of its frames as they are; PATCH and ARM are checked 832 cycles later and held
until the couch, or raise their fault. The second turn of the clock hand, after which a miss faults only where every entry is
pending (log entry 21), and the lateness (log entry 57) are the model's. -/
def Obligations.ProbeCacheRingsAndHeldWords : Prop :=
  Says.ProbeWords ∧ Says.ProbeEffects ∧ Says.RingConfiguration ∧ Says.HeldWords

/-- R89, R90, R317, R318, R368 -/
def Says.HbmReads : Prop :=
  ∀ (s : State) (sh own : Sheet) (x : Xfer) (i : Nat) (w : Window), s.sheet? x.sh = some sh → s.HbmCanonical →
    let off := 4096 / x.w * i
    let va := x.va + off
    let n := min (4096 / x.w) (x.n * 32 / x.w - off)
    let land := x.d.start + 1536 * x.h + 896 + x.late + i
    let a := sh.piece x off n (s.task sh)
    let u := s.meetNow sh a x.inv
    let p := s.pkg w.pkg
    let key := p.keyOf w.key
    (sh.window? x.peer va n = some w → s.racing sh a x.inv = [] → (s.pkg x.peer).errors = [] → (s.pkg x.peer).poison = [] →
      exec (.hbmSample (.xfer x i)) s = .next (State.post { u with free := u.free + n } (sh.t0 + land) phWrite (some x.sh)
        (.readBeatLanding x i (s.hbmRead sh w va n))))
    ∧ ∀ a : Nat,
      let line := w.phys (64 * (a / 64)) / 64
      let read := fun (o : Sheet) => (s.hbmRead o w a 1).getD 0 0
      let place := Tab.get 0 p.hbm (w.phys a)
      let stored := Tab.get [] p.lineKeys line
      (w.cls = clsI → stored = key → read own = place)
      ∧ (w.cls = clsI → stored ≠ key →
          read own = (xtsOpen key line (xtsSeal stored line ((List.range 64).map fun i => Tab.get 0 p.hbm (64 * line + i)))).getD (a % 64) 0)
      ∧ (p.version? line none = none → stored = key → w.cls = clsS ∨ w.cls = clsD ∨ own.inPlace = true → read own = place)
      ∧ (∀ v, p.version? line none = some v → v.bytes.length = 64 → v.key = key → w.cls = clsS ∨ w.cls = clsD ∨ own.inPlace = true →
          w.cls ≠ clsI → read own = v.bytes.getD (a % 64) 0)
      ∧ (own.inPlace = false → ∀ old, (p.version? line (some own.swm) = none ∧ stored = key ∧ old = place)
            ∨ (∃ v, p.version? line (some own.swm) = some v ∧ v.bytes.length = 64 ∧ v.key = key ∧ old = v.bytes.getD (a % 64) 0) →
          (w.cls = clsR ∨ w.cls = clsM → read own = old)
          ∧ (w.cls = clsT → ∀ u, p.vline? own.id line = some u → read own = (Tab.find? (a % 64) u.bytes).getD old)
          ∧ (w.cls = clsT → p.vline? own.id line = none → read own = old))

/-- R89, R223 -/
def Says.ReadBeatLands : Prop :=
  ∀ (s : State) (c : Core) (sh : Sheet) (x : Xfer) (i a : Nat) (data : List Byte), s.Runs x.d.k c sh → c.Canonical →
    let t := s.task sh
    let n := min 128 (x.n - 128 * i)
    let runs := match x.probe with
      | some (_, f) => [(f * 4096 + 128 * i, n)]
      | none => (c.ring x.g).runs (x.roff + 128 * i) n
    let d := { x.d with start := xferLand x }
    let els := elems32 data
    let code := fun (j : Nat) =>
      let b := c.bank (runAddr runs (j * x.w / 8) / 65536)
      bankEncode b 0 b.pol (els.getD j 0)
    0 < n → partsOf 128 runs = [(a, n, 0)] → (a + n - 1) / 65536 = a / 65536 → c.Quiet t a (a + n - 1) →
    c.Latest d a (a + n - 1) → (∀ u ∈ c.cuts, sameWord u.d d = false) → (∀ e ∈ c.wp, sameWord e.1 d = false) →
    (c.bfmtReg (a / 65536)).getLsbD 38 = false →
    let lands := fun (c' : Core) (byte : Nat → Byte) => exec (.readBeatLanding x i data) s = .next (s.leaves sh x.d.k c' [])
      ∧ (∀ j < n, c'.byte (a + j) = byte j) ∧ (∀ b, b < a ∨ a + n ≤ b → c'.byte b = c.byte b)
      ∧ c' = { c with
          acc1 := c'.acc1, wlast := c'.wlast, wp := c'.wp, spad := c'.spad, tags := c'.tags, rings := c'.rings
          fflags := c'.fflags, fset := c'.fset, fcyc := c'.fcyc, ptags := c'.ptags }
    (x.cv = false → data.length = n → ∃ c', lands c' (fun j => data.getD j 0) ∧ c.raisesFlags c' t 0
      ∧ (x.probe = none → c'.ptags = c.ptags)
      ∧ ∀ e f, x.probe = some (e, f) → c'.rings = c.rings ∧ (128 * i + n = x.n →
          Tab.get noProbe c'.ptags e = { Tab.get noProbe c.ptags e with pending := false }))
    ∧ (x.cv = true → x.probe = none → els.length * x.w = 8 * n → (x.w = 4 ∨ x.w = 8 ∨ x.w = 16 ∨ x.w = 32) →
      ((∀ j < els.length, (code j).trap = false) → ∃ c' fl,
        lands c' (fun j => packed x.w code j) ∧ c.raisesFlags c' t fl
        ∧ ∀ b < 6, fl.getLsbD b = true ↔ ∃ j < els.length, (code j).fl.getLsbD b = true)
      ∧ (∀ j < els.length, (code j).trap = true → (∀ m < j, (code m).trap = false) → exec (.readBeatLanding x i data) s
          = .next ((s.leaves sh x.d.k c []).raiseAll sh.id
            [⟨cTrap, 0, x.d, t, BitVec.ofNat 64 (i * (1024 / x.w) + j), 0, 0⟩])))

/-- R123, R222 -/
def Says.TransferCredits : Prop :=
  ∀ (s : State) (c : Core) (sh : Sheet) (k b n : Nat), s.Runs k c sh → c.Canonical →
    let t := s.task sh
    (c.semAt t b).cyc ≤ t →
    ∃ c', exec (.transferCredit k b n) s = .next (s.leaves sh k c' []) ∧ c' = { c with sem := c'.sem }
      ∧ (∀ j, j ≠ b → ∀ u, c'.semAt u j = c.semAt u j)
      ∧ (c'.semAt t b).count = (c.semAt t b).count ∧ (c'.semAt t b).pend = (c.semAt t b).pend
      ∧ ∀ u > t, (c'.semAt u b).pend.toNat = min ((c.semAt u b).pend.toNat + n) (2 ^ 40 - 1)
        ∧ (c'.semAt u b).count = (c.semAt u b).count

/-- R91, R317, R319 -/
def Says.HbmWrites : Prop :=
  ∀ (s : State) (sh : Sheet) (x : Xfer) (off : Nat) (data : List Byte) (w : Window), s.sheet? x.sh = some sh →
    s.HbmCanonical → w.pkg < s.pkgs.length →
    let va := x.va + off
    let n := data.length
    let a := sh.piece x off n (s.task sh)
    let line := w.phys (64 * (va / 64)) / 64
    (∀ lim v, (s.pkg w.pkg).version? line lim = some v → v.bytes.length = 64) →
    sh.window? x.peer va n = some w → 0 < n → va % 64 + n ≤ 64 → s.racing sh a false = [] →
    (sh.lenient = true → s.coincide sh a = []) →
    (∀ e ∈ sh.past, ∀ b, e.acc = some b → a.outlastedBy b = false) →
    ∃ t, exec (.hbmPerform x off data) s = .next t ∧ t.cores = s.cores ∧ t.agenda = s.agenda
      ∧ (∀ p, p ≠ w.pkg → t.pkg p = s.pkg p)
      ∧ (w.cls = clsT ∨ w.cls = clsS ∨ w.cls = clsD → t.hbmRead sh w va n = data)
      ∧ (w.cls = clsT ∨ w.cls = clsM → sh.inPlace = false →
          (t.pkg w.pkg).hbm = (s.pkg w.pkg).hbm ∧ (t.pkg w.pkg).versions = (s.pkg w.pkg).versions
          ∧ ∃ v, (t.pkg w.pkg).vline? sh.id line = some v ∧ ∀ j < n, Tab.find? (va % 64 + j) v.bytes = data[j]?)
      ∧ (w.cls = clsS ∨ w.cls = clsD → (s.pkg w.pkg).version? line none = none →
          Tab.get [] (s.pkg w.pkg).lineKeys line = (s.pkg w.pkg).keyOf w.key →
          (t.pkg w.pkg).vat = (s.pkg w.pkg).vat
          ∧ (∀ j < n, Tab.get 0 (t.pkg w.pkg).hbm (64 * line + va % 64 + j) = data.getD j 0)
          ∧ ∀ b, b < 64 * line + va % 64 ∨ 64 * line + va % 64 + n ≤ b →
            Tab.get 0 (t.pkg w.pkg).hbm b = Tab.get 0 (s.pkg w.pkg).hbm b)

/-- A sample takes the bytes as the window's class gives them (snapshot, vat, newest or in place); a landing beat writes exactly its
bytes, converting where the word says so; a credit adds to the pending bytes; a write goes to the vat line or in place, and every
other byte stays. The model's are I-class reads in place (log entry 19), M-class reads without the sheet's own writes (log entry
51), that a line of another key is read with the standard AES-256-XTS (log entry 42) and that a trapping beat sets no flags (log
entry 33). -/
def Obligations.TransferBeats : Prop :=
  Says.HbmReads ∧ Says.ReadBeatLands ∧ Says.TransferCredits ∧ Says.HbmWrites

/-- R250, R257, R260 to R262 -/
def Says.ScreenWords : Prop :=
  ∀ (s : State) (c : Core) (sh : Sheet) (p : BitVec 3) (g : BitVec 4) (cls : BitVec 3) (lit : W32),
    s.Runs s.cur.k c sh → c.Canonical →
    let x := s.cur
    let G := g.toNat
    let r := c.ring G
    let z := c.screen
    let n := lit.toNat % 2 ^ 16
    let again := lit.toNat / 2 ^ 16
    let pitch := z.pitch cls.toNat
    let fin := r.recEnd pitch r.rd n
    let first := r.recSpot pitch r.rd
    let outs := c.screenRings cls.toNat
    let run : ScrRun := ⟨x.desc, G, cls.toNat, n, again, 0, 0, [], [], r.rd, [], !c.pget p.toNat⟩
    let still := ∀ q ∈ z.runs, q.last ≤ x.t
    let ready := c.pget p.toNat = true → c.Ready x [pReg p.toNat] []
    let declared := (z.clsWord cls.toNat 0).testBit 63 = true
    (ready → still → declared → G ∉ outs → (∀ h ∈ outs, (c.ring h).nfr ≠ 0) → c.ringOpen x.t G →
      (∀ k ∈ r.tilesOf first (fin - first), r.ready x.t k = true) → (∀ h ∈ outs, ∀ u ∈ (c.ring h).users, u.1.start ≠ x.t) →
      ∃ c', exec (.screen p g cls lit) s = .next (s.leaves sh x.k c'
          [(x.t + 1, phRead, .screenAdmission x.k (x.t + 1)), (x.t + n + again + 16, phAtom, .screenSpanEnd x.k)])
        ∧ c' = { c.claim x [] with rings := c'.rings, screen := { z with runs := z.runs ++ [run] } }
        ∧ c.ringsBut c' G r.wr (if n = 0 then fin else r.recSpot pitch fin) r.tiles)
    ∧ (ready → still → ¬declared → c.ringOpen x.t G → (∀ h ∈ outs, (c.ring h).nfr ≠ 0) →
      (∀ k ∈ r.tilesOf first (fin - first), r.ready x.t k = true) → exec (.screen p g cls lit) s = .next
        ((s.leaves sh x.k c []).raiseAll sh.id [⟨cIllegal, 0, x.desc, x.t, x.word.setWidth 64, 0, 0⟩]))

/-- R251, R257, R261 -/
def Says.RecordAdmission : Prop :=
  ∀ (s : State) (c : Core) (sh : Sheet) (k y : Nat) (r : ScrRun), s.Runs k c sh → c.screen.inSlot y = some r →
    let t := s.task sh
    let rg := c.ring r.g
    let pitch := c.screen.pitch r.cls
    let o := rg.recSpot pitch r.cur
    let a := rg.addr o
    let enters := fun (r' : ScrRun) (e : ScrRec) (c' : Core) =>
      exec (.screenAdmission k y) s = .next (s.leaves sh k (c'.setRun { r' with flying := r'.flying ++ [e] })
        ((y, phRead, .screenStageLookup k y 0) :: nextSlot k y r'))
    (∀ w e q, r.queue = (w, e) :: q → enters { r with queue := q }
      { e with y := y, ksel := 0, emit := 0, recirc := false, drop := false, hit := none } c)
    ∧ (r.queue = [] → r.n ≤ r.admitted → exec (.screenAdmission k y) s = .next (s.leaves sh k c []))
    ∧ (r.queue = [] → r.admitted < r.n → r.off = true → ∃ c' : Core, c' = { c with rings := c'.rings }
        ∧ let r' := { r with admitted := r.admitted + 1, cur := o + pitch }
          exec (.screenAdmission k y) s = .next (s.leaves sh k (c'.setRun r') (nextSlot k y r')))
    ∧ (r.queue = [] → r.admitted < r.n → r.off = false → c.Canonical → 0 < pitch → pitch ≤ 64 → c.Quiet t a (a + pitch - 1) →
      (∀ q ∈ s.writersNow k 0, q.2 < a ∨ a + pitch - 1 < q.1) →
      (∀ f ∈ frameStarts o pitch, c.tagFault t (frameOf (rg.addr f)) (rg.wantTag f) r.d = []) →
      ∃ c' fs, c' = { c with acc1 := c'.acc1, rings := c'.rings } ∧ fs.length = 16
        ∧ (∀ i < 16, fs[i]? = some (if i < pitch / 4 then BitVec.ofNat 32 (c.bytesAt (a + 4 * i) 4) else 0))
        ∧ enters { r with admitted := r.admitted + 1, cur := o + pitch }
            ⟨y, fs, 0, c.screen.genAt y, 0, 0, false, false, none⟩ c')

/-- R259, R260 -/
def Says.ScreenSpanEnds : Prop :=
  ∀ (s : State) (c : Core) (sh : Sheet) (k : Nat) (r : ScrRun), s.Runs k c sh → c.Canonical →
    let t := s.task sh
    (c.screen.ending t = [] → exec (.screenSpanEnd k) s = .next (s.leaves sh k c []))
    ∧ (∀ rs, c.screen.ending t = r :: rs → c.zeroFills r = [] → exec (.screenSpanEnd k) s = .next (s.leaves sh k
        { c with screen := { c.screen with runs := c.screen.runs.filter fun q => !(sameWord q.d r.d) } } []))
    ∧ (∀ rs g tile used, c.screen.ending t = r :: rs → c.zeroFills r = [(g, tile, used)] →
        let rg := c.ring g
        let a := rg.addr (tile * rg.tileBytes + used)
        let n := rg.tileBytes - used
        0 < n → c.Quiet t a (a + n - 1) → c.Latest r.d a (a + n - 1) → (∀ u ∈ c.wp, sameWord u.1 r.d = false) →
        (c.bfmtReg (a / 65536)).getLsbD 38 = false → a / 65536 = (a + n - 1) / 65536 →
        ∃ c', exec (.screenSpanEnd k) s = .next (s.leaves sh k c' [])
          ∧ (∀ i < n, c'.byte (a + i) = 0) ∧ (∀ b, b < a ∨ a + n ≤ b → c'.byte b = c.byte b)
          ∧ (c'.ring g).wr = max rg.wr ((tile + 1) * rg.tileBytes)
          ∧ (∀ q ∈ (c'.ring g).tiles, q.idx = tile → q.pushed = some t)
          ∧ c'.screen.runs = c.screen.runs.filter fun q => !(sameWord q.d r.d))

/-- The word holds its ring and posts its slots and its end; each slot admits the head of the white water or the next
new record from the ring; at the end reserved tiles are filled with zeros and pushed. -/
def Obligations.ScreenRuns : Prop :=
  Says.ScreenWords ∧ Says.RecordAdmission ∧ Says.ScreenSpanEnds

/-- R253 to R256 -/
def Says.RecordStages : Prop :=
  ∀ (s : State) (c : Core) (sh : Sheet) (k y st : Nat) (r : ScrRun) (e : ScrRec), s.Runs k c sh →
    c.screen.flyer y = some (r, e) →
    let t := s.task sh
    let z := c.screen
    let next := if st < 7 then (t + 1, phRead, Act.screenStageLookup k y (st + 1)) else (t + 1, phWrite, .screenExit k y)
    exec (.screenStageLookup k y st) s = .next (s.leaves sh k
        (c.setRun (r.setRec { e with ksel := 0, hit := if e.drop then none else z.lookup st e.gen (z.key r.cls st e) }))
        [(t + 1, phEnd, .screenStageAction k y st)])
    ∧ (e.hit = none → exec (.screenStageAction k y st) s = .next (s.leaves sh k c [next]))
    ∧ (∀ a q i, e.hit = some (a, q, i) →
        let o := action q (z.actionWord st e.gen a) e
        let c' := c.setRun (r.setRec { o.1 with hit := none })
        exec (.screenStageAction k y st) s = .next (s.leaves sh k { c' with screen := c'.screen.count st e.gen i o.2 } [next]))

/-- R255 -/
def Says.RecordOperations : Prop :=
  ∀ (q : W32) (e : ScrRec) (a b d : BitVec 4) (op : Nat), e.f.length = 16 → e.drop = false →
    let word := op * 4096 + a.toNat * 256 + b.toNat * 16 + d.toNat
    let F := fun (i : BitVec 4) => e.f.getD i.toNat 0
    let sets := fun (v : W32) => ∃ e', micro q e word = (e', false) ∧ e' = { e with f := e'.f } ∧ e'.f.length = 16
      ∧ e'.f.getD a.toNat 0 = v ∧ ∀ i < 16, i ≠ a.toNat → e'.f.getD i 0 = e.f.getD i 0
    (op = 0 → micro q e word = (e, false))
    ∧ (op = 1 → sets q) ∧ (op = 2 → sets (F b)) ∧ (op = 3 → sets (F a + q)) ∧ (op = 4 → sets (F a + F b))
    ∧ (op = 5 → sets (if q.ult (F a) then q else F a)) ∧ (op = 6 → sets (if (F a).ult q then q else F a))
    ∧ (op = 7 → sets (if F d = 0 then q else F b))
    ∧ (op = 8 → sets (crc32c (leBytes 4 (F b).toNat ++ leBytes 4 (F d).toNat)))
    ∧ (op = 9 → micro q e word = ({ e with ksel := d.toNat % 2 }, false))
    ∧ (op = 10 → micro q e word = ({ e with emit := e.emit ||| 2 ^ d.toNat }, false))
    ∧ (op = 11 → micro q e word = ({ e with recirc := true }, false))
    ∧ (op = 12 → micro q e word = ({ e with drop := true }, false)) ∧ (op = 13 → micro q e word = (e, true))
    ∧ crc32c [0x31, 0x32, 0x33, 0x34, 0x35, 0x36, 0x37, 0x38, 0x39] = 0xE3069283

/-- R256, R258, R259 -/
def Says.RecordExit : Prop :=
  ∀ (s : State) (c : Core) (sh : Sheet) (k y : Nat) (r : ScrRun) (e : ScrRec), s.Runs k c sh → c.Canonical →
    c.screen.flyer y = some (r, e) →
    let t := s.task sh
    let gone := { r with flying := r.flying.filter fun q => q.y != y }
    let w0 := c.screen.clsWord r.cls 0
    let again := !e.drop && e.recirc
    let grant := again && (e.pass != 3 && r.granted != r.r && decide (r.queue.length + (r.n - r.admitted) + 1 ≤ r.slots - t))
    (e.outs = [] → grant = true → exec (.screenExit k y) s = .next (s.leaves sh k
      (c.setRun { gone with granted := r.granted + 1, queue := r.queue ++ [(t, { e with pass := e.pass + 1 })] })
      (if r.queue.isEmpty && decide (r.n ≤ r.admitted) then nextSlot k t
        { gone with granted := r.granted + 1, queue := r.queue ++ [(t, { e with pass := e.pass + 1 })] } else [])))
    ∧ (e.outs = [] → again = false → exec (.screenExit k y) s = .next (s.leaves sh k (c.setRun gone) []))
    ∧ (e.outs = [] → again = true → grant = false → w0.testBit 29 = false → exec (.screenExit k y) s
        = .next (s.leaves sh k { c.setRun gone with screen := { (c.setRun gone).screen with
            limit := Tab.set 0 r.cls (satAdd40 (Tab.get 0 c.screen.limit r.cls) 1) c.screen.limit } } []))
    ∧ (∀ o g r', e.outs = [o] → again = false → c.screen.outRing r.cls o = some g →
        let rg := c.ring g
        let pitch := c.screen.pitch r.cls
        let spot := rg.recSpot pitch rg.wr
        let tile := spot / max 1 rg.tileBytes
        let a := rg.addr spot
        c.runTile t g tile gone = some r' → r'.addr spot = a → 0 < pitch → e.f.length = 16 → pitch ≤ 64 → pitch % 4 = 0 →
        c.Quiet t a (a + pitch - 1) → c.Latest r.d a (a + pitch - 1) → (∀ u ∈ c.wp, sameWord u.1 r.d = false) →
        (c.bfmtReg (a / 65536)).getLsbD 38 = false → a / 65536 = (a + pitch - 1) / 65536 →
        ∃ c', exec (.screenExit k y) s = .next (s.leaves sh k c' [])
          ∧ c' = { c with
              acc1 := c'.acc1, wlast := c'.wlast, wp := c'.wp, spad := c'.spad, rings := c'.rings, screen := c'.screen }
          ∧ c'.screen = (c.setRun { gone with
              took := if gone.took.contains (g, tile) then gone.took else gone.took ++ [(g, tile)] }).screen
          ∧ (c'.ring g).wr = rg.recSpot pitch (spot + pitch) ∧ (∀ h ≠ g, c'.ring h = c.ring h)
          ∧ (∀ i < pitch, c'.byte (a + i) = (e.f.getD (i / 4) 0).extractLsb' (8 * (i % 4)) 8)
          ∧ ∀ b, b < a ∨ a + pitch ≤ b → c'.byte b = c.byte b)

/-- Each stage looks its key up and rewrites the record by the action it yields; each operation changes the field, key
choice, emissions, recirculation or drop as its code says; at exit a record is emitted, recirculated if it is
granted, or counted at the limit. CRC-32C has its published check value. -/
def Obligations.ScreenStages : Prop :=
  Says.RecordStages ∧ Says.RecordOperations ∧ Says.RecordExit

/-- R263 to R266, R350 -/
def Says.TableWords : Prop :=
  ∀ (s : State) (c : Core) (sh : Sheet) (p st : BitVec 3) (sa sn : BitVec 6) (f : BitVec 4), s.Runs s.cur.k c sh →
    let x := s.cur
    let z := c.screen
    let v := (c.sget sn.toNat).toNat
    let a := (c.sget sa.toNat).toNat % 2 ^ 21
    let mode := v / 2 ^ 62
    let line := v / 2 ^ 16 % 2 ^ 12
    let count := v % 2 ^ 11
    let d : Desc := ⟨x.k, x.col, x.addr, x.t + 2, x.t⟩
    let r : TableRun := ⟨d, mode, st.toNat, if mode = 1 ∧ v / 2 ^ 61 % 2 = 0 then z.gen else !z.gen, line, count, a, f.toNat⟩
    let fin := (List.range count).foldl (fun m i => max m (tableArrival r x.t i)) 0
    let busy := { z with tblEnd := fin, tblD := some d }
    let m : Move := ⟨d, x.k, 0, f.toNat, 15, .tableIn r, none, 64, none, [], [], 0⟩
    let parts := partsOf 64 [(a, 64 * count)]
    (c.pget p.toNat = true → c.Ready x [pReg p.toNat, sReg sa.toNat, sReg sn.toNat] [] → z.tblEnd ≤ x.t → 0 < count →
      v / 2 ^ 28 % 2 ^ 33 = 0 → v / 2 ^ 11 % 2 ^ 5 = 0 → mode ≤ 2 → (mode ≠ 1 → v / 2 ^ 61 % 2 = 0) →
      line + count ≤ (if mode = 0 then 1033 else if mode = 1 then 513 else 1) → (mode = 2 → st = 0) → a % 64 = 0 →
      a + 64 * count ≤ 0x180000 →
      (mode = 0 → z.release ≤ x.t → s.Moves sh c (.stbl p st sa sn f) { c.claim x [] with screen := busy }
        (moveOccs d f.toNat 1 64 (x.t + 2) 15 true parts) [(x.t + 2, phRead, .laneBeat m (readPiecesOf 64 (x.t + 2) parts))] []
        fun c' => c'.rings = c.rings)
      ∧ (mode ≠ 0 → s.Moves sh c (.stbl p st sa sn f) { c.claim x [] with screen := busy }
        (moveOccs d f.toNat 1 64 (x.t + 2) 17 false parts)
        ((List.range count).map fun i => (x.t + 1 + i, phRead, .stblLine r i [])) [] fun c' => c'.rings = c.rings))
    ∧ (c.pget p.toNat = false → ∀ i ∈ [Instr.stbl p st sa sn f, .scommit p],
        exec i s = .next (s.leaves sh x.k (c.claim x []) []))
    ∧ (c.Ready x [pReg p.toNat] [] → c.pget p.toNat = true → z.tblEnd ≤ x.t → z.release ≤ x.t →
      let spoilt := fun (e : Nat × Nat) => e.1 = 5 ∧ ∃ st < 8, screenRange st (!z.gen) e.2 = true
      (z.shadowBad (!z.gen) = none → (∀ e ∈ c.ill, ¬spoilt e) → exec (.scommit p) s = .next (s.leaves sh x.k
        { c.claim x [] with screen := { z with gen := !z.gen, comD := some x.desc, release := z.releaseAfter x.t } } []))
      ∧ (z.shadowBad (!z.gen) = none → (∃ e ∈ c.ill, spoilt e) → ∃ e ∈ c.ill, spoilt e
          ∧ exec (.scommit p) s = .next ((s.leaves sh x.k c []).raiseAll sh.id
            [⟨cUncorrectable, 5, x.desc, x.t, BitVec.ofNat 64 e.2, 0, 0⟩]))
      ∧ (∀ st l, z.shadowBad (!z.gen) = some (st, l) → (∀ e ∈ c.ill, ¬spoilt e) →
          exec (.scommit p) s = .next ((s.leaves sh x.k c []).raiseAll sh.id
          [⟨cIllegal, 0, x.desc, x.t, x.word.setWidth 64,
            BitVec.ofNat 64 (st % 256 + 256 * (l % 256) + 65536 * (l / 256 % 256)), 0⟩])))

/-- R263, R264 -/
def Says.TableLines : Prop :=
  ∀ (s : State) (c : Core) (sh : Sheet) (r : TableRun) (i : Nat) (bytes : List Byte), s.Runs r.d.k c sh → c.Canonical →
    let t := s.task sh
    let z := c.screen
    let j := r.line + i
    let a := r.addr + 64 * i
    (r.mode = 0 → bytes.length = 64 → j < 1033 → ∃ c', exec (.stblLine r i bytes) s = .next (s.leaves sh r.d.k c' [])
      ∧ c' = { c with screen := { z with tbl := c'.screen.tbl, ctr := c'.screen.ctr } }
      ∧ (∀ b < 64, Tab.get 0 c'.screen.tbl (tblBase r.st r.bank + 64 * j + b) = bytes.getD b 0)
      ∧ (∀ b, b < tblBase r.st r.bank + 64 * j ∨ tblBase r.st r.bank + 64 * j + 64 ≤ b →
          Tab.get 0 c'.screen.tbl b = Tab.get 0 z.tbl b)
      ∧ (let n := if tblKind (z.header r.st r.bank) = 0 then 0 else entriesPer (tblKind (z.header r.st r.bank))
         let e := if j = 0 then ((0 : Nat), 1) else if j < 9 then (0, 0) else (1 + (j - 9) * n, n)
         ∀ m, Tab.get 0 c'.screen.ctr m = if ctrBase r.st r.bank + e.1 ≤ m ∧ m < ctrBase r.st r.bank + e.1 + e.2 then 0
           else Tab.get 0 z.ctr m))
    ∧ (r.mode ≠ 0 → exec (.stblLine r i []) s = .next (s.leaves sh r.d.k c
        [(tableArrival r (r.d.start - 2) i, phWrite, .stblLine r i (z.dump r j))]))
    ∧ (r.mode = 1 → 0 < j → ∀ m < 8,
        leNat (((z.dump r j).drop (8 * m)).take 8) = (Tab.get 0 z.ctr (ctrBase r.st r.bank + 1 + 8 * (j - 1) + m)).toNat)
    ∧ (r.mode ≠ 0 → bytes.length = 64 → c.Quiet t a (a + 63) → c.Latest r.d a (a + 63) →
      (∀ u ∈ c.cuts, sameWord u.d r.d = false) → (∀ e ∈ c.wp, sameWord e.1 r.d = false) →
      (c.bfmtReg (a / 65536)).getLsbD 38 = false →
      ∃ c', exec (.stblLine r i bytes) s = .next (s.leaves sh r.d.k c' [])
        ∧ c' = { c with acc1 := c'.acc1, wlast := c'.wlast, wp := c'.wp, spad := c'.spad, tags := c'.tags }
        ∧ (∀ b < 64, c'.byte (a + b) = bytes.getD b 0) ∧ ∀ b, b < a ∨ a + 64 ≤ b → c'.byte b = c.byte b)

/-- STBL checks its word and posts its lines; a line written to the shadow bank clears the counters of its entries; a dump writes
counter lines to the scratchpad; SCOMMIT flips every stage at once, or names the first stage and line that fail the check. That the
tables are busy until the latest arrival of all lines of the run is the model's reading (log entry 30); where the errors of the
tables lie is log entry 29. -/
def Obligations.TableUpdates : Prop :=
  Says.TableWords ∧ Says.TableLines

/-- R317, R371, R374, R375 -/
def Says.HostMemoryWrite : Prop :=
  ∀ (s : State) (q a : Nat) (bytes : List Byte), q < s.pkgs.length → (s.pkg q).Canonical →
    (384 * 2 ^ 30 < a + bytes.length → exec (.hostCxlMemWrite q a bytes) s = .fault (.noSuchAddress q a))
    ∧ (a + bytes.length ≤ 384 * 2 ^ 30 → (s.pkg q).silent = true → exec (.hostCxlMemWrite q a bytes) s = .next s)
    ∧ (a + bytes.length ≤ 384 * 2 ^ 30 → (s.pkg q).silent = false → ∃ t, exec (.hostCxlMemWrite q a bytes) s = .next t
      ∧ (∀ b, (t.pkg q).byteAt b = if a ≤ b ∧ b < a + bytes.length then bytes.getD (b - a) 0 else (s.pkg q).byteAt b)
      ∧ t.pkg q = { s.pkg q with
          hbm := (t.pkg q).hbm, lineKeys := (t.pkg q).lineKeys, versions := (t.pkg q).versions, poison := (t.pkg q).poison }
      ∧ (t.pkg q).Canonical ∧ s.pkgOnly t q ∧ s.NotesOnly t)

/-- R6, R308, R349, R371, R373 to R376, R379, R381, R382 -/
def Says.RegisterWrites : Prop :=
  ∀ (s : State) (q : Nat) (v : W64), q < s.pkgs.length → (s.pkg q).Canonical →
    let p := s.pkg q
    let w := fun (off : Nat) => exec (.registerWrite q off v) s
    let becomes := fun (off : Nat) (p' : Package) => w off = .next (s.updPkg q fun _ => p')
    (p.silent = true → ∀ off, w off = .next s)
    ∧ (p.silent = false →
    (∀ off, off % 8 ≠ 0 ∨ off / 0x10000 = 2 ∨ off / 0x10000 = 4 ∨ 8 ≤ off / 0x10000 ∨ off = 0x10 → w off = .next s)
    ∧ becomes 0 { p with cqBase := v } ∧ becomes 8 { p with cqSize := v.setWidth 16 }
    ∧ w 0x18 = .next ((s.updPkg q fun _ => { p with cqTail := v }).nextPacket q)
    ∧ (∀ n < 8, ∀ k < 64, w (0x10000 + 0x1000 * n + 16 * k + 8) = .next s
        ∧ ∃ t, w (0x10000 + 0x1000 * n + 16 * k) = .next t
          ∧ (t.queue q n k).tickets.toNat = min (v.toNat % 2048) 1024 ∧ (t.queue q n k).pass = (s.queue q n k).pass
          ∧ (∀ m j, m ≠ n ∨ j ≠ k → t.queue q m j = s.queue q m j)
          ∧ s.pkgOnly t q ∧ t.pkg q = { p with parts := (t.pkg q).parts }
          ∧ t = { s with pkgs := t.pkgs, agenda := s.agenda ++ [⟨s.ttc, phSeam, none, .placement n⟩] })
    ∧ becomes 0x30008 { p with logBase := v } ∧ becomes 0x30010 { p with logTail := v.setWidth 13 }
    ∧ becomes 0x30018 (if v.extractLsb' 40 24 = 0 then { p with lost := 0, firstLost := 0 } else { p with lost := v.extractLsb' 40 24 })
    ∧ (∀ u < 4, let box := fun (b : Headbox) => { p with boxes := Tab.set Headbox.reset u b p.boxes }
        w (0x60000 + 0x100 * u) = exec (.hbctlWrite q u v) s
        ∧ becomes (0x60008 + 0x100 * u) (box { p.box u with base := v })
        ∧ becomes (0x60010 + 0x100 * u) (box { p.box u with size := v.setWidth 16 })
        ∧ w (0x60018 + 0x100 * u) = .next s ∧ w (0x60028 + 0x100 * u) = .next s
        ∧ w (0x60020 + 0x100 * u) = .next ((s.updPkg q fun _ => box { p.box u with tail := v }).boxNext q u))
    ∧ (∀ i < 8, ∀ op, v.toNat / 65536 % 256 = op →
        ((p.mailbox i).busy = false → op = 2 ∨ op = 3 → w (0x50000 + 0x100 * i)
          = .next ((s.updPkg q fun _ => p.setMailbox i { p.mailbox i with busy := true, op := BitVec.ofNat 8 op }).post s.ttc
              phSeam none (if op = 2 then .readRepairMap q i else .readTemperatures q i)))
        ∧ ((p.mailbox i).busy = true ∨ (op ≠ 2 ∧ op ≠ 3) → w (0x50000 + 0x100 * i) = .next s)
        ∧ ∀ j < 3, becomes (0x50008 + 0x100 * i + 8 * j)
            (p.setMailbox i { p.mailbox i with args := listSet (p.mailbox i).args j v }))
    ∧ (∀ n < 8, let x := p.part n
        let block := fun (d : DebugBlock) => p.setPart n { x with dblk := d }
        let sets := fun (r : Nat) (d : DebugBlock) => becomes (0x70000 + 0x100 * n + r) (block d)
        let asks := fun (a : Act) => w (0x70030 + 0x100 * n) = .next ((s.updPkg q fun _ =>
          block { x.dblk with ctlRec := v.extractLsb' 32 14 }).post s.ttc phSeam none a)
        (x.dbg = 0 → ∀ r < 0x100, w (0x70000 + 0x100 * n + r) = .next s)
        ∧ (x.dbg ≠ 0 → sets 0 { x.dblk with trBase := v }
          ∧ sets 8 { x.dblk with trEn := v.getLsbD 63, trSize := v.setWidth 16 } ∧ sets 0x18 { x.dblk with trTail := v }
          ∧ sets 0x20 { x.dblk with trLost := v } ∧ sets 0x28 { x.dblk with bpBase := v }
          ∧ (v.toNat % 8 = 0 → sets 0x30 { x.dblk with ctlRec := v.extractLsb' 32 14 })
          ∧ (v.toNat % 8 = 1 → asks (.debugFreeze q n)) ∧ (v.toNat % 8 = 2 → asks (.debugRelease q n))
          ∧ (v.toNat % 8 = 4 → asks (.debugScan q n))
          ∧ w (0x70010 + 0x100 * n) = .next s ∧ w (0x70038 + 0x100 * n) = .next s)))

/-- R376 -/
def Says.CommandQueue : Prop :=
  ∀ (s : State) (q : Nat), q < s.pkgs.length → (s.pkg q).Canonical →
    let p := s.pkg q
    (∀ st, ∃ t, s.Answered t q st ∧ s.status q st = t.nextPacket q)
    ∧ exec (.malformedPacket q) s = .next (s.status q 2)
    ∧ (p.silent = true ∨ p.cqHead = p.cqTail ∨ p.cqSize = 0 ∨ (∃ e ∈ s.agenda, isPacket q e.act = true)
        ∨ (∃ r ∈ s.leaseReq, r.1 = q) → s.nextPacket q = s)
    ∧ (p.silent = false → p.cqHead ≠ p.cqTail → p.cqSize ≠ 0 → (∀ e ∈ s.agenda, isPacket q e.act = false) →
        (∀ r ∈ s.leaseReq, r.1 ≠ q) →
        let ws := (List.range 8).map fun i => (s.asRead q).memWord (p.packet + 8 * i)
        s.nextPacket q = (s.spend (s.readCost q)).post s.ttc phSeam none ((packetAct q ws).getD (.malformedPacket q)))
    ∧ ((∀ sh ∈ s.sheets, ∀ e ∈ sh.past, e.pkg ≠ q) → s.asRead q = p ∧ s.readCost q = 0)
    ∧ p.packet = p.cqBase.toNat + 64 * (p.cqHead.toNat % max 1 p.cqSize.toNat)

/-- R376 -/
def Says.CommandPackets : Prop :=
  ∀ (q : Nat) (n : BitVec 3) (i : BitVec 14) (mhz periods : Half) (st : BitVec 2) (size : BitVec 5) (a b : W64) (tok : List W64),
    let z : W64 := 0
    packetAct q [1, n.setWidth 64 ||| i.setWidth 64 <<< 16, 0, 0, 0, 0, 0, a] = some (.armCommand q n.toNat i.toNat)
    ∧ packetAct q [2, n.setWidth 64, 0, 0, a, b, 0, a] = some (.partition q n.toNat 0 0 a b)
    ∧ packetAct q [4, mhz.setWidth 64 ||| periods.setWidth 64 <<< 16, 0, 0, 0, 0, 0, a] = some (.lease q mhz.toNat periods.toNat)
    ∧ packetAct q [5, st.setWidth 64, 0, 0, 0, 0, 0, a] = some (.power q st.toNat)
    ∧ (tok.length = 6 → packetAct q (6 :: tok ++ [a]) = some (.debugToken q tok))
    ∧ packetAct q [7, size.setWidth 64, 0, 0, 0, 0, 0, a] = some (.vatcfg q size.toNat)
    ∧ (a.toNat % 256 = 0 ∨ 7 < a.toNat % 256 ∨ 256 ≤ a.toNat → a.toNat / 2 ^ 16 % 2 ^ 16 = 0 → packetAct q [a, b, 0, 0, 0, 0, 0, 0] = none)
    ∧ (8 ≤ a.toNat → packetAct q [2, a, 0, 0, 0, 0, 0, 0] = none) ∧ (4 ≤ a.toNat → packetAct q [5, a, 0, 0, 0, 0, 0, 0] = none)
    ∧ (b ≠ z → packetAct q [1, 0, b, 0, 0, 0, 0, 0] = none)

/-- A host write reaches device memory below 384 GiB and stops beyond; each register write takes effect as its access says, and none
in a package that is held in reset or off; the head of the queue is read as its OP and fields say, malformed ones are answered with
STATUS 2; one packet at a time. That a package held in reset or off takes no register write is log entries 39 and 62, that a LEASE
that waits holds the queue back log entry 56: readings and choices of the model. -/
def Obligations.HostRegistersAndQueue : Prop :=
  Says.HostMemoryWrite ∧ Says.RegisterWrites ∧ Says.CommandQueue ∧ Says.CommandPackets

/-- R302, R303, R306 -/
def Says.ArmCommand : Prop :=
  ∀ (s : State) (q n i : Nat), q < s.pkgs.length → (s.pkg q).Canonical →
    let ws := (List.range 23).map fun w => s.readRec q n i w
    let st := s.recState q n i
    let ready := (s.pkg q).formed = true ∧ ((s.pkg q).part n).valid = true ∧ (st = 0 ∨ st = 8)
    let later := s.agenda ++ [⟨s.ttc, phSeam, none, .placement n⟩]
    (¬ready → exec (.armCommand q n i) s = .next (s.status q 1))
    ∧ (ready → ∀ code, s.armCode q n i ws = some code → ∃ t, exec (.armCommand q n i) s = .next (t.status q 1)
        ∧ t = { s with pkgs := t.pkgs, agenda := later, free := s.free + s.readCost q } ∧ s.pkgOnly t q
        ∧ t.recWord q n i 23 = 8 ∧ t.recWord q n i 24 = BitVec.ofNat 64 (2 * 2 ^ 32 + code)
        ∧ (∀ j < 7, t.recWord q n i (25 + j) = 0) ∧ ∀ w < 23, t.recWord q n i w = s.recWord q n i w)
    ∧ (ready → s.armCode q n i ws = none → (∀ sh ∈ s.sheets, sh.id ≠ s.nextSheet) →
        ∃ t, exec (.armCommand q n i) s = .next (t.status q 0)
          ∧ t = { s with
              pkgs := t.pkgs, sheets := t.sheets, agenda := later, nextSheet := s.nextSheet + 1, free := s.free + s.readCost q }
          ∧ s.pkgOnly t q ∧ t.sheets = s.sheets ++ [armedSheet s.nextSheet n i q ws]
          ∧ t.recWord q n i 23 = 1 ∧ (∀ w < 23, t.recWord q n i w = s.recWord q n i w)
          ∧ ∀ w, 24 ≤ w → w < 32 → t.recWord q n i w = s.recWord q n i w)

/-- R13, R299 to R302, R304, R363, R364 -/
def Says.ArmRefusals : Prop :=
  ∀ (s : State) (q n i : Nat) (ws : List W64),
    let p := s.asRead q
    let im := p.image (recImage ws)
    let group := s.groupOf p ws
    let pkgs := group.filterMap id
    let multi := 1 < recPkgs ws
    let inWin := fun (x : Section) => (s.windowsOf q ws).any fun w => decide (w.base ≤ x.target)
      && decide (x.target + x.len ≤ w.base + w.size)
    let waitsElsewhere := ∃ e ∈ im.columns, ∃ j ∈ e.2.allInstrs e.1, (∃ a b c d f g, j = .weave a b c d f g)
      ∨ (∃ a b c d f g l, j = .rfetch a b c d f g l) ∨ (∃ a b c d f g l, j = .rstow a b c d f g l)
      ∨ ∃ b m, waitsSem j = some (b, m) ∧ m = true
    let fails := fun (code : Nat) => match code with
      | 1 => rfld ws 0 56 8 ≠ 1 ∨ recReservedSet ws = true ∨ im.reservedSet = true ∨ ∃ r ∈ pkgs, s.reservedRegions r ws = true
      | 2 => (∃ j < 6, recWid ws j = 0 ∨ 24 < recWid ws j ∨ 2 ^ recWid ws j < recLim ws j) ∨ 2 ^ 39 < recWork ws
          ∨ 40 < ((List.range 6).map (recWid ws)).sum
          ∨ (recGang ws ≠ 0 ∧ recPasses ws ≠ (recWork ws + recGang ws - 1) / recGang ws) ∨ recSpan ws = 0
      | 3 => recCpp ws = 0 ∨ 24 < recCpp ws ∨ (recPin ws = true ∧ popcount24 (recPcls ws) ≠ recCpp ws)
          ∨ (recPin ws = false ∧ recPcls ws ≠ 0) ∨ none ∈ group ∨ ¬pkgs.Nodup ∨ pkgs.head? ≠ some q
          ∨ ∃ r ∈ pkgs, ((s.pkg r).part n).valid = false
      | 4 => (recLen ws = true ∧ (multi ∨ recWdog ws = 0 ∨ waitsElsewhere)) ∨ (recPriv ws = true ∧ ((s.pkg q).part n).privok = false)
          ∨ (recVpol ws = true ∧ multi)
      | 5 => im.refused ws inWin = true
      | 6 => im.forwardWait = true
      | 7 => s.planOk p im ws pkgs = false
      | 8 => (∃ r ∈ pkgs, s.badRegions r n ws = true) ∨ s.heapsDiffer pkgs ws = true
          ∨ ∃ r ∈ pkgs, recCpp ws * (s.pkg r).share < recQuota ws
      | 9 => recLo ws = 0 ∨ recHi ws < recLo ws ∨ 1250 < recHi ws
      | 10 => ∃ k < 8, 2 ^ 15 ≤ recDep ws k ∧ recDep ws k % 2 ^ 14 = i
      | 11 => recPmask ws &&& 0xFF80FC03 ≠ 0
      | _ => False
    (∀ code, s.armCode q n i ws = some code ↔ fails code ∧ ∀ c < code, ¬fails c)
    ∧ (s.armCode q n i ws = none ↔ ∀ c, ¬fails c)
    ∧ (s.armCode q n i ws = none →
        recWork ws ≤ 2 ^ 39 ∧ 1 ≤ recSpan ws ∧ ((List.range 6).map (recWid ws)).sum ≤ 40
        ∧ (∀ j < 6, 1 ≤ recWid ws j ∧ recWid ws j ≤ 24 ∧ recLim ws j ≤ 2 ^ recWid ws j)
        ∧ 1 ≤ recCpp ws ∧ recCpp ws ≤ 24 ∧ group.head? = some (some q)
        ∧ 1 ≤ recLo ws ∧ recLo ws ≤ recHi ws ∧ recHi ws ≤ 1250
        ∧ (recPriv ws = true → ((s.pkg q).part n).privok = true)
        ∧ (recLen ws = true → recPkgs ws ≤ 1 ∧ 0 < recWdog ws)
        ∧ (recVpol ws = true → recPkgs ws ≤ 1)
        ∧ (recPlan ws = 0 → pkgs.length = 1)
        ∧ recPmask ws &&& 0xFF80FC03 = 0)

/-- R298, R314, R366, R367; the base of the pool is log entry 11 -/
def Says.PartitionCommand : Prop :=
  ∀ (s : State) (q n : Nat) (w0 w1 w2 w3 : W64), q < s.pkgs.length → (s.pkg q).Canonical →
    let p := s.pkg q
    let home := (s.pkg (s.markHome n)).part n
    let marks := if home.valid then (home.counter, home.cur) else (0, 0)
    let old := p.part n
    let new := old.write w0 w1 w2 w3 marks (Config.word s.free)
    let created := w0.getLsbD 63 = true ∧ old.valid = false
    let busy := ∃ sh ∈ s.sheets, sh.part = n ∧ 2 ≤ sh.state ∧ sh.state ≤ 7
    let clashes := ∃ e ∈ p.parts, e.1 ≠ n ∧ new.shares e.2 = true
    (8 ≤ n ∨ busy ∨ clashes → exec (.partition q n w0 w1 w2 w3) s = .next (s.status q 1))
    ∧ (n < 8 → ¬busy → ¬clashes → ∃ t, exec (.partition q n w0 w1 w2 w3) s = .next (t.status q 0)
        ∧ t = { s with pkgs := t.pkgs, free := s.free + 1 } ∧ s.pkgOnly t q
        ∧ t.pkg q = { p with
            parts := (t.pkg q).parts, slots := (t.pkg q).slots, spdm := { p.spdm with challenged := false }, hbm := (t.pkg q).hbm
            lineKeys := (t.pkg q).lineKeys, poison := (t.pkg q).poison, versions := (t.pkg q).versions, filter := (t.pkg q).filter }
        ∧ (t.pkg q).part n = new ∧ (∀ m, m ≠ n → (t.pkg q).part m = p.part m)
        ∧ (new.valid = old.valid → t.pkg q = { p with
            parts := (t.pkg q).parts, slots := (t.pkg q).slots, spdm := { p.spdm with challenged := false } })
        ∧ (new.valid ≠ old.valid → (t.pkg q).versions = p.versions.filter (fun u => u.part != n)
          ∧ (t.pkg q).filter = p.filter.filter (fun e => e.1 != n)
          ∧ (p.versions.Pairwise (fun u v => u.line = v.line → u.part = v.part ∧ u.w < v.w) →
              ∀ a, (t.pkg q).byteAt a = p.byteAt a))
        ∧ ∀ k < 128, Tab.get KeySlot.reset (t.pkg q).slots k = if (w3 ++ w2).getLsbD k
            then { Tab.get KeySlot.reset p.slots k with part := BitVec.ofNat 3 n }
            else Tab.get KeySlot.reset p.slots k)
    ∧ new = { old with
        valid := w0.getLsbD 63, privok := w0.getLsbD 62, retain := w0.getLsbD 59, clus := w0.setWidth 24
        ehi := w1.extractLsb' 24 18, elo := w1.setWidth 18, keys := w3 ++ w2, counter := new.counter, cur := new.cur, pool := new.pool }
    ∧ (created → (new.counter, new.cur) = marks ∧ new.pool % 4096 = 0 ∧ new.pool + 16384 * 256 ≤ 384 * 2 ^ 30)
    ∧ (¬created → new.counter = old.counter ∧ new.cur = old.cur ∧ new.pool = old.pool)
    ∧ (∀ x y : Partition, x.valid = true → y.valid = true → (x.shares y = true ↔
        (∃ c, x.clus.getLsbD c = true ∧ y.clus.getLsbD c = true) ∨ (∃ k, x.keys.getLsbD k = true ∧ y.keys.getLsbD k = true)
          ∨ (x.elo.toNat ≤ y.ehi.toNat ∧ y.elo.toNat ≤ x.ehi.toNat)))

/-- A record that passes every check is armed with its sequence number and posted for placement; one that fails is refused with the
lowest failing code; PARTITION sets a partition's fields or is refused. The order of the codes, the STATUS of a refused arm and
entry 0 of a group are the model's readings (log entry 31). -/
def Obligations.ArmAndPartitionCommands : Prop :=
  Says.ArmCommand ∧ Says.ArmRefusals ∧ Says.PartitionCommand

/-- R314, R337 to R340, R384 -/
def Says.DomainCommand : Prop :=
  ∀ (s : State) (q : Nat) (w1 w2 w3 : W64), q < s.pkgs.length → (∀ p ∈ s.pkgs, p.Canonical) →
    let num := w1.toNat % 2 ^ 11
    let size := w1.toNat / 2 ^ 11 % 2 ^ 12
    let x := (w2.toNat % 2 ^ 11, w2.toNat / 2 ^ 11 % 2 ^ 11, w2.toNat / 2 ^ 22 % 2 ^ 11)
    let e := (w2.toNat / 2 ^ 33 % 2 ^ 11, w2.toNat / 2 ^ 44 % 2 ^ 11, w3.toNat % 2 ^ 11)
    let fits := num < size ∧ e.1 * e.2.1 * e.2.2 = size ∧ x.1 < e.1 ∧ x.2.1 < e.2.1 ∧ x.2.2 < e.2.2
    let taken := ∃ p < s.pkgs.length, p ≠ q ∧ (s.pkg p).dstate ≠ 0 ∧ (s.pkg p).num.toNat = num
    let ready := (s.pkg q).formed = false ∧ ∃ y ∈ (s.pkg q).parts, y.2.valid = true
    let lat := fun (n : Nat) => (Config.word (s.free + n)).toNat % 2 ^ 20
    (¬(fits ∧ ¬taken ∧ ready) → exec (.domain q w1 w2 w3) s = .next (s.status q 1))
    ∧ (fits → ¬taken → ready →
        let new := (s.pkg q).enlist s.free s.mhz w1 w2 w3
        let u := State.spend { s with pkgs := listUpd s.pkgs q fun _ => new } 48
        let joins := fun (p : Package) => p.dstate = 1 ∧ (p.dsize = 1 ∨ ∃ y ∈ p.ports, y.2.admitted = true)
        (s.domainFormed = true → exec (.domain q w1 w2 w3) s = .next (u.status q 0))
        ∧ (s.domainFormed = false → (∃ m < size, ∀ p < u.pkgs.length, (u.pkg p).dstate ≠ 1 ∨ (u.pkg p).num.toNat ≠ m
            ∨ (u.pkg p).dsize.toNat ≠ size) → exec (.domain q w1 w2 w3) s = .next (u.status q 0))
        ∧ (s.domainFormed = false → (∀ m < size, ∃ p < u.pkgs.length, (u.pkg p).dstate = 1 ∧ (u.pkg p).num.toNat = m
            ∧ (u.pkg p).dsize.toNat = size) →
            ∃ t : State, exec (.domain q w1 w2 w3) s = .next (t.status q 0)
              ∧ t = { u with ttc := t.ttc, seams := t.seams, pkgs := t.pkgs } ∧ t.ttc % 1048576 = 0 ∧ s.ttc < t.ttc
              ∧ t.ttc ≤ s.ttc + 1048576 ∧ t.nextSeam = t.ttc ∧ t.pkgs.length = u.pkgs.length
              ∧ (∀ p < u.pkgs.length,
                (joins (u.pkg p) → t.pkg p = { u.pkg p with
                  formed := true, ttcBase := 0, parts := (t.pkg p).parts, ports := (t.pkg p).ports
                  dstate := if (u.pkg p).ports.any fun y => y.2.retired then 3 else 2 })
                ∧ (¬joins (u.pkg p) → t.pkg p = { u.pkg p with parts := (t.pkg p).parts })
                ∧ (∀ m, let y := Tab.get Port.reset (u.pkg p).ports m
                    let y' := Tab.get Port.reset (t.pkg p).ports m
                    y' = { y with admitted := y'.admitted }
                    ∧ (joins (u.pkg p) → y ≠ Port.reset → y'.admitted = match u.pairOf p m with
                      | some r => y.pad != 0 && !y.retired && !(Tab.get Port.reset (u.pkg r.1).ports r.2).retired
                      | none => y.admitted))
                ∧ ∀ m, (t.pkg p).part m = { (u.pkg p).part m with
                    counter := ((t.pkg p).part m).counter, cur := ((t.pkg p).part m).cur })
              ∧ ∀ m < 8, ∀ p < u.pkgs.length, (t.pkg p).formed = true → ((u.pkg p).part m).valid = true →
                ((u.pkg p).part m).counter.toNat ≤ ((t.pkg p).part m).counter.toNat
                ∧ ∀ p' < u.pkgs.length, (t.pkg p').formed = true → ((u.pkg p').part m).valid = true →
                  ((t.pkg p').part m).counter = ((t.pkg p).part m).counter ∧ ((t.pkg p').part m).cur = ((t.pkg p).part m).cur)
        ∧ new.num.toNat = num ∧ new.dsize.toNat = size ∧ new.coord = x ∧ new.ext = e ∧ new.dstate = 1 ∧ new.formed = false
        ∧ (∀ n < 16, let d := w3.toNat / 2 ^ (3 * n + 16) % 8
            (d = 0 → Tab.find? n new.ports = none)
            ∧ (d ≠ 0 → ∃ y, Tab.find? n new.ports = some y ∧ y.dir.toNat = d ∧ y.retired = false ∧ y.spare = false
                ∧ y.lat.toNat = lat n
                ∧ (y.admitted = true ↔ lat n ≤ 595200 ∧ lat (16 + n) ≤ 595200 ∧ lat n ≤ lat (16 + n) + 4000
                  ∧ lat (16 + n) ≤ lat n + 4000)))
        ∧ new = { s.pkg q with
            num := new.num, dsize := new.dsize, coord := new.coord, ext := new.ext, dstate := 1, master := 0, ports := new.ports })

/-- R340, R368, R373, R377 -/
def Says.LeaseAndPowerCommands : Prop :=
  ∀ (s : State) (q mhz periods : Nat), q < s.pkgs.length → (s.pkg q).Canonical →
    let t := s.finish q 0
    let y := t.pkg q
    let active := fun (st : BitVec 2) => { y with power := st, dstate := if y.power = 2 ∧ y.dsize ≠ 0 then 1 else y.dstate }
    let alone := ∀ p n, p ≠ q → s.farOf p n ≠ some q
    let slot := fun (p : Package) (k : Nat) => Tab.get KeySlot.reset p.slots k
    let lease := (s.pkg q).formed = true ∧ 1100 ≤ mhz ∧ mhz ≤ 1250 ∧ 1 ≤ periods
    (¬lease → exec (.lease q mhz periods) s = .next (s.status q 1))
    ∧ (lease → exec (.lease q mhz periods) s = .next { s with leaseReq := s.leaseReq ++ [(q, mhz, periods)] })
    ∧ (∀ st, let u := State.answerLeases { s with leaseReq := [(q, mhz, periods)] } st
        u = State.status { s with leaseReq := [] } q st)
    ∧ (s.domainFormed = true → exec (.power q 0) s = .next ((t.updPkg q fun _ => active 0).nextPacket q)
        ∧ exec (.power q 1) s = .next ((t.updPkg q fun _ => active 1).nextPacket q))
    ∧ (s.busyPkg q = true → exec (.power q 2) s = .next (s.status q 1))
    ∧ (s.busyPkg q = false → (∀ sh ∈ s.clocked, s.crosses sh q = false) → (∀ r ∈ s.leaseReq, r.1 ≠ q) →
        ∃ u z, exec (.power q 2) s = .next (u.nextPacket q) ∧ u.pkg q = z
          ∧ z = { y with power := 2, formed := false, dstate := 0, sec := if y.sec = 2 then 1 else y.sec, slots := z.slots }
          ∧ (∀ k, slot z k = if (y.part (slot y k).part.toNat).retain then slot y k else (slot y k).cleared)
          ∧ (alone → u = t.updPkg q fun _ => z))
    ∧ ∃ u, exec (.power q 3) s = .next u
        ∧ (u.pkg q).power = 3 ∧ (u.pkg q).formed = false ∧ (u.pkg q).sec = (if Config.identity then 1 else 0)
        ∧ (u.pkg q).hbm = [] ∧ (u.pkg q).lineKeys = [] ∧ (u.pkg q).poison = [] ∧ (u.pkg q).vat = [] ∧ (u.pkg q).versions = []
        ∧ (u.pkg q).filter = [] ∧ (∀ k, slot (u.pkg q) k = (slot y k).cleared)
        ∧ (∀ n, ((u.pkg q).part n).dbg = 0 ∧ ((u.pkg q).part n).dbgNext = none)
        ∧ (∀ sh ∈ u.sheets, sh.home ≠ q) ∧ (∀ e ∈ u.cores, keyPkg e.1 ≠ q) ∧ u.ttc = s.ttc ∧ (u.pkg q).dstate = 0

/-- Each command is done or refused as the manual says, with its answer in the packet: a domain is set out and formed, a lease waits
for its major slot, a power state is entered; a package that is off keeps no memory, keys or sheets. A LEASE left unanswered until
the major slot is log entry 56; STATUS 1 for a LEASE out of range, and that the domain forms when all DSIZE packages are enlisted,
log entry 39. -/
def Obligations.DomainLeaseAndPowerCommands : Prop :=
  Says.DomainCommand ∧ Says.LeaseAndPowerCommands

/-- R367, R372, R382 -/
def Says.DebugTokenCommand : Prop :=
  ∀ (s : State) (q : Nat) (token : List W64), q < s.pkgs.length → (s.pkg q).Canonical →
    let g := Config.tokenGrant token
    let p := s.pkg q
    let good := Config.tokenValid token = true ∧ g.1 ≤ 2 ∧ g.2 < 8 ∧ (g.1 = 2 → s.busyPkg q = false)
    (¬good → exec (.debugToken q token) s = .next (s.status q 1))
    ∧ (good → ∃ t, exec (.debugToken q token) s = .next (t.status q 0) ∧ t = { s with pkgs := t.pkgs } ∧ s.pkgOnly t q
        ∧ (t.pkg q).spdm = { p.spdm with challenged := false } ∧ (t.pkg q).hbm = p.hbm
        ∧ (∀ n, n < 8 → g.1 = 2 ∨ n = g.2 → (t.pkg q).part n = if p.formed
            then { p.part n with dbgNext := some (BitVec.ofNat 2 g.1) }
            else { p.part n with dbg := BitVec.ofNat 2 g.1, dbgNext := none })
        ∧ (g.1 ≠ 2 → (t.pkg q).slots = p.slots ∧ (p.formed = true → (t.pkg q).sec = p.sec))
        ∧ (g.1 = 2 → (t.pkg q).sec = 0
            ∧ ∀ k, Tab.get KeySlot.reset (t.pkg q).slots k = (Tab.get KeySlot.reset p.slots k).cleared))

/-- R370, R371, R373; the words that the spec does not give are log entry 62 -/
def Says.AttestationRequests : Prop :=
  ∀ (s : State) (q x : Nat), q < s.pkgs.length →
    let p := s.pkg q
    let d := p.spdm
    let ws := (List.range 4).map fun i => Config.word (s.free + i)
    let gives := fun (i : Instr) (d' : Spdm) (r : SpdmReply) =>
      exec i s = .next (State.spend (s.updPkg q fun _ => { p with spdm := { d' with answer := r } }) 4)
    let answers := fun (i : Instr) (ok : Prop) (d' : Spdm) (r : SpdmReply) => (ok → gives i d' r) ∧ (¬ok → gives i d .refused)
    let signs := d.algs = true ∧ p.sec ≠ 0
    let digest := fun (i : Nat) => Config.sha384
      (if i = 5 then (List.range 8).flatMap fun n => (p.part n).words.flatMap fun w => leBytes 8 w.toNat
       else if i = 6 then (List.range 8).map fun n => (p.part n).dbg.setWidth 8
       else Config.firmware (8 * q + i))
    let every := [Instr.getVersion q, .getCapabilities q, .negotiateAlgorithms q, .getDigests q, .getCertificate q,
      .challenge q x, .getMeasurements q x, .keyExchange q x, .spdmFinish q]
    (∀ i, p.badImage = some i → ∀ r ∈ every, gives r d (.heldInReset i))
    ∧ (p.badImage = none → p.power = 3 → ∀ r ∈ every, gives r d .none)
    ∧ (p.badImage = none → p.power ≠ 3 →
      gives (.getVersion q) { Spdm.reset with version := true } (.version 1 3)
      ∧ answers (.getCapabilities q) (d.version = true) { d with caps := true } (.capabilities ws)
      ∧ answers (.negotiateAlgorithms q) (d.caps = true) { d with algs := true } (.algorithms .ecdsaBrainpoolP384r1 .sha384)
      ∧ answers (.getDigests q) signs d (.certificates ws) ∧ answers (.getCertificate q) signs d (.certificates ws)
      ∧ answers (.challenge q x) signs { d with challenged := true }
          (.signed (digest 1 ++ digest 2 ++ digest 3 ++ digest 4 ++ digest 5 ++ digest 6) ws)
      ∧ answers (.getMeasurements q x) (signs ∧ 1 ≤ x ∧ x ≤ 6) d (.signed (digest x) ws)
      ∧ answers (.keyExchange q x) signs { d with exchange := true, secured := false } (.signed [] ws)
      ∧ answers (.spdmFinish q) (d.exchange = true) { d with secured := true } .finished)
    ∧ ∀ y : Partition, y.words.length = 4 ∧ (y.words.getD 0 0).getLsbD 63 = y.valid ∧ (y.words.getD 0 0).getLsbD 62 = y.privok
        ∧ (y.words.getD 0 0).extractLsb' 60 2 = y.dbg ∧ (y.words.getD 0 0).getLsbD 59 = y.retain
        ∧ (y.words.getD 0 0).setWidth 24 = y.clus ∧ (y.words.getD 1 0).extractLsb' 24 18 = y.ehi
        ∧ (y.words.getD 1 0).setWidth 18 = y.elo ∧ y.words.getD 3 0 ++ y.words.getD 2 0 = y.keys

/-- R368, R369, R372 -/
def Says.KeysAndAttestedState : Prop :=
  ∀ (s : State) (q k n : Nat) (dbgclr : Bool) (key : List Byte), q < s.pkgs.length → (s.pkg q).Canonical →
    let p := s.pkg q
    let old := Tab.get KeySlot.reset p.slots k
    let ok := p.spdm.secured = true ∧ p.sec ≠ 0 ∧ p.formed = true ∧ k < 128 ∧ (p.part n).valid = true
      ∧ (p.part n).keys.getLsbD k = true ∧ key.length = 64 ∧ s.slotUsed q k = false
    let locked := ∀ e ∈ p.parts, e.2.dbg = 0 ∧ e.2.dbgNext = none
    (ok → ∃ t, exec (.keyLoad q k n dbgclr key) s = .next t ∧ t = { s with pkgs := t.pkgs } ∧ s.pkgOnly t q
        ∧ t.pkg q = { p with slots := (t.pkg q).slots }
        ∧ Tab.get KeySlot.reset (t.pkg q).slots k = ⟨true, dbgclr, BitVec.ofNat 3 n, old.gen + 1, key⟩
        ∧ ∀ j, j ≠ k → Tab.get KeySlot.reset (t.pkg q).slots j = Tab.get KeySlot.reset p.slots j)
    ∧ (¬ok → exec (.keyLoad q k n dbgclr key) s = .next s)
    ∧ (p.booted = true → p.sec = 1 → p.spdm.challenged = true → locked →
        exec (.enterAttested q) s = .next (s.updPkg q fun _ => { p with sec := 2 }))
    ∧ (¬(p.booted = true ∧ p.sec = 1 ∧ p.spdm.challenged = true ∧ locked) → exec (.enterAttested q) s = .next s)

/-- A debug token that is granted opens a partition at the next slot and clears its keys; SPDM requests are answered in their order;
a key reaches its slot only over a secured session; the package becomes attested when all conditions hold. That a request out of
order, or of an index outside 1 to 6, is answered as refused with nothing changed is the model's (log entry 46). -/
def Obligations.KeysTokensAndAttestation : Prop :=
  Says.DebugTokenCommand ∧ Says.AttestationRequests ∧ Says.KeysAndAttestedState

/-- R320, R379; VATCFG beside a busy mailbox is log entry 56 -/
def Says.StackControllers : Prop :=
  ∀ (s : State) (q : Nat), q < s.pkgs.length → (s.pkg q).Canonical →
    let p := s.pkg q
    let busy := ∃ e ∈ p.mail, e.2.busy = true
    (busy → ∀ size, exec (.vatcfg q size) s = .next (s.status q 1))
    ∧ (¬busy → ∀ size < 32, ∃ t, exec (.vatcfg q size) s = .next (t.status q 0) ∧ t = { s with pkgs := t.pkgs } ∧ s.pkgOnly t q
        ∧ t.pkg q = { p with mail := (t.pkg q).mail, vatNext := (t.pkg q).vatNext }
        ∧ ∀ i < 8, (t.pkg q).mailbox i = ⟨false, 1, 0, [BitVec.ofNat 64 size, 0, 0]⟩
          ∧ (Tab.get 0 (t.pkg q).vatNext i).toNat = if size = 0 ∨ 16 < size then 4 else size)
    ∧ (∀ i < 8, ∀ op : Nat, op = 2 ∨ op = 3 → ∃ t, exec (if op = 2 then .readRepairMap q i else .readTemperatures q i) s = .next t
        ∧ t = { s with pkgs := t.pkgs, free := s.free + 3 } ∧ s.pkgOnly t q ∧ t.pkg q = { p with mail := (t.pkg q).mail }
        ∧ (t.pkg q).mailbox i
          = ⟨false, BitVec.ofNat 8 op, 0, [Config.word s.free, Config.word (s.free + 1), Config.word (s.free + 2)]⟩
        ∧ ∀ j, j ≠ i → (t.pkg q).mailbox j = p.mailbox j)

/-- R336, R340, R345, R354 -/
def Says.LinksAndMargins : Prop :=
  ∀ (s : State) (q n pair loc : Nat), q < s.pkgs.length → (s.pkg q).Canonical → (s.sheets.map (·.id)).Nodup →
    let p := s.pkg q
    let port := fun (p : Package) (i : Nat) => Tab.get Port.reset p.ports i
    let others := ∃ i, i ≠ n ∧ (port p i).admitted = true
    let addr := (p.trial.map Trial.addr).getD 0
    let hit := fun (sh : Sheet) => ∃ k ∈ sh.gang, keyPkg k = q ∧ clusterOf (keyId k) / 2 = pair
    let farStays := ∀ r m, s.pairOf q n = some (r, m) →
      r ≠ q ∧ ((s.pkg r).formed = false ∨ ∃ i, i ≠ m ∧ (port (s.pkg r) i).admitted = true)
    (port p n ≠ Port.reset → ∃ t, exec (.linkFailure q n) s = .next t ∧ t.ttc = s.ttc
        ∧ port (t.pkg q) n = { port p n with admitted := false, retired := true }
        ∧ (∀ r m, s.pairOf q n = some (r, m) → port (t.pkg r) m = { port (s.pkg r) m with admitted := false, retired := true })
        ∧ (farStays → others → ∀ i, i ≠ n → port (t.pkg q) i = port p i)
        ∧ (farStays → others → (t.pkg q).formed = p.formed ∧ t.sheets = s.sheets ∧ t.cores = s.cores ∧ t.agenda = s.agenda
            ∧ (t.pkg q).dstate = if p.dstate = 2 then 3 else p.dstate)
        ∧ (¬others → (t.pkg q).formed = false ∧ (t.pkg q).dstate = 0
            ∧ ∀ id sh, s.sheet? id = some sh → q ∈ sh.pkgs → sh.state = 5 → sh.stops = [] →
              ∃ sh', t.sheet? id = some sh' ∧ ∃ f ∈ sh'.faults, f.cause = cLink ∧ f.pkg = q ∧ f.d0 = BitVec.ofNat 64 n))
    ∧ ∃ t, exec (.marginRestore q pair loc) s = .next t ∧ t.ttc = s.ttc
        ∧ (∀ x, p.trial = some x → x.pair = pair → x.restored = false →
            (t.pkg q).trial = some { x with failed := true, restored := true }
            ∧ (t.pkg q).lastGood = Tab.set 0 pair (Tab.get 0 p.lastGood pair + 10) p.lastGood)
        ∧ ((∀ x, p.trial = some x → x.pair ≠ pair ∨ x.restored = true) →
            (t.pkg q).trial = p.trial ∧ (t.pkg q).lastGood = p.lastGood)
        ∧ ((∀ sh ∈ s.sheets, hit sh → sh.state = 5) → t.cores = s.cores ∧ s.pkgOnly t q
            ∧ t.pkg q = { p with trial := (t.pkg q).trial, lastGood := (t.pkg q).lastGood })
        ∧ (∀ id sh, s.sheet? id = some sh → ¬hit sh → t.sheet? id = some sh)
        ∧ ∀ id sh, s.sheet? id = some sh → hit sh → 2 ≤ sh.state → sh.state ≤ 7 → sh.held ≠ .saved → sh.stops = [] →
            sh.decision = none → (∀ f ∈ sh.faults, ¬(f.pkg = q ∧ f.cause = cUncorrectable ∧ f.task = s.taskOf sh)) →
            ∃ sh', t.sheet? id = some sh' ∧ ∃ f ∈ sh'.faults, f.pkg = q ∧ f.cause = cUncorrectable ∧ f.sub = loc ∧ f.whole = true
              ∧ f.task = s.taskOf sh ∧ f.d0 = addr ∧ f.margin = true

/-- R6, R139, R320, R328, R337, R340, R371; another package that detects the loss is log entry 56 -/
def Says.ResetAndTakeover : Prop :=
  (∀ (s : State) (q : Nat), q < s.pkgs.length →
    let p := s.pkg q
    let good := fun (i : Nat) => Config.firmwareGood (8 * q + i) = true ∧ p.fuses ≤ Config.rollback (8 * q + i)
    ∃ t : State, exec (.packageReset q) s = .next t
      ∧ t.pkg q = { Package.reset with
          hbm := (t.pkg q).hbm, lineKeys := (t.pkg q).lineKeys, poison := (t.pkg q).poison, errors := (t.pkg q).errors
          vatSize := p.vatNext, vatNext := p.vatNext, sec := if Config.identity then 1 else 0, fuses := p.fuses, ttcBase := s.ttc
          booted := (t.pkg q).badImage.isNone, badImage := (t.pkg q).badImage }
      ∧ ((t.pkg q).badImage = none ↔ good 2 ∧ good 3 ∧ good 4)
      ∧ (∀ i, (t.pkg q).badImage = some i → 2 ≤ i ∧ i ≤ 4 ∧ ¬good i ∧ ∀ j, 2 ≤ j → j < i → good j)
      ∧ (∀ sh ∈ t.sheets, sh.home ≠ q) ∧ (∀ e ∈ t.cores, keyPkg e.1 ≠ q) ∧ (∀ e ∈ t.frames, keyPkg e.1 ≠ q)
      ∧ (∀ e ∈ t.agenda, packageStep q e.act = false ∧ isPacket q e.act = false) ∧ t.ttc = s.ttc
      ∧ (p.formed = true → (s.sheets.map (·.id)).Nodup → ∀ id sh, s.sheet? id = some sh → q ∈ sh.pkgs → sh.home ≠ q → sh.state = 5 →
          sh.stops = [] → ∃ sh', t.sheet? id = some sh' ∧ ∃ f ∈ sh'.faults, f.cause = cLink ∧ f.pkg ≠ q)
      ∧ (p.Canonical → (∀ sh ∈ s.sheets, sh.home ≠ q) → (p.formed = true → ∀ sh ∈ s.clocked, s.crosses sh q = false) →
          (∀ r ∈ s.leaseReq, r.1 ≠ q) → (∀ r n, r ≠ q → s.farOf r n ≠ some q) →
          p.versions.Pairwise (fun u v => u.line = v.line → u.w < v.w) →
          ∀ a, (t.pkg q).byteAt a = p.byteAt a))
  ∧ ∀ (s : State) (q : Nat), q < s.pkgs.length → ∃ t : State, exec (.standbyTwinTakeover q) s = .next t
      ∧ s.pkgOnly t q ∧ t.pkg q = { s.pkg q with twin := true } ∧ t.sheets = s.sheets ∧ t.cores = s.cores ∧ t.ttc = s.ttc
      ∧ (∀ e ∈ s.agenda, e ∈ t.agenda)
      ∧ ∀ sh ∈ s.sheets, let due := fun (a : Act) => ∃ x ∈ t.agenda, x.act = a
        (sh.decision ≠ none → ∀ e ∈ sh.prepared, due (.couchApply sh.id e.1))
        ∧ (sh.decision = none → sh.state = 6 ∨ (sh.state = 7 ∧ sh.pkgs.length ≤ 1) → due (.couch sh.id))
        ∧ (sh.decision = none → sh.state = 7 → 1 < sh.pkgs.length →
          (sh.prepared.length = sh.pkgs.length → due (.couchDecide sh.id))
          ∧ (sh.prepared.length ≠ sh.pkgs.length → ∀ p ∈ sh.pkgs, (∀ e ∈ sh.prepared, e.1 ≠ p) → due (.couchPrepare sh.id p)))

/-- Mailbox operations answer as stated; a failed port is retired and a package without ports leaves its domain; a restored margin
takes back the trial; a package after reset has every register at its reset value and keeps its memory; the twin takes over the
couches in progress. The model's are memory kept through PACKAGE_RESET (log entry 39), the last good setting raised by 10 (log entry
38), the order in which images are checked (log entry 62) and the far end of a link (log entry 56). -/
def Obligations.StacksLinksAndReset : Prop :=
  Says.StackControllers ∧ Says.LinksAndMargins ∧ Says.ResetAndTakeover

/-- R124, R382 -/
def Says.TraceAndBreakpointWords : Prop :=
  ∀ (s : State) (c : Core) (sh : Sheet) (n : Half), s.Runs s.cur.k c sh → keyPkg s.cur.k < s.pkgs.length →
    (s.pkg (keyPkg s.cur.k)).Canonical →
    let x := s.cur
    let q := keyPkg x.k
    let p := s.pkg q
    let y := p.part sh.part
    let d := y.dblk
    let may := x.off = false ∧ y.dbg ≠ 0
    let full := d.trHead - d.trTail = d.trSize.setWidth 64
    let a := d.trBase.toNat + 16 * (d.trHead.toNat % max 1 d.trSize.toNat)
    let sets := fun (i : Instr) (d' : DebugBlock) => exec i s = .next (s.updPkg q fun _ => p.setPart sh.part { y with dblk := d' })
    let ask := (BitVec.ofNat 14 sh.rcd, some sh.id)
    let armed := d.bpBase ≠ 0 ∧ (p.byteAt (d.bpBase.toNat + n.toNat / 8)).getLsbD (n.toNat % 8) = true
    (¬(may ∧ d.trEn = true) → exec (.mark n) s = .next s)
    ∧ (may → d.trEn = true → full → sets (.mark n) { d with trLost := d.trLost + 1 })
    ∧ (may → d.trEn = true → ¬full → ∃ t, exec (.mark n) s = .next t
        ∧ (t.pkg q).memWord a = BitVec.ofNat 64 (n.toNat * 2 ^ 48 + x.t % 2 ^ 48)
        ∧ (t.pkg q).memWord (a + 8)
          = BitVec.ofNat 64 (c.rank % 2 ^ 19 * 2 ^ 24 + x.k % 256 * 2 ^ 16 + x.col.code * 2 ^ 14 + sh.rcd)
        ∧ (∀ b, b < a ∨ a + 16 ≤ b → (t.pkg q).byteAt b = p.byteAt b)
        ∧ (t.pkg q).part sh.part = { y with dblk := { d with trHead := d.trHead + 1 } }
        ∧ s.pkgOnly t q ∧ s.NotesOnly t)
    ∧ (¬(may ∧ armed) → exec (.brk n) s = .next s)
    ∧ (may → armed → sets (.brk n) { d with
        asks := if ask ∈ d.asks then d.asks else d.asks ++ [ask], brkn := n, stRec := BitVec.ofNat 14 sh.rcd })

/-- R334, R356, R382 -/
def Says.DebugBlockRequests : Prop :=
  ∀ (s : State) (q n : Nat), q < s.pkgs.length →
    let p := s.pkg q
    let y := p.part n
    let d := y.dblk
    let block := fun (d' : DebugBlock) => s.updPkg q fun _ => p.setPart n { y with dblk := d' }
    let done := { d with frozen := false, held := none, scanned := false, scanLeft := 0 }
    exec (.debugFreeze q n) s = .next (if y.dbg = 0 then s else block { d with
        asks := if (d.ctlRec, none) ∈ d.asks then d.asks else d.asks ++ [(d.ctlRec, none)] })
    ∧ exec (.traceLostClear q n) s = .next (if y.dbg = 0 then s else block { d with trLost := 0 })
    ∧ exec (.elostClear q) s = .next (s.updPkg q fun _ => { p with lost := 0, firstLost := 0 })
    ∧ (d.frozen = false → exec (.debugRelease q n) s = .next s ∧ exec (.debugScan q n) s = .next s
        ∧ exec (.debugScanDone q n) s = .next s)
    ∧ (d.frozen = true → (d.held = none ∨ ∃ id, d.held = some id ∧ s.sheet? id = none) →
        exec (.debugRelease q n) s = .next (block done) ∧ exec (.debugScan q n) s = .next s
        ∧ exec (.debugScanDone q n) s = .next s)
    ∧ (d.frozen = true → ∀ id sh, d.held = some id → s.sheet? id = some sh →
        let alone := ∀ p ∈ sh.pkgs, p ≠ q → ((s.pkg p).part sh.part).dblk.held ≠ some id
        exec (.debugRelease q n) s = .next (
            if d.susp = true ∧ sh.held = .inPlace ∧ alone then (block done).updSheet id fun x => { x with held := .release }
            else block done)
        ∧ (recSave sh.words ≠ 0 → exec (.debugScan q n) s = .next (block { d with scanLeft := 168 }))
        ∧ (recSave sh.words = 0 → exec (.debugScan q n) s = .next s)
        ∧ exec (.debugScanDone q n) s = .next ((s.writeImage sh).updPkg q fun p' =>
            p'.setPart n { p'.part n with dblk := { (p'.part n).dblk with scanned := true } }))

/-- R192, R355; parts whose layout the spec leaves open are log entry 37 -/
def Says.CoreBlock : Prop :=
  ∀ (c : Core) (es : List Event) (i a : Nat),
    let bs := c.block es
    let word := fun (at_ : Nat) => BitVec.ofNat 32 (leNat ((bs.drop at_).take 4))
    let b := c.boundOf a
    let at_ := 0x240000 + 4096 * a
    bs.length = 0x500000 ∧ (i < 0x180000 → bs.getD i 0 = Tab.get 0 c.spad i)
    ∧ (i < 0x20000 → word (0x180000 + 4 * i) = Tab.get 0 c.acc i) ∧ (i < 0x8000 → word (0x200000 + 4 * i) = Tab.get 0 c.v i)
    ∧ (a < 8 → i < 128 → word (at_ + 4 * i) = Tab.get 0 b.closed i ∧ word (at_ + 0x200 + 4 * i) = Tab.get 0 b.ra i
        ∧ word (at_ + 0x400 + 4 * i) = Tab.get 0 b.rb i ∧ word (at_ + 0x600 + 4 * i) = Tab.get 0 b.total i
        ∧ word (at_ + 0x800 + 4 * i) = Tab.get 0 b.resid i)
    ∧ (a < 8 → word (at_ + 0xA00) = b.covm ∧ word (at_ + 0xA04) = b.totm
        ∧ (word (at_ + 0xA08)).toNat = (if b.opened then 1 else 0) + (if b.fullc then 2 else 0))
    ∧ (i < 1024 → ∀ j < 16, bs.getD (0x248000 + 16 * i + j) 0 = Config.layout (Tab.get ⟨0, 0, 0, 0, 0⟩ c.sem i) j)
    ∧ (i < 0x200000 → bs.getD (0x270000 + i) 0 = Config.layout c.screen i)
    ∧ (i < 0x40000 → bs.getD (0x470000 + i) 0 = Config.layout (c.array, c.own) i)

/-- R355, R356, R369, R372 -/
def Says.SaveImage : Prop :=
  ∀ (s : State) (sh : Sheet) (q : Nat), q ∈ sh.pkgs → sh.pkgs.Nodup → (∀ p ∈ sh.pkgs, p < s.pkgs.length) →
    (∀ p ∈ s.pkgs, p.Canonical) → sh.gang.Nodup → (∀ k ∈ sh.gang, (s.coreOf sh.id k).isSome = true) →
    let a := recSave sh.words
    let mine := sh.gang.filter fun k => keyPkg k == q
    let t := s.writeImage sh
    let key := (s.pkg q).saveKey sh.part
    let save := (List.range 128).find? ((s.pkg q).part sh.part).keys.getLsbD
    let word := fun (x : Nat) => leNat ((t.pkg q).readUnder key (a + x) 8)
    let view := fun (p : Package) (x : Nat) => (p.readUnder key x 1).getD 0 0
    let es := s.pendingOf sh.id
    word 0 = 3 * 2 ^ 48 + mine.length % 256 * 2 ^ 16 + indexOf q sh.pkgs % 2048 * 2 ^ 5
    ∧ word 8 = s.ttc % 2 ^ 64 ∧ word 16 = sh.t0 % 2 ^ 64 ∧ word 24 = sh.rcd % 2 ^ 64
    ∧ (∀ b < 0x800000, view (t.pkg q) (a + 0x1000 + b)
        = Config.layout (es, (s.pkg q).runs.filter fun r => r.sh == sh.id, sh.links) b)
    ∧ (∀ i k c, mine[i]? = some k → s.coreOf sh.id k = some c → ∀ b < 0x500000,
        view (t.pkg q) (a + 0x801000 + i * 0x500000 + b) = (c.block (es.filter fun e => e.ofCore k)).getD b 0)
    ∧ (∀ b, b < a ∨ a + saveBytes sh q ≤ b → view (t.pkg q) b = view (s.pkg q) b)
    ∧ saveBytes sh q = 0x801000 + mine.length * 0x500000
    ∧ s.NotesOnly t ∧ (∀ r, r ∉ sh.pkgs → t.pkg r = s.pkg r)
    ∧ (save = none → key = [] ∧ (s.pkg q).imageKey sh.part = [])
    ∧ (∀ k, save = some k → key = (s.pkg q).keyOf k
        ∧ (s.pkg q).imageKey sh.part = if ((s.pkg q).part sh.part).dbg = 1
            ∧ (Tab.get KeySlot.reset (s.pkg q).slots k).dbgclr = true then key else [])
    ∧ ∀ (u : State) (x : Nat), u.sheets = [sh] → a ≠ 0 → a % 64 = 0 → sh.past = [] →
        a ≤ x → x < a + saveBytes sh q →
        u.hostRead q x 1 = (u.pkg q).readUnder ((u.pkg q).imageKey sh.part) x 1

/-- R35, R350, R356 to R358, R369 -/
def Says.SaveAndResume : Prop :=
  ∀ (s : State) (id : Nat) (sh : Sheet), s.sheet? id = some sh →
    let t0 := s.task sh
    let goes := sh.state = 5 ∧ sh.held = .none ∧ sh.stops = [] ∧ ∀ f ∈ sh.faults, t0 < f.task
    let off := fun (h : Hold) => { sh with
      held := h, heldAt := s.ttc, victim := none, mhzSum := sh.mhzSum + s.mhz * (t0 - sh.mhzAt), mhzAt := t0 }
    let keys := sh.pkgs.map fun q => (s.pkg q).saveKey sh.part
    let u := s.updSheet id fun x => { x with victim := none }
    let gap := s.ttc - sh.heldAt
    let back := sh.state = 5 ∧ (sh.held = .restore ∨ sh.held = .release) ∧ sh.stops = []
    (¬goes → exec (.contextSave id) s = .next u)
    ∧ (goes → ∀ k loc a, s.saveError sh = some (k, loc, a) → let q := keyPkg k
        let ch := (s.pkg q).coreChannel (keyId k)
        exec (.contextSave id) s = .next ((u.raiseAtSeam id { s.wholeRec sh q k cUncorrectable loc t0 (BitVec.ofNat 64 a) 0 0 with
          margin := (s.pkg q).underTrial ch }).saveMargin q ch loc a))
    ∧ (goes → s.saveError sh = none → ∃ t sh', exec (.contextSave id) s = .next t ∧ t.sheet? id = some sh'
        ∧ sh' = { off .saved with skeys := keys, past := sh'.past }
        ∧ (∀ k c, s.core? k = some c → if c.sh = id then (id, k, c) ∈ t.savedCores else t.core? k = some c)
        ∧ (∀ e ∈ t.cores, e.2.sh ≠ id) ∧ (∀ e ∈ t.agenda, e.sh ≠ some id)
        ∧ (∀ e ∈ s.agenda, if e.sh = some id then ∃ l, (id, l) ∈ t.savedEvents ∧ e ∈ l else e ∈ t.agenda)
        ∧ t.pkgs = (s.writeImage sh).pkgs ∧ (∃ e ∈ t.agenda, e.act = .placement sh.part)
        ∧ ∀ o, o ≠ id → (t.sheet? o).map (fun x => { x with past := [] }) = (s.sheet? o).map fun x => { x with past := [] })
    ∧ (¬back → exec (.resume id) s = .next s)
    ∧ (back → s.planMeets sh (sh.t0 + gap) = true → exec (.resume id) s = .next s)
    ∧ (back → s.planMeets sh (sh.t0 + gap) = false → (sh.held = .restore → s.restoreFault sh = none) → sh.t0 ≤ sh.heldAt →
        sh.heldAt ≤ s.ttc → ∃ t, exec (.resume id) s = .next t
          ∧ t.sheet? id = some { sh with t0 := sh.t0 + gap, held := .none } ∧ s.ttc - (sh.t0 + gap) = sh.heldAt - sh.t0
          ∧ t.pkgs = s.pkgs ∧ (∀ e ∈ s.agenda, e ∈ t.agenda)
          ∧ (∀ l e, (id, l) ∈ s.savedEvents → e ∈ l → { e with ttc := e.ttc + gap } ∈ t.agenda)
          ∧ (((s.savedCores.filter fun e => e.1 == id).map (·.2.1)).Nodup →
            ∀ k c, (id, k, c) ∈ s.savedCores → t.core? k = some c))
    ∧ (∀ f, back → s.planMeets sh (sh.t0 + gap) = false → sh.held = .restore → s.restoreFault sh = some f →
        ∃ v : State, v = { s with pkgs := v.pkgs } ∧ s.pkgOnly v f.pkg
          ∧ v.pkg f.pkg = { s.pkg f.pkg with errors := (v.pkg f.pkg).errors } ∧ exec (.resume id) s = .next (v.raiseAtSeam id f))
    ∧ (¬goes → exec (.debugSuspension id) s = .next s)
    ∧ (goes → ∃ t, exec (.debugSuspension id) s = .next t
        ∧ t.sheet? id = some { off .inPlace with victim := sh.victim } ∧ t.cores = s.cores
        ∧ (∀ e ∈ t.agenda, e.sh ≠ some id)
        ∧ ∀ q ∈ sh.pkgs, q < s.pkgs.length → (s.pkg q).Canonical → let d := ((s.pkg q).part sh.part).dblk
            ((t.pkg q).part sh.part).dblk = if d.held = some id then { d with susp := true } else d)

/-- R357: what a restore finds wrong with the image on the first package where something is -/
def Says.RestoreReads : Prop :=
  ∀ (s : State) (sh : Sheet),
    let a := recSave sh.words
    let within := fun (q x : Nat) => a ≤ x ∧ x < a + saveBytes sh q
    let version := fun (q i : Nat) => leNat ((s.pkg q).readUnder (sh.skeys.getD i []) a 8) / 2 ^ 48 % 2 ^ 16
    let spoilt := fun (q x : Nat) => (∃ l ∈ (s.pkg q).poison, x = 64 * l ∧ a / 64 ≤ l ∧ l ≤ (a + saveBytes sh q - 1) / 64)
      ∨ ∃ e ∈ (s.pkg q).errors, e.kind = 2 ∧ 216 ≤ e.ch ∧ e.ch < 224 ∧ x = e.addr ∧ within q e.addr
    (s.restoreFault sh = none ↔ ∀ i q, sh.pkgs[i]? = some q → version q i = 3 ∧ ∀ x, ¬spoilt q x)
    ∧ ∀ f, s.restoreFault sh = some f → ∃ i q, sh.pkgs[i]? = some q ∧ f.pkg = q ∧ f.whole = true ∧ f.task = s.taskOf sh
        ∧ ((∃ x, spoilt q x ∧ f.cause = cUncorrectable ∧ f.sub = 6 ∧ f.d0 = BitVec.ofNat 64 x)
          ∨ ((∀ x, ¬spoilt q x) ∧ version q i ≠ 3 ∧ f.cause = cKill ∧ f.d0 = 0))

/-- MARK and BRK write a trace record or ask for a freeze where the debug block says so and are otherwise idle; debug requests read
and write what they may; a save writes the image of the gang under its key and takes the sheet off its clock, a restore checks the
image, a resumed sheet goes on at its task cycle. That a resumed core is the one saved, not the image's, is log entry 37, that an
empty key saves unencrypted log entry 42, the order of several requests of a block log entry 59, the margin of an error met by a
save log entry 60: choices of the model. -/
def Obligations.DebugAndSavedContext : Prop :=
  Says.TraceAndBreakpointWords ∧ Says.DebugBlockRequests ∧ Says.CoreBlock ∧ Says.SaveImage ∧ Says.SaveAndResume ∧ Says.RestoreReads

/-- R368, R371, R373, R380, R381; a KEY that is no slot of PART is log entry 58 -/
def Says.HeadboxUnits : Prop :=
  ∀ (s : State) (q u : Nat) (v : W64), q < s.pkgs.length → (s.pkg q).Canonical →
    let p := s.pkg q
    let b := p.box u
    let en := v.getLsbD 63
    let part := if b.en then b.part else v.setWidth 3
    let key := v.extractLsb' 8 7
    let asks := b.en = true ∧ b.job = none ∧ b.head ≠ b.tail ∧ b.size ≠ 0
    let a := b.base.toNat + 32 * (b.head.toNat % b.size.toNat)
    let ws := toWords (s.untimedRead q (p.boxKey b) a 32)
    (p.silent = true → exec (.hbctlWrite q u v) s = .next s)
    ∧ (p.silent = false → exec (.hbctlWrite q u v) s = .next ((s.updPkg q fun _ => p.setBox u { b with
      en := en, part := part, key := if (p.part part.toNat).keys.getLsbD key.toNat then key else b.key
      code := if en ∧ b.en = false then 0 else b.code }).boxNext q u))
    ∧ (p.silent = false → asks → (∀ e ∈ s.agenda, e.act ≠ .headboxDescriptor q u) →
        s.boxNext q u = s.post s.ttc phSeam none (.headboxDescriptor q u))
    ∧ (p.silent = true ∨ ¬asks → s.boxNext q u = s) ∧ (¬asks → exec (.headboxDescriptor q u) s = .next s)
    ∧ (asks → ∀ code, s.jobRefusal q b a ws = some code → exec (.headboxDescriptor q u) s = .next
        ((State.spend (s.updPkg q fun _ => p.setBox u { b with
          code := BitVec.ofNat 8 code, index := b.head.setWidth 32, head := b.head + 1 }) 1).boxNext q u))
    ∧ (asks → s.jobRefusal q b a ws = none → exec (.headboxDescriptor q u) s = .next
        (State.spend (State.post (s.updPkg q fun _ => p.setBox u { b with job := some ws })
          (s.ttc + Config.loading s.free) phSeam none (.headboxFrameDone q u)) 1))
    ∧ ((∀ sh ∈ s.sheets, sh.past = []) → ∀ i < 4, ws.getD i 0 = BitVec.ofNat 64 (leNat (p.readUnder (p.boxKey b) (a + 8 * i) 8)))
    ∧ p.boxKey b = if (p.part b.part.toNat).keys.getLsbD b.key.toNat then p.keyOf b.key.toNat else []

/-- R7, R380, R381; the codes of misaligned addresses, of sizes out of range and of reserved bits are log entry 58 -/
def Says.FrameDescriptors : Prop :=
  ∀ (s : State) (q at_ : Nat) (b : Headbox) (ws : List W64), ws.length = 4 →
    let x := (s.pkg q).part b.part.toNat
    let j := frameJob ws
    let stream := fun (i : Nat) => (s.untimedRead q ((s.pkg q).boxKey b) (j.src + i) 1).headD 0
    let gives := fun (c : Option Nat) => s.jobRefusal q b at_ ws = c
    let owned := fun (a n : Nat) => x.valid = true ∧ x.elo.toNat * 2 ^ 21 ≤ a ∧ a + n ≤ (x.ehi.toNat + 1) * 2 ^ 21
    let reserved := (ws.getD 0 0).extractLsb' 50 14 ≠ 0 ∨ (ws.getD 1 0).extractLsb' 52 12 ≠ 0 ∨ (ws.getD 2 0).extractLsb' 62 2 ≠ 0
      ∨ (ws.getD 2 0).extractLsb' 46 2 ≠ 0
    let placed := owned j.src 1 ∧ owned j.out (j.pitch * j.height + j.pitch * ((j.height + 1) / 2)) ∧ owned j.done 8
      ∧ j.out % 64 = 0 ∧ j.done % 8 = 0
    let sized := 2 ≤ j.height ∧ j.height ≤ 4320 ∧ 2 ≤ j.width ∧ j.width ≤ 7680 ∧ Config.codedWidth j.codec stream = j.width
      ∧ Config.codedHeight j.codec stream = j.height
    (¬owned at_ 32 → gives (some 3)) ∧ (owned at_ 32 → reserved → ∃ c, 1 ≤ c ∧ c ≤ 6 ∧ gives (some c))
    ∧ (owned at_ 32 → ¬reserved →
      (j.codec = 3 → gives (some 1)) ∧ (j.codec ≠ 3 → j.fmt ≠ 7 → j.fmt ≠ 3 → gives (some 2))
      ∧ (j.codec ≠ 3 → j.fmt = 7 ∨ j.fmt = 3 →
        (¬placed → gives (some 3)) ∧ (placed → ¬sized → gives (some 4))
        ∧ (placed → sized → j.pitch % 128 ≠ 0 ∨ j.pitch < 2 * j.width → gives (some 5))
        ∧ (placed → sized → j.pitch % 128 = 0 → 2 * j.width ≤ j.pitch → gives none)))
    ∧ j.codec = ((ws.getD 0 0).extractLsb' 48 2).toNat ∧ j.src = ((ws.getD 0 0).setWidth 48).toNat
    ∧ j.fmt = ((ws.getD 1 0).extractLsb' 48 4).toNat ∧ j.out = ((ws.getD 1 0).setWidth 48).toNat
    ∧ j.height = ((ws.getD 2 0).extractLsb' 48 14).toNat ∧ j.width = ((ws.getD 2 0).extractLsb' 32 14).toNat
    ∧ j.pitch = ((ws.getD 2 0).setWidth 32).toNat ∧ j.done = (ws.getD 3 0).toNat

/-- R368, R380, R381 -/
def Says.FrameDecoded : Prop :=
  ∀ (s : State) (q u : Nat) (ws : List W64) (x : Partition), q < s.pkgs.length → (s.pkg q).Canonical →
    let p := s.pkg q
    let b := p.box u
    let j := frameJob ws
    let key := p.boxKey b
    let view := fun (p : Package) (a n : Nat) => p.readUnder key a n
    let stream := fun (i : Nat) => (s.untimedRead q key (j.src + i) 1).headD 0
    let size := j.pitch * j.height + j.pitch * ((j.height + 1) / 2)
    let done := fun (p : Package) => BitVec.ofNat 64 (leNat (view p j.done 8))
    (b.job = none → exec (.headboxFrameDone q u) s = .next s)
    ∧ (b.job = some ws → j.refusal x stream = none → (j.done + 8 ≤ j.out ∨ j.out + size ≤ j.done) →
        ∃ t, t = { s with pkgs := t.pkgs, sheets := t.sheets, free := t.free } ∧ s.pkgOnly t q
          ∧ (∀ a, (a < j.out ∨ j.out + size ≤ a) → (a < j.done ∨ j.done + 8 ≤ a) → view (t.pkg q) a 1 = view p a 1)
          ∧ (Config.bitstreamGood j.codec stream = true →
            exec (.headboxFrameDone q u) s = .next ((t.updPkg q fun p' => p'.setBox u { b with
              head := b.head + 1, job := none }).boxNext q u)
            ∧ t.free = s.free ∧ ((∀ sh ∈ s.sheets, sh.state ≠ 5 ∧ sh.past = []) → done (t.pkg q) = done p + 1)
            ∧ ∀ e o rows cols pitch, j.planes[e]? = some (o, rows, cols, pitch) → ∀ r < rows, ∀ c < cols,
                let v := Config.sample j.codec stream e r c % 1024
                view (t.pkg q) (o + r * pitch + 2 * c) 2 = sampleBytes j.fmt v
                ∧ (j.fmt = 7 → sampleBytes j.fmt v = leBytes 2 v)
                ∧ (j.fmt = 3 → (fp16.value (leNat (sampleBytes j.fmt v))).num = v))
          ∧ (Config.bitstreamGood j.codec stream = false →
            exec (.headboxFrameDone q u) s = .next ((t.updPkg q fun p' => p'.setBox u { b with
              code := 6, index := b.head.setWidth 32, head := b.head + 1, job := none }).boxNext q u)
            ∧ done (t.pkg q) = done p))

/-- Unit registers are set as stated; a descriptor is accepted or refused; a decoded frame is written whole with its status. That
HBCTL is not written in a package held in reset or off is log entries 39 and 62, the free time of a frame log entry 45. -/
def Obligations.HeadboxIntake : Prop :=
  Says.HeadboxUnits ∧ Says.FrameDescriptors ∧ Says.FrameDecoded

/-- R307 to R310 -/
def Says.PlacementChoice : Prop :=
  ∀ (s : State) (n : Nat),
    ((∃ cls < 4, ∃ h ∈ s.heads n cls, ∃ code, s.fit h.2.2 [] = .refuse code) → ∃ sh code, s.choose n 4 0 = .refuse sh code)
    ∧ (s.choose n 4 0 = .none → exec (.placement n) s = .next s)
    ∧ (∀ sh code, s.choose n 4 0 = .refuse sh code →
        (∃ cls < 4, ∃ h ∈ s.heads n cls, h.2.2 = sh ∧ s.fit sh [] = .refuse code)
        ∧ exec (.placement n) s = .next (((((s.unmark n sh.rcd).refuseRecord sh.home sh.part sh.rcd code
            (stateWord { sh with state := 8 })).drop sh.id).wake n).pump n))
    ∧ (∀ sh cs, s.choose n 4 0 = .place sh cs →
        (∃ cls < 4, ∃ h ∈ s.heads n cls, h.2.2 = sh ∧ s.fit sh [] = .fits cs
          ∧ (∀ g ∈ s.heads n cls, ∀ cs', s.fit g.2.2 [] = .fits cs' →
              (s.queue h.1 n h.2.1).pass.toNat ≤ (s.queue g.1 n g.2.1).pass.toNat)
          ∧ ∀ c < cls, ∀ g ∈ s.heads n c, s.fit g.2.2 [] = .wait)
        ∧ (sh.held = .saved → exec (.placement n) s
            = .next (((s.unmark n sh.rcd).updSheet sh.id fun x => { x with held := .restore }).wake n))
        ∧ (sh.held ≠ .saved → exec (.placement n) s = .next ((((s.unmark n sh.rcd).charge sh).load sh cs).wake n)))
    ∧ (∀ vs rcd, s.choose n 4 0 = .victims vs rcd →
        (∀ v ∈ vs, ∃ sh ∈ s.sheets, sh.id = v ∧ sh.part = n ∧ sh.state = 5 ∧ sh.held = .none)
        ∧ (∃ cls < 4, ∃ h ∈ s.heads n cls, h.2.2.rcd = rcd ∧ s.fit h.2.2 [] = .noRoom
          ∧ ∀ v ∈ vs, ∃ sh ∈ s.sheets, sh.id = v ∧ cls < recQueue sh.words / 16)
        ∧ exec (.placement n) s = .next { s with
            sheets := s.sheets.map fun sh => if sh.id ∈ vs then { sh with victim := some rcd } else sh })
    ∧ (∀ sh cs, sh.held ≠ .saved → s.sameCores sh = true → s.fit sh [] = .fits cs → cs = sh.again)
    ∧ (∀ rcd, let t := s.unmark n rcd
        t = { s with sheets := t.sheets } ∧ ∀ id sh, s.sheet? id = some sh →
          t.sheet? id = some (if sh.part = n ∧ sh.victim = some rcd then { sh with victim := none } else sh))
    ∧ (∀ a b : Sheet, victimBefore a b = true ↔ recQueue b.words / 16 < recQueue a.words / 16
        ∨ (recQueue a.words / 16 = recQueue b.words / 16 ∧ b.placed < a.placed))
    ∧ ∀ cls, ∀ h ∈ s.heads n cls, (s.queue h.1 n h.2.1).tickets ≠ 0 ∧ 16 * cls ≤ h.2.1 ∧ h.2.1 < 16 * cls + 16
        ∧ (s.inQueue h.1 n h.2.1).head? = some h.2.2 ∧ h.1 ∈ s.domain

/-- R303 to R305 -/
def Says.Loading : Prop :=
  ∀ (s : State) (sh : Sheet) (cs : List (Nat × List Nat)), s.sheet? sh.id = some sh → ((gangOf cs).map (·.1)).Nodup →
    let t := s.load sh cs
    let im := (s.asRead sh.home).image (recImage sh.words)
    (∃ sh', t.sheet? sh.id = some sh' ∧ sh'.state = 3 ∧ sh'.clusters = cs ∧ sh'.pkgs = cs.map (·.1)
        ∧ sh'.gang = (gangOf cs).map (·.1) ∧ sh'.attempt = sh.attempt + 1 ∧ sh'.retries = sh.retries ∧ sh'.words = sh.words
        ∧ sh'.placed = s.placements ∧ sh'.again = []
        ∧ sh'.holds = 0 ∧ sh'.faults = [] ∧ sh'.stops = [] ∧ sh'.patches = [] ∧ sh'.held = .none
        ∧ sh'.plan = (s.asRead sh.home).plan (recPlan sh.words)
        ∧ sh'.windows = (cs.map (·.1)).flatMap fun q => s.windowsOf q sh.words)
    ∧ (∀ e ∈ gangOf cs, t.core? e.1
        = some (loadCore sh.id e.2.1 e.2.2 sh.words cs.length (gangOf cs).length (Tab.get [] s.frames e.1) im))
    ∧ (∀ k, k ∉ (gangOf cs).map (·.1) → t.core? k = s.core? k)
    ∧ (∃ z, z % 4096 = 0 ∧ s.ttc < z ∧ ⟨z, phSeam, some sh.id, .sheetAlignment sh.id⟩ ∈ t.agenda)
    ∧ t.ttc = s.ttc ∧ t.frames = s.frames ∧ t.placements = s.placements + 1
    ∧ (gangOf cs).length = 8 * (cs.map fun c => c.2.length).sum
    ∧ ∀ (r k : Nat) (a : Nat × Nat), (gangOf cs)[r]? = some (k, a) → a.2 = r

/-- R300 to R305 -/
def Says.LoadedCore : Prop :=
  ∀ (id prank rank : Nat) (words : List W64) (pkgs size : Nat) (tags : Tab Tag) (im : Image),
    let c := loadCore id prank rank words pkgs size tags im
    (∀ n < 64, c.sget n = if 61 ≤ n then recArg words (n - 61) else 0) ∧ (∀ n < 8, c.pget n = decide (n = 0))
    ∧ c.q = [] ∧ c.v = [] ∧ c.acc = [] ∧ c.sem = [] ∧ c.fflags = 0 ∧ c.fset = 0 ∧ c.shape = 0 ∧ c.base = 0 ∧ c.rot = false
    ∧ c.lin = BitVec.ofNat 40 rank ∧ c.rank = rank ∧ c.prank = prank ∧ c.sh = id ∧ c.spad = im.spad
    ∧ c.gang.toNat = prank % 2048 * 2 ^ 51 + pkgs % 4096 * 2 ^ 39 + size % 2 ^ 20 * 2 ^ 19 + rank % 2 ^ 19
    ∧ (∀ o, (c.col o).cu = Cursor.reset ∧ (c.col o).code = (im.column o).code ∧ (c.col o).lits = (im.column o).lits)
    ∧ (∀ o a, a * 4 + 4 ≤ (im.last (o.code + 1)).length →
        ((c.col o).word a).toNat = leNat (((im.last (o.code + 1)).drop (4 * a)).take 4))
    ∧ (∀ o a, (im.last (o.code + 1)).length ≤ 4 * a → (c.col o).word a = 0xFFFFFFFF)
    ∧ (∀ b < 24, im.last 6 = [] → c.bfmtReg b = 0x3F800000)
    ∧ (∀ g < 16, im.last 7 = [] → (c.ring g).nfr = 0)
    ∧ c.board = [] ∧ c.own = [] ∧ c.occ = [] ∧ c.ptags = [] ∧ c.mask.armed = false ∧ c.mask.block = none
    ∧ c.screen.gen = false ∧ c.screen.runs = [] ∧ c.screen.limit = []

/-- R17, R26, R313, R316 -/
def Says.Alignment : Prop :=
  ∀ (s : State) (id : Nat) (sh : Sheet), s.sheet? id = some sh →
    let bad := ∃ q ∈ sh.pkgs, ∃ k c, sh.gang.find? (fun k => keyPkg k == q) = some k ∧ s.core? k = some c
      ∧ c.alignFaults k ≠ []
    (sh.state ≠ 3 → exec (.sheetAlignment id) s = .next s)
    ∧ (sh.state = 3 → s.planMeets sh s.ttc = true →
        exec (.sheetAlignment id) s = .next (s.post (s.ttc + 4096) phSeam (some id) (.sheetAlignment id)))
    ∧ (sh.state = 3 → s.planMeets sh s.ttc = false → sh.stops = [] →
        ∃ t sh', exec (.sheetAlignment id) s = .next t ∧ t.sheet? id = some sh' ∧ t.task sh' = 0
          ∧ sh' = { sh with
              t0 := s.ttc, swm := s.curMark sh.part, past := s.inherited sh.part, state := 5, sec := sh.pkgs.map fun q => (s.pkg q).sec
              dbg := sh.pkgs.map fun q => ((s.pkg q).part sh.part).dbg, faults := sh'.faults }
          ∧ t.ttc = s.ttc ∧ (∀ o, o ≠ id → t.sheet? o = s.sheet? o)
          ∧ (recWdog sh.words ≠ 0 → ⟨s.ttc + recWdog sh.words, phWatch, some id, .watchdog id⟩ ∈ t.agenda)
          ∧ (∀ e ∈ s.agenda, e ∈ t.agenda)
          ∧ (¬bad → t.cores = s.cores ∧ sh'.faults = sh.faults)
          ∧ (bad → (∀ k c, t.core? k = some c → c.sh = id → ∀ o, (c.col o).cu.ended = some 0)
              ∧ ∃ f ∈ sh'.faults, f.cause = cIllegal ∧ f.task = 0))
    ∧ ∀ (c : Core) (k : Nat), c.alignFaults k = [] ↔ ∀ o,
        (c.col o).tagged 0 = false ∧ (c.col o).instrAt o 0 = some .align ∧ bits ((c.col o).word 0).toNat 29 3 = 4
        ∧ ∀ e ∈ (c.col o).code, e.1 ≠ 0 → (c.col o).instrAt o e.1 ≠ some .align

/-- The scheduler places, refuses or chooses victims for the head it selects; a placed sheet's cores are loaded as its
image says; alignment starts the gang at its seam or refuses it. -/
def Obligations.PlacementAndLoading : Prop :=
  Says.PlacementChoice ∧ Says.Loading ∧ Says.LoadedCore ∧ Says.Alignment

/-- R34, R345, R348; `FaultRec.hard` is log entry 61 -/
def Says.FaultTaken : Prop :=
  ∀ (s : State) (id : Nat) (sh : Sheet) (f : FaultRec), s.sheet? id = some sh →
    let lost := sh.state ≠ 5 ∨ ∃ t < f.task, sh.stopAt f.pkg = some t
    (lost → f.hard = false → s.raise id f = s)
    ∧ (lost → f.hard = true → f.pkg < s.pkgs.length →
        let p := s.pkg f.pkg
        let u := s.raise id f
        u.sheets = s.sheets ∧ u.cores = s.cores ∧ s.pkgOnly u f.pkg ∧ (∀ e ∈ s.agenda, e ∈ u.agenda)
        ∧ u.pkg f.pkg = { p with trial := (u.pkg f.pkg).trial, reports := p.reports ++
            [⟨s.ttc, if f.margin then 3 else 2, f.channel p, p.errorFields (f.channel p) f.d0.toNat⟩] })
    ∧ (sh.state = 5 → (∀ t, sh.stopAt f.pkg = some t → f.task ≤ t) →
        let t := s.raise id f
        t.sheet? id = some { sh with faults := sh.faults ++ [f] } ∧ (∀ o, o ≠ id → t.sheet? o = s.sheet? o)
        ∧ t.agenda = s.agenda ++ sh.pkgs.map (fun q => ⟨sh.t0 + (if q = f.pkg then f.task
            else f.task + 768 * s.hops f.pkg q + 64), phStop, some id, .peerAbortStop id q⟩)
        ∧ t = { s with sheets := t.sheets, agenda := t.agenda })

/-- R342, R348, R349 -/
def Says.FaultLog : Prop :=
  ∀ (p : Package) (ttc kind ch : Nat) (f : LogFields), p.Canonical →
    let r := p.record ttc kind ch f
    let n := fun (t : Tab W64) (c : Nat) => Tab.get 0 t c
    let a := p.logBase.toNat + 64 * (p.logHead.toNat % 4096)
    let ws := logWords p.evNext.toNat kind ch ttc f
    let full := p.logHead - p.logTail = 4096
    r.evNext = p.evNext + 1
    ∧ (∀ c, n r.ecor c = if c = ch ∧ (kind = 1 ∨ kind = 5) then n p.ecor c + 1 else n p.ecor c)
    ∧ (∀ c, n r.eunc c = if c = ch ∧ (kind = 2 ∨ kind = 3) then n p.eunc c + 1 else n p.eunc c)
    ∧ (∀ c, n r.eoth c = if c = ch ∧ ¬(kind = 1 ∨ kind = 5) ∧ ¬(kind = 2 ∨ kind = 3) then n p.eoth c + 1 else n p.eoth c)
    ∧ (full → r.lost = p.lost + 1 ∧ r.firstLost = (if p.lost = 0 then p.evNext else p.firstLost) ∧ r.logHead = p.logHead
        ∧ ∀ b, r.byteAt b = p.byteAt b)
    ∧ (¬full → r.lost = p.lost ∧ r.logHead = p.logHead + 1 ∧ (∀ i < 8, r.memWord (a + 8 * i) = ws.getD i 0)
        ∧ ∀ b, b < a ∨ a + 64 ≤ b → r.byteAt b = p.byteAt b)
    ∧ ws.length = 8 ∧ (ws.getD 0 0).toNat = p.evNext.toNat * 2 ^ 24 + kind % 8 * 2 ^ 8 + ch % 256
    ∧ (ws.getD 1 0).extractLsb' 56 8 = BitVec.ofNat 8 f.cause ∧ (ws.getD 1 0).extractLsb' 48 8 = BitVec.ofNat 8 f.sub
    ∧ (ws.getD 1 0).extractLsb' 40 8 = BitVec.ofNat 8 f.core ∧ (ws.getD 1 0).extractLsb' 0 13 = BitVec.ofNat 13 f.word
    ∧ ws.getD 3 0 = BitVec.ofNat 64 ttc ∧ ws.getD 5 0 = f.d0 ∧ ws.getD 6 0 = f.d1 ∧ ws.getD 7 0 = f.d2

/-- R342, R348, R351, R354 -/
def Says.EventsOfACycle : Prop :=
  ∀ (p : Package) (ttc kind ch : Nat) (f : LogFields) (r a b : Report), r = ⟨ttc, kind, ch, f⟩ →
    let x := (p.report r).1
    let old := p.history.filter fun e => decide (ttc < e.2.2 + 2 ^ 30)
    let seen := fun (k : Nat) => (old.filter fun e => e.1 == ch && e.2.1 == k).length + if kind = k then 1 else 0
    let lasts := 3 ≤ seen 2 ∨ 64 ≤ seen 1
    let none_ := { p with reports := [] }
    p.event ttc kind ch f = { p with reports := p.reports ++ [r] }
    ∧ (p.underTrial ch = false → ch < 216 → kind = 1 ∨ kind = 2 → ch ∉ p.lasting →
        (ch ∈ x.lasting ↔ lasts) ∧ ((p.report r).2.isSome = true ↔ lasts)
        ∧ ∀ z, (p.report r).2 = some z → z.kind = 4 ∧ z.ch = 241 ∧ z.ttc = ttc ∧ z.f.core = f.core)
    ∧ (p.underTrial ch = true → kind = 1 ∨ kind = 2 → p.report r
        = ({ p.record ttc (if kind = 1 then 5 else 3) ch f with trial := p.trial.map fun t => { t with failed := true } }, none))
    ∧ (p.underTrial ch = true ↔ ch < 216 ∧ ∃ t, p.trial = some t ∧ t.pair = ch / 18)
    ∧ (216 ≤ ch ∨ (kind ≠ 1 ∧ kind ≠ 2) → p.report r = (p.record ttc kind ch f, none))
    ∧ (a.kind ≠ 0 → b.kind ≠ 0 → (a.before b = true ↔ a.ch < b.ch ∨ (a.ch = b.ch ∧ a.f.d0.toNat < b.f.d0.toNat)))
    ∧ (p.reports = [] → p.settle = p)
    ∧ (a.before b = true → p.reports = [a, b] ∨ p.reports = [b, a] → (none_.report a).2 = none →
        ((none_.report a).1.report b).2 = none → p.settle = ((none_.report a).1.report b).1)
    ∧ (∀ z, p.reports = [a] → (none_.report a).2 = some z → p.settle = ((none_.report a).1.report z).1)

/-- R33, R34, R39, R345, R348, R359; which fault a stop names where several messages come in one cycle, and WATCHDOG raised on the home
package also where a peer has stopped, are log entry 34 -/
def Says.WatchdogAndStop : Prop :=
  ∀ (s : State) (id q : Nat) (sh : Sheet), s.sheet? id = some sh →
    let t := s.taskOf sh
    let v := s.watched sh q t
    let sw := (v.sheet? id).getD sh
    let fs := v.stopFaults sw q t
    let own := sw.faults.filter fun f => f.pkg == q && decide (f.task ≤ t)
    let limit := q = sh.home ∧ recWdog sh.words ≠ 0 ∧ t = recWdog sh.words ∧ ∀ f ∈ sh.faults, f.cause ≠ cWatchdog
    let asks := sh.state = 5 ∧ sh.stopAt sh.home = none
    (¬asks → exec (.watchdog id) s = .next s)
    ∧ (asks → exec (.watchdog id) s
        = .next (s.raise id (s.whole sh sh.home cWatchdog 0 (BitVec.ofNat 64 (recWdog sh.words)) 0 0)))
    ∧ (¬(sh.state = 5 ∧ sh.stopAt q = none) → exec (.peerAbortStop id q) s = .next s)
    ∧ (sh.state = 5 → sh.stopAt q = none → ∃ u sh',
        exec (.peerAbortStop id q) s
          = .next (if ∀ p ∈ sh.pkgs, p = q ∨ (sh.stopAt p).isSome = true then u.repulpSoon sh' else u)
        ∧ u.sheet? id = some sh'
        ∧ sh' = { sh with stops := sh.stops ++ [(q, t)], faults := sh'.faults }
        ∧ sh'.faults = sw.faults ++ fs.filter (fun f => f.cause == cPeer)
        ∧ (¬limit → v = s)
        ∧ (limit → sw = { sh with faults := sh.faults ++ [s.whole sh q cWatchdog 0 (BitVec.ofNat 64 t) 0 0] } ∧ v.pkgs = s.pkgs)
        ∧ (own ≠ [] → (∀ g ∈ fs, g ∈ own) ∧ fs.Pairwise (fun f g => f.meets g = false)
            ∧ ∀ f ∈ own, ∃ g ∈ fs, g = f ∨ (f.meets g = true ∧ causeRank g.cause g.sub ≤ causeRank f.cause f.sub))
        ∧ (own = [] → sh.faults ≠ [] → ∃ f g, f ∈ sh.faults ∧ fs = [g] ∧ g.cause = cPeer ∧ g.pkg = q ∧ g.task = t
            ∧ g.d0 = BitVec.ofNat 64 (indexOf f.pkg sh.pkgs) ∧ g.d1 = BitVec.ofNat 64 (f.cause + 256 * f.sub)
            ∧ ((∃ h ∈ sh.faults, h.task + 768 * s.hops h.pkg q + 64 = t) → f.task + 768 * s.hops f.pkg q + 64 = t))
        ∧ (∀ k, u.core? k = (s.core? k).map fun c => if c.sh = id ∧ keyPkg k = q then c.still else c)
        ∧ u.pkgs = ((sw.lostErrors q fs).foldl State.hardEvent (fs.foldl (fun s f => (s.logFault sw f).marginCheck f) v)).pkgs
        ∧ u.ttc = s.ttc
        ∧ (∀ o, o ≠ id → u.sheet? o = s.sheet? o) ∧ (∀ e ∈ s.agenda, e ∈ u.agenda))

/-- R329, R356, R358 -/
def Says.TransfersBeforeRepulp : Prop :=
  ∀ (s : State) (sh : Sheet), s.sheet? sh.id = some sh →
    let u := s.repulpSoon sh
    let gap := s.ttc - sh.heldAt
    let at_ := fun (t : Nat) => (⟨t, phStop, some sh.id, .repulp sh.id⟩ : Event)
    (∀ e ∈ s.agenda, e ∈ u.agenda)
    ∧ (sh.held = .none → u = { s with agenda := s.agenda ++ [at_ (max s.ttc (sh.t0 + sh.settle))] })
    ∧ (sh.held = .saved → at_ s.ttc ∈ u.agenda ∧ u.cores = s.cores
        ∧ u.pkgs = (s.performAll sh).pkgs)
    ∧ (sh.held ≠ .none → sh.held ≠ .saved → at_ (max s.ttc (sh.t0 + gap + sh.settle)) ∈ u.agenda
        ∧ u.sheet? sh.id = some { sh with t0 := sh.t0 + gap, held := .none } ∧ u.pkgs = s.pkgs
        ∧ ∀ l e, (sh.id, l) ∈ s.savedEvents → e ∈ l → { e with ttc := e.ttc + gap } ∈ u.agenda)

/-- R33 -/
def Says.SheetEnds : Prop :=
  ∀ (s : State) (id : Nat) (sh : Sheet), s.sheet? id = some sh →
    let t := s.task sh
    let ended := ∀ k ∈ sh.gang, ∀ c, s.core? k = some c → ∀ o, (c.col o).cu.ended.isSome = true
    let ready := sh.state = 5 ∧ sh.stops = [] ∧ ended ∧ ∀ f ∈ sh.faults, t < f.task
    (¬ready → exec (.sheetEnd id) s = .next s)
    ∧ (ready → t < sh.settle →
        exec (.sheetEnd id) s = .next (s.post (sh.t0 + sh.settle) phStop (some id) (.sheetEnd id)))
    ∧ (ready → sh.settle ≤ t → ∃ u, exec (.sheetEnd id) s = .next u
        ∧ u.sheet? id = some { sh with
            state := 6, endTtc := s.ttc, span := t, mhzSum := sh.mhzSum + s.mhz * (t - sh.mhzAt), mhzAt := t }
        ∧ (∃ e ∈ u.agenda, e.act = .couch id) ∧ (∀ e ∈ s.agenda, e ∈ u.agenda) ∧ u.cores = s.cores ∧ u.ttc = s.ttc
        ∧ ∀ o, o ≠ id → u.sheet? o = s.sheet? o)

/-- R345, R346 -/
def Says.ReportedFault : Prop :=
  ∀ (sh : Sheet) (f g : FaultRec),
    let met := fun (f : FaultRec) => ∀ t, sh.stopAt f.pkg = some t → f.task ≤ t
    let first := fun (a b : FaultRec) => lexLt (faultKey sh a) (faultKey sh b) = true
    let rank := fun (f : FaultRec) => indexOf f.pkg sh.pkgs
    let real := f.cause ≠ cPeer ∧ g.cause ≠ cPeer
    let tied := real ∧ f.task = g.task ∧ rank f = rank g
    (sh.reported = none ↔ ∀ f ∈ sh.faults, ¬met f)
    ∧ (sh.reported = some f → f ∈ sh.faults ∧ met f ∧ ∀ g ∈ sh.faults, met g → ¬first g f)
    ∧ (f.cause ≠ cPeer → g.cause = cPeer → first f g)
    ∧ (real → f.task < g.task → first f g)
    ∧ (real → f.task = g.task → rank f < rank g → first f g)
    ∧ (tied → f.whole = false → g.whole = true → first f g)
    ∧ (tied → f.whole = true → g.whole = true → wholeRank f.cause < wholeRank g.cause → first f g)
    ∧ (tied → f.whole = false → g.whole = false →
        (f.core < g.core → first f g) ∧ (f.core = g.core → f.col.code < g.col.code → first f g)
        ∧ (f.core = g.core → f.col = g.col → f.word < g.word → first f g)
        ∧ (f.core = g.core → f.col = g.col → f.word = g.word → causeRank f.cause f.sub < causeRank g.cause g.sub → first f g))
    ∧ [cWatchdog, cOverrun, cLink, cUncorrectable, cVatConflict, cKill, cPeer].map wholeRank = [0, 1, 2, 3, 4, 5, 6]

/-- R311, R312, R329, R351 -/
def Says.Repulp : Prop :=
  ∀ (s : State) (id : Nat) (sh : Sheet), s.sheet? id = some sh → (∀ p ∈ s.pkgs, p.Canonical) → sh.home < s.pkgs.length →
    (sh.reported = none → exec (.repulp id) s = .next s)
    ∧ (∀ f, sh.reported = some f →
        let retries := sh.retries + (if f.cause = cKill ∨ f.cause = cPeer then 0 else 1)
        let again := retries ≤ recRetry sh.words ∧ sh.irrev ≠ 3
        let ws := completionWords sh f.outcome 0 0 0
        ∃ u, exec (.repulp id) s = .next u
          ∧ (again → ∃ sh', u.sheet? id = some sh' ∧ sh'.state = 1 ∧ sh'.retries = retries ∧ sh'.attempt = sh.attempt
              ∧ sh'.words = sh.words ∧ sh'.faults = [] ∧ sh'.clusters = [] ∧ sh'.patches = []
              ∧ sh'.again = (if f.cause = cUncorrectable ∧ f.sub ≤ 5 then sh.clusters else [])
              ∧ (u.recState sh.home sh.part sh.rcd) = 1)
          ∧ (¬again → u.sheet? id = none ∧ u.recState sh.home sh.part sh.rcd = 8)
          ∧ (∀ j ∈ [0, 1, 2, 3, 6, 7], u.recWord sh.home sh.part sh.rcd (24 + j) = ws.getD j 0)
          ∧ (∀ e ∈ u.cores, e.2.sh ≠ id) ∧ (∀ e ∈ u.savedCores, e.1 ≠ id) ∧ (∀ p, ∀ v ∈ (u.pkg p).vat, v.sh ≠ id)
          ∧ (∀ k c, s.core? k = some c → c.sh ≠ id → u.core? k = some c)
          ∧ (∀ o, o ≠ id → (u.sheet? o).map (·.state) = (s.sheet? o).map (·.state))
          ∧ (∃ e ∈ u.agenda, e.act = .placement sh.part))

/-- A fault is recorded and every package of the gang stops at its stated cycle; the log takes the next entry or counts it lost, the
events of a cycle in their order; a sheet past its limit is stopped; a sheet whose columns have ended and whose transfers have
settled is ended; the fault reported is the first by the stated order; a repulp waits for the transfers, then the sheet is released
and armed again or final. WATCHDOG on the home package where a peer has stopped, and which fault a stop names, are log entry 34;
which errors stand behind a fault is log entry 61. -/
def Obligations.FaultsAndEnds : Prop :=
  Says.FaultTaken ∧ Says.FaultLog ∧ Says.EventsOfACycle ∧ Says.WatchdogAndStop ∧ Says.TransfersBeforeRepulp ∧ Says.SheetEnds
    ∧ Says.ReportedFault ∧ Says.Repulp

/-- R324 -/
def Says.CouchOrder : Prop :=
  ∀ (x y : Sheet),
    let dep := dependsOn y x = true ∨ dependsOn x y = true
    let sameQueue := x.home = y.home ∧ recQueue x.words = recQueue y.words
    let ended := 6 ≤ x.state ∧ 6 ≤ y.state
    (dependsOn y x = true ↔ x.home = y.home ∧ ∃ k < 8, recDep y.words k = 2 ^ 15 + x.rcd)
    ∧ (dependsOn y x = true → couchBefore x y = true)
    ∧ (¬dep → sameQueue → (couchBefore x y = true ↔ x.armSeq < y.armSeq))
    ∧ (¬dep → ¬sameQueue → ended → x.endTtc < y.endTtc → couchBefore x y = true)
    ∧ (¬dep → ¬sameQueue → ended → x.endTtc = y.endTtc → recQueue x.words < recQueue y.words → couchBefore x y = true)
    ∧ (¬dep → ¬sameQueue → ended → x.endTtc = y.endTtc → recQueue x.words = recQueue y.words → x.rcd < y.rcd →
        couchBefore x y = true)
    ∧ (¬dep → ¬sameQueue → 6 ≤ x.state → y.state < 6 → couchBefore x y = true)
    ∧ (¬dep → ¬(couchBefore x y = true ∧ couchBefore y x = true))
    ∧ (¬dep → ended → x.armSeq ≠ y.armSeq →
        couchBefore x y = true ∨ couchBefore y x = true)

/-- R307, R312, R314, R321 to R326; a sheet that has not ended counts after one that has by log entry 35 -/
def Says.Couch : Prop :=
  ∀ (s : State) (id : Nat) (sh : Sheet), s.sheet? id = some sh → (∀ p ∈ s.pkgs, p.Canonical) → sh.home < s.pkgs.length →
    s.keepsMarks sh.part →
    let p := s.pkg sh.home
    let dep := fun (k : Nat) => recDep sh.words k % 2 ^ 14
    let failed := ∃ k < 8, 2 ^ 15 ≤ recDep sh.words k ∧ s.recState sh.home sh.part (dep k) = 8 ∧ s.recOutc sh.home sh.part (dep k) ≠ 0
    let may := (sh.state = 6 ∨ sh.state = 7) ∧ (sh.state = 7 → sh.pkgs.length ≤ 1) ∧ s.myTurn sh = true
    let w := s.nextMark sh.part
    let clear := fun (l : Nat) => 64 * l + 64 ≤ s.recAddr sh.home sh.part sh.rcd 0 ∨ s.recAddr sh.home sh.part sh.rcd 32 ≤ 64 * l
    (¬may → exec (.couch id) s = .next s)
    ∧ (sh.irrev ≠ 3 → s.myTurn sh = true → w < 2 ^ 48 ∧ ∀ x ∈ s.sheets, x.part = sh.part → x.id ≠ id →
        couchBefore x sh = false ∧ x.state ≠ 7 ∧ x.irrev ≠ 3)
    ∧ (sh.irrev = 3 → (s.myTurn sh = true ↔ ∀ x ∈ s.sheets, x.part = sh.part → x.id ≠ id → x.irrev ≠ 3))
    ∧ (may → sh.irrev = 3 → sh.patches = [] → ∃ u, exec (.couch id) s = .next u ∧ u.Final sh sh.swm)
    ∧ (may → sh.irrev ≠ 3 → failed → ∃ u, exec (.couch id) s = .next u ∧ u.sheet? id = none
        ∧ u.recState sh.home sh.part sh.rcd = 8 ∧ (∀ e ∈ u.cores, e.2.sh ≠ id) ∧ (∀ p, ∀ v ∈ (u.pkg p).vat, v.sh ≠ id)
        ∧ ∀ j ∈ [0, 1, 2, 3, 6, 7], u.recWord sh.home sh.part sh.rcd (24 + j)
            = (completionWords sh ⟨2, 10, 0, 0, 0, 0, 0, 0⟩ 0 0 0).getD j 0)
    ∧ (may → sh.irrev ≠ 3 → ¬failed → 1 < sh.pkgs.length → ∃ u, exec (.couch id) s = .next u ∧ u.cores = s.cores
        ∧ u.sheet? id = some { sh with state := 7 }
        ∧ u.agenda = s.agenda ++ sh.pkgs.map fun q => ⟨s.ttc, phSeam, some id, .couchPrepare id q⟩)
    ∧ (may → sh.irrev ≠ 3 → ¬failed → sh.pkgs.length ≤ 1 → ∀ v, p.conflict sh = some v → ∃ u sh', exec (.couch id) s = .next u
        ∧ u.sheet? id = some sh' ∧ sh'.state = 7 ∧ (∃ f ∈ sh'.faults, f.cause = cVatConflict ∧ f.d0 = BitVec.ofNat 64 (64 * v.line)
            ∧ f.d2 = BitVec.ofNat 64 (p.lastCommit v.line))
        ∧ ∃ e ∈ u.agenda, e.sh = some id ∧ e.act = .repulp id)
    ∧ (may → sh.irrev ≠ 3 → ¬failed → sh.pkgs.length ≤ 1 → p.conflict sh = none → p.hasRoom id = false → ∃ u, exec (.couch id) s = .next u
        ∧ u.sheet? id = some { sh with state := 7 } ∧ u.cores = s.cores ∧ u.agenda = s.agenda)
    ∧ (may → sh.irrev ≠ 3 → ¬failed → sh.pkgs.length ≤ 1 → p.conflict sh = none → p.hasRoom id = true → sh.patches = [] →
        ((p.linesOf id).map (·.line)).Nodup → (∀ v ∈ p.linesOf id, clear v.line) → ∃ u, exec (.couch id) s = .next u ∧ u.Final sh w ∧ s.Marked u sh.part w
          ∧ (∀ v ∈ p.linesOf id, ⟨sh.part, v.line, w, p.installed v, v.key⟩ ∈ (u.pkg sh.home).versions
              ∧ (w ≤ u.oldest sh.part ∨ (u.pkg sh.home).lastCommit v.line = w))
          ∧ (∀ x ∈ p.versions, clear x.line → x ∈ (u.pkg sh.home).versions)
          ∧ ∃ e ∈ u.agenda, e.act = .placement sh.part)

/-- R248, R249, R306: the words that a couching sheet holds, and the couch that applies the one it holds -/
def Says.CouchWithHeldWords : Prop :=
  ∀ (s : State) (id t : Nat) (sh : Sheet) (h : Held), s.sheet? id = some sh → (∀ p ∈ s.pkgs, p.Canonical) →
    sh.home < s.pkgs.length → s.keepsMarks sh.part → keyPkg h.k < s.pkgs.length →
    let p := s.pkg sh.home
    let pkg := keyPkg h.k
    let free := s.recState pkg sh.part h.rcd = 0 ∨ s.recState pkg sh.part h.rcd = 8
    let away := ∀ v ∈ p.linesOf id, ∀ n ∈ [sh.rcd, h.rcd],
      64 * v.line + 64 ≤ s.recAddr sh.home sh.part n 0 ∨ s.recAddr sh.home sh.part n 32 ≤ 64 * v.line
    let couches := (sh.state = 6 ∨ (sh.state = 7 ∧ sh.pkgs.length ≤ 1)) ∧ s.myTurn sh = true ∧ sh.irrev ≠ 3 ∧ s.depFailed sh = false
      ∧ sh.pkgs.length ≤ 1 ∧ p.conflict sh = none ∧ p.hasRoom id = true
    (free → ∀ v, h.val = some v → s.applyHeld id sh.part h = s.putRec pkg sh.part h.rcd h.field v)
    ∧ (free → h.val = none → s.applyHeld id sh.part h = (s.armRecord pkg sh.part h.rcd).1)
    ∧ (¬free → s.applyHeld id sh.part h = s.updSheet id fun x => { x with pdrop := true })
    ∧ s.applyPatches id = sh.patches.foldl (fun u e => u.applyHeld id sh.part e.2) s
    ∧ (couches → sh.patches = [(t, h)] → away → h.rcd ≠ sh.rcd → ∃ u, exec (.couch id) s = .next u ∧ u.sheet? id = none
        ∧ (free → ∀ v, h.val = some v → h.field < 32 → u.recWord pkg sh.part h.rcd h.field = v
          ∧ (u.recWord sh.home sh.part sh.rcd 24).getLsbD 44 = sh.pdrop)
        ∧ (¬free → (∀ j < 32, u.recWord pkg sh.part h.rcd j = s.recWord pkg sh.part h.rcd j)
          ∧ (u.recWord sh.home sh.part sh.rcd 24).getLsbD 44 = true)
        ∧ (h.val.isSome = true ∨ ¬free → u.Final sh (s.nextMark sh.part)))

/-- Dependence, then arm order within a queue, then the end order the sheet; a sheet whose turn it is is couched at one above the
last watermark, is repulped on a conflict, is refused where a dependence failed, or waits for room; its lines become versions, the
patches and arms that it held are applied and its record is final. That a sheet that has not ended counts after one that has is the
model's reading of R324 (log entry 35). -/
def Obligations.CouchOfASheet : Prop :=
  Says.CouchOrder ∧ Says.Couch ∧ Says.CouchWithHeldWords

/-- R317, R325, R326, R368 -/
def Says.LinesInstalled : Prop :=
  ∀ (p : Package) (v : VLine) (part w b : Nat) (sh : Sheet), p.Canonical → b < 64 →
    let new := p.lineAt v.key v.line none
    let word := fun (l : List Byte) => leNat ((l.drop (4 * (b / 4))).take 4)
    (v.merge = none → (p.installed v).getD b 0 = (Tab.find? b v.bytes).getD (new.getD b 0))
    ∧ (∀ m, v.merge = some m → (∀ e ∈ v.bytes, e.1 / 4 ≠ b / 4) → (p.installed v).getD b 0 = new.getD b 0)
    ∧ (∀ m, v.merge = some m → (∃ e ∈ v.bytes, e.1 / 4 = b / 4) → v.bytes.Pairwise (fun a b => a.1 < b.1) →
        word (p.installed v) = mergeElem m (word new) (leNat ((List.range 4).map fun i => Tab.get 0 v.bytes (4 * (b / 4) + i))))
    ∧ (p.installed v).length = 64
    ∧ (p.conflict sh = none ↔ ∀ v ∈ p.vat, v.sh = sh.id → v.merge = none → p.lastCommit v.line ≤ sh.swm)
    ∧ ((p.versions.all fun u => u.line != v.line || decide (u.w < w)) = true →
        (((p.installLine part w v).readUnder v.key (64 * v.line + b) 1).getD 0 0 = (p.installed v).getD b 0)
        ∧ (v.key = [] → (p.installLine part w v).byteAt (64 * v.line + b) = (p.installed v).getD b 0)
        ∧ ∀ i, i / 64 ≠ v.line → (p.installLine part w v).byteAt i = p.byteAt i)
    ∧ ∀ x y : Nat, x < 2 ^ 32 → y < 2 ^ 32 → mergeElem 0 x y = (fp32.fadd 0 x y).1
        ∧ mergeElem 3 x y = (if signedOf 32 x < signedOf 32 y then y else x)

/-- R328 -/
def Says.TwoPhaseCouch : Prop :=
  ∀ (s : State) (id q : Nat) (sh : Sheet), s.sheet? id = some sh → (∀ p ∈ s.pkgs, p.Canonical) → sh.home < s.pkgs.length →
    s.keepsMarks sh.part →
    let p := s.pkg q
    let asks := sh.state = 7 ∧ (∀ e ∈ sh.prepared, e.1 ≠ q) ∧ sh.decision = none
    let last := sh.prepared.length + 1 = sh.pkgs.length
    let reports := fun (ready : Bool) (f : Option FaultRec) =>
      let t := s.updSheet id fun x => { x with prepared := x.prepared ++ [(q, ready)], vatFaults := x.vatFaults ++ f.toList }
      exec (.couchPrepare id q) s = .next (if last then t.post s.ttc phSeam (some id) (.couchDecide id) else t)
    let all := sh.state = 7 ∧ sh.decision = none ∧ sh.pkgs.length ≤ sh.prepared.length
    let applies := fun (t : State) => sh.pkgs.foldl (fun s q => s.post s.ttc phSeam (some id) (.couchApply id q)) t
    let left := sh.prepared.filter fun e => e.1 != q
    (¬asks → exec (.couchPrepare id q) s = .next s)
    ∧ (asks → ∀ v, p.conflict sh = some v → reports false (some (s.conflictRec sh q v)))
    ∧ (asks → p.conflict sh = none → p.hasRoom id = true → reports true none)
    ∧ (asks → p.conflict sh = none → p.hasRoom id = false → exec (.couchPrepare id q) s = .next s)
    ∧ (¬all → exec (.couchDecide id) s = .next s)
    ∧ (all → (∀ e ∈ sh.prepared, e.2 = true) → exec (.couchDecide id) s = .next (applies
        ((s.setCounter sh.part (s.nextMark sh.part)).updSheet id fun x =>
          { x with decision := some (some (s.nextMark sh.part)) })))
    ∧ (all → (∃ e ∈ sh.prepared, e.2 = false) → exec (.couchDecide id) s
        = .next (applies (s.updSheet id fun x => { x with decision := some none })))
    ∧ (sh.decision = none ∨ (∀ e ∈ sh.prepared, e.1 ≠ q) → exec (.couchApply id q) s = .next s)
    ∧ (∀ w, sh.decision = some (some w) → (∃ e ∈ sh.prepared, e.1 = q) → left ≠ [] → exec (.couchApply id q) s
        = .next ((s.updSheet id fun x => { x with prepared := left }).install sh q w))
    ∧ (∀ w, sh.decision = some (some w) → (∃ e ∈ sh.prepared, e.1 = q) → left = [] → sh.patches = [] → w < 2 ^ 48 →
        ∃ u, exec (.couchApply id q) s = .next u ∧ u.Final sh w
          ∧ ((u.pkg (s.markHome sh.part)).part sh.part).cur.toNat = w)
    ∧ (sh.decision = some none → (∃ e ∈ sh.prepared, e.1 = q) → left ≠ [] → exec (.couchApply id q) s
        = .next (s.updSheet id fun x => { x with prepared := left }))
    ∧ (sh.decision = some none → (∃ e ∈ sh.prepared, e.1 = q) → left = [] → (∃ f ∈ sh.vatFaults, f.pkg ∈ sh.pkgs) →
        ∃ u sh', exec (.couchApply id q) s = .next u ∧ u.sheet? id = some sh' ∧ (∃ e ∈ u.agenda, e.sh = some id ∧ e.act = .repulp id)
          ∧ ∀ p ∈ sh.pkgs, (sh'.stopAt p).isSome = true ∧ (∀ f ∈ sh.vatFaults, f.pkg = p → f ∈ sh'.faults)
            ∧ ((∀ f ∈ sh.vatFaults, f.pkg ≠ p) → ∃ g ∈ sh'.faults, g.pkg = p ∧ g.cause = cPeer
              ∧ ∃ f ∈ sh.vatFaults, g.d0 = BitVec.ofNat 64 (indexOf f.pkg sh.pkgs)))

/-- R315, R319, R323, R327 -/
def Says.DrainsAndIrrevocable : Prop :=
  ∀ (s : State) (id q line w : Nat) (sh : Sheet), s.sheet? id = some sh → (∀ p ∈ s.pkgs, p.Canonical) →
    q < s.pkgs.length → sh.home < s.pkgs.length → s.keepsMarks sh.part →
    let p := s.pkg q
    let freezes := sh.state = 5 ∧ sh.irrev = 1 ∧ sh.held = .none ∧ sh.stops = [] ∧ ∀ f ∈ sh.faults, s.taskOf sh < f.task
    let may := sh.irrev = 2 ∧ sh.held = .inPlace ∧ s.myTurn sh = true
    let h := s.pkg sh.home
    ((∀ v ∈ p.versions, v.line ≠ line ∨ v.w ≠ w) → exec (.vatDrain q line w) s = .next s)
    ∧ (∀ v, p.versions.find? (fun v => v.line == line && v.w == w) = some v →
        (s.oldest v.part < w ∨ (∃ u ∈ p.versions, u.line = line ∧ u.w < w) → exec (.vatDrain q line w) s = .next s)
        ∧ (w ≤ s.oldest v.part → (∀ u ∈ p.versions, u.line = line → w ≤ u.w) → ∃ t, exec (.vatDrain q line w) s = .next t
            ∧ (∀ b < 64, Tab.get 0 (t.pkg q).hbm (64 * line + b) = v.bytes.getD b 0)
            ∧ (∀ a, a / 64 ≠ line → Tab.get 0 (t.pkg q).hbm a = Tab.get 0 p.hbm a)
            ∧ (∀ l, Tab.get [] (t.pkg q).lineKeys l = if l = line then v.key else Tab.get [] p.lineKeys l)
            ∧ (t.pkg q).versions = p.versions.filter (fun u => !(u.line == line && u.w == w))
            ∧ (∀ e ∈ (t.pkg q).filter, e ∈ p.filter ∧ (e.1 = v.part → s.oldest v.part < e.2.2))
            ∧ ((∀ u ∈ p.versions, u.line = line → u.w = w → u = v) → ∀ a, (t.pkg q).byteAt a = p.byteAt a)
            ∧ t.cores = s.cores ∧ (∀ r, r ≠ q → t.pkg r = { s.pkg r with filter := (t.pkg r).filter })
            ∧ t.sheets.map (fun x => { x with past := [] }) = s.sheets.map fun x => { x with past := [] }))
    ∧ (¬freezes → exec (.irrevocableFreeze id) s = .next s)
    ∧ (freezes → ∃ t, exec (.irrevocableFreeze id) s = .next t
        ∧ t.sheet? id = some { sh with
            irrev := 2, held := .inPlace, heldAt := s.ttc
            mhzSum := sh.mhzSum + s.mhz * (s.ttc - sh.t0 - sh.mhzAt), mhzAt := s.ttc - sh.t0 }
        ∧ (∀ e ∈ s.agenda, e.sh ≠ some id → e ∈ t.agenda) ∧ (∀ e ∈ t.agenda, e.sh = some id → e.act = .irrevocableCouch id)
        ∧ t.cores = s.cores ∧ t.pkgs = s.pkgs)
    ∧ (¬may → exec (.irrevocableCouch id) s = .next s)
    ∧ (may → ∀ v, h.conflict sh = some v → ∃ t, exec (.irrevocableCouch id) s = .next t
        ∧ ∃ e ∈ t.agenda, e.sh = some id ∧ e.act = .repulp id)
    ∧ (may → h.conflict sh = none → h.hasRoom id = false → exec (.irrevocableCouch id) s = .next s)
    ∧ (may → h.conflict sh = none → h.hasRoom id = true → ∃ t, exec (.irrevocableCouch id) s = .next t
        ∧ s.Marked t sh.part (s.nextMark sh.part)
        ∧ t.sheet? id = some { sh with
            irrev := 3, swm := s.nextMark sh.part, held := .release
            past := sh.past.map fun y => if ∃ u ∈ y.who, u.1 = id ∧ (u.2 = clsT ∨ u.2 = clsM) then { y with who := none } else y }
        ∧ ∀ v ∈ (t.pkg sh.home).vat, v.sh ≠ id)

/-- An installed line has the sheet's bytes over the newest, merged where its class merges; a couch of several packages
prepares, decides and is applied on each; versions drain in watermark order when the oldest sheet has passed them;
an irrevocable sheet couches in its turn and goes on in place. -/
def Obligations.CouchesOfManyPackages : Prop :=
  Says.LinesInstalled ∧ Says.TwoPhaseCouch ∧ Says.DrainsAndIrrevocable

/-- R18, R330 to R332, R337, R341 -/
def Says.SlotBegins : Prop :=
  ∀ (s : State),
    let n := 4096 * (s.seams + 1)
    let major := n % 1048576 = 0
    let quiet := (∀ e ∈ s.cores, e.2.bad = []) ∧ (∀ sh ∈ s.sheets, sh.victim = none) ∧ ∀ p ∈ s.pkgs,
      p.errors = [] ∧ p.lasting = [] ∧ p.reports = [] ∧ ∀ e ∈ p.parts, e.2.dblk.asks = [] ∧ e.2.dblk.frozen = false
    let inRange := fun (m : Nat) => ∀ sh ∈ s.sheets, 2 ≤ sh.state → sh.state ≤ 7 → recLo sh.words ≤ m ∧ m ≤ recHi sh.words
    (s.slot = none → (∀ p ∈ s.pkgs, p.formed = false) → exec .maintenanceSlot s = .next s)
    ∧ (s.slot = none → (∃ p ∈ s.pkgs, p.formed = true) → ∃ t, exec .maintenanceSlot s = .next t
        ∧ t = { s with ttc := n, agenda := t.agenda, slot := some ⟨n, decide major, if major then 4096 else 256, 0, 0, false⟩ }
        ∧ t.agenda.length = s.agenda.length
        ∧ (∀ e ∈ s.agenda, s.opened n e = true → { e with ttc := n - 1 } ∈ t.agenda)
        ∧ (∀ e ∈ s.agenda, s.opened n e = false → e ∈ t.agenda))
    ∧ (∀ z, s.slot = some z → z.worked = true → exec .maintenanceSlot s = .next s)
    ∧ (∀ z, s.slot = some z → z.worked = false → let n := z.seam; let major := z.major = true
        ∃ t k, exec .maintenanceSlot s = .next t ∧ t.slot = some { z with scan := k, worked := true }
        ∧ t.ttc = n ∧ t.seams = s.seams ∧ t.requests = s.requests ∧ t.pkgs.length = s.pkgs.length
        ∧ (∀ q, (t.pkg q).pcc = (s.pkg q).pcc)
        ∧ (∀ q m, (s.pkg q).Canonical → ((t.pkg q).part m).dbg = (((s.pkg q).part m).dbgNext).getD ((s.pkg q).part m).dbg)
        ∧ (¬major → t.mhz = s.mhz ∧ ∀ q, (t.pkg q).formed = (s.pkg q).formed)
        ∧ (¬major → quiet → t.sheets = s.sheets ∧ t.cores = s.cores ∧ t.agenda = s.agenda
          ∧ (∀ q, (t.pkg q).hbm = (s.pkg q).hbm)
          ∧ k = (if ∃ sh ∈ s.sheets, sh.held = .restore then 168 else 0))
        ∧ (major → (∀ a ∈ s.announced, a.1 ≠ n) → t.mhz = s.mhz)
        ∧ (major → ∀ m r l, s.announced.filter (fun a => a.1 == n) = (n, m, r) :: l → t.mhz = (if inRange m then m else s.mhz))
        ∧ (major → t.leaseReq = [] ∧ ∀ q, (t.pkg q).formed = true → (s.pkg q).formed = true
          ∨ ((s.pkg q).dstate = 1 ∧ ((s.pkg q).dsize = 1 ∨ ∃ y ∈ (s.pkg q).ports, y.2.admitted = true))))

/-- R142, R339, R341, R351 to R354, R377: parts of the work of a slot -/
def Says.WorkOfASlot : Prop :=
  ∀ (s : State) (n q : Nat) (x : Port) (w : W64), q < s.pkgs.length →
    let low := (s.leaseReq.map (·.2.1)).foldl min 65536
    let clamp := s.clocked.foldl (fun m sh => min m (recHi sh.words)) low
    let r := s.clockRange
    let p := s.pkg q
    (s.leaseReq = [] → s.announceLease n = s)
    ∧ (s.leaseReq ≠ [] → (∀ r ∈ s.leaseReq, r.2.1 < 65536) → (∃ sh ∈ s.clocked, clamp < recLo sh.words) →
        s.announceLease n = s.answerLeases 1)
    ∧ (s.leaseReq ≠ [] → (∀ r ∈ s.leaseReq, r.2.1 < 65536) → (∀ sh ∈ s.clocked, recLo sh.words ≤ clamp) → ∃ (u : State) (periods : Nat),
        s.announceLease n = u.answerLeases 0 ∧ (∃ r ∈ s.leaseReq, r.2 = (low, periods))
        ∧ u = { s with announced := (s.announced.filter fun a => decide (a.1 < n + 1048576))
            ++ [(n + 1048576, clamp, false), (n + 1048576 + 1048576 * periods, 1100, false)] })
    ∧ (s.revokeReq = true → s.revokeLease n = { s with
        revokeReq := false
        announced := (s.announced.filter fun a => decide (a.1 < n + 1048576)) ++ [(n + 1048576, 1100, true)] })
    ∧ (s.showLease.pkg q = if p.formed then { p with
        lease := BitVec.ofNat 64 (r.2 % 65536 * 2 ^ 32 + r.1 % 65536 * 2 ^ 16 + s.mhz % 65536) } else p)
    ∧ (x.admitted = true → ∀ mhz, (x.retrain mhz w).skew = w.setWidth 8
        ∧ (x.retrain mhz w).pad = BitVec.ofNat 10 (768 - (x.lat.toNat * mhz + 999999) / 1000000 - 16))
    ∧ (skewOk w = true ↔ -8 ≤ (w.setWidth 8).toInt ∧ (w.setWidth 8).toInt ≤ 8)
    ∧ ∀ (v : Package) (ch : Nat), v.Canonical → ch < 216 →
        let c := ch / 9
        let u := v.retire ch
        ((Tab.get 0 u.cmapBad c).getLsbD (ch % 9) = true) ∧ ch ∉ u.lasting
        ∧ (Tab.get false v.cmapSpu c = true → Tab.get false u.cmapRet c = true ∧ u.cmap c = v.cmap c)
        ∧ (Tab.get false v.cmapSpu c = false → Tab.get false u.cmapSpu c = true ∧ Tab.get false u.cmapRet c = Tab.get false v.cmapRet c
          ∧ ∀ i < 8, let m := (v.cmap c).toNat / 16 ^ i % 16
              (u.cmap c).toNat / 16 ^ i % 16 = if m = ch % 9 then 8 else m)

/-- R333, R334 -/
def Says.HoldUnits : Prop :=
  ∀ (s : State) (c : HoldCause),
    (s.slot = none → exec (.holdUnit c) s = .next s)
    ∧ (∀ z, s.slot = some z → ∃ t, exec (.holdUnit c) s = .next t
        ∧ t.slot = some { z with
            stop := z.stop + 256, exts := if c = .extension then z.exts + 1 else z.exts
            scan := if c = .preemption then z.scan - 1 else z.scan }
        ∧ t.requests = s.requests.filter (fun r => decide (z.stop < r.1 + 128))
        ∧ t.ttc = s.ttc ∧ t.cores = s.cores ∧ (∀ q, (t.pkg q).pcc = (s.pkg q).pcc)
        ∧ t.sheets = s.sheets.map (fun sh => if sh.state = 5 ∧ sh.held ≠ .saved ∧ sh.held ≠ .restore then sh.addUnit c else sh)
        ∧ (c ≠ .debug → t.pkgs = s.pkgs ∧ t.agenda = s.agenda))
    ∧ ∀ sh : Sheet, let u := sh.addUnit c
        u.holds = sh.holds + 256
        ∧ u.hrel = sh.hrel + (if c = .extension ∨ c = .reliability then 1 else 0)
        ∧ u.hcu = sh.hcu + (if c = .current then 1 else 0) ∧ u.hth = sh.hth + (if c = .thermal then 1 else 0)
        ∧ u.hsl = sh.hsl + (if c = .slew then 1 else 0) ∧ u.hcap = sh.hcap + (if c = .powerCap then 1 else 0)
        ∧ u = { sh with holds := u.holds, hrel := u.hrel, hcu := u.hcu, hth := u.hth, hsl := u.hsl, hcap := u.hcap }

/-- R333, R334 -/
def Says.HoldChoice : Prop :=
  ∀ (s : State) (z : Slot) (c : HoldCause),
    let room := z.exts < if z.major then 16 else 1
    let wants := fun (d : HoldCause) => (∃ r ∈ s.requests, r.2 = d ∧ r.1 + 128 ≤ z.stop ∧ (d = .extension → room))
      ∨ (d = .preemption ∧ 0 < z.scan)
      ∨ (d = .debug ∧ ∃ p ∈ s.pkgs, ∃ e ∈ p.parts, e.2.dblk.holds = true)
    let before : HoldCause → Nat := fun d => holdOrder.idxOf d
    (s.nextUnit z = some c → wants c ∧ ∀ d, wants d → before c ≤ before d) ∧ (s.nextUnit z = none → ¬wants c)
    ∧ (s.slot = some z → s.oneStep = match slotDue z s.agenda with
        | some (e, rest) => runAct e.act { s with agenda := rest, ttc := min e.ttc z.seam }
        | none => if z.worked = false then exec .maintenanceSlot s else match s.nextUnit z with
          | some d => exec (.holdUnit d) s
          | none => exec .slotEnd s)
    ∧ (∀ e rest, slotDue z s.agenda = some (e, rest) → e ∈ s.agenda ∧ (∀ f, f ∈ s.agenda ↔ f = e ∨ f ∈ rest)
        ∧ (e.ttc < z.seam ∨ (z.worked = true ∧ e.sh = none ∧ e.ph = phSeam ∧ e.ttc = z.seam)))

/-- R28, R330, R333, R335, R355 -/
def Says.SlotEnds : Prop :=
  ∀ (s : State) (z : Slot), s.slot = some z →
    let late := ∃ till q kind idx, s.action = some (till, q, kind, idx) ∧ z.stop < till
    let pcc := fun (p : Package) => p.pcc + BitVec.ofNat 64 z.stop
    ∃ t, exec .slotEnd s = .next t ∧ t.slot = none ∧ t.ttc = z.seam ∧ t.seams = z.seam / 4096 ∧ t.action = none ∧ t.mhz = s.mhz
      ∧ (∀ o d, (o, d) ∈ t.requests ↔ o = 0 ∧ d ≠ .extension ∧ ∃ r ∈ s.requests, r.2 = d ∧ z.stop < r.1 + 128)
      ∧ (∀ q < s.pkgs.length, (t.pkg q).pcc = pcc (s.pkg q))
      ∧ (¬late → t.sheets = s.sheets ∧ t.cores = s.cores
          ∧ (∀ q < s.pkgs.length, t.pkg q = { (s.pkg q).settle with pcc := pcc (s.pkg q), filter := (t.pkg q).filter })
          ∧ ∀ e ∈ s.agenda, e ∈ t.agenda)
      ∧ (∀ sh ∈ s.sheets, sh.held = .restore ∨ sh.held = .release →
          ∃ e ∈ t.agenda, e.act = .resume sh.id ∧ e.ph = phSeam ∧ e.ttc = z.seam)
      ∧ (∀ sh ∈ s.sheets, sh.sound = true → sh.victim ≠ none →
          ∃ e ∈ t.agenda, e.act = .contextSave sh.id ∧ e.ph = phSeam ∧ e.ttc = z.seam)
      ∧ (∀ till q kind idx, s.action = some (till, q, kind, idx) → z.stop < till → ∀ id sh, s.sheet? id = some sh → sh.state = 5 →
          ∃ sh', t.sheet? id = some sh' ∧ (∃ f ∈ sh'.faults, f.cause = cOverrun ∧ f.d1 = BitVec.ofNat 64 z.seam
              ∧ f.d0 = BitVec.ofNat 64 ((s.pkg q).num.toNat * 2 ^ 53 + kind % 256 * 2 ^ 8 + idx % 256))
            ∧ ∀ p ∈ sh.pkgs, ∃ e ∈ t.agenda, e.act = .peerAbortStop id p ∧ e.ttc = z.seam)

/-- At a seam a slot opens, minor or major, with its announced changes and its work; it is lengthened by agreed units in the stated
order of causes, counted in every running sheet; at its end PCC has advanced by its length, sheets to be resumed or saved are, and
an action that overran raises SLOT_OVERRUN. That a clock out of some sheet's range is not set, and that a newer announcement
replaces an older one for the same seam, is the model's (log entry 38); the order of debug requests is log entry 59. -/
def Obligations.MaintenanceSlots : Prop :=
  Says.SlotBegins ∧ Says.WorkOfASlot ∧ Says.HoldUnits ∧ Says.HoldChoice ∧ Says.SlotEnds
end

