-- ==== Sys2Proof/Laws/State.lean ====
section
/-! SUPPORT. What each update of the state and of a core changes, one lemma per field. -/

namespace Sys2Proof.Machine

@[simp] theorem State.setCore_ttc (s : State) (k : Nat) (c : Core) : (s.setCore k c).ttc = s.ttc := rfl
@[simp] theorem State.setCore_seams (s : State) (k : Nat) (c : Core) : (s.setCore k c).seams = s.seams := rfl
@[simp] theorem State.setCore_slot (s : State) (k : Nat) (c : Core) : (s.setCore k c).slot = s.slot := rfl
@[simp] theorem State.setCore_requests (s : State) (k : Nat) (c : Core) : (s.setCore k c).requests = s.requests := rfl
@[simp] theorem State.setCore_action (s : State) (k : Nat) (c : Core) : (s.setCore k c).action = s.action := rfl
@[simp] theorem State.setCore_mhz (s : State) (k : Nat) (c : Core) : (s.setCore k c).mhz = s.mhz := rfl
@[simp] theorem State.setCore_announced (s : State) (k : Nat) (c : Core) : (s.setCore k c).announced = s.announced := rfl
@[simp] theorem State.setCore_leaseReq (s : State) (k : Nat) (c : Core) : (s.setCore k c).leaseReq = s.leaseReq := rfl
@[simp] theorem State.setCore_revokeReq (s : State) (k : Nat) (c : Core) : (s.setCore k c).revokeReq = s.revokeReq := rfl
@[simp] theorem State.setCore_pkgs (s : State) (k : Nat) (c : Core) : (s.setCore k c).pkgs = s.pkgs := rfl
@[simp] theorem State.setCore_sheets (s : State) (k : Nat) (c : Core) : (s.setCore k c).sheets = s.sheets := rfl
@[simp] theorem State.setCore_cores (s : State) (k : Nat) (c : Core) : (s.setCore k c).cores = Tab.put k c s.cores := rfl
@[simp] theorem State.setCore_frames (s : State) (k : Nat) (c : Core) : (s.setCore k c).frames = s.frames := rfl
@[simp] theorem State.setCore_agenda (s : State) (k : Nat) (c : Core) : (s.setCore k c).agenda = s.agenda := rfl
@[simp] theorem State.setCore_savedEvents (s : State) (k : Nat) (c : Core) : (s.setCore k c).savedEvents = s.savedEvents := rfl
@[simp] theorem State.setCore_savedCores (s : State) (k : Nat) (c : Core) : (s.setCore k c).savedCores = s.savedCores := rfl
@[simp] theorem State.setCore_cur (s : State) (k : Nat) (c : Core) : (s.setCore k c).cur = s.cur := rfl
@[simp] theorem State.setCore_nextSheet (s : State) (k : Nat) (c : Core) : (s.setCore k c).nextSheet = s.nextSheet := rfl
@[simp] theorem State.setCore_placements (s : State) (k : Nat) (c : Core) : (s.setCore k c).placements = s.placements := rfl
@[simp] theorem State.setCore_free (s : State) (k : Nat) (c : Core) : (s.setCore k c).free = s.free := rfl

@[simp] theorem State.updSheet_ttc (s : State) (i : Nat) (f : Sheet → Sheet) : (s.updSheet i f).ttc = s.ttc := rfl
@[simp] theorem State.updSheet_seams (s : State) (i : Nat) (f : Sheet → Sheet) : (s.updSheet i f).seams = s.seams := rfl
@[simp] theorem State.updSheet_slot (s : State) (i : Nat) (f : Sheet → Sheet) : (s.updSheet i f).slot = s.slot := rfl
@[simp] theorem State.updSheet_requests (s : State) (i : Nat) (f : Sheet → Sheet) : (s.updSheet i f).requests = s.requests := rfl
@[simp] theorem State.updSheet_action (s : State) (i : Nat) (f : Sheet → Sheet) : (s.updSheet i f).action = s.action := rfl
@[simp] theorem State.updSheet_mhz (s : State) (i : Nat) (f : Sheet → Sheet) : (s.updSheet i f).mhz = s.mhz := rfl
@[simp] theorem State.updSheet_announced (s : State) (i : Nat) (f : Sheet → Sheet) : (s.updSheet i f).announced = s.announced := rfl
@[simp] theorem State.updSheet_leaseReq (s : State) (i : Nat) (f : Sheet → Sheet) : (s.updSheet i f).leaseReq = s.leaseReq := rfl
@[simp] theorem State.updSheet_revokeReq (s : State) (i : Nat) (f : Sheet → Sheet) : (s.updSheet i f).revokeReq = s.revokeReq := rfl
@[simp] theorem State.updSheet_pkgs (s : State) (i : Nat) (f : Sheet → Sheet) : (s.updSheet i f).pkgs = s.pkgs := rfl
@[simp] theorem State.updSheet_sheets (s : State) (i : Nat) (f : Sheet → Sheet) : (s.updSheet i f).sheets = s.sheets.map fun x => if x.id == i then f x else x := rfl
@[simp] theorem State.updSheet_cores (s : State) (i : Nat) (f : Sheet → Sheet) : (s.updSheet i f).cores = s.cores := rfl
@[simp] theorem State.updSheet_frames (s : State) (i : Nat) (f : Sheet → Sheet) : (s.updSheet i f).frames = s.frames := rfl
@[simp] theorem State.updSheet_agenda (s : State) (i : Nat) (f : Sheet → Sheet) : (s.updSheet i f).agenda = s.agenda := rfl
@[simp] theorem State.updSheet_savedEvents (s : State) (i : Nat) (f : Sheet → Sheet) : (s.updSheet i f).savedEvents = s.savedEvents := rfl
@[simp] theorem State.updSheet_savedCores (s : State) (i : Nat) (f : Sheet → Sheet) : (s.updSheet i f).savedCores = s.savedCores := rfl
@[simp] theorem State.updSheet_cur (s : State) (i : Nat) (f : Sheet → Sheet) : (s.updSheet i f).cur = s.cur := rfl
@[simp] theorem State.updSheet_nextSheet (s : State) (i : Nat) (f : Sheet → Sheet) : (s.updSheet i f).nextSheet = s.nextSheet := rfl
@[simp] theorem State.updSheet_placements (s : State) (i : Nat) (f : Sheet → Sheet) : (s.updSheet i f).placements = s.placements := rfl
@[simp] theorem State.updSheet_free (s : State) (i : Nat) (f : Sheet → Sheet) : (s.updSheet i f).free = s.free := rfl

@[simp] theorem State.updPkg_ttc (s : State) (p : Nat) (f : Package → Package) : (s.updPkg p f).ttc = s.ttc := rfl
@[simp] theorem State.updPkg_seams (s : State) (p : Nat) (f : Package → Package) : (s.updPkg p f).seams = s.seams := rfl
@[simp] theorem State.updPkg_slot (s : State) (p : Nat) (f : Package → Package) : (s.updPkg p f).slot = s.slot := rfl
@[simp] theorem State.updPkg_requests (s : State) (p : Nat) (f : Package → Package) : (s.updPkg p f).requests = s.requests := rfl
@[simp] theorem State.updPkg_action (s : State) (p : Nat) (f : Package → Package) : (s.updPkg p f).action = s.action := rfl
@[simp] theorem State.updPkg_mhz (s : State) (p : Nat) (f : Package → Package) : (s.updPkg p f).mhz = s.mhz := rfl
@[simp] theorem State.updPkg_announced (s : State) (p : Nat) (f : Package → Package) : (s.updPkg p f).announced = s.announced := rfl
@[simp] theorem State.updPkg_leaseReq (s : State) (p : Nat) (f : Package → Package) : (s.updPkg p f).leaseReq = s.leaseReq := rfl
@[simp] theorem State.updPkg_revokeReq (s : State) (p : Nat) (f : Package → Package) : (s.updPkg p f).revokeReq = s.revokeReq := rfl
@[simp] theorem State.updPkg_pkgs (s : State) (p : Nat) (f : Package → Package) : (s.updPkg p f).pkgs = listUpd s.pkgs p f := rfl
@[simp] theorem State.updPkg_sheets (s : State) (p : Nat) (f : Package → Package) : (s.updPkg p f).sheets = s.sheets := rfl
@[simp] theorem State.updPkg_cores (s : State) (p : Nat) (f : Package → Package) : (s.updPkg p f).cores = s.cores := rfl
@[simp] theorem State.updPkg_frames (s : State) (p : Nat) (f : Package → Package) : (s.updPkg p f).frames = s.frames := rfl
@[simp] theorem State.updPkg_agenda (s : State) (p : Nat) (f : Package → Package) : (s.updPkg p f).agenda = s.agenda := rfl
@[simp] theorem State.updPkg_savedEvents (s : State) (p : Nat) (f : Package → Package) : (s.updPkg p f).savedEvents = s.savedEvents := rfl
@[simp] theorem State.updPkg_savedCores (s : State) (p : Nat) (f : Package → Package) : (s.updPkg p f).savedCores = s.savedCores := rfl
@[simp] theorem State.updPkg_cur (s : State) (p : Nat) (f : Package → Package) : (s.updPkg p f).cur = s.cur := rfl
@[simp] theorem State.updPkg_nextSheet (s : State) (p : Nat) (f : Package → Package) : (s.updPkg p f).nextSheet = s.nextSheet := rfl
@[simp] theorem State.updPkg_placements (s : State) (p : Nat) (f : Package → Package) : (s.updPkg p f).placements = s.placements := rfl
@[simp] theorem State.updPkg_free (s : State) (p : Nat) (f : Package → Package) : (s.updPkg p f).free = s.free := rfl

@[simp] theorem State.post_ttc (s : State) (t ph : Nat) (o : Option Nat) (a : Act) : (s.post t ph o a).ttc = s.ttc := rfl
@[simp] theorem State.post_seams (s : State) (t ph : Nat) (o : Option Nat) (a : Act) : (s.post t ph o a).seams = s.seams := rfl
@[simp] theorem State.post_slot (s : State) (t ph : Nat) (o : Option Nat) (a : Act) : (s.post t ph o a).slot = s.slot := rfl
@[simp] theorem State.post_requests (s : State) (t ph : Nat) (o : Option Nat) (a : Act) : (s.post t ph o a).requests = s.requests := rfl
@[simp] theorem State.post_action (s : State) (t ph : Nat) (o : Option Nat) (a : Act) : (s.post t ph o a).action = s.action := rfl
@[simp] theorem State.post_mhz (s : State) (t ph : Nat) (o : Option Nat) (a : Act) : (s.post t ph o a).mhz = s.mhz := rfl
@[simp] theorem State.post_announced (s : State) (t ph : Nat) (o : Option Nat) (a : Act) : (s.post t ph o a).announced = s.announced := rfl
@[simp] theorem State.post_leaseReq (s : State) (t ph : Nat) (o : Option Nat) (a : Act) : (s.post t ph o a).leaseReq = s.leaseReq := rfl
@[simp] theorem State.post_revokeReq (s : State) (t ph : Nat) (o : Option Nat) (a : Act) : (s.post t ph o a).revokeReq = s.revokeReq := rfl
@[simp] theorem State.post_pkgs (s : State) (t ph : Nat) (o : Option Nat) (a : Act) : (s.post t ph o a).pkgs = s.pkgs := rfl
@[simp] theorem State.post_sheets (s : State) (t ph : Nat) (o : Option Nat) (a : Act) : (s.post t ph o a).sheets = s.sheets := rfl
@[simp] theorem State.post_cores (s : State) (t ph : Nat) (o : Option Nat) (a : Act) : (s.post t ph o a).cores = s.cores := rfl
@[simp] theorem State.post_frames (s : State) (t ph : Nat) (o : Option Nat) (a : Act) : (s.post t ph o a).frames = s.frames := rfl
@[simp] theorem State.post_agenda (s : State) (t ph : Nat) (o : Option Nat) (a : Act) : (s.post t ph o a).agenda = s.agenda ++ [{ ttc := t, ph := ph, sh := o, act := a }] := rfl
@[simp] theorem State.post_savedEvents (s : State) (t ph : Nat) (o : Option Nat) (a : Act) : (s.post t ph o a).savedEvents = s.savedEvents := rfl
@[simp] theorem State.post_savedCores (s : State) (t ph : Nat) (o : Option Nat) (a : Act) : (s.post t ph o a).savedCores = s.savedCores := rfl
@[simp] theorem State.post_cur (s : State) (t ph : Nat) (o : Option Nat) (a : Act) : (s.post t ph o a).cur = s.cur := rfl
@[simp] theorem State.post_nextSheet (s : State) (t ph : Nat) (o : Option Nat) (a : Act) : (s.post t ph o a).nextSheet = s.nextSheet := rfl
@[simp] theorem State.post_placements (s : State) (t ph : Nat) (o : Option Nat) (a : Act) : (s.post t ph o a).placements = s.placements := rfl
@[simp] theorem State.post_free (s : State) (t ph : Nat) (o : Option Nat) (a : Act) : (s.post t ph o a).free = s.free := rfl

@[simp] theorem State.postAll_ttc (s : State) (t i : Nat) (evs : List (Nat × Nat × Act)) : (s.postAll t i evs).ttc = s.ttc := rfl
@[simp] theorem State.postAll_seams (s : State) (t i : Nat) (evs : List (Nat × Nat × Act)) : (s.postAll t i evs).seams = s.seams := rfl
@[simp] theorem State.postAll_slot (s : State) (t i : Nat) (evs : List (Nat × Nat × Act)) : (s.postAll t i evs).slot = s.slot := rfl
@[simp] theorem State.postAll_requests (s : State) (t i : Nat) (evs : List (Nat × Nat × Act)) : (s.postAll t i evs).requests = s.requests := rfl
@[simp] theorem State.postAll_action (s : State) (t i : Nat) (evs : List (Nat × Nat × Act)) : (s.postAll t i evs).action = s.action := rfl
@[simp] theorem State.postAll_mhz (s : State) (t i : Nat) (evs : List (Nat × Nat × Act)) : (s.postAll t i evs).mhz = s.mhz := rfl
@[simp] theorem State.postAll_announced (s : State) (t i : Nat) (evs : List (Nat × Nat × Act)) : (s.postAll t i evs).announced = s.announced := rfl
@[simp] theorem State.postAll_leaseReq (s : State) (t i : Nat) (evs : List (Nat × Nat × Act)) : (s.postAll t i evs).leaseReq = s.leaseReq := rfl
@[simp] theorem State.postAll_revokeReq (s : State) (t i : Nat) (evs : List (Nat × Nat × Act)) : (s.postAll t i evs).revokeReq = s.revokeReq := rfl
@[simp] theorem State.postAll_pkgs (s : State) (t i : Nat) (evs : List (Nat × Nat × Act)) : (s.postAll t i evs).pkgs = s.pkgs := rfl
@[simp] theorem State.postAll_sheets (s : State) (t i : Nat) (evs : List (Nat × Nat × Act)) : (s.postAll t i evs).sheets = s.sheets := rfl
@[simp] theorem State.postAll_cores (s : State) (t i : Nat) (evs : List (Nat × Nat × Act)) : (s.postAll t i evs).cores = s.cores := rfl
@[simp] theorem State.postAll_frames (s : State) (t i : Nat) (evs : List (Nat × Nat × Act)) : (s.postAll t i evs).frames = s.frames := rfl
@[simp] theorem State.postAll_agenda (s : State) (t i : Nat) (evs : List (Nat × Nat × Act)) : (s.postAll t i evs).agenda = s.agenda ++ evs.map fun e => { ttc := t + e.1, ph := e.2.1, sh := some i, act := e.2.2 } := rfl
@[simp] theorem State.postAll_savedEvents (s : State) (t i : Nat) (evs : List (Nat × Nat × Act)) : (s.postAll t i evs).savedEvents = s.savedEvents := rfl
@[simp] theorem State.postAll_savedCores (s : State) (t i : Nat) (evs : List (Nat × Nat × Act)) : (s.postAll t i evs).savedCores = s.savedCores := rfl
@[simp] theorem State.postAll_cur (s : State) (t i : Nat) (evs : List (Nat × Nat × Act)) : (s.postAll t i evs).cur = s.cur := rfl
@[simp] theorem State.postAll_nextSheet (s : State) (t i : Nat) (evs : List (Nat × Nat × Act)) : (s.postAll t i evs).nextSheet = s.nextSheet := rfl
@[simp] theorem State.postAll_placements (s : State) (t i : Nat) (evs : List (Nat × Nat × Act)) : (s.postAll t i evs).placements = s.placements := rfl
@[simp] theorem State.postAll_free (s : State) (t i : Nat) (evs : List (Nat × Nat × Act)) : (s.postAll t i evs).free = s.free := rfl

@[simp] theorem State.spend_ttc (s : State) (n : Nat) : (s.spend n).ttc = s.ttc := rfl
@[simp] theorem State.spend_seams (s : State) (n : Nat) : (s.spend n).seams = s.seams := rfl
@[simp] theorem State.spend_slot (s : State) (n : Nat) : (s.spend n).slot = s.slot := rfl
@[simp] theorem State.spend_requests (s : State) (n : Nat) : (s.spend n).requests = s.requests := rfl
@[simp] theorem State.spend_action (s : State) (n : Nat) : (s.spend n).action = s.action := rfl
@[simp] theorem State.spend_mhz (s : State) (n : Nat) : (s.spend n).mhz = s.mhz := rfl
@[simp] theorem State.spend_announced (s : State) (n : Nat) : (s.spend n).announced = s.announced := rfl
@[simp] theorem State.spend_leaseReq (s : State) (n : Nat) : (s.spend n).leaseReq = s.leaseReq := rfl
@[simp] theorem State.spend_revokeReq (s : State) (n : Nat) : (s.spend n).revokeReq = s.revokeReq := rfl
@[simp] theorem State.spend_pkgs (s : State) (n : Nat) : (s.spend n).pkgs = s.pkgs := rfl
@[simp] theorem State.spend_sheets (s : State) (n : Nat) : (s.spend n).sheets = s.sheets := rfl
@[simp] theorem State.spend_cores (s : State) (n : Nat) : (s.spend n).cores = s.cores := rfl
@[simp] theorem State.spend_frames (s : State) (n : Nat) : (s.spend n).frames = s.frames := rfl
@[simp] theorem State.spend_agenda (s : State) (n : Nat) : (s.spend n).agenda = s.agenda := rfl
@[simp] theorem State.spend_savedEvents (s : State) (n : Nat) : (s.spend n).savedEvents = s.savedEvents := rfl
@[simp] theorem State.spend_savedCores (s : State) (n : Nat) : (s.spend n).savedCores = s.savedCores := rfl
@[simp] theorem State.spend_cur (s : State) (n : Nat) : (s.spend n).cur = s.cur := rfl
@[simp] theorem State.spend_nextSheet (s : State) (n : Nat) : (s.spend n).nextSheet = s.nextSheet := rfl
@[simp] theorem State.spend_placements (s : State) (n : Nat) : (s.spend n).placements = s.placements := rfl
@[simp] theorem State.spend_free (s : State) (n : Nat) : (s.spend n).free = s.free + n := rfl

@[simp] theorem State.updPkg_core? (s : State) (p : Nat) (f : Package → Package) (k : Nat) : (s.updPkg p f).core? k = s.core? k := rfl
@[simp] theorem State.updSheet_core? (s : State) (i : Nat) (f : Sheet → Sheet) (k : Nat) : (s.updSheet i f).core? k = s.core? k := rfl
@[simp] theorem State.post_core? (s : State) (t ph : Nat) (o : Option Nat) (a : Act) (k : Nat) : (s.post t ph o a).core? k = s.core? k := rfl
@[simp] theorem State.setCore_sheet? (s : State) (k : Nat) (c : Core) (i : Nat) : (s.setCore k c).sheet? i = s.sheet? i := rfl
@[simp] theorem State.updPkg_sheet? (s : State) (p : Nat) (f : Package → Package) (i : Nat) : (s.updPkg p f).sheet? i = s.sheet? i := rfl
@[simp] theorem State.post_sheet? (s : State) (t ph : Nat) (o : Option Nat) (a : Act) (i : Nat) : (s.post t ph o a).sheet? i = s.sheet? i := rfl
@[simp] theorem State.postAll_sheet? (s : State) (t j : Nat) (evs : List (Nat × Nat × Act)) (i : Nat) : (s.postAll t j evs).sheet? i = s.sheet? i := rfl

@[simp] theorem Core.claim_sh (c : Core) (x : Ctx) (ws : List ((Nat × Nat) × Nat)) : (c.claim x ws).sh = c.sh := rfl
@[simp] theorem Core.claim_rank (c : Core) (x : Ctx) (ws : List ((Nat × Nat) × Nat)) : (c.claim x ws).rank = c.rank := rfl
@[simp] theorem Core.claim_prank (c : Core) (x : Ctx) (ws : List ((Nat × Nat) × Nat)) : (c.claim x ws).prank = c.prank := rfl
@[simp] theorem Core.claim_s (c : Core) (x : Ctx) (ws : List ((Nat × Nat) × Nat)) : (c.claim x ws).s = c.s := rfl
@[simp] theorem Core.claim_p (c : Core) (x : Ctx) (ws : List ((Nat × Nat) × Nat)) : (c.claim x ws).p = c.p := rfl
@[simp] theorem Core.claim_q (c : Core) (x : Ctx) (ws : List ((Nat × Nat) × Nat)) : (c.claim x ws).q = c.q := rfl
@[simp] theorem Core.claim_v (c : Core) (x : Ctx) (ws : List ((Nat × Nat) × Nat)) : (c.claim x ws).v = c.v := rfl
@[simp] theorem Core.claim_fwd (c : Core) (x : Ctx) (ws : List ((Nat × Nat) × Nat)) : (c.claim x ws).fwd = c.fwd := rfl
@[simp] theorem Core.claim_acc (c : Core) (x : Ctx) (ws : List ((Nat × Nat) × Nat)) : (c.claim x ws).acc = c.acc := rfl
@[simp] theorem Core.claim_bound (c : Core) (x : Ctx) (ws : List ((Nat × Nat) × Nat)) : (c.claim x ws).bound = c.bound := rfl
@[simp] theorem Core.claim_cover (c : Core) (x : Ctx) (ws : List ((Nat × Nat) × Nat)) : (c.claim x ws).cover = c.cover := rfl
@[simp] theorem Core.claim_mask (c : Core) (x : Ctx) (ws : List ((Nat × Nat) × Nat)) : (c.claim x ws).mask = c.mask := rfl
@[simp] theorem Core.claim_cbank (c : Core) (x : Ctx) (ws : List ((Nat × Nat) × Nat)) : (c.claim x ws).cbank = c.cbank := rfl
@[simp] theorem Core.claim_sem (c : Core) (x : Ctx) (ws : List ((Nat × Nat) × Nat)) : (c.claim x ws).sem = c.sem := rfl
@[simp] theorem Core.claim_spad (c : Core) (x : Ctx) (ws : List ((Nat × Nat) × Nat)) : (c.claim x ws).spad = c.spad := rfl
@[simp] theorem Core.claim_tags (c : Core) (x : Ctx) (ws : List ((Nat × Nat) × Nat)) : (c.claim x ws).tags = c.tags := rfl
@[simp] theorem Core.claim_rings (c : Core) (x : Ctx) (ws : List ((Nat × Nat) × Nat)) : (c.claim x ws).rings = c.rings := rfl
@[simp] theorem Core.claim_bfmt (c : Core) (x : Ctx) (ws : List ((Nat × Nat) × Nat)) : (c.claim x ws).bfmt = c.bfmt := rfl
@[simp] theorem Core.claim_bcb (c : Core) (x : Ctx) (ws : List ((Nat × Nat) × Nat)) : (c.claim x ws).bcb = c.bcb := rfl
@[simp] theorem Core.claim_fflags (c : Core) (x : Ctx) (ws : List ((Nat × Nat) × Nat)) : (c.claim x ws).fflags = c.fflags := rfl
@[simp] theorem Core.claim_fset (c : Core) (x : Ctx) (ws : List ((Nat × Nat) × Nat)) : (c.claim x ws).fset = c.fset := rfl
@[simp] theorem Core.claim_fcyc (c : Core) (x : Ctx) (ws : List ((Nat × Nat) × Nat)) : (c.claim x ws).fcyc = c.fcyc := rfl
@[simp] theorem Core.claim_shape (c : Core) (x : Ctx) (ws : List ((Nat × Nat) × Nat)) : (c.claim x ws).shape = c.shape := rfl
@[simp] theorem Core.claim_rot (c : Core) (x : Ctx) (ws : List ((Nat × Nat) × Nat)) : (c.claim x ws).rot = c.rot := rfl
@[simp] theorem Core.claim_base (c : Core) (x : Ctx) (ws : List ((Nat × Nat) × Nat)) : (c.claim x ws).base = c.base := rfl
@[simp] theorem Core.claim_lin (c : Core) (x : Ctx) (ws : List ((Nat × Nat) × Nat)) : (c.claim x ws).lin = c.lin := rfl
@[simp] theorem Core.claim_gang (c : Core) (x : Ctx) (ws : List ((Nat × Nat) × Nat)) : (c.claim x ws).gang = c.gang := rfl
@[simp] theorem Core.claim_cols (c : Core) (x : Ctx) (ws : List ((Nat × Nat) × Nat)) : (c.claim x ws).cols = c.cols := rfl
@[simp] theorem Core.claim_own (c : Core) (x : Ctx) (ws : List ((Nat × Nat) × Nat)) : (c.claim x ws).own = c.own := rfl
@[simp] theorem Core.claim_occ (c : Core) (x : Ctx) (ws : List ((Nat × Nat) × Nat)) : (c.claim x ws).occ = c.occ := rfl
@[simp] theorem Core.claim_ports (c : Core) (x : Ctx) (ws : List ((Nat × Nat) × Nat)) : (c.claim x ws).ports = c.ports := rfl
@[simp] theorem Core.claim_cuts (c : Core) (x : Ctx) (ws : List ((Nat × Nat) × Nat)) : (c.claim x ws).cuts = c.cuts := rfl
@[simp] theorem Core.claim_wp (c : Core) (x : Ctx) (ws : List ((Nat × Nat) × Nat)) : (c.claim x ws).wp = c.wp := rfl
@[simp] theorem Core.claim_rmw (c : Core) (x : Ctx) (ws : List ((Nat × Nat) × Nat)) : (c.claim x ws).rmw = c.rmw := rfl
@[simp] theorem Core.claim_acc1 (c : Core) (x : Ctx) (ws : List ((Nat × Nat) × Nat)) : (c.claim x ws).acc1 = c.acc1 := rfl
@[simp] theorem Core.claim_wlast (c : Core) (x : Ctx) (ws : List ((Nat × Nat) × Nat)) : (c.claim x ws).wlast = c.wlast := rfl
@[simp] theorem Core.claim_array (c : Core) (x : Ctx) (ws : List ((Nat × Nat) × Nat)) : (c.claim x ws).array = c.array := rfl
@[simp] theorem Core.claim_walker (c : Core) (x : Ctx) (ws : List ((Nat × Nat) × Nat)) : (c.claim x ws).walker = c.walker := rfl
@[simp] theorem Core.claim_weaveEnd (c : Core) (x : Ctx) (ws : List ((Nat × Nat) × Nat)) : (c.claim x ws).weaveEnd = c.weaveEnd := rfl
@[simp] theorem Core.claim_copyEnd (c : Core) (x : Ctx) (ws : List ((Nat × Nat) × Nat)) : (c.claim x ws).copyEnd = c.copyEnd := rfl
@[simp] theorem Core.claim_copyBuf (c : Core) (x : Ctx) (ws : List ((Nat × Nat) × Nat)) : (c.claim x ws).copyBuf = c.copyBuf := rfl
@[simp] theorem Core.claim_copyBad (c : Core) (x : Ctx) (ws : List ((Nat × Nat) × Nat)) : (c.claim x ws).copyBad = c.copyBad := rfl
@[simp] theorem Core.claim_screen (c : Core) (x : Ctx) (ws : List ((Nat × Nat) × Nat)) : (c.claim x ws).screen = c.screen := rfl
@[simp] theorem Core.claim_pbanks (c : Core) (x : Ctx) (ws : List ((Nat × Nat) × Nat)) : (c.claim x ws).pbanks = c.pbanks := rfl
@[simp] theorem Core.claim_ptags (c : Core) (x : Ctx) (ws : List ((Nat × Nat) × Nat)) : (c.claim x ws).ptags = c.ptags := rfl
@[simp] theorem Core.claim_phand (c : Core) (x : Ctx) (ws : List ((Nat × Nat) × Nat)) : (c.claim x ws).phand = c.phand := rfl
@[simp] theorem Core.claim_bad (c : Core) (x : Ctx) (ws : List ((Nat × Nat) × Nat)) : (c.claim x ws).bad = c.bad := rfl
@[simp] theorem Core.claim_ill (c : Core) (x : Ctx) (ws : List ((Nat × Nat) × Nat)) : (c.claim x ws).ill = c.ill := rfl

@[simp] theorem Core.setSem_sh (c : Core) (b : Nat) (m : Sem) : (c.setSem b m).sh = c.sh := rfl
@[simp] theorem Core.setSem_rank (c : Core) (b : Nat) (m : Sem) : (c.setSem b m).rank = c.rank := rfl
@[simp] theorem Core.setSem_prank (c : Core) (b : Nat) (m : Sem) : (c.setSem b m).prank = c.prank := rfl
@[simp] theorem Core.setSem_s (c : Core) (b : Nat) (m : Sem) : (c.setSem b m).s = c.s := rfl
@[simp] theorem Core.setSem_p (c : Core) (b : Nat) (m : Sem) : (c.setSem b m).p = c.p := rfl
@[simp] theorem Core.setSem_q (c : Core) (b : Nat) (m : Sem) : (c.setSem b m).q = c.q := rfl
@[simp] theorem Core.setSem_v (c : Core) (b : Nat) (m : Sem) : (c.setSem b m).v = c.v := rfl
@[simp] theorem Core.setSem_fwd (c : Core) (b : Nat) (m : Sem) : (c.setSem b m).fwd = c.fwd := rfl
@[simp] theorem Core.setSem_acc (c : Core) (b : Nat) (m : Sem) : (c.setSem b m).acc = c.acc := rfl
@[simp] theorem Core.setSem_bound (c : Core) (b : Nat) (m : Sem) : (c.setSem b m).bound = c.bound := rfl
@[simp] theorem Core.setSem_cover (c : Core) (b : Nat) (m : Sem) : (c.setSem b m).cover = c.cover := rfl
@[simp] theorem Core.setSem_mask (c : Core) (b : Nat) (m : Sem) : (c.setSem b m).mask = c.mask := rfl
@[simp] theorem Core.setSem_cbank (c : Core) (b : Nat) (m : Sem) : (c.setSem b m).cbank = c.cbank := rfl
@[simp] theorem Core.setSem_spad (c : Core) (b : Nat) (m : Sem) : (c.setSem b m).spad = c.spad := rfl
@[simp] theorem Core.setSem_tags (c : Core) (b : Nat) (m : Sem) : (c.setSem b m).tags = c.tags := rfl
@[simp] theorem Core.setSem_rings (c : Core) (b : Nat) (m : Sem) : (c.setSem b m).rings = c.rings := rfl
@[simp] theorem Core.setSem_bfmt (c : Core) (b : Nat) (m : Sem) : (c.setSem b m).bfmt = c.bfmt := rfl
@[simp] theorem Core.setSem_bcb (c : Core) (b : Nat) (m : Sem) : (c.setSem b m).bcb = c.bcb := rfl
@[simp] theorem Core.setSem_fflags (c : Core) (b : Nat) (m : Sem) : (c.setSem b m).fflags = c.fflags := rfl
@[simp] theorem Core.setSem_fset (c : Core) (b : Nat) (m : Sem) : (c.setSem b m).fset = c.fset := rfl
@[simp] theorem Core.setSem_fcyc (c : Core) (b : Nat) (m : Sem) : (c.setSem b m).fcyc = c.fcyc := rfl
@[simp] theorem Core.setSem_shape (c : Core) (b : Nat) (m : Sem) : (c.setSem b m).shape = c.shape := rfl
@[simp] theorem Core.setSem_rot (c : Core) (b : Nat) (m : Sem) : (c.setSem b m).rot = c.rot := rfl
@[simp] theorem Core.setSem_base (c : Core) (b : Nat) (m : Sem) : (c.setSem b m).base = c.base := rfl
@[simp] theorem Core.setSem_lin (c : Core) (b : Nat) (m : Sem) : (c.setSem b m).lin = c.lin := rfl
@[simp] theorem Core.setSem_gang (c : Core) (b : Nat) (m : Sem) : (c.setSem b m).gang = c.gang := rfl
@[simp] theorem Core.setSem_cols (c : Core) (b : Nat) (m : Sem) : (c.setSem b m).cols = c.cols := rfl
@[simp] theorem Core.setSem_board (c : Core) (b : Nat) (m : Sem) : (c.setSem b m).board = c.board := rfl
@[simp] theorem Core.setSem_own (c : Core) (b : Nat) (m : Sem) : (c.setSem b m).own = c.own := rfl
@[simp] theorem Core.setSem_occ (c : Core) (b : Nat) (m : Sem) : (c.setSem b m).occ = c.occ := rfl
@[simp] theorem Core.setSem_ports (c : Core) (b : Nat) (m : Sem) : (c.setSem b m).ports = c.ports := rfl
@[simp] theorem Core.setSem_cuts (c : Core) (b : Nat) (m : Sem) : (c.setSem b m).cuts = c.cuts := rfl
@[simp] theorem Core.setSem_wp (c : Core) (b : Nat) (m : Sem) : (c.setSem b m).wp = c.wp := rfl
@[simp] theorem Core.setSem_rmw (c : Core) (b : Nat) (m : Sem) : (c.setSem b m).rmw = c.rmw := rfl
@[simp] theorem Core.setSem_acc1 (c : Core) (b : Nat) (m : Sem) : (c.setSem b m).acc1 = c.acc1 := rfl
@[simp] theorem Core.setSem_wlast (c : Core) (b : Nat) (m : Sem) : (c.setSem b m).wlast = c.wlast := rfl
@[simp] theorem Core.setSem_array (c : Core) (b : Nat) (m : Sem) : (c.setSem b m).array = c.array := rfl
@[simp] theorem Core.setSem_walker (c : Core) (b : Nat) (m : Sem) : (c.setSem b m).walker = c.walker := rfl
@[simp] theorem Core.setSem_weaveEnd (c : Core) (b : Nat) (m : Sem) : (c.setSem b m).weaveEnd = c.weaveEnd := rfl
@[simp] theorem Core.setSem_copyEnd (c : Core) (b : Nat) (m : Sem) : (c.setSem b m).copyEnd = c.copyEnd := rfl
@[simp] theorem Core.setSem_copyBuf (c : Core) (b : Nat) (m : Sem) : (c.setSem b m).copyBuf = c.copyBuf := rfl
@[simp] theorem Core.setSem_copyBad (c : Core) (b : Nat) (m : Sem) : (c.setSem b m).copyBad = c.copyBad := rfl
@[simp] theorem Core.setSem_screen (c : Core) (b : Nat) (m : Sem) : (c.setSem b m).screen = c.screen := rfl
@[simp] theorem Core.setSem_pbanks (c : Core) (b : Nat) (m : Sem) : (c.setSem b m).pbanks = c.pbanks := rfl
@[simp] theorem Core.setSem_ptags (c : Core) (b : Nat) (m : Sem) : (c.setSem b m).ptags = c.ptags := rfl
@[simp] theorem Core.setSem_phand (c : Core) (b : Nat) (m : Sem) : (c.setSem b m).phand = c.phand := rfl
@[simp] theorem Core.setSem_bad (c : Core) (b : Nat) (m : Sem) : (c.setSem b m).bad = c.bad := rfl
@[simp] theorem Core.setSem_ill (c : Core) (b : Nat) (m : Sem) : (c.setSem b m).ill = c.ill := rfl

@[simp] theorem Core.hold_sh (c : Core) (x : Ctx) (rs : List Nat) (last : Nat) : (c.hold x rs last).sh = c.sh := rfl
@[simp] theorem Core.hold_rank (c : Core) (x : Ctx) (rs : List Nat) (last : Nat) : (c.hold x rs last).rank = c.rank := rfl
@[simp] theorem Core.hold_prank (c : Core) (x : Ctx) (rs : List Nat) (last : Nat) : (c.hold x rs last).prank = c.prank := rfl
@[simp] theorem Core.hold_s (c : Core) (x : Ctx) (rs : List Nat) (last : Nat) : (c.hold x rs last).s = c.s := rfl
@[simp] theorem Core.hold_p (c : Core) (x : Ctx) (rs : List Nat) (last : Nat) : (c.hold x rs last).p = c.p := rfl
@[simp] theorem Core.hold_q (c : Core) (x : Ctx) (rs : List Nat) (last : Nat) : (c.hold x rs last).q = c.q := rfl
@[simp] theorem Core.hold_v (c : Core) (x : Ctx) (rs : List Nat) (last : Nat) : (c.hold x rs last).v = c.v := rfl
@[simp] theorem Core.hold_fwd (c : Core) (x : Ctx) (rs : List Nat) (last : Nat) : (c.hold x rs last).fwd = c.fwd := rfl
@[simp] theorem Core.hold_acc (c : Core) (x : Ctx) (rs : List Nat) (last : Nat) : (c.hold x rs last).acc = c.acc := rfl
@[simp] theorem Core.hold_bound (c : Core) (x : Ctx) (rs : List Nat) (last : Nat) : (c.hold x rs last).bound = c.bound := rfl
@[simp] theorem Core.hold_cover (c : Core) (x : Ctx) (rs : List Nat) (last : Nat) : (c.hold x rs last).cover = c.cover := rfl
@[simp] theorem Core.hold_mask (c : Core) (x : Ctx) (rs : List Nat) (last : Nat) : (c.hold x rs last).mask = c.mask := rfl
@[simp] theorem Core.hold_cbank (c : Core) (x : Ctx) (rs : List Nat) (last : Nat) : (c.hold x rs last).cbank = c.cbank := rfl
@[simp] theorem Core.hold_sem (c : Core) (x : Ctx) (rs : List Nat) (last : Nat) : (c.hold x rs last).sem = c.sem := rfl
@[simp] theorem Core.hold_spad (c : Core) (x : Ctx) (rs : List Nat) (last : Nat) : (c.hold x rs last).spad = c.spad := rfl
@[simp] theorem Core.hold_tags (c : Core) (x : Ctx) (rs : List Nat) (last : Nat) : (c.hold x rs last).tags = c.tags := rfl
@[simp] theorem Core.hold_rings (c : Core) (x : Ctx) (rs : List Nat) (last : Nat) : (c.hold x rs last).rings = c.rings := rfl
@[simp] theorem Core.hold_bfmt (c : Core) (x : Ctx) (rs : List Nat) (last : Nat) : (c.hold x rs last).bfmt = c.bfmt := rfl
@[simp] theorem Core.hold_bcb (c : Core) (x : Ctx) (rs : List Nat) (last : Nat) : (c.hold x rs last).bcb = c.bcb := rfl
@[simp] theorem Core.hold_fflags (c : Core) (x : Ctx) (rs : List Nat) (last : Nat) : (c.hold x rs last).fflags = c.fflags := rfl
@[simp] theorem Core.hold_fset (c : Core) (x : Ctx) (rs : List Nat) (last : Nat) : (c.hold x rs last).fset = c.fset := rfl
@[simp] theorem Core.hold_fcyc (c : Core) (x : Ctx) (rs : List Nat) (last : Nat) : (c.hold x rs last).fcyc = c.fcyc := rfl
@[simp] theorem Core.hold_shape (c : Core) (x : Ctx) (rs : List Nat) (last : Nat) : (c.hold x rs last).shape = c.shape := rfl
@[simp] theorem Core.hold_rot (c : Core) (x : Ctx) (rs : List Nat) (last : Nat) : (c.hold x rs last).rot = c.rot := rfl
@[simp] theorem Core.hold_base (c : Core) (x : Ctx) (rs : List Nat) (last : Nat) : (c.hold x rs last).base = c.base := rfl
@[simp] theorem Core.hold_lin (c : Core) (x : Ctx) (rs : List Nat) (last : Nat) : (c.hold x rs last).lin = c.lin := rfl
@[simp] theorem Core.hold_gang (c : Core) (x : Ctx) (rs : List Nat) (last : Nat) : (c.hold x rs last).gang = c.gang := rfl
@[simp] theorem Core.hold_cols (c : Core) (x : Ctx) (rs : List Nat) (last : Nat) : (c.hold x rs last).cols = c.cols := rfl
@[simp] theorem Core.hold_board (c : Core) (x : Ctx) (rs : List Nat) (last : Nat) : (c.hold x rs last).board = c.board := rfl
@[simp] theorem Core.hold_occ (c : Core) (x : Ctx) (rs : List Nat) (last : Nat) : (c.hold x rs last).occ = c.occ := rfl
@[simp] theorem Core.hold_ports (c : Core) (x : Ctx) (rs : List Nat) (last : Nat) : (c.hold x rs last).ports = c.ports := rfl
@[simp] theorem Core.hold_cuts (c : Core) (x : Ctx) (rs : List Nat) (last : Nat) : (c.hold x rs last).cuts = c.cuts := rfl
@[simp] theorem Core.hold_wp (c : Core) (x : Ctx) (rs : List Nat) (last : Nat) : (c.hold x rs last).wp = c.wp := rfl
@[simp] theorem Core.hold_rmw (c : Core) (x : Ctx) (rs : List Nat) (last : Nat) : (c.hold x rs last).rmw = c.rmw := rfl
@[simp] theorem Core.hold_acc1 (c : Core) (x : Ctx) (rs : List Nat) (last : Nat) : (c.hold x rs last).acc1 = c.acc1 := rfl
@[simp] theorem Core.hold_wlast (c : Core) (x : Ctx) (rs : List Nat) (last : Nat) : (c.hold x rs last).wlast = c.wlast := rfl
@[simp] theorem Core.hold_array (c : Core) (x : Ctx) (rs : List Nat) (last : Nat) : (c.hold x rs last).array = c.array := rfl
@[simp] theorem Core.hold_walker (c : Core) (x : Ctx) (rs : List Nat) (last : Nat) : (c.hold x rs last).walker = c.walker := rfl
@[simp] theorem Core.hold_weaveEnd (c : Core) (x : Ctx) (rs : List Nat) (last : Nat) : (c.hold x rs last).weaveEnd = c.weaveEnd := rfl
@[simp] theorem Core.hold_copyEnd (c : Core) (x : Ctx) (rs : List Nat) (last : Nat) : (c.hold x rs last).copyEnd = c.copyEnd := rfl
@[simp] theorem Core.hold_copyBuf (c : Core) (x : Ctx) (rs : List Nat) (last : Nat) : (c.hold x rs last).copyBuf = c.copyBuf := rfl
@[simp] theorem Core.hold_copyBad (c : Core) (x : Ctx) (rs : List Nat) (last : Nat) : (c.hold x rs last).copyBad = c.copyBad := rfl
@[simp] theorem Core.hold_screen (c : Core) (x : Ctx) (rs : List Nat) (last : Nat) : (c.hold x rs last).screen = c.screen := rfl
@[simp] theorem Core.hold_pbanks (c : Core) (x : Ctx) (rs : List Nat) (last : Nat) : (c.hold x rs last).pbanks = c.pbanks := rfl
@[simp] theorem Core.hold_ptags (c : Core) (x : Ctx) (rs : List Nat) (last : Nat) : (c.hold x rs last).ptags = c.ptags := rfl
@[simp] theorem Core.hold_phand (c : Core) (x : Ctx) (rs : List Nat) (last : Nat) : (c.hold x rs last).phand = c.phand := rfl
@[simp] theorem Core.hold_bad (c : Core) (x : Ctx) (rs : List Nat) (last : Nat) : (c.hold x rs last).bad = c.bad := rfl
@[simp] theorem Core.hold_ill (c : Core) (x : Ctx) (rs : List Nat) (last : Nat) : (c.hold x rs last).ill = c.ill := rfl

@[simp] theorem Core.sset_sh (c : Core) (n : Nat) (v : W64) : (c.sset n v).sh = c.sh := by unfold Core.sset; split <;> rfl
@[simp] theorem Core.sset_rank (c : Core) (n : Nat) (v : W64) : (c.sset n v).rank = c.rank := by unfold Core.sset; split <;> rfl
@[simp] theorem Core.sset_prank (c : Core) (n : Nat) (v : W64) : (c.sset n v).prank = c.prank := by unfold Core.sset; split <;> rfl
@[simp] theorem Core.sset_p (c : Core) (n : Nat) (v : W64) : (c.sset n v).p = c.p := by unfold Core.sset; split <;> rfl
@[simp] theorem Core.sset_q (c : Core) (n : Nat) (v : W64) : (c.sset n v).q = c.q := by unfold Core.sset; split <;> rfl
@[simp] theorem Core.sset_v (c : Core) (n : Nat) (v : W64) : (c.sset n v).v = c.v := by unfold Core.sset; split <;> rfl
@[simp] theorem Core.sset_fwd (c : Core) (n : Nat) (v : W64) : (c.sset n v).fwd = c.fwd := by unfold Core.sset; split <;> rfl
@[simp] theorem Core.sset_acc (c : Core) (n : Nat) (v : W64) : (c.sset n v).acc = c.acc := by unfold Core.sset; split <;> rfl
@[simp] theorem Core.sset_bound (c : Core) (n : Nat) (v : W64) : (c.sset n v).bound = c.bound := by unfold Core.sset; split <;> rfl
@[simp] theorem Core.sset_cover (c : Core) (n : Nat) (v : W64) : (c.sset n v).cover = c.cover := by unfold Core.sset; split <;> rfl
@[simp] theorem Core.sset_mask (c : Core) (n : Nat) (v : W64) : (c.sset n v).mask = c.mask := by unfold Core.sset; split <;> rfl
@[simp] theorem Core.sset_cbank (c : Core) (n : Nat) (v : W64) : (c.sset n v).cbank = c.cbank := by unfold Core.sset; split <;> rfl
@[simp] theorem Core.sset_sem (c : Core) (n : Nat) (v : W64) : (c.sset n v).sem = c.sem := by unfold Core.sset; split <;> rfl
@[simp] theorem Core.sset_spad (c : Core) (n : Nat) (v : W64) : (c.sset n v).spad = c.spad := by unfold Core.sset; split <;> rfl
@[simp] theorem Core.sset_tags (c : Core) (n : Nat) (v : W64) : (c.sset n v).tags = c.tags := by unfold Core.sset; split <;> rfl
@[simp] theorem Core.sset_rings (c : Core) (n : Nat) (v : W64) : (c.sset n v).rings = c.rings := by unfold Core.sset; split <;> rfl
@[simp] theorem Core.sset_bfmt (c : Core) (n : Nat) (v : W64) : (c.sset n v).bfmt = c.bfmt := by unfold Core.sset; split <;> rfl
@[simp] theorem Core.sset_bcb (c : Core) (n : Nat) (v : W64) : (c.sset n v).bcb = c.bcb := by unfold Core.sset; split <;> rfl
@[simp] theorem Core.sset_fflags (c : Core) (n : Nat) (v : W64) : (c.sset n v).fflags = c.fflags := by unfold Core.sset; split <;> rfl
@[simp] theorem Core.sset_fset (c : Core) (n : Nat) (v : W64) : (c.sset n v).fset = c.fset := by unfold Core.sset; split <;> rfl
@[simp] theorem Core.sset_fcyc (c : Core) (n : Nat) (v : W64) : (c.sset n v).fcyc = c.fcyc := by unfold Core.sset; split <;> rfl
@[simp] theorem Core.sset_shape (c : Core) (n : Nat) (v : W64) : (c.sset n v).shape = c.shape := by unfold Core.sset; split <;> rfl
@[simp] theorem Core.sset_rot (c : Core) (n : Nat) (v : W64) : (c.sset n v).rot = c.rot := by unfold Core.sset; split <;> rfl
@[simp] theorem Core.sset_base (c : Core) (n : Nat) (v : W64) : (c.sset n v).base = c.base := by unfold Core.sset; split <;> rfl
@[simp] theorem Core.sset_lin (c : Core) (n : Nat) (v : W64) : (c.sset n v).lin = c.lin := by unfold Core.sset; split <;> rfl
@[simp] theorem Core.sset_gang (c : Core) (n : Nat) (v : W64) : (c.sset n v).gang = c.gang := by unfold Core.sset; split <;> rfl
@[simp] theorem Core.sset_cols (c : Core) (n : Nat) (v : W64) : (c.sset n v).cols = c.cols := by unfold Core.sset; split <;> rfl
@[simp] theorem Core.sset_board (c : Core) (n : Nat) (v : W64) : (c.sset n v).board = c.board := by unfold Core.sset; split <;> rfl
@[simp] theorem Core.sset_own (c : Core) (n : Nat) (v : W64) : (c.sset n v).own = c.own := by unfold Core.sset; split <;> rfl
@[simp] theorem Core.sset_occ (c : Core) (n : Nat) (v : W64) : (c.sset n v).occ = c.occ := by unfold Core.sset; split <;> rfl
@[simp] theorem Core.sset_ports (c : Core) (n : Nat) (v : W64) : (c.sset n v).ports = c.ports := by unfold Core.sset; split <;> rfl
@[simp] theorem Core.sset_cuts (c : Core) (n : Nat) (v : W64) : (c.sset n v).cuts = c.cuts := by unfold Core.sset; split <;> rfl
@[simp] theorem Core.sset_wp (c : Core) (n : Nat) (v : W64) : (c.sset n v).wp = c.wp := by unfold Core.sset; split <;> rfl
@[simp] theorem Core.sset_rmw (c : Core) (n : Nat) (v : W64) : (c.sset n v).rmw = c.rmw := by unfold Core.sset; split <;> rfl
@[simp] theorem Core.sset_acc1 (c : Core) (n : Nat) (v : W64) : (c.sset n v).acc1 = c.acc1 := by unfold Core.sset; split <;> rfl
@[simp] theorem Core.sset_wlast (c : Core) (n : Nat) (v : W64) : (c.sset n v).wlast = c.wlast := by unfold Core.sset; split <;> rfl
@[simp] theorem Core.sset_array (c : Core) (n : Nat) (v : W64) : (c.sset n v).array = c.array := by unfold Core.sset; split <;> rfl
@[simp] theorem Core.sset_walker (c : Core) (n : Nat) (v : W64) : (c.sset n v).walker = c.walker := by unfold Core.sset; split <;> rfl
@[simp] theorem Core.sset_weaveEnd (c : Core) (n : Nat) (v : W64) : (c.sset n v).weaveEnd = c.weaveEnd := by unfold Core.sset; split <;> rfl
@[simp] theorem Core.sset_copyEnd (c : Core) (n : Nat) (v : W64) : (c.sset n v).copyEnd = c.copyEnd := by unfold Core.sset; split <;> rfl
@[simp] theorem Core.sset_copyBuf (c : Core) (n : Nat) (v : W64) : (c.sset n v).copyBuf = c.copyBuf := by unfold Core.sset; split <;> rfl
@[simp] theorem Core.sset_copyBad (c : Core) (n : Nat) (v : W64) : (c.sset n v).copyBad = c.copyBad := by unfold Core.sset; split <;> rfl
@[simp] theorem Core.sset_screen (c : Core) (n : Nat) (v : W64) : (c.sset n v).screen = c.screen := by unfold Core.sset; split <;> rfl
@[simp] theorem Core.sset_pbanks (c : Core) (n : Nat) (v : W64) : (c.sset n v).pbanks = c.pbanks := by unfold Core.sset; split <;> rfl
@[simp] theorem Core.sset_ptags (c : Core) (n : Nat) (v : W64) : (c.sset n v).ptags = c.ptags := by unfold Core.sset; split <;> rfl
@[simp] theorem Core.sset_phand (c : Core) (n : Nat) (v : W64) : (c.sset n v).phand = c.phand := by unfold Core.sset; split <;> rfl
@[simp] theorem Core.sset_bad (c : Core) (n : Nat) (v : W64) : (c.sset n v).bad = c.bad := by unfold Core.sset; split <;> rfl
@[simp] theorem Core.sset_ill (c : Core) (n : Nat) (v : W64) : (c.sset n v).ill = c.ill := by unfold Core.sset; split <;> rfl
@[simp] theorem Core.pset_sh (c : Core) (n : Nat) (b : Bool) : (c.pset n b).sh = c.sh := by unfold Core.pset; split <;> rfl
@[simp] theorem Core.pset_rank (c : Core) (n : Nat) (b : Bool) : (c.pset n b).rank = c.rank := by unfold Core.pset; split <;> rfl
@[simp] theorem Core.pset_prank (c : Core) (n : Nat) (b : Bool) : (c.pset n b).prank = c.prank := by unfold Core.pset; split <;> rfl
@[simp] theorem Core.pset_s (c : Core) (n : Nat) (b : Bool) : (c.pset n b).s = c.s := by unfold Core.pset; split <;> rfl
@[simp] theorem Core.pset_q (c : Core) (n : Nat) (b : Bool) : (c.pset n b).q = c.q := by unfold Core.pset; split <;> rfl
@[simp] theorem Core.pset_v (c : Core) (n : Nat) (b : Bool) : (c.pset n b).v = c.v := by unfold Core.pset; split <;> rfl
@[simp] theorem Core.pset_fwd (c : Core) (n : Nat) (b : Bool) : (c.pset n b).fwd = c.fwd := by unfold Core.pset; split <;> rfl
@[simp] theorem Core.pset_acc (c : Core) (n : Nat) (b : Bool) : (c.pset n b).acc = c.acc := by unfold Core.pset; split <;> rfl
@[simp] theorem Core.pset_bound (c : Core) (n : Nat) (b : Bool) : (c.pset n b).bound = c.bound := by unfold Core.pset; split <;> rfl
@[simp] theorem Core.pset_cover (c : Core) (n : Nat) (b : Bool) : (c.pset n b).cover = c.cover := by unfold Core.pset; split <;> rfl
@[simp] theorem Core.pset_mask (c : Core) (n : Nat) (b : Bool) : (c.pset n b).mask = c.mask := by unfold Core.pset; split <;> rfl
@[simp] theorem Core.pset_cbank (c : Core) (n : Nat) (b : Bool) : (c.pset n b).cbank = c.cbank := by unfold Core.pset; split <;> rfl
@[simp] theorem Core.pset_sem (c : Core) (n : Nat) (b : Bool) : (c.pset n b).sem = c.sem := by unfold Core.pset; split <;> rfl
@[simp] theorem Core.pset_spad (c : Core) (n : Nat) (b : Bool) : (c.pset n b).spad = c.spad := by unfold Core.pset; split <;> rfl
@[simp] theorem Core.pset_tags (c : Core) (n : Nat) (b : Bool) : (c.pset n b).tags = c.tags := by unfold Core.pset; split <;> rfl
@[simp] theorem Core.pset_rings (c : Core) (n : Nat) (b : Bool) : (c.pset n b).rings = c.rings := by unfold Core.pset; split <;> rfl
@[simp] theorem Core.pset_bfmt (c : Core) (n : Nat) (b : Bool) : (c.pset n b).bfmt = c.bfmt := by unfold Core.pset; split <;> rfl
@[simp] theorem Core.pset_bcb (c : Core) (n : Nat) (b : Bool) : (c.pset n b).bcb = c.bcb := by unfold Core.pset; split <;> rfl
@[simp] theorem Core.pset_fflags (c : Core) (n : Nat) (b : Bool) : (c.pset n b).fflags = c.fflags := by unfold Core.pset; split <;> rfl
@[simp] theorem Core.pset_fset (c : Core) (n : Nat) (b : Bool) : (c.pset n b).fset = c.fset := by unfold Core.pset; split <;> rfl
@[simp] theorem Core.pset_fcyc (c : Core) (n : Nat) (b : Bool) : (c.pset n b).fcyc = c.fcyc := by unfold Core.pset; split <;> rfl
@[simp] theorem Core.pset_shape (c : Core) (n : Nat) (b : Bool) : (c.pset n b).shape = c.shape := by unfold Core.pset; split <;> rfl
@[simp] theorem Core.pset_rot (c : Core) (n : Nat) (b : Bool) : (c.pset n b).rot = c.rot := by unfold Core.pset; split <;> rfl
@[simp] theorem Core.pset_base (c : Core) (n : Nat) (b : Bool) : (c.pset n b).base = c.base := by unfold Core.pset; split <;> rfl
@[simp] theorem Core.pset_lin (c : Core) (n : Nat) (b : Bool) : (c.pset n b).lin = c.lin := by unfold Core.pset; split <;> rfl
@[simp] theorem Core.pset_gang (c : Core) (n : Nat) (b : Bool) : (c.pset n b).gang = c.gang := by unfold Core.pset; split <;> rfl
@[simp] theorem Core.pset_cols (c : Core) (n : Nat) (b : Bool) : (c.pset n b).cols = c.cols := by unfold Core.pset; split <;> rfl
@[simp] theorem Core.pset_board (c : Core) (n : Nat) (b : Bool) : (c.pset n b).board = c.board := by unfold Core.pset; split <;> rfl
@[simp] theorem Core.pset_own (c : Core) (n : Nat) (b : Bool) : (c.pset n b).own = c.own := by unfold Core.pset; split <;> rfl
@[simp] theorem Core.pset_occ (c : Core) (n : Nat) (b : Bool) : (c.pset n b).occ = c.occ := by unfold Core.pset; split <;> rfl
@[simp] theorem Core.pset_ports (c : Core) (n : Nat) (b : Bool) : (c.pset n b).ports = c.ports := by unfold Core.pset; split <;> rfl
@[simp] theorem Core.pset_cuts (c : Core) (n : Nat) (b : Bool) : (c.pset n b).cuts = c.cuts := by unfold Core.pset; split <;> rfl
@[simp] theorem Core.pset_wp (c : Core) (n : Nat) (b : Bool) : (c.pset n b).wp = c.wp := by unfold Core.pset; split <;> rfl
@[simp] theorem Core.pset_rmw (c : Core) (n : Nat) (b : Bool) : (c.pset n b).rmw = c.rmw := by unfold Core.pset; split <;> rfl
@[simp] theorem Core.pset_acc1 (c : Core) (n : Nat) (b : Bool) : (c.pset n b).acc1 = c.acc1 := by unfold Core.pset; split <;> rfl
@[simp] theorem Core.pset_wlast (c : Core) (n : Nat) (b : Bool) : (c.pset n b).wlast = c.wlast := by unfold Core.pset; split <;> rfl
@[simp] theorem Core.pset_array (c : Core) (n : Nat) (b : Bool) : (c.pset n b).array = c.array := by unfold Core.pset; split <;> rfl
@[simp] theorem Core.pset_walker (c : Core) (n : Nat) (b : Bool) : (c.pset n b).walker = c.walker := by unfold Core.pset; split <;> rfl
@[simp] theorem Core.pset_weaveEnd (c : Core) (n : Nat) (b : Bool) : (c.pset n b).weaveEnd = c.weaveEnd := by unfold Core.pset; split <;> rfl
@[simp] theorem Core.pset_copyEnd (c : Core) (n : Nat) (b : Bool) : (c.pset n b).copyEnd = c.copyEnd := by unfold Core.pset; split <;> rfl
@[simp] theorem Core.pset_copyBuf (c : Core) (n : Nat) (b : Bool) : (c.pset n b).copyBuf = c.copyBuf := by unfold Core.pset; split <;> rfl
@[simp] theorem Core.pset_copyBad (c : Core) (n : Nat) (b : Bool) : (c.pset n b).copyBad = c.copyBad := by unfold Core.pset; split <;> rfl
@[simp] theorem Core.pset_screen (c : Core) (n : Nat) (b : Bool) : (c.pset n b).screen = c.screen := by unfold Core.pset; split <;> rfl
@[simp] theorem Core.pset_pbanks (c : Core) (n : Nat) (b : Bool) : (c.pset n b).pbanks = c.pbanks := by unfold Core.pset; split <;> rfl
@[simp] theorem Core.pset_ptags (c : Core) (n : Nat) (b : Bool) : (c.pset n b).ptags = c.ptags := by unfold Core.pset; split <;> rfl
@[simp] theorem Core.pset_phand (c : Core) (n : Nat) (b : Bool) : (c.pset n b).phand = c.phand := by unfold Core.pset; split <;> rfl
@[simp] theorem Core.pset_bad (c : Core) (n : Nat) (b : Bool) : (c.pset n b).bad = c.bad := by unfold Core.pset; split <;> rfl
@[simp] theorem Core.pset_ill (c : Core) (n : Nat) (b : Bool) : (c.pset n b).ill = c.ill := by unfold Core.pset; split <;> rfl

end Sys2Proof.Machine
end

