-- ==== Sys2Proof/Laws/Tab.lean ====
section
/-! SUPPORT. Sparse tables: reading after writing, and that every operation keeps the canonical form. -/

namespace Sys2Proof.Machine

/-! Reading after writing. -/

theorem Tab.find?_put_self {α : Type} (k : Nat) (x : α) (t : Tab α) : Tab.find? k (Tab.put k x t) = some x := by
  induction t with
  | nil => simp [Tab.put, Tab.find?]
  | cons e r ih =>
    obtain ⟨i, y⟩ := e
    simp only [Tab.put]
    split
    · simp [Tab.find?]
    · split
      · simp [Tab.find?]
      · simp [Tab.find?, ih]; omega

theorem Tab.find?_put_ne {α : Type} {k j : Nat} (h : j ≠ k) (x : α) (t : Tab α) :
    Tab.find? j (Tab.put k x t) = Tab.find? j t := by
  induction t with
  | nil => simp [Tab.put, Tab.find?, h.symm]
  | cons e r ih =>
    obtain ⟨i, y⟩ := e
    simp only [Tab.put]
    split
    · simp [Tab.find?, h.symm]
    · split
      · subst_vars; simp [Tab.find?, h.symm]
      · simp [Tab.find?, ih]

/-! The canonical form. -/

section
variable {α : Type} [DecidableEq α] {d : α}

theorem Tab.above_mono {j k : Nat} {t : Tab α} (h : Tab.above d k t = true) (hjk : j ≤ k) : Tab.above d j t = true := by
  cases t with
  | nil => rfl
  | cons e r => simp only [Tab.above, Bool.and_eq_true, decide_eq_true_eq] at h ⊢; exact ⟨⟨by omega, h.1.2⟩, h.2⟩

/-- No index below the bound is listed. -/
theorem Tab.find?_below {j k : Nat} {t : Tab α} (h : Tab.above d k t = true) (hjk : j < k) : Tab.find? j t = none := by
  induction t generalizing k with
  | nil => rfl
  | cons e r ih =>
    simp only [Tab.above, Bool.and_eq_true, decide_eq_true_eq] at h
    rw [Tab.find?, if_neg (by omega)]
    exact ih h.2 (by omega)

theorem Tab.above_set {j k : Nat} {x : α} {t : Tab α} (h : Tab.above d j t = true) (hjk : j ≤ k) :
    Tab.above d j (Tab.set d k x t) = true := by
  induction t generalizing j with
  | nil =>
    simp only [Tab.set]
    split <;> simp_all [Tab.above]
  | cons e r ih =>
    obtain ⟨i, y⟩ := e
    simp only [Tab.above, Bool.and_eq_true, decide_eq_true_eq] at h
    simp only [Tab.set]
    split
    · split
      · simp [Tab.above, h]
      · simp only [Tab.above, Bool.and_eq_true, decide_eq_true_eq]
        exact ⟨⟨hjk, by assumption⟩, ⟨by omega, h.1.2⟩, h.2⟩
    · split
      · subst_vars
        split
        · exact Tab.above_mono h.2 (by omega)
        · simp only [Tab.above, Bool.and_eq_true, decide_eq_true_eq]
          exact ⟨⟨by omega, by assumption⟩, h.2⟩
      · simp only [Tab.above, Bool.and_eq_true, decide_eq_true_eq]
        exact ⟨h.1, ih h.2 (by omega)⟩

/-- A single write keeps the canonical form. -/
theorem Tab.wf_set {k : Nat} {x : α} {t : Tab α} (h : Tab.wf d t = true) : Tab.wf d (Tab.set d k x t) = true :=
  Tab.above_set h (Nat.zero_le k)

/-- Reading after a write elsewhere. -/
theorem Tab.get_set_ne {j k : Nat} (h : j ≠ k) (x : α) (t : Tab α) : Tab.get d (Tab.set d k x t) j = Tab.get d t j := by
  unfold Tab.get
  congr 1
  induction t with
  | nil =>
    simp only [Tab.set]
    split <;> simp [Tab.find?, h.symm]
  | cons e r ih =>
    obtain ⟨i, y⟩ := e
    simp only [Tab.set]
    split
    · split <;> simp [Tab.find?, h.symm]
    · split
      · subst_vars
        split <;> simp [Tab.find?, h.symm]
      · simp [Tab.find?, ih]

/-- Reading after a write to the same index. -/
theorem Tab.get_set_self {j k : Nat} {x : α} {t : Tab α} (h : Tab.above d j t = true) :
    Tab.get d (Tab.set d k x t) k = x := by
  unfold Tab.get
  induction t generalizing j with
  | nil =>
    simp only [Tab.set]
    split <;> simp_all [Tab.find?]
  | cons e r ih =>
    obtain ⟨i, y⟩ := e
    simp only [Tab.above, Bool.and_eq_true, decide_eq_true_eq] at h
    simp only [Tab.set]
    split
    · split
      · subst_vars
        rw [Tab.find?, if_neg (by omega), Tab.find?_below h.2 (by omega)]; rfl
      · simp [Tab.find?]
    · split
      · subst_vars
        split
        · subst_vars; rw [Tab.find?_below h.2 (by omega)]; rfl
        · simp [Tab.find?]
      · rw [Tab.find?, if_neg (by assumption)]
        exact ih h.2

omit [DecidableEq α] in
/-- A table whose indices lie below `m`. -/
def Tab.upto (m : Nat) (t : Tab α) : Prop := ∀ e ∈ t, e.1 < m

theorem Tab.above_append {j m : Nat} {a b : Tab α} (ha : Tab.above d j a = true) (hu : Tab.upto m a)
    (hb : Tab.above d m b = true) (hjm : j ≤ m) : Tab.above d j (a ++ b) = true := by
  induction a generalizing j with
  | nil => exact Tab.above_mono hb hjm
  | cons e r ih =>
    simp only [Tab.above, Bool.and_eq_true, decide_eq_true_eq] at ha
    simp only [List.cons_append, Tab.above, Bool.and_eq_true, decide_eq_true_eq]
    exact ⟨ha.1, ih ha.2 (fun x hx => hu x (by simp [hx])) (hu e (by simp))⟩

theorem Tab.above_belowPart {j k : Nat} {t : Tab α} (h : Tab.above d j t = true) :
    Tab.above d j (Tab.below k t) = true ∧ Tab.upto k (Tab.below k t) := by
  induction t generalizing j with
  | nil => exact ⟨rfl, fun _ h => nomatch h⟩
  | cons e r ih =>
    obtain ⟨i, y⟩ := e
    simp only [Tab.above, Bool.and_eq_true, decide_eq_true_eq] at h
    simp only [Tab.below]
    split
    · obtain ⟨h1, h2⟩ := ih h.2
      refine ⟨by simp [Tab.above, h, h1], fun e he => ?_⟩
      rcases List.mem_cons.mp he with rfl | he
      · assumption
      · exact h2 e he
    · exact ⟨rfl, fun _ h => nomatch h⟩

theorem Tab.above_fromPart {j k : Nat} {t : Tab α} (h : Tab.above d j t = true) : Tab.above d k (Tab.from k t) = true := by
  induction t generalizing j with
  | nil => rfl
  | cons e r ih =>
    obtain ⟨i, y⟩ := e
    simp only [Tab.above, Bool.and_eq_true, decide_eq_true_eq] at h
    simp only [Tab.from]
    split
    · exact ih h.2
    · simp only [Tab.above, Bool.and_eq_true, decide_eq_true_eq]
      exact ⟨⟨by omega, h.1.2⟩, h.2⟩

theorem Tab.above_entries (k : Nat) (xs : List α) :
    Tab.above d k (Tab.entries d k xs) = true ∧ Tab.upto (k + xs.length) (Tab.entries d k xs) := by
  induction xs generalizing k with
  | nil => exact ⟨rfl, fun _ h => nomatch h⟩
  | cons x r ih =>
    obtain ⟨h1, h2⟩ := ih (k + 1)
    simp only [Tab.entries, List.length_cons]
    split
    · exact ⟨Tab.above_mono h1 (by omega), fun e he => by have := h2 e he; omega⟩
    · refine ⟨by simp only [Tab.above, Bool.and_eq_true, decide_eq_true_eq]; exact ⟨⟨Nat.le_refl _, by assumption⟩, h1⟩, ?_⟩
      intro e he
      rcases List.mem_cons.mp he with rfl | he
      · simp only; omega
      · have := h2 e he; omega

/-- Writing a run of values keeps the canonical form. -/
theorem Tab.wf_splice {k : Nat} {xs : List α} {t : Tab α} (h : Tab.wf d t = true) : Tab.wf d (Tab.splice d k xs t) = true := by
  obtain ⟨h1, h2⟩ := Tab.above_belowPart (k := k) h
  obtain ⟨h3, h4⟩ := Tab.above_entries (d := d) k xs
  exact Tab.above_append h1 h2 (Tab.above_append h3 h4 (Tab.above_fromPart h) (by omega)) (Nat.zero_le k)

theorem Tab.wf_spliceOpt {k : Nat} {xs : List (Option α)} {t : Tab α} (h : Tab.wf d t = true) :
    Tab.wf d (Tab.spliceOpt d k xs t) = true := Tab.wf_splice h

/-- Clearing a run of indices keeps the canonical form. -/
theorem Tab.wf_clear {k n : Nat} {t : Tab α} (h : Tab.wf d t = true) : Tab.wf d (Tab.clear k n t) = true := by
  obtain ⟨h1, h2⟩ := Tab.above_belowPart (k := k) h
  exact Tab.above_append h1 h2 (Tab.above_mono (Tab.above_fromPart (k := k + n) h) (by omega)) (Nat.zero_le k)

/-- Writes in order keep the canonical form. -/
theorem Tab.wf_setAll {ws : List (Nat × α)} {t : Tab α} (h : Tab.wf d t = true) : Tab.wf d (Tab.setAll d ws t) = true := by
  induction ws generalizing t with
  | nil => exact h
  | cons w r ih => exact ih (Tab.wf_set h)

/-! Reading a run after writing it. -/

omit [DecidableEq α] in
theorem Tab.find?_append_of_upto {m j : Nat} {a b : Tab α} (hu : Tab.upto m a) (hj : m ≤ j) :
    Tab.find? j (a ++ b) = Tab.find? j b := by
  induction a with
  | nil => rfl
  | cons e r ih =>
    rw [List.cons_append, Tab.find?, if_neg (by have := hu e (by simp); omega)]
    exact ih fun x hx => hu x (by simp [hx])

theorem Tab.find?_append_of_above {m j : Nat} {a b : Tab α} (hb : Tab.above d m b = true) (hj : j < m) :
    Tab.find? j (a ++ b) = Tab.find? j a := by
  induction a with
  | nil => exact Tab.find?_below hb hj
  | cons e r ih =>
    rw [List.cons_append, Tab.find?, Tab.find?]
    split
    · rfl
    · exact ih

theorem Tab.find?_belowPart {j k i : Nat} {t : Tab α} (h : Tab.above d i t = true) (hj : j < k) :
    Tab.find? j (Tab.below k t) = Tab.find? j t := by
  induction t generalizing i with
  | nil => rfl
  | cons e r ih =>
    obtain ⟨a, y⟩ := e
    simp only [Tab.above, Bool.and_eq_true, decide_eq_true_eq] at h
    simp only [Tab.below]
    split
    · simp only [Tab.find?]
      split
      · rfl
      · exact ih h.2
    · simp only [Tab.find?]; rw [if_neg (by omega), Tab.find?_below h.2 (by omega)]

theorem Tab.find?_fromPart {j k i : Nat} {t : Tab α} (h : Tab.above d i t = true) (hj : k ≤ j) :
    Tab.find? j (Tab.from k t) = Tab.find? j t := by
  induction t generalizing i with
  | nil => rfl
  | cons e r ih =>
    obtain ⟨a, y⟩ := e
    simp only [Tab.above, Bool.and_eq_true, decide_eq_true_eq] at h
    simp only [Tab.from]
    split
    · rw [Tab.find?, if_neg (by omega)]; exact ih h.2
    · rfl

theorem Tab.get_entries {k j : Nat} {xs : List α} (h1 : k ≤ j) :
    (Tab.find? j (Tab.entries d k xs)).getD d = xs.getD (j - k) d := by
  induction xs generalizing k with
  | nil => simp [Tab.entries, Tab.find?]
  | cons x r ih =>
    have hne : Tab.find? k (Tab.entries d (k + 1) r) = none := Tab.find?_below (Tab.above_entries (k + 1) r).1 (by omega)
    simp only [Tab.entries]
    by_cases hj : j = k
    · subst hj
      split
      · subst_vars; simp [hne]
      · simp [Tab.find?]
    · obtain ⟨m, rfl⟩ : ∃ m, j = k + 1 + m := ⟨j - k - 1, by omega⟩
      have e : k + 1 + m - k = m + 1 := by omega
      have := ih (k := k + 1) (by omega)
      rw [e, List.getD_cons_succ]
      rw [show k + 1 + m - (k + 1) = m by omega] at this
      split
      · exact this
      · rw [Tab.find?, if_neg (by omega)]; exact this

/-- What index `j` reads as after a run of values was written from `k`. -/
theorem Tab.get_splice {k j : Nat} {xs : List α} {t : Tab α} (h : Tab.wf d t = true) :
    Tab.get d (Tab.splice d k xs t) j = if k ≤ j ∧ j < k + xs.length then xs.getD (j - k) d else Tab.get d t j := by
  obtain ⟨h1, h2⟩ := Tab.above_belowPart (k := k) h
  obtain ⟨h3, h4⟩ := Tab.above_entries (d := d) k xs
  have h5 := Tab.above_fromPart (k := k + xs.length) h
  unfold Tab.get Tab.splice
  split
  · rename_i hj
    rw [Tab.find?_append_of_upto h2 hj.1, Tab.find?_append_of_above h5 hj.2, Tab.get_entries hj.1]
  · rename_i hj
    by_cases hk : j < k
    · rw [Tab.find?_append_of_above (Tab.above_append h3 h4 h5 (by omega)) hk, Tab.find?_belowPart h hk]
    · rw [Tab.find?_append_of_upto h2 (by omega), Tab.find?_append_of_upto h4 (by omega), Tab.find?_fromPart h (by omega)]

end

/-- Writing bytes keeps memory in canonical form. -/
theorem Memory.wf_splice {k : Nat} {xs : List Byte} {m : Mem} (h : Memory.wf m = true) :
    Memory.wf (Tab.splice 0 k xs m) = true := Tab.wf_splice h

theorem Memory.wf_spliceOpt {k : Nat} {xs : List (Option Byte)} {m : Mem} (h : Memory.wf m = true) :
    Memory.wf (Tab.spliceOpt 0 k xs m) = true := Tab.wf_splice h

theorem Memory.wf_nil : Memory.wf [] = true := rfl

end Sys2Proof.Machine
end

