-- ==== Sys2Proof/Laws/Ops.lean ====
section
/-! SUPPORT. What the shared operations do: the scoreboard's check, a word or a pending step carried out on its core,
raising a fault. -/

namespace Sys2Proof.Machine

/-! The scoreboard. -/

theorem Core.early_of_readable {c : Core} {x : Ctx} {rs : List (Nat × Nat)} (h : c.Readable x rs) :
    rs.findSome? (c.early x) = none := by
  rw [List.findSome?_eq_none_iff]
  intro r hr
  rw [Core.early, List.find?_eq_none]
  intro p hp
  have := h r hr p hp
  simp only [Bool.and_eq_true, beq_iff_eq, decide_eq_true_eq, Bool.not_eq_true', Bool.and_eq_false_iff,
    beq_eq_false_iff_ne, not_and, and_imp]
  intro h1 h2 h3 h4
  rcases this h1 h2 with h | ⟨h5, h6⟩
  · omega
  · rcases h4 with h4 | h4
    · simp [h5] at h4
    · exact h4 h6

theorem Core.overtakes_of_writable {c : Core} {ws : List ((Nat × Nat) × Nat)} (h : c.Writable ws) :
    ws.findSome? (fun w => (c.overtakes w.1 w.2).map fun p => (p, w.2)) = none := by
  rw [List.findSome?_eq_none_iff]
  intro w hw
  rw [Option.map_eq_none_iff, Core.overtakes, List.find?_eq_none]
  intro p hp
  have := h w hw p hp
  simp only [Bool.and_eq_true, beq_iff_eq, decide_eq_true_eq, not_and, and_imp]
  intro h1 h2
  have := this h1 h2
  omega

theorem Core.board?_of_ready {c : Core} {x : Ctx} {rs : List (Nat × Nat)} {ws : List ((Nat × Nat) × Nat)}
    (h : c.Ready x rs ws) : c.board? x rs ws = none := by
  rw [Core.board?, Core.early_of_readable h.reads, Core.overtakes_of_writable h.writes]

/-- A word that the scoreboard lets issue, and whose operands raise nothing, has its effect. -/
theorem Core.checked_of_ready {c : Core} {x : Ctx} {rs : List (Nat × Nat)} {ws : List ((Nat × Nat) × Nat)}
    (h : c.Ready x rs ws) (f : Core → Eff) : c.checked x rs ws [] f = f (c.claim x ws) := by
  simp only [Core.checked, Core.board?_of_ready h, h.sound, List.append_nil, List.isEmpty_nil, if_true]

theorem Core.checkedX_of_ready {c : Core} {x : Ctx} {rs : List (Nat × Nat)} {ws : List ((Nat × Nat) × Nat)}
    (h : c.Ready x rs ws) (f : Core → XOut) : c.checkedX x rs ws [] f = f (c.claim x ws) := by
  simp only [Core.checkedX, Core.board?_of_ready h, h.sound, List.append_nil, List.isEmpty_nil, if_true]

/-- Faults that a word's operands raise at issue. -/
theorem Core.checked_pre {c : Core} {x : Ctx} {rs : List (Nat × Nat)} {ws : List ((Nat × Nat) × Nat)} {pre : List CFault}
    (h : c.Ready x rs ws) (hp : pre ≠ []) (f : Core → Eff) : c.checked x rs ws pre f = (Eff.ok c).faults pre := by
  simp only [Core.checked, Core.board?_of_ready h, h.sound, List.append_nil]
  cases pre
  · exact absurd rfl hp
  · rfl

@[simp] theorem Core.sget_claim (c : Core) (x : Ctx) (ws : List ((Nat × Nat) × Nat)) (n : Nat) :
    (c.claim x ws).sget n = c.sget n := rfl
@[simp] theorem Core.pget_claim (c : Core) (x : Ctx) (ws : List ((Nat × Nat) × Nat)) (n : Nat) :
    (c.claim x ws).pget n = c.pget n := rfl

/-! A step carried out on its core. -/

theorem State.sheet?_id {s : State} {i : Nat} {sh : Sheet} (h : s.sheet? i = some sh) : sh.id = i := by
  have := List.find?_some h
  simpa using this

theorem State.raiseAll_nil (s : State) (i : Nat) : s.raiseAll i [] = s := by
  unfold State.raiseAll
  split <;> rfl

/-- A step without a fault or a wait leaves its core and its later steps, and nothing else. -/
theorem State.commit_clean {s : State} {k : Nat} {e : Eff} {sh : Sheet} (hs : s.sheet? e.core.sh = some sh)
    (hw : e.wait = none) (hf : e.flt = []) :
    s.commit k e = { s.leaves sh k e.core e.evs with free := s.free + e.used } := by
  unfold State.commit
  rw [hs]
  simp only [hw, hf]
  rw [State.raiseAll_nil]
  rfl

/-- A word that acts on its core alone. -/
theorem State.issueOn_clean {s : State} {f : Ctx → Core → Eff} {c c' : Core} {sh : Sheet}
    {evs : List (Nat × Nat × Act)} (hr : s.Runs s.cur.k c sh) (he : f s.cur c = ⟨c', evs, [], none, 0⟩)
    (hc : c'.sh = c.sh) : s.issueOn f = .next (s.leaves sh s.cur.k c' evs) := by
  unfold State.issueOn
  rw [hr.core]
  simp only [he]
  rw [State.commit_clean (sh := sh) (by rw [← hr.sheet, hc]) rfl rfl]
  rfl

/-- A pending step of a core. -/
theorem State.atCore_clean {s : State} {k : Nat} {f : Nat → Nat → Core → Eff} {c c' : Core} {sh : Sheet}
    {evs : List (Nat × Nat × Act)} (hr : s.Runs k c sh) (he : f (s.task sh) s.free c = ⟨c', evs, [], none, 0⟩)
    (hc : c'.sh = c.sh) : s.atCore k f = .next (s.leaves sh k c' evs) := by
  unfold State.atCore
  rw [hr.core]
  simp only [hr.sheet, he]
  rw [State.commit_clean (sh := sh) (by rw [← hr.sheet, hc]) rfl rfl]
  rfl

/-- A word of a core always has a next state. -/
theorem State.issueOn_goes (s : State) (f : Ctx → Core → Eff) : Goes (s.issueOn f) := by
  unfold State.issueOn
  split <;> exact ⟨_, rfl⟩

theorem State.atCore_goes (s : State) (k : Nat) (f : Nat → Nat → Core → Eff) : Goes (s.atCore k f) := by
  unfold State.atCore
  split
  · exact ⟨_, rfl⟩
  · split <;> exact ⟨_, rfl⟩

/-! Raising a fault changes the sheet and the agenda alone, but for the events of a package. -/

theorem State.foldl_inv {β γ : Type} (P : γ → Prop) (f : γ → β → γ) (h : ∀ a b, P a → P (f a b)) (l : List β) (a : γ)
    (ha : P a) : P (l.foldl f a) := by
  induction l generalizing a with
  | nil => exact ha
  | cons b r ih => exact ih _ (h a b ha)

/-- A package without its pending events and its voltage trial. -/
def Package.quiet (p : Package) : Package := { p with reports := [], trial := none }

/-- Packages differ in their pending events and voltage trials at most. -/
def State.SamePackages (s t : State) : Prop := t.pkgs.map Package.quiet = s.pkgs.map Package.quiet

theorem State.updPkg_quiet (s : State) (q : Nat) (f : Package → Package) (h : ∀ p, (f p).quiet = p.quiet) :
    s.SamePackages (s.updPkg q f) := by
  unfold State.SamePackages State.updPkg
  simp only
  generalize s.pkgs = l
  induction l generalizing q with
  | nil => rfl
  | cons p r ih => cases q <;> simp [listUpd, h, ih]

/-- The two states differ in their sheets, agendas and events at most. -/
structure State.SameMachine (s t : State) : Prop where
  pkgs : s.SamePackages t
  cores : t.cores = s.cores
  ttc : t.ttc = s.ttc
  frames : t.frames = s.frames
  free : t.free = s.free
  cur : t.cur = s.cur
  saved : t.savedCores = s.savedCores

theorem State.SameMachine.rfl' (s : State) : s.SameMachine s := ⟨rfl, rfl, rfl, rfl, rfl, rfl, rfl⟩

theorem State.SameMachine.trans {s t u : State} (h : s.SameMachine t) (g : t.SameMachine u) : s.SameMachine u :=
  ⟨g.pkgs.trans h.pkgs, g.cores.trans h.cores, g.ttc.trans h.ttc, g.frames.trans h.frames, g.free.trans h.free,
    g.cur.trans h.cur, g.saved.trans h.saved⟩

theorem Package.event_quiet (p : Package) (ttc kind ch : Nat) (f : LogFields) : (p.event ttc kind ch f).quiet = p.quiet := rfl

theorem State.updPkg_same (s : State) (q : Nat) (f : Package → Package) (h : ∀ p, (f p).quiet = p.quiet) :
    s.SameMachine (s.updPkg q f) := ⟨s.updPkg_quiet q f h, rfl, rfl, rfl, rfl, rfl, rfl⟩

theorem State.marginCheck_same (s : State) (f : FaultRec) : s.SameMachine (s.marginCheck f) := by
  unfold State.marginCheck
  simp only
  split
  · exact State.SameMachine.trans (s.updPkg_same f.pkg (fun p => { p with trial := p.trial.map fun t => { t with addr := f.d0 } })
      fun _ => rfl) ⟨rfl, rfl, rfl, rfl, rfl, rfl, rfl⟩
  · exact State.SameMachine.rfl' s

theorem State.hardEvent_same (s : State) (f : FaultRec) : s.SameMachine (s.hardEvent f) := by
  unfold State.hardEvent
  split
  · refine State.SameMachine.trans (s.updPkg_same f.pkg (fun p => p.event s.ttc (if f.margin then 3 else 2) (f.channel p)
      (p.errorFields (f.channel p) f.d0.toNat)) fun p => p.event_quiet _ _ _ _) (State.marginCheck_same _ f)
  · exact State.SameMachine.rfl' s

theorem State.raise_same (s : State) (i : Nat) (f : FaultRec) : s.SameMachine (s.raise i f) := by
  unfold State.raise
  split
  · exact State.SameMachine.rfl' s
  · split
    · exact s.hardEvent_same f
    · refine State.foldl_inv (fun t => s.SameMachine t) _ ?_ _ _ ⟨rfl, rfl, rfl, rfl, rfl, rfl, rfl⟩
      intro a b h
      exact ⟨h.pkgs, h.cores, h.ttc, h.frames, h.free, h.cur, h.saved⟩

theorem State.raiseAll_same (s : State) (i : Nat) (fs : List CFault) : s.SameMachine (s.raiseAll i fs) := by
  unfold State.raiseAll
  split
  · exact State.SameMachine.rfl' s
  · refine State.foldl_inv (fun t => s.SameMachine t) _ ?_ _ _ (State.SameMachine.rfl' s)
    intro a b h
    exact h.trans (a.raise_same i (a.faultRec ‹_› b))

/-- The two states agree in everything but the sheets, the agenda, the free-value counter, events and core `k`. -/
structure State.OnlyCore (s t : State) (k : Nat) : Prop where
  pkgs : s.SamePackages t
  ttc : t.ttc = s.ttc
  frames : t.frames = s.frames
  cur : t.cur = s.cur
  saved : t.savedCores = s.savedCores
  others : ∀ j, j ≠ k → t.core? j = s.core? j

theorem State.OnlyCore.rfl' (s : State) (k : Nat) : s.OnlyCore s k := ⟨rfl, rfl, rfl, rfl, rfl, fun _ _ => rfl⟩

theorem State.setCore_only (s : State) (k : Nat) (c : Core) : s.OnlyCore (s.setCore k c) k :=
  ⟨rfl, rfl, rfl, rfl, rfl, fun _ h => Tab.find?_put_ne h c s.cores⟩

theorem State.SameMachine.only {s t u : State} {k : Nat} (h : s.OnlyCore t k) (g : t.SameMachine u) : s.OnlyCore u k :=
  ⟨g.pkgs.trans h.pkgs, g.ttc.trans h.ttc, g.frames.trans h.frames, g.cur.trans h.cur, g.saved.trans h.saved,
    fun j hj => by rw [← h.others j hj]; unfold State.core?; rw [g.cores]⟩

/-- THE FRAME of a step on a core: no package but for its events, no other core. -/
theorem State.commit_only (s : State) (k : Nat) (e : Eff) (hk : k = s.cur.k ∨ e.wait = none) :
    s.OnlyCore (s.commit k e) k := by
  unfold State.commit
  split
  · exact State.OnlyCore.rfl' s k
  · split
    · rename_i sh _ w f hw
      split
      · have hk : k = s.cur.k := hk.resolve_right (by simp [hw])
        unfold State.stallOn
        simp only
        split
        · subst hk
          exact ⟨rfl, rfl, rfl, rfl, rfl, fun j hj => Tab.find?_put_ne hj _ s.cores⟩
        · exact ⟨rfl, rfl, rfl, rfl, rfl, fun _ _ => rfl⟩
      · exact State.SameMachine.only (State.OnlyCore.rfl' s k) (s.raiseAll_same _ _)
    · refine State.SameMachine.only ?_ (State.raiseAll_same _ _ _)
      exact ⟨rfl, rfl, rfl, rfl, rfl, fun j hj => Tab.find?_put_ne hj _ s.cores⟩

/-- A step on a core gives a package events at most. -/
theorem State.commit_pkgs (s : State) (k : Nat) (e : Eff) : s.SamePackages (s.commit k e) := by
  unfold State.commit
  split
  · rfl
  · split
    · split
      · unfold State.stallOn
        simp only
        split <;> rfl
      · exact (s.raiseAll_same _ _).pkgs
    · exact (State.raiseAll_same _ _ _).pkgs

theorem State.issueOn_only {s t : State} {f : Ctx → Core → Eff} (h : s.issueOn f = .next t) : s.OnlyCore t s.cur.k := by
  unfold State.issueOn at h
  split at h
  · cases h; exact State.OnlyCore.rfl' s _
  · cases h; exact s.commit_only _ _ (.inl rfl)

theorem State.issueOn_pkgs {s t : State} {f : Ctx → Core → Eff} (h : s.issueOn f = .next t) : s.SamePackages t :=
  (State.issueOn_only h).pkgs

theorem State.atCore_pkgs {s t : State} {k : Nat} {f : Nat → Nat → Core → Eff} (h : s.atCore k f = .next t) :
    s.SamePackages t := by
  unfold State.atCore at h
  split at h
  · cases h; rfl
  · split at h
    · cases h; rfl
    · cases h; exact State.commit_pkgs _ _ _

end Sys2Proof.Machine
end

