-- ==== Sys2Proof/Laws/Step.lean ====
section
/-! SUPPORT. What a word of the S column that has one result leaves, and what a step that only raises faults leaves. -/

namespace Sys2Proof.Machine
open Sys2Proof

theorem scalarOp_gives {s : State} {sh : Sheet} {c : Core} (hr : s.Runs s.cur.k c sh) (ho : s.cur.off = false)
    {rs : List (Nat × Nat)} {dst : RegRef} {lat : Nat} {f : Core → W64 × Flags} {w : Nat × Nat}
    (hw : (match dst with
      | .s n => sReg n
      | .p n => pReg n
      | .sp n => (6, n)) = w)
    (hy : c.Ready s.cur rs [(w, s.cur.t + lat)]) :
    s.issueOn (scalarOp rs dst lat f) = .next (s.leaves sh s.cur.k (c.claim s.cur [(w, s.cur.t + lat)])
      [(s.cur.t + lat, phStart, .registerWriteback s.cur.k dst (f (c.claim s.cur [(w, s.cur.t + lat)])).1
        (f (c.claim s.cur [(w, s.cur.t + lat)])).2)]) := by
  subst hw
  refine State.issueOn_clean hr ?_ rfl
  unfold scalarOp
  rw [if_neg (by simp [ho])]
  cases dst <;> exact (Core.checked_of_ready hy _).trans rfl

theorem clean_faults {s : State} {f : Ctx → Core → Eff} {c c' : Core} {sh : Sheet} {fs : List CFault}
    (hr : s.Runs s.cur.k c sh) (he : f s.cur c = ⟨c', [], fs, none, 0⟩) (hc : c'.sh = c.sh) :
    s.issueOn f = .next ((s.leaves sh s.cur.k c' []).raiseAll sh.id fs) := by
  unfold State.issueOn
  rw [hr.core]
  simp only [he]
  unfold State.commit
  simp only [hc, hr.sheet]
  congr 2

end Sys2Proof.Machine
end

