-- ==== Sys2Proof/Laws/Bank.lean ====
section
/-! SUPPORT. Accesses to the scratchpad that meet nothing, and the tags that they advance. -/

namespace Sys2Proof.Machine
open Sys2Proof

theorem spans_bounds (data : List (Option Byte)) (a : Nat) : ∀ b ∈ spans a data, a ≤ b.1 ∧ b.2 ≤ a + data.length - 1 := by
  induction data generalizing a with
  | nil => simp [spans]
  | cons x r ih =>
    cases x with
    | none =>
      intro b hb
      have := ih (a + 1) b hb
      simp only [List.length_cons]
      omega
    | some v =>
      intro b hb
      simp only [spans] at hb
      split at hb
      · simp only [List.mem_singleton] at hb
        subst hb
        simp
      · rename_i s ss hs
        have ih' := ih (a + 1)
        rw [hs] at ih'
        have h0 := ih' s (by simp)
        simp only [List.length_cons]
        split at hb
        · simp only [List.mem_cons] at hb
          rcases hb with rfl | hb
          · exact ⟨Nat.le_refl _, by simp only; omega⟩
          · have := ih' b (by simp [hb])
            omega
        · simp only [List.mem_cons] at hb
          rcases hb with rfl | rfl | hb
          · exact ⟨Nat.le_refl _, by simp⟩
          · omega
          · have := ih' b (by simp [hb])
            omega

theorem Core.windowsHit_quiet {c : Core} {t lo hi : Nat} {sp : List (Nat × Nat)} (d : Desc) (h : c.Quiet t lo hi)
    (hs : ∀ b ∈ sp, lo ≤ b.1 ∧ b.2 ≤ hi) : c.windowsHit t sp d = [] := by
  unfold Core.windowsHit
  rw [List.filter_eq_nil_iff]
  intro r hr
  have h1 := h.window r hr
  simp only [Bool.and_eq_true, decide_eq_true_eq, List.any_eq_true, not_and, and_imp, forall_exists_index]
  intro h2 h3 b hb h4 h5
  have h6 := hs b hb
  have h7 := Nat.div_le_div_right (c := 64) h6.1
  have h8 := Nat.div_le_div_right (c := 64) h6.2
  omega

theorem Core.sharing_quiet {c : Core} {t lo hi : Nat} {sp : List (Nat × Nat)} (wr : Bool) (cls : Nat) (d : Desc)
    (h : c.Quiet t lo hi) (hs : ∀ b ∈ sp, lo ≤ b.1 ∧ b.2 ≤ hi) : c.sharing t sp wr cls d = [] := by
  unfold Core.sharing
  rw [List.filterMap_eq_nil_iff]
  intro a ha
  split
  · rename_i hc
    simp only [Bool.and_eq_true, beq_iff_eq] at hc
    have h1 := h.alone a ha hc.1.1.1
    rw [Option.map_eq_none_iff, List.find?_eq_none]
    intro b hb
    have h2 := hs b hb
    simp only [Bool.and_eq_true, decide_eq_true_eq, not_and]
    omega
  · rfl

/-- An access that meets nothing is recorded, and that is all. -/
theorem Core.meet_quiet {c : Core} {t lo hi : Nat} {sp : List (Nat × Nat)} (wr : Bool) (cls : Nat) (d : Desc)
    (h : c.Quiet t lo hi) (hs : ∀ b ∈ sp, lo ≤ b.1 ∧ b.2 ≤ hi) :
    ∃ a1, c.meet t sp wr cls d = ⟨{ c with acc1 := a1 }, [], true⟩ := by
  unfold Core.meet
  simp only [Core.windowsHit_quiet d h hs, Core.sharing_quiet wr cls d h hs, List.isEmpty_nil, if_true, List.filter_nil,
    List.map_nil]
  exact ⟨_, rfl⟩

theorem Core.racingWrites_quiet {c : Core} {t lo hi : Nat} (cls : Nat) (d : Desc) (h : c.Quiet t lo hi) :
    c.racingWrites t lo hi cls d = [] := by
  unfold Core.racingWrites
  rw [List.map_eq_nil_iff, List.filter_eq_nil_iff]
  intro a ha
  simp only [Bool.and_eq_true, beq_iff_eq, decide_eq_true_eq, not_and, and_imp]
  intro h1 _ _ _ h2 h3
  have := h.alone a ha h1
  omega

theorem Core.readBank_quiet {c : Core} {t fr addr len cls : Nat} {d : Desc} (races : Racing) (hl : 0 < len)
    (h : c.Quiet t addr (addr + len - 1)) (hr : ∀ r ∈ races.rs, r.2 < addr ∨ addr + len - 1 < r.1) :
    ∃ a1, c.readBank t fr races addr len cls d = (Eff.ok { c with acc1 := a1 }, some (Tab.slice 0 c.spad addr len)) := by
  obtain ⟨a1, h1⟩ := Core.meet_quiet (sp := [(addr, addr + len - 1)]) false cls d h (by simp)
  have h2 : (races.rs.any fun r => decide (r.1 ≤ addr + len - 1) && decide (addr ≤ r.2)) = false := by
    rw [List.any_eq_false]
    intro r hr'
    have := hr r hr'
    simp only [Bool.and_eq_true, decide_eq_true_eq, not_and]
    omega
  have h3 : c.badIn addr (addr + len - 1) = none := by
    unfold Core.badIn
    rw [List.find?_eq_none]
    intro r hr'
    have := h.sound r hr'
    simp only [Bool.and_eq_true, decide_eq_true_eq, not_and]
    omega
  refine ⟨a1, ?_⟩
  unfold Core.readBank
  rw [if_neg (by omega)]
  simp only [h1, h2, h3]
  rfl

/-- A write that meets nothing stores its bytes. -/
theorem Core.writeBank_quiet {c : Core} {t fr addr cls : Nat} {d : Desc} {data : List (Option Byte)}
    (h0 : data.all Option.isNone = false)
    (h : c.Quiet t addr (addr + data.length - 1)) (hl : c.Latest d addr (addr + data.length - 1)) :
    ∃ a1 w, c.writeBank t fr false addr data cls d = Eff.ok { c with acc1 := a1, wlast := w, spad := Tab.spliceOpt 0 addr data c.spad } := by
  obtain ⟨a1, h1⟩ := Core.meet_quiet true cls d h (spans_bounds data addr)
  have h4 : (c.wlast.filter fun e => sameAgent e.1 d && decide (d.iss < e.1.iss) && decide (addr < e.2.2 + 1)
    && decide (e.2.1 < addr + data.length)) = [] := by
    rw [List.filter_eq_nil_iff]
    intro r hr'
    simp only [Bool.and_eq_true, decide_eq_true_eq, not_and, and_imp]
    intro g1 g2 g3
    have := hl r hr' g1 g2
    omega
  refine ⟨a1, ({ c with acc1 := a1 }.wrote d (spans addr data)).wlast, ?_⟩
  unfold Core.writeBank
  rw [h0]
  simp only [h1, Core.racingWrites_quiet cls d h, Bool.false_and, Bool.false_eq_true, if_false, List.isEmpty_nil, if_true, Bool.not_true]
  unfold Core.inIssueOrder
  simp only [h4, List.map_nil, List.isEmpty_nil, if_true]
  rfl

theorem protected_eq (c : Core) (b : Nat) : c.protected_ b = (c.bfmtReg b).getLsbD 38 := by
  unfold Core.protected_ bits
  rw [BitVec.getLsbD, Nat.testBit_eq_decide_div_mod_eq]
  rfl

theorem Eff.ok_andThen (c : Core) (f : Core → Eff) : (Eff.ok c).andThen f = f c := by
  unfold Eff.andThen Eff.ok
  simp

theorem bumpPlain_eq (c : Core) (t : Nat) (fs : List Nat) : c.bumpPlain t fs = { c with tags := (c.bumpPlain t fs).tags } := by
  unfold Core.bumpPlain
  exact State.foldl_inv (fun c' => c' = { c with tags := c'.tags }) _ (fun a b h => by
    show (if a.inRing b then a else a.bumpTag t b)
      = { c with tags := (if a.inRing b then a else a.bumpTag t b).tags }
    cases a.inRing b
    · rw [h]; rfl
    · exact h) fs c rfl

/-- The tag of another frame stands; that of the frame itself is one more from the next cycle on (R80, R277). -/
theorem tag_after (c : Core) (t f : Nat) (hc : Tab.wf (⟨0, 0, 0⟩ : Tag) c.tags = true) (g u : Nat) :
    (g ≠ f → (c.bumpTag t f).tagAt u g = c.tagAt u g)
    ∧ ((Tab.get ⟨0, 0, 0⟩ c.tags f).cyc ≤ t → t < u → (c.bumpTag t f).tagAt u f = c.tagAt u f + 1) := by
  have one : ∀ n : Nat, BitVec.ofNat 16 (n + 1) = BitVec.ofNat 16 n + 1 := fun n => by
    apply BitVec.eq_of_toNat_eq; simp
  unfold Core.bumpTag Core.tagAt
  refine ⟨fun h => ?_, fun h1 h2 => ?_⟩
  · simp only [Tab.get_set_ne h]
  · have h3 : (Tab.get ⟨0, 0, 0⟩ c.tags f).cyc < u := by omega
    simp only [Tab.get_set_self hc]
    split
    · simp only [h2, if_pos h3]
      rfl
    · simp only [if_pos h3, one, BitVec.add_assoc]

end Sys2Proof.Machine
end

