-- ==== Sys2Proof/Laws/Lanes.lean ====
section
/-! SUPPORT. Operations on lanes: every lane, every sub-element, every flag of what a V word computes. -/

namespace Sys2Proof.Machine
open Sys2Proof

theorem mapLanes_length (f : W32 → W32 → W32 → W32 × Flags) (on : List Bool) (as bs ds : List W32)
    (ha : as.length = on.length) (hb : bs.length = on.length) (hd : ds.length = on.length) :
    (mapLanes f on as bs ds).1.length = on.length := by
  induction on generalizing as bs ds with
  | nil => cases as <;> rfl
  | cons o os ih =>
    cases as with
    | nil => simp at ha
    | cons a as =>
      cases bs with
      | nil => simp at hb
      | cons b bs =>
        cases ds with
        | nil => simp at hd
        | cons d ds =>
          simp only [List.length_cons, Nat.add_right_cancel_iff] at ha hb hd
          have := ih as bs ds ha hb hd
          unfold mapLanes
          split <;> simp [this]

theorem mapLanes_lane (f : W32 → W32 → W32 → W32 × Flags) (on : List Bool) (as bs ds : List W32)
    (ha : as.length = on.length) (hb : bs.length = on.length) (hd : ds.length = on.length) (l : Nat) (hl : l < on.length) :
    (mapLanes f on as bs ds).1[l]? = some (if on.getD l false then some (f (as.getD l 0) (bs.getD l 0) (ds.getD l 0)).1 else none) := by
  induction on generalizing as bs ds l with
  | nil => simp at hl
  | cons o os ih =>
    cases as with
    | nil => simp at ha
    | cons a as =>
      cases bs with
      | nil => simp at hb
      | cons b bs =>
        cases ds with
        | nil => simp at hd
        | cons d ds =>
          simp only [List.length_cons, Nat.add_right_cancel_iff] at ha hb hd
          unfold mapLanes
          cases l with
          | zero => split <;> rename_i ho <;> simp [ho]
          | succ l =>
            have := ih as bs ds ha hb hd l (by simpa using hl)
            split <;> simpa using this

theorem mapLanes_flags (f : W32 → W32 → W32 → W32 × Flags) (on : List Bool) (as bs ds : List W32)
    (ha : as.length = on.length) (hb : bs.length = on.length) (hd : ds.length = on.length) (b : Nat) :
    (mapLanes f on as bs ds).2.getLsbD b = true ↔
      ∃ l < on.length, on.getD l false = true ∧ (f (as.getD l 0) (bs.getD l 0) (ds.getD l 0)).2.getLsbD b = true := by
  induction on generalizing as bs ds with
  | nil => cases as <;> simp [mapLanes]
  | cons o os ih =>
    cases as with
    | nil => simp at ha
    | cons a as =>
      cases bs with
      | nil => simp at hb
      | cons b' bs =>
        cases ds with
        | nil => simp at hd
        | cons d ds =>
          simp only [List.length_cons, Nat.add_right_cancel_iff] at ha hb hd
          have := ih as bs ds ha hb hd
          unfold mapLanes
          split
          · rename_i ho
            simp only [BitVec.getLsbD_or, Bool.or_eq_true, this]
            constructor
            · rintro (h | ⟨l, hl, h⟩)
              · exact ⟨0, by simp, by simp [ho], by simpa using h⟩
              · exact ⟨l + 1, by simp; exact hl, by simpa using h⟩
            · rintro ⟨l, hl, h1, h2⟩
              cases l with
              | zero => left; simpa using h2
              | succ l => right; exact ⟨l, by simpa using hl, by simpa using h1, by simpa using h2⟩
          · rename_i ho
            rw [this]
            constructor
            · rintro ⟨l, hl, h⟩
              exact ⟨l + 1, by simp; exact hl, by simpa using h⟩
            · rintro ⟨l, hl, h1, h2⟩
              cases l with
              | zero => simp at h1; exact absurd h1 ho
              | succ l => exact ⟨l, by simpa using hl, by simpa using h1, by simpa using h2⟩

theorem fill_length {α : Type} (d : α) (n k : Nat) (t : Tab α) : (Tab.fill d n k t).length = n := by
  induction n generalizing k t with
  | zero => cases t <;> rfl
  | succ n ih =>
    cases t with
    | nil => simp [Tab.fill, ih]
    | cons e r =>
      obtain ⟨i, x⟩ := e
      unfold Tab.fill
      split <;> simp [ih]

theorem slice_length {α : Type} (d : α) (t : Tab α) (k n : Nat) : (Tab.slice d t k n).length = n := fill_length ..

theorem overlay_length {α : Type} (os : List α) (xs : List (Option α)) : (overlay os xs).length = os.length := by
  induction os generalizing xs with
  | nil => cases xs with
    | nil => rfl
    | cons x xs => cases x <;> rfl
  | cons o os ih =>
    cases xs with
    | nil => rfl
    | cons x xs => cases x <;> simp [overlay, ih]

theorem Core.vget_length (c : Core) (x : Ctx) (r : Nat) : (c.vget x r).length = 1024 := by
  unfold Core.vget
  simp only []
  split
  · exact slice_length ..
  · refine State.foldl_inv (fun v : List W32 => v.length = 1024) _ ?_ _ _ (slice_length ..)
    intro a b h
    split
    · rw [overlay_length, h]
    · exact h

theorem Core.qget_length (c : Core) (n : Nat) : (c.qget n).length = 64 := by
  unfold Core.qget
  split
  · simp
  · exact slice_length ..

theorem lanesOn_length (sh : VShape) {q : List Half} (hq : q.length = 64) : (lanesOn sh q).length = 1024 := by
  simp [lanesOn, hq, List.range_succ]

theorem lanesOn_lane (sh : VShape) {q : List Half} (hq : q.length = 64) {l : Nat} (hl : l < 1024) :
    (lanesOn sh q).getD l false = laneOn sh q l := by
  unfold lanesOn laneOn
  have h : ∀ (n : Nat) (f : Nat → Half × Nat → Bool) (q : List (Half × Nat)), q.length = 64 → l < 64 * n → 
     ((List.range n).flatMap fun r => q.map fun w => f r w).getD l false = ((q[l % 64]?).map (f (l / 64))).getD false := by
    intro n f q hq
    induction n with
    | zero => intro h; omega
    | succ n ih =>
      intro h
      rw [List.range_succ, List.flatMap_append]
      have hlen : ((List.range n).flatMap fun r => q.map fun w => f r w).length = 64 * n := by
        clear ih h
        induction n with
        | zero => rfl
        | succ n ih => rw [List.range_succ, List.flatMap_append, List.length_append, ih]; simp [hq]; omega
      by_cases hh : l < 64 * n
      · rw [List.getD_eq_getElem?_getD, List.getElem?_append_left (by omega), ← List.getD_eq_getElem?_getD]; exact ih hh
      · rw [List.getD_eq_getElem?_getD, List.getElem?_append_right (by omega), hlen]
        have h1 : l % 64 = l - 64 * n := by omega
        have h2 : l / 64 = n := by omega
        simp [h1, h2]
  rw [h 16 _ _ (by simp [hq]) (by omega)]
  have hlt : l % 64 < q.length := by omega
  simp [hlt, List.getD_eq_getElem?_getD]
theorem foldr_digits (w : Nat) (xs : List Nat) (j : Nat) :
    (xs.foldr (fun y n => y % 2 ^ w + 2 ^ w * n) 0) / 2 ^ (w * j) % 2 ^ w = xs.getD j 0 % 2 ^ w := by
  induction xs generalizing j with
  | nil => simp
  | cons x xs ih =>
    simp only [List.foldr_cons]
    have hp : 0 < 2 ^ w := Nat.two_pow_pos w
    cases j with
    | zero => simp
    | succ j =>
      rw [Nat.mul_succ, Nat.pow_add, Nat.mul_comm (2 ^ (w * j)), ← Nat.div_div_eq_div_mul, Nat.add_mul_div_left _ _ hp,
        Nat.div_eq_of_lt (Nat.mod_lt _ hp), Nat.zero_add, ih]
      simp

theorem foldr_lt (w : Nat) (xs : List Nat) : (xs.foldr (fun y n => y % 2 ^ w + 2 ^ w * n) 0) < 2 ^ (w * xs.length) := by
  induction xs with
  | nil => simp
  | cons x xs ih =>
    simp only [List.foldr_cons, List.length_cons]
    rw [Nat.mul_succ, Nat.add_comm, Nat.pow_add, Nat.mul_comm]
    have hp := Nat.mod_lt x (Nat.two_pow_pos w)
    calc _ < (xs.foldr (fun y n => y % 2 ^ w + 2 ^ w * n) 0 + 1) * 2 ^ w := by rw [Nat.add_mul]; omega
      _ ≤ _ := Nat.mul_le_mul_right _ ih

theorem joinSubs_bits {w : Nat} (hw : w = 8 ∨ w = 16 ∨ w = 32) {xs : List Nat} (hl : xs.length = 32 / w) (j : Nat) :
    (joinSubs w xs).toNat / 2 ^ (w * j) % 2 ^ w = xs.getD j 0 % 2 ^ w := by
  unfold joinSubs
  have := foldr_lt w xs
  have h32 : w * xs.length = 32 := by rcases hw with h | h | h <;> simp [hl, h]
  rw [h32] at this
  rw [BitVec.toNat_ofNat, Nat.mod_eq_of_lt this, foldr_digits]

theorem or_flags (fs : List Flags) (b : Nat) (f0 : Flags) :
    (fs.foldl (· ||| ·) f0).getLsbD b = true ↔ f0.getLsbD b = true ∨ ∃ f ∈ fs, f.getLsbD b = true := by
  induction fs generalizing f0 with
  | nil => simp
  | cons f fs ih => simp [ih, or_assoc]

theorem onSubs_flags (w : Nat) (g : Nat → Nat → Nat → Nat × Flags) (a b d : W32) (k : Nat) :
    (onSubs w g a b d).2.getLsbD k = true ↔ ∃ j < 32 / w,
      (g (bits a.toNat (w * j) w) (bits b.toNat (w * j) w) (bits d.toNat (w * j) w)).2.getLsbD k = true := by
  unfold onSubs
  simp only [or_flags]
  simp [subs, List.zipWith_map, List.zip, List.zipWith_self, List.mem_map]

theorem laneOp_gives {s : State} {c : Core} {sh : Sheet} {i : Instr} {lat vd va vb q : Nat} {useB useD : Bool}
    {f : VShape → W32 → W32 → W32 → W32 × Flags} {w : Nat} {g : Nat → Nat → Nat → Nat × Flags}
    (hi : exec i s = s.issueOn (laneOp lat vd va vb q useB useD f))
    (hw : w = 8 ∨ w = 16 ∨ w = 32) (hr : s.Runs s.cur.k c sh) (hf : f (c.shapeFor s.cur) = onSubs w g)
    (hon : ∃ l < 1024, laneOn (c.shapeFor s.cur) (c.qget q) l = true)
    (h : c.Ready s.cur ([vReg (c.phys (s.cur.repReg va)), qReg q] ++ (if useB then [vReg (c.phys vb)] else [])
      ++ (if useD then [vReg (c.phys (s.cur.repReg vd))] else [])) [(vReg (c.phys (s.cur.repReg vd)), s.cur.t + lat)]) :
    s.GivesLanes sh c i (c.phys (s.cur.repReg vd)) lat (laneOn (c.shapeFor s.cur) (c.qget q)) w fun l j =>
      g (c.elem s.cur (c.phys (s.cur.repReg va)) w l j)
        (c.elem s.cur (if useB then c.phys vb else c.phys (s.cur.repReg va)) w l j)
        (c.elem s.cur (if useD then c.phys (s.cur.repReg vd) else c.phys (s.cur.repReg va)) w l j) := by
  have hq := lanesOn_length (c.shapeFor s.cur) (c.qget_length q)
  have hon' : (lanesOn (c.shapeFor s.cur) (c.qget q)).any id = true := by
    obtain ⟨l, h1, h2⟩ := hon
    rw [← lanesOn_lane _ (c.qget_length q) h1, List.getD_eq_getElem?_getD,
      List.getElem?_eq_getElem (by rw [hq]; exact h1)] at h2
    exact List.any_eq_true.2 ⟨_, List.getElem_mem (by rw [hq]; exact h1), by simpa using h2⟩
  let d := c.phys (s.cur.repReg vd)
  let a := c.phys (s.cur.repReg va)
  let b := c.phys vb
  let on := lanesOn (c.shapeFor s.cur) (c.qget q)
  have ha : (c.vget s.cur a).length = on.length := by rw [hq]; exact c.vget_length s.cur a
  have hb : (if useB then c.vget s.cur b else c.vget s.cur a).length = on.length := by
    split <;> rw [hq] <;> exact c.vget_length s.cur _
  have hd : (if useD then c.vget s.cur d else c.vget s.cur a).length = on.length := by
    split <;> rw [hq] <;> exact c.vget_length s.cur _
  have eb : ∀ l, (if useB then c.vget s.cur b else c.vget s.cur a).getD l 0 = (c.vget s.cur (if useB then b else a)).getD l 0 := by
    intro l; split <;> rfl
  have ed : ∀ l, (if useD then c.vget s.cur d else c.vget s.cur a).getD l 0 = (c.vget s.cur (if useD then d else a)).getD l 0 := by
    intro l; split <;> rfl
  refine ⟨(mapLanes (onSubs w g) on (c.vget s.cur a) (if useB then c.vget s.cur b else c.vget s.cur a)
      (if useD then c.vget s.cur d else c.vget s.cur a)).1, (mapLanes (onSubs w g) on (c.vget s.cur a)
      (if useB then c.vget s.cur b else c.vget s.cur a) (if useD then c.vget s.cur d else c.vget s.cur a)).2, ?_, ?_, ?_, ?_, ?_⟩
  · rw [hi]
    refine State.issueOn_clean hr ?_ ?_
    · unfold laneOp
      simp only [hon', Bool.not_true, Bool.false_eq_true, if_false]
      rw [Core.checked_of_ready h]
      simp only [hf]
      rfl
    · unfold Core.forward; split <;> rfl
  · rw [mapLanes_length _ _ _ _ _ ha hb hd, hq]
  · intro l hl h0
    rw [mapLanes_lane _ _ _ _ _ ha hb hd l (by rw [hq]; exact hl), lanesOn_lane _ (c.qget_length q) hl, h0]
    rfl
  · intro l hl h1
    rw [mapLanes_lane _ _ _ _ _ ha hb hd l (by rw [hq]; exact hl), lanesOn_lane _ (c.qget_length q) hl, h1]
    refine ⟨_, rfl, ?_⟩
    intro j hj
    rw [eb, ed]
    unfold onSubs
    simp only []
    rw [joinSubs_bits hw (by simp [subs]) j]
    simp [subs, hj, List.getD_eq_getElem?_getD, Core.elem, bits, a, b, d]
  · intro k _
    rw [mapLanes_flags _ _ _ _ _ ha hb hd, hq]
    refine exists_congr fun l => and_congr_right fun hl => ?_
    rw [lanesOn_lane _ (c.qget_length q) hl, eb, ed]
    refine and_congr_right fun _ => ?_
    rw [onSubs_flags]
    simp [Core.elem, bits, a, b, d]

section corollaries

variable {s : State} {c : Core} {sh : Sheet} {i : Instr} {lat vd va vb q : Nat} {f : VShape → W32 → W32 → W32 → W32 × Flags}
  {w : Nat} {g : Nat → Nat → Nat → Nat × Flags}

/-- One source. -/
theorem laneOp_one (hi : exec i s = s.issueOn (laneOp lat vd va vb q false false f))
    (hw : w = 8 ∨ w = 16 ∨ w = 32) (hr : s.Runs s.cur.k c sh) (hf : f (c.shapeFor s.cur) = onSubs w g)
    (hon : ∃ l < 1024, laneOn (c.shapeFor s.cur) (c.qget q) l = true)
    (h : c.Ready s.cur [vReg (c.phys (s.cur.repReg va)), qReg q] [(vReg (c.phys (s.cur.repReg vd)), s.cur.t + lat)]) :
    s.GivesLanes sh c i (c.phys (s.cur.repReg vd)) lat (laneOn (c.shapeFor s.cur) (c.qget q)) w fun l j =>
      g (c.elem s.cur (c.phys (s.cur.repReg va)) w l j) (c.elem s.cur (c.phys (s.cur.repReg va)) w l j)
        (c.elem s.cur (c.phys (s.cur.repReg va)) w l j) := by
  have := laneOp_gives hi hw hr hf hon
  simp only [Bool.false_eq_true, if_false, List.append_nil] at this
  exact this h

/-- Two sources. -/
theorem laneOp_two (hi : exec i s = s.issueOn (laneOp lat vd va vb q true false f))
    (hw : w = 8 ∨ w = 16 ∨ w = 32) (hr : s.Runs s.cur.k c sh) (hf : f (c.shapeFor s.cur) = onSubs w g)
    (hon : ∃ l < 1024, laneOn (c.shapeFor s.cur) (c.qget q) l = true)
    (h : c.Ready s.cur [vReg (c.phys (s.cur.repReg va)), qReg q, vReg (c.phys vb)]
      [(vReg (c.phys (s.cur.repReg vd)), s.cur.t + lat)]) :
    s.GivesLanes sh c i (c.phys (s.cur.repReg vd)) lat (laneOn (c.shapeFor s.cur) (c.qget q)) w fun l j =>
      g (c.elem s.cur (c.phys (s.cur.repReg va)) w l j) (c.elem s.cur (c.phys vb) w l j)
        (c.elem s.cur (c.phys (s.cur.repReg va)) w l j) := by
  have := laneOp_gives hi hw hr hf hon
  simp only [if_true, Bool.false_eq_true, if_false, List.append_nil, List.cons_append, List.nil_append] at this
  exact this h

/-- Two sources and the old destination. -/
theorem laneOp_three (hi : exec i s = s.issueOn (laneOp lat vd va vb q true true f))
    (hw : w = 8 ∨ w = 16 ∨ w = 32) (hr : s.Runs s.cur.k c sh) (hf : f (c.shapeFor s.cur) = onSubs w g)
    (hon : ∃ l < 1024, laneOn (c.shapeFor s.cur) (c.qget q) l = true)
    (h : c.Ready s.cur [vReg (c.phys (s.cur.repReg va)), qReg q, vReg (c.phys vb), vReg (c.phys (s.cur.repReg vd))]
      [(vReg (c.phys (s.cur.repReg vd)), s.cur.t + lat)]) :
    s.GivesLanes sh c i (c.phys (s.cur.repReg vd)) lat (laneOn (c.shapeFor s.cur) (c.qget q)) w fun l j =>
      g (c.elem s.cur (c.phys (s.cur.repReg va)) w l j) (c.elem s.cur (c.phys vb) w l j)
        (c.elem s.cur (c.phys (s.cur.repReg vd)) w l j) := by
  have := laneOp_gives hi hw hr hf hon
  simp only [if_true, List.cons_append, List.nil_append] at this
  exact this h

end corollaries

end Sys2Proof.Machine
end

