-- ==== Sys2Proof/Tests/Slice0.lean ====
section
/-! SUPPORT. Own tests: each instruction word written out from its encoding table; terms that the field checks refuse; for each
statement a state and operands that meet its hypotheses; one step on small states with values worked out by hand. -/

namespace Sys2Proof.Tests

set_option Elab.async false

/-- What the words decode to, each with Y = 0 and D = 0. -/
def readsAs (l : List (Col × Nat × Option W32 × Instr)) : Prop :=
  l.map (fun x => decode x.1 x.2.1 x.2.2.1) = l.map fun x => .ok ⟨false, 0, x.2.2.2⟩

/-- Words written out field by field from the layouts and the opcode map (R101). -/
theorem test_words_common : readsAs [
    (.S, 0x00080003, none, .idle 0x80003),
    (.X, 0x00100000, none, .align),
    (.V, 0x00180000, none, .endc),
    (.M, 0x0025DC64, none, .loop 0xbb8 0x64),
    (.S, 0x002C304A, none, .loopc 33 0x41 10),
    (.V, 0x00340A28, none, .sadd 0x205 5 0),
    (.M, 0x00384344, none, .swait 33 40 1),
    (.X, 0x0047FFF8, none, .swaitb 0x3ff 63 0),
    (.S, 0x0048ABCD, none, .mark 0xabcd),
    (.X, 0x00501234, none, .brk 0x1234),
    (.S, 0x005D0000, none, .ifp 5),
    (.V, 0x00642400, none, .rep 16 9)] := by
  rfl

/-- Words written out field by field from the layouts and the opcode map (R110, R111). -/
theorem test_words_sArith1 : readsAs [
    (.S, 0x008B47E0, none, .add 5 40 63),
    (.S, 0x008B47E1, none, .sub 5 40 63),
    (.S, 0x008B47E2, none, .mul 5 40 63),
    (.S, 0x008B47E3, none, .mulh 5 40 63),
    (.S, 0x008B47E4, none, .div 5 40 63),
    (.S, 0x008B47E5, none, .rem 5 40 63),
    (.S, 0x008B47E6, none, .smin 5 40 63),
    (.S, 0x008B47E7, none, .smax 5 40 63),
    (.S, 0x010B47E0, none, .sand 5 40 63),
    (.S, 0x010B47E1, none, .sor 5 40 63),
    (.S, 0x010B47E2, none, .sxor 5 40 63),
    (.S, 0x010B47E3, none, .andn 5 40 63)] := by
  rfl

/-- Words written out field by field from the layouts and the opcode map (R110, R111). -/
theorem test_words_sArith2 : readsAs [
    (.S, 0x010B47E4, none, .shl 5 40 63),
    (.S, 0x010B47E5, none, .shr 5 40 63),
    (.S, 0x010B47E6, none, .sar 5 40 63),
    (.S, 0x010B4007, none, .clz 5 40),
    (.S, 0x010B4008, none, .popc 5 40)] := by
  rfl

/-- Words written out field by field from the layouts and the opcode map (R110, R111). -/
theorem test_words_sFloat1 : readsAs [
    (.S, 0x1B0B47E0, none, .fadd 5 40 63),
    (.S, 0x1B0B47E1, none, .fsub 5 40 63),
    (.S, 0x1B0B47E2, none, .fmul 5 40 63),
    (.S, 0x1B0B47E3, none, .fdiv 5 40 63),
    (.S, 0x1B0B47E4, none, .fmin 5 40 63),
    (.S, 0x1B0B47E5, none, .fmax 5 40 63),
    (.S, 0x1B0B4006, none, .fsqrt 5 40),
    (.S, 0x1B8B47E0, none, .ffma 5 40 63),
    (.S, 0x1C0B4000, none, .ftoi 5 40),
    (.S, 0x1C0B4001, none, .ftoiz 5 40),
    (.S, 0x1C0B4002, none, .itof 5 40),
    (.S, 0x1CC37F00, none, .faddi 33 0xbf80)] := by
  rfl

/-- Words written out field by field from the layouts and the opcode map (R110, R111). -/
theorem test_words_sFloat2 : readsAs [
    (.S, 0x1CC27F03, none, .fmuli 33 0x3f81)] := by
  rfl

/-- Words written out field by field from the layouts and the opcode map (R110, R111). -/
theorem test_words_sImm : readsAs [
    (.S, 0x0844AFFE, none, .addi 34 21 0x7fe),
    (.S, 0x08C4AC01, none, .muli 34 21 0x401),
    (.S, 0x0944A8FF, none, .andi 34 21 0xff),
    (.S, 0x09C4ABA5, none, .ori 34 21 0x3a5),
    (.S, 0x0A44AC00, none, .xori 34 21 0x400),
    (.S, 0x0AC4A801, none, .mini 34 21 1),
    (.S, 0x0C44A83F, none, .shli 34 21 63),
    (.S, 0x0CC4A820, none, .shri 34 21 32),
    (.S, 0x0D44A811, none, .sari 34 21 17)] := by
  rfl

/-- Words written out field by field from the layouts and the opcode map (R110, R111). -/
theorem test_words_sPred1 : readsAs [
    (.S, 0x10610A40, none, .ceq 6 33 18),
    (.S, 0x10E10FFD, none, .ceqi 6 33 0x7fd),
    (.S, 0x10630A40, none, .cne 6 33 18),
    (.S, 0x10E30FFD, none, .cnei 6 33 0x7fd),
    (.S, 0x10650A40, none, .clt 6 33 18),
    (.S, 0x10E50FFD, none, .clti 6 33 0x7fd),
    (.S, 0x10670A40, none, .cge 6 33 18),
    (.S, 0x10E70FFD, none, .cgei 6 33 0x7fd),
    (.S, 0x10690A40, none, .cltu 6 33 18),
    (.S, 0x10E90FFD, none, .cltui 6 33 0x7fd),
    (.S, 0x106B0A40, none, .cgeu 6 33 18),
    (.S, 0x10EB0FFD, none, .cgeui 6 33 0x7fd)] := by
  rfl

/-- Words written out field by field from the layouts and the opcode map (R110, R111). -/
theorem test_words_sPred2 : readsAs [
    (.S, 0x12304FC0, none, .fceq 3 9 62),
    (.S, 0x12324FC0, none, .fclt 3 9 62),
    (.S, 0x12344FC0, none, .fcle 3 9 62),
    (.S, 0x111CC000, none, .pand 1 6 3),
    (.S, 0x111CC001, none, .por 1 6 3),
    (.S, 0x111CC002, none, .pxor 1 6 3),
    (.S, 0x111CC003, none, .pandn 1 6 3),
    (.S, 0x11E46474, none, .sel 50 12 35 5)] := by
  rfl

/-- Words written out field by field from the layouts and the opcode map (R103, R110, R111). -/
theorem test_words_sConst : readsAs [
    (.S, 0x140FFFFE, none, .ldk 7 0x1fffe),
    (.S, 0x15580000, (some 0x80000001), .lit 44 0x80000001),
    (.S, 0x15D800FE, none, .ldc 44 0xfe),
    (.S, 0x1628C0DE, none, .ldkh 0 20 0xc0de),
    (.S, 0x16A8C0DE, none, .ldkh 1 20 0xc0de),
    (.S, 0x1728C0DE, none, .ldkh 2 20 0xc0de),
    (.S, 0x17A8C0DE, none, .ldkh 3 20 0xc0de)] := by
  rfl

/-- Words written out field by field from the layouts and the opcode map (R110, R111). -/
theorem test_words_sMem1 : readsAs [
    (.S, 0x184CCC18, none, .ldb 38 25 0x83),
    (.S, 0x184CCC19, none, .ldh 38 25 0x83),
    (.S, 0x184CCC1A, none, .ldw 38 25 0x83),
    (.S, 0x184CCC1B, none, .ldd 38 25 0x83),
    (.S, 0x184CCC1C, none, .ldbu 38 25 0x83),
    (.S, 0x184CCC1D, none, .ldhu 38 25 0x83),
    (.S, 0x184CCC1E, none, .ldwu 38 25 0x83),
    (.S, 0x18CCCBF0, none, .stb 38 25 0x7e),
    (.S, 0x18CCCBF1, none, .sth 38 25 0x7e),
    (.S, 0x18CCCBF2, none, .stw 38 25 0x7e),
    (.S, 0x18CCCBF3, none, .std 38 25 0x7e),
    (.S, 0x19781A20, none, .atomadd 60 3 17 0)] := by
  rfl

/-- Words written out field by field from the layouts and the opcode map (R110, R111). -/
theorem test_words_sMem2 : readsAs [
    (.S, 0x19781A25, none, .atommin 60 3 17 1),
    (.S, 0x19781A28, none, .atommax 60 3 17 0),
    (.S, 0x19781A2D, none, .atomswp 60 3 17 1),
    (.S, 0x19781A30, none, .atomcas 60 3 17 0)] := by
  rfl

/-- Words written out field by field from the layouts and the opcode map (R110, R111, R139). -/
theorem test_words_sSys : readsAs [
    (.S, 0x1E120500, none, .wid 9 5),
    (.S, 0x1E120001, none, .widn 9),
    (.S, 0x1E964D00, none, .rdsp 11 0x4d),
    (.S, 0x1E960201, none, .wrsp 11 2),
    (.S, 0x1F1B0000, none, .cal 13 0x100),
    (.S, 0x1F1B5501, none, .abort 13 0x155)] := by
  rfl

/-- Words written out field by field from the layouts and the opcode map (R112, R114). -/
theorem test_words_vFloat1 : readsAs [
    (.V, 0x00C7C590, none, .vadd 17 30 5 9),
    (.V, 0x00C7C591, none, .vsub 17 30 5 9),
    (.V, 0x00C7C592, none, .vmul 17 30 5 9),
    (.V, 0x00C7C593, none, .vdiv 17 30 5 9),
    (.V, 0x00C7C594, none, .vmin 17 30 5 9),
    (.V, 0x00C7C595, none, .vmax 17 30 5 9),
    (.V, 0x0147C590, none, .vfma 17 30 5 9),
    (.V, 0x0147C591, none, .vfms 17 30 5 9),
    (.V, 0x0147C592, none, .vfnma 17 30 5 9),
    (.V, 0x01C7C090, none, .vexp2 17 30 9),
    (.V, 0x01C7C091, none, .vlog2 17 30 9),
    (.V, 0x01C7C092, none, .vrcp 17 30 9)] := by
  rfl

/-- Words written out field by field from the layouts and the opcode map (R112, R114). -/
theorem test_words_vFloat2 : readsAs [
    (.V, 0x01C7C093, none, .vrsq 17 30 9),
    (.V, 0x01C7C094, none, .vsin 17 30 9),
    (.V, 0x01C7C095, none, .vcos 17 30 9),
    (.V, 0x01C7C096, none, .vtanh 17 30 9),
    (.V, 0x01C7C097, none, .vsqrt 17 30 9),
    (.V, 0x01C7C098, none, .vabs 17 30 9),
    (.V, 0x01C7C099, none, .vneg 17 30 9)] := by
  rfl

/-- Words written out field by field from the layouts and the opcode map (R112, R114). -/
theorem test_words_vInt1 : readsAs [
    (.V, 0x0847C590, none, .viadd 17 30 5 9),
    (.V, 0x0847C591, none, .visub 17 30 5 9),
    (.V, 0x0847C592, none, .vimul 17 30 5 9),
    (.V, 0x0847C593, none, .vimin 17 30 5 9),
    (.V, 0x0847C594, none, .vimax 17 30 5 9),
    (.V, 0x0847C595, none, .viminu 17 30 5 9),
    (.V, 0x0847C596, none, .vimaxu 17 30 5 9),
    (.V, 0x0847C597, none, .viadds 17 30 5 9),
    (.V, 0x0847C598, none, .visubs 17 30 5 9),
    (.V, 0x08C7C590, none, .vand 17 30 5 9),
    (.V, 0x08C7C591, none, .vor 17 30 5 9),
    (.V, 0x08C7C592, none, .vxor 17 30 5 9)] := by
  rfl

/-- Words written out field by field from the layouts and the opcode map (R112, R114). -/
theorem test_words_vInt2 : readsAs [
    (.V, 0x08C7C593, none, .vandn 17 30 5 9),
    (.V, 0x08C7C594, none, .vshl 17 30 5 9),
    (.V, 0x08C7C595, none, .vshr 17 30 5 9),
    (.V, 0x08C7C596, none, .vsar 17 30 5 9),
    (.V, 0x08C7C097, none, .vclz 17 30 9),
    (.V, 0x08C7C098, none, .vpopc 17 30 9),
    (.V, 0x0947C590, none, .vfshl 17 30 5 9),
    (.V, 0x0947C591, none, .vfshr 17 30 5 9)] := by
  rfl

/-- Words written out field by field from the layouts and the opcode map (R112, R114). -/
theorem test_words_vMask1 : readsAs [
    (.V, 0x0C53A6D0, none, .vfceq 10 29 6 13),
    (.V, 0x0C53A6D1, none, .vfclt 10 29 6 13),
    (.V, 0x0C53A6D2, none, .vfcle 10 29 6 13),
    (.V, 0x0C53A6D3, none, .vfcun 10 29 6 13),
    (.V, 0x0CD3A6D0, none, .viceq 10 29 6 13),
    (.V, 0x0CD3A6D1, none, .viclt 10 29 6 13),
    (.V, 0x0CD3A6D2, none, .vicle 10 29 6 13),
    (.V, 0x0CD3A6D3, none, .vicltu 10 29 6 13),
    (.V, 0x0CD3A6D4, none, .vicleu 10 29 6 13),
    (.V, 0x0D47C590, none, .vsel 17 30 5 9),
    (.V, 0x1462C800, none, .qand 12 5 9),
    (.V, 0x1462C801, none, .qor 12 5 9)] := by
  rfl

/-- Words written out field by field from the layouts and the opcode map (R112, R114). -/
theorem test_words_vMask2 : readsAs [
    (.V, 0x1462C802, none, .qxor 12 5 9),
    (.V, 0x1462C803, none, .qandn 12 5 9),
    (.V, 0x14628004, none, .qnot 12 5),
    (.V, 0x14E2EC00, none, .qgath 12 5 27),
    (.V, 0x15608003, none, .qseti 12 0x8003),
    (.V, 0x15E6C000, none, .qfromv 12 27)] := by
  rfl

/-- Words written out field by field from the layouts and the opcode map (R112, R113, R114). -/
theorem test_words_vConv : readsAs [
    (.V, 0x0E48F656, none, .vcvt 18 7 5 1 0 2 11),
    (.V, 0x0EC8ED36, none, .vpack 18 7 3 0 2 1 11),
    (.V, 0x0F48F656, none, .vunpl 18 7 5 1 0 2 11),
    (.V, 0x0FC8ED36, none, .vunph 18 7 3 0 2 1 11),
    (.V, 0x1056FE00, none, .vaddi 21 0xbf80),
    (.V, 0x1056FE01, none, .vmuli 21 0xbf80),
    (.V, 0x1056FE02, none, .vmaxi 21 0xbf80),
    (.V, 0x1056FE03, none, .vmini 21 0xbf80),
    (.V, 0x10D60004, none, .viaddi 21 0x8001),
    (.V, 0x10D5FFFD, none, .viandi 21 0x7fff),
    (.V, 0x10D4007E, none, .vishli 21 31),
    (.V, 0x10D40043, none, .vishri 21 16)] := by
  rfl

/-- Words written out field by field from the layouts and the opcode map (R112, R114). -/
theorem test_words_vMove : readsAs [
    (.V, 0x185A7863, none, .vld 22 9 14 6 3),
    (.V, 0x18DA7863, none, .vst 22 9 14 6 3),
    (.V, 0x1BDA4060, none, .vstb 22 9 6),
    (.V, 0x194ED7A2, none, .vlda 19 45 7 10 2),
    (.V, 0x194ED7A6, none, .vsta 19 45 7 10 2),
    (.V, 0x19CEDD1D, none, .vldt 19 45 52 7 1),
    (.V, 0x1A4ED7A3, none, .vstm 19 45 7 5 3),
    (.V, 0x1AE5D2DA, none, .vgath 25 14 37 11 2),
    (.V, 0x1B65D2DA, none, .vscat 25 14 37 11 2)] := by
  rfl

/-- Words written out field by field from the layouts and the opcode map (R112, R114). -/
theorem test_words_vCross1 : readsAs [
    (.V, 0x1C47C090, none, .vradd 17 30 9),
    (.V, 0x1C47C091, none, .vrmax 17 30 9),
    (.V, 0x1C47C092, none, .vrmin 17 30 9),
    (.V, 0x1C47C093, none, .vradds 17 30 9),
    (.V, 0x1C47C094, none, .vrmaxs 17 30 9),
    (.V, 0x1C47C095, none, .vrmins 17 30 9),
    (.V, 0x1CC7C090, none, .vcadd 17 30 9),
    (.V, 0x1CC7C091, none, .vcmax 17 30 9),
    (.V, 0x1CC7C092, none, .vcmin 17 30 9),
    (.V, 0x1CC7C093, none, .vcadds 17 30 9),
    (.V, 0x1CC7C094, none, .vcmaxs 17 30 9),
    (.V, 0x1CC7C095, none, .vcmins 17 30 9)] := by
  rfl

/-- Words written out field by field from the layouts and the opcode map (R112, R114). -/
theorem test_words_vCross2 : readsAs [
    (.V, 0x1D5D1FB8, none, .vrrot 23 8 63 7),
    (.V, 0x1D5D07B9, none, .vcrot 23 8 15 7),
    (.V, 0x1D5D143A, none, .vrbc 23 8 40 7),
    (.V, 0x1D5D05BB, none, .vcbc 23 8 11 7),
    (.V, 0x1DDD19B8, none, .vpart 23 8 51 7),
    (.V, 0x1E5EF37D, none, .vragg 23 11 51 7 13),
    (.V, 0x1EDD1500, none, .vbnda 23 8 21),
    (.V, 0x1EDD1821, none, .vbnds 23 8 0xc1),
    (.V, 0x1F7651B4, none, .shape 14 50 4 1 2 1 5),
    (.V, 0x1F680001, none, .rrb 13)] := by
  rfl

/-- Words written out field by field from the layouts and the opcode map (R115, R116). -/
theorem test_words_matrix1 : readsAs [
    (.M, 0x00E9A97A, none, .mply 6 9 10 37 14 1),
    (.M, 0x0169A974, none, .mplyz 6 9 10 37 13 0),
    (.M, 0x01E9A970, none, .mplyk 6 9 10 37 12 0),
    (.M, 0x0269A96E, none, .mplyzk 6 9 10 37 11 1),
    (.M, 0x02E9A96A, none, .mres 6 9 10 37 10 1),
    (.M, 0x03690000, none, .mdrop 6 9),
    (.M, 0x03E9A00A, none, .mmad 6 9 10 1 0 1),
    (.M, 0x044AB620, none, .mmask 37 22 12 1),
    (.M, 0x04D00000, none, .mzero 5),
    (.M, 0x055C0000, none, .madd 5 6),
    (.M, 0x05DBA9C0, none, .mout 5 11 10 2 1 12),
    (.M, 0x06598000, none, .moutb 5 19)] := by
  rfl

/-- Words written out field by field from the layouts and the opcode map (R115, R116). -/
theorem test_words_matrix2 : readsAs [
    (.M, 0x06D98000, none, .mscale 5 19),
    (.M, 0x07598000, none, .mbias 5 19)] := by
  rfl

/-- Words written out field by field from the layouts and the opcode map (R103, R117, R118). -/
theorem test_words_transfer1 : readsAs [
    (.X, 0x00DB99A5, none, .fetch 5 11 38 6 2 0 1 1 none),
    (.X, 0x00DB99A8, (some 0x00000155), .fetch 5 11 38 6 2 1 0 0 (some 0x155)),
    (.X, 0x015B99A8, (some 0x001FFFFF), .rfetch 5 11 38 6 2 1 0x1fffff),
    (.X, 0x01DB99A0, none, .stow 5 11 38 6 2 0 none),
    (.X, 0x025B99A0, (some 0x00000400), .rstow 5 11 38 6 2 0 0x400),
    (.X, 0x02D3CA7C, (some 0x00003401), .send 5 3 12 41 15 0x3401),
    (.X, 0x0353CA9F, (some 0x00001000), .sendb 5 3 50 41 15 0x1000),
    (.X, 0x03D8C0A8, (some 0x000003FF), .copy 5 35 10 1 (some 0x3FF)),
    (.X, 0x0458D2D0, none, .weave 5 35 18 13 0 none),
    (.X, 0x04D51A58, none, .probe 5 2 35 18 3),
    (.X, 0x0558E000, none, .pinv 5 35 1),
    (.X, 0x05DBC000, (some 0xFFFF0001), .screen 5 11 6 0xffff0001)] := by
  rfl

/-- Words written out field by field from the layouts and the opcode map (R103, R117, R118). -/
theorem test_words_transfer2 : readsAs [
    (.X, 0x06500000, none, .scommit 5),
    (.X, 0x06D71A5A, none, .stbl 5 3 35 18 13),
    (.X, 0x0758D215, none, .patch 5 35 18 21),
    (.X, 0x07D8C000, none, .armRec 5 35),
    (.X, 0x085B8C00, none, .ringcfg 5 11 35)] := by
  rfl

/-! WellFormed: for each check a term that breaks it alone, which the check refuses. -/

theorem smoke_counts : ∀ i ∈ [Instr.idle 0, .rep 17 0, .sadd 64 1 1, .swait 0x3FF 1 1, .swaitb 64 1 1, .shli 1 1 64, .shri 1 1 0x7FF,
    .sari 1 1 64, .atomadd 1 1 1 2, .atommin 1 1 1 3, .atommax 1 1 1 2, .atomswp 1 1 1 2, .atomcas 1 1 1 2, .wid 1 6, .rdsp 1 14,
    .wrsp 1 15, .rdsp 1 56, .wrsp 1 160, .cal 1 257, .vishli 1 32, .vishri 1 0xFFFF, .vcrot 1 1 16 0, .vcbc 1 1 16 0],
    i.wellFormed = false := by decide

theorem smoke_types : ∀ i ∈ [Instr.vcvt 1 1 6 0 0 0 0, .vcvt 1 1 0 1 1 0 0, .vpack 1 1 7 0 0 0 0, .vunpl 1 1 6 0 0 0 0,
    .vunph 1 1 0 1 3 0 0, .shape 0 0 6 0 0 0 0], i.wellFormed = false := by decide

theorem smoke_matrix : ∀ i ∈ [Instr.mply 0 0 0 0 0 0, .mplyz 0 0 0 0 0 0, .mplyk 0 0 0 0 0 0, .mplyzk 0 0 0 0 0 0, .mres 0 0 0 0 0 0,
    .mmask 0 0 0 2, .mmask 0 1 0 0, .mout 0 0 12 0 0 0, .mout 0 0 0 0 0 5], i.wellFormed = false := by decide

theorem smoke_transfers : ∀ i ∈ [Instr.fetch 0 0 0 7 0 0 0 0 none, .fetch 0 0 0 0 0 1 0 0 none, .fetch 0 0 0 0 0 0 0 0 (some 0),
    .stow 0 0 0 15 0 0 none, .stow 0 0 0 0 0 1 none, .rfetch 0 0 0 7 0 0 0, .rstow 0 0 0 7 0 0 0, .copy 0 0 7 0 none,
    .copy 0 0 0 1 none, .weave 0 0 0 0 1 none, .weave 0 0 0 0 0 (some 0)], i.wellFormed = false := by decide

/-- The literal words of R103 and R257: reserved bits, a peer where the form has none, a semaphore without a credit, no record. -/
theorem smoke_literals : ∀ i ∈ [Instr.fetch 0 0 0 0 0 1 0 0 (some 0x200000), .stow 0 0 0 0 0 1 (some 0x400), .copy 0 0 0 1 (some 0x400),
    .weave 0 0 0 0 1 (some 0x80000000), .rfetch 0 0 0 0 0 0 1, .rstow 0 0 0 0 0 1 0x200000, .send 0 0 0 0 0 0x4000, .send 0 0 0 0 0 0x800,
    .sendb 0 0 0 0 0 1, .screen 0 0 0 0x10000], i.wellFormed = true ∧ i.literalOk = false := by decide

/-- Beside each bound, the last value within it. -/
theorem smoke_accepted : ∀ i ∈ [Instr.idle 1, .rep 16 0, .sadd 63 1 1, .sadd 0x3FF 1 0, .shli 1 1 63, .atomcas 1 1 1 1, .wid 1 5, .rdsp 1 13,
    .wrsp 1 159, .cal 1 256, .vishli 1 31, .vcrot 1 1 15 0, .vcvt 1 1 5 1 0 0 0, .vcvt 1 1 5 0 3 0 0, .shape 15 63 5 3 3 1 7, .mply 0 0 0 0 1 0,
    .mmask 0 1 0 1, .mout 0 0 11 0 0 12, .fetch 0 0 0 6 0 1 0 0 (some 0x3FF), .rfetch 0 0 0 14 0 1 0x1FFFFF, .send 0 0 0 0 0 0x37FF,
    .screen 0 0 0 1], i.wellFormed = true ∧ i.literalOk = true := by decide

open Sys2Proof.Machine

/-! A running sheet of one core, on which one word is at issue in column `col` at task cycle 5. -/

def theSheet : Sheet := oneSheet 1 0

def ctx (col : Col) : Ctx :=
  { k := 0, col := col, addr := 1, t := 5, off := false, rep := none, word := 0, prev := Cursor.reset }

def core : Core := idleCore 1

def running (x : Ctx) (c : Core) (sh : Sheet) : State :=
  { State.reset with sheets := [sh], cores := [(0, c)], cur := x, nextSheet := 2, ttc := 5 }

theorem runs (x : Ctx) (c : Core) (sh : Sheet) (k : Nat) (hk : k = 0) (hs : c.sh = sh.id) : (running x c sh).Runs k c sh := by
  subst hk
  exact ⟨rfl, by simp [running, State.sheet?, hs]⟩

theorem ready (c : Core) (x : Ctx) (rs : List (Nat × Nat)) (ws : List ((Nat × Nat) × Nat)) (h : c.board = [])
    (hi : c.ill = [] := by rfl) : c.Ready x rs ws := by
  refine ⟨?_, ?_, by simp [Core.illRegs, Core.illFaults, Core.illAt, hi]⟩ <;> intro _ _ p hp <;> rw [h] at hp <;> cases hp

/-- The storage of a core none of whose tiles has a bound is canonical if its tables are. -/
theorem canonical (c : Core) (hb : c.bound = [])
    (h : (Memory.wf c.spad && Tab.wf (0 : W64) c.s && Tab.wf (0 : Half) c.q && Tab.wf (0 : W32) c.v && Tab.wf (0 : W32) c.acc
      && Tab.wf (⟨0, 0, 0, 0, 0⟩ : Sem) c.sem && Tab.wf (⟨0, 0, 0⟩ : Tag) c.tags && Tab.wf noRing c.rings
      && Tab.wf zeroCover c.cover && Tab.wf (⟨0, false, false, false⟩ : ProbeTag) c.ptags && Tab.wf (0x3F800000 : BitVec 39) c.bfmt && Tab.wf (0 : W64) c.bcb && Memory.wf c.screen.tbl
      && Tab.wf (0 : BitVec 40) c.screen.ctr && Tab.wf (0 : BitVec 40) c.screen.limit) = true)
    (hc : c.copyBuf.Pairwise (fun a b => a.1 < b.1) := by first | exact List.Pairwise.nil | exact List.pairwise_singleton _ _) :
    c.Canonical := by
  simp only [Bool.and_eq_true] at h
  obtain ⟨⟨⟨⟨⟨⟨⟨⟨⟨⟨⟨⟨⟨⟨h1, h2⟩, h3⟩, h4⟩, h5⟩, h6⟩, h7⟩, h8⟩, h9⟩, h10⟩, h11⟩, h12⟩, h13⟩, h14⟩, h15⟩ := h
  exact ⟨h1, h2, h3, h4, h5, h6, h7, h8, by rw [hb]; rfl, h9, h10, h11, h12, h13, h14, h15, hc, fun a => by
    simp only [Core.boundOf, hb]; rfl⟩

/-! Each theorem named after a statement shows a state and operands that meet its hypotheses, clause by clause where
they differ. -/

theorem witness_EncodedInstructionsDecode : Instr.inColumn (.fetch 5 11 38 6 2 1 0 0 (some 0x155)) .X = true
    ∧ Instr.wellFormed (.fetch 5 11 38 6 2 1 0 0 (some 0x155)) = true
    ∧ encode ⟨true, 3, .fetch 5 11 38 6 2 1 0 0 (some 0x155)⟩ = some (0xE0DB99A8, some 0x155) := by decide

theorem witness_DecodedWordsEncode : (0x188A17F3 : Nat) < 2 ^ 32 ∧ decode .S 0x188A17F3 none = .ok ⟨false, 0, .std 5 2 0xFE⟩ :=
  ⟨by decide, rfl⟩

theorem witness_ReservedMajorsAreRefused : ∀ c : Col, bits 0x1F800000 23 6 ∈ reservedMajors c ∧ 0 ∉ reservedMajors c := by
  intro c; cases c <;> decide

/-- The core with the column `e` as its S column, at task cycle 5. -/
def issuing (e : Column) (sh : Sheet) : State := running (ctx .S) (core.setCol .S e) sh

/-- Columns whose next word is past the store, tagged, no instruction, an ADD, a Y-marked ADD. -/
def pastStore : Column := { oneWord 0 none 5 with cu := { Cursor.reset with pc := 0x2000, due := 5 } }
def taggedWord : Column := { oneWord 0 none 5 with lits := [(1, true)] }
def nextWords : List Column :=
  [pastStore, taggedWord, oneWord 0x1F800000 none 5, oneWord 0x00831800 none 5, oneWord 0x80831800 none 5]

theorem witness_StepRunsTheDecodedWord :
    (∀ e : Column, (issuing e theSheet).slot = none ∧ ((issuing e theSheet).advance 5).Runs 0 (core.setCol .S e) theSheet)
    ∧ (∀ e ∈ nextWords, (issuing e theSheet).turn = .issue 5 0 .S)
    ∧ 0x1FFF < pastStore.cu.pc ∧ taggedWord.tagged 1 = true
    ∧ decode .S 0x1F800000 none = .error .reservedMajor
    ∧ decode .S 0x00831800 none = .ok ⟨false, 0, .add 1 35 0⟩ ∧ decode .S 0x80831800 none = .ok ⟨true, 0, .add 1 35 0⟩
    ∧ (core.setCol .S (oneWord 0x80831800 none 5)).bundled 5 = true :=
  ⟨fun _ => ⟨rfl, rfl, rfl⟩, by decide, by decide, by decide, rfl, rfl, rfl, by decide⟩

/-- A Y-marked word that another live column does not meet, in a strict and in a lenient sheet. -/
def unmet : Core := (core.setCol .S (oneWord 0x80831800 none 5)).setCol .V (oneWord 1 none 9)

theorem witness_StepRunsTheDecodedWord_unmet : unmet.bundled 5 = false
    ∧ ∀ l, let s := running (ctx .S) unmet { theSheet with lenient := l }
      s.turn = .issue 5 0 .S ∧ (s.advance 5).Runs 0 unmet { theSheet with lenient := l } :=
  ⟨by decide, fun l => by cases l <;> exact ⟨by decide, rfl, rfl⟩⟩

theorem witness_StepMakesWhatIsDueFirst :
    let e : Event := ⟨9, phSeam, none, .placement 0⟩
    let f : Event := ⟨9, phStart, none, .placement 1⟩
    ({ State.reset with agenda := [f, e] }).turn = .event e [f]
    ∧ State.reset.turn = .idle
    ∧ ({ State.reset with pkgs := [{ Package.reset with formed := true }], agenda := [{ e with ttc := 4096 }] }).turn = .seam 4096 := by
  decide

/-- A word whose code has an uncorrectable error; a step of MOUT that reads an accumulator with one. -/
theorem witness_StepRunsTheDecodedWord_ill :
    (let c := { core.setCol .S (oneWord 0x00831800 none 5) with ill := [(4, 1)] }
     let s := running (ctx .S) c theSheet
     s.turn = .issue 5 0 .S ∧ (s.advance 5).Runs 0 c theSheet ∧ c.illCode ((c.col .S).context 0 .S 5) false ≠ [])
    ∧ (running (ctx .S) core theSheet).illReads (.moutRow ⟨⟨0, .M, 1, 1, 1⟩, 0, 1, 0, 0, 0, 0, 0⟩ 0) = none
    ∧ ((running (ctx .S) { core with ill := [(2, 0)] } theSheet).illReads (.moutRow ⟨⟨0, .M, 1, 1, 1⟩, 0, 1, 0, 0, 0, 0, 0⟩ 0)).isSome = true :=
  ⟨⟨by decide, ⟨rfl, rfl⟩, by decide⟩, by decide, by decide⟩

/-- A core with a corrected error in an on-die store, and without. -/
theorem witness_StepMakesWhatIsDueFirst_corrected :
    (∀ c : Core, c.ill = [] → (running (ctx .S) c theSheet).soft = [])
    ∧ (let c := { core.setCol .S (oneWord 0x00831800 none 5) with ill := [(20, 0)] }
       (running (ctx .S) c theSheet).soft ≠ [] ∧ ∃ t, (running (ctx .S) c theSheet).oneStep = .next t) :=
  ⟨fun c h => by simp [State.soft, running, h], by decide +kernel, _, rfl⟩

theorem witness_ProgramWordsKeepTheRest : Instr.inColumn (.add 1 2 3) .S = true ∧ Instr.inColumn (.vadd 1 2 3 0) .V = true
    ∧ Instr.inColumn (.mzero 1) .M = true := by decide

/-- The sheet of the word runs; it has stopped. -/
theorem witness_ProgramWordsKeepTheRest_running :
    (∀ o, (running (ctx o) core theSheet).Runs 0 core theSheet) ∧ theSheet.state = 5 ∧ theSheet.stops = []
    ∧ ({ theSheet with stops := [(0, 4)] } : Sheet).stops ≠ [] := ⟨fun _ => ⟨rfl, rfl⟩, rfl, rfl, by decide⟩

theorem witness_MemoryStaysCanonical : (issuing (oneWord 0x00831800 none 5) theSheet).MemCanonical
    ∧ ∃ t, step (issuing (oneWord 0x00831800 none 5) theSheet) = .next t :=
  ⟨⟨(fun p hp => by revert p; decide), (fun e he => by revert e; decide), (fun e he => by revert e; decide)⟩, ⟨_, rfl⟩⟩

theorem witness_StorageStaysCanonical : State.Canonical (issuing (oneWord 0x00831800 none 5) theSheet) :=
  ⟨(fun p hp => by
      obtain rfl : p = Package.reset := by
        simpa [issuing, running, State.reset, List.mem_replicate] using (List.eq_of_mem_replicate hp)
      exact ⟨rfl, rfl, fun _ => rfl, rfl, rfl, rfl, rfl, rfl, rfl, rfl, rfl, rfl, rfl, rfl, rfl, rfl, rfl, by simp [Package.reset]⟩),
    (fun e he => by
      obtain rfl : e = (0, core.setCol .S (oneWord 0x00831800 none 5)) := by simpa [issuing, running] using he
      exact canonical _ rfl rfl),
    (fun e he => by cases he), (fun e he => by cases he)⟩

/-! Core `c`, on which a word of column `o` is at issue at task cycle 5, with nothing in flight. -/

structure Meets (c : Core) (o : Col) (sh : Sheet) : Prop where
  runs : (running (ctx o) c sh).Runs 0 c sh
  ready : ∀ rs ws, c.Ready (ctx o) rs ws
  quiet : ∀ t lo hi, c.Quiet t lo hi
  latest : ∀ d lo hi, c.Latest d lo hi
  alone : ∀ cls, (running (ctx o) c sh).writersNow 0 cls = []

theorem meets (c : Core) (o : Col) (sh : Sheet) (hs : c.sh = sh.id) (hb : c.board = []) (hr : c.rmw = []) (ha : c.acc1 = [])
    (hd : c.bad = []) (hw : c.wlast = []) (hi : c.ill = [] := by rfl) : Meets c o sh :=
  ⟨runs _ _ _ _ rfl hs, fun _ _ => ready _ _ _ _ hb hi,
    fun _ _ _ => ⟨by rw [hr]; simp, by rw [ha]; simp, by rw [hd]; simp⟩, fun _ _ _ => by unfold Core.Latest; rw [hw]; simp,
    fun _ => rfl⟩

theorem meetsCore (o : Col) : Meets core o theSheet := meets _ _ _ rfl rfl rfl rfl rfl rfl

theorem coreCanonical : core.Canonical := canonical _ rfl rfl

/-- The core with s-registers set. -/
def withS (l : Tab W64) : Core := { core with s := l }

theorem meetsS (l : Tab W64) (o : Col) (sh : Sheet) (h : sh.id = 1) : Meets (withS l) o sh :=
  meets _ _ _ h.symm rfl rfl rfl rfl rfl

theorem witness_IntegerResults : Meets core .S theSheet ∧ (ctx .S).off = false ∧ (63#11).toNat < 64 :=
  ⟨meetsCore .S, rfl, by decide⟩

theorem witness_CompareSelectAndConstantResults : Meets core .S theSheet ∧ (ctx .S).off = false
    ∧ (running { ctx .S with off := true } core theSheet).Runs 0 core theSheet
    ∧ Instr.inColumn (.add 1 2 3) .S = true ∧ Instr.inColumn (.add 1 2 3) .X = false :=
  ⟨meetsCore .S, rfl, ⟨rfl, rfl⟩, by decide⟩

theorem witness_ScalarFloatResults : Meets core .S theSheet ∧ fp32.value 0x7FC00000 = .nan false
    ∧ fp32.value 0xFF800000 = .inf true ∧ fp32.value 0x3F800000 = .fin false 8388608 (-23) := ⟨meetsCore .S, by decide⟩

theorem witness_SumsAndProductsRoundOnce : fp32.Number 0x3F800000 ∧ bf16.Number 0x3F80 ∧ fp16.Number 0x3C00
    ∧ (fp32.value 0x3F800000).num ≠ 0 := by
  refine ⟨⟨by decide, false, 8388608, -23, by decide⟩, ⟨by decide, false, 128, -7, by decide⟩,
    ⟨by decide, false, 1024, -10, by decide⟩, ?_⟩
  rw [show fp32.value 0x3F800000 = .fin false 8388608 (-23) by decide]
  norm_num [FV.num]

/-- s1 holds an address inside the scratchpad, an unaligned one and one outside; bank 2 is read only. -/
theorem witness_LoadsAndStores (a : W64) : Meets (withS [(1, a)]) .S theSheet
    ∧ (a = 0x17FFF8 → ((withS [(1, a)]).sget 1).toNat < 0x180000 ∧ ((withS [(1, a)]).sget 1).toNat % 8 = 0)
    ∧ (a = 0x1001 → ¬((withS [(1, a)]).sget 1).toNat % 8 = 0 ∧ ((withS [(1, a)]).sget 1).toNat < 0x180000
        ∧ ((withS [(1, a)]).bfmtReg (((withS [(1, a)]).sget 1).toNat / 65536)).getLsbD 38 = false) ∧ (a = 0x180000 → 0x180000 ≤ ((withS [(1, a)]).sget 1).toNat)
    ∧ core.Canonical ∧ Meets core .S theSheet ∧ (core.bfmtReg 2).getLsbD 38 = false
    ∧ (({ core with bfmt := [(2, 0x403F800000)] } : Core).bfmtReg 2).getLsbD 38 = true := by
  refine ⟨meetsS _ _ _ rfl, ?_, ?_, ?_, coreCanonical, meetsCore .S, by decide, by decide⟩ <;> rintro rfl <;> decide

theorem witness_AtomicsAndWritebacks : Meets (withS [(1, 0x1000)]) .S theSheet ∧ ((withS [(1, 0x1000)]).sget 1).toNat = 0x1000
    ∧ core.Canonical ∧ core.rmw = [] ∧ core.fcyc ≤ (running (ctx .S) core theSheet).task theSheet :=
  ⟨meetsS _ _ _ rfl, by decide, coreCanonical, rfl, by decide⟩

theorem witness_WorkIdentifierWords : Meets core .S theSheet
    ∧ decode .S 0x1E120500 none = .ok ⟨false, 0, .wid 9 5⟩ := ⟨meetsCore .S, rfl⟩

theorem witness_CalendarAndAbort : Meets core .S theSheet ∧ (running { ctx .S with off := true } core theSheet).Runs 0 core theSheet
    ∧ decode .S 0x1F1B0000 none = .ok ⟨false, 0, .cal 13 256⟩ := ⟨meetsCore .S, ⟨rfl, rfl⟩, rfl⟩

theorem witness_SpecialRegisters (p : Bool) (v : W64) : Meets (withS [(1, v)]) .S { theSheet with priv := p }
    ∧ (v = 0x500 → (((withS [(1, v)]).sget 1).extractLsb' 8 3).toNat < 6)
    ∧ (v = 0x700 → 6 ≤ (((withS [(1, v)]).sget 1).extractLsb' 8 3).toNat)
    ∧ (v = 0xB00000000 → (((withS [(1, v)]).sget 1).extractLsb' 32 4).toNat < 12)
    ∧ (v = 0xC00000000 → 12 ≤ (((withS [(1, v)]).sget 1).extractLsb' 32 4).toNat) := by
  refine ⟨meetsS _ _ _ rfl, ?_, ?_, ?_, ?_⟩ <;> rintro rfl <;> decide

theorem witness_SpecialRegisters_unassigned : decode .S 0x1E964D00 none = .ok ⟨false, 0, .rdsp 11 0x4d⟩ := rfl

/-- Semaphore 3 counts 7 and 7 pending bytes; s1 asks for 7, s2 for 8. -/
def withSem : Core := { core with s := [(1, 7), (2, 8)], sem := [(3, ⟨7, 7, 0, 0, 0⟩)] }

theorem witness_SemaphoresAndStalls (l : Bool) : Meets withSem .X { theSheet with lenient := l } ∧ withSem.Canonical
    ∧ (withSem.semAt 5 3).cyc ≤ 5 ∧ (withSem.sget 1).toNat % 2 ^ 32 ≤ (withSem.semAt 5 3).count.toNat
    ∧ (withSem.semAt 5 3).count.toNat < (withSem.sget 2).toNat % 2 ^ 32
    ∧ (withSem.sget 1).toNat % 2 ^ 40 ≤ (withSem.semAt 5 3).pend.toNat
    ∧ (withSem.semAt 5 3).pend.toNat < (withSem.sget 2).toNat % 2 ^ 40 :=
  ⟨meets _ _ _ rfl rfl rfl rfl rfl rfl, canonical _ rfl rfl, by decide, by decide, by decide, by decide, by decide⟩

theorem witness_SemaphoresAndStalls_lenient (n : Nat) :
    let sh := { theSheet with lenient := true, stall := some (3, .sem 0 3 false n) }
    let s := running (ctx .X) withSem sh
    s.sheet? sh.id = some sh ∧ 3 ≤ s.task sh ∧ sh.stops = []
    ∧ (n = 7 → s.waitOver (s.task sh) (.sem 0 3 false n) = true) ∧ (n = 8 → s.waitOver (s.task sh) (.sem 0 3 false n) = false) := by
  refine ⟨rfl, (by decide : (3 : Nat) ≤ 5), rfl, ?_, ?_⟩ <;> rintro rfl <;> decide

theorem witness_PaceOfAColumn : Meets core .S theSheet ∧ Column.loopOk (core.col .S) Cursor.reset 1 3 = true
    ∧ (∀ o : Col, o ≠ .V ∨ core.shape.extractLsb' 0 3 = 0) := ⟨meetsCore .S, by decide, fun _ => Or.inr rfl⟩

/-- A V column under SHAPE.STG = 1 with a loop of three NOPs, or with RRB in its body. -/
def turning (w : W32) : Core := { core.setCol .V { code := [(1, 0x00200002), (2, w), (3, 0), (4, 0)], lits := [], cu := Cursor.reset } with shape := 1 }

theorem witness_PaceOfAColumn_rotates (w : W32) : Meets (turning w) .V theSheet
    ∧ ¬((Col.V : Col) ≠ .V ∨ (turning w).shape.extractLsb' 0 3 = 0)
    ∧ (w = 0 → Column.loopOk ((turning w).col .V) Cursor.reset 1 4 = true ∧ ((turning w).col .V).rotatable 1 4 2 = true)
    ∧ (w = 0x1F000001 → Column.loopOk ((turning w).col .V) Cursor.reset 1 4 = true ∧ ((turning w).col .V).rotatable 1 4 2 = false) := by
  refine ⟨meets _ _ _ rfl rfl rfl rfl rfl rfl, by simp [turning], ?_, ?_⟩ <;> rintro rfl <;> decide

theorem witness_PaceOfAColumn_loops :
    (∀ l ∈ (Cursor.reset).loops.head?, 3 ≤ l.last) ∧ (⟨2, 4, 1, 0, 0, none⟩ : Loop).last < 5
    ∧ 0 < (⟨2, 4, 1, 0, 0, none⟩ : Loop).left ∧ (⟨2, 4, 0, 0, 0, none⟩ : Loop).left = 0
    ∧ (⟨2, 4, 1, 0, 0, some (2, 3)⟩ : Loop).rot = some (2, 3) := by decide

/-- A V column with REP and the word it governs (R109: VMUL v20, v8, v2 under a stride of 6), and one it may not govern. -/
def repColumn (w : W32) : Column := { code := [(1, 0x00608C00), (2, w)], lits := [], cu := { Cursor.reset with pc := 1, due := 5 } }

theorem witness_GoverningWordsAndRepetition (w : W32) : Meets (core.setCol .V (repColumn w)) .V theSheet
    ∧ (w = 0x00D10202 → (repColumn w).governable Cursor.reset true 2 = true ∧ (repColumn w).governable Cursor.reset false 2 = true
        ∧ decode .V w.toNat none = .ok ⟨false, 0, .vmul 20 8 2 0⟩
        ∧ bits w.toNat 18 5 + (2 - 1) * 6 ≤ 31 ∧ 31 < bits w.toNat 18 5 + (3 - 1) * 6)
    ∧ (w = 0 → (repColumn w).governable Cursor.reset false 2 = false)
    ∧ (w = 0x00D3C202 → bits w.toNat 18 5 ≤ 31 ∧ 31 < bits w.toNat 13 5 + (2 - 1) * 6)
    ∧ ({ core with cols := (core.cols.1, { repColumn w with cu := { Cursor.reset with gov := .rep 0 2 6 0 5 } }, core.cols.2.2) } : Core).Canonical
    ∧ (0 : Nat) < 3 ∧ 3 ≤ 8 := by
  refine ⟨meets _ _ _ rfl rfl rfl rfl rfl rfl, ?_, ?_, ?_, canonical _ rfl rfl, by decide⟩
  · rintro rfl; exact ⟨by decide, by decide, rfl, by decide⟩
  · rintro rfl; decide
  · rintro rfl; decide

/-- A word that decodes in no column, one that decodes without the literal that it needs, under IF and under REP; a core without
conditions on p-registers. -/
theorem witness_GoverningWordsAndRepetition_unsound :
    (repColumn 0x02800000).governable Cursor.reset false 2 = true ∧ (repColumn 0x02800000).governable Cursor.reset true 2 = true
    ∧ (∃ e, decode .V 0x02800000 none = .error e)
    ∧ ((repColumn 0x00D10202).literal 2) = none ∧ (∃ d, decode .V 0x00D10202 none = .ok d ∧ d.ins.literalOk = true) :=
  ⟨by decide, by decide, ⟨_, rfl⟩, by decide, ⟨_, rfl, by decide⟩⟩

/-- Ring 1 of four one-frame tiles from frame 16, tile 0 pushed at cycle 2 (tags of lap 1 on frame 16); ring 2 is
unconfigured; s1 holds 0x20000. -/
def aRing : Ring :=
  { noRing with first := 16, nfr := 4, tile := 1, gbase := [0, 0, 0, 0], wr := 4096, rd := 0, tiles := [⟨0, 0, some 2, 4096, none, 0⟩] }

def withRing : Core := { core with rings := [(1, aRing)], s := [(1, 0x20000)], tags := [(16, ⟨1, 0, 0⟩)] }

theorem meetsRing (o : Col) : Meets withRing o theSheet := meets _ _ _ rfl rfl rfl rfl rfl rfl

theorem ringCanonical : withRing.Canonical := canonical _ rfl rfl

/-- The core with SHAPE set; rows and columns are both 0, so that lane 0 alone is active. -/
def withShape (v : BitVec 21) : Core := { core with shape := v }

theorem meetsShape (v : BitVec 21) (o : Col) : Meets (withShape v) o theSheet := meets _ _ _ rfl rfl rfl rfl rfl rfl

theorem laneZeroOn : laneOn (core.shapeFor (ctx .V)) (core.qget 0) 0 = true := by decide

theorem noLaneOn (l : Nat) : laneOn (core.shapeFor (ctx .V)) (core.qget 1) l = false := by
  have h : core.qget 1 = List.replicate 64 0 := by decide
  simp only [laneOn, h, List.getD_eq_getElem?_getD, List.getElem?_replicate]
  split <;> simp

/-- Types F32, F16x2 and BF16x2. -/
theorem witness_VectorFloatResults : Meets core .V theSheet ∧ etyFloat (core.shapeFor (ctx .V)).ety = some fp32
    ∧ (∃ l < 1024, laneOn (core.shapeFor (ctx .V)) (core.qget 0) l = true)
    ∧ etyFloat ((withShape 0x200).shapeFor (ctx .V)).ety = some fp16 ∧ etyFloat ((withShape 0x300).shapeFor (ctx .V)).ety = some bf16 :=
  ⟨meetsCore .V, by decide, ⟨0, by decide, laneZeroOn⟩, by decide, by decide⟩

theorem witness_VectorIntegerResults : Meets core .V theSheet ∧ etyFloat (core.shapeFor (ctx .V)).ety = some fp32
    ∧ (∃ l < 1024, laneOn (core.shapeFor (ctx .V)) (core.qget 0) l = true)
    ∧ etyWidth ((withShape 0x500).shapeFor (ctx .V)).ety = 8 := ⟨meetsCore .V, by decide, ⟨0, by decide, laneZeroOn⟩, by decide⟩

theorem witness_VectorComparesAndMasks : Meets core .V theSheet ∧ etyFloat (core.shapeFor (ctx .V)).ety = some fp32 :=
  ⟨meetsCore .V, by decide⟩

theorem witness_VectorWordsOffAndShape : Meets core .V theSheet ∧ (∀ l < 1024, laneOn (core.shapeFor (ctx .V)) (core.qget 1) l = false)
    ∧ (etyFloat (core.shapeFor (ctx .V)).ety).isSome = true
    ∧ Meets (withShape 0x100) .V theSheet ∧ etyFloat ((withShape 0x100).shapeFor (ctx .V)).ety = none :=
  ⟨meetsCore .V, fun l _ => noLaneOn l, by decide, meetsShape _ _, by decide⟩

/-- F32 to I32, to F16x2, from F16x2; the largest F32 does not fit FP16 under policy TRAP. -/
theorem witness_ConversionResults : Meets core .V theSheet ∧ (core.shapeFor (ctx .V)).ety = 0 ∧ etyCount 1 = etyCount 0
    ∧ etyCount 2 = 2 * etyCount 0 ∧ (30#5) ≠ 31 ∧ ((withShape 0x200).shapeFor (ctx .V)).ety = 2
    ∧ (convertTo (etyFmt 2) 0 3 (valueOf (etyFmt 0) [] 0x7F7FFFFF)).trap = true
    ∧ (convertTo (etyFmt 2) 0 3 (valueOf (etyFmt 0) [] 0x3F800000)).trap = false
    ∧ (∃ l < 1024, laneOn (core.shapeFor (ctx .V)) (core.qget 0) l = true)
    ∧ (∀ l < 1024, laneOn (core.shapeFor (ctx .V)) (core.qget 1) l = false) :=
  ⟨meetsCore .V, by decide, by decide, by decide, by decide, by decide, by decide, by decide, ⟨0, by decide, laneZeroOn⟩,
    fun l _ => noLaneOn l⟩

theorem witness_ReductionResults : Meets core .V theSheet ∧ (core.shapeFor (ctx .V)).rag = false
    ∧ Meets (withShape 8) .V theSheet ∧ ((withShape 8).shapeFor (ctx .V)).rag = true :=
  ⟨meetsCore .V, by decide, meetsShape _ _, by decide⟩

theorem witness_PermutationPartitionAndBounds : Meets core .V theSheet ∧ (15#6).toNat < 16
    ∧ (∃ l < 1024, laneOn (core.shapeFor (ctx .V)) (core.qget 0) l = true) :=
  ⟨meetsCore .V, by decide, ⟨0, by decide, laneZeroOn⟩⟩

theorem witness_VectorLoadAndStoreWords : Meets withRing .V theSheet ∧ withRing.Canonical ∧ (withRing.ring 1).nfr ≠ 0
    ∧ withRing.ringOpen 5 1 ∧ (withRing.ring 2).nfr = 0 ∧ ¬withRing.ringOpen 5 2
    ∧ (lanesOn (withRing.shapeFor (ctx .V)) (withRing.qget 0)).any id = true
    ∧ (lanesOn (withRing.shapeFor (ctx .V)) (withRing.qget 1)).any id = false
    ∧ withRing.image 0 (aRing.addr aRing.rd) (aRing.runs aRing.rd) = .ok (4096, [(1, .bit)])
    ∧ withRing.image 0 (aRing.addr aRing.wr) (aRing.runs aRing.wr) = .ok (4096, [(1, .bit)])
    ∧ aRing.pushedBefore 5 4096 ∧ (aRing.reserve 5 4096).isSome = true
    ∧ ({ aRing with wr := 0, tiles := [⟨3, 0, some 2, 4096, none, 0⟩] } : Ring).reserve 5 4096 ≠ none
    ∧ ({ aRing with wr := 16384 } : Ring).reserve 5 4096 = none ∧ ({ aRing with side := true } : Ring).side = true := by
  refine ⟨meetsRing .V, ringCanonical, by decide, ⟨by decide, by decide⟩, by decide, fun h => absurd h.1 (by decide), by decide +kernel,
    by decide +kernel, by decide +kernel, by decide +kernel, ?_, by decide, by decide, by decide, rfl⟩
  intro k hk
  obtain rfl : k = 0 := by simpa [Ring.tilesOf, aRing, noRing, Ring.tileBytes] using hk
  exact ⟨_, rfl, 2, by decide, rfl⟩

/-- s1 holds an aligned address of 4,096 bytes in the scratchpad, one at its end, one beyond it. -/
theorem witness_VectorLoadAndStoreWords_images (a : W64) : Meets (withS [(1, a)]) .V theSheet ∧ ((withS [(1, a)]).sget 1 = a)
    ∧ (a = 0x17F000 → a.toNat % 64 = 0 ∧ a.toNat + 4096 ≤ 0x180000 ∧ a.toNat % 4096 + 4096 ≤ 4096 ∧ a.toNat + 2047 < 0x180000
      ∧ (withS [(1, a)]).image 0 a.toNat (fun n => [(a.toNat, min n (0x180000 - a.toNat))]) = .ok (4096, [(23, .bit)]))
    ∧ (a = 0x17F040 → a.toNat < 0x180000 ∧ ¬a.toNat + 4096 ≤ 0x180000) ∧ (a = 0x180000 → 0x180000 ≤ a.toNat) := by
  refine ⟨meetsS _ _ _ rfl, rfl, ?_, ?_, ?_⟩ <;> rintro rfl <;> decide

/-- Bank 2 in FP8 E4M3 takes F32 by value and no F16x2. -/
def fp8Bank : Core := { core with bfmt := [(2, 0x43F800000)], s := [(1, 0x20000)], shape := 0x200 }

theorem witness_GatherAndScatter : Meets core .V theSheet ∧ pathOf (core.bank 0) (core.shapeFor (ctx .V)).ety = some .bit
    ∧ Meets fp8Bank .V theSheet ∧ (fp8Bank.sget 1).toNat = 0x20000 ∧ pathOf (fp8Bank.bank 2) (fp8Bank.shapeFor (ctx .V)).ety = none
    ∧ pathOf (fp8Bank.bank 2) 0 = some (.value 8) ∧ core.Canonical ∧ core.cuts = [] ∧ core.wp = [] ∧ (core.bfmtReg 2).getLsbD 38 = false
    ∧ (let g : GatherRun := ⟨⟨0, .V, 1, 17, 5⟩, true, 2, 3, 0, .bit, [(7, 0x100000, 5)], [], 0⟩
       g.item.find? (fun i => i.1 == 7) = some (7, 0x100000, 5) ∧ pathWidth g.path = 32) :=
  ⟨meetsCore .V, by decide, meets _ _ _ rfl rfl rfl rfl rfl rfl, by decide, by decide, by decide, coreCanonical, rfl, rfl, by decide,
    by decide⟩

/-- A ring whose tile has been pushed, under a ragged F32 shape; the table address of a restart is even, or odd. -/
def raggedCore (a : W64) : Core := { withRing with shape := 8, s := [(1, a)] }

theorem witness_RaggedWalks : Meets (raggedCore 0x8000000000020000) .V theSheet ∧ (raggedCore 0x8000000000020000).Canonical
    ∧ ((raggedCore 0x8000000000020000).shapeFor (ctx .V)).rag = true ∧ ((raggedCore 0x8000000000020000).shapeFor (ctx .V)).ety ≤ 1
    ∧ (raggedCore 0x8000000000020000).ringOpen 5 1 ∧ aRing.pushedBefore 5 4
    ∧ (0x8000000000020000 : W64).getLsbD 63 = true ∧ (0x8000000000020000 : W64).getLsbD 0 = false
    ∧ Meets (raggedCore 0x8000000000020001) .V theSheet ∧ (0x8000000000020001 : W64).getLsbD 0 = true
    ∧ (core.shapeFor (ctx .V)).rag = false := by
  refine ⟨meets _ _ _ rfl rfl rfl rfl rfl rfl, canonical _ rfl rfl, by decide, by decide, ⟨by decide, by decide⟩, ?_, by decide, by decide,
    meets _ _ _ rfl rfl rfl rfl rfl rfl, by decide, by decide⟩
  intro k hk
  obtain rfl : k = 0 := by simpa [Ring.tilesOf, aRing, noRing, Ring.tileBytes] using hk
  exact ⟨_, rfl, 2, by decide, rfl⟩

/-- A walk that is in no step, one that a restart sends beyond the scratchpad, and a stream whose walk is done. -/
def aRagged (restart : Option Nat) : RaggedRun := ⟨⟨0, .V, 1, 7, 5⟩, [0, 1], 3, 2, restart, [], 0, 80⟩

theorem witness_RaggedWalks_walk :
    let c : Core := { core with walker := { core.walker with out := [((aRagged none).d, [some true, none])] } }
    let m : Move := ⟨(aRagged none).d, 0, 0, 2, 1, .ragged (aRagged none), none, 64, none, [some 7, some 8], [], 0⟩
    Meets core .V theSheet ∧ core.walker.run = none
    ∧ (let w : Walker := { core.walker with tab := 0x17FFFE, ended := false }
       let n := 2 * (ragWalk 2048 2 ((List.range 32).map fun i => BitVec.ofNat 16 (core.bytesAt (0x17FFFE + 2 * i) 2)) w 0).2.2.1
       0x180000 < 0x17FFFE + n)
    ∧ (let w : Walker := { core.walker with tab := 0x1000, ended := false }
       let n := 2 * (ragWalk 2048 2 ((List.range 32).map fun i => BitVec.ofNat 16 (core.bytesAt (0x1000 + 2 * i) 2)) w 0).2.2.1
       0x1000 + n ≤ 0x180000)
    ∧ (running (ctx .V) c theSheet).Runs m.k c theSheet ∧ c.Canonical ∧ m.kind = .ragged (aRagged none)
    ∧ c.walker.out.find? (fun o => sameWord o.1 (aRagged none).d) = some ((aRagged none).d, [some true, none])
    ∧ (aRagged none).lanes.Nodup ∧ (∀ l ∈ (aRagged none).lanes, l < 1024) ∧ m.lanes.length = (aRagged none).lanes.length :=
  ⟨meetsCore .V, rfl, by decide +kernel, by decide +kernel, ⟨rfl, rfl⟩, canonical _ rfl rfl, rfl, by decide, by decide, by decide, rfl⟩

/-- A beat of 64 bytes at 0x20000: read into v3, and written by a store. -/
def aPiece : Piece := ⟨5, 0x20000, 64, 0, List.replicate 64 (some 1), []⟩
def aMove (kind : MoveKind) : Move := ⟨⟨0, .V, 1, 7, 5⟩, 0, 0, 2, 1, kind, none, 64, none, [], [], 0⟩

theorem witness_VectorBeats :
    let r : VResult := ⟨[(3, List.replicate 1024 (some 1))], [(2, List.replicate 64 (some 1))], 0⟩
    let m := aMove (.load 3 80 (List.replicate 64 0xFFFF) [(2, .bit)])
    Meets core .V theSheet ∧ core.Canonical ∧ (r.v.map Prod.fst).Nodup ∧ (r.q.map Prod.fst).Nodup
    ∧ (∀ e ∈ r.v, e.2.length = 1024) ∧ (∀ e ∈ r.q, e.2.length = 64)
    ∧ (∀ m : Move, m.k = 0 → m.ring = none → m.tag = none → (running (ctx .V) core theSheet).Clear core theSheet m aPiece)
    ∧ m.bytes = [] ∧ pathWidth (pathIn [(2, .bit)] (aPiece.addr / 65536)) = 32 ∧ aPiece.len * 8 % 32 = 0
    ∧ m.lanes.length + aPiece.len * 8 / 32 ≤ 1024
    ∧ aPiece.nib = [] ∧ aPiece.data.length = aPiece.len ∧ core.wp = [] ∧ (core.bfmtReg (aPiece.addr / 65536)).getLsbD 38 = false
    ∧ (aPiece.addr + aPiece.len - 1) / 65536 = aPiece.addr / 65536 := by
  refine ⟨meetsCore .V, coreCanonical, by decide, by decide, ?_, ?_, ?_, rfl, by decide, by decide, by decide, rfl, rfl, rfl, by decide,
    by decide⟩
  · intro e he; obtain rfl : e = (3, List.replicate 1024 (some 1)) := List.mem_singleton.mp he
    exact List.length_replicate
  · intro e he; obtain rfl : e = (2, List.replicate 64 (some 1)) := List.mem_singleton.mp he
    exact List.length_replicate
  · intro m hk hr ht
    refine ⟨by decide, (meetsCore .V).quiet _ _ _, ?_, (fun _ h => by cases h), ?_⟩
    · rw [hk, (meetsCore .V).alone]; simp
    · simp [Core.pieceTags, hr, ht]

/-- A store of lane values to an unformatted bank, and to a bank in FP8 under policy TRAP where lane 0 does not fit. -/
theorem witness_VectorBeats_store :
    let m : StoreRun := ⟨⟨0, .V, 1, 7, 5⟩, 2, 0, [(2, .bit)], 0, none, List.replicate 1024 1, List.replicate 1024 true, [(0x20000, 4096)], none, none,
      none⟩
    Meets core .V theSheet ∧ m.lanes.length = 1024 ∧ m.on.length = 1024
    ∧ (∀ l < 1024, ∃ p, (runAddr m.runs (32 * l / 8) / 65536, p) ∈ m.paths)
    ∧ (storeCode (core.bank 2) .bit 0 none 1).trap = false
    ∧ (storeCode (fp8Bank.bank 2) (.value 8) 0 (some 3) 0x7F7FFFFF).trap = true := by
  refine ⟨meetsCore .V, by decide +kernel, by decide +kernel, ?_, by decide, by decide⟩
  intro l hl
  refine ⟨.bit, ?_⟩
  have : runAddr [(0x20000, 4096)] (32 * l / 8) = 0x20000 + 4 * l := by
    unfold runAddr; rw [if_pos (by omega)]; omega
  rw [this]
  have : (0x20000 + 4 * l) / 65536 = 2 := by omega
  rw [this]; decide

/-- Rings of the M column: ring 1 weights from frame 128, of two-frame tiles; ring 2 FP8 activations from frame 32, of
eight-frame tiles with row maxima. The first tile of each was pushed at cycle 2. -/
def weightRing : Ring :=
  { noRing with first := 128, nfr := 18, tile := 9, gbase := List.replicate 18 0, wr := 36864, tiles := [⟨0, 0, some 2, 36864, none, 0⟩] }
def actRing : Ring :=
  { noRing with first := 32, nfr := 16, tile := 8, act := true, gbase := List.replicate 16 0, wr := 32768, tiles := [⟨0, 0, some 2, 32768, none, 0⟩] }
def mill : Core :=
  { core with bfmt := [(2, 0x43F800000), (8, 0x43F800000)], rings := [(1, weightRing), (2, actRing)], tags := [(128, ⟨1, 0, 0⟩)]
              spad := [(0x80001, 0x10), (0x80005, 4)] }

theorem meetsMill : Meets mill .M theSheet ∧ mill.Canonical := ⟨meets _ _ _ rfl rfl rfl rfl rfl rfl, canonical _ rfl rfl⟩

theorem witness_PlyProducts : Meets mill .M theSheet ∧ mill.Canonical ∧ mill.ringOpen 5 1 ∧ mill.ringOpen 5 2
    ∧ (∃ fmt, mill.operand 2 actRing.head = .ok fmt ∧ fmt.fmt = 4 ∧ 4096 * fmtWidth fmt.fmt ≤ actRing.tileBytes)
    ∧ actRing.ready 5 actRing.head = true ∧ mill.Idle (ctx .M) [0, 8] ∧ mill.MaskStill (ctx .M) ∧ (mill.coverOf 0).kind ≠ 2
    ∧ (mill.ring 2).act = true ∧ (({ mill with bound := [(0, { zeroBound with opened := true })] } : Core).boundOf 0).opened = true := by
  refine ⟨meetsMill.1, meetsMill.2, ⟨by decide, by decide⟩, ⟨by decide, by decide⟩, ⟨_, rfl, by decide, by decide⟩, by decide, ?_, ?_,
    by decide, by decide, by decide⟩
  · intro o ho; cases ho
  · intro a ha; cases ha

/-- A ply word in its span whose weight ring holds a header (or no pushed tile), with its budget or without. -/
def plying (r : MRun) : Core := { mill with array := some r }

theorem witness_PlyProducts_header (b : Nat) :
    let r := { emptyRun with opens := true, gw := 1, cap := 3, budget := b }
    let h := parseHdr ((List.range 0x440).map fun i => mill.byte (weightRing.addr 0 + i))
    Meets (plying r) .M theSheet ∧ (plying r).Canonical ∧ (plying r).array = some r ∧ r.failed = false
    ∧ ({ r with failed := true } : MRun).failed = true ∧ (mill.ring 3).ready 5 0 = false
    ∧ weightRing.ready 5 weightRing.head = true ∧ mill.tagFault 5 (weightRing.addr 0 / 4096) (weightRing.wantTag 0) r.d = []
    ∧ h.bad = false ∧ h.index = r.cursor ∧ 1 + h.dataFrames ≤ weightRing.tile ∧ r.slots ≠ r.cap
    ∧ (b = 0 → b < h.cost) ∧ (b = 1024 → h.cost ≤ b) := by
  refine ⟨meets _ _ _ rfl rfl rfl rfl rfl rfl, canonical _ rfl rfl, rfl, rfl, rfl, rfl, by decide,
    (by decide +kernel : mill.tagFault 5 (weightRing.addr 0 / 4096) (weightRing.wantTag 0) emptyRun.d = []), by decide +kernel,
    (by decide +kernel : (parseHdr ((List.range 0x440).map fun i => mill.byte (weightRing.addr 0 + i))).index = 0), by decide +kernel,
    (by decide : (0 : Nat) ≠ 3), ?_, ?_⟩ <;> rintro rfl <;> decide +kernel

/-- The bank of the activations, or of the weights, in FP32, with SCALE 2, the tile an integer tile, its block not open. -/
theorem witness_PlyProducts_refused : (∀ e, mill.operand 1 weightRing.head ≠ .error e)
    ∧ (let c : Core := { mill with bfmt := [(2, 0x440000000), (8, 0x43F800000)] }
       Meets c .M theSheet ∧ c.ringOpen 5 1 ∧ c.ringOpen 5 2 ∧ c.operand 2 actRing.head = .error 2)
    ∧ (let c : Core := { mill with bfmt := [(2, 0x03F800000), (8, 0x43F800000)] }
       Meets c .M theSheet ∧ ∃ fmt, c.operand 2 actRing.head = .ok fmt ∧ fmt.fmt = 0)
    ∧ (let c : Core := { mill with bfmt := [(2, 0x43F800000), (8, 0x440000000)], cover := [(0, { zeroCover with count := 1 })] }
       Meets c .M theSheet ∧ c.operand 1 weightRing.head = .error 8 ∧ (c.coverOf 0).cursor ≠ (c.coverOf 0).count
       ∧ ∃ fmt, c.operand 2 actRing.head = .ok fmt ∧ fmt.fmt = 4)
    ∧ (let c : Core := { mill with cover := [(0, { zeroCover with kind := 2 })] }
       Meets c .M theSheet ∧ (c.coverOf 0).kind = 2) ∧ (mill.boundOf 0).opened = false := by
  refine ⟨?_, ⟨meets _ _ _ rfl rfl rfl rfl rfl rfl, ⟨by decide, by decide⟩, ⟨by decide, by decide⟩, rfl⟩,
    ⟨meets _ _ _ rfl rfl rfl rfl rfl rfl, _, rfl, by decide⟩,
    ⟨meets _ _ _ rfl rfl rfl rfl rfl rfl, rfl, by decide, _, rfl, by decide⟩,
    ⟨meets _ _ _ rfl rfl rfl rfl rfl rfl, by decide⟩, by decide⟩
  obtain ⟨f, h⟩ : ∃ f, mill.operand 1 weightRing.head = .ok f := ⟨_, rfl⟩
  intro e; rw [h]; simp

/-- The header of `mill` with its count 0, with index 1 of 2, and read under a stale tag. -/
theorem witness_PlyProducts_badHeaders :
    let hdr := fun (m : Mem) => parseHdr ((List.range 0x440).map fun i => ({ mill with spad := m } : Core).byte (weightRing.addr 0 + i))
    (hdr [(0x80005, 4)]).bad = true
    ∧ (hdr [(0x80001, 0x20), (0x80002, 1), (0x80005, 4)]).bad = false ∧ (hdr [(0x80001, 0x20), (0x80002, 1), (0x80005, 4)]).index ≠ 0
    ∧ ({ mill with tags := [] } : Core).tagFault 5 (weightRing.addr 0 / 4096) (weightRing.wantTag 0) emptyRun.d ≠ []
    ∧ (List.replicate 0x440 (0 : Byte)).length = 0x440 := by
  refine ⟨by decide +kernel, by decide +kernel, by decide +kernel, by decide +kernel, List.length_replicate⟩

/-- A later ply, whose tile lies in a bank with SCALE 2. -/
theorem witness_PlyProducts_laterPly :
    let r := { emptyRun with opens := true, gw := 1, cap := 3, budget := 1024, slots := 1 }
    let c : Core := { plying r with bfmt := [(2, 0x43F800000), (8, 0x440000000)] }
    let h := parseHdr ((List.range 0x440).map fun i => c.byte (weightRing.addr 0 + i))
    Meets c .M theSheet ∧ c.Canonical ∧ c.array = some r ∧ r.slots ≠ r.cap ∧ h.cost ≤ r.budget ∧ c.operand r.gw weightRing.head = .error 8
    ∧ (∀ b, (plying r).operand r.gw weightRing.head ≠ .error b) := by
  refine ⟨meets _ _ _ rfl rfl rfl rfl rfl rfl, canonical _ rfl rfl, rfl, by decide, by decide +kernel, rfl, fun b h => ?_⟩
  obtain ⟨f, h'⟩ : ∃ f, (plying { emptyRun with opens := true, gw := 1, cap := 3, budget := 1024, slots := 1 }).operand 1 weightRing.head
    = .ok f := ⟨_, rfl⟩
  rw [h'] at h; simp at h

/-- The same rings in BF16, FP8 and I8. -/
def millIn (f : BitVec 39) : Core := { mill with bfmt := [(2, f), (8, f)] }

theorem witness_DenseProducts :
    (∀ f ∈ [(0x43F800000 : BitVec 39), 0x23F800000, 0x83F800000], Meets (millIn f) .M theSheet ∧ (millIn f).ringOpen 5 1
      ∧ (millIn f).ringOpen 5 2 ∧ (millIn f).Idle (ctx .M) [0, 8] ∧ (millIn f).MaskStill (ctx .M) ∧ ((millIn f).coverOf 0).kind ≠ 2
      ∧ ((millIn f).coverOf 0).kind ≠ 1 ∧ (millIn f).bound = [])
    ∧ (∃ a w, (millIn 0x43F800000).operand 2 0 = .ok a ∧ (millIn 0x43F800000).operand 1 0 = .ok w ∧ a.fmt = 4 ∧ w.fmt = 4
      ∧ 16 * 256 * fmtWidth a.fmt ≤ actRing.tileBytes)
    ∧ (∃ a w, (millIn 0x23F800000).operand 2 0 = .ok a ∧ (millIn 0x23F800000).operand 1 0 = .ok w ∧ a.fmt = 2 ∧ w.fmt = 2
      ∧ 16 * 128 * fmtWidth a.fmt ≤ actRing.tileBytes)
    ∧ (∃ a w, (millIn 0x83F800000).operand 2 0 = .ok a ∧ (millIn 0x83F800000).operand 1 0 = .ok w ∧ a.fmt = 8 ∧ w.fmt = 8
      ∧ 16 * 256 * fmtWidth a.fmt ≤ actRing.tileBytes)
    ∧ (millIn 0x43F800000).Canonical ∧ (plying { emptyRun with dense := true }).Canonical
    ∧ Meets (plying { emptyRun with dense := true }) .M theSheet := by
  refine ⟨?_, ⟨_, _, rfl, rfl, by decide⟩, ⟨_, _, rfl, rfl, by decide⟩, ⟨_, _, rfl, rfl, by decide⟩, canonical _ rfl rfl, canonical _ rfl rfl,
    meets _ _ _ rfl rfl rfl rfl rfl rfl⟩
  intro f _
  refine ⟨meets _ _ _ rfl rfl rfl rfl rfl rfl, ⟨?_, rfl⟩, ⟨?_, rfl⟩, (fun o ho => by cases ho), (fun a ha => by cases ha), ?_, ?_, rfl⟩
  · show (mill.ring 1).nfr ≠ 0; decide
  · show (mill.ring 2).nfr ≠ 0; decide
  · show (mill.coverOf 0).kind ≠ 2; decide
  · show (mill.coverOf 0).kind ≠ 1; decide

/-- The activations, or the weights, in a bank with SCALE 2; the weights in FP32; a tile of the other kind. -/
theorem witness_DenseProducts_refused :
    (let c : Core := { mill with bfmt := [(2, 0x440000000), (8, 0x43F800000)] }
     Meets c .M theSheet ∧ c.operand 2 actRing.head = .error 2)
    ∧ (let c : Core := { mill with bfmt := [(2, 0x43F800000), (8, 0x440000000)] }
       Meets c .M theSheet ∧ c.operand 1 weightRing.head = .error 8 ∧ ∃ f, c.operand 2 actRing.head = .ok f ∧ f.fmt = 4)
    ∧ (let c : Core := { mill with bfmt := [(2, 0x43F800000), (8, 0x03F800000)] }
       Meets c .M theSheet ∧ c.ringOpen 5 1 ∧ c.ringOpen 5 2 ∧ (∃ f, c.operand 2 actRing.head = .ok f ∧ f.fmt = 4)
       ∧ ∃ f, c.operand 1 weightRing.head = .ok f ∧ f.fmt = 0)
    ∧ (let c : Core := { millIn 0x83F800000 with cover := [(0, { zeroCover with kind := 1 })] }
       Meets c .M theSheet ∧ (c.coverOf 0).kind = 1
       ∧ ∃ fa fw, c.operand 2 actRing.head = .ok fa ∧ c.operand 1 weightRing.head = .ok fw ∧ fa.fmt = 8 ∧ fw.fmt = 8)
    ∧ (let c : Core := { millIn 0x43F800000 with cover := [(0, { zeroCover with kind := 2 })] }
       Meets c .M theSheet ∧ (c.coverOf 0).kind = 2
       ∧ ∃ fa fw, c.operand 2 actRing.head = .ok fa ∧ c.operand 1 weightRing.head = .ok fw ∧ fa.fmt = 4 ∧ fw.fmt = 4) := by
  refine ⟨⟨meets _ _ _ rfl rfl rfl rfl rfl rfl, rfl⟩, ⟨meets _ _ _ rfl rfl rfl rfl rfl rfl, rfl, _, rfl, by decide⟩,
    ⟨meets _ _ _ rfl rfl rfl rfl rfl rfl, ⟨by decide, by decide⟩, ⟨by decide, by decide⟩, ⟨_, rfl, by decide⟩, _, rfl, by decide⟩,
    ⟨meets _ _ _ rfl rfl rfl rfl rfl rfl, by decide, _, _, rfl, rfl, by decide, by decide⟩,
    ⟨meets _ _ _ rfl rfl rfl rfl rfl rfl, by decide, _, _, rfl, rfl, by decide, by decide⟩⟩

/-- Tile 1 is held by an older word; tile 2 holds integers. -/
def tiles : Core := { mill with own := [⟨1, 9, ⟨0, .M, 0, 1, 1⟩⟩], cover := [(2, { zeroCover with kind := 2 })] }

theorem witness_TileWords : Meets tiles .M theSheet ∧ tiles.Canonical ∧ tiles.Idle (ctx .M) [0] ∧ tiles.Idle (ctx .M) [0, 3]
    ∧ (tiles.coverOf 0).kind ≠ 2 ∧ ((tiles.coverOf 0).kind, (tiles.coverOf 3).kind) ≠ (1, 2)
    ∧ ((tiles.coverOf 0).kind, (tiles.coverOf 3).kind) ≠ (2, 1)
    ∧ tiles.Holder (ctx .M) 1 ⟨1, 9, ⟨0, .M, 0, 1, 1⟩⟩
    ∧ (tiles.coverOf 1).kind ≠ 2 ∧ (tiles.coverOf 2).kind = 2 ∧ (List.replicate 128 (0 : W32)).length = 128 := by
  refine ⟨meets _ _ _ rfl rfl rfl rfl rfl rfl, canonical _ rfl rfl, ?_, ?_, by decide, by decide, by decide,
    ⟨[], [], rfl, rfl, by decide, by simp⟩, by decide, by decide, List.length_replicate⟩ <;> intro o ho hr <;> (rw [List.mem_singleton.mp ho] at hr ⊢; revert hr; decide)

theorem witness_TileWords_ill : tiles.illRegs (ctx .M) [vReg 3] = [] ∧ tiles.illBound (ctx .M) 0 = []
    ∧ (∀ p ∈ tiles.board, p.cls = 2 → p.num = 3 → p.done ≤ 5) := ⟨rfl, rfl, fun _ h => by cases h⟩

/-- Tiles 1 and 4 and the array are held, tile 1 by two words of which the first is past at cycle 9. -/
def owned : Core :=
  { tiles with own := [⟨1, 9, ⟨0, .M, 0, 1, 1⟩⟩, ⟨1, 30, ⟨0, .M, 0, 2, 2⟩⟩, ⟨4, 30, ⟨0, .M, 0, 2, 2⟩⟩, ⟨8, 40, ⟨0, .M, 0, 3, 3⟩⟩] }

theorem witness_TileWords_owned (f : BitVec 39) (hf : f ∈ [(0x43F800000 : BitVec 39), 0x83F800000]) :
    let c : Core := { owned with bfmt := [(2, f), (8, f)] }
    Meets c .M theSheet ∧ c.Canonical ∧ c.Holder (ctx .M) 1 ⟨1, 9, ⟨0, .M, 0, 1, 1⟩⟩
    ∧ c.Holder { ctx .M with t := 9 } 1 ⟨1, 30, ⟨0, .M, 0, 2, 2⟩⟩
    ∧ c.Holder (ctx .M) 8 ⟨8, 40, ⟨0, .M, 0, 3, 3⟩⟩ ∧ c.Idle (ctx .M) [0] ∧ c.Holder (ctx .M) 4 ⟨4, 30, ⟨0, .M, 0, 2, 2⟩⟩
    ∧ ((c.coverOf 0).kind, (c.coverOf 4).kind) ≠ (1, 2) ∧ ((c.coverOf 0).kind, (c.coverOf 4).kind) ≠ (2, 1)
    ∧ (c.coverOf 1).kind = 0 ∧ c.ringOpen 5 1 ∧ c.ringOpen 5 2 ∧ (c.ring 1).nfr ≠ 0 ∧ actRing.ready 5 actRing.head = true
    ∧ weightRing.ready 5 weightRing.head = true ∧ c.MaskStill (ctx .M) ∧ (c.ring 2).act = true
    ∧ c.outBank 0 (weightRing.runs weightRing.wr (min 65536 weightRing.size)) = none
    ∧ (({ c with bound := [(1, { zeroBound with opened := true })] } : Core).boundOf 1).opened = true
    ∧ (∃ fa fw, c.operand 2 actRing.head = .ok fa ∧ c.operand 1 weightRing.head = .ok fw
      ∧ (madKind fa.fmt fw.fmt).isSome = true ∧ 16 * 128 * fmtWidth fa.fmt ≤ actRing.tileBytes
      ∧ 16 * 128 * fmtWidth fw.fmt ≤ weightRing.tileBytes ∧ (fa.fmt = 4 → plyAct fa.fmt = true ∧ 4096 * fmtWidth fa.fmt ≤ actRing.tileBytes)) := by
  simp only [List.mem_cons, List.not_mem_nil, or_false] at hf
  rcases hf with rfl | rfl <;>
    exact ⟨meets _ _ _ rfl rfl rfl rfl rfl rfl, canonical _ rfl rfl, ⟨[], _, rfl, rfl, by decide, by simp⟩,
      ⟨[⟨1, 9, ⟨0, .M, 0, 1, 1⟩⟩], _, rfl, rfl, by decide, by decide⟩,
      ⟨[⟨1, 9, ⟨0, .M, 0, 1, 1⟩⟩, ⟨1, 30, ⟨0, .M, 0, 2, 2⟩⟩, ⟨4, 30, ⟨0, .M, 0, 2, 2⟩⟩], _, rfl, rfl, by decide, by decide⟩,
      (by decide : ∀ o ∈ owned.own, o.res ∈ [0] → o.last ≤ 5),
      ⟨[⟨1, 9, ⟨0, .M, 0, 1, 1⟩⟩, ⟨1, 30, ⟨0, .M, 0, 2, 2⟩⟩], _, rfl, rfl, by decide, by decide⟩, by decide, by decide, by decide,
      ⟨by decide, rfl⟩, ⟨by decide, rfl⟩, by decide, by decide, by decide, (fun _ h => by cases h), by decide, by decide, by decide,
      _, _, rfl, rfl, by decide, by decide, by decide, by decide⟩

theorem witness_MaskAndDroppedBlocks (a : W64) : Meets (withS [(1, a)]) .M theSheet ∧ (withS [(1, a)]).MaskStill (ctx .M)
    ∧ (1#2) ≤ 1 ∧ (withS [(1, a)]).sget 1 = a ∧ (a = 0x17F800 → a.toNat % 64 = 0 ∧ a.toNat + 2047 < 0x180000)
    ∧ (a = 0x20 → ¬a.toNat % 64 = 0) ∧ mill.ringOpen 5 1 ∧ mill.Idle (ctx .M) [0] ∧ mill.Canonical ∧ Meets mill .M theSheet := by
  refine ⟨meetsS _ _ _ rfl, (fun a ha => by cases ha), by decide, rfl, ?_, ?_, ⟨by decide, by decide⟩, (fun o ho => by cases ho), meetsMill.2,
    meetsMill.1⟩ <;> rintro rfl <;> decide

/-- A tile of which one ply is still to come, with its header at the head of the weight ring. -/
def dropping : Core := { mill with cover := [(0, { zeroCover with count := 1 })] }

theorem witness_MaskAndDroppedBlocks_drop :
    let h := parseHdr ((List.range 0x440).map fun i => dropping.byte (weightRing.addr 0 + i))
    Meets dropping .M theSheet ∧ dropping.Canonical ∧ weightRing.ready 5 weightRing.head = true
    ∧ dropping.tagFault 5 (weightRing.addr 0 / 4096) (weightRing.wantTag 0) ⟨0, .M, 1, 5, 5⟩ = [] ∧ h.bad = false
    ∧ h.index = (dropping.coverOf 0).cursor.toNat ∧ h.tile = (dropping.coverOf 0).tile ∧ h.count = (dropping.coverOf 0).count.toNat
    ∧ 1 + h.dataFrames ≤ weightRing.tile ∧ 0 < weightRing.tileBytes
    ∧ (∀ i < (dropping.coverOf 0).count.toNat - (dropping.coverOf 0).cursor.toNat, weightRing.ready 5 (weightRing.head + i) = true) :=
  ⟨meets _ _ _ rfl rfl rfl rfl rfl rfl, canonical _ rfl rfl, by decide, by decide +kernel, by decide +kernel, by decide +kernel,
    by decide +kernel, by decide +kernel, by decide +kernel, by decide, by decide⟩

/-- Headers that MDROP refuses: of count 0, and of another tile. -/
theorem witness_MaskAndDroppedBlocks_refused :
    let hdr := fun (m : Mem) => parseHdr ((List.range 0x440).map fun i => ({ dropping with spad := m } : Core).byte (weightRing.addr 0 + i))
    (hdr [(0x80005, 4)]).bad = true ∧ (hdr [(0x80001, 0x10), (0x80005, 4), (0x80008, 1)]).bad = false
    ∧ (hdr [(0x80001, 0x10), (0x80005, 4), (0x80008, 1)]).tile ≠ (dropping.coverOf 0).tile := by
  refine ⟨by decide +kernel, by decide +kernel, by decide +kernel⟩

/-- An output ring of a sixteen-frame tile, free and full; bank 2 in FP8. -/
def outRing : Ring := { noRing with first := 32, nfr := 16, tile := 16, gbase := List.replicate 16 0 }

theorem witness_MatrixOutput : Meets mill .M theSheet ∧ mill.Canonical ∧ mill.Idle (ctx .M) [0]
    ∧ ({ core with rings := [(1, outRing)] } : Core).ringOpen 5 1 ∧ (outRing.reserve 5 65536).isSome = true
    ∧ ({ outRing with wr := 65536, tiles := [⟨0, 0, some 2, 65536, none, 0⟩] } : Ring).reserve 5 65536 = none
    ∧ fp8Bank.outBank 0 (outRing.runs 0 65536) = none ∧ fp8Bank.outBank 5 (outRing.runs 0 65536) = some 2
    ∧ (outCode (core.bank 2) 0 0 0 1 1).trap = false ∧ (outCode (fp8Bank.bank 2) 4 0 3 1 0x7F7FFFFF).trap = true
    ∧ (List.replicate 1024 (0 : W32)).length = 1024 :=
  ⟨meetsMill.1, meetsMill.2, (fun o ho => by cases ho), ⟨by decide, by decide⟩, by decide, by decide, by decide, by decide +kernel,
    by decide, by decide, List.length_replicate⟩

/-- A window of one extent on package 0 that is also its symmetric heap; a sheet with it, and with a quota of `quota`
vat lines. -/
def aWindow (cls : Nat) : Window := ⟨0, 3, 0, 2 ^ 21, 0, 0, true, true, true, cls, [5]⟩

def xSheet (w : Window) (quota : Nat) : Sheet :=
  { theSheet with windows := [w], words := [0, 0, 0, 0, 0, 0, 0, 0, 0, BitVec.ofNat 64 (quota * 2 ^ 32)] }

/-- Ring 1 as before; s1 holds virtual address 0x1000 and length 0 (a tile). -/
def xCore : Core := { withRing with s := [(1, 0x1000)] }

theorem meetsX (w : Window) (q : Nat) : Meets xCore .X (xSheet w q) ∧ xCore.Canonical ∧ xCore.ringOpen 5 1
    ∧ (xCore.ring 1).pushedBefore 5 4096 ∧ ((xCore.ring 1).reserve 5 4096).isSome = true ∧ (xCore.sget 1).toNat = 0x1000
    ∧ xCore.pget 0 = true ∧ xCore.pget 1 = false := by
  refine ⟨meets _ _ _ rfl rfl rfl rfl rfl rfl, canonical _ rfl rfl, ⟨by decide, by decide⟩, ?_, by decide, by decide, by decide, by decide⟩
  intro k hk
  obtain rfl : k = 0 := by simpa [Ring.tilesOf, xCore, withRing, Core.ring, Tab.get, Tab.find?, aRing, noRing, Ring.tileBytes] using hk
  exact ⟨_, rfl, 2, by decide, rfl⟩

/-- A T-class window with and without quota; an S-class window; an invariant load of a privileged sheet; an FP8 bank. -/
theorem witness_FetchAndStow :
    (∀ w q, Meets xCore .X (xSheet w q)) ∧ xCore.Canonical ∧ xCore.ringOpen 5 1 ∧ (xCore.ring 1).pushedBefore 5 4096
    ∧ ((xCore.ring 1).reserve 5 4096).isSome = true ∧ xCore.pget 0 = true ∧ 0x1000 % 64 = 0
    ∧ (xSheet (aWindow clsT) 9).window? 0 0x1000 4096 = some (aWindow clsT) ∧ (aWindow clsT).rd = true ∧ (aWindow clsT).wr = true
    ∧ clsT ≠ clsR ∧ clsT ≠ clsI ∧ (aWindow clsI).cls = clsI ∧ xCore.occ = [] ∧ xCore.ports = [] ∧ (xSheet (aWindow 0) 9).haccs = []
    ∧ (rankAccesses 5 0 (granules 0x1000 4096) []).2 = none
    ∧ ((running (ctx .X) xCore (xSheet (aWindow clsT) 999)).allocation (xSheet (aWindow clsT) 999) (aWindow clsT) 0x1000 4096).refused = none
    ∧ ((running (ctx .X) xCore (xSheet (aWindow clsT) 0)).allocation (xSheet (aWindow clsT) 0) (aWindow clsT) 0x1000 4096).refused
      = some (0, 0, 0)
    ∧ banksOf (outRing.runs 0 4096) = [2] ∧ (fp8Bank.bank 2).fmt = 4 :=
  ⟨fun w q => (meetsX w q).1, (meetsX (aWindow 0) 0).2.1, (meetsX (aWindow 0) 0).2.2.1, (meetsX (aWindow 0) 0).2.2.2.1,
    (meetsX (aWindow 0) 0).2.2.2.2.1, by decide, by decide, by decide, by decide, by decide, by decide, by decide, by decide, rfl, rfl, rfl,
    by decide +kernel, by decide +kernel, by decide +kernel, by decide +kernel, by decide⟩

/-- A STOW at the end of its cycle, with quota and without; a ring of a bank in FP8 that a converting FETCH fills. -/
theorem witness_FetchAndStow_allocates :
    let x : Xfer := ⟨⟨0, .X, 1, 5, 5⟩, 1, false, false, 0, 0, 0x1000, 4096, 1, 0, 2, 0, none, false, false, false, none, 32, 0⟩
    (∀ q, let sh := xSheet (aWindow clsT) q
      (running (ctx .X) xCore sh).sheet? x.sh = some sh ∧ sh.state = 5 ∧ sh.stopAt 0 = none ∧ sh.inPlace = false)
    ∧ (xSheet (aWindow clsT) 0).window? x.peer x.va x.n = some (aWindow clsT)
    ∧ (aWindow clsT).pkg < ({ running (ctx .X) xCore (xSheet (aWindow clsT) 9) with pkgs := [Package.reset] } : State).pkgs.length
    ∧ (({ running (ctx .X) xCore (xSheet (aWindow clsT) 999) with pkgs := [Package.reset] } : State).allocation
        (xSheet (aWindow clsT) 999) (aWindow clsT) 0x1000 4096).refused = none
    ∧ (({ running (ctx .X) xCore (xSheet (aWindow clsT) 0) with pkgs := [Package.reset] } : State).allocation
        (xSheet (aWindow clsT) 0) (aWindow clsT) 0x1000 4096).refused = some (0, 0, 0) :=
  ⟨fun _ => ⟨rfl, rfl, rfl, rfl⟩, by decide, by decide, by decide +kernel, by decide +kernel⟩

theorem witness_RemoteAndRefusedTransfers : Meets xCore .X (xSheet (aWindow clsS) 9) ∧ xCore.Canonical ∧ xCore.pget 0 = true
    ∧ xCore.pget 1 = false ∧ xCore.ringOpen 5 1 ∧ (xSheet (aWindow clsS) 9).pkgs.length = 1
    ∧ (xSheet (aWindow clsS) 9).heap? 0 = some (aWindow clsS) ∧ 0x1000 + 4096 ≤ (aWindow clsS).size
    ∧ ((xCore.ring 1).reserve 5 4096).isSome = true ∧ (xCore.ring 1).pushedBefore 5 4096
    ∧ 0x1001 % 64 ≠ 0 ∧ theSheet.window? 0 0x1000 4096 = none ∧ theSheet.window? 0 0x1000 1 = none
    ∧ ({ aWindow clsT with rd := false } : Window).rd = false ∧ (aWindow clsI).cls = clsI ∧ xCore.pbanks = 0
    ∧ ({ xCore with pbanks := 4 } : Core).pbanks ≠ 0 :=
  ⟨(meetsX _ _).1, (meetsX (aWindow 0) 0).2.1, by decide, by decide, (meetsX (aWindow 0) 0).2.2.1, rfl, by decide, by decide,
    (meetsX (aWindow 0) 0).2.2.2.2.1, (meetsX (aWindow 0) 0).2.2.2.1, by decide, by decide, by decide, rfl, rfl, rfl, by decide⟩

/-- A heap of package 0 is absent, short, or may not be read or written. -/
theorem witness_RemoteAndRefusedTransfers_heap :
    (∀ w, (xSheet w 9).pkgs.length = 1 ∧ (w.peer = true → w.pkg = 0 → (xSheet w 9).heap? ((xSheet w 9).pkgs.getD 0 0) = some w))
    ∧ theSheet.heap? (theSheet.pkgs.getD 0 0) = none ∧ 0x1000 % 64 = 0 ∧ ({ aWindow clsS with size := 0x1100 } : Window).size < 0x1000 + 4096
    ∧ (let w := { aWindow clsS with rd := false, wr := false }; 0x1000 + 4096 ≤ w.size ∧ w.rd = false ∧ w.wr = false) := by
  refine ⟨fun w => ⟨rfl, fun h h' => ?_⟩, by decide, by decide, by decide, by decide, by decide⟩
  have : (xSheet w 9).pkgs.getD 0 0 = 0 := rfl
  rw [this]; simp [Sheet.heap?, xSheet, h, h']

/-- Cores 0 and 1 of package 0, the second with an empty ring 1; s2 names core 1, s3 core 200, s4 core 7. -/
def sender : Core := { xCore with s := [(2, 1), (3, 200), (4, 7), (5, 0x40)] }
def receiver : Core := { core with rings := [(1, { aRing with wr := 0, tiles := [] })] }
def sending : State := { running (ctx .X) sender theSheet with cores := [(0, sender), (1, receiver)] }

theorem witness_SendsAndLinks : sending.Runs 0 sender theSheet ∧ sender.Canonical ∧ receiver.Canonical ∧ sender.pget 0 = true
    ∧ (∀ rs ws, sender.Ready (ctx .X) rs ws) ∧ (sender.sget 2).toNat % 256 = 1 ∧ sending.core? (coreKey 0 1) = some receiver
    ∧ receiver.sh = sender.sh ∧ sender.ringOpen 5 1 ∧ receiver.ringOpen 5 1 ∧ ((receiver.ring 1).reserve 5 4096).isSome = true
    ∧ sameFormat (sender.bank 1) (receiver.bank 1) = true ∧ (0x40 : Nat) % 64 = 0
    ∧ 191 < (sender.sget 3).toNat % 256 ∧ sending.core? (coreKey 0 ((sender.sget 4).toNat % 256)) = none
    ∧ (meshHops 0 0).2 = 0 ∧ partsOf 64 [(0x20000, 64)] = [(0x20000, 64, 0)]
    ∧ (sending.pkg 0).errors = [] ∧ sending.sheet? 1 = some theSheet :=
  ⟨⟨rfl, rfl⟩, canonical _ rfl rfl, canonical _ rfl rfl, by decide, fun _ _ => ready _ _ _ _ rfl, by decide, rfl, rfl,
    ⟨by decide, by decide⟩, ⟨by decide, by decide⟩, by decide, by decide, by decide, by decide, rfl, by decide, by decide, rfl, rfl⟩

/-- A beat of 16 words lands at 0x20000 of core 1, in a bank without a format, and in one in FP8 under TRAP, where the first word
does not fit; a flit of the running sheet. -/
theorem witness_SendsAndLinks_lands :
    let x : SendRun := ⟨⟨0, .X, 1, 5, 5⟩, 1, 1, 64, 50, 0, 0, 1, 0, none, 0x20000, 32, 32, none, false⟩
    let fmts : List BankFmt := [core.bank 0]
    let data : List (List W32) := [List.replicate 16 0x7F7FFFFF]
    let elems := (fmts.zip data).flatMap fun p => p.2.map fun v => (p.1, v)
    (∀ r : Core, r.sh = 1 → ({ sending with cores := [(0, sender), (1, r)] } : State).core? x.dst = some r)
    ∧ sending.core? x.d.k = some sender ∧ sending.sheet? x.sh = some theSheet ∧ partsOf 64 [(0x20000, 64)] = [(0x20000, 64, 0)]
    ∧ receiver.Quiet 5 0x20000 0x2003F ∧ receiver.Latest { x.d with start := x.land } 0x20000 0x2003F ∧ receiver.cuts = []
    ∧ receiver.wp = [] ∧ (receiver.bfmtReg 2).getLsbD 38 = false ∧ elems.length * x.wd = 8 * 64
    ∧ sameFormat (core.bank 0) (receiver.bank 2) = true
    ∧ ({ receiver with bfmt := [(2, 0x43F800000 + 0x3000000000)] } : Core).Canonical
    ∧ (let f32 : BankFmt := ⟨1, [], 0x3F800000, 0⟩
       let b := ({ receiver with bfmt := [(2, 0x43F800000 + 0x3000000000)] } : Core).bank 2
       let y := { x with n := 16, wd := 8 }
       sendBeat y = 16 ∧ (List.replicate 16 (f32, (0x7F7FFFFF : W32))).length * y.wd = 8 * 16
       ∧ sameFormat f32 b = false ∧ (bankEncode b 0 b.pol (bankDecode f32 0x7F7FFFFF).1).trap = true) := by
  refine ⟨fun r _ => rfl, rfl, rfl, by decide, ?_, ?_, rfl, rfl, by decide, by decide, by decide, canonical _ rfl rfl,
    by decide, by decide, by decide, by decide⟩
  · exact (meets receiver .X theSheet rfl rfl rfl rfl rfl rfl).quiet _ _ _
  · exact (meets receiver .X theSheet rfl rfl rfl rfl rfl rfl).latest _ _ _

/-- A copy record of one element at 0x20000 in a bank that is read only, s1 naming it. -/
def copier : Core :=
  { core with bfmt := [(2, 0x403F800000)], spad := [(0x20000, 1), (0x20005, 0x10), (0x20009, 0x20), (0x20010, 1)], s := [(1, 0x20000)] }

theorem witness_Copies : Meets copier .X theSheet ∧ copier.Canonical ∧ (copier.sget 1).toNat % 2 ^ 21 = 0x20000
    ∧ (copier.bfmtReg 2).getLsbD 38 = true
    ∧ (let r := parseCopy ((List.range 256).map fun i => copier.byte (0x20000 + i))
       r.ok = true ∧ r.esz = 0 ∧ r.src < 0x180000 ∧ r.dst < 0x180000)
    ∧ copier.copyEnd = none ∧ copier.pget 0 = true ∧ copier.pget 1 = false ∧ copier.cuts = [] ∧ copier.wp = []
    ∧ (copier.bank 0).fmt = 0 ∧ (copier.bfmtReg 0).getLsbD 38 = false :=
  ⟨meets _ _ _ rfl rfl rfl rfl rfl rfl, canonical _ rfl rfl, by decide, by decide, by decide +kernel, rfl, by decide, by decide, rfl, rfl,
    by decide, by decide⟩

/-- Step 0 of a copy of one word from 0x1000 to 0x2000: its read, its write, and the write of a step that has trapped. -/
theorem witness_Copies_steps :
    let C : CopyRun := ⟨⟨0, .X, 1, 1, 1⟩, 1, 0x1000, 0x2000, 0, [(1, 0, 0)], 1, 0, 32, 32, 0, 0, [], none, false⟩
    let f32 : BankFmt := { (core.bank 0) with fmt := 1 }
    let held : Core := { core with copyBuf := [(0, ⟨5, core.bank 0⟩)] }
    let t8 : Core := { core with bfmt := [(0, 0x43F800000 + 0x3000000000)], copyBuf := [(0, ⟨0x7F7FFFFF, f32⟩)] }
    copyOutside C false 5 = [] ∧ copyOutside C true 31 = [] ∧ (copyBit C false 0).toNat = 8 * 0x1000
    ∧ Meets core .X theSheet ∧ core.Canonical ∧ core.cuts = [] ∧ core.wp = [] ∧ (core.bank 0).fmt = C.fs
    ∧ held.Canonical ∧ Meets held .X theSheet ∧ Tab.find? 0 held.copyBuf = some ⟨5, core.bank 0⟩ ∧ (held.bank 0).fmt = C.fd
    ∧ (held.bfmtReg 0).getLsbD 38 = false ∧ (0 / 16) ∉ held.copyBad ∧ (copied ⟨5, core.bank 0⟩ (held.bank 0)).trap = false
    ∧ t8.Canonical ∧ Meets t8 .X theSheet ∧ (copied ⟨0x7F7FFFFF, f32⟩ (t8.bank 0)).trap = true
    ∧ 0 / 16 ∈ ({ core with copyBad := [0] } : Core).copyBad ∧ Tab.find? 0 core.copyBuf = none := by
  refine ⟨by decide +kernel, by decide +kernel, by decide +kernel, meetsCore .X, coreCanonical, rfl, rfl, by decide,
    canonical _ rfl rfl, meets _ _ _ rfl rfl rfl rfl rfl rfl, rfl, by decide, by decide, by decide, by decide,
    canonical _ rfl rfl, meets _ _ _ rfl rfl rfl rfl rfl rfl, by decide +kernel, by decide, rfl⟩

/-- A weave record of one transfer of 64 bytes. -/
def weaver : Core :=
  { core with
    bfmt := [(2, 0x403F800000)], s := [(1, 0x20000)]
    spad := [(0x20000, 1), (0x20004, 64), (0x20008, 1), (0x2000A, 1), (0x20011, 0x10), (0x20019, 0x20), (0x20030, 1)] }

theorem witness_Weaves_word :
    let r := parseWeave ((List.range 256).map fun i => weaver.byte (0x20000 + i)) 1
    let sh := xSheet (aWindow clsS) 9
    Meets weaver .X sh ∧ weaver.Canonical ∧ (weaver.sget 1).toNat % 2 ^ 21 = 0x20000
    ∧ (weaver.bfmtReg 2).getLsbD 38 = true ∧ r.ok = true ∧ weaver.weaveEnd = none
    ∧ weaveFaults (ctx .X) r (sh.heap? 0) ([0].map fun q => sh.heap? (sh.pkgs.getD q 0)) = []
    ∧ weaveRanks ⟨⟨0, .X, 1, 5, 5⟩, 1, r.op, r.bf16, r.heap, r.rel, r.ac, r.chunk, r.cadence, r.p, r.hmax, r.src, r.dst, r.buf, r.stat,
        r.levels, 0, 0, none, false⟩ weaver.prank = [0]
    ∧ weaver.pget 0 = true ∧ weaver.pget 1 = false :=
  ⟨meets _ _ _ rfl rfl rfl rfl rfl rfl, canonical _ rfl rfl, by decide, by decide, by decide +kernel, rfl, by decide +kernel,
    by decide +kernel, by decide, by decide⟩

/-- The run of that record, a store (`op = 0`) or a sum (`op = 1`), from scratchpad or heap, over `p` packages; its destination on
package 0, where the transfer before it stands ready too. -/
def aWeave (op p : Nat) (heap : Bool) : WeaveRun :=
  ⟨⟨0, .X, 1, 5, 5⟩, 1, op, false, heap, false, 1, 64, 1, p, 0, 0x1000, 0x2000, 0, 0x3000, [(1, 0, 0, 0, 0)], 0, 2, none, false⟩
def aDestination : OpenRun :=
  ⟨1, 1, 5, [⟨13, 0, 0, 0, 0x2000, some (List.replicate 64 1), false, false⟩, ⟨13, 0, 9, 0, 0x2020 - 0x20, some (List.replicate 64 1), true, false⟩],
    [], 0, none⟩
def heaps : Sheet := { xSheet (aWindow clsS) 9 with pkgs := [0, 1], windows := [aWindow clsS, { aWindow clsS with pkg := 1 }] }
def weaving (ttc : Nat) : State :=
  { running (ctx .X) core heaps with
    pkgs := [{ Package.reset with runs := [aDestination] }, Package.reset], ttc := ttc }

theorem witness_Weaves_emission (op : Nat) (h : op ≤ 1) (b : Bool) :
    let s := weaving 80
    let w := aWeave op 1 b
    s.sheet? w.sh = some heaps ∧ s.core? w.d.k = some core ∧ core.sh = w.sh ∧ s.weaveTo heaps w 0 = some (aWindow clsS, 0x2000, 0)
    ∧ (aWindow clsS).pkg < s.pkgs.length ∧ heaps.heap? (keyPkg w.d.k) = some (aWindow clsS) := by
  interval_cases op <;> cases b <;> exact ⟨rfl, rfl, rfl, rfl, by decide, rfl⟩

theorem weavesCanonical (t : Nat) : (weaving t).HbmCanonical := by
  intro p hp
  rcases List.mem_cons.mp hp with rfl | hp
  · rfl
  · rw [List.mem_singleton.mp hp]; rfl

theorem plainHeap (q t a n : Nat) (hq : q < 2) : (weaving t).PlainLines { aWindow clsS with pkg := q } a n := by
  interval_cases q <;> exact ⟨Or.inl rfl, by simp [weaving], fun _ _ => rfl, fun _ _ => rfl⟩

/-- A contribution at its arrival, and two that are ready. -/
theorem witness_Weaves (op : Nat) (h : op ≤ 1) :
    let s := weaving 80
    let w := aWeave op 1 false
    let now := aDestination.cs.map fun e => if e.src == core.prank && e.core == keyId w.d.k && e.j == 0 then { e with ready := true } else e
    (weaving 20).task heaps < weaveArrive w 0 0 + 64 ∧ weaveArrive w 0 0 + 64 ≤ s.task heaps ∧ s.HbmCanonical
    ∧ (s.pkg 0).weaveRun? w = some aDestination ∧ w.chunk % 64 = 0 ∧ (readyPart now).length = 2
    ∧ (∀ b ∈ readyPart now, b.dst % 64 = 0 ∧ (∃ bs, b.data = some bs ∧ bs.length = w.chunk)
        ∧ s.racing heaps ⟨0, b.dst, b.dst + w.chunk - 1, true, w.cls, w.d, b.arr + 64, b.arr + 832, some (w.d.addr, w.d.start)⟩ false = []
        ∧ s.PlainLines (aWindow clsS) b.dst w.chunk)
    ∧ ∀ v v', (∃ b ∈ readyPart now, weaveCovers w v b = true) → (∃ b ∈ readyPart now, weaveCovers w v' b = true) →
        (aWindow clsS).phys v = (aWindow clsS).phys v' → v = v' := by
  have hr : ∀ op, (readyPart (aDestination.cs.map fun e =>
      if e.src == core.prank && e.core == keyId (aWeave op 1 false).d.k && e.j == 0 then { e with ready := true } else e))
      = [⟨13, 0, 0, 0, 0x2000, some (List.replicate 64 1), true, false⟩, ⟨13, 0, 9, 0, 0x2000, some (List.replicate 64 1), true, false⟩] :=
    fun _ => rfl
  refine ⟨by interval_cases op <;> decide, by interval_cases op <;> decide, weavesCanonical 80, rfl, (by show 64 % 64 = 0; rfl), by rw [hr]; rfl, ?_, ?_⟩
  · rw [hr]
    intro b hb
    simp only [List.mem_cons, List.mem_nil_iff, or_false] at hb
    rcases hb with rfl | rfl <;> exact ⟨by decide, ⟨_, rfl, rfl⟩, rfl, plainHeap 0 80 _ _ (by decide)⟩
  · rw [hr]
    rintro v v' ⟨b, hb, hv⟩ ⟨b', hb', hv'⟩ he
    simp only [List.mem_cons, List.mem_nil_iff, or_false] at hb hb'
    rcases hb with rfl | rfl <;> rcases hb' with rfl | rfl <;>
      (simp only [weaveCovers, Bool.and_eq_true, decide_eq_true_eq] at hv hv'
       replace hv : 0x2000 ≤ v ∧ v < 0x2000 + 64 := hv
       replace hv' : 0x2000 ≤ v' ∧ v' < 0x2000 + 64 := hv'
       simp only [Window.phys, aWindow] at he
       rw [Nat.div_eq_of_lt (by omega : v < 2 ^ 21), Nat.div_eq_of_lt (by omega : v' < 2 ^ 21)] at he
       simp at he
       omega)

/-- The status words of a run over one package and over two. -/
theorem witness_Weaves_status (op p : Nat) (hp : p = 1 ∨ p = 2) :
    let s := weaving 80
    let w := aWeave op p false
    let win := fun q => { aWindow clsS with pkg := q }
    s.sheet? w.sh = some heaps ∧ (∀ q < w.p, heaps.heap? (heaps.pkgs.getD q 0) = some (win q) ∧ (win q).pkg < s.pkgs.length
      ∧ ∀ q' < w.p, (win q').pkg = (win q).pkg → q' = q)
    ∧ (∀ q < w.p, ∀ r, (s.pkg (win q).pkg).weaveRun? w = some r → r.late = none)
    ∧ ∀ q < w.p, ((win q).base + w.stat + (if w.seq.getLsbD 0 then w.buf else 0)) % 8 = 0
      ∧ s.PlainLines (win q) ((win q).base + w.stat + (if w.seq.getLsbD 0 then w.buf else 0)) 8
      ∧ s.racing heaps (weaveStatusAccess w (win q)) false = [] ∧ heaps.past = [] := by
  intro s w win
  have hw : w.p ≤ 2 := by show p ≤ 2; omega
  refine ⟨rfl, fun q hq => ?_, fun q hq r hr => ?_, fun q hq => ?_⟩
  · have hq : q < 2 := by omega
    exact ⟨by interval_cases q <;> rfl, hq, fun _ _ h => h⟩
  · have hq : q < 2 := by omega
    interval_cases q
    · have : r = aDestination := by simpa [s, weaving, State.pkg, win, Package.weaveRun?, aDestination, aWeave, w] using hr.symm
      rw [this]; rfl
    · simp [s, weaving, State.pkg, win, Package.weaveRun?, Package.reset] at hr
  · have hq : q < 2 := by omega
    have hb : w.stat = 0x3000 ∧ w.buf = 0 := ⟨rfl, rfl⟩
    have hs : ((win q).base + w.stat + (if w.seq.getLsbD 0 then w.buf else 0)) = 0x3000 := by simp [hb.1, hb.2, win, aWindow]
    exact ⟨by rw [hs], plainHeap q 80 _ _ hq, rfl, rfl⟩

/-- A core with bank 2 as probe cache, block 1 held by entry 0 or by none. -/
def prober (held : Bool) : Core :=
  { core with pbanks := 4, s := [(1, 0x1000)], ptags := if held then [(0, ⟨1, true, false, false⟩)] else [] }

theorem witness_ProbeCacheRingsAndHeldWords (b : Bool) :
    Meets (prober b) .X (xSheet (aWindow clsT) 9) ∧ (prober b).Canonical ∧ (prober b).pget 0 = true ∧ (prober b).pbanks ≠ 0
    ∧ (xSheet (aWindow clsT) 9).window? 0 0x1000 4096 = some (aWindow clsT) ∧ (aWindow clsT).rd = true
    ∧ (b = true → (Tab.get noProbe (prober b).ptags 0).valid = true ∧ (Tab.get noProbe (prober b).ptags 0).block = 0x1000 / 4096)
    ∧ (b = false → (∀ j < (prober b).probeFrames.length, (Tab.get noProbe (prober b).ptags j).valid = false)
        ∧ (clockTurn (prober b).probeFrames.length (prober b).probeFrames.length (prober b).phand (prober b).ptags).2 = some 0)
    ∧ core.pbanks = 0 := by
  cases b <;> exact ⟨meets _ _ _ rfl rfl rfl rfl rfl rfl, canonical _ rfl rfl, by decide, by decide, by decide, rfl, by decide, by decide, rfl⟩

/-- A cache all of whose 16 entries are pending, and one whose entries have all been used since the hand passed. -/
theorem witness_ProbeCacheRingsAndHeldWords_full :
    let full := fun (t : ProbeTag) => { core with pbanks := 4, s := [(1, 0x1000)], ptags := (List.range 16).map fun i => (i, t) }
    Meets (full ⟨9, true, false, true⟩) .X (xSheet (aWindow clsT) 9)
    ∧ (∀ j < (full ⟨9, true, false, true⟩).probeFrames.length,
        ¬((Tab.get noProbe (full ⟨9, true, false, true⟩).ptags j).valid = true ∧ (Tab.get noProbe (full ⟨9, true, false, true⟩).ptags j).block = 1)
        ∧ (Tab.get noProbe (full ⟨9, true, false, true⟩).ptags j).pending = true)
    ∧ (let c := full ⟨9, true, true, false⟩
       let n := c.probeFrames.length
       (∃ j < n, (Tab.get noProbe c.ptags j).pending = false) ∧ (clockTurn n n c.phand c.ptags).2 = none
       ∧ (clockTurn n n c.phand (clockTurn n n c.phand c.ptags).1).2.isSome = true) :=
  ⟨meets _ _ _ rfl rfl rfl rfl rfl rfl, by decide +kernel, by decide +kernel⟩

/-- s1 holds a word that RINGCFG takes for ring 2, one whose frames overlap ring 1, one with a reserved bit. -/
theorem witness_ProbeCacheRingsAndHeldWords_rings (v : W64) : Meets (withRing) .X theSheet ∧ withRing.Canonical
    ∧ withRing.pget 0 = true ∧ withRing.screenHeld 5 2 = false ∧ (withRing.ring 2).tiles = []
    ∧ (v = 0x82040 → v.toNat < 2 ^ 29 ∧ withRing.badRing 2 (ringCfg v) = false) ∧ (v = 0x82010 → withRing.badRing 2 (ringCfg v) = true)
    ∧ (v = 0x20000000 → 2 ^ 29 ≤ v.toNat) ∧ ¬(∀ q ∈ (withRing.ring 1).tiles, q.free 5 = true) := by
  refine ⟨meetsRing .X, ringCanonical, by decide, by decide, by decide, ?_, ?_, ?_, by decide⟩ <;> rintro rfl <;> decide

/-- A PATCH of field 3 of record 5, with the record's mask open, shut, and the record armed. -/
def heldBy (mask st : Byte) : State :=
  { running (ctx .X) core theSheet with
    pkgs := [{ Package.reset with hbm := [(5 * 256 + 15 * 8 + 4, mask), (5 * 256 + 23 * 8, st)].filter fun e => e.2 != 0 }] }

theorem witness_ProbeCacheRingsAndHeldWords_held (m st : Byte) :
    (heldBy m st).Runs 0 core theSheet ∧ core.pget 0 = true ∧ (3 : Nat) < 32 ∧ (5 : Nat) < 16384 ∧ (16384 : Nat) ≤ 16384
    ∧ ((heldBy 8 0).heldWord theSheet 0 5 15).getLsbD 35 = true ∧ ((heldBy 0 0).heldWord theSheet 0 5 15).getLsbD 35 = false
    ∧ (heldBy 8 0).heldArmed theSheet 0 5 = false ∧ (heldBy 8 1).heldArmed theSheet 0 5 = true
    ∧ (heldBy 0 0).heldArmed theSheet 0 5 = false := by
  refine ⟨⟨rfl, rfl⟩, by decide, by decide, by decide, by decide, ?_, ?_, ?_, ?_, ?_⟩ <;> decide +kernel

/-- A transfer of 128 bytes at 0x1000 into ring 1, or out of it. -/
def aXfer (read cv : Bool) (probe : Option (Nat × Nat)) : Xfer :=
  ⟨⟨0, .X, 1, 5, 5⟩, 1, read, false, 0, 0, 0x1000, 128, 1, 0, 2, 0, none, cv, false, false, probe, 32, 0⟩
def version : Version := ⟨0, (5 * 2 ^ 21 + 0x1000) / 64, 0, List.replicate 64 7, []⟩
def vatLine : VLine := ⟨1, (5 * 2 ^ 21 + 0x1000) / 64, [(3, 9)], none, []⟩

theorem witness_TransferBeats :
    ∀ cls, let sh := xSheet (aWindow cls) 9
    let s := { running (ctx .X) xCore sh with pkgs := [Package.reset] }
    let x := aXfer true false none
    s.sheet? x.sh = some sh ∧ s.HbmCanonical ∧ sh.window? x.peer 0x1000 128 = some (aWindow cls) ∧ sh.window? x.peer 0x1000 64 = some (aWindow cls)
    ∧ s.racing sh (sh.piece x 0 128 (s.task sh)) x.inv = [] ∧ (s.pkg x.peer).errors = [] ∧ (s.pkg x.peer).poison = []
    ∧ (Tab.get [] (s.pkg 0).lineKeys ((aWindow cls).phys 0x1000 / 64) = (s.pkg 0).keyOf (aWindow cls).key)
    ∧ (∀ lim, (s.pkg 0).version? ((aWindow cls).phys 0x1000 / 64) lim = none)
    ∧ s.Runs 0 xCore sh ∧ xCore.Canonical ∧ partsOf 128 [(0x10000, 128)] = [(0x10000, 128, 0)]
    ∧ xCore.Quiet 5 0x10000 0x1007F ∧ xCore.Latest { x.d with start := xferLand x } 0x10000 0x1007F ∧ xCore.cuts = [] ∧ xCore.wp = []
    ∧ (xCore.bfmtReg 1).getLsbD 38 = false ∧ (xCore.semAt 5 0).cyc ≤ 5 :=
  fun cls => ⟨rfl, (fun p hp => by rw [List.mem_singleton.mp hp]; rfl), by simp [Sheet.window?, xSheet, aWindow, aXfer],
    by simp [Sheet.window?, xSheet, aWindow, aXfer], by rfl, by rfl, by rfl, by rfl, fun _ => rfl, ⟨rfl, rfl⟩, (meetsX (aWindow 0) 0).2.1,
    by decide +kernel, (meetsX (aWindow 0) 0).1.quiet _ _ _, (meetsX (aWindow 0) 0).1.latest _ _ _, rfl, rfl, by decide, by decide +kernel⟩

/-- A line under another key, a couched version, a vat line; a word that traps in an FP8 bank under TRAP, and one that does not. -/
theorem witness_TransferBeats_views :
    (let p := { Package.reset with lineKeys := [(3, [1])] }
     Tab.get [] p.lineKeys 3 ≠ p.keyOf 0)
    ∧ (let p := { Package.reset with versions := [version] }
       (∀ l : Option Nat, l.all (fun n => decide (0 ≤ n)) = true → p.version? version.line l = some version) ∧ version.bytes.length = 64
         ∧ version.key = p.keyOf 0)
    ∧ ({ Package.reset with vat := [vatLine] } : Package).vline? 1 vatLine.line = some vatLine
    ∧ (let b := ({ xCore with bfmt := [(1, 0x43F800000 + 0x3000000000)] } : Core).bank 1
       (elems32 (List.replicate 128 0)).length * 32 = 8 * 128
       ∧ (∀ j < 32, (bankEncode b 0 b.pol ((elems32 (List.replicate 128 0)).getD j 0)).trap = false)
       ∧ (bankEncode b 0 b.pol ((elems32 ([0, 0, 0, 0, 0xFF, 0xFF, 0x7F, 0x7F] ++ List.replicate 120 0)).getD 1 0)).trap = true
       ∧ ∀ m < 1, (bankEncode b 0 b.pol ((elems32 ([0, 0, 0, 0, 0xFF, 0xFF, 0x7F, 0x7F] ++ List.replicate 120 0)).getD m 0)).trap = false) :=
  ⟨by decide, ⟨fun l _ => by cases l <;> rfl, by decide, by decide⟩, by decide, by decide, by decide +kernel, by decide +kernel, by decide +kernel⟩

theorem witness_TransferBeats_writes (cls : Nat) (lenient inPlace : Bool) :
    let sh := { xSheet (aWindow cls) 9 with lenient := lenient, irrev := if inPlace then 3 else 0 }
    let s := { running (ctx .X) xCore sh with pkgs := [Package.reset] }
    let x := aXfer false false none
    let a := sh.piece x 0 64 (s.task sh)
    s.sheet? x.sh = some sh ∧ s.HbmCanonical ∧ (aWindow cls).pkg < s.pkgs.length
    ∧ (∀ lim v, (s.pkg 0).version? ((aWindow cls).phys (64 * (0x1000 / 64)) / 64) lim = some v → v.bytes.length = 64)
    ∧ sh.window? x.peer 0x1000 64 = some (aWindow cls) ∧ 0x1000 % 64 + 64 ≤ 64 ∧ s.racing sh a false = []
    ∧ (sh.lenient = true → s.coincide sh a = []) ∧ sh.past = [] ∧ sh.inPlace = inPlace := by
  refine ⟨rfl, (fun p hp => by rw [List.mem_singleton.mp hp]; rfl), Nat.zero_lt_one, fun lim v h => ?_,
    by simp [Sheet.window?, xSheet, aWindow, aXfer], by decide, rfl, fun _ => rfl, rfl, by cases inPlace <;> rfl⟩
  · cases h

/-! A core with class 0 of the screen chain declared: records of 16 words, output 0 to ring 2; `run` is a SCREEN of it. -/

def scrWord0 : W64 := 0x800000000010002F
def outputRing : Ring := { noRing with first := 32, nfr := 4, tile := 1, gbase := [0, 0, 0, 0] }
def oneRec (emit : Nat) (recirc : Bool) (hit : Option (Nat × W32 × Nat)) : ScrRec :=
  { y := 5, f := List.replicate 16 7, pass := 0, gen := false, ksel := 0, emit := emit, recirc := recirc, drop := false, hit := hit }
def aRun (n : Nat) (again : Nat) (queue : List (Nat × ScrRec)) (flying : List ScrRec) : ScrRun :=
  ⟨⟨0, .X, 1, 4, 4⟩, 1, 0, n, again, 0, 0, queue, flying, 0, [], false⟩
def screening (rs : List ScrRun) : Core :=
  { core with
    rings := [(1, aRing), (2, outputRing)], tags := [(16, ⟨1, 0, 0⟩)]
    screen := { core.screen with cls := [(0, scrWord0)], runs := rs } }

theorem meetsScreen (rs : List ScrRun) : Meets (screening rs) .X theSheet := meets _ _ _ rfl rfl rfl rfl rfl rfl
theorem screenCanonical (rs : List ScrRun) : (screening rs).Canonical := canonical _ rfl rfl

theorem witness_ScreenRuns_word :
    let c := screening []
    let r := c.ring 1
    Meets c .X theSheet ∧ c.Canonical ∧ (∀ q ∈ c.screen.runs, q.last ≤ 5) ∧ (c.screen.clsWord 0 0).testBit 63 = true
    ∧ 1 ∉ c.screenRings 0 ∧ (∀ h ∈ c.screenRings 0, (c.ring h).nfr ≠ 0) ∧ c.ringOpen 5 1
    ∧ (∀ k ∈ r.tilesOf (r.recSpot 64 r.rd) (r.recEnd 64 r.rd 64 - r.recSpot 64 r.rd), r.ready 5 k = true)
    ∧ (∀ h ∈ c.screenRings 0, ∀ u ∈ (c.ring h).users, u.1.start ≠ 5)
    ∧ ¬(c.screen.clsWord 1 0).testBit 63 = true ∧ (∀ h ∈ c.screenRings 1, (c.ring h).nfr ≠ 0) :=
  ⟨meetsScreen [], screenCanonical [], by decide, by decide, by decide, by decide, ⟨by decide, by decide⟩, by decide +kernel, by decide,
    by decide, by decide⟩

/-- Slot 5 with a queued record, with nothing to take in, and with one new record of 64 bytes in ring 1. -/
theorem witness_ScreenRuns_admission :
    let q := [(4, oneRec 0 false none)]
    (screening [aRun 1 0 q []]).screen.inSlot 5 = some (aRun 1 0 q []) ∧ (aRun 1 0 q []).queue = (4, oneRec 0 false none) :: []
    ∧ (screening [aRun 0 1 [] []]).screen.inSlot 5 = some (aRun 0 1 [] []) ∧ (aRun 0 1 [] []).n ≤ (aRun 0 1 [] []).admitted
    ∧ (let r := aRun 1 0 [] []
       let c := screening [r]
       let rg := c.ring r.g
       c.screen.inSlot 5 = some r ∧ Meets c .X theSheet ∧ c.Canonical ∧ r.queue = [] ∧ r.admitted < r.n ∧ r.off = false
       ∧ c.screen.pitch r.cls = 64 ∧ (running (ctx .X) c theSheet).task theSheet = 5
       ∧ ∀ f ∈ frameStarts (rg.recSpot 64 r.cur) 64, c.tagFault 5 (frameOf (rg.addr f)) (rg.wantTag f) r.d = []) :=
  ⟨by decide, by decide, by decide, by decide, by decide, meetsScreen _, screenCanonical _, by decide, by decide, by decide, by decide,
    by decide, by decide⟩

/-- Cycle 30: no span ends; the span of a run that took nothing ends; that of a run whose tile 0 of ring 2 holds one record. -/
theorem witness_ScreenRuns_end :
    let plain : ScrRun := { aRun 6 0 [] [] with d := ⟨0, .X, 1, 8, 8⟩ }
    let took := { plain with took := [(2, 0)] }
    let c := { screening [took] with rings := [(2, { outputRing with wr := 64, tiles := [⟨0, 0, none, 4032, none, 1⟩] })] }
    let s := { running (ctx .X) c theSheet with ttc := 30 }
    s.Runs 0 c theSheet ∧ s.task theSheet = 30 ∧ c.Canonical ∧ (screening []).screen.ending 30 = []
    ∧ (screening [plain]).screen.ending 30 = [plain] ∧ (screening [plain]).zeroFills plain = []
    ∧ c.screen.ending 30 = [took] ∧ c.zeroFills took = [(2, 0, 64)] ∧ 0 < 4096 - 64
    ∧ (let a := (c.ring 2).addr 64; c.Quiet 30 a (a + 4031) ∧ c.Latest took.d a (a + 4031)
      ∧ (c.bfmtReg (a / 65536)).getLsbD 38 = false ∧ a / 65536 = (a + 4031) / 65536)
    ∧ (∀ u ∈ c.wp, sameWord u.1 took.d = false) :=
  ⟨⟨rfl, rfl⟩, by decide, canonical _ rfl rfl, by decide, by decide, by decide, by decide, by decide, by decide,
    ⟨(meets { screening _ with rings := _ } .X theSheet rfl rfl rfl rfl rfl rfl).quiet _ _ _,
      (meets { screening _ with rings := _ } .X theSheet rfl rfl rfl rfl rfl rfl).latest _ _ _, by decide, by decide⟩, by decide⟩

theorem witness_ScreenStages :
    let hit : Option (Nat × W32 × Nat) := some (1, 3, 2)
    let wait := aRun 1 0 [] [oneRec 0 false none]
    let acts := aRun 1 0 [] [oneRec 0 false hit]
    let emits := aRun 1 0 [] [oneRec 1 false none]
    let again := aRun 1 9 [] [oneRec 0 true none]
    let full := aRun 1 0 [] [oneRec 0 true none]
    (screening [wait]).screen.flyer 5 = some (wait, oneRec 0 false none) ∧ (screening [acts]).screen.flyer 5 = some (acts, oneRec 0 false hit)
    ∧ (oneRec 0 false none).f.length = 16 ∧ (oneRec 0 false none).drop = false
    ∧ (oneRec 0 true none).outs = [] ∧ (again.granted ≠ again.r ∧ (again.n - again.admitted) + 1 ≤ again.slots - 5)
    ∧ full.granted = full.r ∧ (screening [full]).screen.flyer 5 = some (full, oneRec 0 true none)
    ∧ ((screening []).screen.clsWord 0 0).testBit 29 = false
    ∧ (let c := screening [emits]
       let e := oneRec 1 false none
       let rg := c.ring 2
       let spot := rg.recSpot 64 rg.wr
       c.Canonical ∧ Meets c .X theSheet ∧ c.screen.flyer 5 = some (emits, e) ∧ e.outs = [0] ∧ c.screen.outRing 0 0 = some 2
       ∧ (∃ r', c.runTile 5 2 (spot / 4096) { emits with flying := [] } = some r' ∧ r'.addr spot = rg.addr spot)
       ∧ c.screen.pitch 0 = 64 ∧ (c.bfmtReg (rg.addr spot / 65536)).getLsbD 38 = false
       ∧ rg.addr spot / 65536 = (rg.addr spot + 63) / 65536 ∧ c.wp = []) :=
  ⟨by decide, by decide, by decide, rfl, by decide, by decide, by decide, by decide, by decide,
    screenCanonical _, meetsScreen _, by decide, by decide, by decide, ⟨_, rfl, by decide⟩, by decide, by decide, by decide, rfl⟩

/-- One line at line 0: a write of the shadow bank (mode 0), a counter read (1), a LIMIT read (2). s1: 0x10000, s2 the word. -/
def tabling (v : W64) : Core := { core with s := [(1, 0x10000), (2, v)] }

theorem witness_TableUpdates_words :
    (∀ v : W64, Meets (tabling v) .X theSheet) ∧ ((tabling 1).sget 2).toNat = 1 ∧ ((tabling 1).sget 1).toNat % 2 ^ 21 = 0x10000
    ∧ (tabling 1).screen.tblEnd ≤ 5 ∧ (tabling 1).screen.release ≤ 5 ∧ (0x10000 : Nat) % 64 = 0
    ∧ ((tabling 0x4000000000000001).sget 2).toNat / 2 ^ 62 = 1 ∧ ((tabling 0x4000000002000001).sget 2).toNat / 2 ^ 16 % 2 ^ 12 + 1 ≤ 513
    ∧ ((tabling 0x8000000000000001).sget 2).toNat / 2 ^ 62 = 2 ∧ ((tabling 0x04080001).sget 2).toNat / 2 ^ 16 % 2 ^ 12 + 1 = 1033
    ∧ core.pget 1 = false ∧ core.pget 0 = true
    ∧ core.screen.shadowBad true = none
    ∧ ({ core.screen with tbl := [(tblBase 0 true + 3, 0xC0)] } : Screen).shadowBad true = some (0, 0) :=
  ⟨fun _ => meets _ _ _ rfl rfl rfl rfl rfl rfl, by decide, by decide, by decide, by decide, by decide, by decide, by decide, by decide,
    by decide, by decide, by decide, by decide +kernel, by decide +kernel⟩

theorem witness_TableUpdates_lines :
    let r : TableRun := ⟨⟨0, .X, 1, 2, 0⟩, 0, 0, true, 0, 1, 0x10000, 0⟩
    Meets core .X theSheet ∧ core.Canonical ∧ (List.replicate 64 (1 : Byte)).length = 64 ∧ r.mode = 0 ∧ r.line + 0 < 1033
    ∧ ({ r with mode := 1, line := 1 } : TableRun).mode ≠ 0 ∧ 0 < ({ r with mode := 1, line := 1 } : TableRun).line + 0
    ∧ core.cuts = [] ∧ core.wp = [] ∧ (core.bfmtReg (r.addr / 65536)).getLsbD 38 = false :=
  ⟨meetsCore .X, coreCanonical, rfl, rfl, by decide, by decide, by decide, rfl, rfl, by decide⟩

/-- A line of the shadow tables has an uncorrectable error, and a line of the active ones. -/
theorem witness_TableUpdates_spoilt :
    let c := fun (l : Nat) => ({ tabling 0 with ill := [(5, l)] } : Core)
    let spoilt := fun (e : Nat × Nat) => e.1 = 5 ∧ ∃ st < 8, screenRange st (!(tabling 0).screen.gen) e.2 = true
    Meets (tabling 0) .X theSheet ∧ (tabling 0).screen.shadowBad (!(tabling 0).screen.gen) = none
    ∧ (∀ e ∈ (tabling 0).ill, ¬spoilt e) ∧ (∃ e ∈ (c (tblBase 0 true)).ill, spoilt e)
    ∧ (∀ e ∈ (c (tblBase 0 false)).ill, ¬spoilt e) ∧ (∀ l, (running (ctx .X) (c l) theSheet).Runs 0 (c l) theSheet)
    ∧ ∀ l, (c l).Ready (ctx .X) [pReg 0] [] := by
  refine ⟨meets _ _ _ rfl rfl rfl rfl rfl rfl, by decide +kernel, fun e h => (by cases h), ⟨(5, tblBase 0 true), .head _, rfl, 0, by decide, by decide⟩,
    ?_, fun _ => ⟨rfl, rfl⟩, fun l => ⟨?_, ?_, ?_⟩⟩
  · rintro e he ⟨-, st, hs, h⟩
    obtain rfl : e = (5, tblBase 0 false) := by simpa using he
    revert h; revert st; decide
  · intro _ _ p hp; cases hp
  · intro _ _ p hp; cases hp
  · simp [Core.illRegs, Core.illFaults, Core.illAt]

/-! One package, outside any sheet. -/

theorem packageCanonical : Package.reset.Canonical :=
  ⟨rfl, rfl, fun _ => rfl, rfl, rfl, rfl, rfl, rfl, rfl, rfl, rfl, rfl, rfl, rfl, rfl, rfl, rfl, by simp [Package.reset]⟩

/-- A package with at most partition 0, without queue records, is canonical if its tables are. -/
theorem packageOk (p : Package) (x : Partition) (hp : p.parts = [] ∨ p.parts = [(0, x)]) (hq : x.queues = []) (hv : p.versions = [])
    (h : (Memory.wf p.hbm && Tab.wf Partition.reset p.parts && Tab.wf KeySlot.reset p.slots && Tab.wf Headbox.reset p.boxes
      && Tab.wf Mailbox.reset p.mail && Tab.wf Port.reset p.ports) = true)
    (ht : p.lineKeys = [] ∧ p.vatSize = [] ∧ p.vatNext = [] ∧ p.cmapMap = [] ∧ p.cmapBad = [] ∧ p.cmapSpu = [] ∧ p.cmapRet = [] ∧ p.ecor = []
      ∧ p.eunc = [] ∧ p.eoth = []) : p.Canonical := by
  simp only [Bool.and_eq_true] at h
  obtain ⟨⟨⟨⟨⟨h1, h2⟩, h3⟩, h4⟩, h5⟩, h6⟩ := h
  obtain ⟨e0, e1, e2, e3, e4, e5, e6, e7, e8, e9⟩ := ht
  refine ⟨h1, h2, fun n => ?_, h3, h4, h5, h6, by rw [e0]; rfl, by rw [e1]; rfl, by rw [e2]; rfl, by rw [e3]; rfl, by rw [e4]; rfl, by rw [e5]; rfl,
    by rw [e6]; rfl, by rw [e7]; rfl, by rw [e8]; rfl, by rw [e9]; rfl, by rw [hv]; intro v hv; cases hv⟩
  rcases hp with hp | hp <;> simp only [Package.part, hp, Tab.get, Tab.find?]
  · rfl
  · split
    · simp only [Option.getD_some, hq]; rfl
    · rfl

def alone (p : Package) : State := { State.reset with pkgs := [p] }

theorem alonePkg (p : Package) : (alone p).pkg 0 = p ∧ 0 < (alone p).pkgs.length := ⟨rfl, by simp [alone]⟩

/-- A package whose command queue at 0x1000 has one packet; partition 0 open to debug. -/
def queued : Package :=
  { Package.reset with cqBase := 0x1000, cqSize := 16, cqTail := 1, parts := [(0, { Partition.reset with dbg := 1 })] }

theorem witness_HostRegistersAndQueue : queued.Canonical ∧ (alone queued).pkg 0 = queued ∧ 0 < (alone queued).pkgs.length
    ∧ 384 * 2 ^ 30 - 1 + ([1] : List Byte).length ≤ 384 * 2 ^ 30 ∧ 384 * 2 ^ 30 < 384 * 2 ^ 30 + ([1] : List Byte).length
    ∧ (0x11 % 8 ≠ 0 ∧ 0x20000 / 0x10000 = 2 ∧ 0x40000 / 0x10000 = 4 ∧ 8 ≤ 0x80000 / 0x10000)
    ∧ (queued.mailbox 7).busy = false ∧ ({ Mailbox.reset with busy := true } : Mailbox).busy = true
    ∧ (queued.part 0).dbg ≠ 0 ∧ (queued.part 7).dbg = 0
    ∧ queued.booted = true ∧ ({ queued with booted := false } : Package).booted = false
    ∧ queued.cqHead ≠ queued.cqTail ∧ queued.cqSize ≠ 0 ∧ (∀ e ∈ (alone queued).agenda, isPacket 0 e.act = false)
    ∧ Package.reset.cqHead = Package.reset.cqTail
    ∧ ([0, 0, 0, 0, 0, 0] : List W64).length = 6 ∧ (8 : W64).toNat % 256 = 8 ∧ (1 : W64) ≠ 0 :=
  ⟨packageOk _ { Partition.reset with dbg := 1 } (.inr rfl) rfl rfl (by decide +kernel) ⟨rfl, rfl, rfl, rfl, rfl, rfl, rfl, rfl, rfl, rfl⟩,
    rfl, by simp [alone], by decide, by decide, by decide, by decide, by decide, by decide, by decide, rfl, rfl, by decide, by decide,
    (fun e h => by cases h), rfl, rfl, by decide, by decide⟩

/-- A package that takes host writes, one that does not; its queue while a LEASE waits, or a lease of another package. -/
theorem witness_HostRegistersAndQueue_silent :
    queued.silent = false ∧ ({ queued with booted := false } : Package).silent = true
    ∧ (∃ r ∈ ({ alone queued with leaseReq := [(0, 1200, 1)] } : State).leaseReq, r.1 = 0)
    ∧ (∀ r ∈ ({ alone queued with leaseReq := [(1, 1200, 1)] } : State).leaseReq, r.1 ≠ 0)
    ∧ (0 : W64).extractLsb' 40 24 = 0 ∧ (0x10000000000 : W64).extractLsb' 40 24 ≠ 0 :=
  ⟨by decide, by decide, by decide, by decide, by decide, by decide⟩

/-- What the mill controller reads while no access of package 0 is open. -/
theorem witness_HostRegistersAndQueue_reading : (∀ sh ∈ (alone queued).sheets, ∀ e ∈ sh.past, e.pkg ≠ 0)
    ∧ (∀ e ∈ theSheet.past, e.pkg ≠ 0) := ⟨(fun _ h => nomatch h), (fun _ h => nomatch h)⟩

/-- The least record: one work item, one cluster, an image without sections, no regions, no plan. -/
def leastRecord : List W64 :=
  [0x0100000000000000, 0x20, 1, 0x2108421, 0, 0, 0, 1, 0, 1250 * 65536 + 1100, 0, 0, 0, 0, 0, 0, 0, 0, 0, 0, 0, 0, 0]

/-- The bytes of that record other than 0, from 0x10000 on. -/
def leastBytes : Mem :=
  [(0x10007, 1), (0x10008, 0x20), (0x10010, 1), (0x10018, 0x21), (0x10019, 0x84), (0x1001A, 0x10), (0x1001B, 2), (0x10038, 1),
   (0x10048, 0x4C), (0x10049, 4), (0x1004A, 0xE2), (0x1004B, 4)]

def leastPart : Partition := { Partition.reset with valid := true, pool := 0x10000, clus := 1 }

/-- Package 0 of a formed domain with record 0 of partition 0 as given. -/
def withRecord (hbm : Mem) : Package :=
  { Package.reset with
    formed := true, parts := [(0, leastPart)], hbm := hbm }

/-- Words of a DOMAIN packet that makes package 0 number 0 of a domain of `size`. -/
def domainWord (size : Nat) : W64 := BitVec.ofNat 64 (size * 2 ^ 11)
def extWord (size : Nat) : W64 := BitVec.ofNat 64 (size * 2 ^ 33 + 2 ^ 44)

def unformed : Package := { Package.reset with parts := [(0, leastPart)] }
def joined : Package := { unformed with formed := true, dstate := 1 }

theorem unformedCanonical : unformed.Canonical :=
  packageOk _ leastPart (.inr rfl) rfl rfl (by decide +kernel) ⟨rfl, rfl, rfl, rfl, rfl, rfl, rfl, rfl, rfl, rfl⟩
theorem joinedCanonical : joined.Canonical :=
  packageOk _ leastPart (.inr rfl) rfl rfl (by decide +kernel) ⟨rfl, rfl, rfl, rfl, rfl, rfl, rfl, rfl, rfl, rfl⟩

/-- DOMAIN of size 1 forms, of size 2 waits for the other package; size 0 does not fit. A sheet makes the package busy. -/
theorem witness_DomainLeaseAndPowerCommands :
    (0 < 1 ∧ 1 * 1 * 1 = 1) ∧ (domainWord 1).toNat % 2 ^ 11 = 0 ∧ (domainWord 1).toNat / 2 ^ 11 % 2 ^ 12 = 1
    ∧ (extWord 1).toNat / 2 ^ 33 % 2 ^ 11 = 1 ∧ (extWord 1).toNat / 2 ^ 44 % 2 ^ 11 = 1
    ∧ unformed.formed = false ∧ (∃ y ∈ unformed.parts, y.2.valid = true) ∧ (alone unformed).domainFormed = false
    ∧ (unformed.enlist 0 1100 (domainWord 1) (extWord 1) 1).dstate = 1 ∧ (unformed.enlist 0 1100 (domainWord 1) (extWord 1) 1).num = 0
    ∧ (unformed.enlist 0 1100 (domainWord 1) (extWord 1) 1).dsize = 1
    ∧ (domainWord 2).toNat / 2 ^ 11 % 2 ^ 12 = 2 ∧ ¬((0 : Nat) < 0)
    ∧ joined.Canonical ∧ joined.formed = true ∧ 1100 ≤ 1250 ∧ (alone joined).domainFormed = true
    ∧ (running (ctx .S) core theSheet).busyPkg 0 = true ∧ (alone joined).busyPkg 0 = false :=
  ⟨by decide, by decide, by decide, by decide, by decide, rfl, ⟨_, .head _, rfl⟩, rfl, rfl, by decide, by decide, by decide, by decide,
    joinedCanonical, rfl, by decide, rfl, rfl, rfl⟩

/-- A domain that forms with the last DOMAIN, one that waits, one that is there; packages with and without a port; leases and power. -/
theorem witness_DomainLeaseAndPowerCommands_forms :
    let new := unformed.enlist 0 1100 (domainWord 1) (extWord 1) 1
    let joins := fun (p : Package) => p.dstate = 1 ∧ (p.dsize = 1 ∨ ∃ y ∈ p.ports, y.2.admitted = true)
    (∀ m < 1, ∃ p < 1, (([new] : List Package).getD p Package.reset).dstate = 1 ∧ (([new] : List Package).getD p Package.reset).num.toNat = m
      ∧ (([new] : List Package).getD p Package.reset).dsize.toNat = 1)
    ∧ joins new ∧ ¬joins { new with dsize := 2 }
    ∧ (∃ m < 2, ∀ p < 1, (([new] : List Package).getD p Package.reset).dstate ≠ 1
        ∨ (([new] : List Package).getD p Package.reset).num.toNat ≠ m ∨ (([new] : List Package).getD p Package.reset).dsize.toNat ≠ 2)
    ∧ (alone joined).domainFormed = true ∧ 1 ≤ 3 :=
  ⟨by decide +kernel, by decide +kernel, by decide +kernel, by decide +kernel, rfl, by decide⟩

/-- A package under a lease of none, whose power changes while no link leads to it. -/
theorem witness_DomainLeaseAndPowerCommands_power :
    (∀ sh ∈ (alone joined).clocked, (alone joined).crosses sh 0 = false) ∧ (∀ r ∈ (alone joined).leaseReq, r.1 ≠ 0)
    ∧ ({ joined with power := 2, dsize := 1 } : Package).power = 2 ∧ joined.power ≠ 2 :=
  ⟨by decide +kernel, (fun _ h => by cases h), rfl, by decide⟩

/-- A package in a secured session with partition 0 valid and its key slots its own. -/
def keyed : Package :=
  { joined with
    sec := 1, spdm := { Spdm.reset with version := true, caps := true, algs := true, challenged := true, exchange := true, secured := true }
    parts := [(0, { leastPart with keys := BitVec.allOnes 128 })] }

/-- The grant of a token is the package's own function of it: no value of it is assumed here. -/
theorem witness_KeysTokensAndAttestation :
    keyed.Canonical ∧ Package.reset.Canonical ∧ keyed.spdm.secured = true ∧ keyed.sec ≠ 0 ∧ keyed.formed = true ∧ (127 : Nat) < 128
    ∧ (keyed.part 0).valid = true ∧ (keyed.part 0).keys.getLsbD 127 = true ∧ (List.replicate 64 (0 : Byte)).length = 64
    ∧ (alone keyed).slotUsed 0 127 = false ∧ keyed.booted = true ∧ keyed.sec = 1 ∧ keyed.spdm.challenged = true
    ∧ (∀ e ∈ keyed.parts, e.2.dbg = 0 ∧ e.2.dbgNext = none)
    ∧ Package.reset.spdm.secured = false ∧ Package.reset.spdm.version = false :=
  ⟨packageOk _ { leastPart with keys := BitVec.allOnes 128 } (.inr rfl) rfl rfl (by decide +kernel) ⟨rfl, rfl, rfl, rfl, rfl, rfl, rfl, rfl, rfl, rfl⟩,
    packageCanonical, rfl, by decide, rfl, by decide, by decide, by decide, by decide, rfl, rfl, rfl, rfl, by decide, rfl, rfl⟩

/-- A package held in reset by image 2, one that is off; requests in and out of their order. -/
theorem witness_KeysTokensAndAttestation_requests :
    ({ Package.reset with badImage := some 2, booted := false } : Package).badImage = some 2
    ∧ ({ Package.reset with power := 3 } : Package).badImage = none ∧ Package.reset.badImage = none ∧ Package.reset.power ≠ 3
    ∧ keyed.spdm.version = true ∧ keyed.spdm.caps = true ∧ keyed.spdm.algs = true ∧ keyed.spdm.exchange = true
    ∧ Package.reset.spdm.caps = false ∧ Package.reset.spdm.algs = false ∧ Package.reset.spdm.exchange = false ∧ (1 ≤ 6 ∧ ¬(7 : Nat) ≤ 6) :=
  ⟨rfl, rfl, rfl, by decide, rfl, rfl, rfl, rfl, rfl, rfl, rfl, by decide⟩

/-- Two admitted ports, or one. -/
def ported (two : Bool) : Package :=
  { joined with ports := (0, ⟨0, 0, 0, true, false, false, 1⟩) :: (if two then [(1, ⟨0, 0, 0, true, false, false, 2⟩)] else []) }

theorem witness_StacksLinksAndReset : (∀ b, (ported b).Canonical)
    ∧ (Tab.get Port.reset (ported true).ports 1).admitted = true
    ∧ Tab.get Port.reset (ported false).ports 0 ≠ Port.reset ∧ ¬(Tab.get Port.reset (ported false).ports 1).admitted = true
    ∧ ((running (ctx .S) core theSheet).sheets.map (·.id)).Nodup ∧ 0 ∈ theSheet.pkgs ∧ theSheet.state = 5 ∧ theSheet.stops = []
    ∧ (∃ k ∈ theSheet.gang, keyPkg k = 0 ∧ clusterOf (keyId k) / 2 = 0)
    ∧ (∀ k ∈ theSheet.gang, ¬(keyPkg k = 0 ∧ clusterOf (keyId k) / 2 = 1)) ∧ joined.Canonical
    ∧ (∀ sh ∈ (alone joined).clocked, (alone joined).crosses sh 0 = false)
    ∧ ({ theSheet with state := 6 } : Sheet).decision = none ∧ ({ theSheet with decision := some none, prepared := [(0, true)] } : Sheet).decision ≠ none :=
  ⟨(fun b => by cases b <;> exact packageOk _ leastPart (.inr rfl) rfl rfl (by decide +kernel) ⟨rfl, rfl, rfl, rfl, rfl, rfl, rfl, rfl, rfl, rfl⟩),
    by decide, by decide, by decide, by decide, by decide, rfl, rfl, ⟨0, by decide, by decide, by decide⟩, by decide, joinedCanonical,
    (fun _ h => by cases h), rfl, by decide⟩

/-- A busy mailbox; a trial of pair 0; couches at each stage for the twin; a package whose lines have versions. -/
theorem witness_StacksLinksAndReset_trial :
    (∃ e ∈ ({ joined with mail := [(0, { Mailbox.reset with busy := true })] } : Package).mail, e.2.busy = true)
    ∧ ¬(∃ e ∈ joined.mail, e.2.busy = true)
    ∧ (let p : Package := { joined with trial := some ⟨0, 700, false, false, 5⟩ }
       p.Canonical ∧ p.trial = some ⟨0, 700, false, false, 5⟩)
    ∧ (∀ x, joined.trial = some x → x.pair ≠ 0 ∨ x.restored = true)
    ∧ (∀ f ∈ theSheet.faults, ¬(f.pkg = 0 ∧ f.cause = cUncorrectable ∧ f.task = 5)) ∧ theSheet.held ≠ .saved
    ∧ (let sh := { theSheet with state := 7, pkgs := [0, 1], prepared := [(0, true), (1, true)] }
       sh.decision = none ∧ 1 < sh.pkgs.length ∧ sh.prepared.length = sh.pkgs.length)
    ∧ (let sh := { theSheet with state := 7, pkgs := [0, 1], prepared := [(1, true)] }
       sh.prepared.length ≠ sh.pkgs.length ∧ ∃ p ∈ sh.pkgs, ∀ e ∈ sh.prepared, e.1 ≠ p)
    ∧ (let sh := { theSheet with pkgs := [0, 1] }
       1 ∈ sh.pkgs ∧ sh.home ≠ 1 ∧ sh.state = 5 ∧ sh.stops = [])
    ∧ (∀ sh ∈ (alone joined).sheets, sh.home ≠ 0) ∧ (∀ r ∈ (alone joined).leaseReq, r.1 ≠ 0)
    ∧ joined.versions.Pairwise (fun u v => u.line = v.line → u.w < v.w) := by
  refine ⟨by decide, by decide, ⟨packageOk _ leastPart (.inr rfl) rfl rfl (by decide +kernel) ⟨rfl, rfl, rfl, rfl, rfl, rfl, rfl, rfl, rfl, rfl⟩, rfl⟩,
    (fun x h => by cases h), by decide, by decide, by decide, by decide, by decide, (fun _ h => by cases h), (fun _ h => by cases h), .nil⟩

/-- Packages 0 and 1 of a ring of two: each has a port to the other. -/
def linked (q : Nat) (more : List (Nat × Port)) : Package :=
  { joined with
    dstate := 2, dsize := 2, num := BitVec.ofNat 11 q, coord := (q, 0, 0), ext := (2, 1, 1)
    ports := (0, ⟨0, 1, 0, true, false, false, if q = 0 then 1 else 2⟩) :: more }
def pairing (more : List (Nat × Port)) : State := { State.reset with pkgs := [linked 0 more, linked 1 more] }

theorem witness_StacksLinksAndReset_pair :
    let more : List (Nat × Port) := [(1, ⟨0, 1, 0, true, false, false, 3⟩)]
    (pairing []).pairOf 0 0 = some (1, 0) ∧ (alone joined).pairOf 0 0 = none ∧ (linked 0 []).Canonical ∧ (linked 1 more).Canonical
    ∧ (linked 0 []).ports ≠ [] ∧ Tab.get Port.reset (linked 0 []).ports 0 ≠ Port.reset
    ∧ ((linked 0 []).dstate = 2 ∧ (linked 0 []).formed = true)
    ∧ (∃ i, i ≠ 0 ∧ (Tab.get Port.reset (linked 1 more).ports i).admitted = true)
    ∧ ¬(∃ i, i ≠ 0 ∧ (Tab.get Port.reset (linked 0 []).ports i).admitted = true)
    ∧ (∀ p n, p ≠ 0 → (alone joined).farOf p n ≠ some 0) ∧ (∃ n, (pairing []).farOf 1 n = some 0)
    ∧ theSheet.state = 5 ∧ 2 ≤ theSheet.state ∧ theSheet.decision = none
    ∧ (∀ sh ∈ (running (ctx .S) core theSheet).sheets, (∃ k ∈ sh.gang, keyPkg k = 0 ∧ clusterOf (keyId k) / 2 = 0) → sh.state = 5) := by
  refine ⟨by decide, by decide, ?_, ?_, by decide, by decide, by decide, ⟨1, by decide, by decide⟩, ?_, ?_, ⟨0, by decide⟩, rfl, by decide, rfl, ?_⟩
  · exact packageOk _ leastPart (.inr rfl) rfl rfl (by decide +kernel) ⟨rfl, rfl, rfl, rfl, rfl, rfl, rfl, rfl, rfl, rfl⟩
  · exact packageOk _ leastPart (.inr rfl) rfl rfl (by decide +kernel) ⟨rfl, rfl, rfl, rfl, rfl, rfl, rfl, rfl, rfl, rfl⟩
  · rintro ⟨i, hi, h⟩
    simp [linked, Tab.get, Tab.find?, Ne.symm hi, Port.reset] at h
  · intro p n hp
    obtain ⟨m, rfl⟩ := Nat.exists_eq_succ_of_ne_zero hp
    have : (alone joined).pkg (m + 1) = Package.reset := rfl
    simp [State.farOf, this, Package.portDir, Package.reset, Package.stepTo, Tab.get, Tab.find?, Port.reset]
  · intro sh h _; rw [List.mem_singleton.mp h]; rfl

/-- The running sheet's partition open to debug: traced (one record of 16 free), full, a breakpoint set, frozen. -/
def traced (d : DebugBlock) : Package :=
  { Package.reset with hbm := [(0x3000, 1)], parts := [(0, { leastPart with dbg := 1, dblk := d })] }
def tracing (d : DebugBlock) (o : Col) : State := { running (ctx o) core theSheet with pkgs := [traced d] }
def block : DebugBlock := { DebugBlock.reset with trBase := 0x2000, trEn := true, trSize := 16, bpBase := 0x3000 }

theorem witness_DebugAndSavedContext_trace : (∀ d o, (tracing d o).Runs 0 core theSheet) ∧ (traced block).Canonical
    ∧ keyPkg (ctx .V).k < (tracing block .V).pkgs.length ∧ (ctx .V).off = false ∧ ((traced block).part 0).dbg ≠ 0 ∧ block.trEn = true
    ∧ block.trHead - block.trTail ≠ block.trSize.setWidth 64
    ∧ ({ block with trHead := 16 } : DebugBlock).trHead - block.trTail = block.trSize.setWidth 64
    ∧ block.bpBase ≠ 0 ∧ ((traced block).byteAt (0x3000 + 0 / 8)).getLsbD (0 % 8) = true
    ∧ ((traced block).byteAt (0x3000 + 1 / 8)).getLsbD (1 % 8) = false :=
  ⟨fun _ _ => ⟨rfl, rfl⟩,
    packageOk _ { leastPart with dbg := 1, dblk := block } (.inr rfl) rfl rfl (by decide +kernel) ⟨rfl, rfl, rfl, rfl, rfl, rfl, rfl, rfl, rfl, rfl⟩,
    by decide, rfl, by decide, rfl, by decide, by decide, by decide, by decide +kernel, by decide +kernel⟩

/-- The sheet with a save slot, running, held for a restore, and held in place. -/
def saved (h : Hold) : Sheet := { theSheet with held := h, words := (List.replicate 14 0) ++ [0x100000] }
def saving (h : Hold) : State := { running (ctx .S) core (saved h) with pkgs := [{ Package.reset with hbm := [(0x100006, 3)] }], ttc := 8192 }

theorem witness_DebugAndSavedContext_save :
    0 ∈ (saved .none).pkgs ∧ (saved .none).pkgs.Nodup ∧ (∀ p ∈ (saved .none).pkgs, p < (saving .none).pkgs.length)
    ∧ (∀ h, ∀ p ∈ (saving h).pkgs, p.Canonical) ∧ (saved .none).gang.Nodup
    ∧ (∀ k ∈ (saved .none).gang, ((saving .none).coreOf (saved .none).id k).isSome = true) ∧ recSave (saved .none).words = 0x100000
    ∧ (saving .none).sheet? 1 = some (saved .none) ∧ (saved .none).state = 5 ∧ (saved .none).held = .none ∧ (saved .none).stops = []
    ∧ (∀ f ∈ (saved .none).faults, (saving .none).task (saved .none) < f.task) ∧ (saving .none).saveError (saved .none) = none
    ∧ (saved .none).sound = true ∧ (saved .saved).sound = false
    ∧ (saved .restore).held = .restore ∧ (saving .restore).restoreFault (saved .restore) = none
    ∧ (saving .release).planMeets (saved .release) 4096 = false ∧ (saved .release).t0 ≤ (saved .release).heldAt
    ∧ (saved .release).heldAt ≤ (saving .release).ttc
    ∧ (({ saving .restore with pkgs := [Package.reset] } : State).restoreFault (saved .restore)).isSome = true :=
  ⟨by decide, by decide, by decide,
    (fun h p hp => by
      obtain rfl := List.mem_singleton.mp hp
      exact packageOk _ leastPart (.inl rfl) rfl rfl (by decide +kernel) ⟨rfl, rfl, rfl, rfl, rfl, rfl, rfl, rfl, rfl, rfl⟩),
    by decide, by decide, by decide, rfl, rfl, rfl, rfl, by decide, by decide +kernel, rfl, rfl, rfl, by decide +kernel, by decide +kernel,
    by decide, by decide, by decide +kernel⟩

/-- A block that is not frozen; one whose sheet is gone; one whose sheet is suspended, with a save area and without. -/
theorem witness_DebugAndSavedContext_block :
    let frozen : DebugBlock := { block with frozen := true, held := some 1, susp := true }
    ((traced block).part 0).dbg ≠ 0 ∧ (Package.reset.part 0).dbg = 0 ∧ block.frozen = false ∧ frozen.frozen = true
    ∧ (alone (traced frozen)).sheet? 1 = none ∧ (tracing frozen .S).sheet? 1 = some theSheet
    ∧ ({ saving .inPlace with pkgs := [traced frozen] } : State).sheet? 1 = some (saved .inPlace) ∧ recSave (saved .inPlace).words ≠ 0
    ∧ recSave theSheet.words = 0 ∧ (saved .inPlace).held = .inPlace
    ∧ ∀ p ∈ (saved .inPlace).pkgs, p ≠ 0 → False :=
  ⟨by decide, by decide, rfl, rfl, rfl, rfl, rfl, by decide, by decide, rfl, by decide⟩

/-- A save that meets an error, a restore that meets poison or another sheet's reservations; the package without a save key and with one, kept and cleared. -/
theorem witness_DebugAndSavedContext_keys :
    (({ saving .none with cores := [(0, { core with ill := [(4, 9)] })] } : State).saveError (saved .none)).isSome = true
    ∧ (saved .saved).held ≠ .none
    ∧ (({ saving .restore with pkgs := [{ Package.reset with poison := [0x4001] }] } : State).restoreFault (saved .restore)).isSome = true
    ∧ (let sh := { saved .release with plan := [⟨0, 0, 1, 0, 10⟩] }
     ({ saving .release with sheets := [sh, { theSheet with id := 2, t0 := 8192, plan := [⟨0, 0, 1, 0, 10⟩] }] } : State).planMeets sh 8192 = true)
    ∧ (List.range 128).find? (Package.reset.part 0).keys.getLsbD = none
    ∧ (let p : Package := { Package.reset with parts := [(0, { leastPart with dbg := 1, keys := 4 })] }
       (List.range 128).find? (p.part 0).keys.getLsbD = some 2) :=
  ⟨by decide +kernel, by decide, by decide +kernel, by decide +kernel, by decide, by decide⟩

/-- A request that stands in the block already, and one that does not. -/
theorem witness_DebugAndSavedContext_asks :
    let ask : BitVec 14 × Option Nat := (BitVec.ofNat 14 theSheet.rcd, some theSheet.id)
    ask ∉ block.asks ∧ ask ∈ ({ block with asks := [ask] } : DebugBlock).asks := by decide

/-- A state with that sheet alone, its save area at a whole line. -/
theorem witness_DebugAndSavedContext_image :
    (saving .saved).sheets = [saved .saved] ∧ recSave (saved .saved).words ≠ 0 ∧ recSave (saved .saved).words % 64 = 0
    ∧ (saved .saved).past = [] ∧ 0x100000 ≤ 0x100040 ∧ 0x100040 < 0x100000 + saveBytes (saved .saved) 0 :=
  ⟨rfl, by decide, by decide, rfl, by decide, by decide⟩

/-! Sheets of the least record on a package whose partition owns cluster 0 alone; queues 0 and 16 have tickets. -/

def leastSheet (id rcd : Nat) (ws : List W64) : Sheet := armedSheet id 0 rcd 0 ws
def queuing : Package :=
  { withRecord leastBytes with
    parts := [(0, { leastPart with queues := [(0, ⟨1, 0⟩), (16, ⟨1, 0⟩)] })]
    hbm := leastBytes ++ [(0x101B8, 8), (0x101C4, 1)] }
def queues (shs : List Sheet) : State := { alone queuing with sheets := shs, nextSheet := 9, ttc := 4096 * 7 }

/-- A sheet of queue 16 that runs on cluster 0. -/
def occupant : Sheet :=
  { leastSheet 2 2 (leastRecord.set 0 0x0100000000000010) with state := 5, pkgs := [0], clusters := [(0, [0])], gang := (List.range 8) }

/-- The record with a dependency on record 1, which is final with another outcome than COUCHED. -/
def dependent : List W64 := leastRecord.set 16 0x8001

theorem witness_PlacementAndLoading_choice :
    (queues []).choose 0 4 0 = .none
    ∧ (queues [leastSheet 1 0 leastRecord]).choose 0 4 0 = .place (leastSheet 1 0 leastRecord) [(0, [0])]
    ∧ (queues [leastSheet 1 0 dependent]).choose 0 4 0 = .refuse (leastSheet 1 0 dependent) 10
    ∧ (queues [leastSheet 1 0 leastRecord, occupant]).choose 0 4 0 = .victims [2] 0
    ∧ (leastSheet 1 0 leastRecord).held ≠ .saved
    ∧ (let sh := { leastSheet 1 0 leastRecord with state := 5, held := .saved, clusters := [(0, [0])] }
       (queues [sh]).choose 0 4 0 = .place sh [(0, [0])] ∧ sh.held = .saved) := by decide +kernel

/-- A sheet that a transient error left to its cores (R351), while those stand as they did. -/
theorem witness_PlacementAndLoading_again :
    let sh := { leastSheet 1 0 leastRecord with again := [(0, [0])] }
    sh.held ≠ .saved ∧ (queues [sh]).sameCores sh = true ∧ (queues [sh]).fit sh [] = .fits [(0, [0])]
    ∧ (queues [leastSheet 1 0 leastRecord]).sameCores (leastSheet 1 0 leastRecord) = false
    ∧ victimBefore { occupant with placed := 2 } { occupant with placed := 1 } = true
    ∧ (queues [{ occupant with victim := some 0 }]).sheet? 2 = some { occupant with victim := some 0 } := by decide +kernel

/-- A record with a failed dependence of class 1 is refused while the one of class 0 waits for room. -/
theorem witness_PlacementAndLoading_refused :
    let late := leastSheet 3 4 (dependent.set 0 0x0100000000000010)
    let s := queues [leastSheet 1 0 leastRecord, { occupant with held := .release }, late]
    s.fit (leastSheet 1 0 leastRecord) [] = .noRoom ∧ s.fit late [] = .refuse 10 ∧ s.choose 0 4 0 = .refuse late 10 := by decide +kernel

/-- The core with ALIGN in every column, or in none. -/
def alignCol : Column := { endedColumn with code := [(0, 0x80100000)] }
def aligned : Core := { core with cols := (alignCol, alignCol, alignCol, alignCol) }

/-- A sheet with one reservation. -/
def planned (id : Nat) : Sheet := { theSheet with id := id, plan := [⟨0, 0, 1, 0, 10⟩] }

theorem witness_PlacementAndLoading :
    (queues [leastSheet 1 0 leastRecord]).sheet? (leastSheet 1 0 leastRecord).id = some (leastSheet 1 0 leastRecord)
    ∧ ((gangOf [(0, [0])]).map (·.1)).Nodup
    ∧ (let sh := { theSheet with state := 3 }
       let s := { running (ctx .S) aligned sh with ttc := 4096 }
       s.sheet? 1 = some sh ∧ s.planMeets sh 4096 = false ∧ sh.stops = [] ∧ s.core? 0 = some aligned)
    ∧ (running (ctx .S) aligned { planned 1 with state := 3 }).planMeets { planned 1 with state := 3 } 0 = false
    ∧ ({ running (ctx .S) aligned theSheet with sheets := [planned 2] } : State).planMeets { planned 1 with state := 3 } 0 = true
    ∧ aligned.alignFaults 0 = [] ∧ core.alignFaults 0 ≠ [] :=
  ⟨by decide, by decide, ⟨rfl, by decide, rfl, rfl⟩, by decide, by decide, by decide, by decide⟩

def aFault (task : Nat) (cause : Nat) : FaultRec := ⟨0, none, false, cause, 0, false, 0, 0, 0, .S, 1, task, 0, 0, 0⟩

theorem witness_FaultsAndEnds_taken :
    (running (ctx .S) core theSheet).sheet? 1 = some theSheet ∧ theSheet.state = 5 ∧ theSheet.stopAt 0 = none
    ∧ ({ theSheet with stops := [(0, 4)] } : Sheet).stopAt 0 = some 4 ∧ 4 < (aFault 5 cMiss).task ∧ (aFault 4 cMiss).task ≤ 4
    ∧ ({ theSheet with state := 6 } : Sheet).state ≠ 5
    ∧ Package.reset.Canonical ∧ Package.reset.logHead - Package.reset.logTail ≠ 4096
    ∧ ({ Package.reset with logHead := 4096 } : Package).logHead - 0 = 4096 :=
  ⟨rfl, rfl, by decide, by decide, by decide, by decide, by decide, packageCanonical, by decide, by decide⟩

/-- Events of channel 0: the first of it, the third uncorrectable and the 64th correctable one, one under a trial; two of a cycle. -/
theorem witness_FaultsAndEnds_events :
    let third : Package := { Package.reset with history := [(0, 2, 0), (0, 2, 0)] }
    let last : Package := { Package.reset with history := List.replicate 63 (0, 1, 0) }
    let trying : Package := { Package.reset with trial := some ⟨0, 0, false, false, 0⟩ }
    let f := LogFields.none
    let a : Report := ⟨7, 1, 0, f⟩
    let b : Report := ⟨7, 1, 3, f⟩
    Package.reset.underTrial 0 = false ∧ trying.underTrial 0 = true ∧ trying.underTrial 216 = false ∧ 0 ∉ third.lasting
    ∧ (third.report ⟨7, 2, 0, f⟩).2.isSome = true ∧ (last.report a).2.isSome = true ∧ (Package.reset.report a).2 = none
    ∧ a.before b = true ∧ ((Package.reset.report a).1.report b).2 = none ∧ Package.reset.reports = [] :=
  ⟨by decide, by decide, by decide, by decide, by decide +kernel, by decide +kernel, by decide +kernel, by decide +kernel, by decide +kernel, rfl⟩

/-- A sheet of two packages, one of which has stopped; the message of one that faulted arrives at cycle 5. -/
theorem witness_FaultsAndEnds_stop :
    let two := { theSheet with pkgs := [0, 1], stops := [(1, 3)], faults := [{ aFault 3 cMiss with pkg := 1 }] }
    let s := running (ctx .S) core two
    s.sheet? 1 = some two ∧ two.state = 5 ∧ two.stopAt two.home = none ∧ two.stopAt 0 = none ∧ two.stopAt 1 ≠ none
    ∧ (∀ p ∈ two.pkgs, p = 0 ∨ (two.stopAt p).isSome = true) ∧ ¬(∀ p ∈ [0, 1, 2], p = 0 ∨ (two.stopAt p).isSome = true) :=
  ⟨rfl, rfl, by decide, by decide, by decide, by decide, by decide⟩

/-- An uncorrectable error of the package, and of another one's link; a fault that comes too late. -/
theorem witness_FaultsAndEnds_hard :
    (aFault 5 cUncorrectable).hard = true ∧ ({ aFault 5 cUncorrectable with ch := some (1, 224) } : FaultRec).hard = false
    ∧ (aFault 5 cMiss).hard = false ∧ (aFault 5 cUncorrectable).pkg < (running (ctx .S) core theSheet).pkgs.length
    ∧ (∃ t < (aFault 5 cUncorrectable).task, ({ theSheet with stops := [(0, 4)] } : Sheet).stopAt 0 = some t) :=
  ⟨by decide, by decide, by decide, by decide, 4, by decide, by decide⟩

/-- A home that a message stops in the cycle WDOG; two causes of one word, of which the first in the order of R345 stays. -/
theorem witness_FaultsAndEnds_limit :
    let sh := { theSheet with words := [0, 0, 0, 0, 0, 0, 0, 0, 5], pkgs := [0, 1] }
    let s := running (ctx .S) core sh
    let fs := [aFault 5 cMiss, aFault 5 cUncorrectable]
    s.sheet? 1 = some sh ∧ sh.state = 5 ∧ sh.stopAt 0 = none ∧ recWdog sh.words ≠ 0 ∧ s.taskOf sh = recWdog sh.words
    ∧ (∀ f ∈ sh.faults, f.cause ≠ cWatchdog) ∧ recWdog theSheet.words = 0
    ∧ (aFault 5 cMiss).meets (aFault 5 cUncorrectable) = true ∧ causeRank cUncorrectable 0 ≤ causeRank cMiss 0
    ∧ firstCauses fs = [aFault 5 cUncorrectable]
    ∧ ({ theSheet with faults := fs } : Sheet).lostErrors 0 [aFault 5 cMiss] = [aFault 5 cUncorrectable] :=
  ⟨rfl, rfl, by decide, by decide, by decide, (fun _ h => by cases h), by decide, by decide, by decide, by decide, by decide⟩

/-- A sheet to be repulped: running, saved, frozen in place. -/
theorem witness_FaultsAndEnds_held (h : Hold) : (saving h).sheet? (saved h).id = some (saved h) ∧ (saved h).held = h := ⟨rfl, rfl⟩

/-- Causes of one cycle on one package: a word's and the whole sheet's; two words, two subcodes. -/
theorem witness_FaultsAndEnds_tied :
    let sh := { theSheet with faults := [aFault 4 cMiss, { aFault 4 cKill with whole := true }] }
    let first := fun (a b : FaultRec) => lexLt (faultKey sh a) (faultKey sh b) = true
    first (aFault 4 cMiss) { aFault 4 cKill with whole := true } ∧ sh.reported = some (aFault 4 cMiss)
    ∧ first { aFault 4 cOverrun with whole := true } { aFault 4 cKill with whole := true }
    ∧ first (aFault 4 cMiss) { aFault 4 cMiss with core := 1 } ∧ first (aFault 4 cMiss) { aFault 4 cMiss with col := .X }
    ∧ first (aFault 4 cMiss) { aFault 4 cMiss with word := 2 } :=
  ⟨by decide, by decide, by decide, by decide, by decide, by decide⟩

theorem witness_FaultsAndEnds :
    let failed := { theSheet with faults := [aFault 4 cMiss], words := [0] }
    let peered := { theSheet with pkgs := [0, 1], faults := [{ aFault 4 cMiss with pkg := 1 }] }
    let s := running (ctx .S) core theSheet
    s.sheet? 1 = some theSheet ∧ (failed.faults.filter fun f => f.pkg == 0 && decide (f.task ≤ 5)) ≠ []
    ∧ (peered.faults.filter fun f => f.pkg == 0 && decide (f.task ≤ 5)) = [] ∧ peered.faults ≠ []
    ∧ (∀ p ∈ failed.pkgs, p = 0) ∧ ¬(∀ p ∈ peered.pkgs, p = 0)
    ∧ (∀ k ∈ theSheet.gang, ∀ c, s.core? k = some c → ∀ o, (c.col o).cu.ended.isSome = true) ∧ theSheet.settle ≤ s.task theSheet
    ∧ s.task theSheet < ({ theSheet with settle := 10 } : Sheet).settle
    ∧ theSheet.reported = none ∧ failed.reported = some (aFault 4 cMiss)
    ∧ (aFault 4 cMiss).cause ≠ cPeer ∧ (aFault 4 cPeer).cause = cPeer ∧ (aFault 4 cMiss).task < (aFault 5 cMiss).task
    ∧ failed.retries + 1 ≤ recRetry (leastRecord.set 0 0x0100000000010000) ∧ failed.irrev ≠ 3 ∧ ¬(failed.retries + 1 ≤ recRetry failed.words) :=
  ⟨rfl, by decide, by decide, by decide, by decide, by decide,
    (fun k hk c hc o => by
      obtain rfl := List.mem_singleton.mp hk
      obtain rfl : core = c := Option.some.inj hc
      cases o <;> rfl),
    by decide, by decide, by decide, by decide, by decide, by decide, by decide, by decide, by decide, by decide⟩

/-- A sheet that has ended, and package 0 with its lines: one written plainly, one merged. -/
def ended : Sheet := { theSheet with state := 6, words := leastRecord }
def vatted (lines : List VLine) (old : List (Nat × Nat × Nat)) : Package :=
  { withRecord [] with vat := lines, filter := old, vatSize := [(0, 4), (1, 4), (2, 4), (3, 4), (4, 4), (5, 4), (6, 4), (7, 4)] }
def couching (p : Package) (shs : List Sheet) : State := { alone p with sheets := shs, nextSheet := 9, ttc := 4096 }
def aLine : VLine := ⟨1, 2, [(5, 9)], none, []⟩

theorem vattedCanonical (lines : List VLine) (old : List (Nat × Nat × Nat)) : (vatted lines old).Canonical :=
  ⟨rfl, (by decide : Tab.wf Partition.reset [(0, leastPart)] = true), fun n => by
      simp only [Package.part, vatted, withRecord, Tab.get, Tab.find?]
      split <;> rfl,
    rfl, rfl, rfl, rfl, rfl, (by decide : Tab.wf (0 : BitVec 5) [(0, 4), (1, 4), (2, 4), (3, 4), (4, 4), (5, 4), (6, 4), (7, 4)] = true), rfl, rfl, rfl, rfl, rfl, rfl, rfl, rfl, by simp [vatted, withRecord, Package.reset]⟩

/-- A stack whose recent-commit filter is past its last entry: no conflict, and no room. -/
theorem witness_CouchOfASheet_full (l : List (Nat × Nat × Nat)) (hl : l = List.replicate (filterRoom + 1) (0, 0, 0)) :
    (vatted [aLine] l).Canonical ∧ (vatted [aLine] l).conflict ended = none ∧ (vatted [aLine] l).hasRoom 1 = false := by
  have h0 : filterRoom < (l.filter fun e => e.2.1 / 4 % 8 == 0).length := by rw [hl]; simp
  have h2 : (l.filter fun e => e.2.1 == 2) = [] := by rw [hl]; simp
  clear hl
  refine ⟨vattedCanonical _ _, ?_, ?_⟩
  · have : (vatted [aLine] l).lastCommit 2 = 0 := by simp only [Package.lastCommit, vatted]; rw [h2]; rfl
    have hs : ended.swm = 0 := rfl
    simp [Package.conflict, Package.linesOf, vatted, aLine, hs] at this ⊢
    simp [this]
  · simp only [Package.hasRoom, List.all_eq_false]
    refine ⟨0, by simp, ?_⟩
    simp only [Bool.and_eq_true, decide_eq_true_eq, not_and]
    intro h
    have e : (vatted [aLine] l).filter = l := rfl
    rw [e] at h
    omega

theorem witness_CouchOfASheet :
    let s := couching (vatted [aLine] []) [ended]
    let p := vatted [aLine] []
    s.sheet? 1 = some ended ∧ (∀ q ∈ s.pkgs, q.Canonical) ∧ ended.home < s.pkgs.length ∧ s.markHome ended.part < s.pkgs.length
    ∧ (∀ k < 8, recDep ended.words k < 2 ^ 15) ∧ ended.patches = [] ∧ ended.state = 6 ∧ s.myTurn ended = true ∧ ended.irrev ≠ 3
    ∧ ended.pkgs.length ≤ 1 ∧ p.conflict ended = none ∧ p.hasRoom 1 = true ∧ ((p.linesOf 1).map (·.line)).Nodup
    ∧ (∀ v ∈ p.linesOf 1, 64 * v.line + 64 ≤ s.recAddr 0 0 0 0)
    ∧ (vatted [aLine] [(0, 2, 7)]).conflict ended = some aLine
    ∧ (let x := { ended with id := 2, rcd := 1, armSeq := 0, words := leastRecord }
       ¬(dependsOn x ended = true ∨ dependsOn ended x = true) ∧ x.armSeq ≠ ended.armSeq ∧ x.home = ended.home)
    ∧ dependsOn { ended with id := 2, words := leastRecord.set 16 0x8000 } ended = true
    ∧ (let x := { ended with id := 2, rcd := 1, endTtc := 9, words := leastRecord.set 0 0x0100000000000001 }
       recQueue ended.words < recQueue x.words ∧ ended.endTtc < x.endTtc)
    ∧ 1 < ({ ended with pkgs := [0, 1] } : Sheet).pkgs.length ∧ ({ ended with irrev := 3 } : Sheet).irrev = 3 := by
  refine ⟨rfl, (fun q hq => by rw [List.mem_singleton.mp hq]; exact vattedCanonical _ _), by decide, ?_, by decide, rfl, rfl, ?_,
    by decide, by decide, by decide, ?_, by decide, by decide +kernel, ?_, by decide, by decide, by decide, by decide, rfl⟩
  all_goals decide +kernel

theorem markHome_lt (s : State) (n : Nat) (h : 0 < s.pkgs.length) : s.markHome n < s.pkgs.length := by
  unfold State.markHome
  cases hf : s.domain.find? _ with
  | none => exact h
  | some q =>
    have hq := List.mem_of_find?_eq_some hf
    simp only [State.domain, List.mem_filterMap] at hq
    obtain ⟨n, -, hn⟩ := hq
    exact (List.findIdx?_eq_some_iff_findIdx_eq.mp hn).1

theorem witness_CouchOfASheet_marks (l : List VLine) (f : List (Nat × Nat × Nat)) (shs : List Sheet) :
    (couching (vatted l f) shs).keepsMarks 0 := by
  have h := markHome_lt (couching (vatted l f) shs) 0 Nat.zero_lt_one
  rw [State.keepsMarks, Nat.lt_one_iff.mp h]
  exact ⟨Nat.zero_lt_one, rfl, rfl⟩

/-- A sheet whose dependence, record 1, has failed; an irrevocable sheet beside another one that has ended. -/
theorem witness_CouchOfASheet_failed :
    let sh := { ended with words := dependent }
    let s := { couching queuing [sh] with nextSheet := 9 }
    s.sheet? 1 = some sh ∧ s.myTurn sh = true ∧ sh.irrev ≠ 3
    ∧ (∃ k < 8, 2 ^ 15 ≤ recDep sh.words k ∧ s.recState 0 0 (recDep sh.words k % 2 ^ 14) = 8
      ∧ s.recOutc 0 0 (recDep sh.words k % 2 ^ 14) ≠ 0)
    ∧ (∀ k < 8, recDep ended.words k < 2 ^ 15)
    ∧ (let own := { ended with irrev := 3 }
       let x := { ended with id := 2, rcd := 1 }
       (couching (vatted [aLine] []) [own, x]).myTurn own = true ∧ (couching (vatted [aLine] []) [own, x]).myTurn x = false) := by
  refine ⟨rfl, by decide +kernel, by decide, ⟨0, by decide, by decide, by decide +kernel, by decide +kernel⟩, by decide, by decide +kernel,
    by decide +kernel⟩

/-- A couching sheet that holds a PATCH, or an ARM, of record 5, which is free; record 6 waits. -/
def holding (v : Option W64) : Sheet := { ended with patches := [(4, ⟨1, 0, 5, 3, v⟩)] }

theorem witness_CouchOfASheet_held :
    let p : Package := { vatted [aLine] [] with hbm := [(0x106B8, 2)] }
    ∀ v ∈ [none, some 7], let s := couching p [holding v]
      s.sheet? 1 = some (holding v) ∧ keyPkg 0 < s.pkgs.length ∧ (holding v).rcd = 0 ∧ (holding v).state = 6 ∧ s.myTurn (holding v) = true
      ∧ (holding v).irrev ≠ 3 ∧ s.depFailed (holding v) = false ∧ (holding v).pkgs.length ≤ 1 ∧ p.conflict (holding v) = none
      ∧ p.hasRoom 1 = true ∧ s.recState 0 0 5 = 0 ∧ s.recState 0 0 6 = 2
      ∧ (∀ w ∈ p.linesOf 1, ∀ n ∈ [0, 5, 6], 64 * w.line + 64 ≤ s.recAddr 0 0 n 0) := by
  intro p v hv
  simp only [List.mem_cons, List.not_mem_nil, or_false] at hv
  rcases hv with rfl | rfl <;>
    exact ⟨rfl, by decide, rfl, rfl, by decide +kernel, by decide, by decide +kernel, by decide, by decide +kernel, by decide +kernel,
      by decide +kernel, by decide +kernel, by decide +kernel⟩

/-- A unit that works for partition 0 with one descriptor whose codec is 3. -/
def boxed : Package :=
  { Package.reset with
    boxes := [(0, { Headbox.reset with en := true, base := 0x1000, size := 16, tail := 1 })]
    parts := [(0, { leastPart with ehi := 63 })], hbm := [(0x1006, 3)] }

theorem boxedCanonical : boxed.Canonical :=
  packageOk _ { leastPart with ehi := 63 } (.inr rfl) rfl rfl (by decide +kernel) ⟨rfl, rfl, rfl, rfl, rfl, rfl, rfl, rfl, rfl, rfl⟩

/-- The words of a descriptor of a frame of 3840 by 2160, with its PITCH. -/
def jobOf (codec fmt out pitch : Nat) : List W64 :=
  [BitVec.ofNat 64 (codec * 2 ^ 48 + 0x100000), BitVec.ofNat 64 (fmt * 2 ^ 48 + out), BitVec.ofNat 64 (0x8700F0000000000 + pitch), 0x100008]

theorem jobRead : frameJob (jobOf 0 7 0x200000 7680) = ⟨0, 0x100000, 7, 0x200000, 2160, 3840, 7680, 0x100008⟩ := rfl

theorem witness_HeadboxIntake :
    let b := boxed.box 0
    let s := alone boxed
    boxed.Canonical ∧ boxed.silent = false ∧ ({ boxed with power := 3 } : Package).silent = true
    ∧ b.en = true ∧ b.job = none ∧ b.head ≠ b.tail ∧ b.size ≠ 0
    ∧ (∀ e ∈ s.agenda, e.act ≠ .headboxDescriptor 0 0) ∧ (∀ sh ∈ s.sheets, sh.past = [])
    ∧ (b.key = 0 ∧ (boxed.part b.part.toNat).keys.getLsbD 0 = false)
    ∧ (toWords (s.untimedRead 0 (boxed.boxKey b) 0x1000 32)).length = 4
    ∧ (toWords (s.untimedRead 0 (boxed.boxKey b) 0x1000 32)).getD 0 0 = 0x3000000000000 :=
  ⟨boxedCanonical, by decide, by decide, rfl, rfl, by decide, by decide, (fun e h => by cases h), (fun e h => by cases h), by decide,
    by decide +kernel, by decide +kernel⟩

/-- Descriptors refused for each reason, and one that is not if its bitstream is of its size. -/
theorem witness_HeadboxIntake_refusal :
    let b := boxed.box 0
    let s := alone boxed
    let x := boxed.part 0
    x.valid = true ∧ s.jobRefusal 0 b 0x10000000 (jobOf 0 7 0x200000 7680) = some 3
    ∧ reservedJob ((jobOf 0 7 0x200000 7680).set 0 0x4000000000000) = true ∧ reservedJob (jobOf 0 7 0x200000 7680) = false
    ∧ s.jobRefusal 0 b 0x1000 (jobOf 3 7 0x200000 7680) = some 1 ∧ s.jobRefusal 0 b 0x1000 (jobOf 0 5 0x200000 7680) = some 2
    ∧ s.jobRefusal 0 b 0x1000 (jobOf 0 7 0x200001 7680) = some 3
    ∧ (∀ stream, (frameJob ((jobOf 0 7 0x200000 7680).set 2 0x10F0000001E00)).refusal x stream = some 4)
    ∧ (∀ stream, Config.codedWidth 0 stream = 3840 → Config.codedHeight 0 stream = 2160 →
        (frameJob (jobOf 0 7 0x200000 7680)).refusal x stream = none)
    ∧ (x.valid = true ∧ x.elo.toNat * 2 ^ 21 ≤ 0x100000 ∧ 0x200000 + 2 * (7680 * 2160) ≤ (x.ehi.toNat + 1) * 2 ^ 21)
    ∧ 7680 % 128 = 0 ∧ 2 * 3840 ≤ 7680 ∧ 7700 % 128 ≠ 0 := by
  refine ⟨by decide, by decide +kernel, by decide +kernel, by decide +kernel, by decide +kernel, by decide +kernel, by decide +kernel,
    fun _ => rfl, fun stream h1 h2 => ?_, by decide, by decide, by decide, by decide⟩
  rw [jobRead]
  simp only [FrameJob.refusal, FrameJob.bytes, h1, h2]
  decide +kernel

/-- A unit at work: its status word outside the frame; none at work. -/
theorem witness_HeadboxIntake_frame :
    let p : Package := { boxed with boxes := [(0, { Headbox.reset with en := true, base := 0x1000, size := 16, tail := 1, job := some (jobOf 0 7 0x200000 7680) })] }
    p.Canonical ∧ (p.box 0).job = some (jobOf 0 7 0x200000 7680) ∧ (boxed.box 0).job = none ∧ 0x100008 + 8 ≤ 0x200000
    ∧ (∀ sh ∈ (alone p).sheets, sh.state ≠ 5 ∧ sh.past = []) :=
  ⟨packageOk _ { leastPart with ehi := 63 } (.inr rfl) rfl rfl (by decide +kernel) ⟨rfl, rfl, rfl, rfl, rfl, rfl, rfl, rfl, rfl, rfl⟩,
    rfl, rfl, by decide, (fun e h => by cases h)⟩

/-- A sheet of two packages that couches: asked, decided, applied; a version of line 2 at watermark 7. -/
def couched (decision : Option (Option Nat)) (prepared : List (Nat × Bool)) : Sheet :=
  { ended with state := 7, pkgs := [0, 1], decision := decision, prepared := prepared, vatFaults := [aFault 4 cVatConflict] }
def twoPackages (sh : Sheet) : State := { couching (vatted [aLine] []) [sh] with pkgs := [vatted [aLine] [], vatted [] []] }

theorem witness_CouchesOfManyPackages :
    let sh := couched none []
    (twoPackages sh).sheet? 1 = some sh ∧ (∀ p ∈ (twoPackages sh).pkgs, p.Canonical) ∧ sh.home < 2 ∧ (∀ e ∈ sh.prepared, e.1 ≠ 0)
    ∧ (couched none [(1, true)]).prepared.length + 1 = (couched none [(1, true)]).pkgs.length
    ∧ (vatted [aLine] [(0, 2, 7)]).conflict sh = some aLine ∧ (vatted [aLine] []).conflict sh = none ∧ (vatted [aLine] []).hasRoom 1 = true
    ∧ (let s := couched none [(0, true), (1, true)]
       s.state = 7 ∧ s.pkgs.length ≤ s.prepared.length ∧ ∀ e ∈ s.prepared, e.2 = true)
    ∧ (∃ e ∈ (couched none [(0, true), (1, false)]).prepared, e.2 = false)
    ∧ (couched (some (some 1)) [(0, true), (1, true)]).prepared.filter (fun e => e.1 != 0) ≠ []
    ∧ (couched (some (some 1)) [(0, true)]).prepared.filter (fun e => e.1 != 0) = [] ∧ sh.patches = [] ∧ (1 : Nat) < 2 ^ 48
    ∧ (couched (some none) [(0, true)]).decision = some none ∧ (∃ f ∈ sh.vatFaults, f.pkg ∈ sh.pkgs)
    ∧ (∃ p ∈ sh.pkgs, ∀ f ∈ sh.vatFaults, f.pkg ≠ p) := by
  refine ⟨rfl, (fun p hp => ?_), by decide, (fun e h => by cases h), by decide, by decide, by decide, by decide +kernel, by decide,
    ⟨(1, false), by decide, rfl⟩, by decide, by decide, rfl, by decide, rfl, by decide, by decide⟩
  rcases List.mem_cons.mp hp with rfl | hp
  · exact vattedCanonical _ _
  · rw [List.mem_singleton.mp hp]; exact vattedCanonical _ _

/-- The packages of the domain keep the watermarks. -/
theorem witness_CouchesOfManyPackages_marks (sh : Sheet) : (twoPackages sh).keepsMarks 0 := by
  have h : (twoPackages sh).markHome 0 < 2 := markHome_lt (twoPackages sh) 0 Nat.zero_lt_two
  rw [State.keepsMarks]
  interval_cases (twoPackages sh).markHome 0 <;> exact ⟨by simp [twoPackages], rfl, rfl⟩

/-- Lines merged and plain, versions of a line at watermark 7, an irrevocable sheet that has its turn. -/
theorem witness_CouchesOfManyPackages_lines :
    let p := vatted [aLine] []
    aLine.merge = none ∧ (∃ e ∈ [((4 : Nat), (1 : Byte))], e.1 / 4 = 5 / 4) ∧ (∀ e ∈ [((4 : Nat), (1 : Byte))], e.1 / 4 ≠ 9 / 4)
    ∧ [((4 : Nat), (1 : Byte))].Pairwise (fun a b => a.1 < b.1) ∧ (p.versions.all fun u => u.line != 2 || decide (u.w < 7)) = true
    ∧ (let v : Version := ⟨0, 2, 7, List.replicate 64 1, []⟩
       let q := { p with versions := [v] }
       q.versions.find? (fun v => v.line == 2 && v.w == 7) = some v ∧ (∀ u ∈ q.versions, u.line = 2 → 7 ≤ u.w)
       ∧ (couching q [{ ended with swm := 7 }]).oldest 0 = 7 ∧ (couching q []).oldest 0 < 7)
    ∧ (let sh := { theSheet with irrev := 1 }
       sh.state = 5 ∧ sh.irrev = 1 ∧ sh.held = .none ∧ sh.stops = [])
    ∧ (let sh := { ended with state := 5, irrev := 2, held := .inPlace }
       sh.irrev = 2 ∧ sh.held = .inPlace ∧ (couching p [sh]).myTurn sh = true ∧ p.conflict sh = none ∧ p.hasRoom 1 = true
       ∧ (vatted [aLine] [(0, 2, 7)]).conflict sh = some aLine) := by
  refine ⟨rfl, ⟨_, .head _, rfl⟩, by decide, by decide, by decide, ⟨by decide, by decide, by decide +kernel, by decide +kernel⟩,
    ⟨rfl, rfl, rfl, rfl⟩, rfl, rfl, by decide +kernel, by decide, by decide +kernel, by decide⟩

/-- Before a minor seam, and before the major one; slots with each cause of a unit. -/
def slotting (seams : Nat) (slot : Option Slot) : State := { alone joined with seams := seams, slot := slot, ttc := 4096 * seams }

theorem witness_MaintenanceSlots :
    let z : Slot := ⟨4096, false, 256, 0, 0, true⟩
    let s := slotting 0 (some z)
    let u := slotting 0 (some { z with worked := false })
    (slotting 0 none).slot = none ∧ (∃ p ∈ (slotting 0 none).pkgs, p.formed = true) ∧ (∀ e ∈ (slotting 0 none).cores, e.2.bad = [])
    ∧ (∀ e ∈ u.cores, e.2.bad = []) ∧ (∀ sh ∈ u.sheets, sh.victim = none) ∧ slotDue z s.agenda = none
    ∧ (∀ p ∈ u.pkgs, p.errors = [] ∧ p.lasting = [] ∧ p.reports = [] ∧ ∀ e ∈ p.parts, e.2.dblk.asks = [] ∧ e.2.dblk.frozen = false)
    ∧ (slotDue { z with worked := false } [⟨4095, phRead, some 1, .maintenanceSlot⟩]).isSome = true
    ∧ ¬(4096 * (0 + 1) % 1048576 = 0) ∧ 4096 * (255 + 1) % 1048576 = 0 ∧ (∀ a ∈ (slotting 255 none).announced, a.1 ≠ 1048576)
    ∧ ([(1048576, 1200, false)] : List (Nat × Nat × Bool)).filter (fun a => a.1 == 1048576) = (1048576, 1200, false) :: []
    ∧ s.slot ≠ none ∧ (∀ p ∈ (alone Package.reset).pkgs, p.formed = false)
    ∧ s.nextUnit z = none ∧ ({ s with requests := [(0, .thermal)] } : State).nextUnit z = some .thermal
    ∧ ({ s with requests := [(0, .extension)] } : State).nextUnit z = some .extension
    ∧ ({ s with requests := [(200, .thermal)] } : State).nextUnit z = none
    ∧ s.nextUnit { z with scan := 1 } = some .preemption
    ∧ z.stop < 300 ∧ (saved .release).held = .release ∧ ({ theSheet with victim := some 3 } : Sheet).sound = true
    ∧ (running (ctx .S) core theSheet).sheet? 1 = some theSheet := by
  refine ⟨rfl, ⟨_, .head _, rfl⟩, (fun e h => by cases h), (fun e h => by cases h), (fun e h => by cases h), rfl, ?_, by decide,
    by decide, by decide, (fun e h => by cases h),
    by decide, by decide, ?_, by decide, by decide, by decide, by decide, by decide, by decide, rfl, rfl, rfl⟩
  · intro p hp; rw [List.mem_singleton.mp hp]; exact ⟨rfl, rfl, rfl, by decide⟩
  · intro p hp; rw [List.mem_singleton.mp hp]; rfl

/-- LEASE packets that wait with a sheet whose range reaches from 1100 to 1250 MHz; a cluster with and without its spare. -/
theorem witness_MaintenanceSlots_work :
    let s := { couching (vatted [aLine] []) [ended] with leaseReq := [(0, 1200, 3)] }
    (alone joined).leaseReq = [] ∧ s.leaseReq ≠ [] ∧ (∀ r ∈ s.leaseReq, r.2.1 < 65536)
    ∧ (∀ sh ∈ s.clocked, recLo sh.words ≤ s.clocked.foldl (fun m sh => min m (recHi sh.words)) 1200)
    ∧ (∃ sh ∈ s.clocked, s.clocked.foldl (fun m sh => min m (recHi sh.words)) 900 < recLo sh.words)
    ∧ ({ alone joined with revokeReq := true } : State).revokeReq = true ∧ joined.formed = true ∧ unformed.formed = false
    ∧ ({ Port.reset with admitted := true } : Port).admitted = true ∧ joined.Canonical
    ∧ Tab.get false joined.cmapSpu 0 = false ∧ Tab.get false ({ joined with cmapSpu := [(0, true)] } : Package).cmapSpu 0 = true :=
  ⟨rfl, by decide, by decide, by decide, by decide, rfl, rfl, rfl, rfl, joinedCanonical, by decide, by decide⟩

theorem leastRead : (List.range 23).map (fun w => (alone (withRecord leastBytes)).recWord 0 0 0 w) = leastRecord := by decide +kernel

theorem leastSections : ((withRecord leastBytes).image 0).secs = [] := by decide +kernel
theorem leastImage : (withRecord leastBytes).image 0 = ⟨withRecord leastBytes, 0, []⟩ := by
  simp only [Package.image]; exact congrArg (Image.mk _ _) leastSections
theorem leastNone (o : Col) (a : Nat) : ((Image.mk (withRecord leastBytes) 0 []).column o).instrAt o a = none := by
  have hcode : ((Image.mk (withRecord leastBytes) 0 []).column o).code = [] := rfl
  have hlits : ((Image.mk (withRecord leastBytes) 0 []).column o).lits = [] := rfl
  simp only [Column.instrAt, Column.tagged, Column.word, Column.literal, hcode, hlits, Tab.get, Tab.find?]
  cases o <;> simp <;> rfl
theorem leastWaits : (Image.mk (withRecord leastBytes) 0 []).forwardWait = false := by
  have h : (Image.mk (withRecord leastBytes) 0 []).firsts = [] := by
    simp only [Image.firsts, List.flatMap_eq_nil_iff, List.filterMap_eq_nil_iff]
    intro c hc e _
    simp only [Image.columns, List.mem_map] at hc
    obtain ⟨o, _, rfl⟩ := hc
    rw [leastNone]; rfl
  simp only [Image.forwardWait, h]; rfl
theorem leastReserved : (Image.mk (withRecord leastBytes) 0 []).reservedSet = false := by
  have h : ∀ k, (Image.mk (withRecord leastBytes) 0 []).last k = [] := fun k => rfl
  have hc : (List.range 8).any (Screen.loaded (Image.mk (withRecord leastBytes) 0 [])).reservedClass = false := by decide +kernel
  have hh : recReservedSet (toWords ((withRecord leastBytes).getMem 0 256)) = false := by decide +kernel
  simp only [Image.reservedSet, hc, hh]
  simp [h, chunks, toWords, words64, Image.ringWords]
theorem leastPlanned : (alone (withRecord leastBytes)).planOk (withRecord leastBytes) (Image.mk (withRecord leastBytes) 0 []) leastRecord [0] = true := by
  have hp : recPlan leastRecord = 0 := by decide
  have hw : (Image.mk (withRecord leastBytes) 0 []).weaveIssues leastRecord = [] := by
    simp only [Image.weaveIssues, leastNone, List.filterMap_eq_nil_iff]; intro _ _; trivial
  have hr : ∀ plan, (alone (withRecord leastBytes)).remotePlanned (Image.mk (withRecord leastBytes) 0 []) plan [0] = true := by
    intro plan
    simp only [State.remotePlanned, leastNone, List.all_eq_true]; intro _ _; trivial
  simp only [State.planOk, hp, hw, hr]; rfl
theorem leastFits : (Image.mk (withRecord leastBytes) 0 []).refused leastRecord (fun _ => false) = false := by decide +kernel
theorem leastArms : (alone (withRecord leastBytes)).armCode 0 0 0 leastRecord = none := by
  have h0 : (alone (withRecord leastBytes)).pkg 0 = withRecord leastBytes := rfl
  have ha : (alone (withRecord leastBytes)).asRead 0 = withRecord leastBytes := rfl
  have hi : recImage leastRecord = 0 := by decide
  have hg : (alone (withRecord leastBytes)).groupOf (withRecord leastBytes) leastRecord = [some 0] := by decide +kernel
  have hm : [some 0].filterMap id = [0] := rfl
  have h3 : (alone (withRecord leastBytes)).badGang 0 0 leastRecord = false := by decide +kernel
  have hl : recLen leastRecord = false := by decide
  have hw : ∀ x, ((alone (withRecord leastBytes)).windowsOf 0 leastRecord).any x = false := by intro x; rfl
  simp only [State.armCode, h0, ha, hi, leastImage, hg, hm, h3, hl, leastWaits, leastReserved, leastPlanned, hw, leastFits]
  decide +kernel

theorem leastRefused : (alone (withRecord leastBytes)).armCode 0 0 0 (0 :: leastRecord.tail) = some 1
    ∧ (alone (withRecord leastBytes)).armCode 0 0 0 (leastRecord.set 7 0) = some 2 := by
  have h0 : (alone (withRecord leastBytes)).pkg 0 = withRecord leastBytes := rfl
  have ha : (alone (withRecord leastBytes)).asRead 0 = withRecord leastBytes := rfl
  have hi : recImage (0 :: leastRecord.tail) = 0 ∧ recImage (leastRecord.set 7 0) = 0 := by decide
  constructor <;> simp only [State.armCode, h0, ha, hi, leastImage, leastReserved] <;> decide +kernel

theorem witness_ArmAndPartitionCommands :
    (withRecord leastBytes).Canonical ∧ (withRecord leastBytes).formed = true ∧ ((withRecord leastBytes).part 0).valid = true
    ∧ (alone (withRecord leastBytes)).recState 0 0 0 = 0
    ∧ (List.range 23).map (fun w => (alone (withRecord leastBytes)).recWord 0 0 0 w) = leastRecord
    ∧ (alone (withRecord leastBytes)).armCode 0 0 0 leastRecord = none
    ∧ (alone (withRecord leastBytes)).armCode 0 0 0 (0 :: leastRecord.tail) = some 1
    ∧ (∀ sh ∈ (alone (withRecord leastBytes)).sheets, sh.id ≠ (alone (withRecord leastBytes)).nextSheet)
    ∧ ((withRecord leastBytes).part 1).valid = false
    ∧ (leastPart.write 0x8000000000000002 0x1000001 0 0 (0, 0) 0).shares leastPart = false
    ∧ (leastPart.write 0x8000000000000001 0 0 0 (0, 0) 0).shares leastPart = true
    ∧ (leastPart.write 0 0 0 0 (0, 0) 0).shares leastPart = false :=
  ⟨packageOk _ leastPart (.inr rfl) rfl rfl (by decide +kernel) ⟨rfl, rfl, rfl, rfl, rfl, rfl, rfl, rfl, rfl, rfl⟩, rfl, by decide, by decide +kernel, leastRead, leastArms, leastRefused.1, (fun _ h => by cases h), by decide,
    by decide +kernel, by decide +kernel, by decide +kernel⟩

/-- PARTITION that creates partition 1, one that another's clusters forbid, one of a partition with a running sheet, one that deletes. -/
theorem witness_ArmAndPartitionCommands_partition :
    let p := withRecord leastBytes
    let new := fun (m : W64) => (p.part 1).write 0x8000000000000002 0x1000001 0 0 (0, 0) m
    (∀ m, (new m).valid = true ∧ ∀ e ∈ p.parts, e.1 ≠ 1 → (new m).shares e.2 = false)
    ∧ (∀ m, ∃ e ∈ p.parts, e.1 ≠ 1 ∧ ((p.part 1).write 0x8000000000000001 0 0 0 (0, 0) m).shares e.2 = true)
    ∧ (p.part 1).valid = false ∧ (p.part 0).valid = true ∧ (∀ m, ((p.part 0).write 0 0 0 0 (0, 0) m).valid = false)
    ∧ (∃ sh ∈ (running (ctx .S) core theSheet).sheets, sh.part = 0 ∧ 2 ≤ sh.state ∧ sh.state ≤ 7)
    ∧ ¬(∃ sh ∈ (alone p).sheets, sh.part = 1 ∧ 2 ≤ sh.state ∧ sh.state ≤ 7)
    ∧ p.versions.Pairwise (fun u v => u.line = v.line → u.part = v.part ∧ u.w < v.w) :=
  ⟨fun m => ⟨rfl, fun e he _ => by
      rw [List.mem_singleton.mp he]
      simp only [Partition.shares, Partition.write]
      decide +kernel⟩,
    fun m => ⟨_, .head _, by decide, by simp only [Partition.shares, Partition.write]; decide +kernel⟩, by decide, by decide,
    fun m => rfl, by decide, by decide, .nil⟩

/-! One step each: the value is worked out by hand from the rule named. -/

/-- The values that a word of column S hands to the registers, s-registers set as given. -/
def gives (l : Tab W64) (i : Instr) : List (W64 × BitVec 6) :=
  match exec i (running (ctx .S) { core with s := l } theSheet) with
  | .next t => t.agenda.filterMap fun e => match e.act with
    | .registerWriteback _ _ v fl => some (v, fl)
    | _ => none
  | _ => []

/-- What a word of column V hands to lane 0 of its register, v1 and v2 and v3 set in that lane. -/
def laneGives (shape : BitVec 21) (a b d : W32) (i : Instr) : List (Option W32 × BitVec 6) :=
  match exec i (running (ctx .V) { core with shape := shape, v := ([(1024, a), (2048, b), (3072, d)].filter fun e => e.2 != 0) } theSheet) with
  | .next t => t.agenda.filterMap fun e => match e.act with
    | .vResultWriteback _ r => some (((r.v.headD (0, [])).2.headD none), r.fl)
    | _ => none
  | _ => []

/-- The faults a word of column S raises: cause and subcode. -/
def raises (l : Tab W64) (i : Instr) : List (Nat × Nat) :=
  match exec i (running (ctx .S) { core with s := l } theSheet) with
  | .next t => (t.sheets.flatMap (·.faults)).map fun f => (f.cause, f.sub)
  | _ => []

/-- R125: the sum of -1 and 1; -7 over 2 toward zero, its remainder; a zero divisor; the high product of -1 and 2. -/
theorem test_integer_results :
    gives [(1, 0xFFFFFFFFFFFFFFFF), (2, 1)] (.add 3 1 2) = [(0, 0)]
    ∧ gives [(1, 0xFFFFFFFFFFFFFFF9), (2, 2)] (.div 3 1 2) = [(0xFFFFFFFFFFFFFFFD, 0)]
    ∧ gives [(1, 5)] (.div 3 1 2) = [(0xFFFFFFFFFFFFFFFF, 0)]
    ∧ gives [(1, 0xFFFFFFFFFFFFFFF9), (2, 2)] (.rem 3 1 2) = [(0xFFFFFFFFFFFFFFFF, 0)]
    ∧ gives [(1, 0x8000000000000000), (2, 0xFFFFFFFFFFFFFFFF)] (.rem 3 1 2) = [(0, 0)]
    ∧ gives [(1, 0xFFFFFFFFFFFFFFFF), (2, 2)] (.mulh 3 1 2) = [(0xFFFFFFFFFFFFFFFF, 0)]
    ∧ gives [(1, 0x8000000000000000), (2, 0x43)] (.sar 3 1 2) = [(0xF000000000000000, 0)]
    ∧ gives [(1, 0)] (.clz 3 1) = [(64, 0)]
    ∧ gives [(1, 0xF0F)] (.popc 3 1) = [(8, 0)] := by
  decide +kernel

/-- R126, R127, R130: an immediate of -1; -1 as the greatest unsigned immediate; LDKH on -1 (the rule's own example). -/
theorem test_immediates_and_compares :
    gives [(1, 5)] (.addi 3 1 0x7FF) = [(4, 0)]
    ∧ gives [(3, 7)] (.cltui 2 3 0x7FF) = [(1, 0)]
    ∧ gives [(1, 0xFFFFFFFFFFFFFFFF), (2, 0)] (.clt 2 1 2) = [(1, 0)]
    ∧ gives [(9, 0xFFFFFFFFFFFFFFFF)] (.ldkh 0 9 0x4000) = [(0xFFFFFFFFFFFF4000, 0)]
    ∧ gives [] (.ldk 3 0x10000) = [(0xFFFFFFFFFFFF0000, 0)]
    ∧ gives [(1, 5), (2, 6)] (.sel 3 1 2 1) = [(6, 0)] := by
  decide +kernel

/-- R131: an address at 0x180000, and one that is not a multiple of its size, raise REGION_VIOLATION, SCRATCH. -/
theorem test_load_faults :
    raises [(1, 0x180000)] (.ldb 3 1 0) = [(cRegion, rScratch)]
    ∧ raises [(1, 0x1001)] (.ldw 3 1 0) = [(cRegion, rScratch)] := by
  decide +kernel

/-- R134, R135: 1 + 2 = 3; 1 over 0 is infinite with DZ (bit 1); a NaN to integer is 0 with NV; 2.5 rounds to 2, and toward zero
to 2, with NX; the square root of -1. Flags: R60. -/
theorem test_scalar_float :
    gives [(1, 0x3F800000), (2, 0x40000000)] (.fadd 3 1 2) = [(0x40400000, 0)]
    ∧ gives [(1, 0x3F800000)] (.fdiv 3 1 2) = [(0x7F800000, 2)]
    ∧ gives [(1, 0x7FC00000)] (.ftoi 3 1) = [(0, 1)]
    ∧ (gives [(1, 0x40200000)] (.ftoi 3 1)).map (·.1) = [2]
    ∧ (gives [(1, 0xFFFFFFFFFFFFFFFF)] (.itof 3 1)).map (·.1) = [0xBF800000]
    ∧ gives [(1, 0x40800000)] (.fsqrt 3 1) = [(0x40000000, 0)]
    ∧ (gives [(1, 0x40000000), (2, 0x40400000), (3, 0x3F800000)] (.ffma 3 1 2)).map (·.1) = [0x40E00000] := by
  decide +kernel

/-- R151 to R156 on one lane: 1.5 times 2; the fused forms around 6; the immediate and funnel examples of R155; a clamp sets IS. -/
theorem test_lane_results :
    laneGives 0 0x3FC00000 0x40000000 0 (.vmul 3 1 2 0) = [(some 0x40400000, 0)]
    ∧ (laneGives 0 0x40000000 0x40400000 0x3F800000 (.vfnma 3 1 2 0)).map (·.1) = [some 0xC0A00000]
    ∧ (laneGives 0 0x40000000 0x40400000 0x3F800000 (.vfms 3 1 2 0)).map (·.1) = [some 0x40A00000]
    ∧ laneGives 0x100 0xCD000000 8 0xAB (.vfshl 3 1 2 0) = [(some 0xABCD, 0)]
    ∧ laneGives 0x100 0x12 8 0xABCD (.vfshr 3 1 2 0) = [(some 0x120000AB, 0)]
    ∧ laneGives 0x100 0x80000000 32 0 (.vsar 3 1 2 0) = [(some 0xFFFFFFFF, 0)]
    ∧ laneGives 0x500 0x01010101 0x08010203 0 (.vshl 3 1 2 0) = [(some 0x00020408, 0)]
    ∧ laneGives 0x500 0xFF01FF01 0x01010101 0 (.viadd 3 1 2 0) = [(some 0x00020002, 0)]
    ∧ laneGives 0x100 0x7FFFFFFF 1 0 (.viadds 3 1 2 0) = [(some 0x7FFFFFFF, 0x20)]
    ∧ laneGives 0x400 0x00010000 0 0 (.vclz 3 1 0) = [(some 0x000F0010, 0)]
    ∧ (laneGives 0 0x40400000 0 0 (.vexp2 3 1 0)).map (·.1) = [some 0x41000000]
    ∧ (laneGives 0 0x3F000000 0 0 (.vsin 3 1 0)).map (·.1) = [some 0x3F800000]
    ∧ laneGives 0 0xBF800000 0 0 (.vabs 3 1 0) = [(some 0x3F800000, 0)] := by
  decide +kernel

/-- R368, the standard it names (IEEE 1619): the first 32 bytes of the test vector of AES-256-XTS with data unit 255. -/
theorem test_xts :
    let keys := (bytesOf 32 0x2718281828459045235360287471352662497757247093699959574966967627).reverse
      ++ (bytesOf 32 0x3141592653589793238462643383279502884197169399375105820974944592).reverse
    numberOf ((xtsSeal keys 255 ((List.range 32).map (BitVec.ofNat 8))).map BitVec.toNat).reverse
      = 0x1c3b3a102f770386e4836c99e370cf9bea00803f5e482357a4ae12d414a3e63b := by
  decide +kernel

/-- What the block cipher's rounds under three round keys make of a block, its inverse takes back. -/
theorem test_blockInverse :
    let ks := [List.range 16, (List.range 16).map (· * 7 % 256), (List.range 16).map (· * 13 % 256)]
    openBlock ks (sealBlock ks ((List.range 16).map (· * 17))) = (List.range 16).map (· * 17) := by
  decide +kernel

end Sys2Proof.Tests
end

section
/-! SUPPORT. What the decoder admits, the fields of the work identifier, and the S words WID, WIDN, CAL and ABORT
(R14, R15, R136, R137, R143, R144). -/

namespace Sys2Proof.Machine
open Sys2Proof

/-- A word that decodes has every field in its range (R119). -/
theorem wellFormed_of_decode {o : Col} {w : Nat} {l : Option W32} {d : Decoded} {i : Instr} (h : decode o w l = .ok d)
    (hi : d.ins = i) : i.wellFormed = true := by
  subst hi
  unfold decode at h
  split at h
  case h_1 => cases h
  case h_2 j _ =>
    split at h
    case isTrue hj => cases h; exact hj
    case isFalse => cases h

/-! The work identifier. -/

theorem State.wordsOf_of_runs {s : State} {k : Nat} {c : Core} {sh : Sheet} (h : s.Runs k c sh) :
    s.wordsOf k = sh.words := by
  simp only [State.wordsOf, h.core, h.sheet]

/-- The divisor of field j is the product of the bounds below it (R14). -/
theorem workField_eq_prod (ws : List W64) (lin : Nat) {j : Nat} (hj : j < 6) :
    workField ws lin j = lin / (((List.range 6).map (recLim ws)).take j).prod % recLim ws j := by
  rw [workField, ← List.prod_eq_foldl, ← List.map_take, List.take_range, Nat.min_eq_left hj.le]

/-- VALID stands at bit 63 of WIDB (R15). -/
theorem widbOf_eq (ws : List W64) (lin : BitVec 40) :
    widbOf ws lin = lin.setWidth 64
      + if lin.toNat < ((List.range 6).map (recLim ws)).prod then 0x8000000000000000 else 0 := by
  rw [widbOf, recWork, ← List.prod_eq_foldl, w64, BitVec.ofNat_add, BitVec.ofNat_toNat]
  split <;> rfl

theorem exec_wid_gives {s : State} {c : Core} {sh : Sheet} {rd : BitVec 6} {j : BitVec 9} (hr : s.Runs s.cur.k c sh)
    (ho : s.cur.off = false) (hy : c.Ready s.cur [] [(sReg rd.toNat, s.cur.t + 1)]) :
    s.GivesS sh c (.wid rd j) rd 1 (w64 (workField sh.words c.lin.toNat j.toNat), 0) :=
  State.wordsOf_of_runs hr ▸ scalarOp_gives hr ho rfl hy

theorem exec_widn_leaves {s : State} {c : Core} {sh : Sheet} {rd : BitVec 6} {lin : BitVec 40}
    (hr : s.Runs s.cur.k c sh) (ho : s.cur.off = false) (hy : c.Ready s.cur [] [(sReg rd.toNat, s.cur.t + 1)])
    (hl : lin = BitVec.ofNat 40 (min (c.lin.toNat + recGang sh.words) (2 ^ 40 - 1))) :
    exec (.widn rd) s = .next (s.leaves sh s.cur.k { c.claim s.cur [(sReg rd.toNat, s.cur.t + 1)] with lin := lin }
      [(s.cur.t + 1, phStart, .registerWriteback s.cur.k (.s rd.toNat) (widbOf sh.words lin) 0)]) := by
  subst hl
  change execWidn rd s = _
  unfold execWidn
  refine State.issueOn_clean hr ?_ rfl
  rw [if_neg (Bool.eq_false_iff.mp ho), Core.checked_of_ready hy, State.wordsOf_of_runs hr]
  rfl

/-! The slot calendar. -/

/-- The word of CAL: a seam's TTC, and a bit each for a major slot and its two announcements (R143). -/
theorem calendarWord_eq (n : Nat) (major change revoked : Bool) :
    w64 (n + (if major then 1 else 0) + (if change then 2 else 0) + (if revoked then 4 else 0))
      = BitVec.ofNat 64 (n + major.toNat + 2 * change.toNat + 4 * revoked.toNat) := by
  have weight (b : Bool) (m : Nat) : (if b then m else 0) = m * b.toNat := by cases b <;> simp
  simp only [w64, weight, one_mul]

/-! ABORT. -/

theorem State.raiseAll_singleton {s : State} {id : Nat} {sh : Sheet} (h : s.sheet? id = some sh) (f : CFault) :
    s.raiseAll id [f] = s.raise id (s.faultRec sh f) := by
  rw [State.raiseAll, h]
  rfl

theorem exec_abort_off {s : State} {c : Core} {sh : Sheet} (rd : BitVec 6) (code : BitVec 9)
    (hr : s.Runs s.cur.k c sh) (ho : s.cur.off = true) :
    exec (.abort rd code) s = .next (s.leaves sh s.cur.k c []) := by
  change execAbort rd code s = _
  unfold execAbort
  exact State.issueOn_clean hr (if_pos ho) rfl

theorem exec_abort_raises {s : State} {c : Core} {sh : Sheet} {rd : BitVec 6} (code : BitVec 9)
    (hr : s.Runs s.cur.k c sh) (ho : s.cur.off = false) (hy : c.Ready s.cur [sReg rd.toNat] []) :
    exec (.abort rd code) s = .next ((s.leaves sh s.cur.k (c.claim s.cur []) []).raiseAll sh.id
      [⟨cAbort, 0, s.cur.desc, s.cur.t, code.setWidth 64, c.sget rd.toNat, 0⟩]) := by
  change execAbort rd code s = _
  unfold execAbort
  refine clean_faults hr ?_ rfl
  rw [if_neg (Bool.eq_false_iff.mp ho), Core.checked_of_ready hy, Core.sget_claim, w64, BitVec.ofNat_toNat]
  rfl

end Sys2Proof.Machine
end

section
/-! PROOFS. The statements about WID and WIDN, and about CAL and ABORT. -/

namespace Sys2Proof.Machine
open Sys2Proof

/-- Settles O17: the range of j is a field check of the decoder, and the model's running product and VALID are those of
R14 and R15. -/
theorem workIdentifierWords : Obligations.WorkIdentifierWords := by
  refine ⟨fun w l d rd j hd hi => of_decide_eq_true (wellFormed_of_decode hd hi),
    fun s c sh rd j hr ho hy => ⟨fun hj => ?_, ?_⟩⟩
  · exact workField_eq_prod sh.words c.lin.toNat hj ▸ exec_wid_gives hr ho hy
  · intro lin widb
    have hv : widb = widbOf sh.words lin := (widbOf_eq sh.words lin).symm
    exact hv ▸ exec_widn_leaves hr ho hy rfl

theorem calendarRead : Says.CalendarRead := by
  refine ⟨fun w l d rd k hd hi => of_decide_eq_true (wellFormed_of_decode hd hi), fun s c sh rd k hr ho hy _ => ?_⟩
  intro n major change revoked
  rw [← calendarWord_eq]
  exact scalarOp_gives hr ho rfl hy

theorem abortEndsTheSheet : Says.AbortEndsTheSheet := by
  intro s c sh rd code hr hy
  refine ⟨exec_abort_off rd code hr, fun ho => ?_⟩
  have hs : s.sheet? sh.id = some sh := State.sheet?_id hr.sheet ▸ hr.sheet
  rw [exec_abort_raises code hr ho hy, State.raiseAll_singleton (sh := sh)]
  exact hs

/-- Settles O18: CAL is a scalar result at issue + 1, and ABORT raises its one fault on the sheet of its core. -/
theorem calendarAndAbort : Obligations.CalendarAndAbort :=
  ⟨calendarRead, abortEndsTheSheet⟩

end Sys2Proof.Machine
end
